-- ==== Sys2Proof/Word.lean ====
section
/-!
DEFINITION. The word types of the Falion and the type of sparse tables.
Words are little-endian everywhere (R10, R36).
-/

namespace Sys2Proof

/-- A byte of memory. -/
abbrev Byte := BitVec 8

/-- A 64-bit pattern: a scalar register, an address, a syllable (R14, R85). -/
abbrev Word := BitVec 64

/-- A 32-bit pattern: a vector lane, a ring count (R105, R228). -/
abbrev Half := BitVec 32

/-- The 2,048 bits of a vector register: lane `i` in bits `32 i + 31` to `32 i` (R105). -/
abbrev Vec := BitVec 2048

/-- A mask register: bit `i` enables lane `i` (R106). -/
abbrev Mask := BitVec 64

/-- A table by number: pairs of a number and a value, numbers strictly rising, no value equal to the
table's default. `Machine/Sparse.lean` holds its operations. -/
abbrev Sparse (α : Type) := List (Nat × α)

/-- Bytes by address. The default is the byte 0 (assumption entry 2). -/
abbrev Memory := Sparse Byte

end Sys2Proof
end

