-- ==== Sys2Proof/Config.lean ====
section
/-!
DEFINITION. What an implementation fixes, and the free values: constants without a body, which no proof
can evaluate. A claim about a free value holds whatever it is.
-/

namespace Sys2Proof.Config

/-- Arithmetic-clock cycles that pass in one step of the machine, a free value of the step's number.
DESIGN CHOICE (assumption entry 5): the manual bounds durations and fixes few. -/
opaque elapsedCycles : Nat → Nat

/-- Nanoseconds that pass on the time unit in one step, a free value of the step's number.
DESIGN CHOICE (assumption entry 5). -/
opaque elapsedNs : Nat → Nat

/-- How far %time is slewed in one step, within the 200 parts per million of R394, a free value of the step's number.
DESIGN CHOICE (assumption entry 5). -/
opaque slew : Nat → Nat

/-- Which of several enabled agents moves next, a free value of the step's number (R4).
DESIGN CHOICE (assumption entry 4). -/
opaque choice : Nat → Nat

/-- The context identifier given to a context, a free value of the step's number; the machine takes the
first unused identifier from it upward (R352). DESIGN CHOICE (assumption entry 14). -/
opaque ctxId : Nat → Nat

/-- Which free retention register a RETAIN takes, a free value of the step's number (R155 does not say).
DESIGN CHOICE (assumption entry 22). -/
opaque retainIndex : Nat → Nat

/-- Which granule leaves a full L1 when another is filled, a free value of the step's number (R6, R197).
DESIGN CHOICE (assumption entry 12). -/
opaque victim : Nat → Nat

/-- The block of granules that an L1 allocates: its size and where in it the granule accessed lies, a free value of the
step's number (R153 leaves them to a predictor). DESIGN CHOICE (assumption entry 12). -/
opaque block : Nat → Nat

/-- Which lanes of a late vector result land at a completion, a free value of the step's number (R217).
DESIGN CHOICE (assumption entry 3). -/
opaque landing : Nat → BitVec 64

/-- How many of the units that accesses have touched come to an HBM controller for a polder in a step, a free value of the
step's number, the polder and the controller: which do depends on caches that change no value (R359).
DESIGN CHOICE (assumption entry 18). -/
opaque traffic : Nat → Nat → Nat → Nat

/-- How many of a copy command's remaining tiles an immediate save finds written, a free value of the step's number
(R333). DESIGN CHOICE (assumption entry 23). -/
opaque progress : Nat → Nat

/-- Whether a piece of a tile that a stopped copy command had not written in full has been written, a free value of
the step's number and the piece's address (R251, R317). DESIGN CHOICE (assumption entry 23). -/
opaque landed : Nat → Nat → Bool

/-- Which commands that had retired before a save stand in an order that the context image does not carry, a free value of
the place in the order (R254, R397). DESIGN CHOICE (assumption entry 27). -/
opaque unrecorded : Nat → Nat

/-- Whether an access of fixed-latency mode exceeded its declared latency, a free value of the step's number (R220).
DESIGN CHOICE (assumption entry 16). -/
opaque late : Nat → Bool

/-- In which order the syllables of a synced bundle act, and which of them leave what may come later for later: R213 gives
them one cycle and no order. DESIGN CHOICE (assumption entry 7). -/
opaque mates : Nat → Nat

/-- Whether a failed replay is of the flit that failed before it, a free value of the step's number (R369 counts the
replays of one flit). DESIGN CHOICE (assumption entry 17). -/
opaque sameFlit : Nat → Bool

/-- The home L2 slice, 0 to 191, of a word pair's physical address (R174, R175); the manual does not
give the address map. DESIGN CHOICE (assumption entry 20). -/
opaque homeSlice : Nat → Nat

/-- The HBM controller, 0 to 7, of a byte (R359), as an event's source names it (R331); the manual does not give the
address map. DESIGN CHOICE (assumption entry 20). -/
opaque hbmController : Nat → Nat

/-- The serial number fused at manufacture (R396). DESIGN CHOICE (assumption entry 21). -/
opaque serial : Word

/-- The SHA-256 of the signing key, fused at manufacture (R392). DESIGN CHOICE (assumption entry 21). -/
opaque fusedKey : BitVec 256

/-- The fused rollback counter (R392). DESIGN CHOICE (assumption entry 21). -/
opaque rollback : BitVec 16

/-- The RSASSA-PSS signature over a report's bytes 127 to 0, least significant byte first; the private key
never leaves the security engine (R393). DESIGN CHOICE (assumption entry 21). -/
opaque signature : BitVec 1024 → BitVec 3072

/-- Hottest junction and averaged power as sensors give them, free values of the step's number (R396).
DESIGN CHOICE (assumption entry 5). -/
opaque sensor : Nat → BitVec 32

/-- Nanoseconds for which the limits hold before the clock is raised (R390). -/
def restoreAfter : Nat := 10000000

/-- Compute dies (R6). -/
def dies : Nat := 4

/-- Cores of a compute die (R6): physical core `64 k + i` is core `i` of die `k` (R349). -/
def coresPerDie : Nat := 64

/-- L2 slices of a compute die (R6). -/
def slicesPerDie : Nat := 48

/-- Bytes of an L2 slice (R6). Its copies of host-backed SC pages and of poisoned sectors are held in the state (R169, R330);
the others hold the bytes of memory as they stand, and change no value. -/
def sliceBytes : Nat := 2 * 2 ^ 20

/-- Granules that a core's L1 of 256 KiB holds (R6). -/
def l1Granules : Nat := 8192

/-- Cores of the package (R6). -/
def coreCount : Nat := 256

/-- Bytes of main memory: eight stacks of sixteen 48 Gb dies, 768 GB (R9). The manual does not say what its GB is; the
model takes 2^30 bytes, as the 48 Gb of a die are counted (DESIGN CHOICE, assumption entry 19). -/
def hbmBytes : Nat := 8 * 96 * 2 ^ 30

/-- Deepest loop nest (R96). -/
def loopDepth : Nat := 4

/-- Items a deque holds (R284). -/
def dequeDepth : Nat := 1024

/-- Entries of a vector queue (R221). -/
def vectorQueueDepth : Nat := 8

/-- Entries of a scalar queue (R221). -/
def scalarQueueDepth : Nat := 32

/-- Copy and gather commands in flight on a core (R253). -/
def scoreboardEntries : Nat := 32

/-- Bytes in flight on a core's outbound side (R248). -/
def outboundBytes : Nat := 1048576

/-- Entries of an L2 slice's ordered-reduction buffer (R175). -/
def rofBufferEntries : Nat := 64

/-- Failed replays of one flit after which its port goes down (R369). -/
def replayLimit : Nat := 16

/-- Nanoseconds after which an access at a peer has timed out (R368). -/
def peerLimit : Nat := 1000000

/-- Nanoseconds that a polder's reset lets its contexts drain (R360). -/
def drainLimit : Nat := 50000

/-- Range-watch slots of the device (R305). -/
def watchSlots : Nat := 16384

/-- TLB entries of a core (R357). -/
def tlbEntries : Nat := 512

/-- Entries of the TLB that a compute die shares (R357). -/
def dieTlbEntries : Nat := 16384

/-- Pointers that a device launch queue holds (R281). -/
def deviceQueueDepth : Nat := 256

end Sys2Proof.Config
end

