-- ==== Sys2Proof/Machine/Sparse.lean ====
section
/-!
DEFINITION. Sparse tables in one canonical form, and fixed tables with total access.
A sparse table lists the entries that differ from the default, keys strictly rising, so equal tables are
equal lists.
-/

namespace Sys2Proof.Machine

/-- What a sparse table holds at a key: the listed value, or the default `d`. -/
def sget {α : Type} (d : α) : Sparse α → Nat → α
  | [], _ => d
  | (k, v) :: m, n => if n = k then v else if n < k then d else sget d m n

/-- The table without its entry at `n`, keys above `n` kept. -/
def sdel {α : Type} : Sparse α → Nat → Sparse α
  | [], _ => []
  | (k, v) :: m, n => if n = k then m else if n < k then (k, v) :: m else (k, v) :: sdel m n

/-- The table with `v` listed at `n`. -/
def sput {α : Type} : Sparse α → Nat → α → Sparse α
  | [], n, v => [(n, v)]
  | (k, w) :: m, n, v =>
    if n = k then (n, v) :: m else if n < k then (n, v) :: (k, w) :: m else (k, w) :: sput m n v

/-- The table with the value at `n` set to `v`; writing the default removes the entry. -/
def sset {α : Type} [DecidableEq α] (d : α) (m : Sparse α) (n : Nat) (v : α) : Sparse α :=
  if v = d then sdel m n else sput m n v

/-- The canonical form: keys strictly rising, all at least `lo`, no value equal to the default. -/
def swfFrom {α : Type} [DecidableEq α] (d : α) (lo : Nat) : Sparse α → Bool
  | [] => true
  | (k, v) :: m => decide (lo ≤ k) && decide (v ≠ d) && swfFrom d (k + 1) m

/-- The canonical form of a sparse table. -/
def swf {α : Type} [DecidableEq α] (d : α) (m : Sparse α) : Bool := swfFrom d 0 m

/-- Entry `i` of a fixed table; beyond its end, `d`. -/
def tget {α : Type} {n : Nat} (d : α) (t : Vector α n) (i : Nat) : α := (t[i]?).getD d

/-- The fixed table with entry `i` set; beyond its end, unchanged. -/
def tset {α : Type} {n : Nat} (t : Vector α n) (i : Nat) (v : α) : Vector α n := t.setIfInBounds i v

/-- The canonical form of memory: what `Sys2Proof.Memory` must satisfy. -/
abbrev Memory.wf (m : Memory) : Bool := swf 0 m

/-- What an address that memory does not list reads as (assumption entry 2). -/
def emptyByte : Byte := 0

/-- One byte of memory. -/
def rdByte (m : Memory) (a : Nat) : Byte := sget emptyByte m a

/-- Memory with one byte written. -/
def wrByte (m : Memory) (a : Nat) (b : Byte) : Memory := sset emptyByte m a b

/-- `n` bytes from address `a`, lowest first. -/
def rdBytes (m : Memory) (a : Nat) : Nat → List Byte
  | 0 => []
  | n + 1 => rdByte m a :: rdBytes m (a + 1) n

/-- Memory with a list of bytes written from address `a`, lowest first. -/
def wrBytes (m : Memory) (a : Nat) : List Byte → Memory
  | [] => m
  | b :: bs => wrBytes (wrByte m a b) (a + 1) bs

/-- The value of a little-endian list of bytes (R10, R36). -/
def leNat : List Byte → Nat
  | [] => 0
  | b :: bs => b.toNat + 256 * leNat bs

/-- The low `n` bytes of a number, lowest first (R10, R36). -/
def leBytes : Nat → Nat → List Byte
  | 0, _ => []
  | n + 1, v => BitVec.ofNat 8 v :: leBytes n (v / 256)

end Sys2Proof.Machine
end

