-- ==== Sys2Proof/Syntax.lean ====
section
/-!
DEFINITION. The instructions and events of the Falion, one constructor for each row of the table of
operations and events. A syllable's constructor holds its operands as the encoding's fields; an event's
constructor holds what names the event: the core, the engine, the register value written.
-/

namespace Sys2Proof

/-- The four issue-slot clusters of a core, in slot order (R10). -/
inductive Cluster where
  | S | A | X0 | X1
  deriving DecidableEq, Repr

/-- The code of a `Cluster`. -/
def Cluster.code : Cluster → Nat
  | .S => 0
  | .A => 1
  | .X0 => 2
  | .X1 => 3

/-- The `Cluster` of a code; reserved codes have none. -/
def Cluster.ofCode : Nat → Option Cluster
  | 0 => some .S
  | 1 => some .A
  | 2 => some .X0
  | 3 => some .X1
  | _ => none

/-- The five engines of a core (R8). -/
inductive Engine where
  | mtx | cin | cout | gth | topk
  deriving DecidableEq, Repr

/-- The code of a `Engine`. -/
def Engine.code : Engine → Nat
  | .mtx => 0
  | .cin => 1
  | .cout => 2
  | .gth => 3
  | .topk => 4

/-- The `Engine` of a code; reserved codes have none. -/
def Engine.ofCode : Nat → Option Engine
  | 0 => some .mtx
  | 1 => some .cin
  | 2 => some .cout
  | 3 => some .gth
  | 4 => some .topk
  | _ => none

/-- Element types and their codes (R21). -/
inductive ElemType where
  | i8 | n8 | i16 | n16 | i32 | n32 | i64 | n64 | f32 | f16 | bf16 | rw30
  deriving DecidableEq, Repr

/-- The code of a `ElemType`. -/
def ElemType.code : ElemType → Nat
  | .i8 => 0
  | .n8 => 1
  | .i16 => 2
  | .n16 => 3
  | .i32 => 4
  | .n32 => 5
  | .i64 => 6
  | .n64 => 7
  | .f32 => 8
  | .f16 => 9
  | .bf16 => 10
  | .rw30 => 11

/-- The `ElemType` of a code; reserved codes have none. -/
def ElemType.ofCode : Nat → Option ElemType
  | 0 => some .i8
  | 1 => some .n8
  | 2 => some .i16
  | 3 => some .n16
  | 4 => some .i32
  | 5 => some .n32
  | 6 => some .i64
  | 7 => some .n64
  | 8 => some .f32
  | 9 => some .f16
  | 10 => some .bf16
  | 11 => some .rw30
  | _ => none

/-- Rounding modes and their codes (R22, R66). -/
inductive Rounding where
  | rne | rtz | rup | rdn
  deriving DecidableEq, Repr

/-- The code of a `Rounding`. -/
def Rounding.code : Rounding → Nat
  | .rne => 0
  | .rtz => 1
  | .rup => 2
  | .rdn => 3

/-- The `Rounding` of a code; reserved codes have none. -/
def Rounding.ofCode : Nat → Option Rounding
  | 0 => some .rne
  | 1 => some .rtz
  | 2 => some .rup
  | 3 => some .rdn
  | _ => none

/-- Compare conditions and their codes (R23). -/
inductive Cond where
  | eq | ne | lt | le | gt | ge | ltu | leu
  deriving DecidableEq, Repr

/-- The code of a `Cond`. -/
def Cond.code : Cond → Nat
  | .eq => 0
  | .ne => 1
  | .lt => 2
  | .le => 3
  | .gt => 4
  | .ge => 5
  | .ltu => 6
  | .leu => 7

/-- The `Cond` of a code; reserved codes have none. -/
def Cond.ofCode : Nat → Option Cond
  | 0 => some .eq
  | 1 => some .ne
  | 2 => some .lt
  | 3 => some .le
  | 4 => some .gt
  | 5 => some .ge
  | 6 => some .ltu
  | 7 => some .leu
  | _ => none

/-- Access scopes and their codes; code 7 is reserved (R24, R159). -/
inductive Scope where
  | cluster | core | quad | die | device | domain | system
  deriving DecidableEq, Repr

/-- The code of a `Scope`. -/
def Scope.code : Scope → Nat
  | .cluster => 0
  | .core => 1
  | .quad => 2
  | .die => 3
  | .device => 4
  | .domain => 5
  | .system => 6

/-- The `Scope` of a code; reserved codes have none. -/
def Scope.ofCode : Nat → Option Scope
  | 0 => some .cluster
  | 1 => some .core
  | 2 => some .quad
  | 3 => some .die
  | 4 => some .device
  | 5 => some .domain
  | 6 => some .system
  | _ => none

/-- Eviction hints and their codes; codes 5 to 7 are reserved (R24, R154). -/
inductive Evict where
  | normal | first | last | noAlloc | retain
  deriving DecidableEq, Repr

/-- The code of a `Evict`. -/
def Evict.code : Evict → Nat
  | .normal => 0
  | .first => 1
  | .last => 2
  | .noAlloc => 3
  | .retain => 4

/-- The `Evict` of a code; reserved codes have none. -/
def Evict.ofCode : Nat → Option Evict
  | 0 => some .normal
  | 1 => some .first
  | 2 => some .last
  | 3 => some .noAlloc
  | 4 => some .retain
  | _ => none

/-- Ordering of an access (R24). -/
inductive MemOrd where
  | relaxed | acquire | release | sc
  deriving DecidableEq, Repr

/-- The code of a `MemOrd`. -/
def MemOrd.code : MemOrd → Nat
  | .relaxed => 0
  | .acquire => 1
  | .release => 2
  | .sc => 3

/-- The `MemOrd` of a code; reserved codes have none. -/
def MemOrd.ofCode : Nat → Option MemOrd
  | 0 => some .relaxed
  | 1 => some .acquire
  | 2 => some .release
  | 3 => some .sc
  | _ => none

/-- Size codes of the MN format: 16, 32, 64 or 128 bytes (R17). -/
inductive VecSize where
  | b16 | b32 | b64 | b128
  deriving DecidableEq, Repr

/-- The code of a `VecSize`. -/
def VecSize.code : VecSize → Nat
  | .b16 => 0
  | .b32 => 1
  | .b64 => 2
  | .b128 => 3

/-- The `VecSize` of a code; reserved codes have none. -/
def VecSize.ofCode : Nat → Option VecSize
  | 0 => some .b16
  | 1 => some .b32
  | 2 => some .b64
  | 3 => some .b128
  | _ => none

/-- Extension widths of SEXT and ZEXT: 8, 16 or 32 bits; code 3 is reserved (R18). -/
inductive ExtWidth where
  | w8 | w16 | w32
  deriving DecidableEq, Repr

/-- The code of a `ExtWidth`. -/
def ExtWidth.code : ExtWidth → Nat
  | .w8 => 0
  | .w16 => 1
  | .w32 => 2

/-- The `ExtWidth` of a code; reserved codes have none. -/
def ExtWidth.ofCode : Nat → Option ExtWidth
  | 0 => some .w8
  | 1 => some .w16
  | 2 => some .w32
  | _ => none

/-- The reduction of a CPRED; codes 5 to 7 are reserved (R247). -/
inductive RedOp where
  | addI32 | addF32 | addBf16 | maxF32 | minF32
  deriving DecidableEq, Repr

/-- The code of a `RedOp`. -/
def RedOp.code : RedOp → Nat
  | .addI32 => 0
  | .addF32 => 1
  | .addBf16 => 2
  | .maxF32 => 3
  | .minF32 => 4

/-- The `RedOp` of a code; reserved codes have none. -/
def RedOp.ofCode : Nat → Option RedOp
  | 0 => some .addI32
  | 1 => some .addF32
  | 2 => some .addBf16
  | 3 => some .maxF32
  | 4 => some .minF32
  | _ => none

/-- Binding preferences; code 3 is reserved (R266). -/
inductive BindMode where
  | normal | subst | dpref
  deriving DecidableEq, Repr

/-- The code of a `BindMode`. -/
def BindMode.code : BindMode → Nat
  | .normal => 0
  | .subst => 1
  | .dpref => 2

/-- The `BindMode` of a code; reserved codes have none. -/
def BindMode.ofCode : Nat → Option BindMode
  | 0 => some .normal
  | 1 => some .subst
  | 2 => some .dpref
  | _ => none

/-- What a TLBINV covers; code 3 is reserved (R324). -/
inductive InvKind where
  | page | range | all
  deriving DecidableEq, Repr

/-- The code of a `InvKind`. -/
def InvKind.code : InvKind → Nat
  | .page => 0
  | .range => 1
  | .all => 2

/-- The `InvKind` of a code; reserved codes have none. -/
def InvKind.ofCode : Nat → Option InvKind
  | 0 => some .page
  | 1 => some .range
  | 2 => some .all
  | _ => none

/-- Modes of CTXSAVE; codes 2 and 3 are reserved (R341). -/
inductive SaveMode where
  | immediate | fence
  deriving DecidableEq, Repr

/-- The code of a `SaveMode`. -/
def SaveMode.code : SaveMode → Nat
  | .immediate => 0
  | .fence => 1

/-- The `SaveMode` of a code; reserved codes have none. -/
def SaveMode.ofCode : Nat → Option SaveMode
  | 0 => some .immediate
  | 1 => some .fence
  | _ => none

/-- Scalar register number (R19). -/
abbrev SReg := BitVec 6
/-- Vector register number; 1,536 and above is out of range (R19). -/
abbrev VReg := BitVec 11
/-- Predicate number (R19). -/
abbrev PReg := BitVec 4
/-- Mask number (R19). -/
abbrev MReg := BitVec 4
/-- Queue number (R19). -/
abbrev QReg := BitVec 4
/-- Stream number (R19). -/
abbrev StReg := BitVec 5
/-- Accumulator number; 6 and 7 are out of range (R19). -/
abbrev AccReg := BitVec 3
/-- Flag number; flag 0 is reserved (R226). -/
abbrev FlagReg := BitVec 7

/-- The ordering, scope and eviction fields of an access (R24). -/
structure MemFields where
  od : MemOrd
  sc : Scope
  ev : Evict
  deriving DecidableEq, Repr

/-- The WAIT and SIGNAL bytes of an engine-issue syllable (R29 to R31). -/
structure EngOpts where
  wait   : BitVec 8
  signal : BitVec 8
  deriving DecidableEq, Repr

/-- Who writes a device register (R349, R362). -/
inductive Writer where
  | management
  | physicalFunction
  | virtualFunction (vf : Nat)
  deriving DecidableEq, Repr

/-- The register blocks a driver or management writes: the management block at physical-function offset 0
(R396), a polder's configuration block (R349), a virtual function's block (R363). -/
inductive RegBlock where
  | management
  | polder (n : Nat)
  | virtualFunction (n : Nat)
  deriving DecidableEq, Repr

/-- Where an error is found (R329, R330): a 32-byte sector of HBM, of a core's scratchpad or of a core's
L1, or a context's registers, accumulators, queues, stream registers, loop state or control store. -/
inductive ErrorSite where
  | hbm (sector : Nat)
  | scratchpad (core sector : Nat)
  | cache (core sector : Nat)
  | contextState (core : Nat)
  /-- the copy of a sector of HBM that its home L2 slice holds -/
  | slice (sector : Nat)
  /-- a word of the basin, beside an L2 slice 0 to 191 -/
  | basin (slice : Nat)
  deriving DecidableEq, Repr

/-- The outcome of a self-test (R329). -/
inductive SelfTest where
  | transient | spared | retired
  deriving DecidableEq, Repr

/-- What a firmware fetch gave (R392). -/
inductive FirmwareFetch where
  | rejected | notFound
  deriving DecidableEq, Repr

/-- A secure range of physical addresses (R353). -/
structure SecureRange where
  base : Nat
  size : Nat
  deriving DecidableEq, Repr

/-- What the firmware sets before READY (R392): its digest, its security version, the domain device
number and the secure ranges. -/
structure BootConfig where
  /-- whether the image's signature verifies under its key, and the SHA-256 of that key -/
  signed  : Bool
  key     : BitVec 256
  digest  : BitVec 256
  svn     : BitVec 16
  device  : BitVec 9
  secure  : List SecureRange
  deriving DecidableEq, Repr

/-- The atomics and reductions that a peer's request names (R171, R172). -/
inductive PeerRmw where
  | add | and | or | xor | min | max | minu | maxu | swap | addF32
  | cas (expected : Word)
  deriving DecidableEq, Repr

/-- The kind of a peer's request (R170, R174, R367, R368). -/
inductive PeerOp where
  | read (bytes : Nat)
  | write (data : List Byte)
  | rmw (op : PeerRmw) (wide : Bool) (value : Word)
  | ordered (value num : Half)
  deriving DecidableEq, Repr

/-- A request that arrives from a peer device (R367). -/
structure PeerRequest where
  device : Nat
  polder : Nat
  secure : Bool
  address : Nat
  op : PeerOp
  deriving DecidableEq, Repr

/-- What a peer answers (R368): data, or a failure that carries a cause code, at a byte of the access. -/
inductive PeerAnswer where
  | data (bytes : List Byte)
  | failed (cause : BitVec 6) (byte : Nat)
  deriving DecidableEq, Repr

/-- Why a context is removed (R347, R278). -/
inductive RemovalCause where
  | doubleFault | machineCheck | kill
  deriving DecidableEq, Repr

/-- The instructions and events. -/
inductive Instr where
  | nop
  | add (rd ra rb : SReg)
  | sub (rd ra rb : SReg)
  | mul (rd ra rb : SReg)
  | mulh (rd ra rb : SReg)
  | mulhu (rd ra rb : SReg)
  | div (rd ra rb : SReg)
  | divu (rd ra rb : SReg)
  | rem (rd ra rb : SReg)
  | remu (rd ra rb : SReg)
  | and (rd ra rb : SReg)
  | or (rd ra rb : SReg)
  | xor (rd ra rb : SReg)
  | andn (rd ra rb : SReg)
  | shl (rd ra rb : SReg)
  | shr (rd ra rb : SReg)
  | sar (rd ra rb : SReg)
  | rotr (rd ra rb : SReg)
  | min (rd ra rb : SReg)
  | max (rd ra rb : SReg)
  | minu (rd ra rb : SReg)
  | maxu (rd ra rb : SReg)
  | clz (rd ra : SReg)
  | ctz (rd ra : SReg)
  | popc (rd ra : SReg)
  | brev (rd ra : SReg)
  | bswap (rd ra : SReg)
  | extr (rd ra : SReg) (len : BitVec 7) (pos : BitVec 6)
  | extru (rd ra : SReg) (len : BitVec 7) (pos : BitVec 6)
  | insr (rd ra rb : SReg) (len : BitVec 7) (pos : BitVec 6)
  | madd (rd ra rb rc : SReg)
  | lea (rd ra rb : SReg) (sh : BitVec 6)
  | sext (rd ra : SReg) (w : ExtWidth)
  | zext (rd ra : SReg) (w : ExtWidth)
  | mov (rd ra : SReg)
  | addi (rd ra : SReg) (imm : BitVec 32)
  | andi (rd ra : SReg) (imm : BitVec 32)
  | ori (rd ra : SReg) (imm : BitVec 32)
  | xori (rd ra : SReg) (imm : BitVec 32)
  | shli (rd ra : SReg) (sh : BitVec 6)
  | shri (rd ra : SReg) (sh : BitVec 6)
  | sari (rd ra : SReg) (sh : BitVec 6)
  | muli (rd ra : SReg) (imm : BitVec 32)
  | li (rd : SReg) (imm : BitVec 32)
  | lih (rd ra : SReg) (imm : BitVec 32)
  | cmp (pd : PReg) (ra rb : SReg) (cc : Cond)
  | cmpi (pd : PReg) (ra : SReg) (cc : Cond) (imm22 : BitVec 22)
  | pand (pd pa pb : PReg)
  | por (pd pa pb : PReg)
  | pxor (pd pa pb : PReg)
  | pnot (pd pa : PReg)
  | sel (rd ra rb : SReg) (pn : PReg)
  | getp (rd : SReg)
  | setp (ra : SReg) (mask16 : BitVec 16)
  | tstb (pd : PReg) (ra : SReg) (bit : BitVec 6)
  | br (off32 : BitVec 32)
  | bri (ra : SReg)
  | call (off32 : BitVec 32)
  | calli (ra : SReg)
  | ret (ra : SReg)
  | loop (ra : SReg) (endOff : BitVec 16)
  | loopi (endOff : BitVec 16) (count : BitVec 27)
  | loopt (level : BitVec 6) (endOff : BitVec 16)
  | lbreak
  | halt
  | brq (q : QReg) (off32 : BitVec 32)
  | yield (n4 : BitVec 4)
  | waitt (ra : SReg)
  | mfsr (rd : SReg) (num : BitVec 12)
  | mtsr (ra : SReg) (num : BitVec 12)
  | qpush (q : QReg) (ra : SReg)
  | qpop (q : QReg) (rd : SReg)
  | qpeek (q : QReg) (rd : SReg)
  | qtry (q : QReg) (rd : SReg) (pd : PReg)
  | qpushp (q : QReg) (pn : PReg)
  | vqpush (q : QReg) (va : VReg)
  | vqpop (q : QReg) (vd : VReg)
  | qcount (q : QReg) (rd : SReg)
  | fwait (fl : FlagReg)
  | fsig (fl : FlagReg)
  | fread (rd : SReg) (fl : FlagReg)
  | ldb (rd base : SReg) (mf : MemFields) (off : BitVec 24)
  | ldbu (rd base : SReg) (mf : MemFields) (off : BitVec 24)
  | ldh (rd base : SReg) (mf : MemFields) (off : BitVec 24)
  | ldhu (rd base : SReg) (mf : MemFields) (off : BitVec 24)
  | ldw (rd base : SReg) (mf : MemFields) (off : BitVec 24)
  | ldwu (rd base : SReg) (mf : MemFields) (off : BitVec 24)
  | ldd (rd base : SReg) (mf : MemFields) (off : BitVec 24)
  | stb (rs base : SReg) (mf : MemFields) (off : BitVec 24)
  | sth (rs base : SReg) (mf : MemFields) (off : BitVec 24)
  | stw (rs base : SReg) (mf : MemFields) (off : BitVec 24)
  | std (rs base : SReg) (mf : MemFields) (off : BitVec 24)
  | vld (vd : VReg) (base : SReg) (mf : MemFields) (off : BitVec 24)
  | vldn (vd : VReg) (base : SReg) (mf : MemFields) (size : VecSize) (off21 : BitVec 21)
  | vst (vs : VReg) (base : SReg) (mf : MemFields) (off : BitVec 24)
  | vstn (vs : VReg) (base : SReg) (mf : MemFields) (size : VecSize) (off21 : BitVec 21)
  | vlds (vd : VReg) (base stride : SReg) (mf : MemFields)
  | vsts (vs : VReg) (base stride : SReg) (mf : MemFields)
  | vgth (vd : VReg) (base : SReg) (vi : VReg) (mf : MemFields)
  | vsct (vs : VReg) (base : SReg) (vi : VReg) (mf : MemFields)
  | pref (base : SReg) (sc : Scope) (ev : Evict) (off : BitVec 24)
  | mark
  | fence (od : MemOrd) (sc : Scope)
  | cwb (base : SReg) (sc : Scope) (off : BitVec 24)
  | cinv (base : SReg) (sc : Scope) (off : BitVec 24)
  | retain (rd ra rb : SReg) (ways : BitVec 5)
  | unpin (ra : SReg)
  | smap (ra rb rc : SReg)
  | sunmap (ra : SReg)
  | sflush (ra : SReg)
  | aadd (rd base rb : SReg) (sc : Scope) (ev : Evict) (wide : Bool) (off18 : BitVec 18)
  | aand (rd base rb : SReg) (sc : Scope) (ev : Evict) (wide : Bool) (off18 : BitVec 18)
  | aor (rd base rb : SReg) (sc : Scope) (ev : Evict) (wide : Bool) (off18 : BitVec 18)
  | axor (rd base rb : SReg) (sc : Scope) (ev : Evict) (wide : Bool) (off18 : BitVec 18)
  | amin (rd base rb : SReg) (sc : Scope) (ev : Evict) (wide : Bool) (off18 : BitVec 18)
  | amax (rd base rb : SReg) (sc : Scope) (ev : Evict) (wide : Bool) (off18 : BitVec 18)
  | aminu (rd base rb : SReg) (sc : Scope) (ev : Evict) (wide : Bool) (off18 : BitVec 18)
  | amaxu (rd base rb : SReg) (sc : Scope) (ev : Evict) (wide : Bool) (off18 : BitVec 18)
  | aswp (rd base rb : SReg) (sc : Scope) (ev : Evict) (wide : Bool) (off18 : BitVec 18)
  | acas (rd base rb rc : SReg) (sc : Scope) (ev : Evict) (wide : Bool) (off18 : BitVec 18)
  | radd (base rb : SReg) (sc : Scope) (ev : Evict) (wide : Bool) (off18 : BitVec 18)
  | rfadd (base rb : SReg) (sc : Scope) (ev : Evict) (off18 : BitVec 18)
  | rmin (base rb : SReg) (sc : Scope) (ev : Evict) (wide : Bool) (off18 : BitVec 18)
  | rmax (base rb : SReg) (sc : Scope) (ev : Evict) (wide : Bool) (off18 : BitVec 18)
  | rofadd (base rb rc : SReg) (sc : Scope) (ev : Evict) (off18 : BitVec 18)
  | vredm (vs : VReg) (base : SReg) (vi : VReg) (sc : Scope) (ev : Evict)
  | mwait (rd base rb : SReg) (sc : Scope) (ev : Evict) (wide : Bool) (off18 : BitVec 18)
  | barinit (base rb : SReg) (sc : Scope) (ev : Evict) (off18 : BitVec 18)
  | barrive (rd base rb : SReg) (sc : Scope) (ev : Evict) (off18 : BitVec 18)
  | barwait (base rb : SReg) (sc : Scope) (ev : Evict) (off18 : BitVec 18)
  | setst (ra : SReg) (off64 : BitVec 20) (st : StReg)
  | getst (rd : SReg) (k3 : BitVec 3) (st : StReg)
  | wfill (n13 : BitVec 13) (st : StReg)
  | wfree (n13 : BitVec 13) (st : StReg)
  | claim (rd : SReg) (n13 : BitVec 13) (st : StReg)
  | publ (n13 : BitVec 13) (st : StReg)
  | popt (n13 : BitVec 13) (st : StReg)
  | raddr (rd ra : SReg) (st : StReg)
  | rstat (rd : SReg) (k3 : BitVec 3) (st : StReg)
  | enq (rd : SReg) (eng : Engine) (rs : SReg)
  | mma (rd : SReg) (eo : EngOpts) (stA stB : StReg) (acc : AccReg) (z popA popB : Bool)
  | mret (rd : SReg) (eo : EngOpts) (stD stO : StReg) (acc : AccReg) (oe : Bool)
  | mzero (rd : SReg) (eo : EngOpts) (acc : AccReg)
  | cpin (rd : SReg) (eo : EngOpts) (stS stC : StReg) (ce : Bool) (n1 : BitVec 4)
  | cpout (rd : SReg) (eo : EngOpts) (stS stC : StReg) (ce : Bool) (n1 : BitVec 4)
  | cpred (rd : SReg) (eo : EngOpts) (stS stC : StReg) (ce : Bool) (n1 : BitVec 4) (rop : RedOp)
  | cpstr (rd : SReg) (eo : EngOpts) (stS stC : StReg) (ce : Bool) (n1 : BitVec 4)
  | gath (rd : SReg) (eo : EngOpts) (stS stD stO stC : StReg) (ce : Bool)
  | topk (rd : SReg) (eo : EngOpts) (stI stO : StReg) (k1 : BitVec 8) (pairs pop : Bool)
  | notify (rd : SReg) (eng : Engine) (eo : EngOpts) (mask5 : BitVec 5) (ev3 : BitVec 3)
  | gfence (mask5 : BitVec 5)
  | waitev (ev3 : BitVec 3)
  | ewait (eng : Engine) (rs : SReg)
  | eseq (rd : SReg) (eng : Engine) (sel2 : BitVec 2)
  | bstat (rd : SReg) (eng : Engine) (rs : SReg)
  | bpref (mask5 : BitVec 5) (mode : BindMode)
  | launch (rd ra : SReg)
  | trigger
  | depwait
  | dqpush (ra : SReg)
  | dqpop (rd : SReg) (pn : PReg)
  | dqsteal (rd ra : SReg) (pn : PReg)
  | dqstealRing (rd : SReg) (pn : PReg)
  | vadd (vd va vb : VReg) (mk : MReg) (ty : ElemType) (rm : Rounding)
  | vsub (vd va vb : VReg) (mk : MReg) (ty : ElemType) (rm : Rounding)
  | vmul (vd va vb : VReg) (mk : MReg) (ty : ElemType) (rm : Rounding)
  | vfma (vd va vb vc : VReg) (mk : MReg)
  | vfmah (vd va vb vc : VReg) (mk : MReg)
  | vfmab (vd va vb vc : VReg) (mk : MReg)
  | vmin (vd va vb : VReg) (mk : MReg) (ty : ElemType) (rm : Rounding)
  | vmax (vd va vb : VReg) (mk : MReg) (ty : ElemType) (rm : Rounding)
  | vabs (vd va : VReg) (mk : MReg) (ty : ElemType) (rm : Rounding)
  | vneg (vd va : VReg) (mk : MReg) (ty : ElemType) (rm : Rounding)
  | vand (vd va vb : VReg) (mk : MReg)
  | vor (vd va vb : VReg) (mk : MReg)
  | vxor (vd va vb : VReg) (mk : MReg)
  | vshl (vd va vb : VReg) (mk : MReg) (ty : ElemType) (imm1 : Bool) (amt : BitVec 5)
  | vshr (vd va vb : VReg) (mk : MReg) (ty : ElemType) (imm1 : Bool) (amt : BitVec 5)
  | vsar (vd va vb : VReg) (mk : MReg) (ty : ElemType) (imm1 : Bool) (amt : BitVec 5)
  | vcmp (md : MReg) (va vb : VReg) (mk : MReg) (ty : ElemType) (cc : Cond)
  | vsel (vd va vb : VReg) (mk : MReg)
  | vmov (vd va : VReg) (mk : MReg)
  | vbcast (vd : VReg) (ra : SReg) (mk : MReg) (ty : ElemType)
  | vext (va : VReg) (rd : SReg) (ty : ElemType) (j : BitVec 13)
  | vins (vd : VReg) (ra : SReg) (ty : ElemType) (j : BitVec 13)
  | vperm (vd va vb : VReg) (mk : MReg)
  | vrot (vd va : VReg) (mk : MReg) (n6 : BitVec 6)
  | viota (vd : VReg) (mk : MReg) (ty : ElemType)
  | vrsum (vd va : VReg) (mk : MReg) (ty : ElemType) (rm : Rounding)
  | vrmax (vd va : VReg) (mk : MReg) (ty : ElemType) (rm : Rounding)
  | vrmin (vd va : VReg) (mk : MReg) (ty : ElemType) (rm : Rounding)
  | vscan (vd va : VReg) (mk : MReg) (ty : ElemType) (rm : Rounding)
  | vdiv (vd va vb : VReg) (mk : MReg) (ty : ElemType) (rm : Rounding)
  | vsqrt (vd va : VReg) (mk : MReg) (ty : ElemType) (rm : Rounding)
  | vrcp (vd va : VReg) (mk : MReg) (ty : ElemType) (rm : Rounding)
  | vrsqrt (vd va : VReg) (mk : MReg) (ty : ElemType) (rm : Rounding)
  | vexp2 (vd va : VReg) (mk : MReg) (ty : ElemType) (rm : Rounding)
  | vlog2 (vd va : VReg) (mk : MReg) (ty : ElemType) (rm : Rounding)
  | vtanh (vd va : VReg) (mk : MReg) (ty : ElemType) (rm : Rounding)
  | vrnd (vd va : VReg) (mk : MReg) (ty : ElemType) (rm : Rounding)
  | mand (md ma mb : MReg)
  | mor (md ma mb : MReg)
  | mnot (md ma : MReg)
  | mpop (rd : SReg) (mk : MReg) (first : Bool)
  | vadds (vd va : VReg) (ra : SReg) (mk : MReg) (ty : ElemType)
  | vmuls (vd va : VReg) (ra : SReg) (mk : MReg) (ty : ElemType)
  | vcvt (vd va : VReg) (mk : MReg) (ty : ElemType) (rm : Rounding) (src : ElemType)
  | vpack (vd va vb : VReg) (mk : MReg) (ty : ElemType) (rm : Rounding) (src : ElemType)
  | vunpk (vd va : VReg) (mk : MReg) (ty : ElemType) (rm : Rounding) (h : Bool) (src : ElemType)
  | vzenc (vd va : VReg) (mk : MReg) (ty : ElemType) (p2 : BitVec 2)
  | vzdec (vd va : VReg) (mk : MReg) (ty : ElemType) (rm : Rounding) (k6 : BitVec 6)
  | vzmac (vd va vb : VReg) (mk : MReg)
  | vzmul (vd va vb : VReg) (mk : MReg)
  | vzadd (vd va vb : VReg) (mk : MReg)
  | vscale (vd va vb : VReg) (mk : MReg) (ty : ElemType) (rm : Rounding)
  | vquant (vd va vb : VReg) (mk : MReg) (rm : Rounding) (rn4 : Bool) (p3 : BitVec 3)
  | vochk (md : MReg) (va vb : VReg) (mk : MReg) (rn4 : Bool)
  | vcomp (vd va : VReg) (mk : MReg)
  | mop (n : BitVec 4) (vd va vb : VReg) (mk : MReg) (ra : SReg) (imm6 : BitVec 6)
  | csload (ra : SReg) (slot : BitVec 4)
  | csunbind (slot : BitVec 4)
  | trap (n16 : BitVec 16)
  | eret
  | bkpt (n16 : BitVec 16)
  | rdcyc (rd : SReg)
  | rdtime (rd : SReg)
  | tlbinv (ra rb : SReg) (kind : InvKind)
  | dharv (rd ra : SReg)
  | ctxsave (rd ra rb rc : SReg) (smode : SaveMode)
  | ctxload (rd ra : SReg)
  | yieldPauseEnd (core : Nat) (cl : Cluster)
  | loadCompletion (core : Nat) (cl : Cluster)
  | rofaddArrival (place : Nat)
  | rofaddResend (place : Nat)
  | orderedGapTimeout (pair : Nat)
  | monitorFire (core : Nat) (cl : Cluster)
  | mmaCommand (core : Nat)
  | mretCommand (core : Nat)
  | mzeroCommand (core : Nat)
  | cpinCommand (core : Nat)
  | cpstrCommand (core : Nat)
  | cpoutCommand (core : Nat)
  | cpredCommand (core : Nat)
  | gathCommand (core : Nat)
  | topkCommand (core : Nat)
  | gfenceCommand (core : Nat) (eng : Engine)
  | notifyCommand (core : Nat) (eng : Engine)
  | commandRetirement (core : Nat) (eng : Engine)
  | leaseRearbitration (quad : Nat)
  | rendezvous (core : Nat)
  | blockedWaitResume (core : Nat) (cl : Cluster)
  | stallWatchdog (core : Nat)
  | frameTaken (core : Nat)
  | doubleFaultRestart (core : Nat)
  | correctedError (site : ErrorSite)
  | selfTestComplete (site : ErrorSite) (result : SelfTest)
  | uncorrectableError (site : ErrorSite)
  | eventRecordWrite (place : Nat)
  | fenceModeBoundary (core : Nat)
  | fenceModeTimeout (core : Nat)
  | imageSaveComplete (core : Nat)
  | immediateSave (polder : Nat) (by_ : Writer)
  | fenceSave (polder : Nat) (by_ : Writer)
  | resume (polder : Nat) (by_ : Writer)
  | kill (polder : Nat) (by_ : Writer)
  | contextRemoval (core : Nat) (why : RemovalCause)
  | lqctlWrite (vf : Nat) (value : Word)
  | doorbell (vf : Nat) (value : Half)
  | launcherRecordRead (polder : Nat)
  | iterationStart (core : Nat)
  | iterationEnd (core : Nat)
  | pureLookup (uid : Nat)
  | hitCopyComplete (uid : Nat)
  | basinInsertion (uid : Nat)
  | keyInstall (polder : Nat) (by_ : Writer) (value : Word)
  | basinClear (polder : Nat) (by_ : Writer)
  | basinEnable (polder : Nat) (by_ : Writer) (enable : Bool)
  | codeRemapWrite (polder : Nat) (by_ : Writer) (off : Nat) (value : Word)
  | functionLevelReset (polder : Nat)
  | flrDrainTimeout (polder : Nat)
  | flrComplete (polder : Nat)
  | hostBar2Access (vf off : Nat) (bytes : Nat) (write : Option (List Byte))
  | hostFetchadd (vf off : Nat) (wide : Bool) (value : Word)
  | hostSwap (vf off : Nat) (wide : Bool) (value : Word)
  | hostCas (vf off : Nat) (wide : Bool) (compare value : Word)
  | evctlWrite (vf : Nat) (value : Word)
  | peerRequest (request : PeerRequest)
  | peerResponse (place : Nat) (answer : PeerAnswer)
  | peerTimeout (place : Nat)
  | flitReplay (port : Nat)
  | tokenRefill
  | powerOn
  | deviceReset
  | firmwareFetchRetry (result : FirmwareFetch)
  | clockThrottle
  | clockRestore
  | syncMessage (offset : Int) (tai : Word)
  | timeLockLoss
  | attestationRequest
  | attestationReportWritten
  | registerWrite (by_ : Writer) (block : RegBlock) (off : Nat) (value : Word)
  | eviction (core line : Nat)
  | imageLoadComplete (core : Nat)
  | junctionTemperatureMachineCheck
  | bootComplete (config : BootConfig)
  | pcoreWrite (polder : Nat) (by_ : Writer) (k : Nat) (value : Word)
  deriving DecidableEq, Repr

end Sys2Proof
end

