-- ==== Sys2Proof/Machine/State.lean ====
section
/-!
DEFINITION. The state of the machine: one Falion, from the registers of a cluster to the registers of
management. Every field is plain data. Beside what the manual names, the model's own fields are `agenda` (what
the outside world and the free choices of the parts do next, oldest first), `actor` (whose syllable executes)
and `free` (the number of the next free value); INVENTORY.md lists each field with its rule.
-/

namespace Sys2Proof.Machine

/-- A physical core: core `i` of die `k` is `64 k + i` (R6, R349). -/
abbrev CoreId := Fin 256

/-- The 64 causes in the order of their codes (R314). -/
inductive Cause where
  | none | illegalOpcode | slotMismatch | reservedField | registerRange | privileged
  | bundleSyncMismatch | rendezvousMismatch | loopStructure | queueRoute | breakpoint | watchpoint
  | singleStep | systemCall | misaligned | xlateRead | xlateWrite | permission
  | worldViolation | scratchpadBounds | stashConflict | coherenceMode | ringDescriptor | ringOverrun
  | ringUnderrun | streamFormat | engineCommand | predecessor | unorderedOverlap | runDepth
  | scaleMismatch | accumulatorState | outlierStream | copyXlate | copyMemoryError | gatherIndex
  | topkParameter | barrierOverArrival | barrierObject | monitorPage | atomicPage | orderedGap
  | pureRead | pureWrite | pureInstruction | pureDescriptor | mopUnbound | controlStoreImage
  | mopLimit | controlStorePrivilege | launchRecord | dependence | dequeOverflow | stealTarget
  | timeUnlocked | sramUncorrectable | hbmUncorrectable | linkError | peerTimeout | watchdog
  | preempt | kill | doubleFault | machineCheck
  deriving DecidableEq, Repr

/-- Why a step of the machine stops for good. `physicalHole` is raised by any access whose translation names a
device physical byte beyond the HBM that the package holds (R9): the manual gives no bytes there. Safe: the
model stops where the manual describes nothing (assumption entry 19). -/
inductive Fault where
  | physicalHole (address : Nat)
  deriving DecidableEq, Repr

/-- Why an instruction has no meaning. `notModelled` stands only in the arms of `exec` whose instruction has no
meaning yet. Safe: the model stops. -/
inductive Refusal where
  | notModelled (mnemonic : String)
  deriving DecidableEq, Repr

/-- An entry of a loop stack (R96). -/
structure LoopEntry where
  start     : Word
  last      : Word
  remaining : Word
  deriving DecidableEq, Repr

/-- The condition on which a cluster is blocked (R211). -/
inductive Wait where
  /-- a synced bundle, and the syllable that waits there (R213, R214) -/
  | rendezvous (bundle syl : Word)
  | queueSpace (q : QReg)
  | queueData (q : QReg)
  /-- FWAIT (R226) -/
  | flag (f : FlagReg)
  /-- WAITT, and the syllable that waits (R227) -/
  | time (target syl : Word)
  /-- YIELD (R95) -/
  | pause
  /-- MWAIT and BARWAIT asleep (R177, R288) -/
  | monitor
  /-- WFILL (R234) -/
  | ringFill (st : StReg) (n : Nat)
  /-- WFREE and CLAIM (R234) -/
  | ringFree (st : StReg) (n : Nat)
  /-- a full engine queue (R238) -/
  | engineSpace (e : Engine)
  /-- GFENCE (R243) -/
  | generation (mask : BitVec 5)
  /-- EWAIT (R242) -/
  | retired (e : Engine) (n : Half)
  /-- WAITEV (R245) -/
  | event (ev : BitVec 3)
  /-- DEPWAIT (R283) -/
  | dependence
  /-- SETST behind the commands that name its register (R136) -/
  | streamFree (st : StReg)
  /-- a fence behind earlier reductions (R188) -/
  | reductions
  /-- a release behind stores at peers (R188, R205) -/
  | stores
  /-- CSLOAD and CSUNBIND behind a sequence of their slot (R374) -/
  | sequence (slot : BitVec 4)
  /-- CTXSAVE and CTXLOAD, and a fetch from a peer (R341, R342, R367) -/
  | answer
  /-- the range scoreboard of a core, at a scratchpad byte (R253) -/
  | scoreboard (core : CoreId) (off : Nat)
  /-- TLBINV behind a save whose image range it covers, or behind accesses that used a translation (R324, R341) -/
  | pinned (base : Word) (size : Nat)
  /-- a row that is fenced for its self-test (R329) -/
  | fenced (site : ErrorSite)
  /-- a register, or a release behind register results, that a pending load holds (R89, R216, R218) -/
  | load
  /-- its syllable has faulted in a stop that reports another fault, and executes again after it (R315) -/
  | stood
  deriving DecidableEq, Repr

/-- Whether a cluster runs. -/
inductive Status where
  | running
  | halted
  | waiting (w : Wait)
  deriving DecidableEq, Repr

/-- An armed monitor (R177): the cluster whose monitor it is, the granule of device memory it is armed on, and
whether it has fired. A cluster has at most one. -/
structure Monitor where
  core    : CoreId
  cl      : Cluster
  granule : Nat
  fired   : Bool
  deriving DecidableEq, Repr

/-- Where a byte lives. -/
inductive Place where
  /-- device physical memory -/
  | hbm (pa : Nat)
  /-- host memory, by bus address -/
  | host (ba : Nat)
  /-- a peer's memory, by domain address (R367) -/
  | peer (addr : Nat)
  /-- a core's scratchpad -/
  | pad (core : CoreId) (off : Nat)
  deriving DecidableEq, Repr

/-- Coherence modes (R196). -/
inductive PageMode where
  | hc | sc | cp
  deriving DecidableEq, Repr

/-- Where a byte of an access lands: its place, the page's mode, and for a stash access the mapping's offset and
entry (R157). -/
structure Loc where
  place : Place
  mode  : PageMode
  stash : Option (Nat × Nat)
  deriving DecidableEq, Repr

/-- What a load writes when it completes (R216): a scalar register, extended from the bytes read (R164), the
enabled lanes of a vector register, or those of a temporary of the cluster (R382); and what a vector syllable writes
late (R217): lanes of a vector register, or bits of a mask. -/
inductive LoadDest where
  | scalar (rd : SReg) (bytes : Nat) (signed : Bool)
  | vector (vd : VReg) (lanes : BitVec 64)
  | temp (h : BitVec 4) (lanes : BitVec 64)
  | mask (md : MReg) (bits : Mask)
  deriving DecidableEq, Repr

/-- What a result is that a register awaits: of a load, of a load that a frame has kept back and that does not count as
late (R318), or of a vector syllable (R217). -/
inductive ResultKind where
  | load | resumed | vector
  deriving DecidableEq, Repr

/-- A result that has not been written to its register: the bytes read, byte 0 lowest, and the read pieces that have
still to be performed, each its first address and a list of places in the register and of bytes (R182, R183). `ord` places
the access in the program order of its cluster. `passed` is the widest scope toward whose agents it is ordered before an
access of the cluster that has been performed before it, cluster scope for none: a write of such an agent to its bytes finds
it performed. -/
structure PendingLoad where
  dest   : LoadDest
  raw    : Vec
  unread : List (Word × List (Nat × Loc))
  ord    : Nat
  scope  : Scope
  od     : MemOrd
  ev     : Evict
  passed : Scope
  kind   : ResultKind
  deriving DecidableEq, Repr

/-- The non-returning reductions on a word (R172). -/
inductive Reduction where
  | add | fadd | min | max
  deriving DecidableEq, Repr

/-- What a write that has not been performed does when it is: a piece of a store, or a reduction of the value at its
places with an operand (R172, R190). -/
inductive HeldWrite where
  | store (bytes : List (Loc × Byte))
  | reduce (op : Reduction) (places : List Place) (operand : Nat)
  deriving DecidableEq, Repr

/-- A write piece of a cluster that is not performed with respect to another agent (R183, R184): its place in the
program order of the cluster, its fields, the address of its first byte. -/
structure Held where
  ord   : Nat
  scope : Scope
  od    : MemOrd
  ev    : Evict
  va    : Word
  write : HeldWrite
  deriving DecidableEq, Repr

/-- A store piece that is performed with respect to the agents of its core (R184, R185), and the cluster that made it.
`reach` is the widest scope toward whose agents a piece that has landed is ordered behind it: an access to its bytes by such
an agent finds it landed. -/
structure Posted where
  cl    : Cluster
  ord   : Nat
  scope : Scope
  od    : MemOrd
  reach : Scope
  va    : Word
  bytes : List (Place × Byte)
  deriving DecidableEq, Repr

/-- A micro-sequence in progress: its slot, its next micro-op (R387), and the MOPn syllable that started it (R35, R385); an
image carries no syllable, and the resumed sequence takes that of its bundle (R388). -/
structure USeq where
  slot : BitVec 4
  upc  : Nat
  syl  : Option Word
  deriving DecidableEq, Repr

/-- For the mtx and cin queues, the highest sequence number ordered before a point; 0xFFFF_FFFF for none
(R397). -/
structure Front where
  mtx : Half
  cin : Half
  deriving DecidableEq, Repr

/-- No command (R397). -/
def Front.none : Front := ⟨0xFFFFFFFF, 0xFFFFFFFF⟩

/-- A transfer that a CTXSAVE or CTXLOAD of a cluster has begun (R341, R342): its number, the bundle, the syllable and the
operands that asked for it, inside the handler or not, and what it has answered. The syllable that executes again after a stop
goes on with it (R312; the model's own). -/
structure Asked where
  token   : Nat
  pc      : Word
  syl     : Word
  ops     : List Word
  handler : Bool
  answer  : Option Word
  deriving DecidableEq, Repr

/-- The state of one cluster (R85, R11, R96, R245, R177, R384). -/
structure ClusterState where
  s        : Vector Word 64
  p        : BitVec 16
  pc       : Word
  status   : Status
  /-- the loop stack, top first (R96) -/
  loops    : List LoopEntry
  /-- W[e] (R244) -/
  consumed : Vector Half 8
  /-- loads and late results that have not written, oldest first (R216, R217) -/
  pending  : List PendingLoad
  /-- writes of the cluster that no other agent sees yet, oldest first (R184) -/
  held     : List Held
  useq     : Option USeq
  /-- h0 to h15 (R384) -/
  temps    : Vector Vec 16
  /-- the commands the cluster has joined (R397) -/
  joined   : Front
  /-- a rendezvous has been met and the bundle may execute (R213; the model's own mark, entry 7) -/
  released : Bool
  /-- breakpoint matching of the next bundle is suppressed (R327) -/
  skipBk   : Bool
  /-- an access of the bundle in progress has stalled at a fenced row, and counts in LATE already (R220, R329) -/
  counted  : Bool
  /-- the last numbers of the five queues when a SETST began to wait for their commands (R136) -/
  setst    : Option (List Half)
  /-- the transfers that its syllables have begun and not ended with (R341, R342) -/
  asked    : List Asked
  /-- bytes that a peer has sent to the bundle in progress, by virtual address (R367, R368) -/
  fetched  : Sparse (Option Byte)
  /-- peer accesses of the bundle in progress that failed: each one's first failing byte and the cause (R368) -/
  failed   : List (Word × Cause)
  deriving DecidableEq, Repr

/-- The four clusters of a core (R10). -/
structure Clusters where
  cS  : ClusterState
  cA  : ClusterState
  cX0 : ClusterState
  cX1 : ClusterState
  deriving DecidableEq, Repr

/-- A cluster or an engine of a core: the waiter of a flag (R225), and the issuer of an access (R331). -/
inductive Party where
  | cluster (c : Cluster)
  | engine (e : Engine)
  deriving DecidableEq, Repr

/-- A flag (R225): increments not yet consumed, the waiters in the order their waits began (a waiter is granted
an increment when fewer waiters stand before it than there are increments), and the commands whose increments
have taken effect (R193). -/
structure Flag where
  count   : Nat
  waiters : List Party
  front   : Front
  deriving DecidableEq, Repr

/-- An accumulator tile (R132): RW30 words by 256 r + n, scales by number. -/
structure Acc where
  isOpen   : Bool
  steps    : Nat
  rowScale : Sparse Byte
  colScale : Sparse Byte
  words    : Sparse (BitVec 32)
  deriving DecidableEq, Repr

/-- One command of a queue (R238). -/
structure CmdId where
  engine : Engine
  seq    : Half
  deriving DecidableEq, Repr

/-- A claimed slot that is not published (R235): the command that claimed it, none for a cluster, whether it is
ready, and the commands ordered before its publication, the claimant included (R254). -/
structure SlotClaim where
  owner : Option CmdId
  ready : Bool
  front : Front
  deriving DecidableEq, Repr

/-- A stream register with its ring (R133, R135, R228). `claims` are the unpublished slots, oldest first: their
number is the claimed count c. `filledBy` are the filled slots, oldest first, each with the commands ordered before
its publication (R254). -/
structure Stream where
  desc     : Option (BitVec 512)
  h        : Half
  t        : Half
  claims   : List SlotClaim
  filledBy : List Front
  records  : Half
  clamps   : Half
  deriving DecidableEq, Repr

/-- A run of claimed or reserved slots: stream, first count, number of slots. -/
structure SlotRun where
  st    : StReg
  first : Half
  n     : Nat
  deriving DecidableEq, Repr

/-- A raw range of R254: first and last scratchpad offset, and whether it is written. -/
structure RawRange where
  lo    : Nat
  hi    : Nat
  write : Bool
  deriving DecidableEq, Repr

/-- The start of a command (R136, R239): its binding, the descriptors it read, the walk position or index base, the ring slots
it reads, the scales it read, and the ranges it holds on the scoreboard (R253). -/
structure Started where
  dedicated : Bool
  descs     : List (StReg × BitVec 512)
  /-- the bound command that started before it ran on the substitute (R267) -/
  wasSub    : Bool
  walk      : Nat
  heads     : List SlotRun
  rowScale  : Sparse Byte
  colScale  : Sparse Byte
  ranges    : List RawRange
  deriving DecidableEq, Repr

/-- A piece that a command has still to write (R195): bytes of one sector, or one element to reduce (R250). -/
inductive EngineWrite where
  | store (ws : List (Word × Loc × Byte))
  | reduce (op : RedOp) (vas : List Word) (locs : List Loc) (v : Nat)
  deriving DecidableEq, Repr

/-- An engine-queue entry that has not retired (R238, R317, R397). Its command word lies in the scratchpad. -/
structure Cmd where
  seq      : Half
  gen      : BitVec 4
  pref     : BindMode
  ordinal  : Half
  /-- the sequence number that a predecessor wait names, resolved at enqueue (R30) -/
  predSeq  : Option Half
  /-- it has been granted its flag increment (R225) -/
  granted  : Bool
  issuer   : Front
  started  : Option Started
  faulted  : Bool
  held     : Bool
  prog     : Nat
  /-- slots claimed at the start, and slots reserved, to be popped (R229) -/
  claims   : List SlotRun
  reserves : List SlotRun
  /-- pieces of its tiles before `prog` that are not written yet, oldest first (R195); a command that moves no tiles has
  computed its result when `prog` is 1 -/
  out      : List EngineWrite
  /-- the lowest watched byte of its pieces (R328) -/
  hit      : Option Word
  /-- bytes that it has read early, or that peers have sent for its reads, by virtual address (R195, R368) -/
  fetched  : Sparse (Option Byte)
  /-- peer accesses of it that failed: each one's first failing byte and the cause (R368) -/
  failed   : List (Word × Cause)
  deriving DecidableEq, Repr

/-- Binding status of a command (R267); `expired` also after a resumption, for a command that had retired (R346). -/
inductive BindStatus where
  | pending | dedicated | substitute | flushed | faulted | expired
  deriving DecidableEq, Repr

/-- What is kept of a command of a queue (R193, R254, R267). -/
structure Hist where
  seq      : Half
  ordinal  : Half
  signal   : FlagReg
  raws     : List RawRange
  runs     : List SlotRun
  /-- the commands ordered before it, itself included (R254) -/
  front    : Front
  status   : BindStatus
  promoted : Bool
  deriving DecidableEq, Repr

/-- An engine queue (R237, R242, R267): unretired entries, oldest first; every command of the context, newest first;
whether the last bound command to start ran on the substitute. -/
structure EngineQueue where
  last    : Half
  started : Half
  retired : Half
  entries : List Cmd
  hist    : List Hist
  lastSub : Bool
  deriving DecidableEq, Repr

/-- Registers shared by the clusters of a core (R105, R106, R221, R225). -/
structure SharedRegs where
  v     : Vector Vec 1536
  m     : Vector Mask 16
  flags : Vector Flag 128
  vq    : Vector (List Vec) 12
  sq    : Vector (List Word) 4
  qUsed : Bool
  deriving DecidableEq, Repr

/-- The engines' state of a core (R132, R133, R237, R244, R266). -/
structure EngineState where
  accs      : Vector Acc 6
  streams   : Vector Stream 32
  queues    : Vector EngineQueue 5
  prefs     : Vector BindMode 5
  ordinal   : Half
  weirN     : Vector (Vector Half 8) 5
  weirF     : Vector Half 8
  /-- the commands joined by firing n of event e, by 8 n + e (R193, R245) -/
  weirFront : Sparse Front
  /-- what NOTIFY number n of event e on queue q joins, by 40 n + 5 e + q -/
  weirNote  : Sparse Front
  deriving DecidableEq, Repr

/-- A stash mapping (R156): entry `i` joins scratchpad offset `off + 64 i` to address `addr + 64 i`. -/
structure StashMap where
  off    : Nat
  addr   : Word
  count  : Nat
  filled : Sparse Bool
  dirty  : Sparse Bool
  deriving DecidableEq, Repr

/-- A granule of an SC page held by a core's L1 (R197): its bytes and which of them are dirty. -/
structure L1Line where
  data  : BitVec 256
  dirty : BitVec 32
  deriving DecidableEq, Repr

/-- A TLB entry (R357): context, world, the number of its page among those of the leaf's size, leaf entry and the level it was
found at, which gives the size. -/
structure TlbEntry where
  ctx   : Nat
  world : Bool
  page  : Nat
  leaf  : Word
  level : Nat
  deriving DecidableEq, Repr

/-- An entry of a walk cache (R357): context, world, the level of a table, the number of the block of addresses that it
translates among those of its size, and where the table is. -/
structure WalkEntry where
  ctx   : Nat
  world : Bool
  level : Nat
  block : Nat
  table : Nat
  deriving DecidableEq, Repr

/-- A partition of the control store (R371): its tag, its words, when it was last taken. -/
structure Partition where
  tag   : Option Nat
  words : Sparse Word
  taken : Nat
  deriving DecidableEq, Repr

/-- Memories of a core (R6, R156, R197, R357, R371). -/
structure LocalMem where
  scratch : Memory
  stash   : List StashMap
  l1      : Sparse (Option L1Line)
  tlb     : List TlbEntry
  parts   : Vector Partition 4
  deriving DecidableEq, Repr

/-- A fault, trap or stop as the frame reports it (R313, R319). -/
structure Report where
  cause : Cause
  /-- 0 fault, 1 trap, 2 deferred, 3 stop -/
  cls   : Nat
  clus  : Cluster
  eng   : Option Engine
  addr  : Word
  syl   : Word
  inms  : Bool
  deriving DecidableEq, Repr

/-- What a core does (R316, R322, R333, R342). -/
inductive Phase where
  /-- no context -/
  | free
  /-- a context runs, in its handler or not -/
  | running
  /-- draining toward the frame of a report -/
  | stopping (r : Report)
  /-- stopped by a double fault, until management acts -/
  | doubleFault
  /-- draining toward an image -/
  | saving
  /-- its image is written, and peers have still to answer writes of it (R343) -/
  | saved
  /-- an image is being loaded -/
  | loading
  /-- stopped by a machine check (R330, R390) -/
  | machineStop
  deriving DecidableEq, Repr

/-- A byte range of virtual addresses. -/
structure VRange where
  base : Word
  size : Nat
  deriving DecidableEq, Repr

/-- The context that runs on a core (R269, R294, R351). For a pure task `reads` holds its ten ranges in the order of
R397 and `writes` its four result tiles, absent ones of size 0. -/
structure Context where
  polder : Nat
  /-- the launcher's task, none for a context loaded by CTXLOAD -/
  task   : Option Nat
  /-- the task identifier of its record -/
  taskId : Half
  id     : Nat
  ic     : Nat
  user   : Bool
  reads  : List VRange
  writes : List VRange
  record : Word
  done   : Word
  deriving DecidableEq, Repr

/-- Who asked for a save or a load (R341, R344): a cluster's CTXSAVE or CTXLOAD, with the transfer's number, or a polder's
registers. -/
inductive Requester where
  | cluster (core : CoreId) (cl : Cluster) (token : Nat)
  | registers (polder : Nat)
  deriving DecidableEq, Repr

/-- A save or load in progress on a core (R335, R341, R342): the image address, the polder whose translation it
uses, the places of a save's 4 KiB blocks as they were checked and pinned (0 device memory, 1 host memory, 2 a peer's),
and for a fence save the generation at the request, the boundary that a GFENCE has fixed, and the cycles that its
time-out has left. -/
structure Xfer where
  base     : Word
  polder   : Nat
  by_      : Requester
  fence    : Bool
  gen      : BitVec 4
  boundary : Option (BitVec 4)
  timeout  : Nat
  blocks   : List (Nat × Nat)
  /-- the matrix queue goes on draining an open run (R334) -/
  drain    : Bool
  deriving DecidableEq, Repr

/-- Trap state of a core (R102, R215, R315, R320, R326, R328). `sr` holds the special registers by number but
for %cycle and %time. -/
structure TrapState where
  sr        : Sparse Word
  cycle     : Word
  /-- S's loop stack held while the handler runs, top first -/
  heldLoops : List LoopEntry
  /-- S's released mark held with it -/
  heldReleased : Bool
  /-- loads that write their registers after ERET, in fixed-latency mode (R318) -/
  heldLoads : List (Cluster × PendingLoad)
  /-- held traps and deferred faults, oldest first -/
  held      : List Report
  /-- lowest watched byte of the syllable or sequence in progress, by cluster -/
  watchHit  : Sparse Word
  watchdog  : Nat
  deriving DecidableEq, Repr

/-- One core (R6, R274). `deque` is listed top first (R284). -/
structure Core where
  phase      : Phase
  ctx        : Option Context
  cls        : Clusters
  regs       : SharedRegs
  eng        : EngineState
  loc        : LocalMem
  trap       : TrapState
  deque      : List Word
  /-- store pieces that agents of the core see and no other agent does, oldest first (R184) -/
  posted     : List Posted
  xfer       : Option Xfer
  /-- the polder that last ran on the core (R350) -/
  lastPolder : Option Nat
  deriving DecidableEq, Repr

/-- What a saved context holds that its image has no place for: what orders before recorded commands, publications, flags and
firings (R254), claims of commands behind the head of their queue, released marks, pending SKIPs, and whether its iteration had
triggered (R346). The model's own: an image that this machine has saved is known again by its bytes (assumption entry 27). -/
structure SaveNote where
  image        : Memory
  cls          : Clusters
  eng          : EngineState
  flags        : Vector Flag 128
  heldReleased : Bool
  triggered    : Bool
  deriving DecidableEq, Repr

/-- The sluice of a quad (R256 to R259): positions 0 to 3 of its cores; `cut` lists the cores that have requested a
cut which has not taken effect. -/
structure Quad where
  holder  : Option (Fin 4)
  started : Nat
  cut     : List (Fin 4)
  last    : Fin 4
  deriving DecidableEq, Repr

/-- A live L2 retention register (R155). -/
structure Retention where
  polder : Nat
  index  : Nat
  base   : Word
  size   : Word
  ways   : Nat
  deriving DecidableEq, Repr

/-- What the cores of a die share (R155, R263, R357): the core whose TOPK last won the selection unit, the retention
registers, the shared TLB, and the walk caches of its walkers. -/
structure Die where
  topkLast  : Nat
  retention : List Retention
  tlb       : List TlbEntry
  walks     : List WalkEntry
  deriving DecidableEq, Repr

/-- An export entry (R367). -/
structure Export where
  control : Word
  base    : Word
  size    : Word
  deriving DecidableEq, Repr

/-- A code remap entry (R370). -/
structure Remap where
  ctl : Word
  pa  : Word
  deriving DecidableEq, Repr

/-- Partition registers of a polder (R349, R359, R360, R367, R370). -/
structure PolderRegs where
  vf      : BitVec 6
  sec     : Bool
  en      : Bool
  pcore   : Vector Word 4
  pmemB   : Vector Word 8
  pmemS   : Vector (BitVec 21) 8
  ptroot0 : Word
  ptroot1 : Word
  burst   : Vector (BitVec 17) 8
  rate    : Vector (BitVec 17) 8
  tokens  : Vector Nat 8
  /-- units that wait at a controller for a token (R359) -/
  owed    : Vector Nat 8
  flrGo   : Bool
  /-- its drain has timed out (R360) -/
  flrLate : Bool
  /-- nanoseconds of the drain -/
  flrTime : Nat
  flrStat : Byte
  exps    : Vector Export 16
  crem    : Vector Remap 8
  deriving DecidableEq, Repr

/-- Basin registers of a polder (R302). `key` is the installed key. -/
structure BasinRegs where
  bkey    : Vector Word 4
  key     : BitVec 256
  rsbase  : Word
  rsquota : BitVec 21
  bentq   : BitVec 18
  en      : Bool
  counts  : Vector Word 4
  deriving DecidableEq, Repr

/-- Pre-emption registers of a polder (R344). -/
structure PreemptRegs where
  task    : Half
  base    : Word
  timeout : Half
  count   : Half
  status  : Byte
  op      : BitVec 2
  go      : Bool
  /-- the launcher's task that the operation acts on -/
  uid     : Option Nat
  deriving DecidableEq, Repr

/-- Launch-queue registers and the device launch queue of a polder (R275, R279, R281): pointers with the rank
that bounds them. -/
structure LaunchRegs where
  base    : Word
  en      : Bool
  log2n   : BitVec 4
  rd      : Half
  wr      : Half
  devq    : List (Word × Nat)
  devLast : Bool
  deriving DecidableEq, Repr

/-- Host-window and event-ring registers of a polder (R363). -/
structure EventRegs where
  hwbase : Word
  base   : Word
  en     : Bool
  log2n  : BitVec 4
  rd     : Half
  wr     : Half
  lost   : Half
  deriving DecidableEq, Repr

/-- A polder (R349). `supervisor` says that its contexts start with supervisor privilege (assumption
entry 9). -/
structure Polder where
  part       : PolderRegs
  basin      : BasinRegs
  preempt    : PreemptRegs
  launch     : LaunchRegs
  events     : EventRegs
  supervisor : Bool
  /-- records the launcher has read of the polder (R275, R282) -/
  recordsRead : Nat
  /-- bytes that peers have sent for its units' reads, by virtual address, and reads that failed (R368) -/
  fetched    : Sparse (Option Byte)
  failed     : List (Word × Cause)
  deriving DecidableEq, Repr

/-- How an iteration that has started stands (R277, R278): saved by CTXSAVE, or into a slot of a task image (R345). -/
inductive IterState where
  | running | ended | saved | imaged
  deriving DecidableEq, Repr

/-- An iteration that has started (R271, R282). -/
structure Iter where
  id        : Nat
  ic        : Nat
  core      : CoreId
  state     : IterState
  triggered : Bool
  deriving DecidableEq, Repr

/-- How far a pure task's lookup is (R306). -/
inductive Lookup where
  /-- not pure, or EN = 0: nothing to look up -/
  | none
  | due
  /-- a hit copy is in progress: the entry's H, its stored bytes, a hit by address or by content, and whether its
  writes have been made -/
  | copying (hash : BitVec 256) (data : List Byte) (byAddress written : Bool)
  | missed
  deriving DecidableEq, Repr

/-- What ended a context of a task (R278): the cause, and the arbiter's number of the event of a fault. -/
structure RemovalNote where
  cause : Cause
  num   : Option Half
  deriving DecidableEq, Repr

/-- A task of the launcher (R269, R282). `uid` is the model's own number of it. -/
structure Task where
  uid      : Nat
  polder   : Nat
  /-- the 128 bytes of its record, byte 0 lowest -/
  record   : BitVec 1024
  address  : Word
  rank     : Nat
  /-- the polder's records that had been read when it was registered (R282) -/
  order    : Nat
  deps     : List Nat
  iters    : List Iter
  ended    : Bool
  /-- the removal first in the error arbiter's order (R278) -/
  removal  : Option RemovalNote
  /-- an iteration has been saved and not resumed here (R278) -/
  saved    : Bool
  /-- no further iteration starts: the task is killed or saved (R345) -/
  stopped  : Bool
  /-- its iterations counted as started before a resumption, by polder core number (R345) -/
  skipped  : Sparse Nat
  lookup   : Lookup
  /-- its 256-byte pure descriptor (R291) -/
  pure     : Option (BitVec 2048)
  key      : Option (BitVec 256)
  slots    : List Nat
  slotsOk  : Bool
  noInsert : Bool
  /-- its result tiles, address and size, once it has missed (R309) -/
  results  : List (Nat × Nat)
  deriving DecidableEq, Repr

/-- The address key of a launch (R301): code, entry, loop table, argument block address, constant
range and argument entries of the descriptor. -/
structure AddressKey where
  code   : Word
  entry  : Half
  loops  : BitVec 256
  args   : Word
  consts : BitVec 128
  tiles  : BitVec 1024
  deriving DecidableEq, Repr

/-- A basin entry (R301): `formats` are the result entries' sizes, formats and shapes; `data` the stored result
bytes, tile after tile; `poisoned` marks an uncorrectable error in them (R303). -/
structure BasinEntry where
  hash     : BitVec 256
  polder   : Nat
  akey     : AddressKey
  formats  : List Word
  data     : List Byte
  eligible : Bool
  slots    : List Nat
  used     : Nat
  poisoned : Bool
  deriving DecidableEq, Repr

/-- An armed range-watch slot (R305): the polder, its virtual 4 KiB blocks and the physical blocks they name. -/
structure WatchSlot where
  polder  : Nat
  vblocks : List Nat
  pblocks : List Nat
  deriving DecidableEq, Repr

/-- An ordered reduction on its way or buffered at its home slice (R174): the word pair's address, the number and
the value, the core that issued it, none for a peer, with the cluster, the context identifier, the polder, the
address and the syllable, and whether the slice has refused it (R175). -/
structure RofMsg where
  pair : Nat
  num  : Half
  val  : Half
  core : Option CoreId
  cl   : Cluster
  ctx  : Nat
  polder : Nat
  va   : Word
  syl  : Word
  refused : Bool
  deriving DecidableEq, Repr

/-- What an access that waits for a peer does with the response (R368). -/
inductive PeerUse where
  /-- a returning atomic of a cluster's syllable: the response writes its register and completes its bundle -/
  | atomic (core : CoreId) (cl : Cluster) (rd : SReg) (syl : Word)
  /-- a store or reduction of a cluster or of an engine command: only a failure is reported -/
  | store (core : CoreId) (who : Party)
  /-- an ordered reduction of a cluster's syllable, of a context -/
  | ordered (core : CoreId) (cl : Cluster) (syl : Word) (ctx : Nat)
  /-- an instruction fetch, or a read that a syllable makes before it has any effect -/
  | fetch (core : CoreId) (cl : Cluster)
  /-- a read of an engine command -/
  | engine (core : CoreId) (e : Engine) (seq : Half)
  /-- an access of a polder's own unit: the launcher, the basin, an image transfer or its host; a read fills the
  polder's `fetched` -/
  | unit (polder : Nat) (read : Bool)
  /-- a write of the image of a save of a core (R343) -/
  | image (core : CoreId) (polder : Nat)
  /-- an atomic of a polder's host: the response answers it -/
  | host (polder : Nat)
  /-- a posted write of a polder's host (R364) -/
  | hostWrite (polder : Nat)
  deriving DecidableEq, Repr

/-- An access that a peer has not answered (R368). -/
structure PeerWait where
  id   : Nat
  use  : PeerUse
  /-- domain address of its first byte (R367) -/
  addr : Nat
  va   : Word
  /-- bytes a read asks for -/
  bytes : Nat
  /-- bytes that a store, reduction or atomic sends -/
  data : List Byte
  /-- nanoseconds it has waited -/
  age  : Nat
  deriving DecidableEq, Repr

/-- A Ronino port (R369). -/
structure Port where
  up      : Bool
  replays : Nat
  deriving DecidableEq, Repr

/-- An event on its way through the arbiter (R331). -/
structure EventRec where
  addr   : Word
  source : Half
  cause  : Cause
  kind   : Byte
  polder : Nat
  deriving DecidableEq, Repr

/-- An event record that management has received (R331). -/
structure MgmtEvent where
  time : Word
  num  : Half
  rec_ : EventRec
  deriving DecidableEq, Repr

/-- What the host was answered last through an aperture (R364): nothing yet, Unsupported Request, or bytes. -/
inductive HostReply where
  | none
  | unsupported
  | data (bytes : List Byte)
  deriving DecidableEq, Repr

/-- An atomic of the host (R364): FetchAdd, Swap or CAS, of 64 bits or of 32. -/
inductive HostAtomic where
  | fetchAdd (wide : Bool) (value : Word)
  | swap (wide : Bool) (value : Word)
  | cas (wide : Bool) (compare value : Word)
  deriving DecidableEq, Repr

/-- A read or an atomic of the host that waits: for its earlier posted writes, or a read for bytes of a peer (R364, R368):
virtual function, aperture offset, bytes, and the atomic. -/
structure HostRead where
  vf     : Nat
  off    : Nat
  bytes  : Nat
  atomic : Option HostAtomic
  deriving DecidableEq, Repr

/-- The management complex, time unit and arbiter (R331, R392 to R396). -/
structure Device where
  svn       : BitVec 16
  boot      : BitVec 4
  tlock     : Bool
  ready     : Bool
  mhz       : BitVec 16
  dnum      : BitVec 9
  toff      : Half
  nonce     : BitVec 256
  aaddr     : Word
  actlStat  : Byte
  actlGo    : Bool
  digest    : BitVec 256
  secure    : List SecureRange
  time      : Word
  locked1   : Bool
  arbNum    : Half
  events    : List EventRec
  mgmt      : List MgmtEvent
  /-- MSI-X vector 0 messages sent, by virtual function (R366) -/
  msix      : Sparse Nat
  stopped   : Bool
  /-- tasks registered so far: the number of the next (the model's own) -/
  taskNum   : Nat
  hostReply : HostReply
  /-- host reads that await bytes of a peer, oldest first (R364, R368) -/
  hostWait  : List HostRead
  /-- nanoseconds since the last sync message (R394) -/
  sinceSync : Nat
  /-- nanoseconds for which the power and junction limits have held (R390) -/
  withinNs  : Nat
  /-- what the last request of a peer was answered (R367, R368) -/
  peerReply : Option PeerAnswer
  deriving DecidableEq, Repr

/-- Something that happens next: a cluster issues, or an event takes place. -/
inductive Action where
  | issue (core : CoreId) (cl : Cluster)
  /-- a cluster issues, and what may be performed later is -/
  | issueLate (core : CoreId) (cl : Cluster)
  | event (i : Instr)
  deriving DecidableEq, Repr

/-- Whose syllable executes: its core and cluster, the syllable, whether its bundle has completed, and whether its
accesses and its vector results are performed later (R183, R217; a free choice, assumption entry 3). -/
structure Actor where
  core : CoreId
  cl   : Cluster
  syl  : Word
  done : Bool
  late : Bool
  deriving DecidableEq, Repr

/-- The machine. -/
structure State where
  cores   : Vector Core 256
  quads   : Vector Quad 64
  dies    : Vector Die 4
  polders : Vector Polder 64
  /-- device physical memory (R355, R365) -/
  mem     : Memory
  /-- host memory by PCI Express bus address (R365) -/
  hostMem : Memory
  /-- translations through which a harvest has reported a 32 KiB block that nothing has written since: the addresses of
  their entries, by physical block number (R208, R325) -/
  clean   : Sparse (List (List Nat))
  /-- poisoned 32-byte sectors of HBM (R330) -/
  poison  : Sparse Bool
  /-- poisoned sectors of scratchpads, by 65,536 core + sector (R330) -/
  padPoison : Sparse Bool
  /-- poisoned sectors of L1 copies, by 2^40 core + sector (R330) -/
  l1Poison : Sparse Bool
  /-- granules of host-backed SC pages held by the L2 slices, by the key of an L1 copy: 2^49 context +
  2^48 + granule of the bus address (R153, R169, R197) -/
  l2      : Sparse (Option L1Line)
  /-- sectors of HBM whose copy in an L2 slice is poisoned (R330) -/
  l2Poison : Sparse Bool
  /-- rows under self-test (R329) -/
  fenced  : List ErrorSite
  monitors : List Monitor
  rofSent : List RofMsg
  rofHeld : List RofMsg
  /-- gap timers of word pairs in nanoseconds (R176) -/
  gaps    : Sparse Nat
  tasks   : List Task
  basin   : List BasinEntry
  watches : List (Nat × WatchSlot)
  peers   : List PeerWait
  /-- HBM units that accesses have touched and that have not come to their controllers, by 8 polder + controller (R359) -/
  touched : Sparse Nat
  /-- what images saved by this machine do not hold of their contexts (the model's own) -/
  saves   : List SaveNote
  ports   : Vector Port 16
  dev     : Device
  agenda  : List Action
  actor   : Actor
  free    : Nat
  deriving DecidableEq, Repr

/-- A cluster with no context: registers zero, halted (assumption entry 1). -/
def ClusterState.reset : ClusterState :=
  { s := Vector.replicate 64 0, p := 0, pc := 0, status := .halted, loops := [],
    consumed := Vector.replicate 8 0, pending := [], held := [], useq := none,
    temps := Vector.replicate 16 0, joined := .none, released := false, skipBk := false, counted := false, setst := none,
    asked := [], fetched := [], failed := [] }

/-- A flag at zero (R225). -/
def Flag.reset : Flag := ⟨0, [], .none⟩

/-- An idle accumulator (R132, R350). -/
def Acc.reset : Acc := ⟨false, 0, [], [], []⟩

/-- An unset stream register (R133). -/
def Stream.reset : Stream := ⟨none, 0, 0, [], [], 0, 0⟩

/-- An empty engine queue (R238, R242). -/
def EngineQueue.reset : EngineQueue := ⟨0xFFFFFFFF, 0xFFFFFFFF, 0xFFFFFFFF, [], [], false⟩

/-- Shared registers: zero and empty (R274, R350). -/
def SharedRegs.reset : SharedRegs :=
  { v := Vector.replicate 1536 0, m := Vector.replicate 16 0, flags := Vector.replicate 128 .reset,
    vq := Vector.replicate 12 [], sq := Vector.replicate 4 [], qUsed := false }

/-- The engines with nothing enqueued (R274). -/
def EngineState.reset : EngineState :=
  { accs := Vector.replicate 6 .reset, streams := Vector.replicate 32 .reset,
    queues := Vector.replicate 5 .reset, prefs := Vector.replicate 5 .normal, ordinal := 0,
    weirN := Vector.replicate 5 (Vector.replicate 8 0), weirF := Vector.replicate 8 0,
    weirFront := [], weirNote := [] }

/-- An invalid partition, its words zero (R350, R371). -/
def Partition.reset : Partition := ⟨none, [], 0⟩

/-- Memories of a core: zero and empty (R350). -/
def LocalMem.reset : LocalMem := ⟨[], [], [], [], Vector.replicate 4 .reset⟩

/-- Special registers zero (R319), nothing held. -/
def TrapState.reset : TrapState := ⟨[], 0, [], false, [], [], [], 0⟩

/-- A core with no context. -/
def Core.reset : Core :=
  { phase := .free, ctx := none, cls := ⟨.reset, .reset, .reset, .reset⟩, regs := .reset, eng := .reset,
    loc := .reset, trap := .reset, deque := [], posted := [], xfer := none, lastPolder := none }

/-- A quad whose array is not leased; core 0 is first in the round-robin (assumption entry 1). -/
def Quad.reset : Quad := ⟨none, 0, [], 3⟩

/-- A die with its selection unit idle and no retention register live. -/
def Die.reset : Die := ⟨63, [], [], []⟩

/-- The partition registers at reset (R349). -/
def PolderRegs.reset : PolderRegs :=
  { vf := 0, sec := false, en := false, pcore := Vector.replicate 4 0, pmemB := Vector.replicate 8 0,
    pmemS := Vector.replicate 8 0, ptroot0 := 0, ptroot1 := 0, burst := Vector.replicate 8 0,
    rate := Vector.replicate 8 0, tokens := Vector.replicate 8 0,
    owed := Vector.replicate 8 0, flrGo := false, flrLate := false, flrTime := 0, flrStat := 0,
    exps := Vector.replicate 16 ⟨0, 0, 0⟩, crem := Vector.replicate 8 ⟨0, 0⟩ }

/-- A polder at reset (R279, R302, R344, R349, R363): every register as its table says, the device launch queue
empty and counted as read last (R275). -/
def Polder.reset : Polder :=
  { part := .reset, basin := ⟨Vector.replicate 4 0, 0, 0, 0, 0, false, Vector.replicate 4 0⟩,
    preempt := ⟨0, 0, 0, 0, 0, 0, false, none⟩, launch := ⟨0, false, 4, 0, 0, [], true⟩,
    events := ⟨0, 0, false, 4, 0, 0, 0⟩, supervisor := false, recordsRead := 0, fetched := [], failed := [] }

/-- Management at reset (R396): booting, not ready, 3,600 MHz, time zero and unlocked (R394). -/
def Device.reset : Device :=
  { svn := 0, boot := 0, tlock := false, ready := false, mhz := 3600, dnum := 0, toff := 0, nonce := 0,
    aaddr := 0, actlStat := 0, actlGo := false, digest := 0, secure := [], time := 0, locked1 := false,
    arbNum := 0, events := [], mgmt := [], msix := [], stopped := false, taskNum := 0, hostReply := .none,
    hostWait := [], sinceSync := 0, withinNs := 0, peerReply := none }

/-- The machine right after reset (R392): every core free, memory with nothing listed, management booting. -/
def State.reset : State :=
  { cores := Vector.replicate 256 .reset, quads := Vector.replicate 64 .reset, dies := Vector.replicate 4 .reset,
    polders := Vector.replicate 64 .reset, mem := [], hostMem := [], clean := [], poison := [], padPoison := [],
    l1Poison := [], l2 := [], l2Poison := [], fenced := [], monitors := [], rofSent := [], rofHeld := [], gaps := [],
    tasks := [], basin := [], watches := [],
    peers := [], touched := [], saves := [], ports := Vector.replicate 16 ⟨true, 0⟩, dev := .reset, agenda := [],
    actor := ⟨0, .S, 0, false, false⟩, free := 0 }

end Sys2Proof.Machine
end

