-- ==== Sys2Proof/Machine/Causes.lean ====
section
/-!
DEFINITION. The cause codes (R314).
-/

namespace Sys2Proof.Machine

/-- Causes of codes 0x00 to 0x0F (R314). -/
def causes0 : List Cause :=
  [.none, .illegalOpcode, .slotMismatch, .reservedField,
   .registerRange, .privileged, .bundleSyncMismatch, .rendezvousMismatch,
   .loopStructure, .queueRoute, .breakpoint, .watchpoint,
   .singleStep, .systemCall, .misaligned, .xlateRead]

/-- Causes of codes 0x10 to 0x1F (R314). -/
def causes1 : List Cause :=
  [.xlateWrite, .permission, .worldViolation, .scratchpadBounds,
   .stashConflict, .coherenceMode, .ringDescriptor, .ringOverrun,
   .ringUnderrun, .streamFormat, .engineCommand, .predecessor,
   .unorderedOverlap, .runDepth, .scaleMismatch, .accumulatorState]

/-- Causes of codes 0x20 to 0x2F (R314). -/
def causes2 : List Cause :=
  [.outlierStream, .copyXlate, .copyMemoryError, .gatherIndex,
   .topkParameter, .barrierOverArrival, .barrierObject, .monitorPage,
   .atomicPage, .orderedGap, .pureRead, .pureWrite,
   .pureInstruction, .pureDescriptor, .mopUnbound, .controlStoreImage]

/-- Causes of codes 0x30 to 0x3F (R314). -/
def causes3 : List Cause :=
  [.mopLimit, .controlStorePrivilege, .launchRecord, .dependence,
   .dequeOverflow, .stealTarget, .timeUnlocked, .sramUncorrectable,
   .hbmUncorrectable, .linkError, .peerTimeout, .watchdog,
   .preempt, .kill, .doubleFault, .machineCheck]

/-- All causes in the order of their codes (R314). -/
def allCauses : List Cause := causes0.append (causes1.append (causes2.append causes3))

/-- The code of a cause (R314): its place in the order of `Cause`. -/
def Cause.code (c : Cause) : Nat := c.ctorIdx

/-- The cause of a code (R314). -/
def causeOfCode (n : Nat) : Cause := allCauses.getD n .none

end Sys2Proof.Machine
end

