-- ==== Sys2Proof/Machine/Operands.lean ====
section
/-!
DEFINITION. The operand forms: scalar registers, predicates, masks, vector registers, special registers,
immediates, guards, address operands, and the cores and clusters that hold them.
-/

namespace Sys2Proof.Machine

/-- What a meaning answers. -/
abbrev Res := Host.Outcome State Fault Refusal

/-! ### Cores and clusters -/

/-- A cluster's state. -/
def Clusters.get (k : Clusters) : Cluster → ClusterState
  | .S => k.cS
  | .A => k.cA
  | .X0 => k.cX0
  | .X1 => k.cX1

/-- The four clusters with one replaced. -/
def Clusters.put (k : Clusters) (c : Cluster) (x : ClusterState) : Clusters :=
  match c with
  | .S => { k with cS := x }
  | .A => { k with cA := x }
  | .X0 => { k with cX0 := x }
  | .X1 => { k with cX1 := x }

/-- The clusters in the order of their slots (R10). -/
def clusterOrder : List Cluster := [.S, .A, .X0, .X1]

/-- The engines in the order of their ids (R8). -/
def engineOrder : List Engine := [.mtx, .cin, .cout, .gth, .topk]

/-- All cores. -/
def allCores : List CoreId := List.finRange 256

/-- The core of a physical number. -/
def coreOfNat (n : Nat) : Option CoreId := if h : n < 256 then some ⟨n, h⟩ else none

/-- A core of the machine. -/
def State.core (s : State) (c : CoreId) : Core := s.cores.get c

/-- The machine with one core replaced. -/
def State.setCore (s : State) (c : CoreId) (k : Core) : State := { s with cores := s.cores.set c.val k c.isLt }

/-- A cluster of a core. -/
def Core.cl (k : Core) (c : Cluster) : ClusterState := k.cls.get c

/-- A core with one cluster replaced. -/
def Core.setCl (k : Core) (c : Cluster) (x : ClusterState) : Core := { k with cls := k.cls.put c x }

/-- A cluster of the machine. -/
def State.cl (s : State) (c : CoreId) (x : Cluster) : ClusterState := (s.core c).cl x

/-- The machine with one cluster replaced. -/
def State.setCl (s : State) (c : CoreId) (x : Cluster) (k : ClusterState) : State :=
  s.setCore c ((s.core c).setCl x k)

/-- The core whose syllable executes. -/
def State.here (s : State) : Core := s.core s.actor.core

/-- The machine with that core replaced. -/
def State.setHere (s : State) (k : Core) : State := s.setCore s.actor.core k

/-- The cluster whose syllable executes. -/
def State.me (s : State) : ClusterState := s.cl s.actor.core s.actor.cl

/-- The machine with that cluster replaced. -/
def State.setMe (s : State) (k : ClusterState) : State := s.setCl s.actor.core s.actor.cl k

/-! ### Scalar registers and predicates -/

/-- Scalar register `r`; s0 reads as zero (R85). -/
def ClusterState.getS (k : ClusterState) (r : SReg) : Word := if r = 0 then 0 else tget 0 k.s r.toNat

/-- Scalar register `r` written; a write to s0 is discarded (R85). -/
def ClusterState.setS (k : ClusterState) (r : SReg) (v : Word) : ClusterState :=
  if r = 0 then k else { k with s := tset k.s r.toNat v }

/-- A scalar register of the executing cluster. -/
def State.getS (s : State) (r : SReg) : Word := s.me.getS r

/-- The machine with a scalar register of the executing cluster written. -/
def State.setS (s : State) (r : SReg) (v : Word) : State := s.setMe (s.me.setS r v)

/-- A pattern with one bit set to a value. -/
def setBit {w : Nat} (x : BitVec w) (i : Nat) (b : Bool) : BitVec w :=
  if b then x ||| (1#w <<< i) else x &&& ~~~(1#w <<< i)

/-- Predicate `n`; p0 reads as true (R85). -/
def ClusterState.getP (k : ClusterState) (n : PReg) : Bool := if n = 0 then true else k.p.getLsbD n.toNat

/-- Predicate `n` written; a write to p0 is discarded (R85). -/
def ClusterState.setP (k : ClusterState) (n : PReg) (b : Bool) : ClusterState :=
  if n = 0 then k else { k with p := setBit k.p n.toNat b }

/-- A predicate of the executing cluster. -/
def State.getP (s : State) (n : PReg) : Bool := s.me.getP n

/-- The machine with a predicate of the executing cluster written. -/
def State.setP (s : State) (n : PReg) (b : Bool) : State := s.setMe (s.me.setP n b)

/-- The 16-bit pattern of the predicates, bit 0 always 1 (GETP, R91). -/
def ClusterState.allP (k : ClusterState) : BitVec 16 := k.p ||| 1

/-- A syllable's guard (R15). -/
def ClusterState.guard (k : ClusterState) (pred : PReg) (neg : Bool) : Bool := k.getP pred ^^ neg

/-! ### Masks and vector registers -/

/-- Mask register `n`; m0 reads as all ones (R106). -/
def Core.getM (k : Core) (n : MReg) : Mask := if n = 0 then BitVec.allOnes 64 else tget 0 k.regs.m n.toNat

/-- Mask register `n` written; a write to m0 is discarded (R19). -/
def Core.setM (k : Core) (n : MReg) (v : Mask) : Core :=
  if n = 0 then k else { k with regs := { k.regs with m := tset k.regs.m n.toNat v } }

/-- Vector register `n` (R105), read whole at the reader's step: it holds lanes of at most one write that has not landed whole
(R217; DESIGN CHOICE, assumption entry 69). -/
def Core.getV (k : Core) (n : VReg) : Vec := tget 0 k.regs.v n.toNat

/-- Vector register `n` written whole. -/
def Core.setV (k : Core) (n : VReg) (v : Vec) : Core :=
  { k with regs := { k.regs with v := tset k.regs.v n.toNat v } }

/-- A mask of the executing cluster's core. -/
def State.getM (s : State) (n : MReg) : Mask := s.here.getM n

/-- The machine with a mask of that core written. -/
def State.setM (s : State) (n : MReg) (v : Mask) : State := s.setHere (s.here.setM n v)

/-- A vector register of the executing cluster's core. -/
def State.getV (s : State) (n : VReg) : Vec := s.here.getV n

/-- The machine with a vector register of that core written. -/
def State.setV (s : State) (n : VReg) (v : Vec) : State := s.setHere (s.here.setV n v)

/-! ### Special registers -/

/-- Numbers of the special registers (R102). -/
def srCause : Nat := 0x000
/-- %faddr. -/
def srFaddr : Nat := 0x001
/-- %fsyl. -/
def srFsyl : Nat := 0x002
/-- %fpc0; %fpcn follows. -/
def srFpc : Nat := 0x003
/-- %fcut0; %fcutq follows. -/
def srFcut : Nat := 0x008
/-- %fupc. -/
def srFupc : Nat := 0x00D
/-- %fflags. -/
def srFflags : Nat := 0x00E
/-- %dfcause. -/
def srDfcause : Nat := 0x00F
/-- %dfaddr. -/
def srDfaddr : Nat := 0x010
/-- %tvec. -/
def srTvec : Nat := 0x011
/-- %tstack. -/
def srTstack : Nat := 0x012
/-- %ctxid. -/
def srCtxid : Nat := 0x020
/-- %polder. -/
def srPolder : Nat := 0x021
/-- %rank. -/
def srRank : Nat := 0x022
/-- %world. -/
def srWorld : Nat := 0x023
/-- %mmrev. -/
def srMmrev : Nat := 0x024
/-- %flmode. -/
def srFlmode : Nat := 0x025
/-- %core. -/
def srCore : Nat := 0x030
/-- %die. -/
def srDie : Nat := 0x031
/-- %quad. -/
def srQuad : Nat := 0x032
/-- %lidx0; %lidxj follows. -/
def srLidx : Nat := 0x033
/-- %ltrip0; %ltripj follows. -/
def srLtrip : Nat := 0x037
/-- %fpstat. -/
def srFpstat : Nat := 0x040
/-- %fpctl. -/
def srFpctl : Nat := 0x041
/-- %cycle. -/
def srCycle : Nat := 0x050
/-- %time. -/
def srTime : Nat := 0x051
/-- %gen. -/
def srGen : Nat := 0x060
/-- %bkpt0; %bkptn follows. -/
def srBkpt : Nat := 0x070
/-- %bkctl. -/
def srBkctl : Nat := 0x078
/-- %watch0; %watchn follows. -/
def srWatch : Nat := 0x080
/-- %wctl. -/
def srWctl : Nat := 0x084
/-- %purectl. -/
def srPurectl : Nat := 0x090
/-- %csmap. -/
def srCsmap : Nat := 0x0A0
/-- %qroute. -/
def srQroute : Nat := 0x0B0

/-- A special register of a core as stored; one never written reads as zero (R319). -/
def Core.getSr (k : Core) (n : Nat) : Word := sget 0 k.trap.sr n

/-- A special register of a core stored. -/
def Core.setSr (k : Core) (n : Nat) (v : Word) : Core :=
  { k with trap := { k.trap with sr := sset 0 k.trap.sr n v } }

/-- Special registers stored one after another. -/
def Core.setSrs (k : Core) : List (Nat × Word) → Core
  | [] => k
  | (n, v) :: l => (k.setSr n v).setSrs l

/-- The in-handler flag INH, bit 0 of %fflags (R319). -/
def Core.inHandler (k : Core) : Bool := (k.getSr srFflags).getLsbD 0

/-- The context runs with user privilege: it is a user context outside its handler (R320). -/
def Core.isUser (k : Core) : Bool := !k.inHandler && (k.ctx.map (·.user)).getD false

/-- The context runs a pure task, and outside its handler: the checks of R294 and R295 apply. -/
def Core.isPure (k : Core) : Bool := !k.inHandler && (k.getSr srPurectl).getLsbD 0

/-- The 3-bit rank of the context (R255). -/
def Core.rank (k : Core) : Nat := (k.getSr srRank).toNat % 8

/-! ### Immediates and addresses -/

/-- A value sign-extended to 64 bits: sx of R36, read back as a pattern. -/
def sext64 {w : Nat} (x : BitVec w) : Word := x.signExtend 64

/-- A value zero-extended to 64 bits: zx of R36. -/
def zext64 {w : Nat} (x : BitVec w) : Word := x.setWidth 64

/-- The address operand of MM, MN and MA formats: s[base] + sx(offset) modulo 2^64 (R151, R164, R165, R170). -/
def State.addr {w : Nat} (s : State) (base : SReg) (off : BitVec w) : Word := s.getS base + sext64 off

/-- A branch target relative to a bundle: PC + sx(off32) × 32 (R13). -/
def relTarget (pc : Word) (off : BitVec 32) : Word := pc + sext64 off * 32

end Sys2Proof.Machine
end

