-- ==== Sys2Proof/Machine/Translate.lean ====
section
/-!
DEFINITION. A polder's cores and memory ranges, the four-level walk, and where an access to an address lands
(R151, R152, R349, R353 to R356).
-/

namespace Sys2Proof.Machine

/-! ### Placement (R271 to R273, R349) -/

/-- A polder of the machine. -/
def State.polder (s : State) (n : Nat) : Polder := tget Polder.reset s.polders n

/-- The machine with a polder replaced. -/
def State.setPolder (s : State) (n : Nat) (p : Polder) : State := { s with polders := tset s.polders n p }

/-- The polder holds physical core `c` (R349). -/
def Polder.owns (p : Polder) (c : Nat) : Bool := (tget 0 p.part.pcore (c / 64)).getLsbD (c % 64)

/-- The polder's cores on compute die `d`, in ascending physical order: logical core `j` is entry `j` (R273). -/
def Polder.dieCores (p : Polder) (d : Nat) : List Nat :=
  (List.range 64).filterMap fun i => if p.owns (64 * d + i) then some (64 * d + i) else none

/-- The polder's compute dies, ascending: logical die `j` is entry `j` (R271, R273). -/
def Polder.dieList (p : Polder) : List Nat := (List.range 4).filter fun d => !(p.dieCores d).isEmpty

/-- The polder's cores by polder-wide number: die by die, and within a die by logical core (R152). -/
def Polder.coreList (p : Polder) : List Nat := p.dieList.flatMap p.dieCores

/-- The physical core of a polder-wide number. -/
def Polder.coreAt (p : Polder) (n : Nat) : Option CoreId := p.coreList[n]?.bind coreOfNat

/-- The polder-wide number of a physical core. -/
def Polder.numberOf (p : Polder) (c : CoreId) : Nat := p.coreList.idxOf c.val

/-- The physical core at a logical die and a logical core of it (R271). -/
def Polder.place (p : Polder) (die core : Nat) : Option CoreId :=
  (p.dieList[die]?).bind fun d => (p.dieCores d)[core]?.bind coreOfNat

/-- A device physical byte lies in the polder's memory ranges (R349). -/
def Polder.inRange (p : Polder) (pa : Nat) : Bool :=
  (List.range 8).any fun k =>
    let b := (tget 0 p.part.pmemB k).toNat
    decide (b ≤ pa ∧ pa < b + (tget 0 p.part.pmemS k).toNat * 65536)

/-- A device physical byte lies in a secure range (R353). -/
def State.isSecure (s : State) (pa : Nat) : Bool :=
  s.dev.secure.any fun r => decide (r.base ≤ pa ∧ pa < r.base + r.size)

/-- The polder of a core's context is enabled (R349). -/
def State.mayRun (s : State) (c : CoreId) : Bool :=
  (((s.core c).ctx).map fun x => (s.polder x.polder).part.en).getD true

/-! ### Agents and errors -/

/-- Who makes an access (R161): the core whose cluster or command it is, none for the host; the cluster or the engine,
none for a polder's unit and the host; its polder, context, privilege and world; the pure task's ranges when R294 applies;
and for a unit or the host what an event of its access names as its source (R331). -/
structure Agent where
  core   : Option CoreId
  who    : Option Party
  polder : Nat
  ctx    : Nat
  user   : Bool
  secure : Bool
  pure   : Option (List VRange × List VRange)
  source : Half
  /-- the narrowest scope about a core of the device that holds an agent of no core (R159) -/
  far    : Scope
  deriving DecidableEq, Repr

/-- The cluster that makes an access. -/
def Agent.cl (ag : Agent) : Option Cluster :=
  match ag.who with
  | some (.cluster x) => some x
  | _ => none

/-- The engine whose command makes an access. -/
def Agent.eng (ag : Agent) : Option Engine :=
  match ag.who with
  | some (.engine e) => some e
  | _ => none

/-- An access of a command or of a polder's unit, which no cluster makes. -/
def Agent.engine (ag : Agent) : Bool := ag.cl.isNone

/-- The agent that a context's cluster, or a command of one of its engines, is. -/
def Core.agent (k : Core) (c : CoreId) (who : Party) : Agent :=
  let x := k.ctx
  { core := some c, who := some who, polder := (x.map (·.polder)).getD 0, ctx := (k.getSr srCtxid).toNat,
    user := k.isUser, secure := (k.getSr srWorld).getLsbD 0,
    pure := if k.isPure then x.map fun y => (y.reads, y.writes) else none, source := 0, far := .device }

/-- What an access wants of a page. -/
inductive AccKind where
  | read | write | atomic | fetch
  deriving DecidableEq, Repr

/-- The access writes (R151). -/
def AccKind.writes : AccKind → Bool
  | .read => false
  | .fetch => false
  | .write => true
  | .atomic => true

/-- The access reads. -/
def AccKind.reads : AccKind → Bool
  | .read => true
  | .atomic => true
  | .write => false
  | .fetch => false

/-- The cause of a missing translation (R161). -/
def AccKind.xlate (k : AccKind) : Cause := if k.writes then .xlateWrite else .xlateRead

/-- The targets an instruction accepts (R170, R288). -/
inductive Accept where
  /-- any page and scratchpad -/
  | any
  /-- atomics and reductions: HC and CP pages of this device or a peer, scratchpad; otherwise ATOMIC_PAGE -/
  | atomics
  /-- ROFADD: HC pages of this device or a peer; otherwise ATOMIC_PAGE -/
  | ordered
  /-- MWAIT: HC pages of this device; otherwise MONITOR_PAGE -/
  | monitor
  /-- barriers: HC pages of this device; otherwise BARRIER_OBJECT -/
  | barrier
  deriving DecidableEq, Repr

/-- Why an access does not happen: a fault with the failing byte's address, or a device physical byte that the
manual does not give (assumption entry 19). -/
inductive AccErr where
  | fault (c : Cause) (va : Word)
  | hole (pa : Nat)
  deriving DecidableEq, Repr

/-! ### The walk (R354 to R356) -/

/-- Levels of the walk: first index bit and index width (R354). -/
def walkLevels : List (Nat × Nat × Nat) := [(0, 39, 9), (1, 30, 9), (2, 21, 9), (3, 16, 5)]

/-- The page size of a leaf at a level, as a power of two (R354). -/
def leafBits : Nat → Nat
  | 1 => 30
  | 2 => 21
  | _ => 16

/-- The size of what a table of a level translates, as a power of two (R354). -/
def tableBits : Nat → Nat
  | 1 => 39
  | 2 => 30
  | 3 => 21
  | _ => 48

/-- The number of the block of 2^`bits` bytes that an address of 48 bits lies in. -/
def blockOf (bits : Nat) (va : Word) : Nat := va.toNat % 2 ^ 48 / 2 ^ bits

/-- The leaf entry breaks a rule of R355 or R356 step 1. -/
def badLeaf (level : Nat) (e : Word) : Bool :=
  let n := e.toNat
  let kind := n / 2 ^ 8 % 4
  let mode := n / 2 ^ 6 % 4
  level == 0 || kind == 3 || mode == 3 || n / 2 ^ 10 % 64 != 0 || n / 2 ^ 52 % 16 != 0 ||
    (mode != 2 && n / 2 ^ 56 != 0) || (mode == 2 && kind != 0) ||
    n / 2 ^ 16 % 2 ^ (leafBits level - 16) != 0

/-- The non-leaf entry breaks a rule of R355: bits 7:1 or 63:52 set, or a table that is not aligned. -/
def badTable (level : Nat) (e : Word) : Bool :=
  let n := e.toNat
  n / 2 % 128 != 0 || n / 2 ^ 52 != 0 || (level != 2 && n / 2 ^ 8 % 16 != 0)

/-- A walk from a table (R354, R356 step 1): the leaf entry, its level and the addresses of the entries read, the leaf's
last. -/
def walkFrom (s : State) (p : Polder) (secure : Bool) (kind : AccKind) (va : Word) :
    List (Nat × Nat × Nat) → Nat → Except AccErr (Word × Nat × List Nat)
  | [], _ => .error (.fault kind.xlate va)
  | (level, lo, w) :: ls, table =>
    let a := table + 8 * (va.toNat / 2 ^ lo % 2 ^ w)
    if !p.inRange a then .error (.fault kind.xlate va)
    else if s.isSecure a && !secure then .error (.fault .worldViolation (BitVec.ofNat 64 a))
    else if Config.hbmBytes ≤ a + 7 then .error (.hole a)
    else
      let e : Word := BitVec.ofNat 64 (leNat (rdBytes s.mem a 8))
      if !e.getLsbD 0 then .error (.fault kind.xlate va)
      else if e.getLsbD 1 then
        if badLeaf level e then .error (.fault kind.xlate va) else .ok (e, level, [a])
      else if level == 3 || badTable level e then .error (.fault kind.xlate va)
      else (walkFrom s p secure kind va ls (e.toNat / 2 ^ 8 % 2 ^ 44 * 2 ^ 8)).map fun x => (x.1, x.2.1, a :: x.2.2)

/-- The 64 KiB page number of an address. -/
def pageOf (va : Word) : Nat := va.toNat / 65536 % 2 ^ 32

/-- The die of a core. -/
def State.die (s : State) (c : CoreId) : Die := tget Die.reset s.dies (c.val / 64)

/-- The die of a core replaced. -/
def State.setDie (s : State) (c : CoreId) (d : Die) : State := { s with dies := tset s.dies (c.val / 64) d }

/-- A TLB entry translates an address for an agent (R357). -/
def TlbEntry.serves (e : TlbEntry) (ag : Agent) (va : Word) : Bool :=
  e.ctx == ag.ctx && e.world == ag.secure && e.page == blockOf (leafBits e.level) va

/-- An entry of a walk cache gives the table of its level for an address of an agent (R357). -/
def WalkEntry.serves (e : WalkEntry) (ag : Agent) (va : Word) : Bool :=
  e.ctx == ag.ctx && e.world == ag.secure && e.block == blockOf (tableBits e.level) va

/-- The TLB entry that translates an address for an agent: of its core's TLB, or of its die's (R357). -/
def State.tlbHit (s : State) (ag : Agent) (va : Word) : Option TlbEntry :=
  ag.core.bind fun c => ((s.core c).loc.tlb.find? (·.serves ag va)).orElse fun _ => (s.die c).tlb.find? (·.serves ag va)

/-- The walk of an address in a polder's tables (R354): the leaf entry, its level and the addresses of its entries. -/
def State.walk (s : State) (p : Polder) (secure : Bool) (kind : AccKind) (va : Word) :
    Except AccErr (Word × Nat × List Nat) :=
  walkFrom s p secure kind va walkLevels (if va.getLsbD 47 then p.part.ptroot1 else p.part.ptroot0).toNat

/-- The deepest table that the walk caches of an agent's die hold for an address: its level and its place (R357). -/
def State.walkHit (s : State) (ag : Agent) (va : Word) : Option (Nat × Nat) :=
  ag.core.bind fun c =>
    let l := (s.die c).walks.filter (·.serves ag va)
    [3, 2, 1].findSome? fun level => (l.find? (·.level == level)).map fun e => (level, e.table)

/-- The walk that an agent's access makes: from the table that a walk cache gives, or from the root (R354, R357). The level at
which it begins comes with its result. -/
def State.walkOf (s : State) (ag : Agent) (kind : AccKind) (va : Word) : Nat × Except AccErr (Word × Nat × List Nat) :=
  match s.walkHit ag va with
  | some (level, table) =>
    (level, walkFrom s (s.polder ag.polder) ag.secure kind va (walkLevels.drop level) table)
  | none => (0, s.walk (s.polder ag.polder) ag.secure kind va)

/-- The leaf entry of an address and its level: from the TLB, or by a walk (R354, R357, R358). -/
def State.leaf (s : State) (ag : Agent) (kind : AccKind) (va : Word) : Except AccErr (Word × Nat) :=
  match s.tlbHit ag va with
  | some e => .ok (e.leaf, e.level)
  | none => (s.walkOf ag kind va).2.map fun x => (x.1, x.2.1)

/-- The mode of a leaf entry (R355). -/
def leafMode (e : Word) : PageMode :=
  match e.toNat / 2 ^ 6 % 4 with
  | 0 => .hc
  | 1 => .sc
  | _ => .cp

/-- The checks of R356 steps 2 to 4 on a leaf, and the byte it names. -/
def State.useLeaf (s : State) (ag : Agent) (kind : AccKind) (va : Word) (e : Word) (level : Nat) :
    Except AccErr (Place × PageMode) :=
  let p := s.polder ag.polder
  let bits := leafBits level
  let base := e.toNat / 2 ^ 16 % 2 ^ 36 * 2 ^ 16
  let a := base + va.toNat % 2 ^ bits
  let k := e.toNat / 2 ^ 8 % 4
  let mode := leafMode e
  let owner := e.toNat / 2 ^ 56
  if (ag.user && !e.getLsbD 5) || (kind.reads && !e.getLsbD 2) ||
      (kind.writes && (!e.getLsbD 3 || e.getLsbD 4)) || (kind == .fetch && !e.getLsbD 4) ||
      (k == 0 && !p.inRange a) then .error (.fault .permission va)
  else if k == 0 && s.isSecure a && !ag.secure then .error (.fault .worldViolation va)
  else if mode == .cp && !(ag.core.map (p.numberOf ·) == some owner) then
    .error (.fault .coherenceMode va)
  else if k == 1 then .ok (.host a, mode)
  else if k == 2 then .ok (.peer a, mode)
  else if Config.hbmBytes ≤ a then .error (.hole a)
  else .ok (.hbm a, mode)

/-! ### Windows (R151, R152) -/

/-- What part of the address space a byte lies in (R151). -/
inductive Region where
  | nonCanonical
  | translated
  | supervisor
  | polderPad (n off : Nat)
  | ownPad (off : Nat)
  | noWindow
  deriving DecidableEq, Repr

/-- The region of an address (R151). -/
def regionOf (va : Word) : Region :=
  let n := va.toNat
  if n < 0x7E0000000000 then .translated
  else if n < 0x7F0000000000 then .polderPad ((n - 0x7E0000000000) / 0x200000) ((n - 0x7E0000000000) % 0x200000)
  else if n < 0x7F0000200000 then .ownPad (n - 0x7F0000000000)
  else if n < 0x800000000000 then .noWindow
  else if n < 0xFFFF800000000000 then .nonCanonical
  else .supervisor

/-- The first offset of a scratchpad that holds the engine queues (R152). -/
def padTop : Nat := 0x1FF000

/-- The stash mapping of a core that covers a scratchpad offset (R157). -/
def Core.stashAt (k : Core) (off : Nat) : Option StashMap :=
  k.loc.stash.find? fun m => decide (m.off ≤ off ∧ off < m.off + 64 * m.count)

/-- The core whose scratchpad a polder's window of a number is: none while another polder's context is still on it (R152,
R348, R350). -/
def State.windowCore (s : State) (polder n : Nat) : Option CoreId :=
  ((s.polder polder).coreAt n).filter fun c => (s.core c).ctx.all (·.polder == polder)

/-- The scratchpad byte that an address names for an agent (R152): the window of the agent's own polder number
and the own window are the same bytes. -/
def State.padOf (s : State) (ag : Agent) (va : Word) : Option (CoreId × Nat) :=
  match regionOf va with
  | .ownPad off => ag.core.map (·, off)
  | .polderPad n off => (s.windowCore ag.polder n).map (·, off)
  | _ => none

/-- A byte lies in one of the ranges. -/
def inRanges (rs : List VRange) (va : Word) : Bool := rs.any fun r => decide ((va - r.base).toNat < r.size)

/-- Step 2 of R161. -/
def checkCanonical (kind : AccKind) (va : Word) : Option AccErr :=
  if regionOf va = .nonCanonical then some (.fault kind.xlate va) else none

/-- Step 3 of R161. -/
def checkHalf (ag : Agent) (va : Word) : Option AccErr :=
  if ag.user && regionOf va == .supervisor then some (.fault .permission va) else none

/-- Step 4 of R161: the scratchpad window rules (R152). -/
def State.checkWindow (s : State) (ag : Agent) (kind : AccKind) (va : Word) : Option AccErr :=
  match regionOf va with
  | .noWindow => some (.fault .scratchpadBounds va)
  | .ownPad off =>
    if kind == .fetch then some (.fault .permission va)
    else if ag.core.isNone || decide (padTop ≤ off) then some (.fault .scratchpadBounds va) else none
  | .polderPad n off =>
    if kind == .fetch then some (.fault .permission va)
    else if (s.windowCore ag.polder n).isNone || decide (padTop ≤ off) then
      some (.fault .scratchpadBounds va)
    else none
  | _ => none

/-- The global address that a stash mapping of the agent's core gives a byte of its own scratchpad (R157), with the
mapping's offset and entry. R157 speaks of loads and stores; that an atomic, a reduction and MWAIT through the own window
act at the mapped address too is DEDUCED (assumption entry 39; unsafe). -/
def State.stashOf (s : State) (ag : Agent) (va : Word) : Option (Word × Nat × Nat) :=
  match s.padOf ag va with
  | some (c, off) =>
    if ag.engine || ag.core != some c then none
    else ((s.core c).stashAt off).map fun m => (m.addr + BitVec.ofNat 64 (off - m.off), m.off, (off - m.off) / 64)
  | none => none

/-- Step 5 of R161: a pure task's reads and writes (R294); a stash access is checked at its mapped address. -/
def State.checkPure (s : State) (ag : Agent) (kind : AccKind) (va : Word) : Option AccErr :=
  match ag.pure with
  | none => none
  | some (rs, ws) =>
    let g := (s.stashOf ag va).map (·.1)
    let own := g.isNone && ((s.padOf ag va).map (·.1)).isSome && (s.padOf ag va).map (·.1) == ag.core
    let a := g.getD va
    if own then none
    else if kind.writes && !inRanges ws a then some (.fault .pureWrite a)
    else if kind.reads && !inRanges rs a then some (.fault .pureRead a)
    else none

/-- What the instruction accepts, at the end of step 6 of R161 (R170, R288). -/
def accepted (acc : Accept) (l : Loc) : Bool :=
  match acc, l.place, l.mode with
  | .any, _, _ => true
  | .atomics, .hbm _, .sc => false
  | .atomics, .hbm _, _ => true
  | .atomics, .peer _, .hc => true
  | .atomics, .pad _ _, _ => true
  | .ordered, .hbm _, .hc => true
  | .ordered, .peer _, .hc => true
  | .monitor, .hbm _, .hc => true
  | .barrier, .hbm _, .hc => true
  | _, _, _ => false

/-- The fault of a target that the instruction does not accept. -/
def Accept.cause : Accept → Cause
  | .any => .permission
  | .atomics => .atomicPage
  | .ordered => .atomicPage
  | .monitor => .monitorPage
  | .barrier => .barrierObject

/-- Where a byte of translated memory lands, after step 6 of R161. -/
def State.locTranslated (s : State) (ag : Agent) (kind : AccKind) (acc : Accept) (va : Word)
    (stash : Option (Nat × Nat)) : Except AccErr Loc := do
  let (e, level) ← s.leaf ag kind va
  let (pl, mode) ← s.useLeaf ag kind va e level
  let l : Loc := ⟨pl, mode, stash⟩
  if accepted acc l then .ok l else .error (.fault acc.cause va)

/-- Where a byte lands (R161 step 6). A stash access meets the checks of its mapped address (R157); a barrier object lies in no
scratchpad window, mapped or not (R288). -/
def State.locate (s : State) (ag : Agent) (kind : AccKind) (acc : Accept) (va : Word) : Except AccErr Loc :=
  match if acc = .barrier then none else s.stashOf ag va with
  | some (g, off, i) =>
    match checkCanonical kind g, checkHalf ag g with
    | some e, _ => .error e
    | none, some e => .error e
    | none, none =>
      match regionOf g with
      | .translated | .supervisor => s.locTranslated ag kind acc g (some (off, i))
      | _ => .error (.fault .scratchpadBounds g)
  | none =>
    match s.padOf ag va with
    | some (c, off) =>
      let l : Loc := ⟨.pad c off, .hc, none⟩
      if accepted acc l then .ok l else .error (.fault acc.cause va)
    | none => s.locTranslated ag kind acc va none

/-- The stash rules of R157 on one byte (R161 step 7): a stash access to a host-backed or peer-backed page faults with
PERMISSION, an access to a mapped region through another core's window with SCRATCHPAD_BOUNDS, and an engine command's
with STASH_CONFLICT. -/
def State.stashErr (s : State) (ag : Agent) (x : Word × Loc) : Option AccErr :=
  let g := ((s.stashOf ag x.1).map (·.1)).getD x.1
  match x.2.stash, x.2.place with
  | some _, .host _ => some (.fault .permission g)
  | some _, .peer _ => some (.fault .permission g)
  | none, .pad c off =>
    if ((s.core c).stashAt off).isNone then none
    else if some c != ag.core then some (.fault .scratchpadBounds x.1)
    else some (.fault .stashConflict x.1)
  | _, _ => none

/-- The first error of a check over the bytes of an access, lowest first. -/
def firstErr {α : Type} (f : α → Option AccErr) : List α → Option AccErr
  | [] => none
  | a :: as => match f a with
    | some e => some e
    | none => firstErr f as

/-- Step 6 over the bytes of an access, lowest first. -/
def State.locateAll (s : State) (ag : Agent) (kind : AccKind) (acc : Accept) :
    List Word → Except AccErr (List Loc)
  | [] => .ok []
  | a :: as =>
    match s.locate ag kind acc a with
    | .error e => .error e
    | .ok l =>
      match s.locateAll ag kind acc as with
      | .error e => .error e
      | .ok ls => .ok (l :: ls)

/-- Steps 2 to 4 of R161 over the bytes of an access. -/
def State.checkEarly (s : State) (ag : Agent) (kind : AccKind) (vas : List Word) : Option AccErr :=
  match firstErr (checkCanonical kind) vas with
  | some e => some e
  | none => match firstErr (checkHalf ag) vas with
    | some e => some e
    | none => firstErr (s.checkWindow ag kind) vas

/-- Steps 2 to 7 of R161 over the bytes of an access: where each byte lands, or the first check that fails. -/
def State.checkAccess (s : State) (ag : Agent) (kind : AccKind) (acc : Accept) (vas : List Word) :
    Except AccErr (List Loc) :=
  match s.checkEarly ag kind vas with
  | some e => .error e
  | none => match firstErr (s.checkPure ag kind) vas with
    | some e => .error e
    | none =>
      match s.locateAll ag kind acc vas with
      | .error e => .error e
      | .ok ls =>
        match firstErr (s.stashErr ag) (vas.zip ls) with
        | some e => .error e
        | none => .ok ls

/-- `n` consecutive byte addresses from `va`, modulo 2^64 (R151). -/
def vaBytes (va : Word) : Nat → List Word
  | 0 => []
  | n + 1 => va :: vaBytes (va + 1) n

end Sys2Proof.Machine
end

