-- ==== Sys2Proof/Machine/Access.lean ====
section
/-!
DEFINITION. What an access does where it lands: reading and writing bytes, L1 copies of SC pages (R197), the stash
(R157), dirty blocks (R208), monitors (R177), range watches (R305), poison (R330), the range scoreboard (R253)
and watchpoints (R328).
-/

namespace Sys2Proof.Machine

/-! ### Events (R331) -/

/-- An event on its way to the error arbiter. -/
def State.sendEvent (s : State) (e : EventRec) : State :=
  { s with dev := { s.dev with events := s.dev.events ++ [e] } }

/-- The source field of a core's event: unit kind 0 or 1, compute die, core on the die, engine or 0xFF (R331). -/
def coreSource (c : CoreId) (e : Option Engine) : Half :=
  let unit := if e.isSome then 1 else 0
  let port := (e.map Engine.code).getD 0xFF
  BitVec.ofNat 32 (unit * 2 ^ 24 + c.val / 64 * 2 ^ 16 + c.val % 64 * 2 ^ 8 + port)

/-- The polder number of a core's context, 0xFFFF with no context (R331). -/
def Core.polderNo (k : Core) : Nat := (k.ctx.map (·.polder)).getD 0xFFFF

/-- An error event of a store or reduction of a cluster or of an engine command: kind 8 (R163, R331). -/
def State.storeError (s : State) (c : CoreId) (e : Option Engine) (cause : Cause) (va : Word) : State :=
  s.sendEvent ⟨va, coreSource c e, cause, 8, (s.core c).polderNo⟩

/-! ### Writes to device memory are noticed -/

/-- The device-wide mark of an event's polder field (R331). -/
def noPolder : Nat := 0xFFFF

/-- The polder whose memory holds a byte: no single one when several do, or none (R331). -/
def State.polderOfByte (s : State) (pa : Nat) : Nat :=
  match (List.range 64).filter fun n => (s.polder n).inRange pa with
  | [n] => n
  | _ => noPolder

/-- A byte lies in the polder's reuse store (R302). -/
def BasinRegs.holds (b : BasinRegs) (pa : Nat) : Bool :=
  decide (b.rsbase.toNat ≤ pa ∧ pa < b.rsbase.toNat + b.rsquota.toNat * 65536)

/-- The HBM units that an access of some device bytes may bring to a controller: those of the 256-byte blocks around it, each
read and, later, written back (R153, R359; assumption entry 18). -/
def unitsNear (pas : List Nat) : List Nat :=
  ((pas.map (· / 256)).dedup).flatMap fun b => (List.range 8).map fun i => 4 * b + i / 2

/-- The polders in whose memory ranges or reuse store a device byte lies (R359). -/
def State.chargedFor (s : State) (pa : Nat) : List Nat :=
  (List.range 64).filter fun n => (s.polder n).inRange pa || (s.polder n).basin.holds pa

/-- An access touches device bytes: each unit of 64 bytes may come to its controller, for its polder (R359). -/
def State.touch (s : State) (pas : List Nat) : State :=
  { s with touched := (unitsNear pas).foldl (fun m u =>
      (s.chargedFor (64 * u)).foldl (fun m n =>
        let key := 8 * n + Config.hbmController (64 * u) % 8
        sset 0 m key (sget 0 m key + 1)) m) s.touched }

/-- A transfer of a context image is not charged (R337, R359): the machine after it, with the units touched before it. -/
def State.uncharged (s before : State) : State := { s with touched := before.touched }

/-- The source field of the host interface's events (R331). -/
def hostSource : Half := 0x0604FFFF

/-- A task of the machine replaced by its number. -/
def State.mapTask (s : State) (uid : Nat) (f : Task → Task) : State :=
  { s with tasks := s.tasks.map fun t => if t.uid = uid then f t else t }

/-- NOINS set in an iteration's %purectl (R298). -/
def State.setNoins (s : State) (c : CoreId) : State :=
  s.setCore c ((s.core c).setSr srPurectl ((s.core c).getSr srPurectl ||| 2))

/-- The task can no longer be inserted; NOINS is set in its running iterations (R298, R309). -/
def State.markNoInsert (s : State) (uid : Nat) : State :=
  let cores := (s.tasks.filter (·.uid = uid)).flatMap fun t =>
    (t.iters.filter (·.state = .running)).map (·.core)
  cores.foldl State.setNoins (s.mapTask uid fun t => { t with noInsert := true })

/-- Range-watch slots fire (R305): every basin entry that holds one loses address eligibility and frees all its
slots, and a task that holds one keeps no eligibility. -/
def State.fireSlots (s : State) (p : WatchSlot → Bool) : State :=
  let fired := (s.watches.filter fun w => p w.2).map (·.1)
  if fired.isEmpty then s
  else
    let hit (l : List Nat) : Bool := l.any fired.contains
    let freed := fired ++ (s.basin.filter fun e => hit e.slots).flatMap (·.slots) ++
      (s.tasks.filter fun t => hit t.slots).flatMap (·.slots)
    { s with
      watches := s.watches.filter fun w => !freed.contains w.1
      basin := s.basin.map fun e => if hit e.slots then { e with eligible := false, slots := [] } else e
      tasks := s.tasks.map fun t => if hit t.slots then { t with slotsOk := false, slots := [] } else t }

/-- The blocks of translations that read an entry at one of some bytes are dirty (R325). -/
def retranslated (clean : Sparse (List (List Nat))) (pas : List Nat) : Sparse (List (List Nat)) :=
  clean.filterMap fun e =>
    match e.2.filter fun t => !t.any fun a => pas.any (fun b => b / 8 == a / 8) with
    | [] => none
    | l => some (e.1, l)

/-- Blocks written are dirty through every translation, and an entry written makes the blocks of its translations dirty
(R208, R325). -/
def dirtied (clean : Sparse (List (List Nat))) (pas : List Nat) : Sparse (List (List Nat)) :=
  if clean.isEmpty then clean else retranslated (clean.filter fun e => !pas.any (fun a => a / 32768 == e.1)) pas

/-- The device byte that a polder's tables name for an address, whatever the page allows. -/
def State.deviceByte (s : State) (n : Nat) (va : Nat) : Option Nat :=
  match s.walk (s.polder n) (s.polder n).part.sec .read (BitVec.ofNat 64 va) with
  | .ok (e, level, _) =>
    if e.toNat / 2 ^ 8 % 4 = 0 then some (e.toNat / 2 ^ 16 % 2 ^ 36 * 2 ^ 16 + va % 2 ^ leafBits level) else none
  | .error _ => none

/-- The page of a virtual block is no longer an HC page (R198, R305). -/
def State.modeChanged (s : State) (n b : Nat) : Bool :=
  match s.walk (s.polder n) (s.polder n).part.sec .read (BitVec.ofNat 64 (4096 * b)) with
  | .ok (e, _, _) => leafMode e != .hc
  | .error _ => false

/-- A run cut where its 64 KiB pages end. -/
def pagePieces (x : Nat × Nat) : List (Nat × Nat) :=
  let first := x.1 / 65536
  (List.range ((x.1 % 65536 + x.2 + 65535) / 65536)).map fun i =>
    let lo := max x.1 (65536 * (first + i))
    let hi := min (x.1 + x.2) (65536 * (first + i + 1))
    (lo, hi - lo)

/-- Bytes of device memory lie in a result tile of a missed task, as its polder's tables name the tile now (R309). -/
def State.inResults (s : State) (t : Task) (pas : List Nat) : Bool :=
  t.results.any fun r => (pagePieces r).any fun x =>
    ((s.deviceByte t.polder x.1).map fun b => pas.any fun a => decide (b ≤ a ∧ a < b + x.2)).getD false

/-- A write piece to bytes of device memory is performed (R177, R208, R305, R309): dirty bits are set, monitors of
the granules fire, range watches of the blocks fire, and another task's insertion is given up. `writer` is the
writing task. -/
def State.noteWrite (s : State) (writer : Option Nat) (pas : List Nat) : State :=
  if pas.isEmpty then s
  else
    let s1 : State := { s with
      clean := dirtied s.clean pas
      monitors := s.monitors.map fun m =>
        if pas.any (fun a => a / 32 == m.granule) then { m with fired := true } else m }
    let s2 := s1.fireSlots fun w => (pas.any fun a => w.pblocks.contains (a / 4096)) || w.vblocks.any (s1.modeChanged w.polder)
    let spoiled := (s2.tasks.filter fun t => !t.ended && writer != some t.uid && s2.inResults t pas).map (·.uid)
    spoiled.foldl State.markNoInsert s2

/-- One byte put where it lives; a peer's byte is sent by the caller. -/
def State.poke (s : State) (pl : Place) (b : Byte) : State :=
  match pl with
  | .hbm pa => { s with mem := wrByte s.mem pa b }
  | .host ba => { s with hostMem := wrByte s.hostMem ba b }
  | .peer _ => s
  | .pad c off =>
    let k := s.core c
    s.setCore c { k with loc := { k.loc with scratch := wrByte k.loc.scratch off b } }

/-- Bytes put where they live, in order. -/
def State.pokeAll (s : State) : List (Place × Byte) → State
  | [] => s
  | (pl, b) :: l => (s.poke pl b).pokeAll l

/-- One byte read where it lives. -/
def State.peek (s : State) (pl : Place) : Byte :=
  match pl with
  | .hbm pa => rdByte s.mem pa
  | .host ba => rdByte s.hostMem ba
  | .peer _ => 0
  | .pad c off => rdByte (s.core c).loc.scratch off

/-- The device-memory addresses among places. -/
def hbmOf (l : List Place) : List Nat := l.filterMap fun
  | .hbm pa => some pa
  | _ => none

/-! ### L1 copies of SC pages (R197) -/

/-- The key of a granule in a core's L1: the context identifier (R153), host memory or device memory, and the
granule. -/
def lineKey (ctx : Nat) (host : Bool) (granule : Nat) : Nat :=
  (2 * ctx + (if host then 1 else 0)) * 2 ^ 48 + granule

/-- The L1 key of a byte, and its offset in the granule, when a cluster's access to it goes through an L1 copy: an
SC page of this device or of the host. Of a peer's SC page no copy is held (R368 lets one be; DESIGN CHOICE, assumption entry
76). -/
def lineOf (ag : Agent) (l : Loc) : Option (CoreId × Nat × Nat) :=
  match ag.core, ag.engine, l.mode, l.place with
  | some c, false, .sc, .hbm pa => some (c, lineKey ag.ctx false (pa / 32), pa % 32)
  | some c, false, .sc, .host ba => some (c, lineKey ag.ctx true (ba / 32), ba % 32)
  | _, _, _, _ => none

/-- A core's L1 copy. -/
def State.line (s : State) (c : CoreId) (key : Nat) : Option L1Line := sget none (s.core c).loc.l1 key

/-- A core's L1 copy set or removed. -/
def State.setLine (s : State) (c : CoreId) (key : Nat) (x : Option L1Line) : State :=
  let k := s.core c
  s.setCore c { k with loc := { k.loc with l1 := sset none k.loc.l1 key x } }

/-- The copy is of a granule of device memory. -/
def keyOfDevice (key : Nat) : Bool := key / 2 ^ 48 % 2 == 0

/-- The place of a byte of an L1 copy. -/
def linePlace (key i : Nat) : Place :=
  if keyOfDevice key then .hbm (key % 2 ^ 48 * 32 + i) else .host (key % 2 ^ 48 * 32 + i)

/-- A context's copy in the L2 of a granule of host memory: a host-backed SC page is held there, each copy tagged with its
context as in the L1 (R153, R169, R197; assumption entry 12). -/
def State.l2Line (s : State) (key : Nat) : Option L1Line := if keyOfDevice key then none else sget none s.l2 key

/-- The L2 copy of a granule of host memory set or removed. -/
def State.setL2Line (s : State) (key : Nat) (x : Option L1Line) : State :=
  if keyOfDevice key then s else { s with l2 := sset none s.l2 key x }

/-- The bytes of a granule as its home gives them, byte 0 lowest: those of an L2 copy, or those where it lives. -/
def State.granuleNow (s : State) (key : Nat) : BitVec 256 :=
  match s.l2Line key with
  | some x => x.data
  | none => BitVec.ofNat 256 (leNat ((List.range 32).map fun i => s.peek (linePlace key i)))

/-- The byte of a vector or granule with one byte replaced. -/
def setByteAt {w : Nat} (x : BitVec w) (i : Nat) (b : Byte) : BitVec w :=
  (x &&& ~~~(BitVec.ofNat w 255 <<< (8 * i))) ||| (BitVec.setWidth w b <<< (8 * i))

/-- A copy of a granule with those of the bytes that it holds. -/
def refreshLine (key : Nat) (l : List (Place × Byte)) (x : L1Line) : L1Line :=
  { x with data := (List.range 32).foldl (fun d i =>
      l.foldl (fun d w => if w.1 = linePlace key i then setByteAt d i w.2 else d) d) x.data }

/-- Bytes that a core writes where they live are in its L1 copies too (R181). -/
def State.refresh (s : State) (c : CoreId) (l : List (Place × Byte)) : State :=
  let k := s.core c
  if k.loc.l1.isEmpty then s
  else s.setCore c { k with loc := { k.loc with l1 := k.loc.l1.map fun e => (e.1, e.2.map (refreshLine e.1 l)) } }

/-! ### Poison (R330) -/

/-- The key of a sector's poison in a core's L1. -/
def l1PoisonKey (c : CoreId) (sector : Nat) : Nat := 2 ^ 40 * c.val + sector

/-- The poison of a sector of device memory as it leaves its home: of its copy in an L2 slice, or of HBM. -/
def State.homePoison (s : State) (sector : Nat) : Option Cause :=
  if sget false s.l2Poison sector then some .sramUncorrectable
  else if sget false s.poison sector then some .hbmUncorrectable
  else none

/-- The sector of a byte is poisoned for an agent: the cause its consumption raises. The copy in the reading core's L1
comes before the one at the sector's home. -/
def State.poisonAt (s : State) (ag : Agent) (l : Loc) : Option Cause :=
  match l.place with
  | .hbm pa =>
    if (ag.core.map fun c => sget false s.l1Poison (l1PoisonKey c (pa / 32))).getD false then some .sramUncorrectable
    else match lineOf ag l with
      | some (c, key, _) => if (s.line c key).isSome then none else s.homePoison (pa / 32)
      | none => s.homePoison (pa / 32)
  | .pad c off => if sget false s.padPoison (65536 * c.val + off / 32) then some .sramUncorrectable else none
  | _ => none

/-- The bytes of a byte's sector. -/
def sectorBytes : Place → List Place
  | .hbm pa => (List.range 32).map fun i => .hbm (pa / 32 * 32 + i)
  | .pad c off => (List.range 32).map fun i => .pad c (off / 32 * 32 + i)
  | p => [p]

/-- A sector's poison cleared where it lives, and in the L1 copies that coherence removes (R330). -/
def State.clearPoison (s : State) (pl : Place) : State :=
  match pl with
  | .hbm pa => { s with
      poison := sset false s.poison (pa / 32) false
      l2Poison := sset false s.l2Poison (pa / 32) false
      l1Poison := s.l1Poison.filter fun e => e.1 % 2 ^ 40 != pa / 32 }
  | .pad c off => { s with padPoison := sset false s.padPoison (65536 * c.val + off / 32) false }
  | _ => s

/-- A sector's poison cleared by a write of it whole: on an SC page in the writing core's copy alone where it holds one
(R197, R330). -/
def State.clearPoisonAt (s : State) (ag : Agent) (l : Loc) : State :=
  match lineOf ag l, l.place with
  | some (c, key, _), .hbm pa =>
    if (s.line c key).isSome then { s with l1Poison := sset false s.l1Poison (l1PoisonKey c (pa / 32)) false }
    else s.clearPoison l.place
  | _, pl => s.clearPoison pl

/-- The event of a write that meets poison (R163, R330, R331). -/
def State.poisonEvent (s : State) (ag : Agent) (cause : Cause) (va : Word) (pl : Place) : State :=
  match ag.core, ag.who with
  | some k, some _ => s.storeError k ag.eng cause va
  | _, _ => s.sendEvent ⟨va, ag.source, cause, 8, ((hbmOf [pl]).head?.map s.polderOfByte).getD noPolder⟩

/-- The sectors that a write meets poison in: each by its first written byte, and whether it is written whole. -/
def State.poisonMet (s : State) (ag : Agent) : List (Word × Loc) → List Place → List (Word × Loc × Bool)
  | [], _ => []
  | (va, l) :: r, seen =>
    let sector := sectorBytes l.place
    if seen.contains l.place || (s.poisonAt ag l).isNone then s.poisonMet ag r seen
    else (va, l, sector.all fun p => p == l.place || r.any (·.2.place == p)) :: s.poisonMet ag r (sector ++ seen)

/-- A write meets poison (R330): where it does not write a sector whole, the first such byte of the access raises an event
of kind 8. -/
def State.poisonEvents (s : State) (ag : Agent) (ws : List (Word × Loc)) : State :=
  match (s.poisonMet ag ws []).find? fun m => !m.2.2 with
  | none => s
  | some (va, l, _) => s.poisonEvent ag ((s.poisonAt ag l).getD .sramUncorrectable) va l.place

/-- The poisoned sectors that a write writes whole (R330), each by a byte of it. -/
def State.wholeSectors (s : State) (ag : Agent) (ws : List (Word × Loc)) : List Loc :=
  ((s.poisonMet ag ws []).filter (·.2.2)).map (·.2.1)

/-- Poison cleared in sectors that a write has written whole (R330). -/
def State.clearWhole (s : State) (ag : Agent) (ls : List Loc) : State := ls.foldl (fun st l => st.clearPoisonAt ag l) s

/-- A write to bytes where they live meets poison (R330): a whole sector written clears it, and otherwise an event is
raised. -/
def State.writePoison (s : State) (ag : Agent) (ws : List (Word × Loc)) : State :=
  (s.poisonEvents ag ws).clearWhole ag (s.wholeSectors ag ws)

/-! ### Copies filled, written back and removed (R169, R197) -/

/-- Whether the granule of a key is of device memory and poisoned in a core's L1 (R330). -/
def State.linePoisoned (s : State) (c : CoreId) (key : Nat) : Bool :=
  keyOfDevice key && sget false s.l1Poison (l1PoisonKey c (key % 2 ^ 48))

/-- The dirty bytes of a copy, each with its place. -/
def dirtyOf (key : Nat) (x : L1Line) : List (Place × Byte) :=
  ((List.range 32).filter x.dirty.getLsbD).map fun i => (linePlace key i, x.data.extractLsb' (8 * i) 8)

/-- The dirty bytes of an L2 copy are written to the host, and the copy becomes clean (R169). -/
def State.writeBackL2 (s : State) (key : Nat) : State :=
  match s.l2Line key with
  | none => s
  | some x => (s.pokeAll (dirtyOf key x)).setL2Line key (some ⟨x.data, 0⟩)

/-- An L2 copy leaves its slice, its dirty bytes written back first. -/
def State.evictL2 (s : State) (key : Nat) : State := (s.writeBackL2 key).setL2Line key none

/-- The poison of an L2 copy of a sector of device memory travels to HBM as the copy leaves its slice (R330). -/
def State.evictL2Poison (s : State) (sector : Nat) : State :=
  if sget false s.l2Poison sector then
    { s with l2Poison := sset false s.l2Poison sector false, poison := sset false s.poison sector true }
  else s

/-- The home slice of a copy of host memory, and of a sector of device memory (R6). -/
def sliceOf (key : Nat) : Nat :=
  Config.homeSlice (if keyOfDevice key then key % 2 ^ 48 * 32 else 2 ^ 60 + key % 2 ^ 48 * 32) % 192

/-- A full slice makes room for a copy of its: one of its copies leaves, a free choice (R6, R9). -/
def State.makeL2Room (s : State) (key : Nat) : State :=
  let n := Config.sliceBytes / 32
  if s.l2.length + s.l2Poison.length < n then s
  else
    let l := (s.l2.map (·.1)).filter fun k => sliceOf k == sliceOf key
    let p := (s.l2Poison.map (·.1)).filter fun k => sliceOf k == sliceOf key
    if l.length + p.length < n then s
    else
      let i := Config.victim s.free % (l.length + p.length)
      match l[i]? with
      | some k => s.evictL2 k
      | none => s.evictL2Poison (p.getD (i - l.length) 0)

/-- The L2 copy of a sector of device memory is poisoned (R330). -/
def State.poisonL2 (s : State) (sector : Nat) : State :=
  let t := if sget false s.l2Poison sector then s else s.makeL2Room sector
  { t with l2Poison := sset false t.l2Poison sector true }

/-- The poison of a copy travels with its data to its home; a write-back that meets poison raises an event, and one of
every byte of the sector leaves its home as the copy is (R330). -/
def State.carryPoison (s : State) (c : CoreId) (key : Nat) (whole : Bool) : State :=
  let sector := key % 2 ^ 48
  let event (s : State) (cause : Cause) : State := s.storeError c none cause (BitVec.ofNat 64 (sector * 32))
  if s.linePoisoned c key then
    event (s.poisonL2 sector) .sramUncorrectable
  else if !keyOfDevice key then s
  else match s.homePoison sector with
    | none => s
    | some cause =>
      if whole then { s with poison := sset false s.poison sector false, l2Poison := sset false s.l2Poison sector false }
      else event s cause

/-- The poison of a copy that leaves a core's L1 is no longer there. -/
def State.dropLinePoison (s : State) (c : CoreId) (key : Nat) : State :=
  if s.linePoisoned c key then
    { s with l1Poison := sset false s.l1Poison (l1PoisonKey c (key % 2 ^ 48)) false }
  else s

/-- The L2's copy of a granule of host memory is filled when it is absent (R197). -/
def State.fillL2 (s : State) (key : Nat) : State :=
  if (s.l2Line key).isSome then s
  else
    let s1 := s.makeL2Room key
    s1.setL2Line key (some ⟨s1.granuleNow key, 0⟩)

/-- Bytes of a granule of host memory put into the L2's copy, dirty there (R197). -/
def State.pokeL2 (s : State) (key : Nat) (l : List (Nat × Byte)) : State :=
  let s1 := s.fillL2 key
  match s1.l2Line key with
  | none => s1
  | some x => s1.setL2Line key (some (l.foldl (fun y w => ⟨setByteAt y.data w.1 w.2, setBit y.dirty w.1 true⟩) x))

/-- The dirty bytes of a copy reach the point of coherence, memory or for host memory the home L2 slice, and the copy becomes
clean (R169, R197). -/
def State.writeBackLine (s : State) (c : CoreId) (key : Nat) : State :=
  match s.line c key with
  | none => s
  | some x =>
    let pls := dirtyOf key x
    let s1 := if keyOfDevice key then (s.pokeAll pls).noteWrite ((s.core c).ctx.bind (·.task)) (hbmOf (pls.map (·.1)))
      else if pls.isEmpty then s
      else s.pokeL2 key (((List.range 32).filter x.dirty.getLsbD).map fun i => (i, x.data.extractLsb' (8 * i) 8))
    let s2 := if pls.isEmpty then s1 else s1.carryPoison c key (pls.length == 32)
    s2.setLine c key (some ⟨x.data, 0⟩)

/-- The copy leaves the L1, its dirty bytes written back first (R197). -/
def State.evictLine (s : State) (c : CoreId) (key : Nat) : State :=
  ((s.writeBackLine c key).setLine c key none).dropLinePoison c key

/-- The sectors of a core's L1 copies of coherent pages that are known by their poison alone (R330). -/
def State.poisonedAlone (s : State) (c : CoreId) : List Nat :=
  if s.l1Poison.isEmpty then []
  else (s.l1Poison.filterMap fun e => if e.1 / 2 ^ 40 = c.val then some (e.1 % 2 ^ 40) else none).filter fun n =>
    !(s.core c).loc.l1.any fun l => keyOfDevice l.1 && l.1 % 2 ^ 48 == n

/-- The poison of the L1 copy of a sector travels to its home as the copy leaves (R330). -/
def State.evictPoison (s : State) (c : CoreId) (sector : Nat) : State :=
  State.poisonL2 { s with l1Poison := sset false s.l1Poison (l1PoisonKey c sector) false } sector

/-- A full L1 makes room: one of its copies leaves, a free choice (R6, R9, R197). -/
def State.makeLineRoom (s : State) (c : CoreId) : State :=
  let l := (s.core c).loc.l1
  let p := s.poisonedAlone c
  if l.length + p.length < Config.l1Granules then s
  else
    let i := Config.victim s.free % (l.length + p.length)
    match (l.map (·.1))[i]? with
    | some key => s.evictLine c key
    | none => s.evictPoison c (p.getD (i - l.length) 0)

/-- A copy of one granule is filled when it is absent (R197); poison of its home travels with it (R330). -/
def State.fillGranule (s : State) (c : CoreId) (key : Nat) : State :=
  match s.line c key with
  | some _ => s
  | none =>
    let s0 := if keyOfDevice key then s else s.fillL2 key
    let s1 := s0.makeLineRoom c
    let sector := key % 2 ^ 48
    let s2 := s1.setLine c key (some ⟨s1.granuleNow key, 0⟩)
    if keyOfDevice key && (s1.homePoison sector).isSome then
      { s2 with l1Poison := sset false s2.l1Poison (l1PoisonKey c sector) true }
    else s2

/-- The other granules of the block that the L1 allocates for a granule: one to eight granules of its page, a free choice
(R153). -/
def blockMates (free key : Nat) : List Nat :=
  let n := Config.block free % 8 + 1
  ((List.range n).map fun i => key + i - Config.block free / 8 % n).filter fun k => k != key && k / 2048 == key / 2048

/-- A copy is filled when it is absent, and with it, when what may happen later does, its block (R153, R197). -/
def State.fillLine (s : State) (c : CoreId) (key : Nat) : State :=
  if (s.line c key).isSome then s
  else
    let mates := if s.actor.late then blockMates s.free key else []
    (mates.foldl (fun st k => st.fillGranule c k) s).fillGranule c key

/-! ### Accesses that have not been performed (R180 to R185) -/

/-- Bytes put at places of a register. -/
def placeBytes : List (Nat × Byte) → Vec → Vec
  | [], v => v
  | (i, b) :: l, v => placeBytes l (setByteAt v i b)

/-- Two bytes lie in one granule (R180). -/
def sameGranule : Place → Place → Bool
  | .hbm a, .hbm b => a / 32 == b / 32
  | .host a, .host b => a / 32 == b / 32
  | .peer a, .peer b => a / 32 == b / 32
  | .pad c a, .pad d b => c == d && a / 32 == b / 32
  | _, _ => false

/-- Two lists of bytes have a granule in common. -/
def granulesMeet (a b : List Place) : Bool := a.any fun x => b.any (sameGranule x)

/-- Two lists of bytes have a byte in common. -/
def bytesMeet (a b : List Place) : Bool := a.any b.contains

/-- The bytes a write writes where it is a store. -/
def HeldWrite.bytes : HeldWrite → List (Place × Byte)
  | .store l => l.map fun w => (w.1.place, w.2)
  | .reduce .. => []

/-- The bytes a write covers. -/
def HeldWrite.places : HeldWrite → List Place
  | .store l => l.map (·.1.place)
  | .reduce _ ps _ => ps

/-- The write is a piece of a store. -/
def HeldWrite.isStore : HeldWrite → Bool
  | .store _ => true
  | .reduce .. => false

/-- The last of a list of writes to a byte. -/
def lastByte (l : List (Place × Byte)) (pl : Place) : Option Byte := (l.reverse.find? (·.1 == pl)).map (·.2)

/-- The key of a granule of a host-backed SC page for an agent of a core, and the byte's offset in it: what the L2 holds of it
(R197). -/
def l2KeyOf (ag : Agent) (l : Loc) : Option (Nat × Nat) :=
  match ag.core, l.mode, l.place with
  | some _, .sc, .host ba => some (lineKey ag.ctx true (ba / 32), ba % 32)
  | _, _, _ => none

/-- The byte of a cached copy that an agent's access goes through: an L1 copy for a cluster, or an L2 copy of host memory
(R197). -/
def State.copyByte (s : State) (ag : Agent) (l : Loc) : Option Byte :=
  match (lineOf ag l).bind fun y => (s.line y.1 y.2.1).map fun x => x.data.extractLsb' (8 * y.2.2) 8 with
  | some b => some b
  | none => (l2KeyOf ag l).bind fun y => (s.l2Line y.1).map fun x => x.data.extractLsb' (8 * y.2) 8

/-- A byte as an agent sees it (R184, R197): through those writes of its own that no other agent sees yet, the newest first,
the copies on an SC page, and the pieces that its core's agents see before others. -/
def State.see (s : State) (ag : Agent) (own : List Held) (l : Loc) : Byte :=
  let near := (ag.core.map fun c => (s.core c).posted.flatMap (·.bytes)).getD []
  match lastByte (own.flatMap (·.write.bytes)) l.place with
  | some b => b
  | none => (s.copyByte ag l).getD ((lastByte near l.place).getD (s.peek l.place))

/-- The writes of an agent that no other agent sees yet. -/
def State.ownHeld (s : State) (ag : Agent) : List Held :=
  match ag.core, ag.cl with
  | some c, some x => (s.cl c x).held
  | _, _ => []

/-! ### The order of a core's accesses (R181, R183, R188, R190) -/

/-- What an access is to the table of R183. A returning atomic counts as both a load and a store. -/
inductive Part where
  | load | store | both | reduction
  deriving DecidableEq, Repr

/-- An access, or a piece of one, in the order of its core: its cluster, its place in that cluster's program order, its fields
and its bytes. -/
structure Act where
  cl     : Cluster
  ord    : Nat
  scope  : Scope
  part   : Part
  od     : MemOrd
  places : List Place
  deriving DecidableEq, Repr

/-- The narrower of two scopes (R180). -/
def narrower (a b : Scope) : Scope := if a.code ≤ b.code then a else b

/-- The wider of two scopes. -/
def wider (a b : Scope) : Scope := if a.code ≤ b.code then b else a

/-- An acquire or sequentially consistent load, or a returning atomic (R183). -/
def Act.acquires (a : Act) : Bool := a.part == .both || (a.part == .load && (a.od == .acquire || a.od == .sc))

/-- A release or sequentially consistent store, or a returning atomic (R183). -/
def Act.releases (a : Act) : Bool := a.part == .both || (a.part == .store && (a.od == .release || a.od == .sc))

/-- A load or a returning atomic. -/
def Act.reads (a : Act) : Bool := a.part == .load || a.part == .both

/-- A store or a returning atomic. -/
def Act.stores (a : Act) : Bool := a.part == .store || a.part == .both

/-- A cluster's load reads bytes of its own earlier store, and may return them before the store is performed (R184). -/
def Act.forwards (x y : Act) : Bool := x.part == .store && y.part == .load && bytesMeet x.places y.places

/-- A row of R183 that holds at the narrower scope: load and load, store and store, one granule. Reductions take no part. -/
def Act.rowed (x y : Act) : Bool :=
  x.part != .reduction && y.part != .reduction &&
    ((x.reads && y.reads) || (x.stores && y.stores) || (granulesMeet x.places y.places && !x.forwards y))

/-- The edge scope of an access and a later one of its core (R183, R188): toward the agents within it the first is ordered
before the second; cluster scope for no edge. Of one cluster the rows of R183 hold, and with `marks` a MARK stands between any
two (R200). A release is cumulative over what other clusters' writes its core's agents have seen (R188). -/
def Act.edge (marks : Bool) (x y : Act) : Scope :=
  if x.cl != y.cl then if y.releases && x.part != .load then y.scope else .cluster
  else if y.ord ≤ x.ord then .cluster
  else
    let acquired : Scope := if x.acquires then x.scope else .cluster
    let released : Scope := if y.releases && x.part != .reduction then y.scope else .cluster
    let rows : Scope := if marks || x.rowed y then narrower x.scope y.scope else .cluster
    wider (wider acquired released) rows

/-- The bytes that two accesses of a core share make them ordered whatever their scopes (R181): but for a load of its own
cluster's store, and two reductions, which are ordered only within one VREDM (R173, R190). -/
def Act.clashes (x y : Act) : Bool :=
  bytesMeet x.places y.places && !(x.cl == y.cl && !x.reads && y.part == .load) &&
    !(x.part == .reduction && y.part == .reduction && x.ord != y.ord)

/-- An access comes before a later one toward every agent. -/
def Act.must (marks : Bool) (x y : Act) : Bool :=
  (x.cl != y.cl || decide (x.ord ≤ y.ord)) && (x.clashes y || x.edge marks y == .system)

/-- A piece of a load in the order. -/
def PendingLoad.act (x : Cluster) (l : PendingLoad) (u : Word × List (Nat × Loc)) : Act :=
  ⟨x, l.ord, l.scope, .load, l.od, u.2.map (·.2.place)⟩

/-- A held write in the order. -/
def Held.act (x : Cluster) (h : Held) : Act :=
  ⟨x, h.ord, h.scope, if h.write.isStore then .store else .reduction, h.od, h.write.places⟩

/-- A piece that its core's agents see, in the order. -/
def Posted.act (p : Posted) : Act := ⟨p.cl, p.ord, p.scope, .store, p.od, p.bytes.map (·.1)⟩

/-- The widest edge scope of an access to any of a list of later ones. -/
def Act.widest (marks : Bool) (x : Act) (l : List Act) : Scope := l.foldl (fun m y => wider m (x.edge marks y)) .cluster

/-- The context runs in revision 1 of the memory model: a MARK stands between any two accesses of a cluster (R200). -/
def Core.revisionOne (k : Core) : Bool := k.getSr srMmrev == 1

/-- The narrowest scope about core `d` within which an agent lies (R159, R180). The host is within system scope alone, a peer
device within domain scope; the device's own units are within device scope. -/
def Agent.scopeAt (ag : Agent) (d : CoreId) : Scope :=
  match ag.core with
  | some c =>
    if c = d then .core
    else if c.val / 4 = d.val / 4 then .quad
    else if c.val / 64 = d.val / 64 then .die
    else .device
  | none => ag.far

/-- The agent lies within a scope about core `d`. -/
def Agent.within (ag : Agent) (d : CoreId) (sc : Scope) : Bool := decide ((ag.scopeAt d).code ≤ sc.code)

/-! ### Loads are read -/

/-- A pending load replaced. -/
def State.setPending (s : State) (c : CoreId) (x : Cluster) (i : Nat) (l : PendingLoad) : State :=
  let k := s.cl c x
  s.setCl c x { k with pending := k.pending.set i l }

/-- L1 copies filled by a read of SC pages, unless it allocates nothing (R154, R197). -/
def State.allocLines (s : State) (ag : Agent) (noAlloc : Bool) (ls : List Loc) : State :=
  if noAlloc then s
  else ls.foldl (fun st l => match lineOf ag l with
    | some (c, key, _) => st.fillLine c key
    | none => st) s

/-- The first of the unread pieces of load `i` of a cluster is performed: it sees the stores of its own cluster that stand
before the load in program order (R181, R184). -/
def State.readPiece (s : State) (c : CoreId) (x : Cluster) (i : Nat) : State :=
  match (s.cl c x).pending[i]? with
  | none => s
  | some l =>
    match l.unread with
    | [] => s
    | p :: ps =>
      let ag := (s.core c).agent c (.cluster x)
      let own := (s.cl c x).held.filter (·.ord < l.ord)
      let bytes := p.2.map fun y => (y.1, s.see ag own y.2)
      State.touch ((s.setPending c x i { l with raw := placeBytes bytes l.raw, unread := ps }).allocLines ag (l.ev == .noAlloc)
        (p.2.map (·.2))) (hbmOf (p.2.map (·.2.place)))

/-- A number of the unread pieces of a load are performed. -/
def State.readPieces (s : State) (c : CoreId) (x : Cluster) (i : Nat) : Nat → State
  | 0 => s
  | n + 1 => (s.readPiece c x i).readPieces c x i n

/-- A load has pieces that are not performed, among which those of a predicate. -/
def PendingLoad.waits (l : PendingLoad) (p : List Place → Bool) : Bool := l.unread.any fun u => p (u.2.map (·.2.place))

/-- What is read of a load before some later accesses are performed: its pieces that come before one of them toward every
agent, and those that are due for another reason, are put first and counted; the others have been passed, toward the agents
within the edges' scopes. The reason is asked of the load as it is once they have passed it. -/
def PendingLoad.plan (marks : Bool) (x : Cluster) (due : PendingLoad → List Place → Bool) (later : List Act)
    (l : PendingLoad) : PendingLoad × Nat :=
  let wide := l.unread.foldl (fun m u => wider m ((l.act x u).widest marks later)) l.passed
  let now (u : Word × List (Nat × Loc)) : Bool :=
    due { l with passed := wide } (u.2.map (·.2.place)) || later.any fun y => (l.act x u).must marks y
  let first := l.unread.filter now
  let rest := l.unread.filter fun u => !now u
  ({ l with
    unread := first ++ rest
    passed := rest.foldl (fun m u => wider m ((l.act x u).widest marks later)) l.passed }, first.length)

/-- The same of the loads of a cluster, oldest first: a load comes before the pieces that are read of later ones. -/
def planLoads (marks : Bool) (x : Cluster) (due : PendingLoad → List Place → Bool) (later : List Act) :
    List PendingLoad → List (PendingLoad × Nat) × List Act
  | [] => ([], later)
  | l :: ls =>
    let r := planLoads marks x due later ls
    let p := l.plan marks x due r.2
    (p :: r.1, (p.1.unread.take p.2).map (l.act x) ++ r.2)

/-- Pieces of a cluster's loads are performed: those that are due, and those that come before some later accesses of it
(R181, R183). -/
def State.readDue (s : State) (c : CoreId) (x : Cluster) (due : PendingLoad → List Place → Bool) (later : List Act) : State :=
  let k := s.cl c x
  if k.pending.all (·.unread.isEmpty) then s
  else
    let plan := (planLoads (s.core c).revisionOne x due later k.pending).1
    (plan.map (·.2)).zipIdx.foldl (fun st y => st.readPieces c x y.2 y.1)
      (s.setCl c x { k with pending := plan.map (·.1) })

/-- No piece is due for a reason of its own. -/
def noPiece (_ : PendingLoad) (_ : List Place) : Bool := false

/-- Every piece is due. -/
def everyPiece (_ : PendingLoad) (_ : List Place) : Bool := true

/-- The pieces of loads that a predicate names are performed, of every cluster of the machine. -/
def State.readWhere (s : State) (due : CoreId → Cluster → PendingLoad → List Place → Bool) : State :=
  allCores.foldl (fun st c => clusterOrder.foldl (fun st x => st.readDue c x (due c x) []) st) s

/-- The core has loads that are not performed. -/
def Core.unread (k : Core) : Bool := clusterOrder.any fun x => (k.cl x).pending.any fun l => !l.unread.isEmpty

/-- The core has loads that a later access of their cluster has passed. -/
def Core.passes (k : Core) : Bool :=
  clusterOrder.any fun x => (k.cl x).pending.any fun l => l.passed != .cluster && !l.unread.isEmpty

/-- The core has pieces that agents beyond it find landed. -/
def Core.reaches (k : Core) : Bool := k.posted.any fun p => decide (Scope.core.code < p.reach.code)

/-- An access of one core may have to come before an access of an agent beyond it. -/
def State.entangled (s : State) : Bool := s.cores.toList.any fun k => k.passes || k.reaches

/-- Before an agent writes bytes, the loads that read them and that have been passed toward it are performed (R183). -/
def State.readPassed (s : State) (ag : Agent) (ps : List Place) : State :=
  if s.cores.toList.any Core.passes then
    s.readWhere fun d y l u => !(ag.core == some d && ag.cl == some y) && l.passed != .cluster && ag.within d l.passed &&
      bytesMeet u ps
  else s

/-- Before poison comes to a sector of device memory, or of a scratchpad, the loads of it that have been issued and passed the
checks of R161 are performed. -/
def State.readSector (s : State) (pl : Place) : State :=
  if s.cores.toList.any Core.unread then s.readWhere fun _ _ _ u => granulesMeet u [pl] else s

/-! ### Pieces land -/

/-- A store piece of a core's cluster lands where it lives, for every agent (R185). -/
def State.land (s : State) (c : CoreId) (x : Cluster) (va : Word) (l : List (Place × Byte)) : State :=
  let ag := (s.core c).agent c (.cluster x)
  let s0 := s.readPassed ag (l.map (·.1))
  let s1 := s0.writePoison ag ((vaBytes va l.length).zip (l.map fun w => ⟨w.1, .hc, none⟩))
  State.touch (((s1.pokeAll l).refresh c l).noteWrite ((s.core c).ctx.bind (·.task)) (hbmOf (l.map (·.1)))) (hbmOf (l.map (·.1)))

/-- Pieces that the agents of a core see land for every agent, in order. -/
def landAll (c : CoreId) : List Posted → State → State
  | [], s => s
  | p :: ps, s => landAll c ps (s.land c p.cl p.va p.bytes)

/-- What a list of pieces becomes before some later accesses of their core, oldest first: those that land, for they are due or
come before a later one toward every agent; those that stay, each with its reach (`raise` widens it); and the later
accesses. Whether a piece is due is asked of it with that reach. -/
def planPosted (marks : Bool) (due : Posted → Bool) (raise : Posted → Scope) (later : List Act) :
    List Posted → List Posted × List Posted × List Act
  | [] => ([], [], later)
  | p :: ps =>
    let r := planPosted marks due raise later ps
    let reach := r.2.1.foldl (fun m q => wider m (narrower q.reach (p.act.edge marks q.act)))
      (wider (wider p.reach (raise p)) (p.act.widest marks r.2.2))
    if due { p with reach := reach } || reach == .system || r.2.2.any fun y => p.act.must marks y then (p :: r.1, r.2.1, p.act :: r.2.2)
    else (r.1, { p with reach := reach } :: r.2.1, r.2.2)

/-- No scope is raised. -/
def noRaise (_ : Posted) : Scope := .cluster

/-- Pieces that a core's agents see land, or reach further, before some later accesses. A load of another core to bytes of a
piece that reaches further is performed first. -/
def State.settlePosted (s : State) (c : CoreId) (due : Posted → Bool) (raise : Posted → Scope) (later : List Act) : State :=
  let k := s.core c
  if k.posted.isEmpty then s
  else
    let r := planPosted k.revisionOne due raise later k.posted
    let far := (r.2.1.filter fun p => decide (Scope.core.code < p.reach.code)).flatMap fun p => p.bytes.map (·.1)
    let s1 := s.setCore c { k with posted := r.2.1 }
    landAll c r.1 (if far.isEmpty then s1 else s1.readWhere fun d _ _ u => d != c && bytesMeet u far)

/-- A piece reaches an agent beyond its core, `c`. -/
def Posted.reachesTo (p : Posted) (c : CoreId) (ag : Agent) : Bool :=
  decide (Scope.core.code < p.reach.code) && ag.core != some c && ag.within c p.reach

/-- Pieces of other cores that reach an agent land where it accesses their bytes: an agent toward which they are ordered
before one that has landed finds them landed (R183, R185). -/
def State.landReaching (s : State) (ag : Agent) (ps : List Place) : State :=
  if s.cores.toList.any Core.reaches then
    allCores.foldl (fun st d => st.settlePosted d (fun p => p.reachesTo d ag && bytesMeet ps (p.bytes.map (·.1))) noRaise []) s
  else s

/-- A release of a core is cumulative (R188): pieces of other cores that its agents find landed reach as far. -/
def State.carry (s : State) (c : CoreId) (sc : Scope) : State :=
  if s.cores.toList.any Core.reaches then
    let ag := (s.core c).agent c (.cluster .S)
    allCores.foldl (fun st d => st.settlePosted d (fun _ => false) (fun p => if p.reachesTo d ag then sc else .cluster) []) s
  else s

/-- Nothing of the core's accesses stands between the places where it lives and what its agents see. -/
def Core.calm (k : Core) : Bool := k.posted.isEmpty && !k.unread

/-- An agent is about to write bytes where they live: pieces that its core sees, and those of other cores that reach it, land
first, and loads that have been passed toward it are performed. -/
def State.beforeWrite (s : State) (ag : Agent) (ps : List Place) : State :=
  let s1 : State := match ag.core with
    | none => s
    | some c => s.settlePosted c (fun p => bytesMeet ps p.act.places) noRaise []
  (s1.landReaching ag ps).readPassed ag ps

/-! ### One byte of an access -/

/-- The entry of a stash mapping on an SC page is filled (R157). -/
def State.stashFilled (s : State) (ag : Agent) (l : Loc) : Bool :=
  match ag.core, l.stash, l.mode with
  | some c, some (off, i), .sc => (((s.core c).loc.stash.find? (·.off = off)).map fun m => sget false m.filled i).getD false
  | _, _, _ => false

/-- The place of a byte of the access once a stash entry on an SC page is filled: its scratchpad byte (R157). -/
def stashPlace (ag : Agent) (va : Word) (l : Loc) (s : State) : Loc :=
  match l.stash, l.mode, s.padOf ag va with
  | some _, .sc, some (c, off) => ⟨.pad c off, .hc, none⟩
  | _, _, _ => l

/-- The place that delivers a byte of a read: the scratchpad byte of an entry that is filled (R157, R161 step 8). -/
def State.deliveryOf (s : State) (ag : Agent) (va : Word) (l : Loc) : Loc :=
  if s.stashFilled ag l then stashPlace ag va l s else l

/-- A byte as an agent reads it (R153, R184, R197). -/
def State.readLoc (s : State) (ag : Agent) (l : Loc) : Byte := s.see ag (s.ownHeld ag) l

/-- The stash mapping of a core that begins at an offset, replaced. -/
def State.mapStash (s : State) (c : CoreId) (off : Nat) (f : StashMap → StashMap) : State :=
  let k := s.core c
  s.setCore c { k with loc := { k.loc with stash := k.loc.stash.map fun m => if m.off = off then f m else m } }

/-- Poison of the block that fills a stash entry travels into the scratchpad (R330). -/
def State.fillPoison (s : State) (ag : Agent) (l : List (Place × Loc)) : State :=
  let bad := l.filterMap fun x =>
    match x.1, s.poisonAt ag x.2 with
    | .pad c off, some _ => some (65536 * c.val + off / 32)
    | _, _ => none
  { s with padPoison := bad.foldl (fun m n => sset false m n true) s.padPoison }

/-- An unfilled stash entry on an SC page fills: its 64 bytes are read into the scratchpad (R157). On HC and CP
pages the entry is coherent, so memory itself holds its bytes; the scratchpad's own stay under it, and are there again after
SUNMAP (DESIGN CHOICE, assumption entry 68). -/
def State.fillStash (s : State) (ag : Agent) (l : Loc) : State :=
  match ag.core, l.stash, l.mode with
  | some c, some (off, i), .sc =>
    match (s.core c).loc.stash.find? (·.off = off) with
    | none => s
    | some m =>
      if sget false m.filled i then s
      else
        let base (pl : Place) (j : Nat) : Place := match pl with
          | .hbm pa => .hbm (pa / 64 * 64 + j)
          | p => p
        let from_ (j : Nat) : Loc := ⟨base l.place j, .sc, none⟩
        let into (j : Nat) : Place := .pad c (off + 64 * i + j)
        let s1 := s.fillPoison ag ((List.range 64).map fun j => (into j, from_ j))
        let bytes := (List.range 64).map fun j => (into j, s.readLoc ag (from_ j))
        (s1.pokeAll bytes).mapStash c off fun x => { x with filled := sset false x.filled i true }
  | _, _, _ => s

/-- A stash entry on an SC page marked dirty (R157). -/
def State.dirtyStash (s : State) (ag : Agent) (l : Loc) : State :=
  match ag.core, l.stash, l.mode with
  | some c, some (off, i), .sc => s.mapStash c off fun x => { x with dirty := sset false x.dirty i true }
  | _, _, _ => s

/-- One byte put where it lives by an agent: the L1 copies of its core hold it too, but for a command on an SC page
(R181, R197). -/
def State.pokeFor (s : State) (ag : Agent) (l : Loc) (b : Byte) : State :=
  match ag.core with
  | some c => if ag.engine && l.mode == .sc then s.poke l.place b else (s.poke l.place b).refresh c [(l.place, b)]
  | none => s.poke l.place b

/-- One byte written as an agent writes it: into its L1 copy on an SC page, otherwise where it lives. With no-allocate and no
copy the byte goes where it lives, and so does a command's on an SC page; of a host-backed SC page it goes into the home L2
slice, but for a byte that allocates nothing and finds no copy there (R154, R197). -/
def State.writeLoc (s : State) (ag : Agent) (noAlloc : Bool) (l : Loc) (b : Byte) : State × Option Nat :=
  match lineOf ag l with
  | some (c, key, i) =>
    if noAlloc && (s.line c key).isNone then
      if (s.l2Line key).isSome then (s.pokeL2 key [(i, b)], none) else (s.poke l.place b, (hbmOf [l.place]).head?)
    else
      let s1 := s.fillLine c key
      match s1.line c key with
      | some x => (s1.setLine c key (some ⟨setByteAt x.data i b, setBit x.dirty i true⟩), none)
      | none => (s1, none)
  | none =>
    match l2KeyOf ag l with
    | some (key, i) => (s.pokeL2 key [(i, b)], none)
    | none => (s.pokeFor ag l b, (hbmOf [l.place]).head?)

/-- The bytes of an access written in order, and the device addresses written. -/
def State.writeLocs (s : State) (ag : Agent) (noAlloc : Bool) : List (Loc × Byte) → State × List Nat
  | [] => (s, [])
  | (l, b) :: r =>
    let (s1, a) := s.writeLoc ag noAlloc l b
    let (s2, as) := s1.writeLocs ag noAlloc r
    (s2, a.toList ++ as)

/-! ### Translations stay cached (R357, R358) -/

/-- A TLB with an entry at its head, unless it holds it; beyond its size the oldest is dropped. -/
def keepEntry (size : Nat) (e : TlbEntry) (l : List TlbEntry) : List TlbEntry :=
  if l.contains e then l else (e :: l).take size

/-- The tables that a walk has gone through below the root, as entries of a walk cache: `path` has the entries that it read, the
first of level `from_` (R354). -/
def walkEntries (ag : Agent) (va : Word) (from_ : Nat) (path : List Nat) : List WalkEntry :=
  path.zipIdx.filterMap fun x =>
    let level := from_ + x.2
    match walkLevels[level]? with
    | some (_, lo, w) =>
      if level = 0 then none
      else some ⟨ag.ctx, ag.secure, level, blockOf (tableBits level) va, x.1 - 8 * (va.toNat / 2 ^ lo % 2 ^ w)⟩
    | none => none

/-- The translation of an address is kept, when there is one, in the core's TLB and in the die's, and the tables of its walk in
the die's walk caches. -/
def State.fillTlb (s : State) (ag : Agent) (kind : AccKind) (va : Word) : State :=
  match ag.core, regionOf va with
  | some c, .translated | some c, .supervisor =>
    match s.leaf ag kind va with
    | .ok (e, level) =>
      let walked : Nat × List Nat := match s.tlbHit ag va, s.walkOf ag kind va with
        | none, (from_, .ok x) => (from_, x.2.2)
        | _, _ => (0, [])
      let k := s.core c
      let t : TlbEntry := ⟨ag.ctx, ag.secure, blockOf (leafBits level) va, e, level⟩
      let d := s.die c
      let new := (walkEntries ag va walked.1 walked.2).filter fun w => !d.walks.contains w
      State.touch ((s.setCore c { k with loc := { k.loc with tlb := keepEntry Config.tlbEntries t k.loc.tlb } }).setDie c
        { d with tlb := keepEntry Config.dieTlbEntries t d.tlb, walks := new ++ d.walks }) walked.2
    | .error _ => s
  | _, _ => s

/-- The addresses translated for an access: those of the stash's global memory included (R157). -/
def State.fillTlbs (s : State) (ag : Agent) (kind : AccKind) : List Word → State
  | [] => s
  | va :: vas => (s.fillTlb ag kind (((s.stashOf ag va).map (·.1)).getD va)).fillTlbs ag kind vas

/-! ### The range scoreboard and watchpoints -/

/-- The queue of an engine. -/
def Core.queue (k : Core) (e : Engine) : EngineQueue := tget EngineQueue.reset k.eng.queues e.code

/-- A core with one engine queue replaced. -/
def Core.setQueue (k : Core) (e : Engine) (q : EngineQueue) : Core :=
  { k with eng := { k.eng with queues := tset k.eng.queues e.code q } }

/-- The commands of a queue that have started and not retired. -/
def EngineQueue.running (q : EngineQueue) : List Cmd := q.entries.filter (·.started.isSome)

/-- The scratchpad ranges of the in-flight copy and gather commands of a core (R253). -/
def Core.scoreboard (k : Core) : List RawRange :=
  [Engine.cin, .cout, .gth].flatMap fun e => ((k.queue e).running).flatMap fun x =>
    (x.started.map (·.ranges)).getD []

/-- The first scratchpad byte of an access that overlaps a recorded range (R253). -/
def State.boarded (s : State) (ls : List Loc) : Option (CoreId × Nat) :=
  ls.findSome? fun l =>
    match l.place with
    | .pad c off => if (s.core c).scoreboard.any fun r => decide (r.lo ≤ off ∧ off ≤ r.hi) then some (c, off) else none
    | _ => none

/-- The row under self-test that an access of a core's cluster or engine meets (R329): of HBM, of an L2 slice, of the core's L1
or of a scratchpad. -/
def State.fencedAt (s : State) (ag : Agent) (ls : List Loc) : Option ErrorSite :=
  if s.fenced.isEmpty || ag.who.isNone then none
  else s.fenced.find? fun site => ls.any fun l => match site, l.place with
    | .hbm n, .hbm pa => pa / 32 == n
    | .slice n, .hbm pa => pa / 32 == n
    | .cache c n, .hbm pa => pa / 32 == n && (ag.core.map (·.val)) == some c
    | .scratchpad c n, .pad d off => d.val == c && off / 32 == n
    | _, _ => false

/-- What makes an access wait: for a cluster a range that a command holds (R253), and a row under self-test (R329). -/
def State.stall (s : State) (ag : Agent) (ls : List Loc) : Option Wait :=
  match if ag.cl.isSome then s.boarded ls else none with
  | some (c, off) => some (.scoreboard c off)
  | none => (s.fencedAt ag ls).map .fenced

/-- An address as watchpoints compare it: the core's own polder window mapped to its own window (R328). -/
def State.watchVa (s : State) (ag : Agent) (va : Word) : Word :=
  match regionOf va, s.padOf ag va with
  | .polderPad _ _, some (c, off) => if ag.core = some c then BitVec.ofNat 64 (0x7F0000000000 + off) else va
  | _, _ => va

/-- A watch of the core covers a byte for an access of a kind (R328). -/
def Core.watches (k : Core) (engine : Bool) (kind : AccKind) (va : Word) : Bool :=
  let ctl := k.getSr srWctl
  (List.range 4).any fun n =>
    let len := Nat.min (ctl.toNat / 2 ^ (8 * n + 4) % 16) 12
    ctl.getLsbD (8 * n) && (!engine || ctl.getLsbD (8 * n + 3)) &&
      ((kind.writes && ctl.getLsbD (8 * n + 2)) || (kind.reads && ctl.getLsbD (8 * n + 1))) &&
      (va.toNat / 2 ^ len == (k.getSr (srWatch + n)).toNat / 2 ^ len)

/-- The lowest watched byte of an access (R328), none while INH is set. -/
def State.watchedByte (s : State) (ag : Agent) (kind : AccKind) (vas : List Word) : Option Word :=
  match ag.core with
  | none => none
  | some c =>
    if (s.core c).inHandler then none
    else
      let hits := (vas.map (s.watchVa ag)).filter ((s.core c).watches ag.engine kind)
      hits.foldl (fun m v => some (match m with | none => v | some x => if v.toNat < x.toNat then v else x)) none

/-- The smaller of two addresses, where there is one. -/
def minAddr : Option Word → Option Word → Option Word
  | none, b => b
  | a, none => a
  | some a, some b => some (if b.toNat < a.toNat then b else a)

/-- A watched byte of a cluster's access is remembered until its bundle completes (R328, R383). Stored with 1
added, so that 0 stands for none. -/
def State.noteWatch (s : State) (c : CoreId) (cl : Cluster) (hit : Option Word) : State :=
  match hit with
  | none => s
  | some v =>
    let k := s.core c
    let old := sget 0 k.trap.watchHit cl.code
    let m := minAddr (if old = 0 then none else some (old - 1)) (some v)
    s.setCore c { k with trap := { k.trap with watchHit := sset 0 k.trap.watchHit cl.code (m.getD 0 + 1) } }

/-! ### Accesses whole -/

/-- A run of peer bytes of an access (R368): domain address, first virtual address, places of the bytes in the
access, bytes to send. -/
structure PeerRun where
  addr   : Nat
  va     : Word
  places : List Nat
  data   : List Byte
  deriving DecidableEq, Repr

/-- The peer bytes of an access as runs that are consecutive in its order, in virtual and in domain addresses. -/
def peerRuns : List (Nat × Word × Loc × Byte) → List PeerRun
  | [] => []
  | (i, va, l, b) :: r =>
    let rest := peerRuns r
    match l.place with
    | .peer a =>
      match rest with
      | x :: xs =>
        if x.addr = a + 1 ∧ x.va = va + 1 ∧ x.places.head? = some (i + 1) then ⟨a, va, i :: x.places, b :: x.data⟩ :: xs else ⟨a, va, [i], [b]⟩ :: rest
      | [] => [⟨a, va, [i], [b]⟩]
    | _ => rest

/-- The outcome of an access: done, with the bytes read (zero where a peer is still to answer) and the peer runs;
blocked; or failed. -/
inductive Out where
  | ok (s : State) (bytes : List Byte) (runs : List PeerRun)
  | wait (w : Wait)
  /-- a byte of a read is poisoned, behind the bytes of these peer runs, whose answers come first (R161 step 8) -/
  | behind (runs : List PeerRun) (e : AccErr)
  | err (e : AccErr)

/-- Step 8 of R161 over the bytes of a read, each where it is delivered from. -/
def State.poisonErr (s : State) (ag : Agent) : List (Word × Loc) → Option AccErr
  | [] => none
  | (va, l) :: r =>
    match s.poisonAt ag (s.deliveryOf ag va l) with
    | some c => some (.fault c va)
    | none => s.poisonErr ag r

/-- Pairs numbered from 0. -/
def enumFrom0 {α : Type} (l : List α) : List (Nat × α) := l.zipIdx.map fun x => (x.2, x.1)

/-- A read of bytes (R161, R163). -/
def State.load (s : State) (ag : Agent) (acc : Accept) (ev : Evict) (vas : List Word) : Out :=
  match s.checkAccess ag .read acc vas with
  | .error e => .err e
  | .ok ls =>
    match s.poisonErr ag (vas.zip ls) with
    | some e =>
      match peerRuns ((enumFrom0 ((vas.zip ls).takeWhile fun x => (s.poisonErr ag [x]).isNone)).map fun x => (x.1, x.2.1, x.2.2, 0)) with
      | [] => .err e
      | runs => .behind runs e
    | none =>
      match s.stall ag ls with
      | some w => .wait w
      | none =>
        let s1 := ls.foldl (fun st l => st.fillStash ag l) (s.landReaching ag (ls.map (·.place)))
        let ls' := (vas.zip ls).map fun x => stashPlace ag x.1 x.2 s
        let bytes := ls'.map (s1.readLoc ag)
        let s2 := ((s1.allocLines ag (ev == .noAlloc) ls').fillTlbs ag .read vas).touch (hbmOf (ls.map (·.place)))
        .ok s2 bytes (peerRuns ((enumFrom0 (vas.zip (ls'.zip bytes))).map fun x => (x.1, x.2.1, x.2.2.1, x.2.2.2)))

/-- The writing task of an agent: that of its core's context, when a cluster or a command of it writes. Its trap handler's stores
count as its own (R309; DESIGN CHOICE, assumption entry 73). -/
def State.writer (s : State) (ag : Agent) : Option Nat :=
  if ag.who.isNone then none else ag.core.bind fun c => (s.core c).ctx.bind (·.task)

/-- Bytes written at places already checked. -/
def State.commit (s : State) (ag : Agent) (ev : Evict) (kind : AccKind) (ws : List (Word × Loc × Byte)) : State :=
  let s0 := s.beforeWrite ag (ws.map (·.2.1.place))
  let s1 := ws.foldl (fun st w => (st.fillStash ag w.2.1).dirtyStash ag w.2.1) s0
  let ws' := ws.map fun w => (stashPlace ag w.1 w.2.1 s, w.2.2)
  let met := (ws.map (·.1)).zip (ws'.map (·.1))
  let r := (s1.poisonEvents ag met).writeLocs ag (ev == .noAlloc) ws'
  let s2 := r.1.clearWhole ag (s1.wholeSectors ag met)
  ((s2.noteWrite (s.writer ag) r.2).fillTlbs ag kind (ws.map (·.1))).touch (hbmOf (ws.map (·.2.1.place)))

/-- The last write at each address of a list (R166). -/
def lastWrites : List (Nat × Word × Loc × Byte) → List (Nat × Word × Loc × Byte)
  | [] => []
  | w :: r => if r.any (·.2.1 == w.2.1) then lastWrites r else w :: lastWrites r

/-- The peer runs of a write: of several bytes at one address the last alone is sent (R166). -/
def writeRuns (t : List (Word × Loc × Byte)) : List PeerRun :=
  peerRuns (lastWrites ((enumFrom0 t).map fun x => (x.1, x.2.1, x.2.2.1, x.2.2.2)))

/-- A write of bytes (R161, R163): the bytes land in order, so the last at one address stands (R166). -/
def State.store (s : State) (ag : Agent) (acc : Accept) (ev : Evict) (ws : List (Word × Byte)) : Out :=
  let vas := ws.map (·.1)
  match s.checkAccess ag .write acc vas with
  | .error e => .err e
  | .ok ls =>
    match s.stall ag ls with
    | some w => .wait w
    | none =>
      let t := vas.zip (ls.zip (ws.map (·.2)))
      .ok (s.commit ag ev .write t) [] (writeRuns t)

/-- A write of bytes that waits for nothing: what it would wait for changes only its time (R253, R329). -/
def State.storeNow (s : State) (ag : Agent) (ws : List (Word × Byte)) : Except AccErr State :=
  let vas := ws.map (·.1)
  (s.checkAccess ag .write .any vas).map fun ls => s.commit ag .normal .write (vas.zip (ls.zip (ws.map (·.2))))

/-- A read and write of one piece at places already checked: the state, the old bytes and the peer runs. -/
def State.rmwAt (s : State) (ag : Agent) (ev : Evict) (vas : List Word) (ls : List Loc) (f : Nat → Nat) :
    State × List Byte × List PeerRun :=
  let s1 := ls.foldl (fun st l => st.fillStash ag l) (s.landReaching ag (ls.map (·.place)))
  let old := ((vas.zip ls).map fun x => stashPlace ag x.1 x.2 s).map (s1.readLoc ag)
  let t := vas.zip (ls.zip (leBytes vas.length (f (leNat old))))
  ((s.landReaching ag (ls.map (·.place))).commit ag ev .atomic t, old, peerRuns ((enumFrom0 t).map fun x => (x.1, x.2.1, x.2.2.1, x.2.2.2)))

/-- A read and write of one piece (R160, R171): the new bytes are computed from the old. Poison of the old bytes
faults a returning atomic, and is an event of a reduction (R330). -/
def State.rmw (s : State) (ag : Agent) (acc : Accept) (ev : Evict) (returning : Bool) (vas : List Word)
    (f : Nat → Nat) : Out :=
  match s.checkAccess ag .atomic acc vas with
  | .error e => .err e
  | .ok ls =>
    match if returning then s.poisonErr ag (vas.zip ls) else none with
    | some e => .err e
    | none =>
      match s.stall ag ls with
      | some w => .wait w
      | none => let r := s.rmwAt ag ev vas ls f; .ok r.1 r.2.1 r.2.2

/-- How far peers have answered a read. -/
inductive Answers where
  /-- every run: the first of its bytes that failed, in the order of the access (R161 step 8) -/
  | failed (e : AccErr)
  | all
  /-- these runs are unanswered -/
  | missing (runs : List PeerRun)

/-- The answers of peers to the runs of a read: `got` has the bytes that came, `bad` the failures. -/
def answersTo (got : Sparse (Option Byte)) (bad : List (Word × Cause)) (runs : List PeerRun) : Answers :=
  let bytes (r : PeerRun) : List Word := vaBytes r.va r.places.length
  match runs.filter fun r => !((bytes r).all fun a => (sget none got a.toNat).isSome) && !bad.any fun b => (bytes r).contains b.1 with
  | [] =>
    match (runs.flatMap bytes).findSome? fun a => bad.find? (·.1 = a) with
    | some b => .failed (.fault b.2 b.1)
    | none => .all
  | l => .missing l

/-- Peer accesses posted (R368): each run waits for its response. -/
def State.postPeers (s : State) (id : Nat) (use : List Nat → PeerUse) (send : Bool) (runs : List PeerRun) : State :=
  { s with peers := s.peers ++ runs.map fun r =>
      ⟨id, use r.places, r.addr, r.va, r.places.length, if send then r.data else [], 0⟩ }

end Sys2Proof.Machine
end

