-- ==== Sys2Proof/Machine/Flags.lean ====
section
/-!
DEFINITION. The exception flags of floating-point operations (R68, R69, R71).
-/

namespace Sys2Proof.Machine

/-- The flags an operation raises, as %fpstat holds them: NV 0, DZ 1, OF 2, UF 3, NX 4 (R69). -/
abbrev FpFlags := BitVec 5

/-- Invalid. -/
def flagNV : FpFlags := 1
/-- Divide by zero. -/
def flagDZ : FpFlags := 2
/-- Overflow. -/
def flagOF : FpFlags := 4
/-- Underflow. -/
def flagUF : FpFlags := 8
/-- Inexact. -/
def flagNX : FpFlags := 16

/-- A set of flags when a condition holds. -/
def flagIf (b : Bool) (f : FpFlags) : FpFlags := if b then f else 0

/-- A result pattern and the flags it raises. -/
structure FRes where
  bits  : Nat
  flags : FpFlags
  deriving DecidableEq, Repr

/-- A core's %fpstat gains flags (R71). -/
def Core.raiseFp (k : Core) (f : FpFlags) : Core := k.setSr srFpstat (k.getSr srFpstat ||| f.setWidth 64)

/-- The executing cluster's core gains flags. -/
def State.raiseFp (s : State) (f : FpFlags) : State := s.setHere (s.here.raiseFp f)

/-- The rounding mode of V4 and VS syllables (R70). -/
def Core.fpMode (k : Core) : Rounding := (Rounding.ofCode ((k.getSr srFpctl).toNat % 4)).getD .rne

end Sys2Proof.Machine
end

