-- ==== Sys2Proof/Machine/Float.lean ====
section
/-!
DEFINITION. The floating-point formats, the one rounding, and the operations that round once (R62 to R68, R80, R110
to R112).
-/

namespace Sys2Proof.Machine

/-! ### Formats and values (R62) -/

/-- A format: widths of its exponent and fraction fields. -/
structure Fmt where
  ebits : Nat
  frac  : Nat
  deriving DecidableEq, Repr

/-- F32 (R62). -/
def fmtF32 : Fmt := ⟨8, 23⟩
/-- F16 (R62). -/
def fmtF16 : Fmt := ⟨5, 10⟩
/-- BF16 (R62). -/
def fmtBF16 : Fmt := ⟨8, 7⟩

/-- Bits of a pattern. -/
def Fmt.width (f : Fmt) : Nat := 1 + f.ebits + f.frac
/-- The exponent bias. -/
def Fmt.bias (f : Fmt) : Int := 2 ^ (f.ebits - 1) - 1
/-- The least exponent of a normal value. -/
def Fmt.emin (f : Fmt) : Int := 1 - f.bias
/-- The pattern of +∞; a magnitude pattern at or above it is not finite. -/
def Fmt.inf (f : Fmt) : Nat := (2 ^ f.ebits - 1) * 2 ^ f.frac
/-- The canonical NaN (R62, R64). -/
def Fmt.nan (f : Fmt) : Nat := f.inf + 2 ^ (f.frac - 1)
/-- The sign bit of a pattern. -/
def Fmt.signBit (f : Fmt) : Nat := 2 ^ (f.ebits + f.frac)
/-- A magnitude pattern with a sign. -/
def Fmt.withSign (f : Fmt) (neg : Bool) (m : Nat) : Nat := if neg then f.signBit + m else m

/-- What a pattern represents: a finite nonzero value is ± num / den. -/
inductive Fp where
  | nan (signalling : Bool)
  | inf (neg : Bool)
  | zero (neg : Bool)
  | fin (neg : Bool) (num den : Nat)
  deriving DecidableEq, Repr

/-- m × 2^e as a fraction. -/
def scaled (m : Nat) (e : Int) : Nat × Nat := if 0 ≤ e then (m * 2 ^ e.toNat, 1) else (m, 2 ^ (-e).toNat)

/-- The value of a pattern (R62, R63). -/
def Fmt.value (f : Fmt) (x : Nat) : Fp :=
  let neg := x / f.signBit % 2 == 1
  let m := x % f.signBit
  let e := m / 2 ^ f.frac
  let t := m % 2 ^ f.frac
  if f.inf < m then .nan (t / 2 ^ (f.frac - 1) == 0)
  else if m = f.inf then .inf neg
  else if m = 0 then .zero neg
  else
    let v := if e = 0 then scaled t (f.emin - f.frac) else scaled (2 ^ f.frac + t) (f.emin - f.frac + (e - 1 : Nat))
    .fin neg v.1 v.2

/-- The pattern is a signalling NaN. -/
def Fp.isSnan : Fp → Bool
  | .nan true => true
  | _ => false

/-- The pattern is a NaN. -/
def Fp.isNan : Fp → Bool
  | .nan _ => true
  | _ => false

/-! ### Rounding (R66) -/

/-- Whether a quotient with remainder `r` of `d` is rounded away from zero (R66). -/
def roundsUp (mode : Rounding) (neg : Bool) (q r d : Nat) : Bool :=
  match mode with
  | .rne => decide (2 * r > d) || (decide (2 * r = d) && q % 2 == 1)
  | .rtz => false
  | .rup => decide (r > 0) && !neg
  | .rdn => decide (r > 0) && neg

/-- The exponent of a positive fraction: the greatest e with 2^e ≤ n / d. -/
def fracExp (n d : Nat) : Int :=
  let e : Int := (n.log2 : Int) - (d.log2 : Int)
  let le := if 0 ≤ e then decide (d * 2 ^ e.toNat ≤ n) else decide (d ≤ n * 2 ^ (-e).toNat)
  if le then e else e - 1

/-- The value an overflow returns (R66). -/
def overflowBits (f : Fmt) (mode : Rounding) (neg : Bool) : Nat :=
  let toInf := match mode with
    | .rne => true
    | .rtz => false
    | .rup => !neg
    | .rdn => neg
  f.withSign neg (if toInf then f.inf else f.inf - 1)

/-- round(± n / d, f, mode) for a nonzero fraction, with the flags of R68 (R66). Overflow is judged on the candidate of R66 in
the mode itself: of a value that a mode rounds to the largest finite number, inexact alone is raised, where R67's row of 65,520
to F16 lists overflow and inexact for all four (DESIGN CHOICE, assumption entry 66). -/
def roundFrac (f : Fmt) (mode : Rounding) (neg : Bool) (n d : Nat) : FRes :=
  let e := fracExp n d
  let q : Int := (if e < f.emin then f.emin else e) - f.frac
  let p : Nat × Nat := if 0 ≤ q then (n, d * 2 ^ q.toNat) else (n * 2 ^ (-q).toNat, d)
  let k := p.1 / p.2
  let r := p.1 % p.2
  let k1 := if roundsUp mode neg k r p.2 then k + 1 else k
  let m := (q - (f.emin - f.frac)).toNat * 2 ^ f.frac + k1
  if f.inf ≤ m then ⟨overflowBits f mode neg, flagOF ||| flagNX⟩
  else ⟨f.withSign neg m, flagIf (decide (r ≠ 0)) flagNX |||
    flagIf (decide (r ≠ 0) && decide (0 < m) && decide (m < 2 ^ f.frac)) flagUF⟩

/-- round of an exact real n / d; an exact zero has the sign given. -/
def roundInt (f : Fmt) (mode : Rounding) (zeroNeg : Bool) (n : Int) (d : Nat) : FRes :=
  if n = 0 then ⟨f.withSign zeroNeg 0, 0⟩ else roundFrac f mode (decide (n < 0)) n.natAbs d

/-- The NaN result of an operation, with invalid when it is raised (R64, R68). -/
def nanRes (f : Fmt) (invalid : Bool) : FRes := ⟨f.nan, flagIf invalid flagNV⟩

/-- A value as a format's pattern, rounded once; special values keep their sign (R64, R80). -/
def roundValue (f : Fmt) (mode : Rounding) : Fp → FRes
  | .nan sg => nanRes f sg
  | .inf neg => ⟨f.withSign neg f.inf, 0⟩
  | .zero neg => ⟨f.withSign neg 0, 0⟩
  | .fin neg n d => roundFrac f mode neg n d

/-- A finite value as a signed fraction. -/
def Fp.frac : Fp → Int × Nat
  | .fin neg n d => (if neg then -(n : Int) else n, d)
  | _ => (0, 1)

/-- The sign of a value. -/
def Fp.neg : Fp → Bool
  | .nan _ => false
  | .inf s => s
  | .zero s => s
  | .fin s _ _ => s

/-- The value with its sign inverted. -/
def Fp.flip : Fp → Fp
  | .nan s => .nan s
  | .inf s => .inf !s
  | .zero s => .zero !s
  | .fin s n d => .fin (!s) n d

/-- The magnitude of the value. -/
def Fp.abs : Fp → Fp
  | .nan s => .nan s
  | .inf _ => .inf false
  | .zero _ => .zero false
  | .fin _ n d => .fin false n d

/-! ### Addition, multiplication, fused multiply-add, division -/

/-- The sum of two values, rounded once (R66 to R68). -/
def addValues (f : Fmt) (mode : Rounding) (a b : Fp) : FRes :=
  match a, b with
  | .nan x, y => nanRes f (x || y.isSnan)
  | x, .nan y => nanRes f (y || x.isSnan)
  | .inf x, .inf y => if x = y then ⟨f.withSign x f.inf, 0⟩ else nanRes f true
  | .inf x, _ => ⟨f.withSign x f.inf, 0⟩
  | _, .inf y => ⟨f.withSign y f.inf, 0⟩
  | x, y =>
    let zeroNeg := if x.neg = y.neg && (x.frac.1 == 0) && (y.frac.1 == 0) then x.neg else mode == .rdn
    roundInt f mode zeroNeg (x.frac.1 * y.frac.2 + y.frac.1 * x.frac.2) (x.frac.2 * y.frac.2)

/-- The exact product of two values; none for 0 × ∞. NaN operands are handled by the caller. -/
def mulValue (a b : Fp) : Option Fp :=
  let s := a.neg ^^ b.neg
  match a, b with
  | .inf _, .zero _ => none
  | .zero _, .inf _ => none
  | .inf _, _ => some (.inf s)
  | _, .inf _ => some (.inf s)
  | .fin _ n d, .fin _ m e => some (.fin s (n * m) (d * e))
  | _, _ => some (.zero s)

/-- The product of two values, rounded once. -/
def mulValues (f : Fmt) (mode : Rounding) (a b : Fp) : FRes :=
  if a.isNan || b.isNan then nanRes f (a.isSnan || b.isSnan)
  else match mulValue a b with
    | none => nanRes f true
    | some v => roundValue f mode v

/-- round(a × b + c) (R112): 0 × ∞ is invalid even beside a quiet NaN. -/
def fmaValues (f : Fmt) (mode : Rounding) (a b c : Fp) : FRes :=
  let sn := a.isSnan || b.isSnan || c.isSnan
  if a.isNan || b.isNan then nanRes f sn
  else match mulValue a b with
    | none => nanRes f true
    | some p => if c.isNan then nanRes f sn else addValues f mode p c

/-- The quotient of two values, rounded once (R66 to R68). -/
def divValues (f : Fmt) (mode : Rounding) (a b : Fp) : FRes :=
  let s := a.neg ^^ b.neg
  if a.isNan || b.isNan then nanRes f (a.isSnan || b.isSnan)
  else match a, b with
    | .inf _, .inf _ => nanRes f true
    | .zero _, .zero _ => nanRes f true
    | .inf _, _ => ⟨f.withSign s f.inf, 0⟩
    | _, .inf _ => ⟨f.withSign s 0, 0⟩
    | .zero _, _ => ⟨f.withSign s 0, 0⟩
    | .fin _ _ _, .zero _ => ⟨f.withSign s f.inf, flagDZ⟩
    | .fin _ n d, .fin _ m e => roundFrac f mode s (n * e) (d * m)
    | _, _ => nanRes f false

/-! ### Comparison, minimum and maximum (R111, R116) -/

/-- a < b for values that are not NaN, −0 equal to +0. -/
def ltValue (a b : Fp) : Bool :=
  match a, b with
  | .inf x, .inf y => x && !y
  | .inf x, _ => x
  | _, .inf y => !y
  | x, y => decide (x.frac.1 * y.frac.2 < y.frac.1 * x.frac.2)

/-- a < b with −0 below +0 (R111). -/
def ltOrdered (a b : Fp) : Bool :=
  match a, b with
  | .zero x, .zero y => x && !y
  | x, y => ltValue x y

/-- VMIN or VMAX of two patterns (R111). -/
def minMaxBits (f : Fmt) (max : Bool) (a b : Nat) : FRes :=
  let x := f.value a
  let y := f.value b
  if x.isNan || y.isNan then nanRes f (x.isSnan || y.isSnan)
  else if max then ⟨if ltOrdered x y then b else a, 0⟩ else ⟨if ltOrdered y x then b else a, 0⟩

/-- A sign operation on a pattern: a NaN becomes canonical (R110). -/
def signOp (f : Fmt) (op : Fp → Fp) (a : Nat) : FRes :=
  match op (f.value a) with
  | .nan s => nanRes f s
  | v => ⟨f.withSign v.neg (a % f.signBit), 0⟩

/-- A comparison of two values (R116): the bit and the flags. -/
def compareValues (cc : Cond) (a b : Fp) : Bool × FpFlags :=
  let unord := a.isNan || b.isNan
  let sn := a.isSnan || b.isSnan
  let lt := !unord && ltValue a b
  let gt := !unord && ltValue b a
  match cc with
  | .eq => (!unord && !lt && !gt, flagIf sn flagNV)
  | .ne => (unord || lt || gt, flagIf sn flagNV)
  | .lt => (lt, flagIf unord flagNV)
  | .le => (!unord && !gt, flagIf unord flagNV)
  | .gt => (gt, flagIf unord flagNV)
  | .ge => (!unord && !lt, flagIf unord flagNV)
  | .ltu => (unord || lt, flagIf sn flagNV)
  | .leu => (unord || !gt, flagIf sn flagNV)

/-! ### Integers (R80) -/

/-- rint(± n / d, mode): the integer, and whether it differs (R80). -/
def rintFrac (mode : Rounding) (neg : Bool) (n d : Nat) : Int × Bool :=
  let q := n / d
  let r := n % d
  let k : Int := (if roundsUp mode neg q r d then q + 1 else q : Nat)
  (if neg then -k else k, decide (r ≠ 0))

/-- rint of a finite value. -/
def rintValue (mode : Rounding) : Fp → Int × Bool
  | .fin neg n d => rintFrac mode neg n d
  | _ => (0, false)

/-- A value converted to an integer within bounds (R80): NaN gives 0, and saturation is invalid. -/
def toIntBounded (mode : Rounding) (lo hi : Int) (v : Fp) : Int × FpFlags :=
  match v with
  | .nan _ => (0, flagNV)
  | .inf neg => (if neg then lo else hi, flagNV)
  | v =>
    let r := rintValue mode v
    if r.1 < lo then (lo, flagNV)
    else if hi < r.1 then (hi, flagNV)
    else (r.1, flagIf r.2 flagNX)

/-- VRND: rint of a pattern in its own format (R125). -/
def rndBits (f : Fmt) (mode : Rounding) (a : Nat) : FRes :=
  match f.value a with
  | .nan s => nanRes f s
  | .fin neg n d =>
    let r := rintFrac mode neg n d
    if r.1 = 0 then ⟨f.withSign neg 0, flagIf r.2 flagNX⟩
    else ⟨(roundFrac f mode neg r.1.natAbs 1).bits, flagIf r.2 flagNX⟩
  | _ => ⟨a, 0⟩

/-- VSCALE: a × 2^n (R129). Beyond ±1000 every n gives one result, since no value of a format is nearer to the
bounds of its range. -/
def scaleBits (f : Fmt) (mode : Rounding) (a : Nat) (n : Int) : FRes :=
  match f.value a with
  | .nan s => nanRes f s
  | .fin neg m d =>
    let k := max (-1000) (min 1000 n)
    if 0 ≤ k then roundFrac f mode neg (m * 2 ^ k.toNat) d else roundFrac f mode neg m (d * 2 ^ (-k).toNat)
  | _ => ⟨a, 0⟩

/-! ### Patterns -/

/-- Addition of two patterns. -/
def fpAdd (f : Fmt) (mode : Rounding) (a b : Nat) : FRes := addValues f mode (f.value a) (f.value b)

/-- Subtraction of two patterns. -/
def fpSub (f : Fmt) (mode : Rounding) (a b : Nat) : FRes := addValues f mode (f.value a) (f.value b).flip

/-- Multiplication of two patterns. -/
def fpMul (f : Fmt) (mode : Rounding) (a b : Nat) : FRes := mulValues f mode (f.value a) (f.value b)

/-- Division of two patterns. -/
def fpDiv (f : Fmt) (mode : Rounding) (a b : Nat) : FRes := divValues f mode (f.value a) (f.value b)

/-- Fused multiply-add of three patterns. -/
def fpFma (f : Fmt) (mode : Rounding) (a b c : Nat) : FRes :=
  fmaValues f mode (f.value a) (f.value b) (f.value c)

/-- The F32 sum that a reduction applies: RNE, no flag (R172). -/
def addF32 (a b : Nat) : Nat := (fpAdd fmtF32 .rne a b).bits

end Sys2Proof.Machine
end

