-- ==== Sys2Proof/Machine/Order.lean ====
section
/-!
DEFINITION. The order in which a cluster's accesses are performed (R180 to R190): writes that are held, pieces that land,
loads that are read late, and the settling of what stands before an access that is ordered behind it.
-/

namespace Sys2Proof.Machine

/-! ### The values of atomics (R171, R172) -/

/-- The width of an atomic in bytes (R170). -/
def atomBytes (wide : Bool) : Nat := if wide then 8 else 4

/-- The low bits of an operand (R171). -/
def atomOperand (wide : Bool) (x : Word) : Nat := x.toNat % 2 ^ (8 * atomBytes wide)

/-- A pattern as a signed integer of the width. -/
def atomInt (wide : Bool) (x : Nat) : Int :=
  if 2 ^ (8 * atomBytes wide - 1) ≤ x then (x : Int) - 2 ^ (8 * atomBytes wide) else x

/-- The signed minimum of two patterns. -/
def atomMin (wide : Bool) (a b : Nat) : Nat := if atomInt wide a ≤ atomInt wide b then a else b

/-- The signed maximum of two patterns. -/
def atomMax (wide : Bool) (a b : Nat) : Nat := if atomInt wide b ≤ atomInt wide a then a else b

/-- What a reduction makes of a value and an operand (R172). -/
def Reduction.apply (op : Reduction) (wide : Bool) (a b : Nat) : Nat :=
  match op with
  | .add => a + b
  | .fadd => addF32 a b
  | .min => atomMin wide a b
  | .max => atomMax wide a b

/-! ### Writes that are held (R183, R184, R190) -/

/-- The write is a store to an SC page, which goes into the core's L1 copy (R197). -/
def Held.onSc (h : Held) : Bool :=
  match h.write with
  | .store (w :: _) => w.1.mode == .sc
  | _ => false

/-- A write of a cluster that it no longer holds is performed. Those of its earlier loads that come before it are read first,
and pieces of other cores that reach it land (R183). A piece of a store is seen by the agents of the core. It lands at once in
the core's own scratchpad, and at once when it is sequentially consistent (R184); on an SC page it goes into the L1 copy (R197);
a reduction is applied where its word lives, in one piece (R190). -/
def State.perform (s : State) (c : CoreId) (x : Cluster) (h : Held) : State :=
  let ag := (s.core c).agent c (.cluster x)
  let y := h.act x
  let s1 := ((s.readDue c x noPiece [y]).landReaching ag y.places).readPassed ag y.places
  let s2 := if y.releases then s1.carry c h.scope else s1
  let settled := s2.settlePosted c (fun _ => false) noRaise [y]
  match h.write with
  | .store l =>
    if h.onSc then
      let r := (settled.beforeWrite ag y.places).writeLocs ag (h.ev == .noAlloc) l
      r.1.noteWrite ((s.core c).ctx.bind (·.task)) r.2
    else if h.od == .sc || (y.places.all fun
        | .pad d _ => d == c
        | _ => false) then settled.land c x h.va h.write.bytes
    else
      let k := s2.core c
      s2.setCore c { k with posted := k.posted ++ [⟨x, h.ord, h.scope, h.od, .core, h.va, h.write.bytes⟩] }
  | .reduce op ps b =>
    let old := leNat (ps.map settled.peek)
    settled.land c x h.va (ps.zip (leBytes ps.length (op.apply (ps.length == 8) old b)))

/-- Write `i` of those that a cluster holds is performed. -/
def State.performAt (s : State) (c : CoreId) (x : Cluster) (i : Nat) : State :=
  let k := s.cl c x
  match k.held[i]? with
  | none => s
  | some h => (s.setCl c x { k with held := k.held.eraseIdx i }).perform c x h

/-- Writes of a cluster are performed, in order. -/
def performAll (c : CoreId) (x : Cluster) : List Held → State → State
  | [], s => s
  | h :: hs, s => performAll c x hs (s.perform c x h)

/-- A held write comes before a later access of its cluster toward the agents of its core: they share a byte, or its edge
scope is the core's or wider (R181, R183). -/
def Act.mustHere (marks : Bool) (x y : Act) : Bool :=
  decide (x.ord ≤ y.ord) && (x.clashes y || decide (Scope.core.code ≤ (x.edge marks y).code))

/-- The writes that a cluster holds, oldest first: those that are performed before some later accesses of it, for they are due
or come before one of them, and the others. -/
def planHeld (marks : Bool) (x : Cluster) (due : Held → Bool) (later : List Act) : List Held → List Held × List Held × List Act
  | [] => ([], [], later)
  | h :: hs =>
    let r := planHeld marks x due later hs
    if due h || r.2.2.any fun y => (h.act x).mustHere marks y then (h :: r.1, r.2.1, h.act x :: r.2.2)
    else (r.1, h :: r.2.1, r.2.2)

/-- Writes of a cluster are performed: those that are due, and those that come before some later accesses of it. -/
def State.performDue (s : State) (c : CoreId) (x : Cluster) (due : Held → Bool) (later : List Act) : State :=
  let k := s.cl c x
  if k.held.isEmpty then s
  else
    let r := planHeld (s.core c).revisionOne x due later k.held
    performAll c x r.1 (s.setCl c x { k with held := r.2.1 })

/-- A write may be performed before the older ones of its cluster. -/
def Held.mayPass (marks : Bool) (x : Cluster) (h : Held) (older : List Held) : Bool :=
  older.all fun e => !(e.act x).mustHere marks (h.act x)

/-- The writes of a cluster that may be performed next, by their places among those it holds. -/
def Core.performable (k : Core) (x : Cluster) : List Nat :=
  let l := (k.cl x).held
  (List.range l.length).filter fun i => ((l[i]?).map fun h => h.mayPass k.revisionOne x (l.take i)).getD false

/-- A piece may land before the older ones that only the core's agents see: it comes before none of them toward every agent,
and none of them before it (R181, R183, R185). -/
def Posted.mayPass (marks : Bool) (p : Posted) (older : List Posted) : Bool := older.all fun q => !q.act.must marks p.act

/-- The pieces that may land next. -/
def Core.landable (k : Core) : List Nat :=
  (List.range k.posted.length).filter fun i =>
    ((k.posted[i]?).map fun p => p.mayPass k.revisionOne (k.posted.take i)).getD false

/-- Piece `i` of those that only a core's agents see lands. Older ones that are ordered before it toward some agents only stay,
and reach those (R183). -/
def State.landAt (s : State) (c : CoreId) (i : Nat) : State :=
  let k := s.core c
  match k.posted[i]? with
  | none => s
  | some p =>
    let rest := (s.setCore c { k with posted := k.posted.take i }).settlePosted c (fun _ => false) noRaise [p.act]
    let k1 := rest.core c
    (rest.setCore c { k1 with posted := k1.posted ++ k.posted.drop (i + 1) }).land c p.cl p.va p.bytes

/-! ### Loads that are read late (R183) -/

/-- A piece of a load may be performed before the older loads of its cluster that are not: none of their pieces comes before it
toward every agent (R181, R183). -/
def PendingLoad.mayPass (marks : Bool) (x : Cluster) (y : Act) (older : List PendingLoad) : Bool :=
  older.all fun o => !o.unread.any fun u => (o.act x u).must marks y

/-- The pieces of loads of a cluster that may be performed next: the load's place among those pending, and the piece's among
its unread ones. -/
def Core.readable (k : Core) (x : Cluster) : List (Nat × Nat) :=
  let ls := (k.cl x).pending
  (List.range ls.length).flatMap fun i =>
    ((ls[i]?).map fun l => (List.range l.unread.length).filterMap fun j =>
      if ((l.unread[j]?).map fun u => PendingLoad.mayPass k.revisionOne x (l.act x u) (ls.take i)).getD false then some (i, j)
      else none).getD []

/-- A list with the element at a place moved to its front. -/
def toFront {α : Type} (l : List α) (i : Nat) : List α :=
  match l[i]? with
  | some a => a :: l.eraseIdx i
  | none => l

/-- Piece `j` of load `i` of a cluster is performed: older loads that come before it are read, or have been passed. -/
def State.readAt (s : State) (c : CoreId) (x : Cluster) (i j : Nat) : State :=
  let k := s.cl c x
  match k.pending[i]? with
  | none => s
  | some l =>
    match l.unread[j]? with
    | none => s
    | some u =>
      let older := (s.setCl c x { k with pending := k.pending.take i }).readDue c x noPiece [l.act x u]
      let q := older.cl c x
      (older.setCl c x { q with pending := q.pending ++ { l with unread := toFront l.unread j } :: k.pending.drop (i + 1) }).readPiece
        c x i

/-! ### An access performed at once -/

/-- Before an access of a core that is performed in this step, what comes before it is performed: writes of its cluster, loads
of it, and pieces that the core's agents see; toward agents within narrower scopes they are ordered before it without being
performed for others. A release is cumulative (R183, R188). -/
def State.order (s : State) (c : CoreId) (y : Act) : State :=
  if (s.cl c y.cl).held.isEmpty && (s.core c).calm && !s.entangled then s
  else
    let s1 := (s.performDue c y.cl (fun _ => false) [y]).readDue c y.cl noPiece [y]
    let s2 := s1.settlePosted c (fun _ => false) noRaise [y]
    if y.releases then s2.carry c y.scope else s2

/-- Before a load is issued that will be performed later, the writes that come before it are performed (R183). -/
def State.orderWrites (s : State) (c : CoreId) (y : Act) : State :=
  if (s.cl c y.cl).held.isEmpty && (s.core c).posted.isEmpty then s
  else (s.performDue c y.cl (fun _ => false) [y]).settlePosted c (fun _ => false) noRaise [y]

/-! ### Settling -/

/-- Every access of a cluster is performed with respect to the agents of its core: its loads, then its writes, in program
order. -/
def State.settleCl (s : State) (c : CoreId) (x : Cluster) : State :=
  (s.readDue c x everyPiece []).performDue c x (fun _ => true) []

/-- Every access of a cluster is performed with respect to the agents of its core, and its stores toward those within each
one's own scope: what MARK leaves (R187). -/
def State.markCl (s : State) (c : CoreId) (x : Cluster) : State :=
  if (s.cl c x).held.isEmpty && (s.core c).calm then s
  else (s.settleCl c x).settlePosted c (fun _ => false) (fun p => if p.cl = x then p.scope else .cluster) []

/-- Every access of a cluster, and the stores of its core that its agents have seen, are performed toward the agents within a
scope: what a release or sequentially consistent fence leaves (R188). -/
def State.fenceCl (s : State) (c : CoreId) (x : Cluster) (sc : Scope) : State :=
  if (s.cl c x).held.isEmpty && (s.core c).calm && !s.entangled then s
  else ((s.settleCl c x).settlePosted c (fun _ => false) (fun _ => sc) []).carry c sc

/-- Every access of a cluster is performed with respect to every agent, and with `all` every access of the core's other
clusters that its agents have seen (R187, R188). -/
def State.settleOne (s : State) (c : CoreId) (x : Cluster) (all : Bool) : State :=
  if (s.cl c x).held.isEmpty && (s.core c).calm then s
  else (s.settleCl c x).settlePosted c (fun p => all || p.cl == x) noRaise []

/-- The core holds no access that is not performed with respect to every agent. -/
def Core.settled (k : Core) : Bool := k.calm && clusterOrder.all fun x => (k.cl x).held.isEmpty

/-- Every access of a core is performed with respect to every agent (R316 step 3). -/
def State.settleCore (s : State) (c : CoreId) : State :=
  if (s.core c).settled then s
  else (clusterOrder.foldl (fun st x => st.settleCl c x) s).settlePosted c (fun _ => true) noRaise []

/-- Accesses of the machine's clusters to bytes that a predicate names are performed, for every agent. -/
def State.performWhere (s : State) (p : List Place → Bool) : State :=
  let s1 := allCores.foldl (fun st c => clusterOrder.foldl (fun st x =>
    st.performDue c x (fun h => p h.write.places) []) st) s
  let s2 := allCores.foldl (fun st c => st.settlePosted c (fun q => p (q.bytes.map (·.1))) noRaise []) s1
  s2.readWhere fun _ _ _ u => p u

/-- No access of the machine's clusters is put off. -/
def State.promptNow (s : State) : Bool := s.cores.toList.all Core.settled

/-- The same, when there is any. -/
def State.forceAt (s : State) (p : List Place → Bool) : State := if s.promptNow then s else s.performWhere p

end Sys2Proof.Machine
end

