-- ==== Sys2Proof/Machine/Signals.lean ====
section
/-!
DEFINITION. Flags: increments, waiters and grants (R225), and the joins that they make (R193, R397).
-/

namespace Sys2Proof.Machine

/-- The later of two sequence numbers, 0xFFFF_FFFF standing for none (R397). -/
def laterSeq (a b : Half) : Half :=
  if a = 0xFFFFFFFF then b
  else if b = 0xFFFFFFFF then a
  else if (b - a).toNat < 2 ^ 31 then b else a

/-- The commands that lie before either of two points. -/
def Front.join (a b : Front) : Front := ⟨laterSeq a.mtx b.mtx, laterSeq a.cin b.cin⟩

/-- A cluster joins commands (R193). -/
def ClusterState.join (k : ClusterState) (f : Front) : ClusterState := { k with joined := k.joined.join f }

/-- A flag of a core. -/
def Core.flag (k : Core) (f : FlagReg) : Flag := tget Flag.reset k.regs.flags f.toNat

/-- A core with one flag replaced. -/
def Core.setFlag (k : Core) (f : FlagReg) (x : Flag) : Core :=
  { k with regs := { k.regs with flags := tset k.regs.flags f.toNat x } }

/-- A waiter's place among those that have been granted an increment (R225): fewer waiters stand before it than
there are increments. -/
def Flag.granted (x : Flag) (w : Party) : Bool :=
  x.waiters.contains w && decide (x.waiters.idxOf w < x.count)

/-- A waiter takes its increment. -/
def Flag.take (x : Flag) (w : Party) : Flag := { x with count := x.count - 1, waiters := x.waiters.erase w }

/-- The increments that no waiter has been granted: the flag's count (R225). -/
def Flag.value (x : Flag) : Nat := x.count - x.waiters.length

/-- An increment, saturating at 255 beyond the waiters' grants; it is a release by commands `front` (R225, R193). -/
def Flag.increment (x : Flag) (front : Front) : Flag :=
  { x with
    count := if x.value ≥ 255 then x.count else x.count + 1
    front := x.front.join front }

/-! ### Command words and their flag waits (R30, R237) -/

/-- The offset in the scratchpad of the entry of a sequence number (R237): base and depth of each queue. -/
def queueGeometry : Engine → Nat × Nat
  | .mtx => (0x1FF000, 64)
  | .cin => (0x1FF200, 128)
  | .cout => (0x1FF600, 128)
  | .gth => (0x1FFA00, 64)
  | .topk => (0x1FFC00, 16)

/-- The depth of a queue (R237). -/
def queueDepth (e : Engine) : Nat := (queueGeometry e).2

/-- The scratchpad offset of an entry (R237). -/
def entryOff (e : Engine) (seq : Half) : Nat := (queueGeometry e).1 + seq.toNat % (queueGeometry e).2 * 8

/-- The command word of an entry (R237). -/
def Core.cmdWord (k : Core) (e : Engine) (seq : Half) : Word :=
  BitVec.ofNat 64 (leNat (rdBytes k.loc.scratch (entryOff e seq) 8))

/-- The WAIT byte of a word. -/
def wordWait (w : Word) : BitVec 8 := w.extractLsb' 56 8

/-- The flag that a WAIT byte names (R30). -/
def waitFlag (b : BitVec 8) : Option FlagReg := if b ≠ 0 ∧ b.getLsbD 7 = false then some (b.setWidth 7) else none

/-- The first command of a list that waits for an increment of a flag is marked as granted one. -/
def grantFirst (waits : Cmd → Bool) : List Cmd → List Cmd
  | [] => []
  | c :: cs => if c.started.isNone && !c.granted && waits c then { c with granted := true } :: cs else c :: grantFirst waits cs

/-- The engine waiters of a flag that have been granted an increment consume it: their commands are marked (R225,
R240, R397). -/
def Core.settleFlag (k : Core) (f : FlagReg) : Core :=
  engineOrder.foldl (fun k e =>
    let x := k.flag f
    if x.granted (.engine e) then
      let q := k.queue e
      let entries := grantFirst (fun c => waitFlag (wordWait (k.cmdWord e c.seq)) == some f) q.entries
      (k.setFlag f (x.take (.engine e))).setQueue e { q with entries := entries }
    else k) k

/-- A flag of a core is incremented (R225). -/
def Core.signal (k : Core) (f : FlagReg) (front : Front) : Core :=
  (k.setFlag f ((k.flag f).increment front)).settleFlag f

/-- A stop takes the clusters out of the waiters of a flag; the increments stay, for the waiters that are left (R225). -/
def Flag.dropClusters (f : Flag) : Flag :=
  { f with
    count := Nat.min f.count 255
    waiters := f.waiters.filter fun
      | .cluster _ => false
      | .engine _ => true }

/-- A stop takes the clusters out of the waiters of every flag of a core, and the commands behind them are granted the
increments that are left. -/
def Core.dropWaiters (k : Core) : Core :=
  ((List.range 128).filter fun f => !(tget Flag.reset k.regs.flags f).waiters.isEmpty).foldl (fun k f =>
    let r : FlagReg := BitVec.ofNat 7 f
    (k.setFlag r (k.flag r).dropClusters).settleFlag r) k

end Sys2Proof.Machine
end

