-- ==== Sys2Proof/Machine/Ops.lean ====
section
/-!
DEFINITION. The operations that meanings share: completing a bundle with its loop evaluation, waiting, taking a
fault or trap (the stop, the frame and the handler's entry), and returning from the handler.
-/

namespace Sys2Proof.Machine

/-! ### Completing a bundle -/

/-- The evaluation of the loop stack after the syllable of the bundle at `e` completes: the next PC and the stack
(R98). -/
def loopEnd (e : Word) : List LoopEntry → Word × List LoopEntry
  | [] => (e + 32, [])
  | l :: ls =>
    if l.last = e then
      if l.remaining - 1 = 0 then loopEnd e ls
      else (l.start, { l with remaining := l.remaining - 1 } :: ls)
    else (e + 32, l :: ls)

/-- A cluster goes on at a bundle with a loop stack; its waits, and its sequence, are over, and transfers that the bundle it
leaves has begun are no longer its own. -/
def ClusterState.goTo (k : ClusterState) (pc : Word) (loops : List LoopEntry) : ClusterState :=
  { k with
    pc := pc
    loops := loops
    status := .running
    released := false
    skipBk := false
    counted := false
    setst := none
    asked := k.asked.filter (·.pc ≠ k.pc)
    fetched := []
    failed := []
    useq := none }

/-- A cluster's bundle completes (R11, R98). -/
def ClusterState.complete (k : ClusterState) : ClusterState :=
  let r := loopEnd k.pc k.loops
  k.goTo r.1 r.2

/-- The executing cluster's bundle has completed. -/
def State.markDone (s : State) : State := { s with actor := { s.actor with done := true } }

/-- The executing cluster's bundle completes and the cluster goes on (R11, R98). -/
def State.complete (s : State) : State := (s.setMe s.me.complete).markDone

/-- The executing cluster's bundle completes and the cluster goes on at a target, with a loop stack. -/
def State.completeTo (s : State) (pc : Word) (loops : List LoopEntry) : State :=
  (s.setMe (s.me.goTo pc loops)).markDone

/-- The context runs in fixed-latency mode (R220). -/
def Core.fixedLatency (k : Core) : Bool := (k.getSr srFlmode).getLsbD 0

/-- The late count of fixed-latency mode raised, saturating (R220). -/
def Core.countLate (k : Core) : Core :=
  let v := k.getSr srFlmode
  if k.fixedLatency && decide (v.toNat / 2 ^ 16 % 2 ^ 16 < 0xFFFF) then k.setSr srFlmode (v + 0x10000) else k

/-- An access of the executing cluster stalls at a row under self-test: it counts as late, once (R220, R329). -/
def State.countFence (s : State) : State :=
  if s.me.counted then s
  else
    let t := s.setHere s.here.countLate
    t.setMe { t.me with counted := true }

/-- The executing cluster waits. -/
def State.waitIn (s : State) (w : Wait) : State := s.setMe { s.me with status := .waiting w }

/-- The executing cluster blocks; its syllable has had no effect (R211), but that a stall at a row under self-test is counted
(R329). -/
def State.block (s : State) (w : Wait) : State :=
  match w with
  | .fenced _ => s.countFence.waitIn w
  | _ => s.waitIn w

/-! ### Register results -/

/-- The bytes of a load's destination, extended as the load does (R164). -/
def extendLoad (raw : Vec) (bytes : Nat) (signed : Bool) : Word :=
  let n := raw.toNat % 2 ^ (8 * bytes)
  if signed && raw.getLsbD (8 * bytes - 1) then BitVec.ofNat 64 (n + (2 ^ 64 - 2 ^ (8 * bytes)))
  else BitVec.ofNat 64 n

/-- The 2,048-bit pattern that covers the 32-bit lanes of a lane set. -/
def laneBits (lanes : BitVec 64) : Vec :=
  (List.range 64).foldl (fun m i => if lanes.getLsbD i then m ||| (0xFFFFFFFF#2048 <<< (32 * i)) else m) 0

/-- A vector with the lanes of a set taken from another (R106). -/
def mergeLanes (lanes : BitVec 64) (new old : Vec) : Vec :=
  (new &&& laneBits lanes) ||| (old &&& ~~~(laneBits lanes))

/-- A mask with the bits of a set taken from another (R106). -/
def mergeBits (bits new old : Mask) : Mask := (new &&& bits) ||| (old &&& ~~~bits)

/-- A load, or a late result, writes its register (R216, R217). -/
def State.writeLoad (s : State) (c : CoreId) (x : Cluster) (l : PendingLoad) : State :=
  match l.dest with
  | .scalar rd bytes signed => s.setCl c x ((s.cl c x).setS rd (extendLoad l.raw bytes signed))
  | .vector vd lanes => s.setCore c ((s.core c).setV vd (mergeLanes lanes l.raw ((s.core c).getV vd)))
  | .temp h lanes =>
    let k := s.cl c x
    s.setCl c x { k with temps := tset k.temps h.toNat (mergeLanes lanes l.raw (tget 0 k.temps h.toNat)) }
  | .mask md bits => s.setCore c ((s.core c).setM md (mergeBits bits (l.raw.setWidth 64) ((s.core c).getM md)))

/-- What of a pending result lands when a set of lanes does (R217), and what is left of it. A scalar and a temporary land
whole. -/
def PendingLoad.part (l : PendingLoad) (lanes : BitVec 64) : PendingLoad × Option PendingLoad :=
  match l.dest with
  | .vector vd ls => ({ l with dest := .vector vd (ls &&& lanes) },
      if ls &&& ~~~lanes = 0 then none else some { l with dest := .vector vd (ls &&& ~~~lanes) })
  | .mask md bs => ({ l with dest := .mask md (bs &&& lanes) },
      if bs &&& ~~~lanes = 0 then none else some { l with dest := .mask md (bs &&& ~~~lanes) })
  | _ => (l, none)

/-- Lanes of load `i` of a cluster, counted from the oldest, are written to its register, and a load with no lane left is
no longer pending (R216, R217). It is performed first, after the older loads of its cluster. -/
def State.completeLoad (s0 : State) (c : CoreId) (x : Cluster) (i : Nat) (lanes : BitVec 64) : State :=
  let s := s0.readDue c x (fun p _ => ((s0.cl c x).pending[i]?.map fun l => decide (p.ord ≤ l.ord)).getD false) []
  let k := s.cl c x
  match k.pending[i]? with
  | none => s
  | some l =>
    match l.part lanes with
    | (a, none) => (s.setCl c x { k with pending := k.pending.eraseIdx i }).writeLoad c x a
    | (a, some r) => (s.setCl c x { k with pending := k.pending.set i r }).writeLoad c x a

/-- A number of a cluster's loads write their registers, oldest first. -/
def State.completeLoads (s : State) (c : CoreId) (x : Cluster) : Nat → State
  | 0 => s
  | n + 1 => (s.completeLoad c x 0 (BitVec.allOnes 64)).completeLoads c x n

/-- Every load of a core writes its register (R316 step 3). -/
def State.completeAllLoads (s : State) (c : CoreId) : State :=
  clusterOrder.foldl (fun st x => st.completeLoads c x (st.cl c x).pending.length) s

/-- A result becomes pending for the executing cluster (R216, R217). -/
def State.pendHere (s : State) (l : PendingLoad) : State := s.setMe { s.me with pending := s.me.pending ++ [l] }

/-- A result that is written late: no access, so it does not count as late (R220). -/
def State.lateResult (s : State) (dest : LoadDest) (raw : Vec) : State :=
  s.pendHere ⟨dest, raw, [], s.free, .cluster, .relaxed, .normal, .cluster, .vector⟩

/-- A vector result of the executing syllable: `v` is the register with the lanes that it writes. It is written at once, or
lane by lane at later moments (R217). -/
def State.giveV (s : State) (vd : VReg) (lanes : BitVec 64) (v : Vec) : State :=
  if s.actor.late && lanes != 0 then s.lateResult (.vector vd lanes) v else s.setV vd v

/-- A mask result of the executing syllable, written at once or bit by bit at later moments (R217). -/
def State.giveM (s : State) (md : MReg) (bits : Mask) (v : Mask) : State :=
  if s.actor.late && bits != 0 && md != 0 then s.lateResult (.mask md bits) (v.setWidth 2048) else s.setM md v

/-- A release at a scope by the executing cluster that is no access to memory (R191, R234, R281, R283, R285): its earlier
accesses but reductions are ordered before it. -/
def State.releaseAt (s : State) (sc : Scope) : State :=
  s.order s.actor.core ⟨s.actor.cl, s.free, sc, .store, .release, []⟩

/-- A release at core scope by the executing cluster (R191). -/
def State.releaseHere (s : State) : State := s.releaseAt .core

/-! ### The stop and the frame -/

/-- The cluster has still to execute a synced bundle that has been met (R213): it has not begun a sequence in it. -/
def ClusterState.owes (k : ClusterState) : Bool := k.released && k.useq.isNone

/-- The cluster executes that bundle next: it is not blocked in it. -/
def ClusterState.due (k : ClusterState) : Bool := k.owes && k.status == .running

/-- A cluster of the core executes a met synced bundle in this very cycle, and has yet to: what a mate raises is not
delivered before (R213, R316). -/
def Core.anyDue (k : Core) : Bool := clusterOrder.any fun x => (k.cl x).due

/-- The rendezvous of a core's clusters, met and followed by none of them yet, is undone: a stop comes before the cycle in
which they execute the bundle (R213, R316). -/
def Core.unmeet (k : Core) : Core :=
  if clusterOrder.all fun x => (k.cl x).owes then
    clusterOrder.foldl (fun k x => k.setCl x { k.cl x with released := false }) k
  else k

/-- No access or command of the core is outstanding (R316). -/
def Core.quiet (k : Core) : Bool :=
  k.posted.isEmpty && clusterOrder.all (fun x => (k.cl x).pending.isEmpty && (k.cl x).held.isEmpty) &&
    engineOrder.all fun e => (k.queue e).running.isEmpty

/-- The core has nothing outstanding: ordered reductions on their way to their home slices, and stores, reductions,
atomics and image writes at peers included (R316, R343). -/
def State.quiet (s : State) (c : CoreId) : Bool :=
  (s.core c).quiet && s.rofSent.all (fun m => m.core != some c) && s.peers.all fun p => match p.use with
    | .store d _ => d != c
    | .atomic d _ _ _ => d != c
    | .image d _ => d != c
    | _ => true

/-- A returning atomic of a cluster is at a peer. -/
def State.atomicOut (s : State) (c : CoreId) (x : Cluster) : Bool :=
  s.peers.any fun p => match p.use with
    | .atomic d y _ _ => d == c && y == x
    | _ => false

/-- Fetches and reads that a core's clusters await at peers are given up: their syllables had no effect (R211). -/
def State.dropFetches (s : State) (c : CoreId) : State :=
  { s with peers := s.peers.filter fun p => match p.use with
      | .fetch d _ => d != c
      | _ => true }

/-- A stop ends a cluster's wait with no effect (R211, R316); a transfer that it has begun goes on (R312). -/
def ClusterState.endWait (k : ClusterState) : ClusterState :=
  match k.status with
  | .waiting _ => { k with status := .running, setst := none, fetched := [], failed := [] }
  | _ => k

/-- Every element of a fixed table mapped. -/
def tmap {α β : Type} {n : Nat} (f : α → β) (t : Vector α n) : Vector β n :=
  ⟨⟨t.toList.map f⟩, by simp⟩

/-- Every wait of a core's clusters ends with no effect, but for an atomic at a peer, which completes; its monitors are
disarmed (R211, R316). -/
def State.endWaits (s : State) (c : CoreId) : State :=
  let k := s.core c
  let k1 := clusterOrder.foldl (fun k x => if s.atomicOut c x then k else k.setCl x ((k.cl x).endWait)) k
  { (s.setCore c k1.dropWaiters).dropFetches c with monitors := s.monitors.filter (·.core ≠ c) }

/-- The word of %fpcn: the next bundle, and bit 0 for a halted cluster (R319). -/
def fpcWord (k : ClusterState) : Word :=
  (k.pc &&& ~~~31) ||| (if k.status = .halted then 1 else 0)

/-- The word of %cause (R319). -/
def causeWord (r : Report) : Word :=
  BitVec.ofNat 64 (r.cls * 2 ^ 8 + (if r.eng.isSome then 0 else r.clus.code) * 2 ^ 6 + r.cause.code)

/-- The word of %fflags, INH as given (R319). -/
def flagsWord (r : Report) (inh : Bool) : Word :=
  BitVec.ofNat 64 (((r.eng.map Engine.code).getD 0) * 8 + (if r.eng.isSome then 4 else 0) +
    (if r.inms then 2 else 0) + (if inh then 1 else 0))

/-- The word of %fcutq: the first command of the queue not retired, its tile progress and whether it holds its
claims (R317, R319). -/
def cutWord (q : EngineQueue) : Word :=
  let h := q.entries.head?
  let held := (h.map (·.held)).getD false
  let prog := (h.map (·.prog)).getD 0
  BitVec.ofNat 64 ((if held then 2 ^ 37 else 0) + prog % 32 * 2 ^ 32 + (q.retired + 1).toNat)

/-- One cluster's part of %fupc (R387). -/
def upcPart (k : ClusterState) : Nat :=
  match k.useq with
  | some u => 2 ^ 10 + u.slot.toNat * 2 ^ 6 + u.upc % 64
  | none => 0

/-- The frame registers of a report at the cut where the core stands (R319, R387). INH is kept. -/
def Core.frame (k : Core) (r : Report) : Core :=
  k.setSrs <|
    [(srCause, causeWord r), (srFaddr, r.addr), (srFsyl, r.syl)] ++
    (clusterOrder.map fun x => (srFpc + x.code, fpcWord (k.cl x))) ++
    (engineOrder.map fun e => (srFcut + e.code, cutWord (k.queue e))) ++
    [(srFupc, BitVec.ofNat 64 (upcPart k.cls.cX0 + upcPart k.cls.cX1 * 2 ^ 16)),
     (srFflags, flagsWord r k.inHandler)]

/-! ### Double faults, and the handler's entry -/

/-- A double fault (R322): the handler's own cause and address are kept, the frame is left intact, the core stays
stopped, and an event goes to management. -/
def State.doubleFault (s : State) (c : CoreId) (r : Report) : State :=
  let k := (s.core c).setSrs [(srDfcause, causeWord r), (srDfaddr, r.addr)]
  (s.setCore c { k with phase := .doubleFault }).sendEvent
    ⟨0, coreSource c none, .doubleFault, 5, k.polderNo⟩

/-- The address of the handler record: %tstack − 128 (R320). -/
def Core.recordVa (k : Core) : Word := k.getSr srTstack - 128

/-- The numbers 1 to 15. -/
def oneTo15 : List Nat := (List.range 15).map (· + 1)

/-- The 128 bytes of the handler record: s1 to s15 of S, then the predicates as GETP gives them (R320). -/
def recordBytes (k : ClusterState) : List Byte :=
  (oneTo15.flatMap fun n => leBytes 8 (k.getS (BitVec.ofNat 6 n)).toNat) ++ leBytes 8 k.allP.toNat

/-- The agent of the handler's entry and return: the context at supervisor privilege, outside the checks of pure
tasks (R320). -/
def Core.handlerAgent (k : Core) (c : CoreId) : Agent :=
  { k.agent c (.cluster .S) with user := false, pure := none }

/-- The handler begins on S (R320): INH is set, the record is written, S's loop stack is held, and S goes to %tvec
with s1 naming the record. A bad address or a failing store is a double fault (R322); a store that meets a range which another
core's command holds stalls, and `stay` is the core that still awaits the frame (R253). -/
def State.enterHandler (s : State) (c : CoreId) (stay : State) : Res :=
  let x0 := (s.core c).cls.cS
  let k0 := (s.core c).setSr srFflags ((s.core c).getSr srFflags ||| 1)
  let k := { k0.setCl .S { x0 with loops := [], released := false } with
    phase := .running
    trap := { k0.trap with heldLoops := x0.loops, heldReleased := x0.released } }
  let s1 := s.setCore c k
  let va := k.recordVa
  let own (cause : Cause) (a : Word) : Report := ⟨cause, 0, .S, none, a, 0, false⟩
  if va.toNat % 128 ≠ 0 then .next (s1.doubleFault c (own .misaligned va))
  else if (k.getSr srTvec).toNat % 32 ≠ 0 then .next (s1.doubleFault c (own .misaligned (k.getSr srTvec)))
  else
    match s1.store (k.handlerAgent c) .any .normal ((vaBytes va 128).zip (recordBytes k.cls.cS)) with
    | .err (.hole a) => .fault (.physicalHole a)
    | .err (.fault cause a) => .next (s1.doubleFault c (own cause a))
    | .wait _ => .next stay
    | .behind _ _ => .next stay
    | .ok s2 _ runs =>
      let k2 := s2.core c
      let x := k2.cls.cS
      let y := { x.setS 1 va with pc := k.getSr srTvec, status := .running, skipBk := false }
      .next ((s2.setCore c (k2.setCl .S y)).postPeers s.free (fun _ => .store c (.cluster .S)) true runs)

/-- The frame is taken and the core enters its handler (R317 to R320). -/
def State.takeFrame (s : State) (c : CoreId) (r : Report) : Res :=
  let s1 := s.endWaits c
  (s1.setCore c ((s1.core c).frame r)).enterHandler c (s.setCore c { s.core c with phase := .stopping r })

/-- The classes that a pure task's report of R294 or R295 belongs to: NOINS is set (R297). -/
def Cause.spoilsPure : Cause → Bool
  | .pureRead => true
  | .pureWrite => true
  | .pureInstruction => true
  | _ => false

/-- The cluster whose own syllable raises a fault stands where it is: the syllable has no effect (R315, R316). -/
def Core.stand (k : Core) (r : Report) : Core :=
  if r.cls = 0 ∧ r.eng = none ∧ (k.cl r.clus).status = .running then
    k.setCl r.clus { k.cl r.clus with status := .waiting .stood }
  else k

/-- A report comes before another that the core is stopping for (R315): a fault before a trap, and of two faults of one
synced bundle, which are of one cycle (R213), the one of the first cluster. A cluster issues nothing once an engine has
faulted, so its fault of the same cycle is the one whose step comes first (assumption entry 4). -/
def Core.before (k : Core) (r q : Report) : Bool :=
  r.cls == 0 && (q.cls != 0 ||
    (r.eng.isNone && q.eng.isNone && (k.cl r.clus).released && (k.cl q.clus).released && decide (r.clus.code < q.clus.code)))

/-- TAKING A FAULT OR TRAP, the one shared operation (R315, R316, R322). In the handler it is a double fault.
Otherwise the core stops: with nothing outstanding, and no mate that still executes its syllable of the same synced bundle,
the frame is taken in the same step, and else the core drains until FRAME_TAKEN. A report that meets a stop already begun is held
if it is a trap, and otherwise left unreported; a fault takes the place of a trap of the same cycle, which is held. -/
def State.raise (s0 : State) (c : CoreId) (r : Report) : Res :=
  let s := if r.cause.spoilsPure then
      let t := s0.setNoins c
      match (t.core c).ctx.bind (·.task) with
      | some uid => t.mapTask uid fun x => { x with noInsert := true }
      | none => t
    else s0
  let k := s.core c
  let hold (k : Core) (x : Report) : Core := { k with trap := { k.trap with held := k.trap.held ++ [x] } }
  match k.phase with
  | .running =>
    if k.inHandler then
      if r.cls = 2 then .next (s.setCore c (hold k r)) else .next (s.doubleFault c r)
    else
      let s1 := s.setCore c (if r.eng.isSome then k.unmeet else k.stand r)
      if s1.quiet c && !(s1.core c).anyDue then s1.takeFrame c r
      else .next (s1.setCore c { s1.core c with phase := .stopping r })
  | .stopping q =>
    if r.cls ≠ 0 then .next (s.setCore c (hold k r))
    else if k.before r q then
      let k1 := if q.cls ≠ 0 then hold k q else k
      .next (s.setCore c { k1.stand r with phase := .stopping r })
    else .next (s.setCore c (k.stand r))
  | .saving => if r.cls ≠ 0 then .next (s.setCore c (hold k r)) else .next (s.setCore c (k.stand r))
  | _ => if r.cls = 2 then .next (s.setCore c (hold k r)) else .next s

/-- A report of the executing syllable. -/
def State.reportHere (s : State) (cause : Cause) (cls : Nat) (addr : Word) : Report :=
  ⟨cause, cls, s.actor.cl, none, addr, s.actor.syl, s.me.useq.isSome⟩

/-- The executing syllable faults with no effect (R313). -/
def State.faultHere (s : State) (cause : Cause) (addr : Word) : Res :=
  s.raise s.actor.core (s.reportHere cause 0 addr)

/-- The executing syllable's access does not happen. -/
def State.accessErr (s : State) : AccErr → Res
  | .fault cause va => s.faultHere cause va
  | .hole pa => .fault (.physicalHole pa)

/-- The executing syllable has completed and raises a trap (R313). -/
def State.trapHere (s : State) (cause : Cause) (addr : Word) : Res :=
  s.raise s.actor.core { s.reportHere cause 1 addr with inms := false }

/-- A syllable that the handler may not execute (R320) and that a pure task may not execute (R295), and the
syllable's own meaning otherwise. -/
def State.guarded (s : State) (handlerForbids pureForbids : Bool) (m : State → Res) : Res :=
  if handlerForbids && s.here.inHandler then s.faultHere .privileged 0
  else if pureForbids && s.here.isPure then s.faultHere .pureInstruction 0
  else m s

/-! ### Return from the handler -/

/-- A cluster resumes as its %fpc says (R321); the transfers of a bundle that it does not return to are no longer its own. -/
def ClusterState.resume (k : ClusterState) (fpc : Word) (skip : Bool) : ClusterState :=
  { k with
    pc := fpc &&& ~~~31
    asked := k.asked.filter fun a => !a.handler && a.pc = fpc &&& ~~~31
    status := if fpc.getLsbD 0 then .halted else .running
    skipBk := skip }

/-- S's registers and predicates as the record gives them (R321). -/
def ClusterState.reload (k : ClusterState) (bytes : List Byte) : ClusterState :=
  let k1 := oneTo15.foldl (fun k n =>
    k.setS (BitVec.ofNat 6 n) (BitVec.ofNat 64 (leNat ((bytes.drop (8 * (n - 1))).take 8)))) k
  { k1 with p := BitVec.ofNat 16 (leNat ((bytes.drop 0x78).take 2) / 2 * 2) }

/-- A queue whose commands that faulted wait to start again (R267, R317). -/
def EngineQueue.unfault (q : EngineQueue) : EngineQueue :=
  let clear (h : Hist) : Hist := if h.status = .faulted then { h with status := .pending } else h
  { q with
    entries := q.entries.map fun x => { x with faulted := false }
    hist := q.hist.map clear }

/-- A core whose commands that faulted wait to start again (R267, R317). -/
def Core.unfault (k : Core) : Core :=
  { k with eng := { k.eng with queues := tmap EngineQueue.unfault k.eng.queues } }

/-! ### Reads that a syllable makes before it has any effect -/

/-- The bytes of a read, with those that a peer has sent in their places. -/
def patchBytes (got : Sparse (Option Byte)) (vas : List Word) (bytes : List Byte) : List Byte :=
  (vas.zip bytes).map fun x => (sget none got x.1.toNat).getD x.2

/-- The executing cluster awaits a peer's bytes. -/
def State.fetching (s : State) : Bool := s.peers.any (·.use == .fetch s.actor.core s.actor.cl)

/-- What peers have sent to the executing cluster is discarded. -/
def State.clearSent (s : State) : State := s.setMe { s.me with fetched := [], failed := [] }

/-- The executing cluster goes on with peers' answers to the runs of a read: a failure is reported, and what is unanswered is
asked for once and awaited (R368). -/
def awaitPeers (runs : List PeerRun) (onErr : AccErr → State → Res) (m : State → Res) (s : State) : Res :=
  match answersTo s.me.fetched s.me.failed runs with
  | .failed e => onErr e s.clearSent
  | .all => m s
  | .missing l =>
    if s.fetching then .next (s.block .answer)
    else .next ((s.postPeers s.free (fun _ => .fetch s.actor.core s.actor.cl) false l).block .answer)

/-- A read made whole before the syllable has any effect: bytes of a peer are asked for first, and the cluster waits
for them (R368). -/
def readWith (ev : Evict) (ag : Agent) (vas : List Word) (onErr : AccErr → State → Res)
    (m : List Byte → State → Res) (s : State) : Res :=
  match s.load ag .any ev vas with
  | .err e => onErr e s
  | .wait w => .next (s.block w)
  | .behind runs e => awaitPeers runs onErr (onErr e) s
  | .ok s1 bytes runs => awaitPeers runs onErr (fun s => m (patchBytes s.me.fetched vas bytes) s1) s

/-- A read of that kind with no eviction hint. -/
def readThen (ag : Agent) (vas : List Word) (onErr : AccErr → State → Res) (m : List Byte → State → Res) (s : State) :
    Res := readWith .normal ag vas onErr m s

/-- Loads that the frame of fixed-latency mode has kept back are pending again, and do not count as late (R318). -/
def Core.returnLoads (k : Core) : Core :=
  k.trap.heldLoads.foldl (fun k l =>
    k.setCl l.1 { k.cl l.1 with pending := (k.cl l.1).pending ++ [{ l.2 with kind := .resumed }] })
    { k with trap := { k.trap with heldLoads := [] } }

/-- The machine after the handler has returned, S's record read (R321, R327). -/
def State.resumed (s : State) (c : CoreId) (bytes : List Byte) : State :=
  let k1 := s.core c
  let bk := k1.getSr srBkctl
  let xS := { k1.cls.cS.reload bytes with loops := k1.trap.heldLoops, released := k1.trap.heldReleased }
  let k2 := k1.setCl .S { xS with setst := none, fetched := [], failed := [] }
  let k3 := clusterOrder.foldl (fun k x => k.setCl x ((k.cl x).resume (k.getSr (srFpc + x.code)) (bk.getLsbD 8))) k2
  let k4 := (k3.setSr srFflags (k3.getSr srFflags &&& ~~~1)).setSr srBkctl (setBit bk 8 false)
  let k5 := { k4.unfault with trap := { k4.trap with heldLoops := [], heldReleased := false } }
  { s.setCore c k5.returnLoads with monitors := s.monitors.filter (·.core ≠ c) }

/-- A held trap or deferred fault is delivered (R315): its frame is taken at once, or when what is still outstanding has
come to an end (R316). -/
def State.deliver (s : State) (c : CoreId) : Res :=
  let k := s.core c
  match k.trap.held with
  | [] => .next s
  | r :: rs =>
    let s1 := s.setCore c { k with trap := { k.trap with held := rs } }
    if s1.quiet c then s1.takeFrame c r else .next (s1.setCore c { s1.core c with phase := .stopping r })

/-- RETURN FROM THE HANDLER (R321, R327): the record is read, S's loop stack is restored, INH clears, every
cluster resumes as %fpc says, and a held trap or deferred fault is delivered. The reads are sequentially consistent: the
handler's accesses come before them. -/
def State.returnFromHandler (s0 : State) (c : CoreId) : Res :=
  let s := s0.settleOne c .S true
  let va := (s.core c).recordVa
  let own (cause : Cause) (a : Word) : Report := ⟨cause, 0, .S, none, a, s.actor.syl, false⟩
  if va.toNat % 8 ≠ 0 then .next (s.doubleFault c (own .misaligned va))
  else
    readThen ((s.core c).handlerAgent c) (vaBytes va 128)
      (fun e s => match e with
        | .hole a => .fault (.physicalHole a)
        | .fault cause a => .next (s.doubleFault c (own cause a)))
      (fun bytes s => (s.resumed c bytes).deliver c) s

/-! ### The rendezvous (R213, R214) -/

/-- The synced bundle at which a cluster waits, and the syllable that waits there. -/
def ClusterState.meeting (k : ClusterState) : Option (Word × Word) :=
  match k.status with
  | .waiting (.rendezvous b w) => some (b, w)
  | _ => none

/-- The synced bundle at which a cluster waits. -/
def ClusterState.meets (k : ClusterState) : Option Word := k.meeting.map (·.1)

/-- The other clusters make a cluster that begins to wait at a bundle fail (R214). -/
def Core.mismatch (k : Core) (x : Cluster) (b : Word) : Bool :=
  clusterOrder.any fun y => y != x &&
    ((k.cl y).status == .halted || (match (k.cl y).meets with
      | some a => a != b
      | none => false))

/-- The executing cluster begins to wait at the synced bundle where it stands (R213, R214): a release at core scope
(R191). -/
def State.arrive (s : State) : Res :=
  let b := s.me.pc
  if !s.here.inHandler && s.here.mismatch s.actor.cl b then s.faultHere .rendezvousMismatch b
  else .next (s.releaseHere.block (.rendezvous b s.actor.syl))

end Sys2Proof.Machine
end

