-- ==== Sys2Proof/Machine/MemOps.lean ====
section
/-!
DEFINITION. The forms that the memory instructions share: loads into registers, stores, reads and writes of one piece,
and the waits of fences (R160 to R163, R188, R216, R368).
-/

namespace Sys2Proof.Machine

/-- The executing cluster as an agent. -/
def State.agentHere (s : State) : Agent := s.here.agent s.actor.core (.cluster s.actor.cl)

/-- The watched bytes of an access of the executing cluster are remembered (R328). -/
def State.noteHere (s : State) (kind : AccKind) (vas : List Word) : State :=
  s.noteWatch s.actor.core s.actor.cl (s.watchedByte s.agentHere kind vas)

/-- Every earlier access of the executing cluster is performed with respect to every agent, and with `all` every access of
its core's other clusters that it may have seen. -/
def State.settleHere (s : State) (all : Bool) : State := s.settleOne s.actor.core s.actor.cl all

/-- The executing cluster's access in the order of its core, at some bytes. -/
def State.actHere (s : State) (part : Part) (sc : Scope) (od : MemOrd) (ps : List Place) : Act :=
  ⟨s.actor.cl, s.free, sc, part, od, ps⟩

/-- The places that an access of the executing cluster passes its checks at. -/
def State.placesHere (s : State) (kind : AccKind) (acc : Accept) (vas : List Word) : List Place :=
  match s.checkAccess s.agentHere kind acc vas with
  | .ok ls => ls.map (·.place)
  | .error _ => []

/-- Before an access of the executing cluster that is performed in this step (R183, R188). -/
def State.orderHere (s : State) (part : Part) (sc : Scope) (od : MemOrd) (kind : AccKind) (acc : Accept) (vas : List Word) :
    State := s.order s.actor.core (s.actHere part sc od (s.placesHere kind acc vas))

/-- Before the executing cluster issues commands (R192): every earlier store of it is performed with respect to its core, and
what R183 orders before a store at core scope. -/
def State.orderIssue (s : State) : State :=
  (s.performDue s.actor.core s.actor.cl (·.write.isStore) []).order s.actor.core (s.actHere .store .core .relaxed [])

/-- Stores of a core's clusters and commands at peers have not been answered (R368): a release behind them waits (R188,
R205). -/
def State.storesOut (s : State) (c : CoreId) : Bool :=
  s.peers.any fun p => match p.use with
    | .store d _ => d == c
    | _ => false

/-- A release of the executing cluster, toward agents outside its core, has to wait for stores at peers. -/
def State.releaseWaits (s : State) (sc : Scope) : Bool := decide (Scope.core.code < sc.code) && s.storesOut s.actor.core

/-- A release of the executing cluster that is no access to memory, and then `m`: toward agents outside its core it waits for
stores at peers (R188, R281, R283, R285). -/
def releaseThen (sc : Scope) (m : State → Res) (s : State) : Res :=
  if s.releaseWaits sc then .next (s.block .stores) else m (s.releaseAt sc)

/-- In fixed-latency mode an access of the executing cluster may have exceeded its declared latency, a free choice: it is
counted, unless its bundle has been (R220, R329; assumption entry 16). -/
def State.countHere (s : State) : State := if Config.late s.free && !s.me.counted then s.setHere s.here.countLate else s

/-- How a load of the executing cluster completes: one whose bundle has been counted is not counted again (R220, R329). -/
def State.loadKind (s : State) : ResultKind := if s.me.counted then .resumed else .load

/-- A load that has been performed becomes pending for the executing cluster (R216). -/
def State.pend (s : State) (dest : LoadDest) (mf : MemFields) (pos : List Nat) (bytes : List Byte) : State :=
  s.pendHere ⟨dest, placeBytes (pos.zip bytes) 0, [], s.free, mf.sc, mf.od, mf.ev, .cluster, s.loadKind⟩

/-- How an access divides into pieces (R160): one piece, 16-byte pieces that sector boundaries divide, or 4-byte lanes. -/
inductive Cut where
  | whole | span | lanes
  deriving DecidableEq, Repr

/-- A piece begins at byte `i` of an access, at an address (R160). -/
def Cut.begins (k : Cut) (i : Nat) (va : Word) : Bool :=
  match k with
  | .whole => i == 0
  | .span => i % 16 == 0 || va.toNat % 32 == 0
  | .lanes => i % 4 == 0

/-- Bytes of an access, each with its number and its address, as pieces (R160). -/
def Cut.pieces {α : Type} (k : Cut) : List (Nat × Word × α) → List (List (Word × α))
  | [] => []
  | (_, va, a) :: r =>
    match r, k.pieces r with
    | [], _ => [[(va, a)]]
    | (j, vb, _) :: _, ps =>
      if k.begins j vb then [(va, a)] :: ps
      else match ps with
        | p :: qs => ((va, a) :: p) :: qs
        | [] => [[(va, a)]]

/-- The pieces of a list of bytes. -/
def Cut.split {α : Type} (k : Cut) (l : List (Word × α)) : List (List (Word × α)) := k.pieces (enumFrom0 l)

/-- No core's L1 has a poisoned copy of the sector of a byte. -/
def State.soundCopies (s : State) (pl : Place) : Bool :=
  match pl with
  | .hbm pa => s.l1Poison.all fun e => e.1 % 2 ^ 40 != pa / 32
  | _ => true

/-- A byte of an access may be performed late: it lies in device memory, host memory or a scratchpad, in no stash entry of an
SC page, and its sector is sound, in every L1 too, so that the checks of R161 still hold when it is performed. -/
def State.mayBeLate (s : State) (ag : Agent) (l : Loc) : Bool :=
  (l.stash.isNone || l.mode != .sc) && (s.poisonAt ag l).isNone && s.soundCopies l.place &&
    match l.place with
    | .peer _ => false
    | _ => true

/-- A piece of another core's store reaches bytes of the executing cluster's access: it is performed before them. -/
def State.reached (s : State) (ls : List Loc) : Bool :=
  s.cores.toList.any Core.reaches && allCores.any fun d => (s.core d).posted.any fun p =>
    p.reachesTo d s.agentHere && bytesMeet (ls.map (·.place)) (p.bytes.map (·.1))

/-- The places of an access that the executing cluster performs late (R183): its accesses are late, the access may be, none of
its bytes is held by a copy or gather command or lies in a row under self-test, and for a load no piece of another core has to
be seen by it. -/
def State.latePlaces (s : State) (kind : AccKind) (acc : Accept) (vas : List Word) : Option (List Loc) :=
  if !s.actor.late then none
  else match s.checkAccess s.agentHere kind acc vas with
    | .error _ => none
    | .ok ls =>
      if ls.all (s.mayBeLate s.agentHere) && (s.stall s.agentHere ls).isNone && (kind.writes || !s.reached ls) then some ls else none

/-- A load of bytes into places of a register: `slots` pairs each place with its address (R161, R163). Its register is
written when it completes (assumption entry 6). A load that is performed at once comes after the accesses that are ordered
before it, a peer's bytes awaited first; a late one is read piece by piece, at moments that a free choice names (assumption
entry 3). A sequentially consistent load is performed at once. `m` goes on. -/
def loadThen (dest : LoadDest) (cut : Cut) (mf : MemFields) (slots : List (Nat × Word)) (m : State → Res) (s0 : State) :
    Res :=
  let vas := slots.map (·.2)
  match if mf.od = .sc then none else s0.latePlaces .read .any vas with
  | some ls =>
    let pieces := (cut.split (vas.zip ((slots.map (·.1)).zip ls))).map fun p => ((p.head?.map (·.1)).getD 0, p.map (·.2))
    let s := s0.orderWrites s0.actor.core (s0.actHere .load mf.sc mf.od (ls.map (·.place)))
    m (((s.fillTlbs s.agentHere .read vas).pendHere
      ⟨dest, 0, pieces, s.free, mf.sc, mf.od, mf.ev, .cluster, s.loadKind⟩).noteHere .read vas)
  | none =>
    let s := s0.orderHere .load mf.sc mf.od .read .any vas
    readWith mf.ev s.agentHere vas (fun e s => s.accessErr e)
      (fun bytes s => m ((s.pend dest mf (slots.map (·.1)) bytes).noteHere .read vas)) s

/-- Peer runs of a store or reduction are sent (R368). -/
def State.sendPeers (s : State) (runs : List PeerRun) : State :=
  s.postPeers s.free (fun _ => .store s.actor.core (.cluster s.actor.cl)) true runs

/-- Writes that the executing cluster holds (R184). -/
def State.hold (s : State) (l : List Held) : State := s.setMe { s.me with held := s.me.held ++ l }

/-- The pieces of a store as the cluster holds them (R160): of several bytes at one address the last alone (R166). A
sequentially consistent store is one piece (R184). -/
def heldPieces (cut : Cut) (mf : MemFields) (ord : Nat) (ws : List (Word × Loc × Byte)) : List Held :=
  let last := (lastWrites ((enumFrom0 ws).map fun x => (x.1, x.2.1, x.2.2.1, x.2.2.2))).map (·.2)
  ((if mf.od = .sc then Cut.whole else cut).split last).map fun p =>
    ⟨ord, mf.sc, mf.od, mf.ev, (p.head?.map (·.1)).getD 0, .store (p.map (·.2))⟩

/-- A store of bytes (R161, R163). One that is performed at once comes after the accesses that are ordered before it. A late
one is held, piece by piece (R183, R184). A release waits for the core's stores at peers (R188, R205). -/
def storeThen (cut : Cut) (mf : MemFields) (ws : List (Word × Byte)) (m : State → Res) (s0 : State) : Res :=
  let vas := ws.map (·.1)
  if mf.od ≠ .relaxed ∧ s0.releaseWaits mf.sc = true then .next (s0.block .stores)
  else match s0.latePlaces .write .any vas with
  | some ls =>
    m ((((s0.fillTlbs s0.agentHere .write vas).hold
      (heldPieces cut mf s0.free (vas.zip (ls.zip (ws.map (·.2)))))).countHere).noteHere .write vas)
  | none =>
    let s := s0.orderHere .store mf.sc mf.od .write .any vas
    match s.store s.agentHere .any mf.ev ws with
    | .err e => s.accessErr e
    | .wait w => .next (s.block w)
    | .behind _ e => s.accessErr e
    | .ok s1 _ runs => m (((s1.sendPeers runs).countHere).noteHere .write vas)

/-- A load completes its bundle. -/
def loadInto (dest : LoadDest) (cut : Cut) (mf : MemFields) (slots : List (Nat × Word)) (s : State) : Res :=
  loadThen dest cut mf slots (fun t => .next t.complete) s

/-- A store completes its bundle. -/
def storeOut (cut : Cut) (mf : MemFields) (ws : List (Word × Byte)) (s : State) : Res :=
  storeThen cut mf ws (fun t => .next t.complete) s

/-- The alignment check of a list of addresses, lowest lane first (R161 step 1, R162). -/
def alignCheck (cause : Cause) (n : Nat) (vas : List Word) (m : State → Res) (s : State) : Res :=
  match vas.find? fun a => a.toNat % n ≠ 0 with
  | some a => s.faultHere cause a
  | none => m s

/-- Places and addresses of `n` consecutive bytes. -/
def spanSlots (va : Word) (n : Nat) : List (Nat × Word) := (List.range n).zip (vaBytes va n)

/-- Places and addresses of 4-byte lanes. -/
def laneSlots (lanes : List (Nat × Word)) : List (Nat × Word) :=
  lanes.flatMap fun x => (List.range 4).map fun b => (4 * x.1 + b, x.2 + BitVec.ofNat 64 b)

/-- The lane set of a list of lanes. -/
def laneSet (lanes : List (Nat × Word)) : BitVec 64 := lanes.foldl (fun m x => setBit m x.1 true) 0

/-- Addresses and bytes of lanes to store. -/
def laneBytes (v : Vec) (lanes : List (Nat × Word)) : List (Word × Byte) :=
  (laneSlots lanes).map fun x => (x.2, v.extractLsb' (8 * x.1) 8)

/-- A read and write of one piece by the executing cluster (R160, R171, R172): `old` is read, `f old` is written, and
`m` receives the state and the old value. A returning atomic comes after every earlier access of the cluster but reductions,
and is cumulative; a reduction after those that are ordered before it (R183, R188). -/
def rmwThen (acc : Accept) (sc : Scope) (ev : Evict) (va : Word) (bytes : Nat) (returning : Option SReg) (f : Nat → Nat)
    (operand : Nat) (s0 : State) : Res :=
  let vas := vaBytes va bytes
  if returning.isSome = true ∧ s0.releaseWaits sc = true then .next (s0.block .stores)
  else
  let s := s0.orderHere (if returning.isSome then .both else .reduction) sc .relaxed .atomic acc vas
  match s.rmw s.agentHere acc ev returning.isSome vas f with
  | .err e => s.accessErr e
  | .wait w => .next (s.block w)
  | .behind _ e => s.accessErr e
  | .ok s1 old runs =>
    let runs' := runs.map fun r => { r with data := leBytes bytes operand }
    let kind : AccKind := if returning.isSome then .atomic else .write
    match returning with
    | none => .next ((s1.countHere.noteHere kind vas).sendPeers runs').complete
    | some rd =>
      if runs.isEmpty then .next ((s1.countHere.noteHere kind vas).setS rd (BitVec.ofNat 64 (leNat old))).complete
      else match answersTo s.me.fetched s.me.failed runs with
        | .failed e => s.clearSent.accessErr e
        | _ =>
          let use (_ : List Nat) : PeerUse := .atomic s.actor.core s.actor.cl rd s.actor.syl
          .next (((s1.countHere.noteHere kind vas).postPeers s1.free use true runs').block .answer)

/-- A reduction by the executing cluster (R172, R190): applied in its own step, or held until a later one. -/
def reduceThen (op : Reduction) (sc : Scope) (ev : Evict) (va : Word) (wide : Bool) (operand : Nat) (s : State) : Res :=
  let vas := vaBytes va (atomBytes wide)
  match s.latePlaces .atomic .atomics vas with
  | some ls =>
    let h : Held := ⟨s.free, sc, .relaxed, ev, va, .reduce op (ls.map (·.place)) operand⟩
    .next (((s.fillTlbs s.agentHere .atomic vas).hold [h]).countHere.noteHere .write vas).complete
  | none => rmwThen .atomics sc ev va (atomBytes wide) none (fun old => op.apply wide old operand) operand s

/-- Reductions of a cluster have left it and have not all been applied (R174, R188). -/
def State.reductionsOutOf (s : State) (c : CoreId) (x : Cluster) : Bool :=
  let mine (m : RofMsg) : Bool := m.core == some c && m.cl == x
  s.rofSent.any mine || s.rofHeld.any mine || s.peers.any fun p => match p.use with
    | .store d y => d == c && y == .cluster x
    | .ordered d y _ _ => d == c && y == x
    | _ => false

/-- Reductions of the executing cluster have not all been applied. -/
def State.reductionsOut (s : State) : Bool := s.reductionsOutOf s.actor.core s.actor.cl

end Sys2Proof.Machine
end

