-- ==== Sys2Proof/Machine/MemInstr.lean ====
section
/-!
DEFINITION. Scalar and vector loads and stores, prefetch, order marks, fences, cache maintenance and retention
(R155, R164 to R169, R188).
-/

namespace Sys2Proof.Machine

/-! ### Scalar loads and stores (R164) -/

/-- A scalar load of `n` bytes. -/
def loadScalar (rd base : SReg) (mf : MemFields) (off : BitVec 24) (n : Nat) (signed : Bool) (s : State) : Res :=
  let va := s.addr base off
  alignCheck .misaligned n [va] (loadInto (.scalar rd n signed) .whole mf (spanSlots va n)) s

/-- A scalar store of the low `n` bytes of a register. -/
def storeScalar (rs base : SReg) (mf : MemFields) (off : BitVec 24) (n : Nat) (s : State) : Res :=
  let va := s.addr base off
  alignCheck .misaligned n [va] (storeOut .whole mf ((vaBytes va n).zip (leBytes n (s.getS rs).toNat))) s

/-- LDB (R164). -/
def execLdb (rd base : SReg) (mf : MemFields) (off : BitVec 24) (s : State) : Res := loadScalar rd base mf off 1 true s

/-- LDBU (R164). -/
def execLdbu (rd base : SReg) (mf : MemFields) (off : BitVec 24) (s : State) : Res :=
  loadScalar rd base mf off 1 false s

/-- LDH (R164). -/
def execLdh (rd base : SReg) (mf : MemFields) (off : BitVec 24) (s : State) : Res := loadScalar rd base mf off 2 true s

/-- LDHU (R164). -/
def execLdhu (rd base : SReg) (mf : MemFields) (off : BitVec 24) (s : State) : Res :=
  loadScalar rd base mf off 2 false s

/-- LDW (R164). -/
def execLdw (rd base : SReg) (mf : MemFields) (off : BitVec 24) (s : State) : Res := loadScalar rd base mf off 4 true s

/-- LDWU (R164). -/
def execLdwu (rd base : SReg) (mf : MemFields) (off : BitVec 24) (s : State) : Res :=
  loadScalar rd base mf off 4 false s

/-- LDD (R164). -/
def execLdd (rd base : SReg) (mf : MemFields) (off : BitVec 24) (s : State) : Res :=
  loadScalar rd base mf off 8 false s

/-- STB (R164). -/
def execStb (rs base : SReg) (mf : MemFields) (off : BitVec 24) (s : State) : Res := storeScalar rs base mf off 1 s

/-- STH (R164). -/
def execSth (rs base : SReg) (mf : MemFields) (off : BitVec 24) (s : State) : Res := storeScalar rs base mf off 2 s

/-- STW (R164). -/
def execStw (rs base : SReg) (mf : MemFields) (off : BitVec 24) (s : State) : Res := storeScalar rs base mf off 4 s

/-- STD (R164). -/
def execStd (rs base : SReg) (mf : MemFields) (off : BitVec 24) (s : State) : Res := storeScalar rs base mf off 8 s

/-! ### Vector loads and stores (R165, R166) -/

/-- The bytes of a size code (R165). -/
def VecSize.bytes : VecSize → Nat
  | .b16 => 16
  | .b32 => 32
  | .b64 => 64
  | .b128 => 128

/-- The lanes of the low `n` bytes of a register. -/
def lowLanes (n : Nat) : BitVec 64 := BitVec.ofNat 64 (2 ^ (n / 4) - 1)

/-- A contiguous vector load of `n` bytes. -/
def loadSpan (vd : VReg) (mf : MemFields) (va : Word) (n : Nat) (s : State) : Res :=
  alignCheck .misaligned 4 [va] (loadInto (.vector vd (lowLanes n)) .span mf (spanSlots va n)) s

/-- A contiguous vector store of the low `n` bytes of a register. -/
def storeSpan (vs : VReg) (mf : MemFields) (va : Word) (n : Nat) (s : State) : Res :=
  alignCheck .misaligned 4 [va] (storeOut .span mf ((vaBytes va n).zip (leBytes n (s.getV vs).toNat))) s

/-- VLD (R165). -/
def execVld (vd : VReg) (base : SReg) (mf : MemFields) (off : BitVec 24) (s : State) : Res :=
  loadSpan vd mf (s.addr base off) 256 s

/-- VLDN (R165). -/
def execVldn (vd : VReg) (base : SReg) (mf : MemFields) (size : VecSize) (off21 : BitVec 21) (s : State) : Res :=
  loadSpan vd mf (s.addr base off21) (VecSize.bytes size) s

/-- VST (R165). -/
def execVst (vs : VReg) (base : SReg) (mf : MemFields) (off : BitVec 24) (s : State) : Res :=
  storeSpan vs mf (s.addr base off) 256 s

/-- VSTN (R165). -/
def execVstn (vs : VReg) (base : SReg) (mf : MemFields) (size : VecSize) (off21 : BitVec 21) (s : State) : Res :=
  storeSpan vs mf (s.addr base off21) (VecSize.bytes size) s

/-- The lane addresses of a strided access (R166). -/
def strideLanes (base stride : Word) : List (Nat × Word) :=
  (List.range 64).map fun i => (i, base + BitVec.ofNat 64 i * stride)

/-- The lane addresses of an indexed access: a lane of vi that holds 0x8000_0000 is inactive (R166, R173). -/
def indexLanes (base : Word) (vi : Vec) : List (Nat × Word) :=
  (List.range 64).filterMap fun i =>
    let x : Half := vi.extractLsb' (32 * i) 32
    if x = 0x80000000 then none else some (i, base + sext64 x)

/-- A load of 4-byte lanes. -/
def loadLanes (vd : VReg) (mf : MemFields) (lanes : List (Nat × Word)) (s : State) : Res :=
  alignCheck .misaligned 4 (lanes.map (·.2)) (loadInto (.vector vd (laneSet lanes)) .lanes mf (laneSlots lanes)) s

/-- A store of 4-byte lanes: the highest-numbered lane at a word stands (R166). -/
def storeLanes (vs : VReg) (mf : MemFields) (lanes : List (Nat × Word)) (s : State) : Res :=
  alignCheck .misaligned 4 (lanes.map (·.2)) (storeOut .lanes mf (laneBytes (s.getV vs) lanes)) s

/-- VLDS (R166). -/
def execVlds (vd : VReg) (base stride : SReg) (mf : MemFields) (s : State) : Res :=
  loadLanes vd mf (strideLanes (s.getS base) (s.getS stride)) s

/-- VSTS (R166). -/
def execVsts (vs : VReg) (base stride : SReg) (mf : MemFields) (s : State) : Res :=
  storeLanes vs mf (strideLanes (s.getS base) (s.getS stride)) s

/-- VGTH (R166). -/
def execVgth (vd : VReg) (base : SReg) (vi : VReg) (mf : MemFields) (s : State) : Res :=
  loadLanes vd mf (indexLanes (s.getS base) (s.getV vi)) s

/-- VSCT (R166). -/
def execVsct (vs : VReg) (base : SReg) (vi : VReg) (mf : MemFields) (s : State) : Res :=
  storeLanes vs mf (indexLanes (s.getS base) (s.getV vi)) s

/-! ### Prefetch, order marks and fences (R167, R168, R187, R188) -/

/-- PREF (R167): changes only timing. -/
def execPref (_base : SReg) (_sc : Scope) (_ev : Evict) (_off : BitVec 24) (s : State) : Res := .next s.complete

/-- MARK (R168, R187): every access of the cluster before it is performed before any after it, toward the agents within its
scope, ordered reductions that have left the cluster included; it is not cumulative. -/
def execMark (s : State) : Res :=
  let s1 := s.markCl s.actor.core s.actor.cl
  if s.reductionsOut then .next (s1.block .reductions) else .next s1.complete

/-- FENCE (R168, R188): accesses in the column before it are performed, toward the agents within its scope, before any after
it. A release or sequentially consistent fence waits until the cluster's reductions are applied and the core's stores at peers
are answered, and is cumulative. -/
def execFence (od : MemOrd) (sc : Scope) (s : State) : Res :=
  if od = .acquire then .next (s.readDue s.actor.core s.actor.cl everyPiece []).complete
  else
    let s1 := s.fenceCl s.actor.core s.actor.cl sc
    if s.reductionsOut then .next (s1.block .reductions)
    else if s.releaseWaits sc then .next (s1.block .stores)
    else .next s1.complete

/-! ### Cache maintenance (R169, R197) -/

/-- Where the 4 KiB block at an address lies, when it is a block of device or host memory: its page's mode and its first
byte. -/
def State.blockPlace (s : State) (block : Word) : Option (PageMode × Place) :=
  match regionOf block, s.leaf s.agentHere .read block with
  | .translated, .ok (e, level) | .supervisor, .ok (e, level) =>
    let a := e.toNat / 2 ^ 16 % 2 ^ 36 * 2 ^ 16 + block.toNat % 2 ^ leafBits level
    match e.toNat / 2 ^ 8 % 4 with
    | 0 => some (leafMode e, .hbm a)
    | 1 => some (leafMode e, .host a)
    | _ => none
  | _, _ => none

/-- The executing context's L1 copies in the 4 KiB block at an address: those of an SC page, and those that a CP page was
left from (R169, R198). -/
def State.blockKeys (s : State) (block : Word) : List Nat :=
  match s.blockPlace block with
  | some (.hc, _) => []
  | some (_, .hbm a) => (List.range 128).map fun i => lineKey s.agentHere.ctx false (a / 32 + i)
  | some (_, .host a) => (List.range 128).map fun i => lineKey s.agentHere.ctx true (a / 32 + i)
  | _ => []

/-- A place lies in the 4 KiB block that begins at another. -/
def inBlock (first : Option Place) (pl : Place) : Bool :=
  match first, pl with
  | some (.hbm a), .hbm b => b / 4096 == a / 4096
  | some (.host a), .host b => b / 4096 == a / 4096
  | _, _ => false

/-- CWB and CINV: the faults of steps 2 to 4 of R161 on the block, and then each copy is maintained. They count as stores to
every granule of the block (R183): the cluster's accesses to it, and those that are ordered before a store, come first. -/
def maintain (base : SReg) (sc : Scope) (off : BitVec 24) (f : State → CoreId → Nat → State) (s0 : State) : Res :=
  let block := s0.addr base off &&& ~~~4095
  let c := s0.actor.core
  let x := s0.actor.cl
  let first := (s0.blockPlace block).map (·.2)
  let y := s0.actHere .store sc .relaxed []
  let s1 := (s0.performDue c x (fun h => h.write.places.any (inBlock first)) [y]).readDue c x (fun _ ps => ps.any (inBlock first)) [y]
  let s := s1.settlePosted c (fun _ => false) noRaise [y]
  match s.checkEarly s.agentHere .write [block] with
  | some e => s.accessErr e
  | none => .next ((s.blockKeys block).foldl (fun st key => f st c key) s).complete

/-- CWB (R169): with system scope the L2's copies of host memory are written back too. -/
def execCwb (base : SReg) (sc : Scope) (off : BitVec 24) (s : State) : Res :=
  maintain base sc off (fun st c key => if sc = .system then (st.writeBackLine c key).writeBackL2 key else st.writeBackLine c key) s

/-- CINV (R169): with system scope the L2's copies of host memory are removed too. -/
def execCinv (base : SReg) (sc : Scope) (off : BitVec 24) (s : State) : Res :=
  maintain base sc off (fun st c key => if sc = .system then (st.evictLine c key).evictL2 key else st.evictLine c key) s

/-! ### Retention (R155) -/

/-- RETAIN (R155): all ones when no register of the polder is free or the ways would exceed 16. -/
def execRetain (rd ra rb : SReg) (ways : BitVec 5) (s : State) : Res :=
  let base := s.getS ra
  let size := s.getS rb
  if base.toNat % 65536 ≠ 0 then s.faultHere .misaligned base
  else if size.toNat % 65536 ≠ 0 ∨ size = 0 then s.faultHere .misaligned size
  else
    let p := s.here.polderNo
    let d := s.die s.actor.core
    let mine := d.retention.filter (·.polder = p)
    let free := (List.range 8).filter fun i => !mine.any (·.index = i)
    if free.isEmpty ∨ (mine.map (·.ways)).sum + ways.toNat > 16 then
      .next (s.setS rd (BitVec.allOnes 64)).complete
    else
      let i := free.getD (Config.retainIndex s.free % free.length) 0
      let d1 := { d with retention := d.retention ++ [⟨p, i, base, size, ways.toNat⟩] }
      .next ((s.setDie s.actor.core d1).setS rd (BitVec.ofNat 64 i)).complete

/-- UNPIN (R155). -/
def execUnpin (ra : SReg) (s : State) : Res :=
  let d := s.die s.actor.core
  let p := s.here.polderNo
  let keep (r : Retention) : Bool := !(r.polder == p && r.index == (s.getS ra).toNat)
  .next (s.setDie s.actor.core { d with retention := d.retention.filter keep }).complete

end Sys2Proof.Machine
end

