-- ==== Sys2Proof/Machine/Atomics.lean ====
section
/-!
DEFINITION. Atomics, reductions, the ordered reduction's issue, and monitor wait (R170 to R174, R177).
-/

namespace Sys2Proof.Machine

/-- A returning atomic (R162, R171): `f old b` is written, s[rd] receives the old value. -/
def atomic (f : Nat → Nat → Nat) (rd base rb : SReg) (sc : Scope) (ev : Evict) (wide : Bool) (off18 : BitVec 18) (s : State) : Res :=
  s.guarded false true fun s =>
    let va := s.addr base off18
    let b := atomOperand wide (s.getS rb)
    alignCheck .atomicPage (atomBytes wide) [va]
      (rmwThen .atomics sc ev va (atomBytes wide) (some rd) (fun old => f old b) b) s

/-- AADD (R171). -/
def execAadd (rd base rb : SReg) (sc : Scope) (ev : Evict) (wide : Bool) (off18 : BitVec 18) (s : State) : Res :=
  atomic (fun o b => o + b) rd base rb sc ev wide off18 s

/-- AAND (R171). -/
def execAand (rd base rb : SReg) (sc : Scope) (ev : Evict) (wide : Bool) (off18 : BitVec 18) (s : State) : Res :=
  atomic (fun o b => o &&& b) rd base rb sc ev wide off18 s

/-- AOR (R171). -/
def execAor (rd base rb : SReg) (sc : Scope) (ev : Evict) (wide : Bool) (off18 : BitVec 18) (s : State) : Res :=
  atomic (fun o b => o ||| b) rd base rb sc ev wide off18 s

/-- AXOR (R171). -/
def execAxor (rd base rb : SReg) (sc : Scope) (ev : Evict) (wide : Bool) (off18 : BitVec 18) (s : State) : Res :=
  atomic (fun o b => o ^^^ b) rd base rb sc ev wide off18 s

/-- AMIN (R171). -/
def execAmin (rd base rb : SReg) (sc : Scope) (ev : Evict) (wide : Bool) (off18 : BitVec 18) (s : State) : Res :=
  atomic (atomMin wide) rd base rb sc ev wide off18 s

/-- AMAX (R171). -/
def execAmax (rd base rb : SReg) (sc : Scope) (ev : Evict) (wide : Bool) (off18 : BitVec 18) (s : State) : Res :=
  atomic (atomMax wide) rd base rb sc ev wide off18 s

/-- AMINU (R171). -/
def execAminu (rd base rb : SReg) (sc : Scope) (ev : Evict) (wide : Bool) (off18 : BitVec 18) (s : State) : Res :=
  atomic Nat.min rd base rb sc ev wide off18 s

/-- AMAXU (R171). -/
def execAmaxu (rd base rb : SReg) (sc : Scope) (ev : Evict) (wide : Bool) (off18 : BitVec 18) (s : State) : Res :=
  atomic Nat.max rd base rb sc ev wide off18 s

/-- ASWP (R171). -/
def execAswp (rd base rb : SReg) (sc : Scope) (ev : Evict) (wide : Bool) (off18 : BitVec 18) (s : State) : Res :=
  atomic (fun _ b => b) rd base rb sc ev wide off18 s

/-- ACAS (R171): a failing one writes the old value back. -/
def execAcas (rd base rb rc : SReg) (sc : Scope) (ev : Evict) (wide : Bool) (off18 : BitVec 18) (s : State) : Res :=
  atomic (fun o b => if o = atomOperand wide (s.getS rc) then b else o) rd base rb sc ev wide off18 s

/-- A non-returning reduction (R162, R172): applied at once, or later when the access is late (R190). -/
def reduction (op : Reduction) (base rb : SReg) (sc : Scope) (ev : Evict) (wide : Bool) (off18 : BitVec 18) (s : State) :
    Res :=
  s.guarded false true fun s =>
    let va := s.addr base off18
    alignCheck .atomicPage (atomBytes wide) [va] (reduceThen op sc ev va wide (atomOperand wide (s.getS rb))) s

/-- RADD (R172). -/
def execRadd (base rb : SReg) (sc : Scope) (ev : Evict) (wide : Bool) (off18 : BitVec 18) (s : State) : Res :=
  reduction .add base rb sc ev wide off18 s

/-- RFADD (R172). -/
def execRfadd (base rb : SReg) (sc : Scope) (ev : Evict) (off18 : BitVec 18) (s : State) : Res :=
  reduction .fadd base rb sc ev false off18 s

/-- RMIN (R172). -/
def execRmin (base rb : SReg) (sc : Scope) (ev : Evict) (wide : Bool) (off18 : BitVec 18) (s : State) : Res :=
  reduction .min base rb sc ev wide off18 s

/-- RMAX (R172). -/
def execRmax (base rb : SReg) (sc : Scope) (ev : Evict) (wide : Bool) (off18 : BitVec 18) (s : State) : Res :=
  reduction .max base rb sc ev wide off18 s

/-! ### VREDM (R173) -/

/-- One lane of a VREDM applied at places already checked. -/
def State.applyLane (s : State) (ev : Evict) (va : Word) (ls : List Loc) (x : Nat) : State :=
  let r := s.rmwAt s.agentHere ev (vaBytes va 4) ls (fun old => addF32 old x)
  r.1.sendPeers (r.2.2.map fun p => { p with data := leBytes 4 x })

/-- The lanes of a VREDM applied in ascending order; `ls` holds four places a lane. -/
def State.applyLanes (s : State) (ev : Evict) (v : Vec) : List (Nat × Word) → List Loc → State
  | [], _ => s
  | (i, va) :: r, ls =>
    (s.applyLane ev va (ls.take 4) (v.toNat / 2 ^ (32 * i) % 2 ^ 32)).applyLanes ev v r (ls.drop 4)

/-- The lanes of a VREDM as reductions that the cluster holds; `ls` holds four places a lane. -/
def laneHeld (ord : Nat) (sc : Scope) (ev : Evict) (v : Vec) : List (Nat × Word) → List Loc → List Held
  | [], _ => []
  | (i, va) :: r, ls =>
    ⟨ord, sc, .relaxed, ev, va, .reduce .fadd ((ls.take 4).map (·.place)) (v.toNat / 2 ^ (32 * i) % 2 ^ 32)⟩ ::
      laneHeld ord sc ev v r (ls.drop 4)

/-- VREDM (R173): every check of every lane is made before any lane is applied; the lanes are applied in this step, or held
until later ones (R190). -/
def execVredm (vs : VReg) (base : SReg) (vi : VReg) (sc : Scope) (ev : Evict) (s : State) : Res :=
  s.guarded false true fun s =>
    let lanes := indexLanes (s.getS base) (s.getV vi)
    let vas := (laneSlots lanes).map (·.2)
    alignCheck .atomicPage 4 (lanes.map (·.2)) (fun s0 =>
      match s0.latePlaces .atomic .atomics vas with
      | some ls =>
        .next ((((s0.fillTlbs s0.agentHere .atomic vas).hold (laneHeld s0.free sc ev (s0.getV vs) lanes ls)).countHere).noteHere
          .write vas).complete
      | none =>
        let s := s0.orderHere .reduction sc .relaxed .atomic .atomics vas
        match s.checkAccess s.agentHere .atomic .atomics vas with
        | .error e => s.accessErr e
        | .ok ls =>
          match s.stall s.agentHere ls with
          | some w => .next (s.block w)
          | none => .next (((s.applyLanes ev (s.getV vs) lanes ls).countHere).noteHere .write vas).complete) s

/-! ### ROFADD (R174) -/

/-- The place of an access's first byte. -/
def firstPlace (ls : List Loc) : Option Place := ls.head?.map Loc.place

/-- ROFADD (R174): the message leaves for the home slice of the pair, or for the peer that holds it, after the accesses that
are ordered before it. -/
def execRofadd (base rb rc : SReg) (sc : Scope) (_ev : Evict) (off18 : BitVec 18) (s : State) : Res :=
  s.guarded false true fun s =>
    let va := s.addr base off18
    let x : Half := (s.getS rb).setWidth 32
    let n : Half := (s.getS rc).setWidth 32
    alignCheck .atomicPage 8 [va] (fun s0 =>
      let vas := vaBytes va 8
      let s := s0.orderHere .reduction sc .relaxed .atomic .ordered vas
      match s.checkAccess s.agentHere .atomic .ordered vas with
      | .error e => s.accessErr e
      | .ok ls =>
        match s.stall s.agentHere ls with
        | some w => .next (s.block w)
        | none =>
          let s1 := ((s.fillTlbs s.agentHere .atomic vas).countHere).noteHere .write vas
          match firstPlace ls with
          | some (.hbm pa) =>
            let m : RofMsg := ⟨pa, n, x, some s.actor.core, s.actor.cl, s.agentHere.ctx, s.agentHere.polder, va,
              s.actor.syl, false⟩
            .next (State.complete { s1 with rofSent := s1.rofSent ++ [m] })
          | some (.peer a) =>
            let use (_ : List Nat) : PeerUse := .ordered s.actor.core s.actor.cl s.actor.syl s.agentHere.ctx
            let run : PeerRun := ⟨a, va, List.range 8, leBytes 4 x.toNat ++ leBytes 4 n.toNat⟩
            .next (s1.postPeers s.free use true [run]).complete
          | _ => .next s1.complete) s

/-! ### MWAIT (R177) -/

/-- A monitor of a cluster. -/
def State.monitorOf (s : State) (c : CoreId) (x : Cluster) : Option Monitor :=
  s.monitors.find? fun m => m.core == c && m.cl == x

/-- A cluster's monitor is disarmed. -/
def State.disarm (s : State) (c : CoreId) (x : Cluster) : State :=
  { s with monitors := s.monitors.filter fun m => !(m.core == c && m.cl == x) }

/-- A cluster's monitor is armed on a granule of device memory. -/
def State.arm (s : State) (c : CoreId) (x : Cluster) (granule : Nat) : State :=
  { s.disarm c x with monitors := (s.disarm c x).monitors ++ [⟨c, x, granule, false⟩] }

/-- A cluster's monitor has fired. -/
def State.fired (s : State) (c : CoreId) (x : Cluster) : Bool := ((s.monitorOf c x).map (·.fired)).getD false

/-- The granule of device memory of an access's first byte. -/
def granuleOf (ls : List Loc) : Nat :=
  match firstPlace ls with
  | some (.hbm pa) => pa / 32
  | _ => 0

/-- MWAIT (R177): reads and arms in one step; with the expected value it sleeps until the monitor fires, and then
reads again and returns. Its read is sequentially consistent (R183). -/
def execMwait (rd base rb : SReg) (sc : Scope) (ev : Evict) (wide : Bool) (off18 : BitVec 18) (s : State) : Res :=
  s.guarded false true fun s =>
    let va := s.addr base off18
    let vas := vaBytes va (atomBytes wide)
    let c := s.actor.core
    let x := s.actor.cl
    alignCheck .monitorPage (atomBytes wide) [va] (fun s0 =>
      let s := s0.orderHere .load sc .sc .read .monitor vas
      match s.checkAccess s.agentHere .read .monitor vas, s.load s.agentHere .monitor ev vas with
      | .ok ls, .ok s1 bytes _ =>
        if s.fired c x || leNat bytes != atomOperand wide (s.getS rb) then
          .next (((s1.countHere.noteHere .read vas).disarm c x).setS rd (BitVec.ofNat 64 (leNat bytes))).complete
        else .next ((s1.arm c x (granuleOf ls)).block .monitor)
      | _, .err e => s.accessErr e
      | _, .behind _ e => s.accessErr e
      | _, .wait w => .next (s.block w)
      | .error e, _ => s.accessErr e) s

end Sys2Proof.Machine
end

