-- ==== Sys2Proof/Machine/Barrier.lean ====
section
/-!
DEFINITION. Barrier objects: BARINIT, BARRIVE and BARWAIT (R287 to R289).
-/

namespace Sys2Proof.Machine

/-- A barrier object (R287): its 32 bytes as a number. -/
structure BarrierObj where
  expected : Nat
  phase    : Nat
  current  : Nat
  early    : Nat
  rest     : Nat
  deriving DecidableEq, Repr

/-- The object of 32 bytes. -/
def barrierOf (bytes : List Byte) : BarrierObj :=
  let n := leNat bytes
  ⟨n % 2 ^ 32, n / 2 ^ 32 % 2 ^ 32, n / 2 ^ 64 % 2 ^ 32, n / 2 ^ 96 % 2 ^ 32, n / 2 ^ 128⟩

/-- The 32 bytes of an object. -/
def BarrierObj.bytes (o : BarrierObj) : Nat :=
  o.expected + o.phase * 2 ^ 32 + o.current * 2 ^ 64 + o.early * 2 ^ 96 + o.rest * 2 ^ 128

/-- The object is valid (R287). -/
def BarrierObj.valid (o : BarrierObj) : Bool :=
  decide (1 ≤ o.expected ∧ o.current < o.expected ∧ o.early ≤ o.expected ∧ o.phase < 2) && o.rest == 0

/-- A phase completes when its arrivals reach the number expected (R288). -/
def BarrierObj.completePhase (o : BarrierObj) : BarrierObj :=
  if o.current = o.expected then { o with phase := 1 - o.phase, current := o.early, early := 0 } else o

/-- An arrival of phase `phi`, on a valid object (R288): the object and the result, none for an over-arrival. -/
def BarrierObj.arrive (o : BarrierObj) (phi : Nat) : Option (BarrierObj × Nat) :=
  if phi = o.phase then
    let o1 := { o with current := o.current + 1 }
    let o2 := o1.completePhase.completePhase
    some (o2, o2.phase + (if o1.current = o1.expected then 2 else 0))
  else if o.early = o.expected then none
  else some ({ o with early := o.early + 1 }, o.phase + 4)

/-- The object at an address, with its places: the checks of R161 and R288 for a read and write, and the poison of a
returning atomic (R330). `part` is what the access is to the order of its cluster (R289). -/
def barrierAt (part : Part) (sc : Scope) (kind : AccKind) (va : Word) (m : List Loc → BarrierObj → State → Res) (s : State) : Res :=
  alignCheck .barrierObject 32 [va] (fun s0 =>
    let vas := vaBytes va 32
    let s := (s0.orderHere part sc .acquire kind .barrier vas)
    match s.checkAccess s.agentHere kind .barrier vas with
    | .error e => s.accessErr e
    | .ok ls =>
      match s.poisonErr s.agentHere (vas.zip ls), s.stall s.agentHere ls with
      | some e, _ => s.accessErr e
      | none, some w => .next (s.block w)
      | none, none =>
        let s1 := s.landReaching s.agentHere (ls.map (·.place))
        m ls (barrierOf (ls.map (s1.readLoc s1.agentHere))) s1) s

/-- The object written whole, in one piece. -/
def State.writeBarrier (s : State) (ev : Evict) (va : Word) (ls : List Loc) (o : BarrierObj) : State :=
  (s.rmwAt s.agentHere ev (vaBytes va 32) ls fun _ => o.bytes).1.countHere.noteHere .atomic (vaBytes va 32)

/-- An arrival or a new object is a returning atomic (R289): as a release it waits for the core's stores at peers. -/
def arrivalAt (sc : Scope) (va : Word) (m : List Loc → BarrierObj → State → Res) (s : State) : Res :=
  if s.releaseWaits sc then .next (s.block .stores) else barrierAt .both sc .atomic va m s

/-- BARINIT (R288). -/
def execBarinit (base rb : SReg) (sc : Scope) (ev : Evict) (off18 : BitVec 18) (s : State) : Res :=
  s.guarded true true fun s =>
    let va := s.addr base off18
    let n := (s.getS rb).toNat % 2 ^ 32
    alignCheck .barrierObject 32 [va] (fun s0 =>
      if s0.releaseWaits sc then .next (s0.block .stores)
      else
      let s := s0.orderHere .both sc .relaxed .atomic .barrier (vaBytes va 32)
      match s.checkAccess s.agentHere .atomic .barrier (vaBytes va 32) with
      | .error e => s.accessErr e
      | .ok ls =>
        if n = 0 then s.faultHere .barrierObject va
        else match s.stall s.agentHere ls with
        | some w => .next (s.block w)
        | none => .next (s.writeBarrier ev va ls ⟨n, 0, 0, 0, 0⟩).complete) s

/-- BARRIVE (R288). -/
def execBarrive (rd base rb : SReg) (sc : Scope) (ev : Evict) (off18 : BitVec 18) (s : State) : Res :=
  s.guarded true true fun s =>
    let va := s.addr base off18
    let phi := (s.getS rb).toNat % 2
    arrivalAt sc va (fun ls o s =>
      if !o.valid then s.faultHere .barrierObject va
      else match o.arrive phi with
        | none => s.faultHere .barrierOverArrival va
        | some (o1, r) => .next ((s.writeBarrier ev va ls o1).setS rd (BitVec.ofNat 64 r)).complete) s

/-- BARWAIT (R288): arms the cluster's monitor and reads the phase in one step, and sleeps while it is s[rb]'s; when the
monitor has fired, it reads again. -/
def execBarwait (base rb : SReg) (sc : Scope) (_ev : Evict) (off18 : BitVec 18) (s : State) : Res :=
  s.guarded true true fun s =>
    let va := s.addr base off18
    let c := s.actor.core
    let x := s.actor.cl
    barrierAt .load sc .read va (fun ls o s =>
      if !o.valid && (s.monitorOf c x).isNone then s.faultHere .barrierObject va
      else if o.phase % 2 = (s.getS rb).toNat % 2 then .next ((s.arm c x (granuleOf ls)).block .monitor)
      else .next ((s.countHere.noteHere .read (vaBytes va 32)).disarm c x).complete) s

end Sys2Proof.Machine
end

