-- ==== Sys2Proof/WellFormed.lean ====
section
/-!
DEFINITION. Which operand values an instruction accepts: the reserved values of R20 and the register
ranges of R19, one arm for each constructor. Decoding applies these same checks (Decode.lean).
-/

namespace Sys2Proof

/-- Width in bits of an element of the type (R105, R61). -/
def ElemType.width : ElemType → Nat
  | .i8 | .n8 => 8
  | .i16 | .n16 | .f16 | .bf16 => 16
  | .i32 | .n32 | .f32 | .rw30 => 32
  | .i64 | .n64 => 64

/-- The group INT of the vector instructions: codes 0 to 5 (R107). -/
def ElemType.isInt : ElemType → Bool
  | .i8 | .n8 | .i16 | .n16 | .i32 | .n32 => true
  | _ => false

/-- The group FP: codes 8 to 10 (R107). -/
def ElemType.isFp : ElemType → Bool
  | .f32 | .f16 | .bf16 => true
  | _ => false

/-- The groups INT, FP and RW together: every type but I64 and N64 (R105, R107). -/
def ElemType.isVec : ElemType → Bool
  | .i64 | .n64 => false
  | _ => true

/-- The types that VCMP and VSCAN accept (R116, R123). -/
def ElemType.isCmp : ElemType → Bool
  | .i32 | .n32 | .f32 => true
  | _ => false

/-- A nonzero rounding field needs an FP type (R107). -/
def roundOk (ty : ElemType) (rm : Rounding) : Bool := rm == .rne || ty.isFp

/-- Types INT and FP, with a rounding field that the type accepts (R107, R110). -/
def intFpOk (ty : ElemType) (rm : Rounding) : Bool := (ty.isInt || ty.isFp) && roundOk ty rm

/-- Orderings a load accepts (R158). -/
def MemOrd.loadOk : MemOrd → Bool
  | .release => false
  | _ => true

/-- Orderings a store accepts (R158). -/
def MemOrd.storeOk : MemOrd → Bool
  | .acquire => false
  | _ => true

/-- Orderings a FENCE accepts (R158). -/
def MemOrd.fenceOk : MemOrd → Bool
  | .relaxed => false
  | _ => true

/-- A SIGNAL byte is 0 or names a flag other than f0 with bit 7 set (R31). -/
def signalOk (b : BitVec 8) : Bool := b == 0 || (b.getLsbD 7 && b != 0x80)

/-- A vector register number within v0 to v1535 (R19). -/
def vregOk (v : VReg) : Bool := v.toNat < 1536

/-- An accumulator number within acc0 to acc5 (R19). -/
def accOk (a : AccReg) : Bool := a.toNat < 6

/-- A core number of the package (R6). -/
def coreOk (c : Nat) : Bool := c < 256

/-- A polder number (R349). -/
def polderOk (p : Nat) : Bool := p < 64

/-- A virtual function number (R362). -/
def vfOk (v : Nat) : Bool := 1 ≤ v && v < 64

/-- No field holds a reserved value (R20); a failure is RESERVED_FIELD. -/
def Instr.reservedOk : Instr → Bool
  | .extr _ _ len pos => 1 <= len.toNat && len.toNat <= 64 && pos.toNat + len.toNat <= 64
  | .extru _ _ len pos => 1 <= len.toNat && len.toNat <= 64 && pos.toNat + len.toNat <= 64
  | .insr _ _ _ len pos => 1 <= len.toNat && len.toNat <= 64 && pos.toNat + len.toNat <= 64
  | .loop _ endOff => endOff != 0
  | .loopi endOff _ => endOff != 0
  | .loopt _ endOff => endOff != 0
  | .brq q _ => 12 <= q.toNat
  | .qpush q _ => 12 <= q.toNat
  | .qpop q _ => 12 <= q.toNat
  | .qpeek q _ => 12 <= q.toNat
  | .qtry q _ _ => 12 <= q.toNat
  | .qpushp q _ => 12 <= q.toNat
  | .vqpush q _ => q.toNat < 12
  | .vqpop q _ => q.toNat < 12
  | .fwait fl => fl != 0
  | .fsig fl => fl != 0
  | .fread _ fl => fl != 0
  | .ldb _ _ mf _ => mf.od.loadOk
  | .ldbu _ _ mf _ => mf.od.loadOk
  | .ldh _ _ mf _ => mf.od.loadOk
  | .ldhu _ _ mf _ => mf.od.loadOk
  | .ldw _ _ mf _ => mf.od.loadOk
  | .ldwu _ _ mf _ => mf.od.loadOk
  | .ldd _ _ mf _ => mf.od.loadOk
  | .stb _ _ mf _ => mf.od.storeOk
  | .sth _ _ mf _ => mf.od.storeOk
  | .stw _ _ mf _ => mf.od.storeOk
  | .std _ _ mf _ => mf.od.storeOk
  | .vld _ _ mf _ => mf.od.loadOk
  | .vldn _ _ mf _ _ => mf.od.loadOk
  | .vst _ _ mf _ => mf.od.storeOk
  | .vstn _ _ mf _ _ => mf.od.storeOk
  | .vlds _ _ _ mf => mf.od.loadOk
  | .vsts _ _ _ mf => mf.od.storeOk
  | .vgth _ _ _ mf => mf.od.loadOk
  | .vsct _ _ _ mf => mf.od.storeOk
  | .fence od _ => od.fenceOk
  | .retain _ _ _ ways => 1 <= ways.toNat && ways.toNat <= 16
  | .wfill n13 _ => 1 <= n13.toNat && n13.toNat <= 4096
  | .wfree n13 _ => 1 <= n13.toNat && n13.toNat <= 4096
  | .claim _ n13 _ => 1 <= n13.toNat && n13.toNat <= 4096
  | .publ n13 _ => 1 <= n13.toNat && n13.toNat <= 4096
  | .popt n13 _ => 1 <= n13.toNat && n13.toNat <= 4096
  | .mma _ eo _ _ _ _ _ _ => signalOk eo.signal
  | .mret _ eo _ stO _ oe => signalOk eo.signal && (oe || stO == 0)
  | .mzero _ eo _ => signalOk eo.signal
  | .cpin _ eo _ stC ce _ => signalOk eo.signal && (ce || stC == 0)
  | .cpout _ eo _ stC ce _ => signalOk eo.signal && (ce || stC == 0)
  | .cpred _ eo _ stC ce _ _ => signalOk eo.signal && (ce || stC == 0)
  | .cpstr _ eo _ stC ce _ => signalOk eo.signal && (ce || stC == 0)
  | .gath _ eo stS _ stO stC ce => signalOk eo.signal && (ce || stC == 0) && stS.toNat <= 29 && stO.toNat <= 30
  | .topk _ eo _ _ _ _ _ => signalOk eo.signal
  | .notify _ eng eo mask5 _ => signalOk eo.signal && mask5.getLsbD eng.code
  | .gfence mask5 => mask5 != 0
  | .eseq _ _ sel2 => sel2 != 3
  | .bpref mask5 _ => mask5 != 0
  | .vadd _ _ _ _ ty rm => intFpOk ty rm
  | .vsub _ _ _ _ ty rm => intFpOk ty rm
  | .vmul _ _ _ _ ty rm => intFpOk ty rm
  | .vmin _ _ _ _ ty rm => intFpOk ty rm
  | .vmax _ _ _ _ ty rm => intFpOk ty rm
  | .vabs _ _ _ ty rm => intFpOk ty rm
  | .vneg _ _ _ ty rm => intFpOk ty rm
  | .vshl _ _ vb _ ty imm1 amt => ty.isInt && (if imm1 then vb == 0 && decide (amt.toNat < ty.width) else amt == 0)
  | .vshr _ _ vb _ ty imm1 amt => ty.isInt && (if imm1 then vb == 0 && decide (amt.toNat < ty.width) else amt == 0)
  | .vsar _ _ vb _ ty imm1 amt => ty.isInt && (if imm1 then vb == 0 && decide (amt.toNat < ty.width) else amt == 0)
  | .vcmp _ _ _ _ ty _ => ty.isCmp
  | .vbcast _ _ _ ty => ty.isVec
  | .vext _ _ ty j => ty.isVec && decide (j.toNat < 2048 / ty.width)
  | .vins _ _ ty j => ty.isVec && decide (j.toNat < 2048 / ty.width)
  | .viota _ _ ty => ty.isInt
  | .vrsum _ _ _ ty rm => ty.isVec && roundOk ty rm
  | .vrmax _ _ _ ty rm => intFpOk ty rm
  | .vrmin _ _ _ ty rm => intFpOk ty rm
  | .vscan _ _ _ ty rm => ty.isCmp && roundOk ty rm
  | .vdiv _ _ _ _ ty rm => intFpOk ty rm
  | .vsqrt _ _ _ ty _ => ty.isFp
  | .vrcp _ _ _ ty _ => ty.isFp
  | .vrsqrt _ _ _ ty _ => ty.isFp
  | .vexp2 _ _ _ ty _ => ty.isFp
  | .vlog2 _ _ _ ty _ => ty.isFp
  | .vtanh _ _ _ ty _ => ty.isFp
  | .vrnd _ _ _ ty _ => ty.isFp
  | .vadds _ _ _ _ ty => ty.isInt || ty.isFp
  | .vmuls _ _ _ _ ty => ty.isInt || ty.isFp
  | .vcvt _ _ _ ty rm src => ty.isVec && src.isVec && ty.width == src.width && (rm == .rne || ty.isFp || src.isFp)
  | .vpack _ _ _ _ ty rm src => ty.isVec && src.isVec && src.width == 2 * ty.width && (rm == .rne || ty.isFp || src.isFp)
  | .vunpk _ _ _ ty rm _ src => ty.isVec && src.isVec && ty.width == 2 * src.width && (rm == .rne || ty.isFp || src.isFp)
  | .vzenc _ _ _ ty p2 => ty.isInt && decide (p2.toNat < 32 / ty.width)
  | .vzdec _ _ _ ty rm k6 => ty == .f32 || (ty == .i32 && k6 == 0 && rm == .rne)
  | .vscale _ _ _ _ ty _ => ty.isFp
  | .vquant _ _ _ _ _ rn4 p3 => rn4 || decide (p3.toNat < 4)
  | .nop | .add _ _ _ | .sub _ _ _ | .mul _ _ _ | .mulh _ _ _ | .mulhu _ _ _ | .div _ _ _ | .divu _ _ _ 
  | .rem _ _ _ | .remu _ _ _ | .and _ _ _ | .or _ _ _ | .xor _ _ _ | .andn _ _ _ | .shl _ _ _ | .shr _ _ _ 
  | .sar _ _ _ | .rotr _ _ _ | .min _ _ _ | .max _ _ _ | .minu _ _ _ | .maxu _ _ _ | .clz _ _ | .ctz _ _ 
  | .popc _ _ | .brev _ _ | .bswap _ _ | .madd _ _ _ _ | .lea _ _ _ _ | .sext _ _ _ | .zext _ _ _ | .mov _ _ 
  | .addi _ _ _ | .andi _ _ _ | .ori _ _ _ | .xori _ _ _ | .shli _ _ _ | .shri _ _ _ | .sari _ _ _ 
  | .muli _ _ _ | .li _ _ | .lih _ _ _ | .cmp _ _ _ _ | .cmpi _ _ _ _ | .pand _ _ _ | .por _ _ _ 
  | .pxor _ _ _ | .pnot _ _ | .sel _ _ _ _ | .getp _ | .setp _ _ | .tstb _ _ _ | .br _ | .bri _ | .call _ 
  | .calli _ | .ret _ | .lbreak | .halt | .yield _ | .waitt _ | .mfsr _ _ | .mtsr _ _ | .qcount _ _ 
  | .pref _ _ _ _ | .mark | .cwb _ _ _ | .cinv _ _ _ | .unpin _ | .smap _ _ _ | .sunmap _ | .sflush _ 
  | .aadd _ _ _ _ _ _ _ | .aand _ _ _ _ _ _ _ | .aor _ _ _ _ _ _ _ | .axor _ _ _ _ _ _ _ 
  | .amin _ _ _ _ _ _ _ | .amax _ _ _ _ _ _ _ | .aminu _ _ _ _ _ _ _ | .amaxu _ _ _ _ _ _ _ 
  | .aswp _ _ _ _ _ _ _ | .acas _ _ _ _ _ _ _ _ | .radd _ _ _ _ _ _ | .rfadd _ _ _ _ _ | .rmin _ _ _ _ _ _ 
  | .rmax _ _ _ _ _ _ | .rofadd _ _ _ _ _ _ | .vredm _ _ _ _ _ | .mwait _ _ _ _ _ _ _ | .barinit _ _ _ _ _ 
  | .barrive _ _ _ _ _ _ | .barwait _ _ _ _ _ | .setst _ _ _ | .getst _ _ _ | .raddr _ _ _ | .rstat _ _ _ 
  | .enq _ _ _ | .waitev _ | .ewait _ _ | .bstat _ _ _ | .launch _ _ | .trigger | .depwait | .dqpush _ 
  | .dqpop _ _ | .dqsteal _ _ _ | .dqstealRing _ _ | .vfma _ _ _ _ _ | .vfmah _ _ _ _ _ | .vfmab _ _ _ _ _ 
  | .vand _ _ _ _ | .vor _ _ _ _ | .vxor _ _ _ _ | .vsel _ _ _ _ | .vmov _ _ _ | .vperm _ _ _ _ 
  | .vrot _ _ _ _ | .mand _ _ _ | .mor _ _ _ | .mnot _ _ | .mpop _ _ _ | .vzmac _ _ _ _ | .vzmul _ _ _ _ 
  | .vzadd _ _ _ _ | .vochk _ _ _ _ _ | .vcomp _ _ _ | .mop _ _ _ _ _ _ _ | .csload _ _ | .csunbind _ 
  | .trap _ | .eret | .bkpt _ | .rdcyc _ | .rdtime _ | .tlbinv _ _ _ | .dharv _ _ | .ctxsave _ _ _ _ _ 
  | .ctxload _ _ | .yieldPauseEnd _ _ | .loadCompletion _ _ | .rofaddArrival _ | .rofaddResend _ 
  | .orderedGapTimeout _ | .monitorFire _ _ | .mmaCommand _ | .mretCommand _ | .mzeroCommand _ 
  | .cpinCommand _ | .cpstrCommand _ | .cpoutCommand _ | .cpredCommand _ | .gathCommand _ | .topkCommand _ 
  | .gfenceCommand _ _ | .notifyCommand _ _ | .commandRetirement _ _ | .leaseRearbitration _ | .rendezvous _ 
  | .blockedWaitResume _ _ | .stallWatchdog _ | .frameTaken _ | .doubleFaultRestart _ | .correctedError _ 
  | .selfTestComplete _ _ | .uncorrectableError _ | .eventRecordWrite _ | .fenceModeBoundary _ 
  | .fenceModeTimeout _ | .imageSaveComplete _ | .immediateSave _ _ | .fenceSave _ _ | .resume _ _ 
  | .kill _ _ | .contextRemoval _ _ | .lqctlWrite _ _ | .doorbell _ _ | .launcherRecordRead _ 
  | .iterationStart _ | .iterationEnd _ | .pureLookup _ | .hitCopyComplete _ | .basinInsertion _ 
  | .keyInstall _ _ _ | .basinClear _ _ | .basinEnable _ _ _ | .codeRemapWrite _ _ _ _ 
  | .functionLevelReset _ | .flrDrainTimeout _ | .flrComplete _ | .hostBar2Access _ _ _ _ 
  | .hostFetchadd _ _ _ _ | .hostSwap _ _ _ _ | .hostCas _ _ _ _ _ | .evctlWrite _ _ | .peerRequest _ 
  | .peerResponse _ _ | .peerTimeout _ | .flitReplay _ | .tokenRefill | .powerOn | .deviceReset 
  | .firmwareFetchRetry _ | .clockThrottle | .clockRestore | .syncMessage _ _ | .timeLockLoss 
  | .attestationRequest | .attestationReportWritten | .registerWrite _ _ _ _ | .eviction _ _ 
  | .imageLoadComplete _ | .junctionTemperatureMachineCheck | .bootComplete _ | .pcoreWrite _ _ _ _ => true

/-- Every register number is in range (R19), and an event names a unit that exists (R6, R349, R362); for a
syllable a failure is REGISTER_RANGE. -/
def Instr.rangeOk : Instr → Bool
  | .loopt level _ => level.toNat <= 3
  | .vqpush _ va => vregOk va
  | .vqpop _ vd => vregOk vd
  | .vld vd _ _ _ => vregOk vd
  | .vldn vd _ _ _ _ => vregOk vd
  | .vst vs _ _ _ => vregOk vs
  | .vstn vs _ _ _ _ => vregOk vs
  | .vlds vd _ _ _ => vregOk vd
  | .vsts vs _ _ _ => vregOk vs
  | .vgth vd _ vi _ => vregOk vd && vregOk vi
  | .vsct vs _ vi _ => vregOk vs && vregOk vi
  | .vredm vs _ vi _ _ => vregOk vs && vregOk vi
  | .mma _ _ _ _ acc _ _ _ => accOk acc
  | .mret _ _ _ _ acc _ => accOk acc
  | .mzero _ _ acc => accOk acc
  | .vadd vd va vb _ _ _ => vregOk vd && vregOk va && vregOk vb
  | .vsub vd va vb _ _ _ => vregOk vd && vregOk va && vregOk vb
  | .vmul vd va vb _ _ _ => vregOk vd && vregOk va && vregOk vb
  | .vfma vd va vb vc _ => vregOk vd && vregOk va && vregOk vb && vregOk vc
  | .vfmah vd va vb vc _ => vregOk vd && vregOk va && vregOk vb && vregOk vc
  | .vfmab vd va vb vc _ => vregOk vd && vregOk va && vregOk vb && vregOk vc
  | .vmin vd va vb _ _ _ => vregOk vd && vregOk va && vregOk vb
  | .vmax vd va vb _ _ _ => vregOk vd && vregOk va && vregOk vb
  | .vabs vd va _ _ _ => vregOk vd && vregOk va
  | .vneg vd va _ _ _ => vregOk vd && vregOk va
  | .vand vd va vb _ => vregOk vd && vregOk va && vregOk vb
  | .vor vd va vb _ => vregOk vd && vregOk va && vregOk vb
  | .vxor vd va vb _ => vregOk vd && vregOk va && vregOk vb
  | .vshl vd va vb _ _ _ _ => vregOk vd && vregOk va && vregOk vb
  | .vshr vd va vb _ _ _ _ => vregOk vd && vregOk va && vregOk vb
  | .vsar vd va vb _ _ _ _ => vregOk vd && vregOk va && vregOk vb
  | .vcmp _ va vb _ _ _ => vregOk va && vregOk vb
  | .vsel vd va vb _ => vregOk vd && vregOk va && vregOk vb
  | .vmov vd va _ => vregOk vd && vregOk va
  | .vbcast vd _ _ _ => vregOk vd
  | .vext va _ _ _ => vregOk va
  | .vins vd _ _ _ => vregOk vd
  | .vperm vd va vb _ => vregOk vd && vregOk va && vregOk vb
  | .vrot vd va _ _ => vregOk vd && vregOk va
  | .viota vd _ _ => vregOk vd
  | .vrsum vd va _ _ _ => vregOk vd && vregOk va
  | .vrmax vd va _ _ _ => vregOk vd && vregOk va
  | .vrmin vd va _ _ _ => vregOk vd && vregOk va
  | .vscan vd va _ _ _ => vregOk vd && vregOk va
  | .vdiv vd va vb _ _ _ => vregOk vd && vregOk va && vregOk vb
  | .vsqrt vd va _ _ _ => vregOk vd && vregOk va
  | .vrcp vd va _ _ _ => vregOk vd && vregOk va
  | .vrsqrt vd va _ _ _ => vregOk vd && vregOk va
  | .vexp2 vd va _ _ _ => vregOk vd && vregOk va
  | .vlog2 vd va _ _ _ => vregOk vd && vregOk va
  | .vtanh vd va _ _ _ => vregOk vd && vregOk va
  | .vrnd vd va _ _ _ => vregOk vd && vregOk va
  | .vadds vd va _ _ _ => vregOk vd && vregOk va
  | .vmuls vd va _ _ _ => vregOk vd && vregOk va
  | .vcvt vd va _ _ _ _ => vregOk vd && vregOk va
  | .vpack vd va vb _ _ _ _ => vregOk vd && vregOk va && vregOk vb
  | .vunpk vd va _ _ _ _ _ => vregOk vd && vregOk va
  | .vzenc vd va _ _ _ => vregOk vd && vregOk va
  | .vzdec vd va _ _ _ _ => vregOk vd && vregOk va
  | .vzmac vd va vb _ => vregOk vd && vregOk va && vregOk vb
  | .vzmul vd va vb _ => vregOk vd && vregOk va && vregOk vb
  | .vzadd vd va vb _ => vregOk vd && vregOk va && vregOk vb
  | .vscale vd va vb _ _ _ => vregOk vd && vregOk va && vregOk vb
  | .vquant vd va vb _ _ _ _ => vregOk vd && vregOk va && vregOk vb
  | .vochk _ va vb _ _ => vregOk va && vregOk vb
  | .vcomp vd va _ => vregOk vd && vregOk va
  | .mop _ vd va vb _ _ _ => vregOk vd && vregOk va && vregOk vb
  | .yieldPauseEnd core _ => coreOk core
  | .loadCompletion core _ => coreOk core
  | .monitorFire core _ => coreOk core
  | .mmaCommand core => coreOk core
  | .mretCommand core => coreOk core
  | .mzeroCommand core => coreOk core
  | .cpinCommand core => coreOk core
  | .cpstrCommand core => coreOk core
  | .cpoutCommand core => coreOk core
  | .cpredCommand core => coreOk core
  | .gathCommand core => coreOk core
  | .topkCommand core => coreOk core
  | .gfenceCommand core _ => coreOk core
  | .notifyCommand core _ => coreOk core
  | .commandRetirement core _ => coreOk core
  | .leaseRearbitration quad => decide (quad < 64)
  | .rendezvous core => coreOk core
  | .blockedWaitResume core _ => coreOk core
  | .stallWatchdog core => coreOk core
  | .frameTaken core => coreOk core
  | .doubleFaultRestart core => coreOk core
  | .fenceModeBoundary core => coreOk core
  | .fenceModeTimeout core => coreOk core
  | .imageSaveComplete core => coreOk core
  | .immediateSave polder _ => polderOk polder
  | .fenceSave polder _ => polderOk polder
  | .resume polder _ => polderOk polder
  | .kill polder _ => polderOk polder
  | .contextRemoval core _ => coreOk core
  | .lqctlWrite vf _ => vfOk vf
  | .doorbell vf _ => vfOk vf
  | .launcherRecordRead polder => polderOk polder
  | .iterationStart core => coreOk core
  | .iterationEnd core => coreOk core
  | .keyInstall polder _ _ => polderOk polder
  | .basinClear polder _ => polderOk polder
  | .basinEnable polder _ _ => polderOk polder
  | .codeRemapWrite polder _ _ _ => polderOk polder
  | .functionLevelReset polder => polderOk polder
  | .flrDrainTimeout polder => polderOk polder
  | .flrComplete polder => polderOk polder
  | .hostBar2Access vf _ _ _ => vfOk vf
  | .hostFetchadd vf _ _ _ => vfOk vf
  | .hostSwap vf _ _ _ => vfOk vf
  | .hostCas vf _ _ _ _ => vfOk vf
  | .evctlWrite vf _ => vfOk vf
  | .flitReplay port => decide (port < 16)
  | .eviction core _ => coreOk core
  | .imageLoadComplete core => coreOk core
  | .pcoreWrite polder _ k _ => polderOk polder && decide (k < 4)
  | .nop | .add _ _ _ | .sub _ _ _ | .mul _ _ _ | .mulh _ _ _ | .mulhu _ _ _ | .div _ _ _ | .divu _ _ _ 
  | .rem _ _ _ | .remu _ _ _ | .and _ _ _ | .or _ _ _ | .xor _ _ _ | .andn _ _ _ | .shl _ _ _ | .shr _ _ _ 
  | .sar _ _ _ | .rotr _ _ _ | .min _ _ _ | .max _ _ _ | .minu _ _ _ | .maxu _ _ _ | .clz _ _ | .ctz _ _ 
  | .popc _ _ | .brev _ _ | .bswap _ _ | .extr _ _ _ _ | .extru _ _ _ _ | .insr _ _ _ _ _ | .madd _ _ _ _ 
  | .lea _ _ _ _ | .sext _ _ _ | .zext _ _ _ | .mov _ _ | .addi _ _ _ | .andi _ _ _ | .ori _ _ _ 
  | .xori _ _ _ | .shli _ _ _ | .shri _ _ _ | .sari _ _ _ | .muli _ _ _ | .li _ _ | .lih _ _ _ | .cmp _ _ _ _ 
  | .cmpi _ _ _ _ | .pand _ _ _ | .por _ _ _ | .pxor _ _ _ | .pnot _ _ | .sel _ _ _ _ | .getp _ | .setp _ _ 
  | .tstb _ _ _ | .br _ | .bri _ | .call _ | .calli _ | .ret _ | .loop _ _ | .loopi _ _ | .lbreak | .halt 
  | .brq _ _ | .yield _ | .waitt _ | .mfsr _ _ | .mtsr _ _ | .qpush _ _ | .qpop _ _ | .qpeek _ _ 
  | .qtry _ _ _ | .qpushp _ _ | .qcount _ _ | .fwait _ | .fsig _ | .fread _ _ | .ldb _ _ _ _ | .ldbu _ _ _ _ 
  | .ldh _ _ _ _ | .ldhu _ _ _ _ | .ldw _ _ _ _ | .ldwu _ _ _ _ | .ldd _ _ _ _ | .stb _ _ _ _ | .sth _ _ _ _ 
  | .stw _ _ _ _ | .std _ _ _ _ | .pref _ _ _ _ | .mark | .fence _ _ | .cwb _ _ _ | .cinv _ _ _ 
  | .retain _ _ _ _ | .unpin _ | .smap _ _ _ | .sunmap _ | .sflush _ | .aadd _ _ _ _ _ _ _ 
  | .aand _ _ _ _ _ _ _ | .aor _ _ _ _ _ _ _ | .axor _ _ _ _ _ _ _ | .amin _ _ _ _ _ _ _ 
  | .amax _ _ _ _ _ _ _ | .aminu _ _ _ _ _ _ _ | .amaxu _ _ _ _ _ _ _ | .aswp _ _ _ _ _ _ _ 
  | .acas _ _ _ _ _ _ _ _ | .radd _ _ _ _ _ _ | .rfadd _ _ _ _ _ | .rmin _ _ _ _ _ _ | .rmax _ _ _ _ _ _ 
  | .rofadd _ _ _ _ _ _ | .mwait _ _ _ _ _ _ _ | .barinit _ _ _ _ _ | .barrive _ _ _ _ _ _ 
  | .barwait _ _ _ _ _ | .setst _ _ _ | .getst _ _ _ | .wfill _ _ | .wfree _ _ | .claim _ _ _ | .publ _ _ 
  | .popt _ _ | .raddr _ _ _ | .rstat _ _ _ | .enq _ _ _ | .cpin _ _ _ _ _ _ | .cpout _ _ _ _ _ _ 
  | .cpred _ _ _ _ _ _ _ | .cpstr _ _ _ _ _ _ | .gath _ _ _ _ _ _ _ | .topk _ _ _ _ _ _ _ | .notify _ _ _ _ _ 
  | .gfence _ | .waitev _ | .ewait _ _ | .eseq _ _ _ | .bstat _ _ _ | .bpref _ _ | .launch _ _ | .trigger 
  | .depwait | .dqpush _ | .dqpop _ _ | .dqsteal _ _ _ | .dqstealRing _ _ | .mand _ _ _ | .mor _ _ _ 
  | .mnot _ _ | .mpop _ _ _ | .csload _ _ | .csunbind _ | .trap _ | .eret | .bkpt _ | .rdcyc _ | .rdtime _ 
  | .tlbinv _ _ _ | .dharv _ _ | .ctxsave _ _ _ _ _ | .ctxload _ _ | .rofaddArrival _ | .rofaddResend _ 
  | .orderedGapTimeout _ | .correctedError _ | .selfTestComplete _ _ | .uncorrectableError _ 
  | .eventRecordWrite _ | .pureLookup _ | .hitCopyComplete _ | .basinInsertion _ | .peerRequest _ 
  | .peerResponse _ _ | .peerTimeout _ | .tokenRefill | .powerOn | .deviceReset | .firmwareFetchRetry _ 
  | .clockThrottle | .clockRestore | .syncMessage _ _ | .timeLockLoss | .attestationRequest 
  | .attestationReportWritten | .registerWrite _ _ _ _ | .junctionTemperatureMachineCheck | .bootComplete _ => true

/-- A well-formed instruction: no reserved value (R20) and every register number in range (R19). -/
def Instr.wellFormed (i : Instr) : Bool := i.reservedOk && i.rangeOk

end Sys2Proof
end

