-- ==== Sys2Proof/Decode.lean ====
section
/-!
DEFINITION. Decoding and encoding of syllables. A syllable is a 64-bit word (R14): Y, opcode, guard and a
49-bit body laid out by the opcode's format (R17). A layout is written as the widths of its fields from the
least significant end; a field that the entry does not name must be zero (R20).
-/

namespace Sys2Proof

/-- The fields of `n`, least significant first, by their widths. -/
def unpack : List Nat → Nat → List Nat
  | [], _ => []
  | w :: ws, n => n % 2 ^ w :: unpack ws (n / 2 ^ w)

/-- The number whose fields, least significant first, are the given widths and values. -/
def pack : List (Nat × Nat) → Nat
  | [] => 0
  | (w, v) :: fs => v % 2 ^ w + 2 ^ w * pack fs

/-- The header of a syllable (R14). -/
structure Header where
  sync : Bool
  pred : PReg
  neg  : Bool
  deriving DecidableEq, Repr

/-- The header of an unsynced syllable that always executes: pred 0 and neg 0 (R15). -/
def Header.always : Header := ⟨false, 0, false⟩

/-- The decode faults of R27, in the order of its checks after the sync check. -/
inductive DecodeFault where
  | illegalOpcode | slotMismatch | privileged | reservedField | registerRange
  deriving DecidableEq, Repr

/-- The last two checks of R27, over an instruction read from a body: the must-be-zero bits and reserved
values, and then the register ranges. -/
def chk (zeros : Bool) (i : Instr) : Except DecodeFault Instr :=
  if !(zeros && i.reservedOk) then .error .reservedField
  else if !i.rangeOk then .error .registerRange
  else .ok i

/-- A field that holds a code; a reserved code is RESERVED_FIELD (R20). -/
def withCode {α : Type} (c : Option α) (k : α → Except DecodeFault Instr) : Except DecodeFault Instr :=
  match c with
  | some a => k a
  | none => .error .reservedField

/-- The slots in which an opcode is legal (R25). -/
structure Slots where
  s : Bool
  a : Bool
  x : Bool
  deriving DecidableEq, Repr

/-- Legal slots written S A X. -/
def Slots.sax : Slots := ⟨true, true, true⟩
/-- Legal slots written S A. -/
def Slots.sa : Slots := ⟨true, true, false⟩
/-- Legal slot A only. -/
def Slots.aOnly : Slots := ⟨false, true, false⟩
/-- Legal slot S only. -/
def Slots.sOnly : Slots := ⟨true, false, false⟩
/-- Legal slot X only: either execute slot. -/
def Slots.xOnly : Slots := ⟨false, false, true⟩

/-- Whether a cluster's slot is among the legal ones (R25). -/
def Slots.legal (l : Slots) : Cluster → Bool
  | .S => l.s
  | .A => l.a
  | .X0 | .X1 => l.x

/-- The assigned opcodes as ranges with their legal slots (R25); every other value is unassigned (R28). -/
def opcodeRanges : List (Nat × Nat × Slots) :=
  [ (0x000, 0x022, .sax), (0x040, 0x049, .sax), (0x060, 0x069, .sax), (0x080, 0x08E, .sax)
  , (0x0A0, 0x0AA, .sax), (0x0B0, 0x0BA, .sa), (0x0BB, 0x0C3, .aOnly), (0x0C4, 0x0C5, .sa)
  , (0x0C6, 0x0CC, .aOnly), (0x0E0, 0x0E9, .sa), (0x0EB, 0x0EF, .sa), (0x0F0, 0x0F0, .aOnly)
  , (0x0F1, 0x0F1, .sa), (0x0F4, 0x0F6, .sa), (0x100, 0x100, .sa), (0x101, 0x108, .sax)
  , (0x130, 0x130, .sa), (0x131, 0x133, .sOnly), (0x134, 0x138, .aOnly), (0x139, 0x139, .sOnly)
  , (0x13A, 0x13B, .sa), (0x13C, 0x13F, .sax), (0x140, 0x140, .sOnly), (0x148, 0x14D, .sOnly)
  , (0x160, 0x18A, .xOnly), (0x1C0, 0x1CB, .xOnly), (0x1E0, 0x1E1, .sOnly), (0x1E4, 0x1EC, .sOnly)
  , (0x1F0, 0x1FF, .xOnly) ]

/-- The slots of an opcode; none where it is unassigned (R25, R28). -/
def slotsOf (op : Nat) : Option Slots :=
  (opcodeRanges.find? fun r => r.1 ≤ op && op ≤ r.2.1).map fun r => r.2.2

/-- The privileged opcodes: ERET, TLBINV, DHARV, CTXSAVE and CTXLOAD (R26). -/
def privilegedOp (op : Nat) : Bool :=
  op == 0x1E1 || op == 0x1E7 || op == 0x1E8 || op == 0x1EB || op == 0x1EC

/-- Bodies of opcodes 0x000 to 0x00F; `lo` is the opcode's low four bits. -/
def decodePage00 (lo b : Nat) : Except DecodeFault Instr :=
  match lo with
  | 0 => match unpack [49] b with
    | [z0] =>
      chk (z0 == 0) (.nop)
    | _ => .error .reservedField
  | 1 => match unpack [25, 6, 6, 6, 6] b with
    | [z0, z1, rb, ra, rd] =>
      chk (z0 == 0 && z1 == 0) (.add (.ofNat 6 rd) (.ofNat 6 ra) (.ofNat 6 rb))
    | _ => .error .reservedField
  | 2 => match unpack [25, 6, 6, 6, 6] b with
    | [z0, z1, rb, ra, rd] =>
      chk (z0 == 0 && z1 == 0) (.sub (.ofNat 6 rd) (.ofNat 6 ra) (.ofNat 6 rb))
    | _ => .error .reservedField
  | 3 => match unpack [25, 6, 6, 6, 6] b with
    | [z0, z1, rb, ra, rd] =>
      chk (z0 == 0 && z1 == 0) (.mul (.ofNat 6 rd) (.ofNat 6 ra) (.ofNat 6 rb))
    | _ => .error .reservedField
  | 4 => match unpack [25, 6, 6, 6, 6] b with
    | [z0, z1, rb, ra, rd] =>
      chk (z0 == 0 && z1 == 0) (.mulh (.ofNat 6 rd) (.ofNat 6 ra) (.ofNat 6 rb))
    | _ => .error .reservedField
  | 5 => match unpack [25, 6, 6, 6, 6] b with
    | [z0, z1, rb, ra, rd] =>
      chk (z0 == 0 && z1 == 0) (.mulhu (.ofNat 6 rd) (.ofNat 6 ra) (.ofNat 6 rb))
    | _ => .error .reservedField
  | 6 => match unpack [25, 6, 6, 6, 6] b with
    | [z0, z1, rb, ra, rd] =>
      chk (z0 == 0 && z1 == 0) (.div (.ofNat 6 rd) (.ofNat 6 ra) (.ofNat 6 rb))
    | _ => .error .reservedField
  | 7 => match unpack [25, 6, 6, 6, 6] b with
    | [z0, z1, rb, ra, rd] =>
      chk (z0 == 0 && z1 == 0) (.divu (.ofNat 6 rd) (.ofNat 6 ra) (.ofNat 6 rb))
    | _ => .error .reservedField
  | 8 => match unpack [25, 6, 6, 6, 6] b with
    | [z0, z1, rb, ra, rd] =>
      chk (z0 == 0 && z1 == 0) (.rem (.ofNat 6 rd) (.ofNat 6 ra) (.ofNat 6 rb))
    | _ => .error .reservedField
  | 9 => match unpack [25, 6, 6, 6, 6] b with
    | [z0, z1, rb, ra, rd] =>
      chk (z0 == 0 && z1 == 0) (.remu (.ofNat 6 rd) (.ofNat 6 ra) (.ofNat 6 rb))
    | _ => .error .reservedField
  | 10 => match unpack [25, 6, 6, 6, 6] b with
    | [z0, z1, rb, ra, rd] =>
      chk (z0 == 0 && z1 == 0) (.and (.ofNat 6 rd) (.ofNat 6 ra) (.ofNat 6 rb))
    | _ => .error .reservedField
  | 11 => match unpack [25, 6, 6, 6, 6] b with
    | [z0, z1, rb, ra, rd] =>
      chk (z0 == 0 && z1 == 0) (.or (.ofNat 6 rd) (.ofNat 6 ra) (.ofNat 6 rb))
    | _ => .error .reservedField
  | 12 => match unpack [25, 6, 6, 6, 6] b with
    | [z0, z1, rb, ra, rd] =>
      chk (z0 == 0 && z1 == 0) (.xor (.ofNat 6 rd) (.ofNat 6 ra) (.ofNat 6 rb))
    | _ => .error .reservedField
  | 13 => match unpack [25, 6, 6, 6, 6] b with
    | [z0, z1, rb, ra, rd] =>
      chk (z0 == 0 && z1 == 0) (.andn (.ofNat 6 rd) (.ofNat 6 ra) (.ofNat 6 rb))
    | _ => .error .reservedField
  | 14 => match unpack [25, 6, 6, 6, 6] b with
    | [z0, z1, rb, ra, rd] =>
      chk (z0 == 0 && z1 == 0) (.shl (.ofNat 6 rd) (.ofNat 6 ra) (.ofNat 6 rb))
    | _ => .error .reservedField
  | 15 => match unpack [25, 6, 6, 6, 6] b with
    | [z0, z1, rb, ra, rd] =>
      chk (z0 == 0 && z1 == 0) (.shr (.ofNat 6 rd) (.ofNat 6 ra) (.ofNat 6 rb))
    | _ => .error .reservedField
  | _ => .error .illegalOpcode

/-- Bodies of opcodes 0x010 to 0x01F; `lo` is the opcode's low four bits. -/
def decodePage01 (lo b : Nat) : Except DecodeFault Instr :=
  match lo with
  | 0 => match unpack [25, 6, 6, 6, 6] b with
    | [z0, z1, rb, ra, rd] =>
      chk (z0 == 0 && z1 == 0) (.sar (.ofNat 6 rd) (.ofNat 6 ra) (.ofNat 6 rb))
    | _ => .error .reservedField
  | 1 => match unpack [25, 6, 6, 6, 6] b with
    | [z0, z1, rb, ra, rd] =>
      chk (z0 == 0 && z1 == 0) (.rotr (.ofNat 6 rd) (.ofNat 6 ra) (.ofNat 6 rb))
    | _ => .error .reservedField
  | 2 => match unpack [25, 6, 6, 6, 6] b with
    | [z0, z1, rb, ra, rd] =>
      chk (z0 == 0 && z1 == 0) (.min (.ofNat 6 rd) (.ofNat 6 ra) (.ofNat 6 rb))
    | _ => .error .reservedField
  | 3 => match unpack [25, 6, 6, 6, 6] b with
    | [z0, z1, rb, ra, rd] =>
      chk (z0 == 0 && z1 == 0) (.max (.ofNat 6 rd) (.ofNat 6 ra) (.ofNat 6 rb))
    | _ => .error .reservedField
  | 4 => match unpack [25, 6, 6, 6, 6] b with
    | [z0, z1, rb, ra, rd] =>
      chk (z0 == 0 && z1 == 0) (.minu (.ofNat 6 rd) (.ofNat 6 ra) (.ofNat 6 rb))
    | _ => .error .reservedField
  | 5 => match unpack [25, 6, 6, 6, 6] b with
    | [z0, z1, rb, ra, rd] =>
      chk (z0 == 0 && z1 == 0) (.maxu (.ofNat 6 rd) (.ofNat 6 ra) (.ofNat 6 rb))
    | _ => .error .reservedField
  | 6 => match unpack [25, 6, 6, 6, 6] b with
    | [z0, z1, z2, ra, rd] =>
      chk (z0 == 0 && z1 == 0 && z2 == 0) (.clz (.ofNat 6 rd) (.ofNat 6 ra))
    | _ => .error .reservedField
  | 7 => match unpack [25, 6, 6, 6, 6] b with
    | [z0, z1, z2, ra, rd] =>
      chk (z0 == 0 && z1 == 0 && z2 == 0) (.ctz (.ofNat 6 rd) (.ofNat 6 ra))
    | _ => .error .reservedField
  | 8 => match unpack [25, 6, 6, 6, 6] b with
    | [z0, z1, z2, ra, rd] =>
      chk (z0 == 0 && z1 == 0 && z2 == 0) (.popc (.ofNat 6 rd) (.ofNat 6 ra))
    | _ => .error .reservedField
  | 9 => match unpack [25, 6, 6, 6, 6] b with
    | [z0, z1, z2, ra, rd] =>
      chk (z0 == 0 && z1 == 0 && z2 == 0) (.brev (.ofNat 6 rd) (.ofNat 6 ra))
    | _ => .error .reservedField
  | 10 => match unpack [25, 6, 6, 6, 6] b with
    | [z0, z1, z2, ra, rd] =>
      chk (z0 == 0 && z1 == 0 && z2 == 0) (.bswap (.ofNat 6 rd) (.ofNat 6 ra))
    | _ => .error .reservedField
  | 11 => match unpack [6, 7, 12, 6, 6, 6, 6] b with
    | [pos, len, z2, z3, z4, ra, rd] =>
      chk (z2 == 0 && z3 == 0 && z4 == 0) (.extr (.ofNat 6 rd) (.ofNat 6 ra) (.ofNat 7 len) (.ofNat 6 pos))
    | _ => .error .reservedField
  | 12 => match unpack [6, 7, 12, 6, 6, 6, 6] b with
    | [pos, len, z2, z3, z4, ra, rd] =>
      chk (z2 == 0 && z3 == 0 && z4 == 0) (.extru (.ofNat 6 rd) (.ofNat 6 ra) (.ofNat 7 len) (.ofNat 6 pos))
    | _ => .error .reservedField
  | 13 => match unpack [6, 7, 12, 6, 6, 6, 6] b with
    | [pos, len, z2, z3, rb, ra, rd] =>
      chk (z2 == 0 && z3 == 0) (.insr (.ofNat 6 rd) (.ofNat 6 ra) (.ofNat 6 rb) (.ofNat 7 len) (.ofNat 6 pos))
    | _ => .error .reservedField
  | 14 => match unpack [25, 6, 6, 6, 6] b with
    | [z0, rc, rb, ra, rd] =>
      chk (z0 == 0) (.madd (.ofNat 6 rd) (.ofNat 6 ra) (.ofNat 6 rb) (.ofNat 6 rc))
    | _ => .error .reservedField
  | 15 => match unpack [6, 19, 6, 6, 6, 6] b with
    | [sh, z1, z2, rb, ra, rd] =>
      chk (z1 == 0 && z2 == 0) (.lea (.ofNat 6 rd) (.ofNat 6 ra) (.ofNat 6 rb) (.ofNat 6 sh))
    | _ => .error .reservedField
  | _ => .error .illegalOpcode

/-- Bodies of opcodes 0x020 to 0x02F; `lo` is the opcode's low four bits. -/
def decodePage02 (lo b : Nat) : Except DecodeFault Instr :=
  match lo with
  | 0 => match unpack [2, 23, 6, 6, 6, 6] b with
    | [w, z1, z2, z3, ra, rd] =>
      withCode (ExtWidth.ofCode w) fun w => chk (z1 == 0 && z2 == 0 && z3 == 0) (.sext (.ofNat 6 rd) (.ofNat 6 ra) w)
    | _ => .error .reservedField
  | 1 => match unpack [2, 23, 6, 6, 6, 6] b with
    | [w, z1, z2, z3, ra, rd] =>
      withCode (ExtWidth.ofCode w) fun w => chk (z1 == 0 && z2 == 0 && z3 == 0) (.zext (.ofNat 6 rd) (.ofNat 6 ra) w)
    | _ => .error .reservedField
  | 2 => match unpack [25, 6, 6, 6, 6] b with
    | [z0, z1, z2, ra, rd] =>
      chk (z0 == 0 && z1 == 0 && z2 == 0) (.mov (.ofNat 6 rd) (.ofNat 6 ra))
    | _ => .error .reservedField
  | _ => .error .illegalOpcode

/-- Bodies of opcodes 0x040 to 0x04F; `lo` is the opcode's low four bits. -/
def decodePage04 (lo b : Nat) : Except DecodeFault Instr :=
  match lo with
  | 0 => match unpack [5, 32, 6, 6] b with
    | [z0, imm, ra, rd] =>
      chk (z0 == 0) (.addi (.ofNat 6 rd) (.ofNat 6 ra) (.ofNat 32 imm))
    | _ => .error .reservedField
  | 1 => match unpack [5, 32, 6, 6] b with
    | [z0, imm, ra, rd] =>
      chk (z0 == 0) (.andi (.ofNat 6 rd) (.ofNat 6 ra) (.ofNat 32 imm))
    | _ => .error .reservedField
  | 2 => match unpack [5, 32, 6, 6] b with
    | [z0, imm, ra, rd] =>
      chk (z0 == 0) (.ori (.ofNat 6 rd) (.ofNat 6 ra) (.ofNat 32 imm))
    | _ => .error .reservedField
  | 3 => match unpack [5, 32, 6, 6] b with
    | [z0, imm, ra, rd] =>
      chk (z0 == 0) (.xori (.ofNat 6 rd) (.ofNat 6 ra) (.ofNat 32 imm))
    | _ => .error .reservedField
  | 4 => match unpack [6, 19, 6, 6, 6, 6] b with
    | [sh, z1, z2, z3, ra, rd] =>
      chk (z1 == 0 && z2 == 0 && z3 == 0) (.shli (.ofNat 6 rd) (.ofNat 6 ra) (.ofNat 6 sh))
    | _ => .error .reservedField
  | 5 => match unpack [6, 19, 6, 6, 6, 6] b with
    | [sh, z1, z2, z3, ra, rd] =>
      chk (z1 == 0 && z2 == 0 && z3 == 0) (.shri (.ofNat 6 rd) (.ofNat 6 ra) (.ofNat 6 sh))
    | _ => .error .reservedField
  | 6 => match unpack [6, 19, 6, 6, 6, 6] b with
    | [sh, z1, z2, z3, ra, rd] =>
      chk (z1 == 0 && z2 == 0 && z3 == 0) (.sari (.ofNat 6 rd) (.ofNat 6 ra) (.ofNat 6 sh))
    | _ => .error .reservedField
  | 7 => match unpack [5, 32, 6, 6] b with
    | [z0, imm, ra, rd] =>
      chk (z0 == 0) (.muli (.ofNat 6 rd) (.ofNat 6 ra) (.ofNat 32 imm))
    | _ => .error .reservedField
  | 8 => match unpack [5, 32, 6, 6] b with
    | [z0, imm, z2, rd] =>
      chk (z0 == 0 && z2 == 0) (.li (.ofNat 6 rd) (.ofNat 32 imm))
    | _ => .error .reservedField
  | 9 => match unpack [5, 32, 6, 6] b with
    | [z0, imm, ra, rd] =>
      chk (z0 == 0) (.lih (.ofNat 6 rd) (.ofNat 6 ra) (.ofNat 32 imm))
    | _ => .error .reservedField
  | _ => .error .illegalOpcode

/-- Bodies of opcodes 0x060 to 0x06F; `lo` is the opcode's low four bits. -/
def decodePage06 (lo b : Nat) : Except DecodeFault Instr :=
  match lo with
  | 0 => match unpack [22, 3, 6, 6, 4, 4, 4] b with
    | [z0, cc, rb, ra, z4, z5, pd] =>
      withCode (Cond.ofCode cc) fun cc => chk (z0 == 0 && z4 == 0 && z5 == 0) (.cmp (.ofNat 4 pd) (.ofNat 6 ra) (.ofNat 6 rb) cc)
    | _ => .error .reservedField
  | 1 => match unpack [22, 3, 6, 6, 4, 4, 4] b with
    | [imm22, cc, z2, ra, z4, z5, pd] =>
      withCode (Cond.ofCode cc) fun cc => chk (z2 == 0 && z4 == 0 && z5 == 0) (.cmpi (.ofNat 4 pd) (.ofNat 6 ra) cc (.ofNat 22 imm22))
    | _ => .error .reservedField
  | 2 => match unpack [22, 3, 6, 6, 4, 4, 4] b with
    | [z0, z1, z2, z3, pb, pa, pd] =>
      chk (z0 == 0 && z1 == 0 && z2 == 0 && z3 == 0) (.pand (.ofNat 4 pd) (.ofNat 4 pa) (.ofNat 4 pb))
    | _ => .error .reservedField
  | 3 => match unpack [22, 3, 6, 6, 4, 4, 4] b with
    | [z0, z1, z2, z3, pb, pa, pd] =>
      chk (z0 == 0 && z1 == 0 && z2 == 0 && z3 == 0) (.por (.ofNat 4 pd) (.ofNat 4 pa) (.ofNat 4 pb))
    | _ => .error .reservedField
  | 4 => match unpack [22, 3, 6, 6, 4, 4, 4] b with
    | [z0, z1, z2, z3, pb, pa, pd] =>
      chk (z0 == 0 && z1 == 0 && z2 == 0 && z3 == 0) (.pxor (.ofNat 4 pd) (.ofNat 4 pa) (.ofNat 4 pb))
    | _ => .error .reservedField
  | 5 => match unpack [22, 3, 6, 6, 4, 4, 4] b with
    | [z0, z1, z2, z3, z4, pa, pd] =>
      chk (z0 == 0 && z1 == 0 && z2 == 0 && z3 == 0 && z4 == 0) (.pnot (.ofNat 4 pd) (.ofNat 4 pa))
    | _ => .error .reservedField
  | 6 => match unpack [4, 21, 6, 6, 6, 6] b with
    | [pn, z1, z2, rb, ra, rd] =>
      chk (z1 == 0 && z2 == 0) (.sel (.ofNat 6 rd) (.ofNat 6 ra) (.ofNat 6 rb) (.ofNat 4 pn))
    | _ => .error .reservedField
  | 7 => match unpack [25, 6, 6, 6, 6] b with
    | [z0, z1, z2, z3, rd] =>
      chk (z0 == 0 && z1 == 0 && z2 == 0 && z3 == 0) (.getp (.ofNat 6 rd))
    | _ => .error .reservedField
  | 8 => match unpack [16, 6, 3, 6, 6, 4, 4, 4] b with
    | [mask16, z1, z2, z3, ra, z5, z6, z7] =>
      chk (z1 == 0 && z2 == 0 && z3 == 0 && z5 == 0 && z6 == 0 && z7 == 0) (.setp (.ofNat 6 ra) (.ofNat 16 mask16))
    | _ => .error .reservedField
  | 9 => match unpack [6, 16, 3, 6, 6, 4, 4, 4] b with
    | [bit, z1, z2, z3, ra, z5, z6, pd] =>
      chk (z1 == 0 && z2 == 0 && z3 == 0 && z5 == 0 && z6 == 0) (.tstb (.ofNat 4 pd) (.ofNat 6 ra) (.ofNat 6 bit))
    | _ => .error .reservedField
  | _ => .error .illegalOpcode

/-- Bodies of opcodes 0x080 to 0x08F; `lo` is the opcode's low four bits. -/
def decodePage08 (lo b : Nat) : Except DecodeFault Instr :=
  match lo with
  | 0 => match unpack [7, 6, 32, 4] b with
    | [z0, z1, off32, z3] =>
      chk (z0 == 0 && z1 == 0 && z3 == 0) (.br (.ofNat 32 off32))
    | _ => .error .reservedField
  | 1 => match unpack [7, 6, 32, 4] b with
    | [z0, ra, z2, z3] =>
      chk (z0 == 0 && z2 == 0 && z3 == 0) (.bri (.ofNat 6 ra))
    | _ => .error .reservedField
  | 2 => match unpack [7, 6, 32, 4] b with
    | [z0, z1, off32, z3] =>
      chk (z0 == 0 && z1 == 0 && z3 == 0) (.call (.ofNat 32 off32))
    | _ => .error .reservedField
  | 3 => match unpack [7, 6, 32, 4] b with
    | [z0, ra, z2, z3] =>
      chk (z0 == 0 && z2 == 0 && z3 == 0) (.calli (.ofNat 6 ra))
    | _ => .error .reservedField
  | 4 => match unpack [7, 6, 32, 4] b with
    | [z0, ra, z2, z3] =>
      chk (z0 == 0 && z2 == 0 && z3 == 0) (.ret (.ofNat 6 ra))
    | _ => .error .reservedField
  | 5 => match unpack [27, 16, 6] b with
    | [z0, endOff, ra] =>
      chk (z0 == 0) (.loop (.ofNat 6 ra) (.ofNat 16 endOff))
    | _ => .error .reservedField
  | 6 => match unpack [27, 16, 6] b with
    | [count, endOff, z2] =>
      chk (z2 == 0) (.loopi (.ofNat 16 endOff) (.ofNat 27 count))
    | _ => .error .reservedField
  | 7 => match unpack [27, 16, 6] b with
    | [z0, endOff, level] =>
      chk (z0 == 0) (.loopt (.ofNat 6 level) (.ofNat 16 endOff))
    | _ => .error .reservedField
  | 8 => match unpack [49] b with
    | [z0] =>
      chk (z0 == 0) (.lbreak)
    | _ => .error .reservedField
  | 9 => match unpack [49] b with
    | [z0] =>
      chk (z0 == 0) (.halt)
    | _ => .error .reservedField
  | 10 => match unpack [7, 6, 32, 4] b with
    | [z0, z1, off32, q] =>
      chk (z0 == 0 && z1 == 0) (.brq (.ofNat 4 q) (.ofNat 32 off32))
    | _ => .error .reservedField
  | 12 => match unpack [7, 6, 32, 4] b with
    | [z0, z1, z2, n4] =>
      chk (z0 == 0 && z1 == 0 && z2 == 0) (.yield (.ofNat 4 n4))
    | _ => .error .reservedField
  | 11 => match unpack [25, 6, 6, 6, 6] b with
    | [z0, z1, z2, ra, z4] =>
      chk (z0 == 0 && z1 == 0 && z2 == 0 && z4 == 0) (.waitt (.ofNat 6 ra))
    | _ => .error .reservedField
  | 13 => match unpack [12, 13, 6, 6, 6, 6] b with
    | [num, z1, z2, z3, z4, rd] =>
      chk (z1 == 0 && z2 == 0 && z3 == 0 && z4 == 0) (.mfsr (.ofNat 6 rd) (.ofNat 12 num))
    | _ => .error .reservedField
  | 14 => match unpack [12, 13, 6, 6, 6, 6] b with
    | [num, z1, z2, z3, ra, z5] =>
      chk (z1 == 0 && z2 == 0 && z3 == 0 && z5 == 0) (.mtsr (.ofNat 6 ra) (.ofNat 12 num))
    | _ => .error .reservedField
  | _ => .error .illegalOpcode

/-- Bodies of opcodes 0x0A0 to 0x0AF; `lo` is the opcode's low four bits. -/
def decodePage0A (lo b : Nat) : Except DecodeFault Instr :=
  match lo with
  | 0 => match unpack [24, 4, 11, 6, 4] b with
    | [z0, z1, z2, ra, q] =>
      chk (z0 == 0 && z1 == 0 && z2 == 0) (.qpush (.ofNat 4 q) (.ofNat 6 ra))
    | _ => .error .reservedField
  | 1 => match unpack [24, 4, 11, 6, 4] b with
    | [z0, z1, z2, rd, q] =>
      chk (z0 == 0 && z1 == 0 && z2 == 0) (.qpop (.ofNat 4 q) (.ofNat 6 rd))
    | _ => .error .reservedField
  | 2 => match unpack [24, 4, 11, 6, 4] b with
    | [z0, z1, z2, rd, q] =>
      chk (z0 == 0 && z1 == 0 && z2 == 0) (.qpeek (.ofNat 4 q) (.ofNat 6 rd))
    | _ => .error .reservedField
  | 3 => match unpack [24, 4, 11, 6, 4] b with
    | [z0, pd, z2, rd, q] =>
      chk (z0 == 0 && z2 == 0) (.qtry (.ofNat 4 q) (.ofNat 6 rd) (.ofNat 4 pd))
    | _ => .error .reservedField
  | 4 => match unpack [24, 4, 11, 6, 4] b with
    | [z0, pn, z2, z3, q] =>
      chk (z0 == 0 && z2 == 0 && z3 == 0) (.qpushp (.ofNat 4 q) (.ofNat 4 pn))
    | _ => .error .reservedField
  | 5 => match unpack [24, 4, 11, 6, 4] b with
    | [z0, z1, va, z3, q] =>
      chk (z0 == 0 && z1 == 0 && z3 == 0) (.vqpush (.ofNat 4 q) (.ofNat 11 va))
    | _ => .error .reservedField
  | 6 => match unpack [24, 4, 11, 6, 4] b with
    | [z0, z1, vd, z3, q] =>
      chk (z0 == 0 && z1 == 0 && z3 == 0) (.vqpop (.ofNat 4 q) (.ofNat 11 vd))
    | _ => .error .reservedField
  | 7 => match unpack [24, 4, 11, 6, 4] b with
    | [z0, z1, z2, rd, q] =>
      chk (z0 == 0 && z1 == 0 && z2 == 0) (.qcount (.ofNat 4 q) (.ofNat 6 rd))
    | _ => .error .reservedField
  | 8 => match unpack [7, 18, 6, 6, 6, 6] b with
    | [fl, z1, z2, z3, z4, z5] =>
      chk (z1 == 0 && z2 == 0 && z3 == 0 && z4 == 0 && z5 == 0) (.fwait (.ofNat 7 fl))
    | _ => .error .reservedField
  | 9 => match unpack [7, 18, 6, 6, 6, 6] b with
    | [fl, z1, z2, z3, z4, z5] =>
      chk (z1 == 0 && z2 == 0 && z3 == 0 && z4 == 0 && z5 == 0) (.fsig (.ofNat 7 fl))
    | _ => .error .reservedField
  | 10 => match unpack [7, 18, 6, 6, 6, 6] b with
    | [fl, z1, z2, z3, z4, rd] =>
      chk (z1 == 0 && z2 == 0 && z3 == 0 && z4 == 0) (.fread (.ofNat 6 rd) (.ofNat 7 fl))
    | _ => .error .reservedField
  | _ => .error .illegalOpcode

/-- Bodies of opcodes 0x0B0 to 0x0BF; `lo` is the opcode's low four bits. -/
def decodePage0B (lo b : Nat) : Except DecodeFault Instr :=
  match lo with
  | 0 => match unpack [24, 3, 3, 2, 6, 6, 5] b with
    | [off, ev, sc, od, base, rd, z6] =>
      withCode (Evict.ofCode ev) fun ev => withCode (Scope.ofCode sc) fun sc => withCode (MemOrd.ofCode od) fun od => chk (z6 == 0) (.ldb (.ofNat 6 rd) (.ofNat 6 base) ⟨od, sc, ev⟩ (.ofNat 24 off))
    | _ => .error .reservedField
  | 1 => match unpack [24, 3, 3, 2, 6, 6, 5] b with
    | [off, ev, sc, od, base, rd, z6] =>
      withCode (Evict.ofCode ev) fun ev => withCode (Scope.ofCode sc) fun sc => withCode (MemOrd.ofCode od) fun od => chk (z6 == 0) (.ldbu (.ofNat 6 rd) (.ofNat 6 base) ⟨od, sc, ev⟩ (.ofNat 24 off))
    | _ => .error .reservedField
  | 2 => match unpack [24, 3, 3, 2, 6, 6, 5] b with
    | [off, ev, sc, od, base, rd, z6] =>
      withCode (Evict.ofCode ev) fun ev => withCode (Scope.ofCode sc) fun sc => withCode (MemOrd.ofCode od) fun od => chk (z6 == 0) (.ldh (.ofNat 6 rd) (.ofNat 6 base) ⟨od, sc, ev⟩ (.ofNat 24 off))
    | _ => .error .reservedField
  | 3 => match unpack [24, 3, 3, 2, 6, 6, 5] b with
    | [off, ev, sc, od, base, rd, z6] =>
      withCode (Evict.ofCode ev) fun ev => withCode (Scope.ofCode sc) fun sc => withCode (MemOrd.ofCode od) fun od => chk (z6 == 0) (.ldhu (.ofNat 6 rd) (.ofNat 6 base) ⟨od, sc, ev⟩ (.ofNat 24 off))
    | _ => .error .reservedField
  | 4 => match unpack [24, 3, 3, 2, 6, 6, 5] b with
    | [off, ev, sc, od, base, rd, z6] =>
      withCode (Evict.ofCode ev) fun ev => withCode (Scope.ofCode sc) fun sc => withCode (MemOrd.ofCode od) fun od => chk (z6 == 0) (.ldw (.ofNat 6 rd) (.ofNat 6 base) ⟨od, sc, ev⟩ (.ofNat 24 off))
    | _ => .error .reservedField
  | 5 => match unpack [24, 3, 3, 2, 6, 6, 5] b with
    | [off, ev, sc, od, base, rd, z6] =>
      withCode (Evict.ofCode ev) fun ev => withCode (Scope.ofCode sc) fun sc => withCode (MemOrd.ofCode od) fun od => chk (z6 == 0) (.ldwu (.ofNat 6 rd) (.ofNat 6 base) ⟨od, sc, ev⟩ (.ofNat 24 off))
    | _ => .error .reservedField
  | 6 => match unpack [24, 3, 3, 2, 6, 6, 5] b with
    | [off, ev, sc, od, base, rd, z6] =>
      withCode (Evict.ofCode ev) fun ev => withCode (Scope.ofCode sc) fun sc => withCode (MemOrd.ofCode od) fun od => chk (z6 == 0) (.ldd (.ofNat 6 rd) (.ofNat 6 base) ⟨od, sc, ev⟩ (.ofNat 24 off))
    | _ => .error .reservedField
  | 7 => match unpack [24, 3, 3, 2, 6, 6, 5] b with
    | [off, ev, sc, od, base, rs, z6] =>
      withCode (Evict.ofCode ev) fun ev => withCode (Scope.ofCode sc) fun sc => withCode (MemOrd.ofCode od) fun od => chk (z6 == 0) (.stb (.ofNat 6 rs) (.ofNat 6 base) ⟨od, sc, ev⟩ (.ofNat 24 off))
    | _ => .error .reservedField
  | 8 => match unpack [24, 3, 3, 2, 6, 6, 5] b with
    | [off, ev, sc, od, base, rs, z6] =>
      withCode (Evict.ofCode ev) fun ev => withCode (Scope.ofCode sc) fun sc => withCode (MemOrd.ofCode od) fun od => chk (z6 == 0) (.sth (.ofNat 6 rs) (.ofNat 6 base) ⟨od, sc, ev⟩ (.ofNat 24 off))
    | _ => .error .reservedField
  | 9 => match unpack [24, 3, 3, 2, 6, 6, 5] b with
    | [off, ev, sc, od, base, rs, z6] =>
      withCode (Evict.ofCode ev) fun ev => withCode (Scope.ofCode sc) fun sc => withCode (MemOrd.ofCode od) fun od => chk (z6 == 0) (.stw (.ofNat 6 rs) (.ofNat 6 base) ⟨od, sc, ev⟩ (.ofNat 24 off))
    | _ => .error .reservedField
  | 10 => match unpack [24, 3, 3, 2, 6, 6, 5] b with
    | [off, ev, sc, od, base, rs, z6] =>
      withCode (Evict.ofCode ev) fun ev => withCode (Scope.ofCode sc) fun sc => withCode (MemOrd.ofCode od) fun od => chk (z6 == 0) (.std (.ofNat 6 rs) (.ofNat 6 base) ⟨od, sc, ev⟩ (.ofNat 24 off))
    | _ => .error .reservedField
  | 11 => match unpack [24, 3, 3, 2, 6, 11] b with
    | [off, ev, sc, od, base, vd] =>
      withCode (Evict.ofCode ev) fun ev => withCode (Scope.ofCode sc) fun sc => withCode (MemOrd.ofCode od) fun od => chk (true) (.vld (.ofNat 11 vd) (.ofNat 6 base) ⟨od, sc, ev⟩ (.ofNat 24 off))
    | _ => .error .reservedField
  | 12 => match unpack [21, 3, 3, 3, 2, 6, 11] b with
    | [off21, size, ev, sc, od, base, vd] =>
      withCode (VecSize.ofCode size) fun size => withCode (Evict.ofCode ev) fun ev => withCode (Scope.ofCode sc) fun sc => withCode (MemOrd.ofCode od) fun od => chk (true) (.vldn (.ofNat 11 vd) (.ofNat 6 base) ⟨od, sc, ev⟩ size (.ofNat 21 off21))
    | _ => .error .reservedField
  | 13 => match unpack [24, 3, 3, 2, 6, 11] b with
    | [off, ev, sc, od, base, vs] =>
      withCode (Evict.ofCode ev) fun ev => withCode (Scope.ofCode sc) fun sc => withCode (MemOrd.ofCode od) fun od => chk (true) (.vst (.ofNat 11 vs) (.ofNat 6 base) ⟨od, sc, ev⟩ (.ofNat 24 off))
    | _ => .error .reservedField
  | 14 => match unpack [21, 3, 3, 3, 2, 6, 11] b with
    | [off21, size, ev, sc, od, base, vs] =>
      withCode (VecSize.ofCode size) fun size => withCode (Evict.ofCode ev) fun ev => withCode (Scope.ofCode sc) fun sc => withCode (MemOrd.ofCode od) fun od => chk (true) (.vstn (.ofNat 11 vs) (.ofNat 6 base) ⟨od, sc, ev⟩ size (.ofNat 21 off21))
    | _ => .error .reservedField
  | 15 => match unpack [18, 3, 3, 2, 6, 6, 11] b with
    | [z0, ev, sc, od, stride, base, vd] =>
      withCode (Evict.ofCode ev) fun ev => withCode (Scope.ofCode sc) fun sc => withCode (MemOrd.ofCode od) fun od => chk (z0 == 0) (.vlds (.ofNat 11 vd) (.ofNat 6 base) (.ofNat 6 stride) ⟨od, sc, ev⟩)
    | _ => .error .reservedField
  | _ => .error .illegalOpcode

/-- Bodies of opcodes 0x0C0 to 0x0CF; `lo` is the opcode's low four bits. -/
def decodePage0C (lo b : Nat) : Except DecodeFault Instr :=
  match lo with
  | 0 => match unpack [18, 3, 3, 2, 6, 6, 11] b with
    | [z0, ev, sc, od, stride, base, vs] =>
      withCode (Evict.ofCode ev) fun ev => withCode (Scope.ofCode sc) fun sc => withCode (MemOrd.ofCode od) fun od => chk (z0 == 0) (.vsts (.ofNat 11 vs) (.ofNat 6 base) (.ofNat 6 stride) ⟨od, sc, ev⟩)
    | _ => .error .reservedField
  | 1 => match unpack [13, 3, 3, 2, 11, 6, 11] b with
    | [z0, ev, sc, od, vi, base, vd] =>
      withCode (Evict.ofCode ev) fun ev => withCode (Scope.ofCode sc) fun sc => withCode (MemOrd.ofCode od) fun od => chk (z0 == 0) (.vgth (.ofNat 11 vd) (.ofNat 6 base) (.ofNat 11 vi) ⟨od, sc, ev⟩)
    | _ => .error .reservedField
  | 2 => match unpack [13, 3, 3, 2, 11, 6, 11] b with
    | [z0, ev, sc, od, vi, base, vs] =>
      withCode (Evict.ofCode ev) fun ev => withCode (Scope.ofCode sc) fun sc => withCode (MemOrd.ofCode od) fun od => chk (z0 == 0) (.vsct (.ofNat 11 vs) (.ofNat 6 base) (.ofNat 11 vi) ⟨od, sc, ev⟩)
    | _ => .error .reservedField
  | 3 => match unpack [24, 3, 3, 2, 6, 11] b with
    | [off, ev, sc, z3, base, z5] =>
      withCode (Evict.ofCode ev) fun ev => withCode (Scope.ofCode sc) fun sc => chk (z3 == 0 && z5 == 0) (.pref (.ofNat 6 base) sc ev (.ofNat 24 off))
    | _ => .error .reservedField
  | 4 => match unpack [49] b with
    | [z0] =>
      chk (z0 == 0) (.mark)
    | _ => .error .reservedField
  | 5 => match unpack [24, 3, 3, 2, 6, 11] b with
    | [z0, z1, sc, od, z4, z5] =>
      withCode (Scope.ofCode sc) fun sc => withCode (MemOrd.ofCode od) fun od => chk (z0 == 0 && z1 == 0 && z4 == 0 && z5 == 0) (.fence od sc)
    | _ => .error .reservedField
  | 6 => match unpack [24, 3, 3, 2, 6, 11] b with
    | [off, z1, sc, z3, base, z5] =>
      withCode (Scope.ofCode sc) fun sc => chk (z1 == 0 && z3 == 0 && z5 == 0) (.cwb (.ofNat 6 base) sc (.ofNat 24 off))
    | _ => .error .reservedField
  | 7 => match unpack [24, 3, 3, 2, 6, 11] b with
    | [off, z1, sc, z3, base, z5] =>
      withCode (Scope.ofCode sc) fun sc => chk (z1 == 0 && z3 == 0 && z5 == 0) (.cinv (.ofNat 6 base) sc (.ofNat 24 off))
    | _ => .error .reservedField
  | 8 => match unpack [5, 20, 6, 6, 6, 6] b with
    | [ways, z1, z2, rb, ra, rd] =>
      chk (z1 == 0 && z2 == 0) (.retain (.ofNat 6 rd) (.ofNat 6 ra) (.ofNat 6 rb) (.ofNat 5 ways))
    | _ => .error .reservedField
  | 9 => match unpack [25, 6, 6, 6, 6] b with
    | [z0, z1, z2, ra, z4] =>
      chk (z0 == 0 && z1 == 0 && z2 == 0 && z4 == 0) (.unpin (.ofNat 6 ra))
    | _ => .error .reservedField
  | 10 => match unpack [25, 6, 6, 6, 6] b with
    | [z0, rc, rb, ra, z4] =>
      chk (z0 == 0 && z4 == 0) (.smap (.ofNat 6 ra) (.ofNat 6 rb) (.ofNat 6 rc))
    | _ => .error .reservedField
  | 11 => match unpack [25, 6, 6, 6, 6] b with
    | [z0, z1, z2, ra, z4] =>
      chk (z0 == 0 && z1 == 0 && z2 == 0 && z4 == 0) (.sunmap (.ofNat 6 ra))
    | _ => .error .reservedField
  | 12 => match unpack [25, 6, 6, 6, 6] b with
    | [z0, z1, z2, ra, z4] =>
      chk (z0 == 0 && z1 == 0 && z2 == 0 && z4 == 0) (.sflush (.ofNat 6 ra))
    | _ => .error .reservedField
  | _ => .error .illegalOpcode

/-- Bodies of opcodes 0x0E0 to 0x0EF; `lo` is the opcode's low four bits. -/
def decodePage0E (lo b : Nat) : Except DecodeFault Instr :=
  match lo with
  | 0 => match unpack [18, 1, 3, 3, 6, 6, 6, 6] b with
    | [off18, wide, ev, sc, z4, rb, base, rd] =>
      withCode (Evict.ofCode ev) fun ev => withCode (Scope.ofCode sc) fun sc => chk (z4 == 0) (.aadd (.ofNat 6 rd) (.ofNat 6 base) (.ofNat 6 rb) sc ev (wide == 1) (.ofNat 18 off18))
    | _ => .error .reservedField
  | 1 => match unpack [18, 1, 3, 3, 6, 6, 6, 6] b with
    | [off18, wide, ev, sc, z4, rb, base, rd] =>
      withCode (Evict.ofCode ev) fun ev => withCode (Scope.ofCode sc) fun sc => chk (z4 == 0) (.aand (.ofNat 6 rd) (.ofNat 6 base) (.ofNat 6 rb) sc ev (wide == 1) (.ofNat 18 off18))
    | _ => .error .reservedField
  | 2 => match unpack [18, 1, 3, 3, 6, 6, 6, 6] b with
    | [off18, wide, ev, sc, z4, rb, base, rd] =>
      withCode (Evict.ofCode ev) fun ev => withCode (Scope.ofCode sc) fun sc => chk (z4 == 0) (.aor (.ofNat 6 rd) (.ofNat 6 base) (.ofNat 6 rb) sc ev (wide == 1) (.ofNat 18 off18))
    | _ => .error .reservedField
  | 3 => match unpack [18, 1, 3, 3, 6, 6, 6, 6] b with
    | [off18, wide, ev, sc, z4, rb, base, rd] =>
      withCode (Evict.ofCode ev) fun ev => withCode (Scope.ofCode sc) fun sc => chk (z4 == 0) (.axor (.ofNat 6 rd) (.ofNat 6 base) (.ofNat 6 rb) sc ev (wide == 1) (.ofNat 18 off18))
    | _ => .error .reservedField
  | 4 => match unpack [18, 1, 3, 3, 6, 6, 6, 6] b with
    | [off18, wide, ev, sc, z4, rb, base, rd] =>
      withCode (Evict.ofCode ev) fun ev => withCode (Scope.ofCode sc) fun sc => chk (z4 == 0) (.amin (.ofNat 6 rd) (.ofNat 6 base) (.ofNat 6 rb) sc ev (wide == 1) (.ofNat 18 off18))
    | _ => .error .reservedField
  | 5 => match unpack [18, 1, 3, 3, 6, 6, 6, 6] b with
    | [off18, wide, ev, sc, z4, rb, base, rd] =>
      withCode (Evict.ofCode ev) fun ev => withCode (Scope.ofCode sc) fun sc => chk (z4 == 0) (.amax (.ofNat 6 rd) (.ofNat 6 base) (.ofNat 6 rb) sc ev (wide == 1) (.ofNat 18 off18))
    | _ => .error .reservedField
  | 6 => match unpack [18, 1, 3, 3, 6, 6, 6, 6] b with
    | [off18, wide, ev, sc, z4, rb, base, rd] =>
      withCode (Evict.ofCode ev) fun ev => withCode (Scope.ofCode sc) fun sc => chk (z4 == 0) (.aminu (.ofNat 6 rd) (.ofNat 6 base) (.ofNat 6 rb) sc ev (wide == 1) (.ofNat 18 off18))
    | _ => .error .reservedField
  | 7 => match unpack [18, 1, 3, 3, 6, 6, 6, 6] b with
    | [off18, wide, ev, sc, z4, rb, base, rd] =>
      withCode (Evict.ofCode ev) fun ev => withCode (Scope.ofCode sc) fun sc => chk (z4 == 0) (.amaxu (.ofNat 6 rd) (.ofNat 6 base) (.ofNat 6 rb) sc ev (wide == 1) (.ofNat 18 off18))
    | _ => .error .reservedField
  | 8 => match unpack [18, 1, 3, 3, 6, 6, 6, 6] b with
    | [off18, wide, ev, sc, z4, rb, base, rd] =>
      withCode (Evict.ofCode ev) fun ev => withCode (Scope.ofCode sc) fun sc => chk (z4 == 0) (.aswp (.ofNat 6 rd) (.ofNat 6 base) (.ofNat 6 rb) sc ev (wide == 1) (.ofNat 18 off18))
    | _ => .error .reservedField
  | 9 => match unpack [18, 1, 3, 3, 6, 6, 6, 6] b with
    | [off18, wide, ev, sc, rc, rb, base, rd] =>
      withCode (Evict.ofCode ev) fun ev => withCode (Scope.ofCode sc) fun sc => chk (true) (.acas (.ofNat 6 rd) (.ofNat 6 base) (.ofNat 6 rb) (.ofNat 6 rc) sc ev (wide == 1) (.ofNat 18 off18))
    | _ => .error .reservedField
  | 11 => match unpack [18, 1, 3, 3, 6, 6, 6, 6] b with
    | [off18, wide, ev, sc, z4, rb, base, z7] =>
      withCode (Evict.ofCode ev) fun ev => withCode (Scope.ofCode sc) fun sc => chk (z4 == 0 && z7 == 0) (.radd (.ofNat 6 base) (.ofNat 6 rb) sc ev (wide == 1) (.ofNat 18 off18))
    | _ => .error .reservedField
  | 12 => match unpack [18, 1, 3, 3, 6, 6, 6, 6] b with
    | [off18, z1, ev, sc, z4, rb, base, z7] =>
      withCode (Evict.ofCode ev) fun ev => withCode (Scope.ofCode sc) fun sc => chk (z1 == 0 && z4 == 0 && z7 == 0) (.rfadd (.ofNat 6 base) (.ofNat 6 rb) sc ev (.ofNat 18 off18))
    | _ => .error .reservedField
  | 13 => match unpack [18, 1, 3, 3, 6, 6, 6, 6] b with
    | [off18, wide, ev, sc, z4, rb, base, z7] =>
      withCode (Evict.ofCode ev) fun ev => withCode (Scope.ofCode sc) fun sc => chk (z4 == 0 && z7 == 0) (.rmin (.ofNat 6 base) (.ofNat 6 rb) sc ev (wide == 1) (.ofNat 18 off18))
    | _ => .error .reservedField
  | 14 => match unpack [18, 1, 3, 3, 6, 6, 6, 6] b with
    | [off18, wide, ev, sc, z4, rb, base, z7] =>
      withCode (Evict.ofCode ev) fun ev => withCode (Scope.ofCode sc) fun sc => chk (z4 == 0 && z7 == 0) (.rmax (.ofNat 6 base) (.ofNat 6 rb) sc ev (wide == 1) (.ofNat 18 off18))
    | _ => .error .reservedField
  | 15 => match unpack [18, 1, 3, 3, 6, 6, 6, 6] b with
    | [off18, z1, ev, sc, rc, rb, base, z7] =>
      withCode (Evict.ofCode ev) fun ev => withCode (Scope.ofCode sc) fun sc => chk (z1 == 0 && z7 == 0) (.rofadd (.ofNat 6 base) (.ofNat 6 rb) (.ofNat 6 rc) sc ev (.ofNat 18 off18))
    | _ => .error .reservedField
  | _ => .error .illegalOpcode

/-- Bodies of opcodes 0x0F0 to 0x0FF; `lo` is the opcode's low four bits. -/
def decodePage0F (lo b : Nat) : Except DecodeFault Instr :=
  match lo with
  | 0 => match unpack [13, 3, 3, 2, 11, 6, 11] b with
    | [z0, ev, sc, z3, vi, base, vs] =>
      withCode (Evict.ofCode ev) fun ev => withCode (Scope.ofCode sc) fun sc => chk (z0 == 0 && z3 == 0) (.vredm (.ofNat 11 vs) (.ofNat 6 base) (.ofNat 11 vi) sc ev)
    | _ => .error .reservedField
  | 1 => match unpack [18, 1, 3, 3, 6, 6, 6, 6] b with
    | [off18, wide, ev, sc, z4, rb, base, rd] =>
      withCode (Evict.ofCode ev) fun ev => withCode (Scope.ofCode sc) fun sc => chk (z4 == 0) (.mwait (.ofNat 6 rd) (.ofNat 6 base) (.ofNat 6 rb) sc ev (wide == 1) (.ofNat 18 off18))
    | _ => .error .reservedField
  | 4 => match unpack [18, 1, 3, 3, 6, 6, 6, 6] b with
    | [off18, z1, ev, sc, z4, rb, base, z7] =>
      withCode (Evict.ofCode ev) fun ev => withCode (Scope.ofCode sc) fun sc => chk (z1 == 0 && z4 == 0 && z7 == 0) (.barinit (.ofNat 6 base) (.ofNat 6 rb) sc ev (.ofNat 18 off18))
    | _ => .error .reservedField
  | 5 => match unpack [18, 1, 3, 3, 6, 6, 6, 6] b with
    | [off18, z1, ev, sc, z4, rb, base, rd] =>
      withCode (Evict.ofCode ev) fun ev => withCode (Scope.ofCode sc) fun sc => chk (z1 == 0 && z4 == 0) (.barrive (.ofNat 6 rd) (.ofNat 6 base) (.ofNat 6 rb) sc ev (.ofNat 18 off18))
    | _ => .error .reservedField
  | 6 => match unpack [18, 1, 3, 3, 6, 6, 6, 6] b with
    | [off18, z1, ev, sc, z4, rb, base, z7] =>
      withCode (Evict.ofCode ev) fun ev => withCode (Scope.ofCode sc) fun sc => chk (z1 == 0 && z4 == 0 && z7 == 0) (.barwait (.ofNat 6 base) (.ofNat 6 rb) sc ev (.ofNat 18 off18))
    | _ => .error .reservedField
  | _ => .error .illegalOpcode

/-- Bodies of opcodes 0x100 to 0x10F; `lo` is the opcode's low four bits. -/
def decodePage10 (lo b : Nat) : Except DecodeFault Instr :=
  match lo with
  | 0 => match unpack [5, 20, 6, 6, 6, 6] b with
    | [st, off64, z2, z3, ra, z5] =>
      chk (z2 == 0 && z3 == 0 && z5 == 0) (.setst (.ofNat 6 ra) (.ofNat 20 off64) (.ofNat 5 st))
    | _ => .error .reservedField
  | 1 => match unpack [5, 3, 17, 6, 6, 6, 6] b with
    | [st, k3, z2, z3, z4, z5, rd] =>
      chk (z2 == 0 && z3 == 0 && z4 == 0 && z5 == 0) (.getst (.ofNat 6 rd) (.ofNat 3 k3) (.ofNat 5 st))
    | _ => .error .reservedField
  | 2 => match unpack [5, 13, 7, 6, 6, 6, 6] b with
    | [st, n13, z2, z3, z4, z5, z6] =>
      chk (z2 == 0 && z3 == 0 && z4 == 0 && z5 == 0 && z6 == 0) (.wfill (.ofNat 13 n13) (.ofNat 5 st))
    | _ => .error .reservedField
  | 3 => match unpack [5, 13, 7, 6, 6, 6, 6] b with
    | [st, n13, z2, z3, z4, z5, z6] =>
      chk (z2 == 0 && z3 == 0 && z4 == 0 && z5 == 0 && z6 == 0) (.wfree (.ofNat 13 n13) (.ofNat 5 st))
    | _ => .error .reservedField
  | 4 => match unpack [5, 13, 7, 6, 6, 6, 6] b with
    | [st, n13, z2, z3, z4, z5, rd] =>
      chk (z2 == 0 && z3 == 0 && z4 == 0 && z5 == 0) (.claim (.ofNat 6 rd) (.ofNat 13 n13) (.ofNat 5 st))
    | _ => .error .reservedField
  | 5 => match unpack [5, 13, 7, 6, 6, 6, 6] b with
    | [st, n13, z2, z3, z4, z5, z6] =>
      chk (z2 == 0 && z3 == 0 && z4 == 0 && z5 == 0 && z6 == 0) (.publ (.ofNat 13 n13) (.ofNat 5 st))
    | _ => .error .reservedField
  | 6 => match unpack [5, 13, 7, 6, 6, 6, 6] b with
    | [st, n13, z2, z3, z4, z5, z6] =>
      chk (z2 == 0 && z3 == 0 && z4 == 0 && z5 == 0 && z6 == 0) (.popt (.ofNat 13 n13) (.ofNat 5 st))
    | _ => .error .reservedField
  | 7 => match unpack [5, 20, 6, 6, 6, 6] b with
    | [st, z1, z2, z3, ra, rd] =>
      chk (z1 == 0 && z2 == 0 && z3 == 0) (.raddr (.ofNat 6 rd) (.ofNat 6 ra) (.ofNat 5 st))
    | _ => .error .reservedField
  | 8 => match unpack [5, 3, 17, 6, 6, 6, 6] b with
    | [st, k3, z2, z3, z4, z5, rd] =>
      chk (z2 == 0 && z3 == 0 && z4 == 0 && z5 == 0) (.rstat (.ofNat 6 rd) (.ofNat 3 k3) (.ofNat 5 st))
    | _ => .error .reservedField
  | _ => .error .illegalOpcode

/-- Bodies of opcodes 0x130 to 0x13F; `lo` is the opcode's low four bits. -/
def decodePage13 (lo b : Nat) : Except DecodeFault Instr :=
  match lo with
  | 0 => match unpack [6, 18, 8, 8, 3, 6] b with
    | [rs, z1, z2, z3, eng, rd] =>
      withCode (Engine.ofCode eng) fun eng => chk (z1 == 0 && z2 == 0 && z3 == 0) (.enq (.ofNat 6 rd) eng (.ofNat 6 rs))
    | _ => .error .reservedField
  | 1 => match unpack [8, 1, 1, 1, 3, 5, 5, 8, 8, 3, 6] b with
    | [z0, popB, popA, z, acc, stB, stA, eosignal, eowait, z9, rd] =>
      chk (z0 == 0 && z9 == 0) (.mma (.ofNat 6 rd) ⟨.ofNat 8 eowait, .ofNat 8 eosignal⟩ (.ofNat 5 stA) (.ofNat 5 stB) (.ofNat 3 acc) (z == 1) (popA == 1) (popB == 1))
    | _ => .error .reservedField
  | 2 => match unpack [10, 1, 3, 5, 5, 8, 8, 3, 6] b with
    | [z0, oe, acc, stO, stD, eosignal, eowait, z7, rd] =>
      chk (z0 == 0 && z7 == 0) (.mret (.ofNat 6 rd) ⟨.ofNat 8 eowait, .ofNat 8 eosignal⟩ (.ofNat 5 stD) (.ofNat 5 stO) (.ofNat 3 acc) (oe == 1))
    | _ => .error .reservedField
  | 3 => match unpack [11, 3, 10, 8, 8, 3, 6] b with
    | [z0, acc, z2, eosignal, eowait, z5, rd] =>
      chk (z0 == 0 && z2 == 0 && z5 == 0) (.mzero (.ofNat 6 rd) ⟨.ofNat 8 eowait, .ofNat 8 eosignal⟩ (.ofNat 3 acc))
    | _ => .error .reservedField
  | 4 => match unpack [9, 4, 1, 5, 5, 8, 8, 3, 6] b with
    | [z0, n1, ce, stC, stS, eosignal, eowait, z7, rd] =>
      chk (z0 == 0 && z7 == 1) (.cpin (.ofNat 6 rd) ⟨.ofNat 8 eowait, .ofNat 8 eosignal⟩ (.ofNat 5 stS) (.ofNat 5 stC) (ce == 1) (.ofNat 4 n1))
    | _ => .error .reservedField
  | 5 => match unpack [9, 4, 1, 5, 5, 8, 8, 3, 6] b with
    | [z0, n1, ce, stC, stS, eosignal, eowait, z7, rd] =>
      chk (z0 == 0 && z7 == 2) (.cpout (.ofNat 6 rd) ⟨.ofNat 8 eowait, .ofNat 8 eosignal⟩ (.ofNat 5 stS) (.ofNat 5 stC) (ce == 1) (.ofNat 4 n1))
    | _ => .error .reservedField
  | 6 => match unpack [6, 3, 4, 1, 5, 5, 8, 8, 3, 6] b with
    | [z0, rop, n1, ce, stC, stS, eosignal, eowait, z8, rd] =>
      withCode (RedOp.ofCode rop) fun rop => chk (z0 == 0 && z8 == 2) (.cpred (.ofNat 6 rd) ⟨.ofNat 8 eowait, .ofNat 8 eosignal⟩ (.ofNat 5 stS) (.ofNat 5 stC) (ce == 1) (.ofNat 4 n1) rop)
    | _ => .error .reservedField
  | 7 => match unpack [9, 4, 1, 5, 5, 8, 8, 3, 6] b with
    | [z0, n1, ce, stC, stS, eosignal, eowait, z7, rd] =>
      chk (z0 == 0 && z7 == 1) (.cpstr (.ofNat 6 rd) ⟨.ofNat 8 eowait, .ofNat 8 eosignal⟩ (.ofNat 5 stS) (.ofNat 5 stC) (ce == 1) (.ofNat 4 n1))
    | _ => .error .reservedField
  | 8 => match unpack [3, 1, 5, 5, 5, 5, 8, 8, 3, 6] b with
    | [z0, ce, stC, stO, stD, stS, eosignal, eowait, z8, rd] =>
      chk (z0 == 0 && z8 == 3) (.gath (.ofNat 6 rd) ⟨.ofNat 8 eowait, .ofNat 8 eosignal⟩ (.ofNat 5 stS) (.ofNat 5 stD) (.ofNat 5 stO) (.ofNat 5 stC) (ce == 1))
    | _ => .error .reservedField
  | 9 => match unpack [4, 1, 1, 8, 5, 5, 8, 8, 3, 6] b with
    | [z0, pop, pairs, k1, stO, stI, eosignal, eowait, z8, rd] =>
      chk (z0 == 0 && z8 == 4) (.topk (.ofNat 6 rd) ⟨.ofNat 8 eowait, .ofNat 8 eosignal⟩ (.ofNat 5 stI) (.ofNat 5 stO) (.ofNat 8 k1) (pairs == 1) (pop == 1))
    | _ => .error .reservedField
  | 10 => match unpack [3, 5, 16, 8, 8, 3, 6] b with
    | [ev3, mask5, z2, eosignal, eowait, eng, rd] =>
      withCode (Engine.ofCode eng) fun eng => chk (z2 == 0) (.notify (.ofNat 6 rd) eng ⟨.ofNat 8 eowait, .ofNat 8 eosignal⟩ (.ofNat 5 mask5) (.ofNat 3 ev3))
    | _ => .error .reservedField
  | 11 => match unpack [5, 19, 8, 8, 3, 6] b with
    | [mask5, z1, z2, z3, z4, z5] =>
      chk (z1 == 0 && z2 == 0 && z3 == 0 && z4 == 0 && z5 == 0) (.gfence (.ofNat 5 mask5))
    | _ => .error .reservedField
  | 12 => match unpack [3, 21, 8, 8, 3, 6] b with
    | [ev3, z1, z2, z3, z4, z5] =>
      chk (z1 == 0 && z2 == 0 && z3 == 0 && z4 == 0 && z5 == 0) (.waitev (.ofNat 3 ev3))
    | _ => .error .reservedField
  | 13 => match unpack [6, 18, 8, 8, 3, 6] b with
    | [rs, z1, z2, z3, eng, z5] =>
      withCode (Engine.ofCode eng) fun eng => chk (z1 == 0 && z2 == 0 && z3 == 0 && z5 == 0) (.ewait eng (.ofNat 6 rs))
    | _ => .error .reservedField
  | 14 => match unpack [2, 22, 8, 8, 3, 6] b with
    | [sel2, z1, z2, z3, eng, rd] =>
      withCode (Engine.ofCode eng) fun eng => chk (z1 == 0 && z2 == 0 && z3 == 0) (.eseq (.ofNat 6 rd) eng (.ofNat 2 sel2))
    | _ => .error .reservedField
  | 15 => match unpack [6, 18, 8, 8, 3, 6] b with
    | [rs, z1, z2, z3, eng, rd] =>
      withCode (Engine.ofCode eng) fun eng => chk (z1 == 0 && z2 == 0 && z3 == 0) (.bstat (.ofNat 6 rd) eng (.ofNat 6 rs))
    | _ => .error .reservedField
  | _ => .error .illegalOpcode

/-- Bodies of opcodes 0x140 to 0x14F; `lo` is the opcode's low four bits. -/
def decodePage14 (lo b : Nat) : Except DecodeFault Instr :=
  match lo with
  | 0 => match unpack [2, 5, 18, 6, 6, 6, 6] b with
    | [mode, mask5, z2, z3, z4, z5, z6] =>
      withCode (BindMode.ofCode mode) fun mode => chk (z2 == 0 && z3 == 0 && z4 == 0 && z5 == 0 && z6 == 0) (.bpref (.ofNat 5 mask5) mode)
    | _ => .error .reservedField
  | 8 => match unpack [25, 6, 6, 6, 6] b with
    | [z0, z1, z2, ra, rd] =>
      chk (z0 == 0 && z1 == 0 && z2 == 0) (.launch (.ofNat 6 rd) (.ofNat 6 ra))
    | _ => .error .reservedField
  | 9 => match unpack [25, 6, 6, 6, 6] b with
    | [z0, z1, z2, z3, z4] =>
      chk (z0 == 0 && z1 == 0 && z2 == 0 && z3 == 0 && z4 == 0) (.trigger)
    | _ => .error .reservedField
  | 10 => match unpack [25, 6, 6, 6, 6] b with
    | [z0, z1, z2, z3, z4] =>
      chk (z0 == 0 && z1 == 0 && z2 == 0 && z3 == 0 && z4 == 0) (.depwait)
    | _ => .error .reservedField
  | 11 => match unpack [25, 6, 6, 6, 6] b with
    | [z0, z1, z2, ra, z4] =>
      chk (z0 == 0 && z1 == 0 && z2 == 0 && z4 == 0) (.dqpush (.ofNat 6 ra))
    | _ => .error .reservedField
  | 12 => match unpack [4, 21, 6, 6, 6, 6] b with
    | [pn, z1, z2, z3, z4, rd] =>
      chk (z1 == 0 && z2 == 0 && z3 == 0 && z4 == 0) (.dqpop (.ofNat 6 rd) (.ofNat 4 pn))
    | _ => .error .reservedField
  | 13 => match unpack [4, 1, 20, 6, 6, 6, 6] b with
    | [pn, ring, z2, z3, z4, ra, rd] =>
      if ring == 1 then chk (z2 == 0 && z3 == 0 && z4 == 0 && ra == 0) (.dqstealRing (.ofNat 6 rd) (.ofNat 4 pn))
      else chk (z2 == 0 && z3 == 0 && z4 == 0) (.dqsteal (.ofNat 6 rd) (.ofNat 6 ra) (.ofNat 4 pn))
    | _ => .error .reservedField
  | _ => .error .illegalOpcode

/-- Bodies of opcodes 0x160 to 0x16F; `lo` is the opcode's low four bits. -/
def decodePage16 (lo b : Nat) : Except DecodeFault Instr :=
  match lo with
  | 0 => match unpack [6, 2, 4, 4, 11, 11, 11] b with
    | [z0, rm, ty, mk, vb, va, vd] =>
      withCode (Rounding.ofCode rm) fun rm => withCode (ElemType.ofCode ty) fun ty => chk (z0 == 0) (.vadd (.ofNat 11 vd) (.ofNat 11 va) (.ofNat 11 vb) (.ofNat 4 mk) ty rm)
    | _ => .error .reservedField
  | 1 => match unpack [6, 2, 4, 4, 11, 11, 11] b with
    | [z0, rm, ty, mk, vb, va, vd] =>
      withCode (Rounding.ofCode rm) fun rm => withCode (ElemType.ofCode ty) fun ty => chk (z0 == 0) (.vsub (.ofNat 11 vd) (.ofNat 11 va) (.ofNat 11 vb) (.ofNat 4 mk) ty rm)
    | _ => .error .reservedField
  | 2 => match unpack [6, 2, 4, 4, 11, 11, 11] b with
    | [z0, rm, ty, mk, vb, va, vd] =>
      withCode (Rounding.ofCode rm) fun rm => withCode (ElemType.ofCode ty) fun ty => chk (z0 == 0) (.vmul (.ofNat 11 vd) (.ofNat 11 va) (.ofNat 11 vb) (.ofNat 4 mk) ty rm)
    | _ => .error .reservedField
  | 3 => match unpack [1, 4, 11, 11, 11, 11] b with
    | [z0, mk, vc, vb, va, vd] =>
      chk (z0 == 0) (.vfma (.ofNat 11 vd) (.ofNat 11 va) (.ofNat 11 vb) (.ofNat 11 vc) (.ofNat 4 mk))
    | _ => .error .reservedField
  | 4 => match unpack [1, 4, 11, 11, 11, 11] b with
    | [z0, mk, vc, vb, va, vd] =>
      chk (z0 == 0) (.vfmah (.ofNat 11 vd) (.ofNat 11 va) (.ofNat 11 vb) (.ofNat 11 vc) (.ofNat 4 mk))
    | _ => .error .reservedField
  | 5 => match unpack [1, 4, 11, 11, 11, 11] b with
    | [z0, mk, vc, vb, va, vd] =>
      chk (z0 == 0) (.vfmab (.ofNat 11 vd) (.ofNat 11 va) (.ofNat 11 vb) (.ofNat 11 vc) (.ofNat 4 mk))
    | _ => .error .reservedField
  | 6 => match unpack [6, 2, 4, 4, 11, 11, 11] b with
    | [z0, rm, ty, mk, vb, va, vd] =>
      withCode (Rounding.ofCode rm) fun rm => withCode (ElemType.ofCode ty) fun ty => chk (z0 == 0) (.vmin (.ofNat 11 vd) (.ofNat 11 va) (.ofNat 11 vb) (.ofNat 4 mk) ty rm)
    | _ => .error .reservedField
  | 7 => match unpack [6, 2, 4, 4, 11, 11, 11] b with
    | [z0, rm, ty, mk, vb, va, vd] =>
      withCode (Rounding.ofCode rm) fun rm => withCode (ElemType.ofCode ty) fun ty => chk (z0 == 0) (.vmax (.ofNat 11 vd) (.ofNat 11 va) (.ofNat 11 vb) (.ofNat 4 mk) ty rm)
    | _ => .error .reservedField
  | 8 => match unpack [6, 2, 4, 4, 11, 11, 11] b with
    | [z0, rm, ty, mk, z4, va, vd] =>
      withCode (Rounding.ofCode rm) fun rm => withCode (ElemType.ofCode ty) fun ty => chk (z0 == 0 && z4 == 0) (.vabs (.ofNat 11 vd) (.ofNat 11 va) (.ofNat 4 mk) ty rm)
    | _ => .error .reservedField
  | 9 => match unpack [6, 2, 4, 4, 11, 11, 11] b with
    | [z0, rm, ty, mk, z4, va, vd] =>
      withCode (Rounding.ofCode rm) fun rm => withCode (ElemType.ofCode ty) fun ty => chk (z0 == 0 && z4 == 0) (.vneg (.ofNat 11 vd) (.ofNat 11 va) (.ofNat 4 mk) ty rm)
    | _ => .error .reservedField
  | 10 => match unpack [6, 2, 4, 4, 11, 11, 11] b with
    | [z0, z1, z2, mk, vb, va, vd] =>
      chk (z0 == 0 && z1 == 0 && z2 == 0) (.vand (.ofNat 11 vd) (.ofNat 11 va) (.ofNat 11 vb) (.ofNat 4 mk))
    | _ => .error .reservedField
  | 11 => match unpack [6, 2, 4, 4, 11, 11, 11] b with
    | [z0, z1, z2, mk, vb, va, vd] =>
      chk (z0 == 0 && z1 == 0 && z2 == 0) (.vor (.ofNat 11 vd) (.ofNat 11 va) (.ofNat 11 vb) (.ofNat 4 mk))
    | _ => .error .reservedField
  | 12 => match unpack [6, 2, 4, 4, 11, 11, 11] b with
    | [z0, z1, z2, mk, vb, va, vd] =>
      chk (z0 == 0 && z1 == 0 && z2 == 0) (.vxor (.ofNat 11 vd) (.ofNat 11 va) (.ofNat 11 vb) (.ofNat 4 mk))
    | _ => .error .reservedField
  | 13 => match unpack [5, 1, 2, 4, 4, 11, 11, 11] b with
    | [amt, imm1, z2, ty, mk, vb, va, vd] =>
      withCode (ElemType.ofCode ty) fun ty => chk (z2 == 0) (.vshl (.ofNat 11 vd) (.ofNat 11 va) (.ofNat 11 vb) (.ofNat 4 mk) ty (imm1 == 1) (.ofNat 5 amt))
    | _ => .error .reservedField
  | 14 => match unpack [5, 1, 2, 4, 4, 11, 11, 11] b with
    | [amt, imm1, z2, ty, mk, vb, va, vd] =>
      withCode (ElemType.ofCode ty) fun ty => chk (z2 == 0) (.vshr (.ofNat 11 vd) (.ofNat 11 va) (.ofNat 11 vb) (.ofNat 4 mk) ty (imm1 == 1) (.ofNat 5 amt))
    | _ => .error .reservedField
  | 15 => match unpack [5, 1, 2, 4, 4, 11, 11, 11] b with
    | [amt, imm1, z2, ty, mk, vb, va, vd] =>
      withCode (ElemType.ofCode ty) fun ty => chk (z2 == 0) (.vsar (.ofNat 11 vd) (.ofNat 11 va) (.ofNat 11 vb) (.ofNat 4 mk) ty (imm1 == 1) (.ofNat 5 amt))
    | _ => .error .reservedField
  | _ => .error .illegalOpcode

/-- Bodies of opcodes 0x170 to 0x17F; `lo` is the opcode's low four bits. -/
def decodePage17 (lo b : Nat) : Except DecodeFault Instr :=
  match lo with
  | 0 => match unpack [3, 3, 2, 4, 4, 11, 11, 4, 7] b with
    | [cc, z1, z2, ty, mk, vb, va, md, z8] =>
      withCode (Cond.ofCode cc) fun cc => withCode (ElemType.ofCode ty) fun ty => chk (z1 == 0 && z2 == 0 && z8 == 0) (.vcmp (.ofNat 4 md) (.ofNat 11 va) (.ofNat 11 vb) (.ofNat 4 mk) ty cc)
    | _ => .error .reservedField
  | 1 => match unpack [6, 2, 4, 4, 11, 11, 11] b with
    | [z0, z1, z2, mk, vb, va, vd] =>
      chk (z0 == 0 && z1 == 0 && z2 == 0) (.vsel (.ofNat 11 vd) (.ofNat 11 va) (.ofNat 11 vb) (.ofNat 4 mk))
    | _ => .error .reservedField
  | 2 => match unpack [6, 2, 4, 4, 11, 11, 11] b with
    | [z0, z1, z2, mk, z4, va, vd] =>
      chk (z0 == 0 && z1 == 0 && z2 == 0 && z4 == 0) (.vmov (.ofNat 11 vd) (.ofNat 11 va) (.ofNat 4 mk))
    | _ => .error .reservedField
  | 3 => match unpack [13, 4, 4, 6, 11, 11] b with
    | [z0, ty, mk, ra, z4, vd] =>
      withCode (ElemType.ofCode ty) fun ty => chk (z0 == 0 && z4 == 0) (.vbcast (.ofNat 11 vd) (.ofNat 6 ra) (.ofNat 4 mk) ty)
    | _ => .error .reservedField
  | 4 => match unpack [13, 4, 4, 6, 11, 11] b with
    | [j, ty, z2, rd, va, z5] =>
      withCode (ElemType.ofCode ty) fun ty => chk (z2 == 0 && z5 == 0) (.vext (.ofNat 11 va) (.ofNat 6 rd) ty (.ofNat 13 j))
    | _ => .error .reservedField
  | 5 => match unpack [13, 4, 4, 6, 11, 11] b with
    | [j, ty, z2, ra, z4, vd] =>
      withCode (ElemType.ofCode ty) fun ty => chk (z2 == 0 && z4 == 0) (.vins (.ofNat 11 vd) (.ofNat 6 ra) ty (.ofNat 13 j))
    | _ => .error .reservedField
  | 6 => match unpack [6, 2, 4, 4, 11, 11, 11] b with
    | [z0, z1, z2, mk, vb, va, vd] =>
      chk (z0 == 0 && z1 == 0 && z2 == 0) (.vperm (.ofNat 11 vd) (.ofNat 11 va) (.ofNat 11 vb) (.ofNat 4 mk))
    | _ => .error .reservedField
  | 7 => match unpack [6, 2, 4, 4, 11, 11, 11] b with
    | [n6, z1, z2, mk, z4, va, vd] =>
      chk (z1 == 0 && z2 == 0 && z4 == 0) (.vrot (.ofNat 11 vd) (.ofNat 11 va) (.ofNat 4 mk) (.ofNat 6 n6))
    | _ => .error .reservedField
  | 8 => match unpack [6, 2, 4, 4, 11, 11, 11] b with
    | [z0, z1, ty, mk, z4, z5, vd] =>
      withCode (ElemType.ofCode ty) fun ty => chk (z0 == 0 && z1 == 0 && z4 == 0 && z5 == 0) (.viota (.ofNat 11 vd) (.ofNat 4 mk) ty)
    | _ => .error .reservedField
  | 9 => match unpack [6, 2, 4, 4, 11, 11, 11] b with
    | [z0, rm, ty, mk, z4, va, vd] =>
      withCode (Rounding.ofCode rm) fun rm => withCode (ElemType.ofCode ty) fun ty => chk (z0 == 0 && z4 == 0) (.vrsum (.ofNat 11 vd) (.ofNat 11 va) (.ofNat 4 mk) ty rm)
    | _ => .error .reservedField
  | 10 => match unpack [6, 2, 4, 4, 11, 11, 11] b with
    | [z0, rm, ty, mk, z4, va, vd] =>
      withCode (Rounding.ofCode rm) fun rm => withCode (ElemType.ofCode ty) fun ty => chk (z0 == 0 && z4 == 0) (.vrmax (.ofNat 11 vd) (.ofNat 11 va) (.ofNat 4 mk) ty rm)
    | _ => .error .reservedField
  | 11 => match unpack [6, 2, 4, 4, 11, 11, 11] b with
    | [z0, rm, ty, mk, z4, va, vd] =>
      withCode (Rounding.ofCode rm) fun rm => withCode (ElemType.ofCode ty) fun ty => chk (z0 == 0 && z4 == 0) (.vrmin (.ofNat 11 vd) (.ofNat 11 va) (.ofNat 4 mk) ty rm)
    | _ => .error .reservedField
  | 12 => match unpack [6, 2, 4, 4, 11, 11, 11] b with
    | [z0, rm, ty, mk, z4, va, vd] =>
      withCode (Rounding.ofCode rm) fun rm => withCode (ElemType.ofCode ty) fun ty => chk (z0 == 0 && z4 == 0) (.vscan (.ofNat 11 vd) (.ofNat 11 va) (.ofNat 4 mk) ty rm)
    | _ => .error .reservedField
  | 13 => match unpack [6, 2, 4, 4, 11, 11, 11] b with
    | [z0, rm, ty, mk, vb, va, vd] =>
      withCode (Rounding.ofCode rm) fun rm => withCode (ElemType.ofCode ty) fun ty => chk (z0 == 0) (.vdiv (.ofNat 11 vd) (.ofNat 11 va) (.ofNat 11 vb) (.ofNat 4 mk) ty rm)
    | _ => .error .reservedField
  | 14 => match unpack [6, 2, 4, 4, 11, 11, 11] b with
    | [z0, rm, ty, mk, z4, va, vd] =>
      withCode (Rounding.ofCode rm) fun rm => withCode (ElemType.ofCode ty) fun ty => chk (z0 == 0 && z4 == 0) (.vsqrt (.ofNat 11 vd) (.ofNat 11 va) (.ofNat 4 mk) ty rm)
    | _ => .error .reservedField
  | 15 => match unpack [6, 2, 4, 4, 11, 11, 11] b with
    | [z0, rm, ty, mk, z4, va, vd] =>
      withCode (Rounding.ofCode rm) fun rm => withCode (ElemType.ofCode ty) fun ty => chk (z0 == 0 && z4 == 0) (.vrcp (.ofNat 11 vd) (.ofNat 11 va) (.ofNat 4 mk) ty rm)
    | _ => .error .reservedField
  | _ => .error .illegalOpcode

/-- Bodies of opcodes 0x180 to 0x18F; `lo` is the opcode's low four bits. -/
def decodePage18 (lo b : Nat) : Except DecodeFault Instr :=
  match lo with
  | 0 => match unpack [6, 2, 4, 4, 11, 11, 11] b with
    | [z0, rm, ty, mk, z4, va, vd] =>
      withCode (Rounding.ofCode rm) fun rm => withCode (ElemType.ofCode ty) fun ty => chk (z0 == 0 && z4 == 0) (.vrsqrt (.ofNat 11 vd) (.ofNat 11 va) (.ofNat 4 mk) ty rm)
    | _ => .error .reservedField
  | 1 => match unpack [6, 2, 4, 4, 11, 11, 11] b with
    | [z0, rm, ty, mk, z4, va, vd] =>
      withCode (Rounding.ofCode rm) fun rm => withCode (ElemType.ofCode ty) fun ty => chk (z0 == 0 && z4 == 0) (.vexp2 (.ofNat 11 vd) (.ofNat 11 va) (.ofNat 4 mk) ty rm)
    | _ => .error .reservedField
  | 2 => match unpack [6, 2, 4, 4, 11, 11, 11] b with
    | [z0, rm, ty, mk, z4, va, vd] =>
      withCode (Rounding.ofCode rm) fun rm => withCode (ElemType.ofCode ty) fun ty => chk (z0 == 0 && z4 == 0) (.vlog2 (.ofNat 11 vd) (.ofNat 11 va) (.ofNat 4 mk) ty rm)
    | _ => .error .reservedField
  | 3 => match unpack [6, 2, 4, 4, 11, 11, 11] b with
    | [z0, rm, ty, mk, z4, va, vd] =>
      withCode (Rounding.ofCode rm) fun rm => withCode (ElemType.ofCode ty) fun ty => chk (z0 == 0 && z4 == 0) (.vtanh (.ofNat 11 vd) (.ofNat 11 va) (.ofNat 4 mk) ty rm)
    | _ => .error .reservedField
  | 4 => match unpack [6, 2, 4, 4, 11, 11, 11] b with
    | [z0, rm, ty, mk, z4, va, vd] =>
      withCode (Rounding.ofCode rm) fun rm => withCode (ElemType.ofCode ty) fun ty => chk (z0 == 0 && z4 == 0) (.vrnd (.ofNat 11 vd) (.ofNat 11 va) (.ofNat 4 mk) ty rm)
    | _ => .error .reservedField
  | 5 => match unpack [6, 2, 4, 4, 4, 7, 4, 7, 4, 7] b with
    | [z0, z1, z2, z3, mb, z5, ma, z7, md, z9] =>
      chk (z0 == 0 && z1 == 0 && z2 == 0 && z3 == 0 && z5 == 0 && z7 == 0 && z9 == 0) (.mand (.ofNat 4 md) (.ofNat 4 ma) (.ofNat 4 mb))
    | _ => .error .reservedField
  | 6 => match unpack [6, 2, 4, 4, 4, 7, 4, 7, 4, 7] b with
    | [z0, z1, z2, z3, mb, z5, ma, z7, md, z9] =>
      chk (z0 == 0 && z1 == 0 && z2 == 0 && z3 == 0 && z5 == 0 && z7 == 0 && z9 == 0) (.mor (.ofNat 4 md) (.ofNat 4 ma) (.ofNat 4 mb))
    | _ => .error .reservedField
  | 7 => match unpack [6, 2, 4, 4, 11, 4, 7, 4, 7] b with
    | [z0, z1, z2, z3, z4, ma, z6, md, z8] =>
      chk (z0 == 0 && z1 == 0 && z2 == 0 && z3 == 0 && z4 == 0 && z6 == 0 && z8 == 0) (.mnot (.ofNat 4 md) (.ofNat 4 ma))
    | _ => .error .reservedField
  | 8 => match unpack [1, 12, 4, 4, 6, 11, 11] b with
    | [first, z1, z2, mk, rd, z5, z6] =>
      chk (z1 == 0 && z2 == 0 && z5 == 0 && z6 == 0) (.mpop (.ofNat 6 rd) (.ofNat 4 mk) (first == 1))
    | _ => .error .reservedField
  | 9 => match unpack [13, 4, 4, 6, 11, 11] b with
    | [z0, ty, mk, ra, va, vd] =>
      withCode (ElemType.ofCode ty) fun ty => chk (z0 == 0) (.vadds (.ofNat 11 vd) (.ofNat 11 va) (.ofNat 6 ra) (.ofNat 4 mk) ty)
    | _ => .error .reservedField
  | 10 => match unpack [13, 4, 4, 6, 11, 11] b with
    | [z0, ty, mk, ra, va, vd] =>
      withCode (ElemType.ofCode ty) fun ty => chk (z0 == 0) (.vmuls (.ofNat 11 vd) (.ofNat 11 va) (.ofNat 6 ra) (.ofNat 4 mk) ty)
    | _ => .error .reservedField
  | _ => .error .illegalOpcode

/-- Bodies of opcodes 0x1C0 to 0x1CF; `lo` is the opcode's low four bits. -/
def decodePage1C (lo b : Nat) : Except DecodeFault Instr :=
  match lo with
  | 0 => match unpack [4, 2, 2, 4, 4, 11, 11, 11] b with
    | [src, z1, rm, ty, mk, z5, va, vd] =>
      withCode (ElemType.ofCode src) fun src => withCode (Rounding.ofCode rm) fun rm => withCode (ElemType.ofCode ty) fun ty => chk (z1 == 0 && z5 == 0) (.vcvt (.ofNat 11 vd) (.ofNat 11 va) (.ofNat 4 mk) ty rm src)
    | _ => .error .reservedField
  | 1 => match unpack [4, 2, 2, 4, 4, 11, 11, 11] b with
    | [src, z1, rm, ty, mk, vb, va, vd] =>
      withCode (ElemType.ofCode src) fun src => withCode (Rounding.ofCode rm) fun rm => withCode (ElemType.ofCode ty) fun ty => chk (z1 == 0) (.vpack (.ofNat 11 vd) (.ofNat 11 va) (.ofNat 11 vb) (.ofNat 4 mk) ty rm src)
    | _ => .error .reservedField
  | 2 => match unpack [4, 1, 1, 2, 4, 4, 11, 11, 11] b with
    | [src, h, z2, rm, ty, mk, z6, va, vd] =>
      withCode (ElemType.ofCode src) fun src => withCode (Rounding.ofCode rm) fun rm => withCode (ElemType.ofCode ty) fun ty => chk (z2 == 0 && z6 == 0) (.vunpk (.ofNat 11 vd) (.ofNat 11 va) (.ofNat 4 mk) ty rm (h == 1) src)
    | _ => .error .reservedField
  | 3 => match unpack [2, 4, 2, 4, 4, 11, 11, 11] b with
    | [p2, z1, z2, ty, mk, z5, va, vd] =>
      withCode (ElemType.ofCode ty) fun ty => chk (z1 == 0 && z2 == 0 && z5 == 0) (.vzenc (.ofNat 11 vd) (.ofNat 11 va) (.ofNat 4 mk) ty (.ofNat 2 p2))
    | _ => .error .reservedField
  | 4 => match unpack [6, 2, 4, 4, 11, 11, 11] b with
    | [k6, rm, ty, mk, z4, va, vd] =>
      withCode (Rounding.ofCode rm) fun rm => withCode (ElemType.ofCode ty) fun ty => chk (z4 == 0) (.vzdec (.ofNat 11 vd) (.ofNat 11 va) (.ofNat 4 mk) ty rm (.ofNat 6 k6))
    | _ => .error .reservedField
  | 5 => match unpack [6, 2, 4, 4, 11, 11, 11] b with
    | [z0, z1, z2, mk, vb, va, vd] =>
      chk (z0 == 0 && z1 == 0 && z2 == 11) (.vzmac (.ofNat 11 vd) (.ofNat 11 va) (.ofNat 11 vb) (.ofNat 4 mk))
    | _ => .error .reservedField
  | 6 => match unpack [6, 2, 4, 4, 11, 11, 11] b with
    | [z0, z1, z2, mk, vb, va, vd] =>
      chk (z0 == 0 && z1 == 0 && z2 == 11) (.vzmul (.ofNat 11 vd) (.ofNat 11 va) (.ofNat 11 vb) (.ofNat 4 mk))
    | _ => .error .reservedField
  | 7 => match unpack [6, 2, 4, 4, 11, 11, 11] b with
    | [z0, z1, z2, mk, vb, va, vd] =>
      chk (z0 == 0 && z1 == 0 && z2 == 11) (.vzadd (.ofNat 11 vd) (.ofNat 11 va) (.ofNat 11 vb) (.ofNat 4 mk))
    | _ => .error .reservedField
  | 8 => match unpack [6, 2, 4, 4, 11, 11, 11] b with
    | [z0, rm, ty, mk, vb, va, vd] =>
      withCode (Rounding.ofCode rm) fun rm => withCode (ElemType.ofCode ty) fun ty => chk (z0 == 0) (.vscale (.ofNat 11 vd) (.ofNat 11 va) (.ofNat 11 vb) (.ofNat 4 mk) ty rm)
    | _ => .error .reservedField
  | 9 => match unpack [3, 2, 1, 2, 4, 4, 11, 11, 11] b with
    | [p3, z1, rn4, rm, z4, mk, vb, va, vd] =>
      withCode (Rounding.ofCode rm) fun rm => chk (z1 == 0 && z4 == 8) (.vquant (.ofNat 11 vd) (.ofNat 11 va) (.ofNat 11 vb) (.ofNat 4 mk) rm (rn4 == 1) (.ofNat 3 p3))
    | _ => .error .reservedField
  | 10 => match unpack [5, 1, 2, 4, 4, 11, 11, 4, 7] b with
    | [z0, rn4, z2, z3, mk, vb, va, md, z8] =>
      chk (z0 == 0 && z2 == 0 && z3 == 8 && z8 == 0) (.vochk (.ofNat 4 md) (.ofNat 11 va) (.ofNat 11 vb) (.ofNat 4 mk) (rn4 == 1))
    | _ => .error .reservedField
  | 11 => match unpack [6, 2, 4, 4, 11, 11, 11] b with
    | [z0, z1, z2, mk, z4, va, vd] =>
      chk (z0 == 0 && z1 == 0 && z2 == 0 && z4 == 0) (.vcomp (.ofNat 11 vd) (.ofNat 11 va) (.ofNat 4 mk))
    | _ => .error .reservedField
  | _ => .error .illegalOpcode

/-- Bodies of opcodes 0x1E0 to 0x1EF; `lo` is the opcode's low four bits. -/
def decodePage1E (lo b : Nat) : Except DecodeFault Instr :=
  match lo with
  | 9 => match unpack [4, 21, 6, 6, 6, 6] b with
    | [slot, z1, z2, z3, ra, z5] =>
      chk (z1 == 0 && z2 == 0 && z3 == 0 && z5 == 0) (.csload (.ofNat 6 ra) (.ofNat 4 slot))
    | _ => .error .reservedField
  | 10 => match unpack [4, 21, 6, 6, 6, 6] b with
    | [slot, z1, z2, z3, z4, z5] =>
      chk (z1 == 0 && z2 == 0 && z3 == 0 && z4 == 0 && z5 == 0) (.csunbind (.ofNat 4 slot))
    | _ => .error .reservedField
  | 0 => match unpack [16, 9, 6, 6, 6, 6] b with
    | [n16, z1, z2, z3, z4, z5] =>
      chk (z1 == 0 && z2 == 0 && z3 == 0 && z4 == 0 && z5 == 0) (.trap (.ofNat 16 n16))
    | _ => .error .reservedField
  | 1 => match unpack [25, 6, 6, 6, 6] b with
    | [z0, z1, z2, z3, z4] =>
      chk (z0 == 0 && z1 == 0 && z2 == 0 && z3 == 0 && z4 == 0) (.eret)
    | _ => .error .reservedField
  | 4 => match unpack [16, 9, 6, 6, 6, 6] b with
    | [n16, z1, z2, z3, z4, z5] =>
      chk (z1 == 0 && z2 == 0 && z3 == 0 && z4 == 0 && z5 == 0) (.bkpt (.ofNat 16 n16))
    | _ => .error .reservedField
  | 5 => match unpack [25, 6, 6, 6, 6] b with
    | [z0, z1, z2, z3, rd] =>
      chk (z0 == 0 && z1 == 0 && z2 == 0 && z3 == 0) (.rdcyc (.ofNat 6 rd))
    | _ => .error .reservedField
  | 6 => match unpack [25, 6, 6, 6, 6] b with
    | [z0, z1, z2, z3, rd] =>
      chk (z0 == 0 && z1 == 0 && z2 == 0 && z3 == 0) (.rdtime (.ofNat 6 rd))
    | _ => .error .reservedField
  | 7 => match unpack [2, 23, 6, 6, 6, 6] b with
    | [kind, z1, z2, rb, ra, z5] =>
      withCode (InvKind.ofCode kind) fun kind => chk (z1 == 0 && z2 == 0 && z5 == 0) (.tlbinv (.ofNat 6 ra) (.ofNat 6 rb) kind)
    | _ => .error .reservedField
  | 8 => match unpack [25, 6, 6, 6, 6] b with
    | [z0, z1, z2, ra, rd] =>
      chk (z0 == 0 && z1 == 0 && z2 == 0) (.dharv (.ofNat 6 rd) (.ofNat 6 ra))
    | _ => .error .reservedField
  | 11 => match unpack [2, 23, 6, 6, 6, 6] b with
    | [smode, z1, rc, rb, ra, rd] =>
      withCode (SaveMode.ofCode smode) fun smode => chk (z1 == 0) (.ctxsave (.ofNat 6 rd) (.ofNat 6 ra) (.ofNat 6 rb) (.ofNat 6 rc) smode)
    | _ => .error .reservedField
  | 12 => match unpack [25, 6, 6, 6, 6] b with
    | [z0, z1, z2, ra, rd] =>
      chk (z0 == 0 && z1 == 0 && z2 == 0) (.ctxload (.ofNat 6 rd) (.ofNat 6 ra))
    | _ => .error .reservedField
  | _ => .error .illegalOpcode

/-- Bodies of opcodes 0x1F0 to 0x1FF; `lo` is the opcode's low four bits. -/
def decodePage1F (lo b : Nat) : Except DecodeFault Instr :=
  match lo with
  | lo => match unpack [6, 6, 4, 11, 11, 11] b with
    | [imm6, ra, mk, vb, va, vd] =>
      chk (true) (.mop (.ofNat 4 lo) (.ofNat 11 vd) (.ofNat 11 va) (.ofNat 11 vb) (.ofNat 4 mk) (.ofNat 6 ra) (.ofNat 6 imm6))
    | _ => .error .reservedField

/-- The body of a syllable read by its opcode (R17, R25). -/
def decodeBody (op b : Nat) : Except DecodeFault Instr :=
  match op / 16 with
  | 0 => decodePage00 (op % 16) b
  | 1 => decodePage01 (op % 16) b
  | 2 => decodePage02 (op % 16) b
  | 4 => decodePage04 (op % 16) b
  | 6 => decodePage06 (op % 16) b
  | 8 => decodePage08 (op % 16) b
  | 10 => decodePage0A (op % 16) b
  | 11 => decodePage0B (op % 16) b
  | 12 => decodePage0C (op % 16) b
  | 14 => decodePage0E (op % 16) b
  | 15 => decodePage0F (op % 16) b
  | 16 => decodePage10 (op % 16) b
  | 19 => decodePage13 (op % 16) b
  | 20 => decodePage14 (op % 16) b
  | 22 => decodePage16 (op % 16) b
  | 23 => decodePage17 (op % 16) b
  | 24 => decodePage18 (op % 16) b
  | 28 => decodePage1C (op % 16) b
  | 30 => decodePage1E (op % 16) b
  | 31 => decodePage1F (op % 16) b
  | _ => .error .illegalOpcode

/-- The opcode of a syllable: bits 62 to 54 (R14). -/
def opcodeOf (w : Word) : Nat := w.toNat / 2 ^ 54 % 2 ^ 9

/-- The header of a syllable (R14). -/
def headerOf (w : Word) : Header := ⟨w.getLsbD 63, w.extractLsb' 50 4, w.getLsbD 49⟩

/-- Decoding of one syllable by the cluster whose slot it occupies, in the order of R27 after the sync
check; `user` says that the context is a user's. -/
def decode (cl : Cluster) (user : Bool) (w : Word) : Except DecodeFault (Header × Instr) :=
  match slotsOf (opcodeOf w) with
  | none => .error .illegalOpcode
  | some slots =>
    if !slots.legal cl then .error .slotMismatch
    else if user && privilegedOp (opcodeOf w) then .error .privileged
    else match decodeBody (opcodeOf w) (w.toNat % 2 ^ 49) with
      | .error f => .error f
      | .ok i => .ok (headerOf w, i)

/-- The opcode of an instruction and the fields of its body, least significant first (R17, R18, R25);
events have no encoding. -/
def Instr.layout : Instr → Option (Nat × List (Nat × Nat))
  | .nop => some (0x000, [(49, 0)])
  | .add rd ra rb => some (0x001, [(25, 0), (6, 0), (6, rb.toNat), (6, ra.toNat), (6, rd.toNat)])
  | .sub rd ra rb => some (0x002, [(25, 0), (6, 0), (6, rb.toNat), (6, ra.toNat), (6, rd.toNat)])
  | .mul rd ra rb => some (0x003, [(25, 0), (6, 0), (6, rb.toNat), (6, ra.toNat), (6, rd.toNat)])
  | .mulh rd ra rb => some (0x004, [(25, 0), (6, 0), (6, rb.toNat), (6, ra.toNat), (6, rd.toNat)])
  | .mulhu rd ra rb => some (0x005, [(25, 0), (6, 0), (6, rb.toNat), (6, ra.toNat), (6, rd.toNat)])
  | .div rd ra rb => some (0x006, [(25, 0), (6, 0), (6, rb.toNat), (6, ra.toNat), (6, rd.toNat)])
  | .divu rd ra rb => some (0x007, [(25, 0), (6, 0), (6, rb.toNat), (6, ra.toNat), (6, rd.toNat)])
  | .rem rd ra rb => some (0x008, [(25, 0), (6, 0), (6, rb.toNat), (6, ra.toNat), (6, rd.toNat)])
  | .remu rd ra rb => some (0x009, [(25, 0), (6, 0), (6, rb.toNat), (6, ra.toNat), (6, rd.toNat)])
  | .and rd ra rb => some (0x00A, [(25, 0), (6, 0), (6, rb.toNat), (6, ra.toNat), (6, rd.toNat)])
  | .or rd ra rb => some (0x00B, [(25, 0), (6, 0), (6, rb.toNat), (6, ra.toNat), (6, rd.toNat)])
  | .xor rd ra rb => some (0x00C, [(25, 0), (6, 0), (6, rb.toNat), (6, ra.toNat), (6, rd.toNat)])
  | .andn rd ra rb => some (0x00D, [(25, 0), (6, 0), (6, rb.toNat), (6, ra.toNat), (6, rd.toNat)])
  | .shl rd ra rb => some (0x00E, [(25, 0), (6, 0), (6, rb.toNat), (6, ra.toNat), (6, rd.toNat)])
  | .shr rd ra rb => some (0x00F, [(25, 0), (6, 0), (6, rb.toNat), (6, ra.toNat), (6, rd.toNat)])
  | .sar rd ra rb => some (0x010, [(25, 0), (6, 0), (6, rb.toNat), (6, ra.toNat), (6, rd.toNat)])
  | .rotr rd ra rb => some (0x011, [(25, 0), (6, 0), (6, rb.toNat), (6, ra.toNat), (6, rd.toNat)])
  | .min rd ra rb => some (0x012, [(25, 0), (6, 0), (6, rb.toNat), (6, ra.toNat), (6, rd.toNat)])
  | .max rd ra rb => some (0x013, [(25, 0), (6, 0), (6, rb.toNat), (6, ra.toNat), (6, rd.toNat)])
  | .minu rd ra rb => some (0x014, [(25, 0), (6, 0), (6, rb.toNat), (6, ra.toNat), (6, rd.toNat)])
  | .maxu rd ra rb => some (0x015, [(25, 0), (6, 0), (6, rb.toNat), (6, ra.toNat), (6, rd.toNat)])
  | .clz rd ra => some (0x016, [(25, 0), (6, 0), (6, 0), (6, ra.toNat), (6, rd.toNat)])
  | .ctz rd ra => some (0x017, [(25, 0), (6, 0), (6, 0), (6, ra.toNat), (6, rd.toNat)])
  | .popc rd ra => some (0x018, [(25, 0), (6, 0), (6, 0), (6, ra.toNat), (6, rd.toNat)])
  | .brev rd ra => some (0x019, [(25, 0), (6, 0), (6, 0), (6, ra.toNat), (6, rd.toNat)])
  | .bswap rd ra => some (0x01A, [(25, 0), (6, 0), (6, 0), (6, ra.toNat), (6, rd.toNat)])
  | .extr rd ra len pos => some (0x01B, [(6, pos.toNat), (7, len.toNat), (12, 0), (6, 0), (6, 0), (6, ra.toNat), (6, rd.toNat)])
  | .extru rd ra len pos => some (0x01C, [(6, pos.toNat), (7, len.toNat), (12, 0), (6, 0), (6, 0), (6, ra.toNat), (6, rd.toNat)])
  | .insr rd ra rb len pos => some (0x01D, [(6, pos.toNat), (7, len.toNat), (12, 0), (6, 0), (6, rb.toNat), (6, ra.toNat), (6, rd.toNat)])
  | .madd rd ra rb rc => some (0x01E, [(25, 0), (6, rc.toNat), (6, rb.toNat), (6, ra.toNat), (6, rd.toNat)])
  | .lea rd ra rb sh => some (0x01F, [(6, sh.toNat), (19, 0), (6, 0), (6, rb.toNat), (6, ra.toNat), (6, rd.toNat)])
  | .sext rd ra w => some (0x020, [(2, w.code), (23, 0), (6, 0), (6, 0), (6, ra.toNat), (6, rd.toNat)])
  | .zext rd ra w => some (0x021, [(2, w.code), (23, 0), (6, 0), (6, 0), (6, ra.toNat), (6, rd.toNat)])
  | .mov rd ra => some (0x022, [(25, 0), (6, 0), (6, 0), (6, ra.toNat), (6, rd.toNat)])
  | .addi rd ra imm => some (0x040, [(5, 0), (32, imm.toNat), (6, ra.toNat), (6, rd.toNat)])
  | .andi rd ra imm => some (0x041, [(5, 0), (32, imm.toNat), (6, ra.toNat), (6, rd.toNat)])
  | .ori rd ra imm => some (0x042, [(5, 0), (32, imm.toNat), (6, ra.toNat), (6, rd.toNat)])
  | .xori rd ra imm => some (0x043, [(5, 0), (32, imm.toNat), (6, ra.toNat), (6, rd.toNat)])
  | .shli rd ra sh => some (0x044, [(6, sh.toNat), (19, 0), (6, 0), (6, 0), (6, ra.toNat), (6, rd.toNat)])
  | .shri rd ra sh => some (0x045, [(6, sh.toNat), (19, 0), (6, 0), (6, 0), (6, ra.toNat), (6, rd.toNat)])
  | .sari rd ra sh => some (0x046, [(6, sh.toNat), (19, 0), (6, 0), (6, 0), (6, ra.toNat), (6, rd.toNat)])
  | .muli rd ra imm => some (0x047, [(5, 0), (32, imm.toNat), (6, ra.toNat), (6, rd.toNat)])
  | .li rd imm => some (0x048, [(5, 0), (32, imm.toNat), (6, 0), (6, rd.toNat)])
  | .lih rd ra imm => some (0x049, [(5, 0), (32, imm.toNat), (6, ra.toNat), (6, rd.toNat)])
  | .cmp pd ra rb cc => some (0x060, [(22, 0), (3, cc.code), (6, rb.toNat), (6, ra.toNat), (4, 0), (4, 0), (4, pd.toNat)])
  | .cmpi pd ra cc imm22 => some (0x061, [(22, imm22.toNat), (3, cc.code), (6, 0), (6, ra.toNat), (4, 0), (4, 0), (4, pd.toNat)])
  | .pand pd pa pb => some (0x062, [(22, 0), (3, 0), (6, 0), (6, 0), (4, pb.toNat), (4, pa.toNat), (4, pd.toNat)])
  | .por pd pa pb => some (0x063, [(22, 0), (3, 0), (6, 0), (6, 0), (4, pb.toNat), (4, pa.toNat), (4, pd.toNat)])
  | .pxor pd pa pb => some (0x064, [(22, 0), (3, 0), (6, 0), (6, 0), (4, pb.toNat), (4, pa.toNat), (4, pd.toNat)])
  | .pnot pd pa => some (0x065, [(22, 0), (3, 0), (6, 0), (6, 0), (4, 0), (4, pa.toNat), (4, pd.toNat)])
  | .sel rd ra rb pn => some (0x066, [(4, pn.toNat), (21, 0), (6, 0), (6, rb.toNat), (6, ra.toNat), (6, rd.toNat)])
  | .getp rd => some (0x067, [(25, 0), (6, 0), (6, 0), (6, 0), (6, rd.toNat)])
  | .setp ra mask16 => some (0x068, [(16, mask16.toNat), (6, 0), (3, 0), (6, 0), (6, ra.toNat), (4, 0), (4, 0), (4, 0)])
  | .tstb pd ra bit => some (0x069, [(6, bit.toNat), (16, 0), (3, 0), (6, 0), (6, ra.toNat), (4, 0), (4, 0), (4, pd.toNat)])
  | .br off32 => some (0x080, [(7, 0), (6, 0), (32, off32.toNat), (4, 0)])
  | .bri ra => some (0x081, [(7, 0), (6, ra.toNat), (32, 0), (4, 0)])
  | .call off32 => some (0x082, [(7, 0), (6, 0), (32, off32.toNat), (4, 0)])
  | .calli ra => some (0x083, [(7, 0), (6, ra.toNat), (32, 0), (4, 0)])
  | .ret ra => some (0x084, [(7, 0), (6, ra.toNat), (32, 0), (4, 0)])
  | .loop ra endOff => some (0x085, [(27, 0), (16, endOff.toNat), (6, ra.toNat)])
  | .loopi endOff count => some (0x086, [(27, count.toNat), (16, endOff.toNat), (6, 0)])
  | .loopt level endOff => some (0x087, [(27, 0), (16, endOff.toNat), (6, level.toNat)])
  | .lbreak => some (0x088, [(49, 0)])
  | .halt => some (0x089, [(49, 0)])
  | .brq q off32 => some (0x08A, [(7, 0), (6, 0), (32, off32.toNat), (4, q.toNat)])
  | .yield n4 => some (0x08C, [(7, 0), (6, 0), (32, 0), (4, n4.toNat)])
  | .waitt ra => some (0x08B, [(25, 0), (6, 0), (6, 0), (6, ra.toNat), (6, 0)])
  | .mfsr rd num => some (0x08D, [(12, num.toNat), (13, 0), (6, 0), (6, 0), (6, 0), (6, rd.toNat)])
  | .mtsr ra num => some (0x08E, [(12, num.toNat), (13, 0), (6, 0), (6, 0), (6, ra.toNat), (6, 0)])
  | .qpush q ra => some (0x0A0, [(24, 0), (4, 0), (11, 0), (6, ra.toNat), (4, q.toNat)])
  | .qpop q rd => some (0x0A1, [(24, 0), (4, 0), (11, 0), (6, rd.toNat), (4, q.toNat)])
  | .qpeek q rd => some (0x0A2, [(24, 0), (4, 0), (11, 0), (6, rd.toNat), (4, q.toNat)])
  | .qtry q rd pd => some (0x0A3, [(24, 0), (4, pd.toNat), (11, 0), (6, rd.toNat), (4, q.toNat)])
  | .qpushp q pn => some (0x0A4, [(24, 0), (4, pn.toNat), (11, 0), (6, 0), (4, q.toNat)])
  | .vqpush q va => some (0x0A5, [(24, 0), (4, 0), (11, va.toNat), (6, 0), (4, q.toNat)])
  | .vqpop q vd => some (0x0A6, [(24, 0), (4, 0), (11, vd.toNat), (6, 0), (4, q.toNat)])
  | .qcount q rd => some (0x0A7, [(24, 0), (4, 0), (11, 0), (6, rd.toNat), (4, q.toNat)])
  | .fwait fl => some (0x0A8, [(7, fl.toNat), (18, 0), (6, 0), (6, 0), (6, 0), (6, 0)])
  | .fsig fl => some (0x0A9, [(7, fl.toNat), (18, 0), (6, 0), (6, 0), (6, 0), (6, 0)])
  | .fread rd fl => some (0x0AA, [(7, fl.toNat), (18, 0), (6, 0), (6, 0), (6, 0), (6, rd.toNat)])
  | .ldb rd base mf off => some (0x0B0, [(24, off.toNat), (3, mf.ev.code), (3, mf.sc.code), (2, mf.od.code), (6, base.toNat), (6, rd.toNat), (5, 0)])
  | .ldbu rd base mf off => some (0x0B1, [(24, off.toNat), (3, mf.ev.code), (3, mf.sc.code), (2, mf.od.code), (6, base.toNat), (6, rd.toNat), (5, 0)])
  | .ldh rd base mf off => some (0x0B2, [(24, off.toNat), (3, mf.ev.code), (3, mf.sc.code), (2, mf.od.code), (6, base.toNat), (6, rd.toNat), (5, 0)])
  | .ldhu rd base mf off => some (0x0B3, [(24, off.toNat), (3, mf.ev.code), (3, mf.sc.code), (2, mf.od.code), (6, base.toNat), (6, rd.toNat), (5, 0)])
  | .ldw rd base mf off => some (0x0B4, [(24, off.toNat), (3, mf.ev.code), (3, mf.sc.code), (2, mf.od.code), (6, base.toNat), (6, rd.toNat), (5, 0)])
  | .ldwu rd base mf off => some (0x0B5, [(24, off.toNat), (3, mf.ev.code), (3, mf.sc.code), (2, mf.od.code), (6, base.toNat), (6, rd.toNat), (5, 0)])
  | .ldd rd base mf off => some (0x0B6, [(24, off.toNat), (3, mf.ev.code), (3, mf.sc.code), (2, mf.od.code), (6, base.toNat), (6, rd.toNat), (5, 0)])
  | .stb rs base mf off => some (0x0B7, [(24, off.toNat), (3, mf.ev.code), (3, mf.sc.code), (2, mf.od.code), (6, base.toNat), (6, rs.toNat), (5, 0)])
  | .sth rs base mf off => some (0x0B8, [(24, off.toNat), (3, mf.ev.code), (3, mf.sc.code), (2, mf.od.code), (6, base.toNat), (6, rs.toNat), (5, 0)])
  | .stw rs base mf off => some (0x0B9, [(24, off.toNat), (3, mf.ev.code), (3, mf.sc.code), (2, mf.od.code), (6, base.toNat), (6, rs.toNat), (5, 0)])
  | .std rs base mf off => some (0x0BA, [(24, off.toNat), (3, mf.ev.code), (3, mf.sc.code), (2, mf.od.code), (6, base.toNat), (6, rs.toNat), (5, 0)])
  | .vld vd base mf off => some (0x0BB, [(24, off.toNat), (3, mf.ev.code), (3, mf.sc.code), (2, mf.od.code), (6, base.toNat), (11, vd.toNat)])
  | .vldn vd base mf size off21 => some (0x0BC, [(21, off21.toNat), (3, size.code), (3, mf.ev.code), (3, mf.sc.code), (2, mf.od.code), (6, base.toNat), (11, vd.toNat)])
  | .vst vs base mf off => some (0x0BD, [(24, off.toNat), (3, mf.ev.code), (3, mf.sc.code), (2, mf.od.code), (6, base.toNat), (11, vs.toNat)])
  | .vstn vs base mf size off21 => some (0x0BE, [(21, off21.toNat), (3, size.code), (3, mf.ev.code), (3, mf.sc.code), (2, mf.od.code), (6, base.toNat), (11, vs.toNat)])
  | .vlds vd base stride mf => some (0x0BF, [(18, 0), (3, mf.ev.code), (3, mf.sc.code), (2, mf.od.code), (6, stride.toNat), (6, base.toNat), (11, vd.toNat)])
  | .vsts vs base stride mf => some (0x0C0, [(18, 0), (3, mf.ev.code), (3, mf.sc.code), (2, mf.od.code), (6, stride.toNat), (6, base.toNat), (11, vs.toNat)])
  | .vgth vd base vi mf => some (0x0C1, [(13, 0), (3, mf.ev.code), (3, mf.sc.code), (2, mf.od.code), (11, vi.toNat), (6, base.toNat), (11, vd.toNat)])
  | .vsct vs base vi mf => some (0x0C2, [(13, 0), (3, mf.ev.code), (3, mf.sc.code), (2, mf.od.code), (11, vi.toNat), (6, base.toNat), (11, vs.toNat)])
  | .pref base sc ev off => some (0x0C3, [(24, off.toNat), (3, ev.code), (3, sc.code), (2, 0), (6, base.toNat), (11, 0)])
  | .mark => some (0x0C4, [(49, 0)])
  | .fence od sc => some (0x0C5, [(24, 0), (3, 0), (3, sc.code), (2, od.code), (6, 0), (11, 0)])
  | .cwb base sc off => some (0x0C6, [(24, off.toNat), (3, 0), (3, sc.code), (2, 0), (6, base.toNat), (11, 0)])
  | .cinv base sc off => some (0x0C7, [(24, off.toNat), (3, 0), (3, sc.code), (2, 0), (6, base.toNat), (11, 0)])
  | .retain rd ra rb ways => some (0x0C8, [(5, ways.toNat), (20, 0), (6, 0), (6, rb.toNat), (6, ra.toNat), (6, rd.toNat)])
  | .unpin ra => some (0x0C9, [(25, 0), (6, 0), (6, 0), (6, ra.toNat), (6, 0)])
  | .smap ra rb rc => some (0x0CA, [(25, 0), (6, rc.toNat), (6, rb.toNat), (6, ra.toNat), (6, 0)])
  | .sunmap ra => some (0x0CB, [(25, 0), (6, 0), (6, 0), (6, ra.toNat), (6, 0)])
  | .sflush ra => some (0x0CC, [(25, 0), (6, 0), (6, 0), (6, ra.toNat), (6, 0)])
  | .aadd rd base rb sc ev wide off18 => some (0x0E0, [(18, off18.toNat), (1, wide.toNat), (3, ev.code), (3, sc.code), (6, 0), (6, rb.toNat), (6, base.toNat), (6, rd.toNat)])
  | .aand rd base rb sc ev wide off18 => some (0x0E1, [(18, off18.toNat), (1, wide.toNat), (3, ev.code), (3, sc.code), (6, 0), (6, rb.toNat), (6, base.toNat), (6, rd.toNat)])
  | .aor rd base rb sc ev wide off18 => some (0x0E2, [(18, off18.toNat), (1, wide.toNat), (3, ev.code), (3, sc.code), (6, 0), (6, rb.toNat), (6, base.toNat), (6, rd.toNat)])
  | .axor rd base rb sc ev wide off18 => some (0x0E3, [(18, off18.toNat), (1, wide.toNat), (3, ev.code), (3, sc.code), (6, 0), (6, rb.toNat), (6, base.toNat), (6, rd.toNat)])
  | .amin rd base rb sc ev wide off18 => some (0x0E4, [(18, off18.toNat), (1, wide.toNat), (3, ev.code), (3, sc.code), (6, 0), (6, rb.toNat), (6, base.toNat), (6, rd.toNat)])
  | .amax rd base rb sc ev wide off18 => some (0x0E5, [(18, off18.toNat), (1, wide.toNat), (3, ev.code), (3, sc.code), (6, 0), (6, rb.toNat), (6, base.toNat), (6, rd.toNat)])
  | .aminu rd base rb sc ev wide off18 => some (0x0E6, [(18, off18.toNat), (1, wide.toNat), (3, ev.code), (3, sc.code), (6, 0), (6, rb.toNat), (6, base.toNat), (6, rd.toNat)])
  | .amaxu rd base rb sc ev wide off18 => some (0x0E7, [(18, off18.toNat), (1, wide.toNat), (3, ev.code), (3, sc.code), (6, 0), (6, rb.toNat), (6, base.toNat), (6, rd.toNat)])
  | .aswp rd base rb sc ev wide off18 => some (0x0E8, [(18, off18.toNat), (1, wide.toNat), (3, ev.code), (3, sc.code), (6, 0), (6, rb.toNat), (6, base.toNat), (6, rd.toNat)])
  | .acas rd base rb rc sc ev wide off18 => some (0x0E9, [(18, off18.toNat), (1, wide.toNat), (3, ev.code), (3, sc.code), (6, rc.toNat), (6, rb.toNat), (6, base.toNat), (6, rd.toNat)])
  | .radd base rb sc ev wide off18 => some (0x0EB, [(18, off18.toNat), (1, wide.toNat), (3, ev.code), (3, sc.code), (6, 0), (6, rb.toNat), (6, base.toNat), (6, 0)])
  | .rfadd base rb sc ev off18 => some (0x0EC, [(18, off18.toNat), (1, 0), (3, ev.code), (3, sc.code), (6, 0), (6, rb.toNat), (6, base.toNat), (6, 0)])
  | .rmin base rb sc ev wide off18 => some (0x0ED, [(18, off18.toNat), (1, wide.toNat), (3, ev.code), (3, sc.code), (6, 0), (6, rb.toNat), (6, base.toNat), (6, 0)])
  | .rmax base rb sc ev wide off18 => some (0x0EE, [(18, off18.toNat), (1, wide.toNat), (3, ev.code), (3, sc.code), (6, 0), (6, rb.toNat), (6, base.toNat), (6, 0)])
  | .rofadd base rb rc sc ev off18 => some (0x0EF, [(18, off18.toNat), (1, 0), (3, ev.code), (3, sc.code), (6, rc.toNat), (6, rb.toNat), (6, base.toNat), (6, 0)])
  | .vredm vs base vi sc ev => some (0x0F0, [(13, 0), (3, ev.code), (3, sc.code), (2, 0), (11, vi.toNat), (6, base.toNat), (11, vs.toNat)])
  | .mwait rd base rb sc ev wide off18 => some (0x0F1, [(18, off18.toNat), (1, wide.toNat), (3, ev.code), (3, sc.code), (6, 0), (6, rb.toNat), (6, base.toNat), (6, rd.toNat)])
  | .barinit base rb sc ev off18 => some (0x0F4, [(18, off18.toNat), (1, 0), (3, ev.code), (3, sc.code), (6, 0), (6, rb.toNat), (6, base.toNat), (6, 0)])
  | .barrive rd base rb sc ev off18 => some (0x0F5, [(18, off18.toNat), (1, 0), (3, ev.code), (3, sc.code), (6, 0), (6, rb.toNat), (6, base.toNat), (6, rd.toNat)])
  | .barwait base rb sc ev off18 => some (0x0F6, [(18, off18.toNat), (1, 0), (3, ev.code), (3, sc.code), (6, 0), (6, rb.toNat), (6, base.toNat), (6, 0)])
  | .setst ra off64 st => some (0x100, [(5, st.toNat), (20, off64.toNat), (6, 0), (6, 0), (6, ra.toNat), (6, 0)])
  | .getst rd k3 st => some (0x101, [(5, st.toNat), (3, k3.toNat), (17, 0), (6, 0), (6, 0), (6, 0), (6, rd.toNat)])
  | .wfill n13 st => some (0x102, [(5, st.toNat), (13, n13.toNat), (7, 0), (6, 0), (6, 0), (6, 0), (6, 0)])
  | .wfree n13 st => some (0x103, [(5, st.toNat), (13, n13.toNat), (7, 0), (6, 0), (6, 0), (6, 0), (6, 0)])
  | .claim rd n13 st => some (0x104, [(5, st.toNat), (13, n13.toNat), (7, 0), (6, 0), (6, 0), (6, 0), (6, rd.toNat)])
  | .publ n13 st => some (0x105, [(5, st.toNat), (13, n13.toNat), (7, 0), (6, 0), (6, 0), (6, 0), (6, 0)])
  | .popt n13 st => some (0x106, [(5, st.toNat), (13, n13.toNat), (7, 0), (6, 0), (6, 0), (6, 0), (6, 0)])
  | .raddr rd ra st => some (0x107, [(5, st.toNat), (20, 0), (6, 0), (6, 0), (6, ra.toNat), (6, rd.toNat)])
  | .rstat rd k3 st => some (0x108, [(5, st.toNat), (3, k3.toNat), (17, 0), (6, 0), (6, 0), (6, 0), (6, rd.toNat)])
  | .enq rd eng rs => some (0x130, [(6, rs.toNat), (18, 0), (8, 0), (8, 0), (3, eng.code), (6, rd.toNat)])
  | .mma rd eo stA stB acc z popA popB => some (0x131, [(8, 0), (1, popB.toNat), (1, popA.toNat), (1, z.toNat), (3, acc.toNat), (5, stB.toNat), (5, stA.toNat), (8, eo.signal.toNat), (8, eo.wait.toNat), (3, 0), (6, rd.toNat)])
  | .mret rd eo stD stO acc oe => some (0x132, [(10, 0), (1, oe.toNat), (3, acc.toNat), (5, stO.toNat), (5, stD.toNat), (8, eo.signal.toNat), (8, eo.wait.toNat), (3, 0), (6, rd.toNat)])
  | .mzero rd eo acc => some (0x133, [(11, 0), (3, acc.toNat), (10, 0), (8, eo.signal.toNat), (8, eo.wait.toNat), (3, 0), (6, rd.toNat)])
  | .cpin rd eo stS stC ce n1 => some (0x134, [(9, 0), (4, n1.toNat), (1, ce.toNat), (5, stC.toNat), (5, stS.toNat), (8, eo.signal.toNat), (8, eo.wait.toNat), (3, 1), (6, rd.toNat)])
  | .cpout rd eo stS stC ce n1 => some (0x135, [(9, 0), (4, n1.toNat), (1, ce.toNat), (5, stC.toNat), (5, stS.toNat), (8, eo.signal.toNat), (8, eo.wait.toNat), (3, 2), (6, rd.toNat)])
  | .cpred rd eo stS stC ce n1 rop => some (0x136, [(6, 0), (3, rop.code), (4, n1.toNat), (1, ce.toNat), (5, stC.toNat), (5, stS.toNat), (8, eo.signal.toNat), (8, eo.wait.toNat), (3, 2), (6, rd.toNat)])
  | .cpstr rd eo stS stC ce n1 => some (0x137, [(9, 0), (4, n1.toNat), (1, ce.toNat), (5, stC.toNat), (5, stS.toNat), (8, eo.signal.toNat), (8, eo.wait.toNat), (3, 1), (6, rd.toNat)])
  | .gath rd eo stS stD stO stC ce => some (0x138, [(3, 0), (1, ce.toNat), (5, stC.toNat), (5, stO.toNat), (5, stD.toNat), (5, stS.toNat), (8, eo.signal.toNat), (8, eo.wait.toNat), (3, 3), (6, rd.toNat)])
  | .topk rd eo stI stO k1 pairs pop => some (0x139, [(4, 0), (1, pop.toNat), (1, pairs.toNat), (8, k1.toNat), (5, stO.toNat), (5, stI.toNat), (8, eo.signal.toNat), (8, eo.wait.toNat), (3, 4), (6, rd.toNat)])
  | .notify rd eng eo mask5 ev3 => some (0x13A, [(3, ev3.toNat), (5, mask5.toNat), (16, 0), (8, eo.signal.toNat), (8, eo.wait.toNat), (3, eng.code), (6, rd.toNat)])
  | .gfence mask5 => some (0x13B, [(5, mask5.toNat), (19, 0), (8, 0), (8, 0), (3, 0), (6, 0)])
  | .waitev ev3 => some (0x13C, [(3, ev3.toNat), (21, 0), (8, 0), (8, 0), (3, 0), (6, 0)])
  | .ewait eng rs => some (0x13D, [(6, rs.toNat), (18, 0), (8, 0), (8, 0), (3, eng.code), (6, 0)])
  | .eseq rd eng sel2 => some (0x13E, [(2, sel2.toNat), (22, 0), (8, 0), (8, 0), (3, eng.code), (6, rd.toNat)])
  | .bstat rd eng rs => some (0x13F, [(6, rs.toNat), (18, 0), (8, 0), (8, 0), (3, eng.code), (6, rd.toNat)])
  | .bpref mask5 mode => some (0x140, [(2, mode.code), (5, mask5.toNat), (18, 0), (6, 0), (6, 0), (6, 0), (6, 0)])
  | .launch rd ra => some (0x148, [(25, 0), (6, 0), (6, 0), (6, ra.toNat), (6, rd.toNat)])
  | .trigger => some (0x149, [(25, 0), (6, 0), (6, 0), (6, 0), (6, 0)])
  | .depwait => some (0x14A, [(25, 0), (6, 0), (6, 0), (6, 0), (6, 0)])
  | .dqpush ra => some (0x14B, [(25, 0), (6, 0), (6, 0), (6, ra.toNat), (6, 0)])
  | .dqpop rd pn => some (0x14C, [(4, pn.toNat), (21, 0), (6, 0), (6, 0), (6, 0), (6, rd.toNat)])
  | .dqsteal rd ra pn => some (0x14D, [(4, pn.toNat), (1, 0), (20, 0), (6, 0), (6, 0), (6, ra.toNat), (6, rd.toNat)])
  | .dqstealRing rd pn => some (0x14D, [(4, pn.toNat), (1, 1), (20, 0), (6, 0), (6, 0), (6, 0), (6, rd.toNat)])
  | .vadd vd va vb mk ty rm => some (0x160, [(6, 0), (2, rm.code), (4, ty.code), (4, mk.toNat), (11, vb.toNat), (11, va.toNat), (11, vd.toNat)])
  | .vsub vd va vb mk ty rm => some (0x161, [(6, 0), (2, rm.code), (4, ty.code), (4, mk.toNat), (11, vb.toNat), (11, va.toNat), (11, vd.toNat)])
  | .vmul vd va vb mk ty rm => some (0x162, [(6, 0), (2, rm.code), (4, ty.code), (4, mk.toNat), (11, vb.toNat), (11, va.toNat), (11, vd.toNat)])
  | .vfma vd va vb vc mk => some (0x163, [(1, 0), (4, mk.toNat), (11, vc.toNat), (11, vb.toNat), (11, va.toNat), (11, vd.toNat)])
  | .vfmah vd va vb vc mk => some (0x164, [(1, 0), (4, mk.toNat), (11, vc.toNat), (11, vb.toNat), (11, va.toNat), (11, vd.toNat)])
  | .vfmab vd va vb vc mk => some (0x165, [(1, 0), (4, mk.toNat), (11, vc.toNat), (11, vb.toNat), (11, va.toNat), (11, vd.toNat)])
  | .vmin vd va vb mk ty rm => some (0x166, [(6, 0), (2, rm.code), (4, ty.code), (4, mk.toNat), (11, vb.toNat), (11, va.toNat), (11, vd.toNat)])
  | .vmax vd va vb mk ty rm => some (0x167, [(6, 0), (2, rm.code), (4, ty.code), (4, mk.toNat), (11, vb.toNat), (11, va.toNat), (11, vd.toNat)])
  | .vabs vd va mk ty rm => some (0x168, [(6, 0), (2, rm.code), (4, ty.code), (4, mk.toNat), (11, 0), (11, va.toNat), (11, vd.toNat)])
  | .vneg vd va mk ty rm => some (0x169, [(6, 0), (2, rm.code), (4, ty.code), (4, mk.toNat), (11, 0), (11, va.toNat), (11, vd.toNat)])
  | .vand vd va vb mk => some (0x16A, [(6, 0), (2, 0), (4, 0), (4, mk.toNat), (11, vb.toNat), (11, va.toNat), (11, vd.toNat)])
  | .vor vd va vb mk => some (0x16B, [(6, 0), (2, 0), (4, 0), (4, mk.toNat), (11, vb.toNat), (11, va.toNat), (11, vd.toNat)])
  | .vxor vd va vb mk => some (0x16C, [(6, 0), (2, 0), (4, 0), (4, mk.toNat), (11, vb.toNat), (11, va.toNat), (11, vd.toNat)])
  | .vshl vd va vb mk ty imm1 amt => some (0x16D, [(5, amt.toNat), (1, imm1.toNat), (2, 0), (4, ty.code), (4, mk.toNat), (11, vb.toNat), (11, va.toNat), (11, vd.toNat)])
  | .vshr vd va vb mk ty imm1 amt => some (0x16E, [(5, amt.toNat), (1, imm1.toNat), (2, 0), (4, ty.code), (4, mk.toNat), (11, vb.toNat), (11, va.toNat), (11, vd.toNat)])
  | .vsar vd va vb mk ty imm1 amt => some (0x16F, [(5, amt.toNat), (1, imm1.toNat), (2, 0), (4, ty.code), (4, mk.toNat), (11, vb.toNat), (11, va.toNat), (11, vd.toNat)])
  | .vcmp md va vb mk ty cc => some (0x170, [(3, cc.code), (3, 0), (2, 0), (4, ty.code), (4, mk.toNat), (11, vb.toNat), (11, va.toNat), (4, md.toNat), (7, 0)])
  | .vsel vd va vb mk => some (0x171, [(6, 0), (2, 0), (4, 0), (4, mk.toNat), (11, vb.toNat), (11, va.toNat), (11, vd.toNat)])
  | .vmov vd va mk => some (0x172, [(6, 0), (2, 0), (4, 0), (4, mk.toNat), (11, 0), (11, va.toNat), (11, vd.toNat)])
  | .vbcast vd ra mk ty => some (0x173, [(13, 0), (4, ty.code), (4, mk.toNat), (6, ra.toNat), (11, 0), (11, vd.toNat)])
  | .vext va rd ty j => some (0x174, [(13, j.toNat), (4, ty.code), (4, 0), (6, rd.toNat), (11, va.toNat), (11, 0)])
  | .vins vd ra ty j => some (0x175, [(13, j.toNat), (4, ty.code), (4, 0), (6, ra.toNat), (11, 0), (11, vd.toNat)])
  | .vperm vd va vb mk => some (0x176, [(6, 0), (2, 0), (4, 0), (4, mk.toNat), (11, vb.toNat), (11, va.toNat), (11, vd.toNat)])
  | .vrot vd va mk n6 => some (0x177, [(6, n6.toNat), (2, 0), (4, 0), (4, mk.toNat), (11, 0), (11, va.toNat), (11, vd.toNat)])
  | .viota vd mk ty => some (0x178, [(6, 0), (2, 0), (4, ty.code), (4, mk.toNat), (11, 0), (11, 0), (11, vd.toNat)])
  | .vrsum vd va mk ty rm => some (0x179, [(6, 0), (2, rm.code), (4, ty.code), (4, mk.toNat), (11, 0), (11, va.toNat), (11, vd.toNat)])
  | .vrmax vd va mk ty rm => some (0x17A, [(6, 0), (2, rm.code), (4, ty.code), (4, mk.toNat), (11, 0), (11, va.toNat), (11, vd.toNat)])
  | .vrmin vd va mk ty rm => some (0x17B, [(6, 0), (2, rm.code), (4, ty.code), (4, mk.toNat), (11, 0), (11, va.toNat), (11, vd.toNat)])
  | .vscan vd va mk ty rm => some (0x17C, [(6, 0), (2, rm.code), (4, ty.code), (4, mk.toNat), (11, 0), (11, va.toNat), (11, vd.toNat)])
  | .vdiv vd va vb mk ty rm => some (0x17D, [(6, 0), (2, rm.code), (4, ty.code), (4, mk.toNat), (11, vb.toNat), (11, va.toNat), (11, vd.toNat)])
  | .vsqrt vd va mk ty rm => some (0x17E, [(6, 0), (2, rm.code), (4, ty.code), (4, mk.toNat), (11, 0), (11, va.toNat), (11, vd.toNat)])
  | .vrcp vd va mk ty rm => some (0x17F, [(6, 0), (2, rm.code), (4, ty.code), (4, mk.toNat), (11, 0), (11, va.toNat), (11, vd.toNat)])
  | .vrsqrt vd va mk ty rm => some (0x180, [(6, 0), (2, rm.code), (4, ty.code), (4, mk.toNat), (11, 0), (11, va.toNat), (11, vd.toNat)])
  | .vexp2 vd va mk ty rm => some (0x181, [(6, 0), (2, rm.code), (4, ty.code), (4, mk.toNat), (11, 0), (11, va.toNat), (11, vd.toNat)])
  | .vlog2 vd va mk ty rm => some (0x182, [(6, 0), (2, rm.code), (4, ty.code), (4, mk.toNat), (11, 0), (11, va.toNat), (11, vd.toNat)])
  | .vtanh vd va mk ty rm => some (0x183, [(6, 0), (2, rm.code), (4, ty.code), (4, mk.toNat), (11, 0), (11, va.toNat), (11, vd.toNat)])
  | .vrnd vd va mk ty rm => some (0x184, [(6, 0), (2, rm.code), (4, ty.code), (4, mk.toNat), (11, 0), (11, va.toNat), (11, vd.toNat)])
  | .mand md ma mb => some (0x185, [(6, 0), (2, 0), (4, 0), (4, 0), (4, mb.toNat), (7, 0), (4, ma.toNat), (7, 0), (4, md.toNat), (7, 0)])
  | .mor md ma mb => some (0x186, [(6, 0), (2, 0), (4, 0), (4, 0), (4, mb.toNat), (7, 0), (4, ma.toNat), (7, 0), (4, md.toNat), (7, 0)])
  | .mnot md ma => some (0x187, [(6, 0), (2, 0), (4, 0), (4, 0), (11, 0), (4, ma.toNat), (7, 0), (4, md.toNat), (7, 0)])
  | .mpop rd mk first => some (0x188, [(1, first.toNat), (12, 0), (4, 0), (4, mk.toNat), (6, rd.toNat), (11, 0), (11, 0)])
  | .vadds vd va ra mk ty => some (0x189, [(13, 0), (4, ty.code), (4, mk.toNat), (6, ra.toNat), (11, va.toNat), (11, vd.toNat)])
  | .vmuls vd va ra mk ty => some (0x18A, [(13, 0), (4, ty.code), (4, mk.toNat), (6, ra.toNat), (11, va.toNat), (11, vd.toNat)])
  | .vcvt vd va mk ty rm src => some (0x1C0, [(4, src.code), (2, 0), (2, rm.code), (4, ty.code), (4, mk.toNat), (11, 0), (11, va.toNat), (11, vd.toNat)])
  | .vpack vd va vb mk ty rm src => some (0x1C1, [(4, src.code), (2, 0), (2, rm.code), (4, ty.code), (4, mk.toNat), (11, vb.toNat), (11, va.toNat), (11, vd.toNat)])
  | .vunpk vd va mk ty rm h src => some (0x1C2, [(4, src.code), (1, h.toNat), (1, 0), (2, rm.code), (4, ty.code), (4, mk.toNat), (11, 0), (11, va.toNat), (11, vd.toNat)])
  | .vzenc vd va mk ty p2 => some (0x1C3, [(2, p2.toNat), (4, 0), (2, 0), (4, ty.code), (4, mk.toNat), (11, 0), (11, va.toNat), (11, vd.toNat)])
  | .vzdec vd va mk ty rm k6 => some (0x1C4, [(6, k6.toNat), (2, rm.code), (4, ty.code), (4, mk.toNat), (11, 0), (11, va.toNat), (11, vd.toNat)])
  | .vzmac vd va vb mk => some (0x1C5, [(6, 0), (2, 0), (4, 11), (4, mk.toNat), (11, vb.toNat), (11, va.toNat), (11, vd.toNat)])
  | .vzmul vd va vb mk => some (0x1C6, [(6, 0), (2, 0), (4, 11), (4, mk.toNat), (11, vb.toNat), (11, va.toNat), (11, vd.toNat)])
  | .vzadd vd va vb mk => some (0x1C7, [(6, 0), (2, 0), (4, 11), (4, mk.toNat), (11, vb.toNat), (11, va.toNat), (11, vd.toNat)])
  | .vscale vd va vb mk ty rm => some (0x1C8, [(6, 0), (2, rm.code), (4, ty.code), (4, mk.toNat), (11, vb.toNat), (11, va.toNat), (11, vd.toNat)])
  | .vquant vd va vb mk rm rn4 p3 => some (0x1C9, [(3, p3.toNat), (2, 0), (1, rn4.toNat), (2, rm.code), (4, 8), (4, mk.toNat), (11, vb.toNat), (11, va.toNat), (11, vd.toNat)])
  | .vochk md va vb mk rn4 => some (0x1CA, [(5, 0), (1, rn4.toNat), (2, 0), (4, 8), (4, mk.toNat), (11, vb.toNat), (11, va.toNat), (4, md.toNat), (7, 0)])
  | .vcomp vd va mk => some (0x1CB, [(6, 0), (2, 0), (4, 0), (4, mk.toNat), (11, 0), (11, va.toNat), (11, vd.toNat)])
  | .mop n vd va vb mk ra imm6 => some (0x1F0 + n.toNat, [(6, imm6.toNat), (6, ra.toNat), (4, mk.toNat), (11, vb.toNat), (11, va.toNat), (11, vd.toNat)])
  | .csload ra slot => some (0x1E9, [(4, slot.toNat), (21, 0), (6, 0), (6, 0), (6, ra.toNat), (6, 0)])
  | .csunbind slot => some (0x1EA, [(4, slot.toNat), (21, 0), (6, 0), (6, 0), (6, 0), (6, 0)])
  | .trap n16 => some (0x1E0, [(16, n16.toNat), (9, 0), (6, 0), (6, 0), (6, 0), (6, 0)])
  | .eret => some (0x1E1, [(25, 0), (6, 0), (6, 0), (6, 0), (6, 0)])
  | .bkpt n16 => some (0x1E4, [(16, n16.toNat), (9, 0), (6, 0), (6, 0), (6, 0), (6, 0)])
  | .rdcyc rd => some (0x1E5, [(25, 0), (6, 0), (6, 0), (6, 0), (6, rd.toNat)])
  | .rdtime rd => some (0x1E6, [(25, 0), (6, 0), (6, 0), (6, 0), (6, rd.toNat)])
  | .tlbinv ra rb kind => some (0x1E7, [(2, kind.code), (23, 0), (6, 0), (6, rb.toNat), (6, ra.toNat), (6, 0)])
  | .dharv rd ra => some (0x1E8, [(25, 0), (6, 0), (6, 0), (6, ra.toNat), (6, rd.toNat)])
  | .ctxsave rd ra rb rc smode => some (0x1EB, [(2, smode.code), (23, 0), (6, rc.toNat), (6, rb.toNat), (6, ra.toNat), (6, rd.toNat)])
  | .ctxload rd ra => some (0x1EC, [(25, 0), (6, 0), (6, 0), (6, ra.toNat), (6, rd.toNat)])
  | .yieldPauseEnd _ _ | .loadCompletion _ _ | .rofaddArrival _ | .rofaddResend _ | .orderedGapTimeout _ 
  | .monitorFire _ _ | .mmaCommand _ | .mretCommand _ | .mzeroCommand _ | .cpinCommand _ | .cpstrCommand _ 
  | .cpoutCommand _ | .cpredCommand _ | .gathCommand _ | .topkCommand _ | .gfenceCommand _ _ 
  | .notifyCommand _ _ | .commandRetirement _ _ | .leaseRearbitration _ | .rendezvous _ 
  | .blockedWaitResume _ _ | .stallWatchdog _ | .frameTaken _ | .doubleFaultRestart _ | .correctedError _ 
  | .selfTestComplete _ _ | .uncorrectableError _ | .eventRecordWrite _ | .fenceModeBoundary _ 
  | .fenceModeTimeout _ | .imageSaveComplete _ | .immediateSave _ _ | .fenceSave _ _ | .resume _ _ 
  | .kill _ _ | .contextRemoval _ _ | .lqctlWrite _ _ | .doorbell _ _ | .launcherRecordRead _ 
  | .iterationStart _ | .iterationEnd _ | .pureLookup _ | .hitCopyComplete _ | .basinInsertion _ 
  | .keyInstall _ _ _ | .basinClear _ _ | .basinEnable _ _ _ | .codeRemapWrite _ _ _ _ 
  | .functionLevelReset _ | .flrDrainTimeout _ | .flrComplete _ | .hostBar2Access _ _ _ _ 
  | .hostFetchadd _ _ _ _ | .hostSwap _ _ _ _ | .hostCas _ _ _ _ _ | .evctlWrite _ _ | .peerRequest _ 
  | .peerResponse _ _ | .peerTimeout _ | .flitReplay _ | .tokenRefill | .powerOn | .deviceReset 
  | .firmwareFetchRetry _ | .clockThrottle | .clockRestore | .syncMessage _ _ | .timeLockLoss 
  | .attestationRequest | .attestationReportWritten | .registerWrite _ _ _ _ | .eviction _ _ 
  | .imageLoadComplete _ | .junctionTemperatureMachineCheck | .bootComplete _ | .pcoreWrite _ _ _ _ => none

/-- The syllable that encodes an instruction under a header (R14, R17). -/
def encodeWith (h : Header) (i : Instr) : Option Word :=
  i.layout.map fun l =>
    .ofNat 64 (pack l.2 + 2 ^ 49 * pack [(1, h.neg.toNat), (4, h.pred.toNat), (9, l.1), (1, h.sync.toNat)])

/-- The syllable that encodes an instruction, unsynced and unguarded. -/
def encode (i : Instr) : Option Word := encodeWith .always i

/-- The first cluster, in slot order, whose slot is legal for a syllable's opcode (R25). -/
def firstLegal (w : Word) : Option Cluster :=
  match slotsOf (opcodeOf w) with
  | none => none
  | some l => if l.s then some .S else if l.a then some .A else if l.x then some .X0 else none

/-- The instruction that the decoder reads from a word numbered as the table numbers its rows, in the first
slot in which its opcode is legal and in a supervisor context. A syllable is one 64-bit word. -/
def decodeTableWord (nbits w : Nat) : Option Instr :=
  let syl : Word := .ofNat 64 (w % 2 ^ nbits)
  match firstLegal syl with
  | none => none
  | some cl =>
    match decode cl false syl with
    | .ok (_, i) => some i
    | .error _ => none

end Sys2Proof
end

