-- ==== Sys2Proof/Machine/Residue.lean ====
section
/-!
DEFINITION. The residue word RW30 (R72 to R74).
-/

namespace Sys2Proof.Machine

/-- The modulus M (R72). -/
def rwM : Nat := 1069550592

/-- The least represented value (R72). -/
def rwMin : Int := -534775296
/-- The greatest represented value (R72). -/
def rwMax : Int := 534775295

/-- rw.word: three canonical channels in place (R73). -/
def rwWord (c0 c1 c2 : Nat) : Nat := c2 * 2 ^ 20 + c1 * 2 ^ 10 + c0

/-- Channel 0, reduced (R72). -/
def rwC0 (w : Nat) : Nat := w % 1024 % 1021
/-- Channel 1, reduced (R72). -/
def rwC1 (w : Nat) : Nat := w / 2 ^ 10 % 1024 % 1023
/-- Channel 2 (R72). -/
def rwC2 (w : Nat) : Nat := w / 2 ^ 20 % 1024

/-- rw.enc (R73). -/
def rwEnc (x : Int) : Nat :=
  let y := (x % (rwM : Int)).toNat
  rwWord (y % 1021) (y % 1023) (y % 1024)

/-- rw.dec (R73). -/
def rwDec (w : Nat) : Int :=
  let x := (rwC0 w * 851 % 1021 * 1047552 + rwC1 w * 511 % 1023 * 1045504 + rwC2 w * 683 % 1024 * 1044483) % rwM
  if 534775296 ≤ x then (x : Int) - rwM else x

/-- rw.add (R73). -/
def rwAdd (a b : Nat) : Nat :=
  rwWord ((rwC0 a + rwC0 b) % 1021) ((rwC1 a + rwC1 b) % 1023) ((rwC2 a + rwC2 b) % 1024)

/-- rw.mul (R73). -/
def rwMul (a b : Nat) : Nat :=
  rwWord (rwC0 a * rwC0 b % 1021) (rwC1 a * rwC1 b % 1023) (rwC2 a * rwC2 b % 1024)

/-- The canonical word of the same residues (R72, R126). -/
def rwCanon (w : Nat) : Nat := rwWord (rwC0 w) (rwC1 w) (rwC2 w)

end Sys2Proof.Machine
end

