-- ==== Sys2Proof/Machine/Elements.lean ====
section
/-!
DEFINITION. Elements of vector registers and the forms that vector instructions share (R105 to R107).
-/

namespace Sys2Proof

/-! ### Types (R105, R107) -/

/-- The format of an FP type. -/
def ElemType.fmt : ElemType → Option Machine.Fmt
  | .f32 => some Machine.fmtF32
  | .f16 => some Machine.fmtF16
  | .bf16 => some Machine.fmtBF16
  | _ => none

/-- A signed integer type. -/
def ElemType.signed : ElemType → Bool
  | .i8 => true
  | .i16 => true
  | .i32 => true
  | .i64 => true
  | _ => false

/-- The least value of an integer type, or of RW30. -/
def ElemType.lo (t : ElemType) : Int :=
  if t = .rw30 then Machine.rwMin else if t.signed then -(2 ^ (t.width - 1)) else 0

/-- The greatest value of an integer type, or of RW30. -/
def ElemType.hi (t : ElemType) : Int :=
  if t = .rw30 then Machine.rwMax else if t.signed then 2 ^ (t.width - 1) - 1 else 2 ^ t.width - 1

/-- An integer element's value: sx or zx by its type. -/
def ElemType.read (t : ElemType) (x : Nat) : Int :=
  if t.signed && decide (2 ^ (t.width - 1) ≤ x) then (x : Int) - 2 ^ t.width else x

end Sys2Proof

namespace Sys2Proof.Machine

/-- The low w bits of an integer (R61). -/
def lowBits (w : Nat) (i : Int) : Nat := (i % (2 ^ w : Nat)).toNat

/-! ### Elements of a register -/

/-- Element `j` of width `w` (R105). -/
def elem (v : Vec) (w j : Nat) : Nat := v.toNat / 2 ^ (w * j) % 2 ^ w

/-- Lane `i`. -/
def lane (v : Vec) (i : Nat) : Nat := elem v 32 i

/-- The pattern of elements of width `w`, element 0 lowest. -/
def packNat (w : Nat) : List Nat → Nat
  | [] => 0
  | x :: xs => x % 2 ^ w + 2 ^ w * packNat w xs

/-- A register from its elements. -/
def packVec (w : Nat) (l : List Nat) : Vec := BitVec.ofNat 2048 (packNat w l)

/-- The lane of element `j` (R105). -/
def laneOf (w j : Nat) : Nat := j / (32 / w)

/-- A register computed element by element (R106): element `j` is `f j` where it is defined, and keeps its value
elsewhere; flags of the computed elements are raised. -/
def buildVec (w : Nat) (old : Vec) (f : Nat → Option FRes) : Vec × FpFlags :=
  let l := (List.range (2048 / w)).map fun j => (f j).getD ⟨elem old w j, 0⟩
  (packVec w (l.map (·.bits)), l.foldl (fun a r => a ||| r.flags) 0)

/-- The elements of enabled lanes (R106). -/
def enabled (mk : Mask) (w : Nat) (f : Nat → FRes) (j : Nat) : Option FRes :=
  if mk.getLsbD (laneOf w j) then some (f j) else none

/-! ### Forms -/

/-- The lanes that have a computed element. -/
def writtenLanes (w : Nat) (f : Nat → Option FRes) : BitVec 64 :=
  (List.range (2048 / w)).foldl (fun m j => if (f j).isSome then setBit m (laneOf w j) true else m) 0

/-- A vector result: v[vd] is written element by element, its flags are raised and the bundle completes (R71, R106); its
lanes may be written late (R217). -/
def writeV (vd : VReg) (w : Nat) (f : Nat → Option FRes) (s : State) : Res :=
  let r := buildVec w (s.getV vd) f
  .next ((s.giveV vd (writtenLanes w f) r.1).raiseFp r.2).complete

/-- The element-wise form: enabled lanes of vd receive a function of the same elements of va and vb (R110). -/
def elementwise (f : Nat → Nat → FRes) (w : Nat) (vd va vb : VReg) (mk : MReg) (s : State) : Res :=
  writeV vd w (enabled (s.getM mk) w fun j => f (elem (s.getV va) w j) (elem (s.getV vb) w j)) s

/-- The unary element-wise form. -/
def elementwise1 (f : Nat → FRes) (w : Nat) (vd va : VReg) (mk : MReg) (s : State) : Res :=
  writeV vd w (enabled (s.getM mk) w fun j => f (elem (s.getV va) w j)) s

/-- A result that raises no flag. -/
def plain (x : Nat) : FRes := ⟨x, 0⟩

/-- An operation by type: integers wrap (R61), FP types round. -/
def byType (t : ElemType) (int : Int → Int → Int) (fp : Fmt → Nat → Nat → FRes) (a b : Nat) : FRes :=
  match t.fmt with
  | some f => fp f a b
  | none => plain (lowBits t.width (int (t.read a) (t.read b)))

/-- A unary operation by type. -/
def byType1 (t : ElemType) (int : Int → Int) (fp : Fmt → Nat → FRes) (a : Nat) : FRes :=
  match t.fmt with
  | some f => fp f a
  | none => plain (lowBits t.width (int (t.read a)))

/-- An FP operation by type; other types are not accepted (R107), and the pattern is kept. -/
def byFp (t : ElemType) (fp : Fmt → Nat → FRes) (a : Nat) : FRes :=
  match t.fmt with
  | some f => fp f a
  | none => plain a

end Sys2Proof.Machine
end

