-- ==== Sys2Proof/Machine/Functions.lean ====
section
/-!
DEFINITION. Square root, reciprocal, reciprocal square root, EXP2, LOG2 and TANH, correctly rounded (R66, R124). An
irrational value is held to 304 fraction bits and rounded from there: R66 asks for the rounding of the exact value,
and entry 13 says when the two could differ.
-/

namespace Sys2Proof.Machine

/-! ### Roots -/

/-- The integer square root by bits, from bit `n` − 1 down: `r` is the root so far. -/
def isqrtFrom (x : Nat) : Nat → Nat → Nat
  | 0, r => r
  | n + 1, r => isqrtFrom x n (if (r + 2 ^ n) * (r + 2 ^ n) ≤ x then r + 2 ^ n else r)

/-- The integer square root. -/
def isqrt (x : Nat) : Nat := isqrtFrom x (x.log2 / 2 + 1) 0

/-- The square root of n / d, rounded once: exact, or strictly between two neighbours of a grid finer than every
rounding boundary. -/
def roundSqrt (f : Fmt) (mode : Rounding) (n d : Nat) : FRes :=
  let r := isqrt (n * 2 ^ 400 / d)
  if r * r * d = n * 2 ^ 400 then roundFrac f mode false r (2 ^ 200)
  else roundFrac f mode false (2 * r + 1) (2 ^ 201)

/-- VSQRT (R124). -/
def sqrtBits (f : Fmt) (mode : Rounding) (a : Nat) : FRes :=
  match f.value a with
  | .nan s => nanRes f s
  | .inf neg => if neg then nanRes f true else ⟨f.inf, 0⟩
  | .zero neg => ⟨f.withSign neg 0, 0⟩
  | .fin neg n d => if neg then nanRes f true else roundSqrt f mode n d

/-- VRCP (R124). -/
def rcpBits (f : Fmt) (mode : Rounding) (a : Nat) : FRes :=
  match f.value a with
  | .nan s => nanRes f s
  | .inf neg => ⟨f.withSign neg 0, 0⟩
  | .zero neg => ⟨f.withSign neg f.inf, flagDZ⟩
  | .fin neg n d => roundFrac f mode neg d n

/-- VRSQRT (R124). -/
def rsqrtBits (f : Fmt) (mode : Rounding) (a : Nat) : FRes :=
  match f.value a with
  | .nan s => nanRes f s
  | .inf neg => if neg then nanRes f true else ⟨0, 0⟩
  | .zero neg => ⟨f.withSign neg f.inf, flagDZ⟩
  | .fin neg n d => if neg then nanRes f true else roundSqrt f mode d n

/-! ### Series in fixed point -/

/-- Fraction bits of the series. -/
def fixBits : Nat := 320

/-- One in fixed point. -/
def fixOne : Nat := 2 ^ fixBits

/-- Fraction bits kept when a value is rounded. -/
def keptBits : Nat := 304

/-- ln 2, as the sum of 1 / (k 2^k) for k from 1 to 340. -/
def ln2Fix : Nat := (List.range 340).foldl (fun a k => a + fixOne / ((k + 1) * 2 ^ (k + 1))) 0

/-- The terms of the exponential series from term `t`, number `k`, summed: `n` terms more. -/
def expTerms (y : Nat) : Nat → Nat → Nat → Nat
  | 0, _, _ => 0
  | n + 1, k, t => t + expTerms y n (k + 1) (t * y / (fixOne * k))

/-- exp y for y in fixed point below 1. -/
def expFix (y : Nat) : Nat := expTerms y 90 1 fixOne

/-- The terms z^k / k for odd k from `k`, with z^k in `t`, summed: `n` terms more. -/
def artanhTerms (z2 : Nat) : Nat → Nat → Nat → Nat
  | 0, _, _ => 0
  | n + 1, k, t => t / k + artanhTerms z2 n (k + 2) (t * z2 / fixOne)

/-- ln (p / q) in fixed point for q ≤ p < 2 q: twice artanh ((p − q) / (p + q)). -/
def lnFix (p q : Nat) : Nat :=
  let z := (p - q) * fixOne / (p + q)
  2 * artanhTerms (z * z / fixOne) 110 1 z

/-- A value strictly between v / 2^keptBits and the next, rounded once. -/
def roundKept (f : Fmt) (mode : Rounding) (v : Int) : FRes := roundInt f mode false (2 * v + 1) (2 ^ (keptBits + 1))

/-! ### EXP2, LOG2, TANH -/

/-- 2^(± n / d) for a nonzero fraction. Beyond ±2000 every operand gives one result. -/
def exp2Frac (f : Fmt) (mode : Rounding) (neg : Bool) (n d : Nat) : FRes :=
  if 2000 * d ≤ n then
    if neg then roundFrac f mode false 1 (2 ^ 2000) else roundFrac f mode false (2 ^ 2000) 1
  else
    let x : Int := if neg then -(n : Int) else n
    let i := x / (d : Int)
    let r := (x % (d : Int)).toNat
    if r = 0 then
      if 0 ≤ i then roundFrac f mode false (2 ^ i.toNat) 1 else roundFrac f mode false 1 (2 ^ (-i).toNat)
    else
      let v := 2 * (expFix (r * ln2Fix / d) / 2 ^ (fixBits - keptBits)) + 1
      if 0 ≤ i then roundFrac f mode false (v * 2 ^ i.toNat) (2 ^ (keptBits + 1))
      else roundFrac f mode false v (2 ^ (keptBits + 1) * 2 ^ (-i).toNat)

/-- VEXP2 (R124). -/
def exp2Bits (f : Fmt) (mode : Rounding) (a : Nat) : FRes :=
  match f.value a with
  | .nan s => nanRes f s
  | .inf neg => ⟨if neg then 0 else f.inf, 0⟩
  | .zero _ => roundFrac f mode false 1 1
  | .fin neg n d => exp2Frac f mode neg n d

/-- log2 (n / d) for a positive fraction. -/
def log2Frac (f : Fmt) (mode : Rounding) (n d : Nat) : FRes :=
  let e := fracExp n d
  let p : Nat × Nat := if 0 ≤ e then (n, d * 2 ^ e.toNat) else (n * 2 ^ (-e).toNat, d)
  if p.1 = p.2 then roundInt f mode false e 1
  else
    let l : Nat := lnFix p.1 p.2 * fixOne / ln2Fix
    roundKept f mode ((e * (fixOne : Int) + (l : Int)) / 2 ^ (fixBits - keptBits))

/-- VLOG2 (R124). -/
def log2Bits (f : Fmt) (mode : Rounding) (a : Nat) : FRes :=
  match f.value a with
  | .nan s => nanRes f s
  | .inf neg => if neg then nanRes f true else ⟨f.inf, 0⟩
  | .zero _ => ⟨f.withSign true f.inf, flagDZ⟩
  | .fin neg n d => if neg then nanRes f true else log2Frac f mode n d

/-- tanh (n / d) for a positive fraction, with the sign given. Below 2^−40 the value lies between x (1 − 2^−80) and
x; above 64 it lies between 1 − 2^−100 and 1. -/
def tanhFrac (f : Fmt) (mode : Rounding) (neg : Bool) (n d : Nat) : FRes :=
  if n * 2 ^ 40 < d then roundFrac f mode neg (n * (2 ^ 100 - 1)) (d * 2 ^ 100)
  else if 64 * d < n then roundFrac f mode neg (2 ^ 100 - 1) (2 ^ 100)
  else
    let y := 2 * n * fixOne / d
    let k := y / ln2Fix
    let ex := expFix (y % ln2Fix) * 2 ^ k
    let t := (ex - fixOne) * fixOne / (ex + fixOne)
    roundFrac f mode neg (2 * (t / 2 ^ (fixBits - keptBits)) + 1) (2 ^ (keptBits + 1))

/-- VTANH (R124). -/
def tanhBits (f : Fmt) (mode : Rounding) (a : Nat) : FRes :=
  match f.value a with
  | .nan s => nanRes f s
  | .inf neg => ⟨f.withSign neg (f.bias.toNat * 2 ^ f.frac), 0⟩
  | .zero neg => ⟨f.withSign neg 0, 0⟩
  | .fin neg n d => tanhFrac f mode neg n d

end Sys2Proof.Machine
end

