-- ==== Sys2Proof/Machine/Scalar.lean ====
section
/-!
DEFINITION. Scalar arithmetic and logic (R85 to R88). Every meaning reads its operands before it writes (R16).
-/

namespace Sys2Proof.Machine

/-! ### The value functions -/

/-- The number of leading zero bits; 64 for zero (R86). -/
def countLeading (a : Word) : Word := BitVec.ofNat 64 (if a = 0 then 64 else 63 - a.toNat.log2)

/-- The number of trailing zero bits; 64 for zero (R86). -/
def countTrailing (a : Word) : Word :=
  BitVec.ofNat 64 (((List.range 64).find? a.getLsbD).getD 64)

/-- The number of one bits (R86). -/
def popCount {w : Nat} (a : BitVec w) : Word := BitVec.ofNat 64 ((List.range w).filter a.getLsbD).length

/-- Byte i of the result is byte 7 − i (R86). -/
def byteSwap (a : Word) : Word := BitVec.ofNat 64 (leNat (leBytes 8 a.toNat).reverse)

/-- zx(a >> pos, len) (R86). -/
def extractU (a : Word) (pos len : Nat) : Word := BitVec.ofNat 64 (a.toNat / 2 ^ pos % 2 ^ len)

/-- sx(a >> pos, len) (R86). -/
def extractS (a : Word) (pos len : Nat) : Word :=
  let n := a.toNat / 2 ^ pos % 2 ^ len
  if n / 2 ^ (len - 1) % 2 = 1 then BitVec.ofNat 64 (n + (2 ^ 64 - 2 ^ len)) else BitVec.ofNat 64 n

/-- b with bits pos + len − 1 to pos replaced by the low len bits of a (R86). -/
def insertBits (a b : Word) (pos len : Nat) : Word :=
  let m : Word := BitVec.ofNat 64 ((2 ^ len - 1) * 2 ^ pos)
  (b &&& ~~~m) ||| ((a <<< pos) &&& m)

/-- ADD: what s[rd] receives (R86). -/
def fAdd (a b : Word) : Word := a + b

/-- SUB: what s[rd] receives (R86). -/
def fSub (a b : Word) : Word := a - b

/-- MUL: what s[rd] receives (R86). -/
def fMul (a b : Word) : Word := a * b

/-- MULH: what s[rd] receives (R86; bits 127:64 of the signed product). -/
def fMulh (a b : Word) : Word := BitVec.ofInt 64 (a.toInt * b.toInt / 2 ^ 64)

/-- MULHU: what s[rd] receives (R86; bits 127:64 of the unsigned product). -/
def fMulhu (a b : Word) : Word := BitVec.ofNat 64 (a.toNat * b.toNat / 2 ^ 64)

/-- DIV: what s[rd] receives (R86; R87). -/
def fDiv (a b : Word) : Word := if b = 0 then 0 else BitVec.ofInt 64 (a.toInt.tdiv b.toInt)

/-- DIVU: what s[rd] receives (R86; R87). -/
def fDivu (a b : Word) : Word := if b = 0 then 0 else BitVec.ofNat 64 (a.toNat / b.toNat)

/-- REM: what s[rd] receives (R86; R87). -/
def fRem (a b : Word) : Word := if b = 0 then a else BitVec.ofInt 64 (a.toInt.tmod b.toInt)

/-- REMU: what s[rd] receives (R86; R87). -/
def fRemu (a b : Word) : Word := if b = 0 then a else BitVec.ofNat 64 (a.toNat % b.toNat)

/-- AND: what s[rd] receives (R86). -/
def fAnd (a b : Word) : Word := a &&& b

/-- OR: what s[rd] receives (R86). -/
def fOr (a b : Word) : Word := a ||| b

/-- XOR: what s[rd] receives (R86). -/
def fXor (a b : Word) : Word := a ^^^ b

/-- ANDN: what s[rd] receives (R86). -/
def fAndn (a b : Word) : Word := a &&& ~~~b

/-- SHL: what s[rd] receives (R86). -/
def fShl (a b : Word) : Word := a <<< (b.toNat % 64)

/-- SHR: what s[rd] receives (R86). -/
def fShr (a b : Word) : Word := a >>> (b.toNat % 64)

/-- SAR: what s[rd] receives (R86). -/
def fSar (a b : Word) : Word := a.sshiftRight (b.toNat % 64)

/-- ROTR: what s[rd] receives (R86). -/
def fRotr (a b : Word) : Word := a.rotateRight (b.toNat % 64)

/-- MIN: what s[rd] receives (R86). -/
def fMin (a b : Word) : Word := if a.toInt ≤ b.toInt then a else b

/-- MAX: what s[rd] receives (R86). -/
def fMax (a b : Word) : Word := if a.toInt ≥ b.toInt then a else b

/-- MINU: what s[rd] receives (R86). -/
def fMinu (a b : Word) : Word := if a.toNat ≤ b.toNat then a else b

/-- MAXU: what s[rd] receives (R86). -/
def fMaxu (a b : Word) : Word := if a.toNat ≥ b.toNat then a else b

/-! ### The shared form -/

/-- s[rd] receives a value and the bundle completes (R85). -/
def writeS (rd : SReg) (v : Word) (s : State) : Res := .next (s.setS rd v).complete

/-- s[rd] receives a function of s[ra] and s[rb]. -/
def alu2 (f : Word → Word → Word) (rd ra rb : SReg) (s : State) : Res := writeS rd (f (s.getS ra) (s.getS rb)) s

/-- s[rd] receives a function of s[ra]. -/
def alu1 (f : Word → Word) (rd ra : SReg) (s : State) : Res := writeS rd (f (s.getS ra)) s

/-! ### The instructions -/

/-- NOP (R27): nothing but the bundle's completion. -/
def execNop (s : State) : Res := .next s.complete

/-- ADD (R86). -/
def execAdd (rd ra rb : SReg) (s : State) : Res := alu2 fAdd rd ra rb s

/-- SUB (R86). -/
def execSub (rd ra rb : SReg) (s : State) : Res := alu2 fSub rd ra rb s

/-- MUL (R86). -/
def execMul (rd ra rb : SReg) (s : State) : Res := alu2 fMul rd ra rb s

/-- MULH (R86). -/
def execMulh (rd ra rb : SReg) (s : State) : Res := alu2 fMulh rd ra rb s

/-- MULHU (R86). -/
def execMulhu (rd ra rb : SReg) (s : State) : Res := alu2 fMulhu rd ra rb s

/-- DIV (R86). -/
def execDiv (rd ra rb : SReg) (s : State) : Res := alu2 fDiv rd ra rb s

/-- DIVU (R86). -/
def execDivu (rd ra rb : SReg) (s : State) : Res := alu2 fDivu rd ra rb s

/-- REM (R86). -/
def execRem (rd ra rb : SReg) (s : State) : Res := alu2 fRem rd ra rb s

/-- REMU (R86). -/
def execRemu (rd ra rb : SReg) (s : State) : Res := alu2 fRemu rd ra rb s

/-- AND (R86). -/
def execAnd (rd ra rb : SReg) (s : State) : Res := alu2 fAnd rd ra rb s

/-- OR (R86). -/
def execOr (rd ra rb : SReg) (s : State) : Res := alu2 fOr rd ra rb s

/-- XOR (R86). -/
def execXor (rd ra rb : SReg) (s : State) : Res := alu2 fXor rd ra rb s

/-- ANDN (R86). -/
def execAndn (rd ra rb : SReg) (s : State) : Res := alu2 fAndn rd ra rb s

/-- SHL (R86). -/
def execShl (rd ra rb : SReg) (s : State) : Res := alu2 fShl rd ra rb s

/-- SHR (R86). -/
def execShr (rd ra rb : SReg) (s : State) : Res := alu2 fShr rd ra rb s

/-- SAR (R86). -/
def execSar (rd ra rb : SReg) (s : State) : Res := alu2 fSar rd ra rb s

/-- ROTR (R86). -/
def execRotr (rd ra rb : SReg) (s : State) : Res := alu2 fRotr rd ra rb s

/-- MIN (R86). -/
def execMin (rd ra rb : SReg) (s : State) : Res := alu2 fMin rd ra rb s

/-- MAX (R86). -/
def execMax (rd ra rb : SReg) (s : State) : Res := alu2 fMax rd ra rb s

/-- MINU (R86). -/
def execMinu (rd ra rb : SReg) (s : State) : Res := alu2 fMinu rd ra rb s

/-- MAXU (R86). -/
def execMaxu (rd ra rb : SReg) (s : State) : Res := alu2 fMaxu rd ra rb s

/-- CLZ (R86). -/
def execClz (rd ra : SReg) (s : State) : Res := alu1 (fun a => countLeading a) rd ra s

/-- CTZ (R86). -/
def execCtz (rd ra : SReg) (s : State) : Res := alu1 (fun a => countTrailing a) rd ra s

/-- POPC (R86). -/
def execPopc (rd ra : SReg) (s : State) : Res := alu1 (fun a => popCount a) rd ra s

/-- BREV (R86). -/
def execBrev (rd ra : SReg) (s : State) : Res := alu1 (fun a => a.reverse) rd ra s

/-- BSWAP (R86). -/
def execBswap (rd ra : SReg) (s : State) : Res := alu1 (fun a => byteSwap a) rd ra s

/-- MOV (R86). -/
def execMov (rd ra : SReg) (s : State) : Res := alu1 (fun a => a) rd ra s

/-- EXTR (R86). -/
def execExtr (rd ra : SReg) (len : BitVec 7) (pos : BitVec 6) (s : State) : Res :=
  alu1 (fun a => extractS a pos.toNat len.toNat) rd ra s

/-- EXTRU (R86). -/
def execExtru (rd ra : SReg) (len : BitVec 7) (pos : BitVec 6) (s : State) : Res :=
  alu1 (fun a => extractU a pos.toNat len.toNat) rd ra s

/-- INSR (R86): the old value of rd is not read. -/
def execInsr (rd ra rb : SReg) (len : BitVec 7) (pos : BitVec 6) (s : State) : Res :=
  alu2 (fun a b => insertBits a b pos.toNat len.toNat) rd ra rb s

/-- MADD (R86): a × b + c. -/
def execMadd (rd ra rb rc : SReg) (s : State) : Res := writeS rd (s.getS ra * s.getS rb + s.getS rc) s

/-- LEA (R86): a + (b << sh). -/
def execLea (rd ra rb : SReg) (sh : BitVec 6) (s : State) : Res := alu2 (fun a b => a + (b <<< sh.toNat)) rd ra rb s

/-- The bits of an extension width (R18). -/
def extBits : ExtWidth → Nat
  | .w8 => 8
  | .w16 => 16
  | .w32 => 32

/-- SEXT (R86). -/
def execSext (rd ra : SReg) (ext : ExtWidth) (s : State) : Res := alu1 (fun a => extractS a 0 (extBits ext)) rd ra s

/-- ZEXT (R86). -/
def execZext (rd ra : SReg) (ext : ExtWidth) (s : State) : Res := alu1 (fun a => extractU a 0 (extBits ext)) rd ra s

/-- ADDI (R88), the immediate sign-extended. -/
def execAddi (rd ra : SReg) (imm32 : BitVec 32) (s : State) : Res :=
  alu1 (fun a => fAdd a (sext64 imm32)) rd ra s

/-- ANDI (R88), the immediate sign-extended. -/
def execAndi (rd ra : SReg) (imm32 : BitVec 32) (s : State) : Res :=
  alu1 (fun a => fAnd a (sext64 imm32)) rd ra s

/-- ORI (R88), the immediate sign-extended. -/
def execOri (rd ra : SReg) (imm32 : BitVec 32) (s : State) : Res :=
  alu1 (fun a => fOr a (sext64 imm32)) rd ra s

/-- XORI (R88), the immediate sign-extended. -/
def execXori (rd ra : SReg) (imm32 : BitVec 32) (s : State) : Res :=
  alu1 (fun a => fXor a (sext64 imm32)) rd ra s

/-- MULI (R88), the immediate sign-extended. -/
def execMuli (rd ra : SReg) (imm32 : BitVec 32) (s : State) : Res :=
  alu1 (fun a => fMul a (sext64 imm32)) rd ra s

/-- SHLI (R88). -/
def execShli (rd ra : SReg) (n6 : BitVec 6) (s : State) : Res := alu1 (fun a => fShl a (zext64 n6)) rd ra s

/-- SHRI (R88). -/
def execShri (rd ra : SReg) (n6 : BitVec 6) (s : State) : Res := alu1 (fun a => fShr a (zext64 n6)) rd ra s

/-- SARI (R88). -/
def execSari (rd ra : SReg) (n6 : BitVec 6) (s : State) : Res := alu1 (fun a => fSar a (zext64 n6)) rd ra s

/-- LI (R88). -/
def execLi (rd : SReg) (imm32 : BitVec 32) (s : State) : Res := writeS rd (sext64 imm32) s

/-- LIH (R88): bits 31:0 of a kept, bits 63:32 replaced. -/
def execLih (rd ra : SReg) (imm32 : BitVec 32) (s : State) : Res := alu1 (fun a => imm32 ++ a.setWidth 32) rd ra s

end Sys2Proof.Machine
end

