-- ==== Sys2Proof/Machine/Predicate.lean ====
section
/-!
DEFINITION. Predicates (R90, R91).
-/

namespace Sys2Proof.Machine

/-- A comparison of two 64-bit patterns (R23, R90). -/
def compareS (cc : Cond) (a b : Word) : Bool :=
  match cc with
  | .eq => a == b
  | .ne => a != b
  | .lt => decide (a.toInt < b.toInt)
  | .le => decide (a.toInt ≤ b.toInt)
  | .gt => decide (a.toInt > b.toInt)
  | .ge => decide (a.toInt ≥ b.toInt)
  | .ltu => decide (a.toNat < b.toNat)
  | .leu => decide (a.toNat ≤ b.toNat)

/-- p[pd] receives a value and the bundle completes. -/
def writeP (pd : PReg) (b : Bool) (s : State) : Res := .next (s.setP pd b).complete

/-- CMP (R90). -/
def execCmp (pd : PReg) (ra rb : SReg) (cc : Cond) (s : State) : Res :=
  writeP pd (compareS cc (s.getS ra) (s.getS rb)) s

/-- CMPI (R90). -/
def execCmpi (pd : PReg) (ra : SReg) (cc : Cond) (imm22 : BitVec 22) (s : State) : Res :=
  writeP pd (compareS cc (s.getS ra) (sext64 imm22)) s

/-- PAND (R91). -/
def execPand (pd pa pb : PReg) (s : State) : Res := writeP pd (s.getP pa && s.getP pb) s

/-- POR (R91). -/
def execPor (pd pa pb : PReg) (s : State) : Res := writeP pd (s.getP pa || s.getP pb) s

/-- PXOR (R91). -/
def execPxor (pd pa pb : PReg) (s : State) : Res := writeP pd (s.getP pa ^^ s.getP pb) s

/-- PNOT (R91). -/
def execPnot (pd pa : PReg) (s : State) : Res := writeP pd (!s.getP pa) s

/-- SEL (R91). -/
def execSel (rd ra rb : SReg) (pn : PReg) (s : State) : Res :=
  writeS rd (if s.getP pn then s.getS ra else s.getS rb) s

/-- GETP (R91). -/
def execGetp (rd : SReg) (s : State) : Res := writeS rd (zext64 s.me.allP) s

/-- SETP (R91): the predicates that the mask names, but for p0. -/
def execSetp (ra : SReg) (mask16 : BitVec 16) (s : State) : Res :=
  let m := mask16 &&& ~~~1
  .next (s.setMe { s.me with p := (s.me.p &&& ~~~m) ||| ((s.getS ra).setWidth 16 &&& m) }).complete

/-- TSTB (R91). -/
def execTstb (pd : PReg) (ra : SReg) (bit6 : BitVec 6) (s : State) : Res :=
  writeP pd ((s.getS ra).getLsbD bit6.toNat) s

end Sys2Proof.Machine
end

