-- ==== Sys2Proof/Machine/Vector.lean ====
section
/-!
DEFINITION. The vector instructions of element-wise arithmetic, logic, shifts, compares, masks, lane moves,
reductions and correctly rounded functions (R110 to R125).
-/

namespace Sys2Proof.Machine

/-! ### Element functions -/

/-- VADD by type (R110). -/
def elAdd (t : ElemType) (rm : Rounding) (a b : Nat) : FRes := byType t (· + ·) (fun f => fpAdd f rm) a b

/-- VSUB by type (R110). -/
def elSub (t : ElemType) (rm : Rounding) (a b : Nat) : FRes := byType t (· - ·) (fun f => fpSub f rm) a b

/-- VMUL by type (R110). -/
def elMul (t : ElemType) (rm : Rounding) (a b : Nat) : FRes := byType t (· * ·) (fun f => fpMul f rm) a b

/-- VDIV by type (R87, R110). -/
def elDiv (t : ElemType) (rm : Rounding) (a b : Nat) : FRes :=
  byType t (fun x y => if y = 0 then 0 else x.tdiv y) (fun f => fpDiv f rm) a b

/-- VMIN by type (R111). -/
def elMin (t : ElemType) (a b : Nat) : FRes := byType t min (fun f => minMaxBits f false) a b

/-- VMAX by type (R111). -/
def elMax (t : ElemType) (a b : Nat) : FRes := byType t max (fun f => minMaxBits f true) a b

/-- VABS by type (R110). -/
def elAbs (t : ElemType) (a : Nat) : FRes := byType1 t (fun x => (x.natAbs : Int)) (fun f => signOp f Fp.abs) a

/-- VNEG by type (R110). -/
def elNeg (t : ElemType) (a : Nat) : FRes := byType1 t (fun x => -x) (fun f => signOp f Fp.flip) a

/-! ### Element-wise arithmetic (R110 to R113) -/

/-- VADD (R110). -/
def execVadd (vd va vb : VReg) (mk : MReg) (ty : ElemType) (rm : Rounding) (s : State) : Res :=
  elementwise (elAdd ty rm) ty.width vd va vb mk s

/-- VSUB (R110). -/
def execVsub (vd va vb : VReg) (mk : MReg) (ty : ElemType) (rm : Rounding) (s : State) : Res :=
  elementwise (elSub ty rm) ty.width vd va vb mk s

/-- VMUL (R110). -/
def execVmul (vd va vb : VReg) (mk : MReg) (ty : ElemType) (rm : Rounding) (s : State) : Res :=
  elementwise (elMul ty rm) ty.width vd va vb mk s

/-- VDIV (R110). -/
def execVdiv (vd va vb : VReg) (mk : MReg) (ty : ElemType) (rm : Rounding) (s : State) : Res :=
  elementwise (elDiv ty rm) ty.width vd va vb mk s

/-- VMIN (R111). -/
def execVmin (vd va vb : VReg) (mk : MReg) (ty : ElemType) (_rm : Rounding) (s : State) : Res :=
  elementwise (elMin ty) ty.width vd va vb mk s

/-- VMAX (R111). -/
def execVmax (vd va vb : VReg) (mk : MReg) (ty : ElemType) (_rm : Rounding) (s : State) : Res :=
  elementwise (elMax ty) ty.width vd va vb mk s

/-- VABS (R110). -/
def execVabs (vd va : VReg) (mk : MReg) (ty : ElemType) (_rm : Rounding) (s : State) : Res :=
  elementwise1 (elAbs ty) ty.width vd va mk s

/-- VNEG (R110). -/
def execVneg (vd va : VReg) (mk : MReg) (ty : ElemType) (_rm : Rounding) (s : State) : Res :=
  elementwise1 (elNeg ty) ty.width vd va mk s

/-- A fused multiply-add of a format (R112): rounds once, in %fpctl's mode. -/
def fusedV (f : Fmt) (vd va vb vc : VReg) (mk : MReg) (s : State) : Res :=
  let w := f.width
  writeV vd w (enabled (s.getM mk) w fun j =>
    fpFma f s.here.fpMode (elem (s.getV va) w j) (elem (s.getV vb) w j) (elem (s.getV vc) w j)) s

/-- VFMA (R112). -/
def execVfma (vd va vb vc : VReg) (mk : MReg) (s : State) : Res := fusedV fmtF32 vd va vb vc mk s

/-- VFMAH (R112). -/
def execVfmah (vd va vb vc : VReg) (mk : MReg) (s : State) : Res := fusedV fmtF16 vd va vb vc mk s

/-- VFMAB (R112). -/
def execVfmab (vd va vb vc : VReg) (mk : MReg) (s : State) : Res := fusedV fmtBF16 vd va vb vc mk s

/-- The low w bits of a scalar. -/
def scalarElem (x : Word) (w : Nat) : Nat := x.toNat % 2 ^ w

/-- VADDS (R113). -/
def execVadds (vd va : VReg) (ra : SReg) (mk : MReg) (ty : ElemType) (s : State) : Res :=
  elementwise1 (fun a => elAdd ty s.here.fpMode a (scalarElem (s.getS ra) ty.width)) ty.width vd va mk s

/-- VMULS (R113). -/
def execVmuls (vd va : VReg) (ra : SReg) (mk : MReg) (ty : ElemType) (s : State) : Res :=
  elementwise1 (fun a => elMul ty s.here.fpMode a (scalarElem (s.getS ra) ty.width)) ty.width vd va mk s

/-! ### Logic and shifts (R114, R115) -/

/-- VAND (R114). -/
def execVand (vd va vb : VReg) (mk : MReg) (s : State) : Res :=
  elementwise (fun a b => plain (a &&& b)) 32 vd va vb mk s

/-- VOR (R114). -/
def execVor (vd va vb : VReg) (mk : MReg) (s : State) : Res :=
  elementwise (fun a b => plain (a ||| b)) 32 vd va vb mk s

/-- VXOR (R114). -/
def execVxor (vd va vb : VReg) (mk : MReg) (s : State) : Res :=
  elementwise (fun a b => plain (a ^^^ b)) 32 vd va vb mk s

/-- The shift amount of an element: the amount field, or the low bits of vb's element (R115). -/
def shiftAmount (w : Nat) (imm : Bool) (amt : BitVec 5) (b : Nat) : Nat := if imm then amt.toNat else b % w

/-- VSHL (R115). -/
def execVshl (vd va vb : VReg) (mk : MReg) (ty : ElemType) (imm1 : Bool) (amt : BitVec 5) (s : State) : Res :=
  elementwise (fun a b => plain (a * 2 ^ shiftAmount ty.width imm1 amt b % 2 ^ ty.width)) ty.width vd va vb mk s

/-- VSHR (R115). -/
def execVshr (vd va vb : VReg) (mk : MReg) (ty : ElemType) (imm1 : Bool) (amt : BitVec 5) (s : State) : Res :=
  elementwise (fun a b => plain (a / 2 ^ shiftAmount ty.width imm1 amt b)) ty.width vd va vb mk s

/-- An arithmetic right shift of a w-bit element (R115). -/
def sarElem (w a n : Nat) : Nat :=
  lowBits w ((if 2 ^ (w - 1) ≤ a then (a : Int) - 2 ^ w else (a : Int)) / 2 ^ n)

/-- VSAR (R115). -/
def execVsar (vd va vb : VReg) (mk : MReg) (ty : ElemType) (imm1 : Bool) (amt : BitVec 5) (s : State) : Res :=
  elementwise (fun a b => plain (sarElem ty.width a (shiftAmount ty.width imm1 amt b))) ty.width vd va vb mk s

/-! ### Compares and masks (R116 to R118) -/

/-- VCMP on one lane: the bit and the flags (R116). -/
def compareLane (t : ElemType) (cc : Cond) (a b : Nat) : Bool × FpFlags :=
  match t.fmt with
  | some f => compareValues cc (f.value a) (f.value b)
  | none =>
    let x := t.read a
    let y := t.read b
    (match cc with
      | .eq => a == b
      | .ne => a != b
      | .lt => decide (x < y)
      | .le => decide (x ≤ y)
      | .gt => decide (x > y)
      | .ge => decide (x ≥ y)
      | .ltu => decide (a < b)
      | .leu => decide (a ≤ b), 0)

/-- A mask computed lane by lane; a disabled lane keeps its bit (R116). -/
def buildMask (mk old : Mask) (f : Nat → Bool × FpFlags) : Mask × FpFlags :=
  (List.range 64).foldl (fun r i =>
    if mk.getLsbD i then (setBit r.1 i (f i).1, r.2 ||| (f i).2) else r) (old, 0)

/-- A mask result: the enabled bits of m[md] are written, flags are raised and the bundle completes. -/
def writeMask (md mk : MReg) (f : Nat → Bool × FpFlags) (s : State) : Res :=
  let r := buildMask (s.getM mk) (s.getM md) f
  .next ((s.giveM md (s.getM mk) r.1).raiseFp r.2).complete

/-- VCMP (R116). -/
def execVcmp (md : MReg) (va vb : VReg) (mk : MReg) (ty : ElemType) (cc : Cond) (s : State) : Res :=
  writeMask md mk (fun i => compareLane ty cc (lane (s.getV va) i) (lane (s.getV vb) i)) s

/-- m[md] receives a value and the bundle completes. -/
def writeM (md : MReg) (v : Mask) (s : State) : Res := .next (s.giveM md (BitVec.allOnes 64) v).complete

/-- MAND (R117). -/
def execMand (md ma mb : MReg) (s : State) : Res := writeM md (s.getM ma &&& s.getM mb) s

/-- MOR (R117). -/
def execMor (md ma mb : MReg) (s : State) : Res := writeM md (s.getM ma ||| s.getM mb) s

/-- MNOT (R117). -/
def execMnot (md ma : MReg) (s : State) : Res := writeM md (~~~(s.getM ma)) s

/-- MPOP (R118). -/
def execMpop (rd : SReg) (mk : MReg) (first : Bool) (s : State) : Res :=
  writeS rd (if first then countTrailing (s.getM mk) else popCount (s.getM mk)) s

/-! ### Moves and lane rearrangement (R119 to R121) -/

/-- VSEL (R119): the mask selects. -/
def execVsel (vd va vb : VReg) (mk : MReg) (s : State) : Res :=
  writeV vd 32 (fun i => some (plain (lane (s.getV (if (s.getM mk).getLsbD i then va else vb)) i))) s

/-- VMOV (R119). -/
def execVmov (vd va : VReg) (mk : MReg) (s : State) : Res := elementwise1 plain 32 vd va mk s

/-- VBCAST (R120). -/
def execVbcast (vd : VReg) (ra : SReg) (mk : MReg) (ty : ElemType) (s : State) : Res :=
  writeV vd ty.width (enabled (s.getM mk) ty.width fun _ => plain (scalarElem (s.getS ra) ty.width)) s

/-- VEXT (R120). -/
def execVext (va : VReg) (rd : SReg) (ty : ElemType) (j : BitVec 13) (s : State) : Res :=
  writeS rd (BitVec.ofInt 64 (ty.read (elem (s.getV va) ty.width j.toNat))) s

/-- VINS (R120). -/
def execVins (vd : VReg) (ra : SReg) (ty : ElemType) (j : BitVec 13) (s : State) : Res :=
  writeV vd ty.width (fun i => if i = j.toNat then some (plain (scalarElem (s.getS ra) ty.width)) else none) s

/-- VPERM (R121). -/
def execVperm (vd va vb : VReg) (mk : MReg) (s : State) : Res :=
  writeV vd 32 (enabled (s.getM mk) 32 fun i => plain (lane (s.getV va) (lane (s.getV vb) i % 64))) s

/-- VROT (R121). -/
def execVrot (vd va : VReg) (mk : MReg) (n6 : BitVec 6) (s : State) : Res :=
  writeV vd 32 (enabled (s.getM mk) 32 fun i => plain (lane (s.getV va) ((i + n6.toNat) % 64))) s

/-- VIOTA (R121). -/
def execViota (vd : VReg) (mk : MReg) (ty : ElemType) (s : State) : Res :=
  writeV vd ty.width (enabled (s.getM mk) ty.width fun j => plain (j % 2 ^ ty.width)) s

/-- VCOMP (R121): the enabled lanes packed from lane 0. -/
def execVcomp (vd va : VReg) (mk : MReg) (s : State) : Res :=
  let from_ := (List.range 64).filter (s.getM mk).getLsbD
  writeV vd 32 (fun k => from_[k]?.map fun i => plain (lane (s.getV va) i)) s

/-! ### Reductions and scans (R81 to R83, R122, R123) -/

/-- One level of the tree of R81: adjacent pairs combined. -/
def pairUp (f : Nat → Nat → FRes) : List FRes → List FRes
  | a :: b :: l =>
    let r := f a.bits b.bits
    ⟨r.bits, a.flags ||| b.flags ||| r.flags⟩ :: pairUp f l
  | l => l

/-- The tree of R81 over `n` levels: the result, with the flags of every node. -/
def tree (f : Nat → Nat → FRes) : Nat → List FRes → FRes
  | 0, l => l.headD ⟨0, 0⟩
  | n + 1, l => tree f n (pairUp f l)

/-- The levels of the tree over the elements of a width. -/
def treeLevels (w : Nat) : Nat := (2048 / w).log2

/-- A reduction (R122): element 0 of vd is the tree's result, disabled elements contribute an identity. -/
def reduceV (f : Nat → Nat → FRes) (identity : Nat) (w : Nat) (vd va : VReg) (mk : MReg) (s : State) : Res :=
  let l := (List.range (2048 / w)).map fun j =>
    plain (if (s.getM mk).getLsbD (laneOf w j) then elem (s.getV va) w j else identity)
  let r := tree f (treeLevels w) l
  writeV vd w (fun j => if j = 0 then some r else none) s

/-- The identity of a sum: −0 for FP, 0 for INT, rw.enc(0) for RW30 (R122). -/
def sumIdentity (t : ElemType) : Nat := ((t.fmt.map Fmt.signBit).getD 0)

/-- VRSUM's combination (R122). -/
def elSum (t : ElemType) (rm : Rounding) (a b : Nat) : FRes := if t = .rw30 then plain (rwAdd a b) else elAdd t rm a b

/-- VRSUM (R122). An RW30 sum is taken of canonical words, so that one enabled element too gives a canonical
result (R72). -/
def execVrsum (vd va : VReg) (mk : MReg) (ty : ElemType) (rm : Rounding) (s : State) : Res :=
  reduceV (elSum ty rm) (sumIdentity ty) ty.width vd va mk s

/-- The identity of VRMAX or VRMIN (R83). -/
def extremeIdentity (t : ElemType) (max : Bool) : Nat :=
  match t.fmt with
  | some f => f.withSign max f.inf
  | none => lowBits t.width (if max then t.lo else t.hi)

/-- VRMAX (R122). -/
def execVrmax (vd va : VReg) (mk : MReg) (ty : ElemType) (_rm : Rounding) (s : State) : Res :=
  reduceV (elMax ty) (extremeIdentity ty true) ty.width vd va mk s

/-- VRMIN (R122). -/
def execVrmin (vd va : VReg) (mk : MReg) (ty : ElemType) (_rm : Rounding) (s : State) : Res :=
  reduceV (elMin ty) (extremeIdentity ty false) ty.width vd va mk s

/-- One step of the scan of R82 with a stride. -/
def scanStep (f : Nat → Nat → FRes) (l : List FRes) (stride : Nat) : List FRes :=
  (List.range l.length).map fun i =>
    let x := l.getD i ⟨0, 0⟩
    if stride ≤ i then
      let r := f (l.getD (i - stride) ⟨0, 0⟩).bits x.bits
      ⟨r.bits, x.flags ||| r.flags⟩
    else x

/-- Lane 0 of a scan, to which no stride adds: R82 returns the element as it stands, and R64 makes every NaN result
canonical, so a NaN element leaves as the canonical NaN (DEDUCED, assumption entry 60). -/
def scanFirst (t : ElemType) (x : Nat) : FRes :=
  byFp t (fun f y => match f.value y with
    | .nan sg => nanRes f sg
    | _ => plain y) x

/-- The lanes of a scan before its first step: a disabled lane contributes the identity of a sum (R82, R123). -/
def scanStart (ty : ElemType) (mk : Mask) (v : Vec) : List FRes :=
  (List.range 64).map fun i =>
    let x := if mk.getLsbD i then lane v i else sumIdentity ty
    if i = 0 then scanFirst ty x else plain x

/-- VSCAN (R82, R123): all 64 lanes are written. The additions of a disabled lane raise nothing (R68; DEDUCED, assumption
entry 60). -/
def execVscan (vd va : VReg) (mk : MReg) (ty : ElemType) (rm : Rounding) (s : State) : Res :=
  let r := [1, 2, 4, 8, 16, 32].foldl (scanStep (elAdd ty rm)) (scanStart ty (s.getM mk) (s.getV va))
  writeV vd 32 (fun i => r[i]?.map fun x => if (s.getM mk).getLsbD i then x else plain x.bits) s

/-! ### Correctly rounded functions (R124, R125) -/

/-- VSQRT (R124). -/
def execVsqrt (vd va : VReg) (mk : MReg) (ty : ElemType) (rm : Rounding) (s : State) : Res :=
  elementwise1 (byFp ty fun f => sqrtBits f rm) ty.width vd va mk s

/-- VRCP (R124). -/
def execVrcp (vd va : VReg) (mk : MReg) (ty : ElemType) (rm : Rounding) (s : State) : Res :=
  elementwise1 (byFp ty fun f => rcpBits f rm) ty.width vd va mk s

/-- VRSQRT (R124). -/
def execVrsqrt (vd va : VReg) (mk : MReg) (ty : ElemType) (rm : Rounding) (s : State) : Res :=
  elementwise1 (byFp ty fun f => rsqrtBits f rm) ty.width vd va mk s

/-- VEXP2 (R124). -/
def execVexp2 (vd va : VReg) (mk : MReg) (ty : ElemType) (rm : Rounding) (s : State) : Res :=
  elementwise1 (byFp ty fun f => exp2Bits f rm) ty.width vd va mk s

/-- VLOG2 (R124). -/
def execVlog2 (vd va : VReg) (mk : MReg) (ty : ElemType) (rm : Rounding) (s : State) : Res :=
  elementwise1 (byFp ty fun f => log2Bits f rm) ty.width vd va mk s

/-- VTANH (R124). -/
def execVtanh (vd va : VReg) (mk : MReg) (ty : ElemType) (rm : Rounding) (s : State) : Res :=
  elementwise1 (byFp ty fun f => tanhBits f rm) ty.width vd va mk s

/-- VRND (R125). -/
def execVrnd (vd va : VReg) (mk : MReg) (ty : ElemType) (rm : Rounding) (s : State) : Res :=
  elementwise1 (byFp ty fun f => rndBits f rm) ty.width vd va mk s

end Sys2Proof.Machine
end

