-- ==== Sys2Proof/Machine/Convert.lean ====
section
/-!
DEFINITION. Conversions, residue instructions, scaling and quantisation (R80, R126 to R130).
-/

namespace Sys2Proof.Machine

/-! ### Conversions -/

/-- An integer saturated to a type's range. -/
def saturate (t : ElemType) (i : Int) : Int := max t.lo (min t.hi i)

/-- An integer stored as an INT or RW30 element. -/
def storeInt (t : ElemType) (i : Int) : Nat := if t = .rw30 then rwEnc i else lowBits t.width i

/-- The value of an INT or RW30 element. -/
def loadInt (t : ElemType) (x : Nat) : Int := if t = .rw30 then rwDec x else t.read x

/-- One element converted from type `src` to type `dst` (R80, R126). -/
def convert (dst src : ElemType) (rm : Rounding) (x : Nat) : FRes :=
  match dst.fmt, src.fmt with
  | some fd, some fs => roundValue fd rm (fs.value x)
  | some fd, none => roundInt fd rm false (loadInt src x) 1
  | none, some fs =>
    let r := toIntBounded rm dst.lo dst.hi (fs.value x)
    ⟨storeInt dst r.1, r.2⟩
  | none, none => plain (storeInt dst (saturate dst (loadInt src x)))

/-- VCVT (R126). -/
def execVcvt (vd va : VReg) (mk : MReg) (ty : ElemType) (rm : Rounding) (src : ElemType) (s : State) : Res :=
  elementwise1 (convert ty src rm) ty.width vd va mk s

/-- VPACK (R127): an element is written when the lane of its source element is enabled. -/
def execVpack (vd va vb : VReg) (mk : MReg) (ty : ElemType) (rm : Rounding) (src : ElemType) (s : State) : Res :=
  let es := 2048 / src.width
  writeV vd ty.width (fun j =>
    let i := j % es
    let v := s.getV (if j < es then va else vb)
    if (s.getM mk).getLsbD (laneOf src.width i) then some (convert ty src rm (elem v src.width i)) else none) s

/-- VUNPK (R127). -/
def execVunpk (vd va : VReg) (mk : MReg) (ty : ElemType) (rm : Rounding) (h : Bool) (src : ElemType) (s : State) :
    Res :=
  let ed := 2048 / ty.width
  writeV vd ty.width (fun j =>
    let i := j + if h then ed else 0
    if (s.getM mk).getLsbD (laneOf src.width i) then
      some (convert ty src rm (elem (s.getV va) src.width i)) else none) s

/-! ### Residue instructions (R128) -/

/-- VZENC (R128): an element is written when the lane of its source element is enabled (R106). -/
def execVzenc (vd va : VReg) (mk : MReg) (ty : ElemType) (p2 : BitVec 2) (s : State) : Res :=
  writeV vd 32 (fun i =>
    let j := 64 * p2.toNat + i
    if (s.getM mk).getLsbD (laneOf ty.width j) then
      some (plain (rwEnc (ty.read (elem (s.getV va) ty.width j)))) else none) s

/-- VZDEC (R128). -/
def execVzdec (vd va : VReg) (mk : MReg) (ty : ElemType) (rm : Rounding) (k6 : BitVec 6) (s : State) : Res :=
  elementwise1 (fun x =>
    match ty.fmt with
    | some f =>
      let k := k6.toInt
      if 0 ≤ k then roundInt f rm false (rwDec x * 2 ^ k.toNat) 1
      else roundInt f rm false (rwDec x) (2 ^ (-k).toNat)
    | none => plain (lowBits 32 (rwDec x))) 32 vd va mk s

/-- VZMAC (R128): vd is read as the accumulator. -/
def execVzmac (vd va vb : VReg) (mk : MReg) (s : State) : Res :=
  writeV vd 32 (enabled (s.getM mk) 32 fun i =>
    plain (rwAdd (lane (s.getV vd) i) (rwMul (lane (s.getV va) i) (lane (s.getV vb) i)))) s

/-- VZMUL (R128). -/
def execVzmul (vd va vb : VReg) (mk : MReg) (s : State) : Res :=
  elementwise (fun a b => plain (rwMul a b)) 32 vd va vb mk s

/-- VZADD (R128). -/
def execVzadd (vd va vb : VReg) (mk : MReg) (s : State) : Res :=
  elementwise (fun a b => plain (rwAdd a b)) 32 vd va vb mk s

/-! ### Scaling and quantisation (R129, R130) -/

/-- VSCALE (R129). -/
def execVscale (vd va vb : VReg) (mk : MReg) (ty : ElemType) (rm : Rounding) (s : State) : Res :=
  elementwise (fun a b =>
    let n : Int := if 2 ^ (ty.width - 1) ≤ b then (b : Int) - 2 ^ ty.width else b
    byFp ty (fun f x => scaleBits f rm x n) a) ty.width vd va vb mk s

/-- q, bad and whether q is inexact, of one lane (R130). -/
def quantise (rm : Rounding) (rn4 : Bool) (x e : Nat) : Int × Bool × Bool :=
  let lim : Int := if rn4 then 7 else 127
  let k := e % 256
  match fmtF32.value x with
  | .nan _ => (0, true, false)
  | .inf neg => if k = 255 then (0, true, false) else (if neg then -lim else lim, true, false)
  | .zero _ => if k = 255 then (0, true, false) else (0, false, false)
  | .fin neg n d =>
    if k = 255 then (0, true, false)
    else
      let r := if k ≤ 127 then rintFrac rm neg (n * 2 ^ (127 - k)) d else rintFrac rm neg n (d * 2 ^ (k - 127))
      if lim < r.1.natAbs then (if neg then -lim else lim, true, false) else (r.1, false, r.2)

/-- VQUANT (R130): 8-bit or 4-bit elements of one part of vd. -/
def execVquant (vd va vb : VReg) (mk : MReg) (rm : Rounding) (rn4 : Bool) (p3 : BitVec 3) (s : State) : Res :=
  let w := if rn4 then 4 else 8
  let part := 64 * p3.toNat
  writeV vd w (fun j =>
    if part ≤ j ∧ j < part + 64 ∧ (s.getM mk).getLsbD (j - part) then
      let r := quantise rm rn4 (lane (s.getV va) (j - part)) (lane (s.getV vb) (j - part))
      some ⟨lowBits w r.1, flagIf r.2.1 flagNV ||| flagIf (!r.2.1 && r.2.2) flagNX⟩
    else none) s

/-- VOCHK (R130): RNE, no flag. -/
def execVochk (md : MReg) (va vb : VReg) (mk : MReg) (rn4 : Bool) (s : State) : Res :=
  writeMask md mk (fun i => ((quantise .rne rn4 (lane (s.getV va) i) (lane (s.getV vb) i)).2.1, 0)) s

end Sys2Proof.Machine
end

