-- ==== Sys2Proof/Machine/Queues.lean ====
section
/-!
DEFINITION. Queues and flags (R221 to R226), and the joins that flags make (R193, R397).
-/

namespace Sys2Proof.Machine

/-! ### Routes and entries -/

/-- The field of %qroute that names queue `q`: writer in bits 1:0, reader in bits 3:2 (R222). -/
def Core.route (k : Core) (q : QReg) : Nat := (k.getSr srQroute).toNat / 2 ^ (4 * q.toNat) % 16

/-- The queue is a vector queue, q0 to q11 (R221). -/
def isVectorQueue (q : QReg) : Bool := decide (q.toNat < 12)

/-- A vector queue whose route names S cannot be used (R223). -/
def Core.unusable (k : Core) (q : QReg) : Bool := isVectorQueue q && (k.route q % 4 == 0 || k.route q / 4 == 0)

/-- The cluster is the queue's writer and may use it (R223). -/
def Core.isWriter (k : Core) (q : QReg) (x : Cluster) : Bool := !k.unusable q && k.route q % 4 == x.code

/-- The cluster is the queue's reader and may use it (R223). -/
def Core.isReader (k : Core) (q : QReg) (x : Cluster) : Bool := !k.unusable q && k.route q / 4 == x.code

/-- The entries of a vector queue, oldest first. -/
def Core.vqueue (k : Core) (q : QReg) : List Vec := tget [] k.regs.vq q.toNat

/-- The entries of a scalar queue, oldest first. -/
def Core.squeue (k : Core) (q : QReg) : List Word := tget [] k.regs.sq (q.toNat - 12)

/-- A vector queue replaced. -/
def Core.setVqueue (k : Core) (q : QReg) (l : List Vec) : Core :=
  { k with regs := { k.regs with vq := tset k.regs.vq q.toNat l, qUsed := true } }

/-- A scalar queue replaced. -/
def Core.setSqueue (k : Core) (q : QReg) (l : List Word) : Core :=
  { k with regs := { k.regs with sq := tset k.regs.sq (q.toNat - 12) l, qUsed := true } }

/-- A queue instruction completes with the queue-used bit set (R103). -/
def State.useQueue (s : State) : State := s.setHere { s.here with regs := { s.here.regs with qUsed := true } }

/-- A word appended to a scalar queue, a release at core scope (R191), or the wait for space (R224). -/
def pushS (q : QReg) (v : Word) (s : State) : Res :=
  s.guarded true false fun s =>
    if !s.here.isWriter q s.actor.cl then s.faultHere .queueRoute 0
    else if (s.here.squeue q).length ≥ Config.scalarQueueDepth then .next (s.block (.queueSpace q))
    else .next (s.releaseHere.setHere (s.releaseHere.here.setSqueue q (s.here.squeue q ++ [v]))).complete

/-- The oldest entry of a scalar queue taken by its reader, or the wait for data (R224). -/
def popS (q : QReg) (s : State) (m : Word → List Word → State → Res) : Res :=
  s.guarded true false fun s =>
    if !s.here.isReader q s.actor.cl then s.faultHere .queueRoute 0
    else match s.here.squeue q with
      | [] => .next (s.block (.queueData q))
      | v :: rest => m v rest s

/-- QPUSH (R224). -/
def execQpush (q : QReg) (ra : SReg) (s : State) : Res := pushS q (s.getS ra) s

/-- QPUSHP (R224). -/
def execQpushp (q : QReg) (pn : PReg) (s : State) : Res := pushS q (if s.getP pn then 1 else 0) s

/-- QPOP (R224). -/
def execQpop (q : QReg) (rd : SReg) (s : State) : Res :=
  popS q s fun v rest s => .next ((s.setHere (s.here.setSqueue q rest)).setS rd v).complete

/-- QPEEK (R224). -/
def execQpeek (q : QReg) (rd : SReg) (s : State) : Res := popS q s fun v _ s => .next (s.useQueue.setS rd v).complete

/-- QTRY (R224): never blocks. -/
def execQtry (q : QReg) (rd : SReg) (pd : PReg) (s : State) : Res :=
  s.guarded true false fun s =>
    if !s.here.isReader q s.actor.cl then s.faultHere .queueRoute 0
    else match s.here.squeue q with
      | [] => .next (s.useQueue.setP pd false).complete
      | v :: rest => .next (((s.setHere (s.here.setSqueue q rest)).setS rd v).setP pd true).complete

/-- VQPUSH (R224). -/
def execVqpush (q : QReg) (va : VReg) (s : State) : Res :=
  s.guarded true false fun s =>
    if !s.here.isWriter q s.actor.cl then s.faultHere .queueRoute 0
    else if (s.here.vqueue q).length ≥ Config.vectorQueueDepth then .next (s.block (.queueSpace q))
    else .next (s.releaseHere.setHere (s.releaseHere.here.setVqueue q (s.here.vqueue q ++ [s.getV va]))).complete

/-- VQPOP (R224). -/
def execVqpop (q : QReg) (vd : VReg) (s : State) : Res :=
  s.guarded true false fun s =>
    if !s.here.isReader q s.actor.cl then s.faultHere .queueRoute 0
    else match s.here.vqueue q with
      | [] => .next (s.block (.queueData q))
      | v :: rest => .next ((s.setHere (s.here.setVqueue q rest)).giveV vd (BitVec.allOnes 64) v).complete

/-- QCOUNT (R224): never blocks. -/
def execQcount (q : QReg) (rd : SReg) (s : State) : Res :=
  s.guarded true false fun s =>
    if !(s.here.isReader q s.actor.cl || s.here.isWriter q s.actor.cl) then s.faultHere .queueRoute 0
    else
      let n := if isVectorQueue q then (s.here.vqueue q).length else (s.here.squeue q).length
      .next (s.useQueue.setS rd (BitVec.ofNat 64 n)).complete

/-! ### Flags -/

/-- FSIG (R226): a release at core scope (R191). -/
def execFsig (fl : FlagReg) (s : State) : Res :=
  s.guarded true false fun s => .next (s.releaseHere.setHere (s.releaseHere.here.signal fl .none)).complete

/-- FWAIT (R226): the wait begins when the flag grants nothing, and the cluster joins the commands whose increments
took effect before its grant (R193). -/
def execFwait (fl : FlagReg) (s : State) : Res :=
  s.guarded true false fun s =>
    let w : Party := .cluster s.actor.cl
    let x := s.here.flag fl
    let y := if x.waiters.contains w then x else { x with waiters := x.waiters ++ [w] }
    if y.granted w then
      let s1 := s.setHere (s.here.setFlag fl (y.take w))
      .next (s1.setMe (s1.me.join x.front)).complete
    else .next ((s.setHere (s.here.setFlag fl y)).block (.flag fl))

/-- FREAD (R226): never blocks. -/
def execFread (rd : SReg) (fl : FlagReg) (s : State) : Res :=
  s.guarded true false fun s => .next (s.setS rd (BitVec.ofNat 64 ((s.here.flag fl).value % 256))).complete

end Sys2Proof.Machine
end

