-- ==== Sys2Proof/Machine/Rings.lean ====
section
/-!
DEFINITION. Stream descriptors and the counts of their rings (R133 to R135, R228, R229, R235).
-/

namespace Sys2Proof.Machine

/-! ### Descriptor fields (R133) -/

/-- A stream descriptor: 64 bytes, byte 0 lowest. -/
abbrev Desc := BitVec 512

/-- `n` bytes of a descriptor from byte `off`. -/
def Desc.field (d : Desc) (off n : Nat) : Nat := d.toNat / 2 ^ (8 * off) % 2 ^ (8 * n)

/-- The walk base. -/
def Desc.base (d : Desc) : Word := BitVec.ofNat 64 (Desc.field d 0x00 8)
/-- The row stride. -/
def Desc.rowStride (d : Desc) : Nat := Desc.field d 0x08 4
/-- The tile stride. -/
def Desc.tileStride (d : Desc) : Nat := Desc.field d 0x0C 4
/-- Rows of a tile. -/
def Desc.rows (d : Desc) : Nat := Desc.field d 0x10 2
/-- Elements of a tile row. -/
def Desc.cols (d : Desc) : Nat := Desc.field d 0x12 2
/-- Tiles of a band. -/
def Desc.across (d : Desc) : Nat := Desc.field d 0x14 2
/-- The flags. -/
def Desc.flags (d : Desc) : Nat := Desc.field d 0x16 2
/-- OUT: an outlier list. -/
def Desc.isOut (d : Desc) : Bool := Desc.flags d % 2 == 1
/-- Tiles of the walk. -/
def Desc.tiles (d : Desc) : Nat := Desc.field d 0x18 4
/-- The position. -/
def Desc.pos (d : Desc) : Nat := Desc.field d 0x1C 4
/-- The ring base. -/
def Desc.ring (d : Desc) : Nat := Desc.field d 0x20 4
/-- The slot size in units of 256 bytes. -/
def Desc.units (d : Desc) : Nat := Desc.field d 0x24 2
/-- Bytes of a slot. -/
def Desc.slotBytes (d : Desc) : Nat := Desc.units d * 256
/-- log2 of the slot count. -/
def Desc.log2slots (d : Desc) : Nat := Desc.field d 0x26 1
/-- Slots of the ring. -/
def Desc.slots (d : Desc) : Nat := 2 ^ Desc.log2slots d
/-- The element format code: a type code, 12 RN8 or 13 RN4 (R21, R75). -/
def Desc.format (d : Desc) : Nat := Desc.field d 0x27 1 % 16
/-- The scale placement. -/
def Desc.placement (d : Desc) : Nat := Desc.field d 0x27 1 / 16 % 4
/-- The scale offset. -/
def Desc.scaleOff (d : Desc) : Nat := Desc.field d 0x28 4 % 2 ^ 21
/-- The scale stride. -/
def Desc.scaleStride (d : Desc) : Nat := Desc.field d 0x2B 1
/-- The clamp bound. -/
def Desc.clamp (d : Desc) : Nat := Desc.field d 0x2C 4
/-- The extra output scale. -/
def Desc.xscale (d : Desc) : Nat := Desc.field d 0x30 4
/-- The logical index base. -/
def Desc.ibase (d : Desc) : Half := BitVec.ofNat 32 (Desc.field d 0x34 4)
/-- The outlier capacity in slots. -/
def Desc.outcap (d : Desc) : Nat := Desc.field d 0x38 4

/-- Format code of RN8 (R75). -/
def fmtRn8 : Nat := 12
/-- Format code of RN4 (R75). -/
def fmtRn4 : Nat := 13

/-- Twice the bytes of an element of a format: 1 for RN4 (R248). -/
def halfBytes (format : Nat) : Nat :=
  match ElemType.ofCode format with
  | some t => t.width / 4
  | none => if format = fmtRn4 then 1 else 2

/-- The last byte of the scale area, from its origin (R133). -/
def Desc.scaleLast (d : Desc) : Nat := Desc.scaleOff d + (Desc.cols d - 1) * Desc.scaleStride d

/-- The offsets of a placement-2 scale table (R133). -/
def Desc.table (d : Desc) : Option (Nat × Nat) :=
  if Desc.placement d = 2 then some (Desc.scaleOff d, Desc.scaleLast d) else none

/-- Bytes of a tile (R248). -/
def Desc.tileBytes (d : Desc) : Nat := Desc.rows d * Desc.cols d * halfBytes (Desc.format d) / 2

/-- A field of a descriptor replaced. -/
def Desc.setField (d : Desc) (off n v : Nat) : Desc :=
  let old := Desc.field d off n
  BitVec.ofNat 512 (d.toNat - old * 2 ^ (8 * off) + v % 2 ^ (8 * n) * 2 ^ (8 * off))

/-! ### What SETST accepts (R134) -/

/-- The first check of R134. -/
def Desc.badLayout (d : Desc) : Bool :=
  Desc.flags d / 2 != 0 || Desc.field d 0x27 1 / 64 != 0 || Desc.field d 0x28 4 / 2 ^ 21 % 8 != 0 ||
    Desc.field d 0x3C 4 != 0 || (Desc.base d).sshiftRight 47 != sext64 ((Desc.base d).extractLsb' 47 1) ||
    !decide (1 ≤ Desc.log2slots d ∧ Desc.log2slots d ≤ 12) || !decide (1 ≤ Desc.units d ∧ Desc.units d ≤ 8176) ||
    Desc.rows d == 0 || Desc.cols d == 0 || Desc.across d == 0 || Desc.ring d % 256 != 0 ||
    decide (0x1FF000 < Desc.ring d + Desc.slots d * Desc.slotBytes d)

/-- The second check of R134. -/
def Desc.badFormat (d : Desc) : Bool :=
  decide (14 ≤ Desc.format d) || Desc.placement d == 3 ||
    ((Desc.placement d == 1 || Desc.placement d == 2) && Desc.scaleStride d == 0) ||
    (Desc.placement d == 1 && decide (Desc.slotBytes d ≤ Desc.scaleLast d)) ||
    (Desc.placement d == 2 && decide (0x1FEFFF < Desc.scaleLast d))

/-- The clamp bound is outside its format's range (R78). -/
def Desc.badClamp (d : Desc) : Bool :=
  if Desc.format d = fmtRn8 then decide (127 < Desc.clamp d)
  else if Desc.format d = fmtRn4 then decide (7 < Desc.clamp d)
  else if Desc.format d = ElemType.f16.code then decide (fmtF16.inf ≤ Desc.clamp d)
  else if Desc.format d = ElemType.bf16.code then decide (fmtBF16.inf ≤ Desc.clamp d)
  else false

/-- The third and fourth checks of R134. -/
def Desc.badRole (d : Desc) : Bool :=
  Desc.badClamp d || decide (fmtF32.inf ≤ Desc.xscale d % fmtF32.signBit) ||
    (Desc.isOut d && (Desc.format d != ElemType.f32.code || Desc.placement d != 0 || Desc.outcap d == 0 ||
      decide (Desc.slots d < Desc.outcap d)))

/-- The first failing check of R134. -/
def Desc.invalid (d : Desc) : Option Cause :=
  if Desc.badLayout d then some .ringDescriptor
  else if Desc.badFormat d || Desc.badRole d then some .streamFormat
  else none

/-! ### Counts (R228, R229, R235) -/

/-- A stream register of a core. -/
def Core.stream (k : Core) (st : StReg) : Stream := tget Stream.reset k.eng.streams st.toNat

/-- A core with one stream register replaced. -/
def Core.setStream (k : Core) (st : StReg) (x : Stream) : Core :=
  { k with eng := { k.eng with streams := tset k.eng.streams st.toNat x } }

/-- The claimed count c. -/
def Stream.c (x : Stream) : Nat := x.claims.length

/-- Slots published and not popped. -/
def Stream.filled (x : Stream) : Nat := (x.t - x.h).toNat - x.c

/-- Slots neither claimed nor filled. -/
def Stream.free (x : Stream) (d : Desc) : Nat := Desc.slots d - (x.t - x.h).toNat

/-- Slots of a stream that engine commands hold reserved: those that have started, and those that a stop holds at the cut
(R229, R317). -/
def Core.reserved (k : Core) (st : StReg) : Nat :=
  (engineOrder.flatMap fun e => (k.queue e).entries.flatMap fun c =>
    (c.reserves.filter (·.st = st)).map (·.n)).sum

/-- Filled slots that a new consumer may take. -/
def Core.available (k : Core) (st : StReg) : Nat := (k.stream st).filled - k.reserved st

/-- The count of the head slot for a command that starts now (R229). -/
def Core.headCount (k : Core) (st : StReg) : Half := (k.stream st).h + BitVec.ofNat 32 (k.reserved st)

/-- The scratchpad offset of the slot that a count names (R228). -/
def Desc.slotOff (d : Desc) (n : Half) : Nat := Desc.ring d + n.toNat % Desc.slots d * Desc.slotBytes d

/-- Slots claimed by a command, or by a cluster, with what their publication is ordered after (R234, R235). -/
def Stream.claim (x : Stream) (n : Nat) (owner : Option CmdId) (front : Front) : Stream :=
  { x with
    t := x.t + BitVec.ofNat 32 n
    claims := x.claims ++ List.replicate n ⟨owner, false, front⟩ }

/-- The consecutive ready slots behind the last published one are published (R235). -/
def Stream.publish (x : Stream) : Stream :=
  { x with
    claims := x.claims.dropWhile (·.ready)
    filledBy := x.filledBy ++ (x.claims.takeWhile (·.ready)).map (·.front) }

/-- The oldest `n` claims that satisfy a test become ready. -/
def readyFirst (p : SlotClaim → Bool) : Nat → List SlotClaim → List SlotClaim
  | 0, l => l
  | _, [] => []
  | n + 1, c :: cs => if p c then { c with ready := true } :: readyFirst p n cs else c :: readyFirst p (n + 1) cs

/-- Slots that the clusters hold claimed and have not marked ready: PUBL may name no more of them. A slot that is marked and
waits for an older one to be published no longer counts (DESIGN CHOICE, assumption entry 63; R234, R235). -/
def Stream.clusterClaims (x : Stream) : Nat := (x.claims.filter fun c => c.owner.isNone && !c.ready).length

/-- The clusters' oldest `n` claims become ready (PUBL, R234). -/
def Stream.publ (x : Stream) (n : Nat) : Stream :=
  Stream.publish { x with claims := readyFirst (fun c => c.owner.isNone && !c.ready) n x.claims }

/-- A command's claims become ready at its retirement (R235). -/
def Stream.publCmd (x : Stream) (id : CmdId) : Stream :=
  Stream.publish { x with claims := x.claims.map fun c => if c.owner = some id then { c with ready := true } else c }

/-- `n` slots popped (R234). -/
def Stream.pop (x : Stream) (n : Nat) : Stream :=
  { x with
    h := x.h + BitVec.ofNat 32 n
    filledBy := x.filledBy.drop n }

/-! ### Commands that name streams (R136) -/

/-- A 5-bit field of a command word. -/
def wordSt (w : Word) (lo : Nat) : StReg := w.extractLsb' lo 5

/-- A command's engine opcode (R29). -/
def wordEop (w : Word) : Nat := (w.extractLsb' 44 4).toNat

/-- The streams that a command names (R139, R145, R147, R247). -/
def streamsOf (e : Engine) (w : Word) : List StReg :=
  match e, wordEop w with
  | .mtx, 1 => [wordSt w 19, wordSt w 14]
  | .mtx, 2 => wordSt w 19 :: (if w.getLsbD 10 then [wordSt w 14] else [])
  | .cin, 1 | .cin, 2 | .cout, 1 | .cout, 2 => wordSt w 19 :: (if w.getLsbD 13 then [wordSt w 14] else [])
  | .gth, 1 =>
    [wordSt w 19, wordSt w 19 + 1, wordSt w 19 + 2, wordSt w 14, wordSt w 9, wordSt w 9 + 1] ++
      (if w.getLsbD 3 then [wordSt w 4] else [])
  | .topk, 1 => [wordSt w 19, wordSt w 14]
  | _, _ => []

/-- The last numbers of a core's queues, in the order of the engines. -/
def Core.lasts (k : Core) : List Half := engineOrder.map fun e => (k.queue e).last

/-- A sequence number lies at or before another. -/
def seqUpTo (n last : Half) : Bool := decide ((last - n).toNat < 2 ^ 31)

/-- An unretired command of the core, enqueued up to the last numbers given, names a stream (R136). -/
def Core.namesStream (k : Core) (st : StReg) (lasts : List Half) : Bool :=
  (engineOrder.zip lasts).any fun y => (k.queue y.1).entries.any fun c =>
    seqUpTo c.seq y.2 && (streamsOf y.1 (k.cmdWord y.1 c.seq)).contains st

/-- What orders before a command of an engine, itself included: its record, or its own number (R254). -/
def Core.frontOf (k : Core) (id : CmdId) : Front :=
  match (k.queue id.engine).hist.find? (·.seq = id.seq) with
  | some h => h.front
  | none =>
    match id.engine with
    | .mtx => ⟨id.seq, 0xFFFFFFFF⟩
    | .cin => ⟨0xFFFFFFFF, id.seq⟩
    | _ => .none

/-- What orders before the publication of `n` filled slots from a count (R193, R254). -/
def Stream.publishers (x : Stream) (first : Half) (n : Nat) : Front :=
  ((x.filledBy.drop (first - x.h).toNat).take n).foldl Front.join .none

end Sys2Proof.Machine
end

