-- ==== Sys2Proof/Machine/RingInstr.lean ====
section
/-!
DEFINITION. SETST, GETST and the ring instructions (R134, R136, R230 to R236), and the stash (R156, R157).
-/

namespace Sys2Proof.Machine

/-! ### Overlaps in the scratchpad -/

/-- The first own-window byte of a scratchpad range. -/
def ownVa (off : Nat) : Word := BitVec.ofNat 64 (0x7F0000000000 + off)

/-- The first byte that two ranges share. -/
def firstShared (a b : Nat × Nat) : Option Nat :=
  let lo := max a.1 b.1
  if lo ≤ min a.2 b.2 then some lo else none

/-- The least of some offsets. -/
def leastOff (l : List Nat) : Option Nat :=
  match l with
  | [] => none
  | x :: xs => some (xs.foldl min x)

/-- The bytes of a mapping, first and last. -/
def StashMap.range (m : StashMap) : Nat × Nat := (m.off, m.off + 64 * m.count - 1)

/-- The first byte of the ranges that a stash mapping of the core covers (R157). -/
def Core.stashConflict (k : Core) (rs : List (Nat × Nat)) : Option Nat :=
  leastOff (rs.flatMap fun r => k.loc.stash.filterMap fun m => firstShared r m.range)

/-- The bytes of a stream's ring and of its placement-2 table. -/
def Desc.areas (d : Desc) : List (Nat × Nat) :=
  (Desc.ring d, Desc.ring d + Desc.slots d * Desc.slotBytes d - 1) :: (Desc.table d).toList

/-! ### SETST and GETST -/

/-- SETST (R230): the read, the wait of R136 for the commands that were enqueued before it began, the checks of R134 and the
stash check, then the register. -/
def execSetst (ra : SReg) (off64 : BitVec 20) (st : StReg) (s0 : State) : Res :=
  s0.guarded true false fun s0 =>
    let va := s0.getS ra + zext64 off64 * 64
    let s := s0.orderHere .load .core .relaxed .read .any (vaBytes va 64)
    if va.toNat % 64 ≠ 0 then s.faultHere .misaligned va
    else
      readThen s.agentHere (vaBytes va 64) (fun e s => s.accessErr e)
        (fun bytes s =>
          let d : Desc := BitVec.ofNat 512 (leNat bytes)
          let before := s.me.setst.getD s.here.lasts
          if s.here.namesStream st before then
            .next ((s.setMe { s.me with setst := some before }).block (.streamFree st))
          else match Desc.invalid d with
            | some cause => s.faultHere cause 0
            | none =>
              match s.here.stashConflict (Desc.areas d) with
              | some o => s.faultHere .stashConflict (ownVa o)
              | none =>
                let s1 := s.countHere.noteHere .read (vaBytes va 64)
                .next (s1.setHere (s1.here.setStream st ⟨some d, 0, 0, [], [], 0, 0⟩)).complete) s

/-- GETST (R231): an unset register reads as zero. -/
def execGetst (rd : SReg) (k3 : BitVec 3) (st : StReg) (s : State) : Res :=
  writeS rd (BitVec.ofNat 64 ((((s.here.stream st).desc.getD 0).toNat / 2 ^ (64 * k3.toNat)))) s

/-! ### The ring instructions -/

/-- The check of a ring instruction's stream: set, and not an outlier list where that is refused (R233). -/
def withStream (st : StReg) (noOut : Bool) (m : Desc → Stream → State → Res) (s : State) : Res :=
  match (s.here.stream st).desc with
  | none => s.faultHere .ringDescriptor 0
  | some d => if noOut && Desc.isOut d then s.faultHere .ringDescriptor 0 else m d (s.here.stream st) s

/-- WFILL (R234): a join with the publishers of the slots it counts (R193). -/
def execWfill (n13 : BitVec 13) (st : StReg) (s : State) : Res :=
  s.guarded true false fun s =>
    withStream st false (fun d x s =>
      if n13.toNat > Desc.slots d then s.faultHere .ringUnderrun 0
      else if s.here.available st < n13.toNat then .next (s.block (.ringFill st n13.toNat))
      else .next (s.setMe (s.me.join (x.publishers (s.here.headCount st) n13.toNat))).complete) s

/-- WFREE (R234). -/
def execWfree (n13 : BitVec 13) (st : StReg) (s : State) : Res :=
  s.guarded true false fun s =>
    withStream st false (fun d x s =>
      if n13.toNat > Desc.slots d then s.faultHere .ringOverrun 0
      else if x.free d < n13.toNat then .next (s.block (.ringFree st n13.toNat))
      else .next s.complete) s

/-- CLAIM (R234). -/
def execClaim (rd : SReg) (n13 : BitVec 13) (st : StReg) (s : State) : Res :=
  s.guarded true false fun s =>
    withStream st true (fun d x s =>
      if n13.toNat > Desc.slots d then s.faultHere .ringOverrun 0
      else if x.free d < n13.toNat then .next (s.block (.ringFree st n13.toNat))
      else .next ((s.setHere (s.here.setStream st (x.claim n13.toNat none .none))).setS rd (zext64 x.t)).complete) s

/-- PUBL (R234, R235): a release at core scope (R236). -/
def execPubl (n13 : BitVec 13) (st : StReg) (s : State) : Res :=
  s.guarded true false fun s =>
    withStream st true (fun _ x s =>
      if n13.toNat > x.clusterClaims then s.faultHere .ringOverrun 0
      else .next (s.releaseHere.setHere (s.releaseHere.here.setStream st (x.publ n13.toNat))).complete) s

/-- POPT (R234): a release at core scope (R236). -/
def execPopt (n13 : BitVec 13) (st : StReg) (s : State) : Res :=
  s.guarded true false fun s =>
    withStream st false (fun d x s =>
      if n13.toNat > Desc.slots d ∨ n13.toNat > s.here.available st then s.faultHere .ringUnderrun 0
      else .next (s.releaseHere.setHere (s.releaseHere.here.setStream st (x.pop n13.toNat))).complete) s

/-- RADDR (R234): the own-window address of the slot that s[ra] names. -/
def execRaddr (rd ra : SReg) (st : StReg) (s : State) : Res :=
  withStream st false (fun d _ s =>
    writeS rd (ownVa (Desc.ring d + (s.getS ra).toNat % Desc.slots d * Desc.slotBytes d)) s) s

/-- RSTAT (R234). -/
def execRstat (rd : SReg) (k3 : BitVec 3) (st : StReg) (s : State) : Res :=
  withStream st false (fun d x s =>
    let v : Nat := match k3.toNat with
      | 0 => x.filled
      | 1 => s.here.available st
      | 2 => x.free d
      | 3 => x.c
      | 4 => x.h.toNat
      | 5 => x.t.toNat
      | 6 => x.records.toNat
      | _ => x.clamps.toNat
    writeS rd (BitVec.ofNat 64 v) s) s

/-! ### The stash (R156, R157) -/

/-- The first global block that two runs of 64-byte blocks share; addresses wrap modulo 2^64. -/
def sharedBlock (a : Word) (n : Nat) (b : Word) (m : Nat) : Option Word :=
  if (a - b).toNat < 64 * m then some a
  else if (b - a).toNat < 64 * n then some b
  else none

/-- The conflicts of SMAP in the order of R156: %faddr of the first. -/
def Core.smapConflict (k : Core) (off : Nat) (addr : Word) (count : Nat) : Option Word :=
  let r := (off, off + 64 * count - 1)
  let streams := k.eng.streams.toList.filterMap (·.desc)
  match k.stashConflict [r] with
  | some o => some (ownVa o)
  | none =>
    match leastOff (streams.flatMap fun d => (Desc.areas d).filterMap (firstShared r)) with
    | some o => some (ownVa o)
    | none =>
      match k.loc.stash.findSome? fun m => sharedBlock addr count m.addr m.count with
      | some a => some a
      | none =>
        if k.loc.stash.length ≥ 8 ∨ (k.loc.stash.map (·.count)).sum + count > 16384 then some 0 else none

/-- SMAP (R156). -/
def execSmap (ra rb rc : SReg) (s : State) : Res :=
  let off := (s.getS ra).toNat
  let addr := s.getS rb
  let n := (s.getS rc).toNat
  if off % 64 ≠ 0 then s.faultHere .misaligned (s.getS ra)
  else if addr.toNat % 64 ≠ 0 then s.faultHere .misaligned addr
  else if n = 0 ∨ 16384 < n ∨ 0x1FF000 < off + 64 * n then
    s.faultHere .scratchpadBounds (BitVec.ofNat 64 (0x7F0000000000 + (if off < 0x1FF000 ∧ 0 < n then 0x1FF000 else off)))
  else match s.here.smapConflict off addr n with
    | some a => s.faultHere .stashConflict a
    | none =>
      let k := s.here
      .next (s.setHere { k with loc := { k.loc with stash := k.loc.stash ++ [⟨off, addr, n, [], []⟩] } }).complete

/-- The addresses and bytes of a mapping's dirty entries. -/
def Core.dirtyBytes (k : Core) (m : StashMap) : List (Word × Byte) :=
  ((List.range m.count).filter (sget false m.dirty)).flatMap fun i =>
    (vaBytes (m.addr + BitVec.ofNat 64 (64 * i)) 64).zip (rdBytes k.loc.scratch (m.off + 64 * i) 64)

/-- The dirty entries of the mapping at an offset are written back, as stores of the executing cluster, and then the
mapping is replaced or removed (R156, R157). -/
def writeBackStash (ra : SReg) (f : StashMap → Option StashMap) (s : State) : Res :=
  match s.here.loc.stash.find? (fun m => m.off == (s.getS ra).toNat) with
  | none => .next s.complete
  | some m =>
    storeThen .span ⟨.relaxed, .device, .normal⟩ (s.here.dirtyBytes m) (fun s =>
      let k := s.here
      let l := k.loc.stash.filterMap fun x => if x.off = m.off then f x else some x
      .next (s.setHere { k with loc := { k.loc with stash := l } }).complete) s

/-- SUNMAP (R156). -/
def execSunmap (ra : SReg) (s : State) : Res := writeBackStash ra (fun _ => none) s

/-- SFLUSH (R156). -/
def execSflush (ra : SReg) (s : State) : Res :=
  writeBackStash ra (fun x => some { x with filled := [], dirty := [] }) s

end Sys2Proof.Machine
end

