-- ==== Sys2Proof/Machine/EngineIssue.lean ====
section
/-!
DEFINITION. Issuing engine commands, GFENCE, the weir's waits, EWAIT, ESEQ, BSTAT and BPREF (R29 to R33, R237 to
R245, R254, R266, R267).
-/

namespace Sys2Proof.Machine

/-! ### Command words (R29 to R32) -/

/-- The command word that an issuing instruction builds (R32). -/
def mkWord (eo : EngOpts) (eop operands : Nat) : Word :=
  BitVec.ofNat 64 (eo.wait.toNat * 2 ^ 56 + eo.signal.toNat * 2 ^ 48 + eop * 2 ^ 44 + operands)

/-- The SIGNAL byte of a word. -/
def wordSignal (w : Word) : BitVec 8 := w.extractLsb' 48 8

/-- The predecessor that a WAIT byte names: engine and distance (R30). -/
def waitPred (b : BitVec 8) : Option (Engine × Nat) :=
  if b.getLsbD 7 then (Engine.ofCode (b.toNat / 16 % 8)).map fun e => (e, b.toNat % 16) else none

/-- A WAIT byte with a predecessor of engine 5 to 7 or distance 0 is illegal (R30). -/
def badWait (b : BitVec 8) : Bool := b.getLsbD 7 && ((waitPred b).isNone || b.toNat % 16 == 0)

/-- The flag that a SIGNAL byte increments, 0 for none (R31). -/
def signalFlag (b : BitVec 8) : FlagReg := if b.getLsbD 7 then b.setWidth 7 else 0

/-- A field of a word. -/
def wordField (w : Word) (lo n : Nat) : Nat := w.toNat / 2 ^ lo % 2 ^ n

/-- An optional stream field is zero when its enable bit is clear. -/
def optField (w : Word) (enable lo : Nat) : Bool := w.getLsbD enable || wordField w lo 5 == 0

/-- Bits 47:0 hold an opcode of the engine and operands that a syllable could produce (R139, R145, R147, R241, R244,
R247). -/
def wordOk (e : Engine) (w : Word) : Bool :=
  wordField w 24 20 == 0 &&
    match e, wordEop w with
    | _, 15 => wordField w 8 16 == 0 && w.getLsbD (3 + e.code)
    | _, 14 => wordField w 5 19 == 0 && w.getLsbD e.code
    | .mtx, 1 => wordField w 0 8 == 0 && decide (wordField w 11 3 ≤ 5)
    | .mtx, 2 => wordField w 0 10 == 0 && decide (wordField w 11 3 ≤ 5) && optField w 10 14
    | .mtx, 3 => wordField w 0 11 == 0 && decide (wordField w 11 3 ≤ 5) && wordField w 14 10 == 0
    | .cin, 1 | .cin, 2 | .cout, 1 => wordField w 0 9 == 0 && optField w 13 14
    | .cout, 2 => wordField w 0 6 == 0 && decide (wordField w 6 3 ≤ 4) && optField w 13 14
    | .gth, 1 => wordField w 0 3 == 0 && decide (wordField w 19 5 ≤ 29 ∧ wordField w 9 5 ≤ 30) && optField w 3 4
    | .topk, 1 => wordField w 0 4 == 0
    | _, _ => false

/-- The command next to start in a queue: in the matrix queue it has no predecessor left (R239, R256). -/
def EngineQueue.nextCmd (q : EngineQueue) (e : Engine) : Option Cmd :=
  if e = .mtx then q.entries.head?.filter (·.started.isNone) else q.entries.find? (·.started.isNone)

/-! ### The order of commands (R254) -/

/-- A command was enqueued before another: ordinals modulo 2^32 (R397). -/
def ordBefore (a b : Half) : Bool := decide (0 < (b - a).toNat ∧ (b - a).toNat < 2 ^ 31)

/-- A command's own place in the order. -/
def ownFront (id : CmdId) : Front :=
  match id.engine with
  | .mtx => ⟨id.seq, 0xFFFFFFFF⟩
  | .cin => ⟨0xFFFFFFFF, id.seq⟩
  | _ => .none

/-- What is ordered before a command by its queue, its WAIT and its issuer's joins (R254): itself included. -/
def Core.staticFront (k : Core) (id : CmdId) (w : Word) (predSeq : Option Half) (ordinal : Half) (issuer : Front) :
    Front :=
  let queueFront := k.frontOf ⟨id.engine, id.seq - 1⟩
  let byQueue := if (k.queue id.engine).hist.any (·.seq = id.seq - 1) then queueFront else .none
  let byPred := match waitPred (wordWait w), predSeq with
    | some (e, _), some n => if (k.queue e).hist.any (·.seq = n) then k.frontOf ⟨e, n⟩ else .none
    | _, _ => .none
  let byFlag := match waitFlag (wordWait w) with
    | none => .none
    | some f => engineOrder.foldl (fun fr e => (k.queue e).hist.foldl (fun fr h =>
        if h.signal = f ∧ ordBefore h.ordinal ordinal then fr.join h.front else fr) fr) .none
  (((ownFront id).join issuer).join byQueue).join (byPred.join byFlag)

/-! ### Flag waits of commands (R225, R240) -/

/-- The command behind the started ones of a queue begins its flag wait, if it has one (R225, R240). -/
def Core.beginFlagWait (k : Core) (e : Engine) : Core :=
  match (k.queue e).entries.find? (·.started.isNone) with
  | none => k
  | some c =>
    let w := k.cmdWord e c.seq
    match waitFlag (wordWait w) with
    | none => k
    | some f =>
      let x := k.flag f
      if !wordOk e w || c.granted || x.waiters.contains (.engine e) then k
      else (k.setFlag f { x with waiters := x.waiters ++ [.engine e] }).settleFlag f

/-! ### Enqueueing (R238) -/

/-- %gen (R243). -/
def Core.gen (k : Core) : BitVec 4 := (k.getSr srGen).setWidth 4

/-- A command word enqueued (R238): its number, its stamp, its preference and its record. -/
def Core.enqueue (k : Core) (e : Engine) (w : Word) (issuer : Front) : Core :=
  let q := k.queue e
  let seq := q.last + 1
  let predSeq := (waitPred (wordWait w)).map fun x => (k.queue x.1).last - BitVec.ofNat 32 (x.2 - 1)
  let ord := k.eng.ordinal
  let cmd : Cmd := ⟨seq, k.gen, tget .normal k.eng.prefs e.code, ord, predSeq, false, issuer, none, false, false, 0,
    [], [], [], none, [], []⟩
  let rec_ : Hist := ⟨seq, ord, signalFlag (wordSignal w), [], [],
    k.staticFront ⟨e, seq⟩ w predSeq ord issuer, .pending, false⟩
  let k1 := { k with
    loc := { k.loc with scratch := wrBytes k.loc.scratch (entryOff e seq) (leBytes 8 w.toNat) }
    eng := { k.eng with ordinal := ord + 1 } }
  (k1.setQueue e { q with last := seq, entries := q.entries ++ [cmd], hist := rec_ :: q.hist }).beginFlagWait e

/-- The queue has no free entry (R238). -/
def Core.queueFull (k : Core) (e : Engine) : Bool := decide (queueDepth e ≤ (k.queue e).entries.length)

/-- The form of an engine-issue instruction (R30, R31, R238): a store at core scope (R192). -/
def issueCmd (pureForbids : Bool) (e : Engine) (rd : SReg) (w : Word) (s : State) : Res :=
  s.guarded true pureForbids fun s =>
    if badWait (wordWait w) then s.faultHere .predecessor 0
    else if !signalOk (wordSignal w) then s.faultHere .reservedField 0
    else if s.here.queueFull e then .next (s.block (.engineSpace e))
    else
      let t := s.orderIssue
      let seq := (s.here.queue e).last + 1
      .next ((t.setHere (t.here.enqueue e w s.me.joined)).setS rd (zext64 seq)).complete

/-- A bit of an operand field. -/
def bitAt (b : Bool) (i : Nat) : Nat := if b then 2 ^ i else 0

/-- ENQ (R241). -/
def execEnq (rd : SReg) (eng : Engine) (rs : SReg) (s : State) : Res := issueCmd false eng rd (s.getS rs) s

/-- MMA's issue (R139). -/
def execMma (rd : SReg) (eo : EngOpts) (stA stB : StReg) (acc : AccReg) (z popA popB : Bool) (s : State) : Res :=
  issueCmd false .mtx rd (mkWord eo 1 (stA.toNat * 2 ^ 19 + stB.toNat * 2 ^ 14 + acc.toNat * 2 ^ 11 + bitAt z 10 +
    bitAt popA 9 + bitAt popB 8)) s

/-- MRET's issue (R139). -/
def execMret (rd : SReg) (eo : EngOpts) (stD stO : StReg) (acc : AccReg) (oe : Bool) (s : State) : Res :=
  issueCmd false .mtx rd (mkWord eo 2 (stD.toNat * 2 ^ 19 + stO.toNat * 2 ^ 14 + acc.toNat * 2 ^ 11 + bitAt oe 10)) s

/-- MZERO's issue (R139). -/
def execMzero (rd : SReg) (eo : EngOpts) (acc : AccReg) (s : State) : Res :=
  issueCmd false .mtx rd (mkWord eo 3 (acc.toNat * 2 ^ 11)) s

/-- The operand field of a copy command (R247). -/
def copyOperands (stS stC : StReg) (ce : Bool) (n1 : BitVec 4) : Nat :=
  stS.toNat * 2 ^ 19 + stC.toNat * 2 ^ 14 + bitAt ce 13 + n1.toNat * 2 ^ 9

/-- CPIN's issue (R247). -/
def execCpin (rd : SReg) (eo : EngOpts) (stS stC : StReg) (ce : Bool) (n1 : BitVec 4) (s : State) : Res :=
  issueCmd false .cin rd (mkWord eo 1 (copyOperands stS stC ce n1)) s

/-- CPSTR's issue (R247). -/
def execCpstr (rd : SReg) (eo : EngOpts) (stS stC : StReg) (ce : Bool) (n1 : BitVec 4) (s : State) : Res :=
  issueCmd false .cin rd (mkWord eo 2 (copyOperands stS stC ce n1)) s

/-- CPOUT's issue (R247). -/
def execCpout (rd : SReg) (eo : EngOpts) (stS stC : StReg) (ce : Bool) (n1 : BitVec 4) (s : State) : Res :=
  issueCmd false .cout rd (mkWord eo 1 (copyOperands stS stC ce n1)) s

/-- CPRED's issue (R247, R295). -/
def execCpred (rd : SReg) (eo : EngOpts) (stS stC : StReg) (ce : Bool) (n1 : BitVec 4) (rop : RedOp) (s : State) : Res :=
  issueCmd true .cout rd (mkWord eo 2 (copyOperands stS stC ce n1 + rop.code * 2 ^ 6)) s

/-- GATH's issue (R145). -/
def execGath (rd : SReg) (eo : EngOpts) (stS stD stO stC : StReg) (ce : Bool) (s : State) : Res :=
  issueCmd false .gth rd (mkWord eo 1 (stS.toNat * 2 ^ 19 + stD.toNat * 2 ^ 14 + stO.toNat * 2 ^ 9 +
    stC.toNat * 2 ^ 4 + bitAt ce 3)) s

/-- TOPK's issue (R147). -/
def execTopk (rd : SReg) (eo : EngOpts) (stI stO : StReg) (k1 : BitVec 8) (pairs pop : Bool) (s : State) : Res :=
  issueCmd false .topk rd (mkWord eo 1 (stI.toNat * 2 ^ 19 + stO.toNat * 2 ^ 14 + k1.toNat * 2 ^ 6 + bitAt pairs 5 +
    bitAt pop 4)) s

/-- NOTIFY's issue (R244). -/
def execNotify (rd : SReg) (eng : Engine) (eo : EngOpts) (mask5 : BitVec 5) (ev3 : BitVec 3) (s : State) : Res :=
  issueCmd false eng rd (mkWord eo 15 (mask5.toNat * 2 ^ 3 + ev3.toNat)) s

/-! ### GFENCE (R243) -/

/-- The engines of a mask, in ascending order. -/
def maskEngines (mask : BitVec 5) : List Engine := engineOrder.filter fun e => mask.getLsbD e.code

/-- An unretired command of the core carries a stamp (R243). -/
def Core.hasStamp (k : Core) (g : BitVec 4) : Bool :=
  engineOrder.any fun e => (k.queue e).entries.any (·.gen = g)

/-- GFENCE may not append yet (R243). -/
def Core.gfenceBlocked (k : Core) (mask : BitVec 5) : Bool :=
  (maskEngines mask).any k.queueFull || k.hasStamp (k.gen + 9)

/-- GFENCE's effect (R243, R335): its commands are appended, a fence save's boundary is fixed, and GEN advances. -/
def Core.gfence (k : Core) (mask : BitVec 5) (issuer : Front) : Core :=
  let g := k.gen
  let k1 := (maskEngines mask).foldl (fun k e => k.enqueue e (mkWord ⟨0, 0⟩ 14 mask.toNat) issuer) k
  let fix (x : Xfer) : Xfer := if x.fence && x.boundary.isNone then { x with boundary := some g } else x
  { k1.setSr srGen (zext64 (g + 1)) with xfer := k1.xfer.map fix }

/-- GFENCE (R243). -/
def execGfence (mask5 : BitVec 5) (s : State) : Res :=
  s.guarded true false fun s =>
    if s.here.gfenceBlocked mask5 then .next (s.block (.generation mask5))
    else .next (s.orderIssue.setHere (s.orderIssue.here.gfence mask5 s.me.joined)).complete

/-! ### Waits and readings (R242, R245, R266, R267) -/

/-- WAITEV (R245): a join with the commands that the firing counted (R193). -/
def execWaitev (ev3 : BitVec 3) (s : State) : Res :=
  s.guarded true false fun s =>
    let e := ev3.toNat
    let w := tget 0 s.me.consumed e
    if (tget 0 s.here.eng.weirF e).toNat ≤ w.toNat then .next (s.block (.event ev3))
    else
      let n := w + 1
      let m := s.me.join (sget .none s.here.eng.weirFront (8 * n.toNat + e))
      .next (s.setMe { m with consumed := tset m.consumed e n }).complete

/-- A sequence number lies beyond the last enqueued (R242, R267). -/
def beyondLast (n last : Half) : Bool := decide (1 ≤ (n - last).toNat ∧ (n - last).toNat < 2 ^ 31)

/-- Command `n` of a queue has not retired. -/
def EngineQueue.holds (q : EngineQueue) (n : Half) : Bool := q.entries.any (·.seq = n)

/-- EWAIT (R242): a join with the command (R193). -/
def execEwait (eng : Engine) (rs : SReg) (s : State) : Res :=
  s.guarded true false fun s =>
    let n : Half := (s.getS rs).setWidth 32
    let q := s.here.queue eng
    if beyondLast n q.last then s.faultHere .predecessor 0
    else if q.holds n then .next (s.block (.retired eng n))
    else
      let f := ((q.hist.find? (·.seq = n)).map (·.front)).getD .none
      .next (s.setMe (s.me.join f)).complete

/-- ESEQ (R242). -/
def execEseq (rd : SReg) (eng : Engine) (sel2 : BitVec 2) (s : State) : Res :=
  let q := s.here.queue eng
  writeS rd (zext64 (if sel2 = 0 then q.last else if sel2 = 1 then q.started else q.retired)) s

/-- A status and its promoted bit as BSTAT gives them (R267). -/
def bindCode (h : Hist) : Nat :=
  (match h.status with
    | .pending => 0
    | .dedicated => 1
    | .substitute => 2
    | .flushed => 4
    | .faulted => 5
    | .expired => 7) + bitAt h.promoted 4

/-- BSTAT (R267). -/
def execBstat (rd : SReg) (eng : Engine) (rs : SReg) (s : State) : Res :=
  s.guarded false true fun s =>
    let n : Half := (s.getS rs).setWidth 32
    let q := s.here.queue eng
    if beyondLast n q.last then s.faultHere .predecessor 0
    else if (q.last - n).toNat ≥ 256 then writeS rd 7 s
    else match q.hist.find? (·.seq = n) with
      | none => writeS rd 7 s
      | some h => writeS rd (BitVec.ofNat 64 (bindCode h)) s

/-- BPREF (R266). -/
def execBpref (mask5 : BitVec 5) (mode : BindMode) (s : State) : Res :=
  let k := s.here
  let p := (maskEngines mask5).foldl (fun v e => tset v e.code mode) k.eng.prefs
  .next (s.setHere { k with eng := { k.eng with prefs := p } }).complete

end Sys2Proof.Machine
end

