-- ==== Sys2Proof/Machine/MicroOps.lean ====
section
/-!
DEFINITION. The control store: micro-words, the checks of an image, CSLOAD, CSUNBIND and MOPn (R34, R35, R371 to
R389).
-/

namespace Sys2Proof.Machine

/-! ### Micro-words (R34) -/

/-- A micro-word's fields (R34). -/
structure Micro where
  last : Bool
  op   : Nat
  d    : Nat
  a    : Nat
  b    : Nat
  c    : Nat
  ty   : Nat
  mask : Nat
  rm   : Nat
  imm  : Nat
  deriving DecidableEq, Repr

/-- The fields of a micro-word. -/
def microOf (w : Word) : Micro :=
  ⟨w.getLsbD 63, wordField w 54 9, wordField w 48 6, wordField w 42 6, wordField w 36 6, wordField w 30 6,
    wordField w 26 4, wordField w 22 4, wordField w 20 2, wordField w 0 20⟩

/-- MLD, MST and MGTH (R376). -/
def Micro.isMemory (m : Micro) : Bool := m.op == 0x1F0 || m.op == 0x1F1 || m.op == 0x1F2

/-- A selector of R35. -/
def selectorOk (n : Nat) : Bool := decide (n ≤ 5) || decide (16 ≤ n ∧ n ≤ 31)

/-- A selector that may be a destination (R35). -/
def destOk (n : Nat) : Bool := decide (n ≤ 2) || decide (16 ≤ n ∧ n ≤ 31)

/-- A vector micro-op's opcode (R380). -/
def Micro.isVector (m : Micro) : Bool :=
  (decide (0x160 ≤ m.op ∧ m.op ≤ 0x18A) || decide (0x1C0 ≤ m.op ∧ m.op ≤ 0x1CB)) &&
    !(m.op == 0x170 || m.op == 0x174 || decide (0x185 ≤ m.op ∧ m.op ≤ 0x188) || m.op == 0x1CA)

/-- The forms of vector micro-ops (R380). -/
def Micro.isV4 (m : Micro) : Bool := decide (0x163 ≤ m.op ∧ m.op ≤ 0x165)

/-- VBCAST, VINS, VADDS and VMULS. -/
def Micro.isVs (m : Micro) : Bool := m.op == 0x173 || m.op == 0x175 || m.op == 0x189 || m.op == 0x18A

/-- The body of the syllable whose effect a vector micro-op has, selectors in the places of register numbers, under a
mask number (R380). -/
def Micro.body (m : Micro) (mk : Nat) : Nat :=
  if m.isV4 then pack [(1, 0), (4, mk), (11, m.c), (11, m.b), (11, m.a), (11, m.d)]
  else if m.isVs then pack [(13, m.imm), (4, m.ty), (4, mk), (6, m.b), (11, m.a), (11, m.d)]
  else pack [(6, m.imm), (2, m.rm), (4, m.ty), (4, mk), (11, m.b), (11, m.a), (11, m.d)]

/-- The fields that the form of a vector micro-op leaves unused are zero, and a VS form names a scalar (R380). -/
def Micro.formOk (m : Micro) : Bool :=
  if m.isV4 then m.ty == 0 && m.rm == 0 && m.imm == 0
  else if m.isVs then m.c == 0 && m.rm == 0 && decide (m.imm < 2 ^ 13) && (m.b == 4 || m.b == 5)
  else m.c == 0 && decide (m.imm < 2 ^ 6)

/-- The syllable whose effect a vector micro-op has. -/
def Micro.syllable (m : Micro) (mk : Nat) : Option Instr :=
  match decodeBody m.op (m.body mk) with
  | .ok i => some i
  | .error _ => none

/-! ### The checks of an image (R376) -/

/-- A micro-only operation with its fields as R382 requires, as word `i` of `n`. -/
def Micro.onlyOk (m : Micro) (i n : Nat) : Bool :=
  m.c == 0 && m.ty == 0 && m.rm == 0 &&
    match m.op with
    | 0x1F0 => m.a == 0 && m.b == 4
    | 0x1F1 => m.d == 0 && m.b == 4
    | 0x1F2 => m.b == 4
    | 0x1F3 => m.d == 0 && m.b == 0 && decide (1 ≤ m.imm ∧ m.imm < 64 ∧ i + 1 + m.imm < n)
    | 0x1F4 => m.a == 0 && m.b == 0
    | _ => false

/-- Word `i` of an image of `n` words passes the checks of its row of R376. -/
def Micro.ok (m : Micro) (i n : Nat) : Bool :=
  m.last == (i + 1 == n) && selectorOk m.a && selectorOk m.b && selectorOk m.c && destOk m.d &&
    (if m.isVector then m.formOk && (m.syllable m.mask).isSome else m.onlyOk i n)

/-- The first failure of the words of an image, by its place (R376). -/
def sequenceFault (ws : List Word) : Option (Cause × Nat) :=
  let ms := enumFrom0 (ws.map microOf)
  match ms.find? fun x => !x.2.ok x.1 ws.length with
  | some x => some (.controlStoreImage, x.1)
  | none => ((ms.filter (·.2.isMemory)).drop 4).head?.map fun x => (.mopLimit, x.1)

/-- The first three rows of R376. -/
def headerFault (h : Word) : Option Cause :=
  if wordField h 16 48 ≠ 0 ∨ wordField h 8 8 ≠ 1 ∨ wordField h 0 8 = 0 then some .controlStoreImage
  else if 64 < wordField h 0 8 then some .mopLimit
  else none

/-! ### Partitions (R371 to R373) -/

/-- The context's partition: the one tagged with its %ctxid (R371). -/
def Core.partIx (k : Core) : Option Nat :=
  (List.range 4).find? fun i => (tget .reset k.loc.parts i).tag == some (k.getSr srCtxid).toNat

/-- A micro-word of the context's partition. -/
def Core.microAt (k : Core) (slot : BitVec 4) (upc : Nat) : Word :=
  match k.partIx with
  | none => 0
  | some i => sget 0 (tget Partition.reset k.loc.parts i).words (256 * slot.toNat + upc)

/-- A slot is bound (R373). -/
def Core.bound (k : Core) (slot : BitVec 4) : Bool := (k.getSr srCsmap).getLsbD slot.toNat

/-- A partition's words with a slot's region replaced by a sequence and zeros (R371). -/
def putRegion (m : Sparse Word) (slot : Nat) (ws : List Word) : Sparse Word :=
  (enumFrom0 ws).foldl (fun m x => sset 0 m (256 * slot + x.1) x.2) (m.filter fun e => e.1 / 256 != slot)

/-- A slot's region written, and its BOUND bit set to a value (R374, R377). A stopped sequence of the slot is discarded
(R388); %fupc keeps what the frame recorded (R387; DEDUCED, assumption entry 31). -/
def Core.bind (k : Core) (slot : BitVec 4) (ws : List Word) (b : Bool) : Core :=
  let part (i : Nat) : Core :=
    let p := tget Partition.reset k.loc.parts i
    let q := { p with words := putRegion p.words slot.toNat ws }
    { k with loc := { k.loc with parts := tset k.loc.parts i q } }
  let k1 := (k.partIx.map part).getD k
  let k2 := k1.setSr srCsmap (setBit (k1.getSr srCsmap) slot.toNat b)
  [Cluster.X0, .X1].foldl (fun k x =>
    if ((k.cl x).useq.map (·.slot)) = some slot then k.setCl x { k.cl x with useq := none } else k) k2

/-- X0 or X1 is inside a sequence of a slot, and the context is not in its handler (R374 step 6, R388). -/
def Core.inSequence (k : Core) (slot : BitVec 4) : Bool :=
  !k.inHandler && [Cluster.X0, .X1].any fun x => ((k.cl x).useq.map (·.slot)) == some slot

/-- The check of step 2 of R374. -/
def Core.storeLocked (k : Core) (slot : BitVec 4) : Bool :=
  k.isUser && ((k.getSr srCsmap).getLsbD 32 || (k.getSr srCsmap).getLsbD (16 + slot.toNat))

/-- The words of a list of bytes, eight to a word. -/
def wordsOf (n : Nat) (bytes : List Byte) : List Word :=
  (List.range n).map fun i => BitVec.ofNat 64 (leNat ((bytes.drop (8 * i)).take 8))

/-- Micro-words read one after another, each by a load of its own (R374): `m` receives them all. -/
def readWords (m : List Word → State → Res) : List Word → List Word → State → Res
  | [], got, s => m got.reverse s
  | va :: vas, got, s =>
    readThen s.agentHere (vaBytes va 8) (fun e s => s.accessErr e)
      (fun bytes s => readWords m vas (BitVec.ofNat 64 (leNat bytes) :: got) s)
      (s.orderHere .load .core .relaxed .read .any (vaBytes va 8))

/-- CSLOAD (R374). -/
def execCsload (ra : SReg) (slot : BitVec 4) (s : State) : Res :=
  s.guarded false true fun s =>
    let va := s.getS ra
    if s.here.storeLocked slot then s.faultHere .controlStorePrivilege 0
    else alignCheck .misaligned 8 [va]
      (readThen s.agentHere (vaBytes va 8) (fun e s => s.accessErr e) fun head s =>
      let h : Word := BitVec.ofNat 64 (leNat head)
      match headerFault h with
      | some cause => s.faultHere cause va
      | none =>
        let n := wordField h 0 8
        readWords (fun ws s =>
          match sequenceFault ws with
          | some (cause, i) => s.faultHere cause (va + 8 + BitVec.ofNat 64 (8 * i))
          | none =>
            if s.here.inSequence slot then .next (s.block (.sequence slot))
            else
              let s1 := s.countHere.noteHere .read (vaBytes va (8 + 8 * n))
              .next (s1.setHere (s1.here.bind slot ws true)).complete)
          ((List.range n).map fun i => va + 8 + BitVec.ofNat 64 (8 * i)) [] s)
        (s.orderHere .load .core .relaxed .read .any (vaBytes va 8))

/-- CSUNBIND (R377). -/
def execCsunbind (slot : BitVec 4) (s : State) : Res :=
  if s.here.storeLocked slot then s.faultHere .controlStorePrivilege 0
  else if s.here.inSequence slot then .next (s.block (.sequence slot))
  else .next (s.setHere (s.here.bind slot [] false)).complete

/-! ### Operands (R379, R381) -/

/-- The fields of the MOPn syllable that runs. -/
structure MopArgs where
  vd   : VReg
  va   : VReg
  vb   : VReg
  mask : MReg
  ra   : SReg
  imm6 : BitVec 6
  deriving DecidableEq, Repr

/-- A register of elements of one width, all with one value. -/
def splat (w x : Nat) : Vec := packVec w (List.replicate (2048 / w) x)

/-- A selector's register as a source, at element width `w`, under the micro-word's mask (R379). -/
def State.microSource (s : State) (a : MopArgs) (mask : Mask) (w sel : Nat) : Vec :=
  match sel with
  | 0 => s.getV a.vd
  | 1 => s.getV a.va
  | 2 => s.getV a.vb
  | 3 => mergeLanes mask (splat w a.imm6.toNat) 0
  | 4 => splat w (s.getS a.ra).toNat
  | 5 => splat w a.imm6.toNat
  | n => tget 0 s.me.temps (n - 16)

/-- Lanes of a selector's register written (R379): `v` is the register with them; those of a vector register may be written
late (R217). -/
def State.microDest (s : State) (a : MopArgs) (sel : Nat) (lanes : BitVec 64) (v : Vec) : State :=
  match sel with
  | 0 => s.giveV a.vd lanes v
  | 1 => s.giveV a.va lanes v
  | 2 => s.giveV a.vb lanes v
  | n => s.setMe { s.me with temps := tset s.me.temps (n - 16) v }

/-- What a load into a selector's register writes. -/
def microLoadDest (a : MopArgs) (sel : Nat) (lanes : BitVec 64) : LoadDest :=
  match sel with
  | 0 => .vector a.vd lanes
  | 1 => .vector a.va lanes
  | 2 => .vector a.vb lanes
  | n => .temp (BitVec.ofNat 4 (n - 16)) lanes

/-- Vector micro-ops that list no type (R112, R114, R119, R121). -/
def Micro.typeless (m : Micro) : Bool :=
  m.isV4 || [0x16A, 0x16B, 0x16C, 0x171, 0x172, 0x176, 0x177, 0x1CB].contains m.op

/-- The element width of a micro-op (R105, R380): by its type; with none 32 bits, and 16 in VFMAH and VFMAB. -/
def Micro.width (m : Micro) : Nat :=
  if m.op = 0x164 ∨ m.op = 0x165 then 16
  else if m.typeless then 32
  else ((ElemType.ofCode m.ty).map ElemType.width).getD 32

/-! ### Vector micro-ops (R380) -/

/-- The meaning of the syllable that a vector micro-op names (R380); none outside the set. -/
def vectorMeaning (i : Instr) : Option (State → Res) :=
  match i with
  | .vadd vd va vb mk ty rm => some (execVadd vd va vb mk ty rm)
  | .vsub vd va vb mk ty rm => some (execVsub vd va vb mk ty rm)
  | .vmul vd va vb mk ty rm => some (execVmul vd va vb mk ty rm)
  | .vfma vd va vb vc mk => some (execVfma vd va vb vc mk)
  | .vfmah vd va vb vc mk => some (execVfmah vd va vb vc mk)
  | .vfmab vd va vb vc mk => some (execVfmab vd va vb vc mk)
  | .vmin vd va vb mk ty rm => some (execVmin vd va vb mk ty rm)
  | .vmax vd va vb mk ty rm => some (execVmax vd va vb mk ty rm)
  | .vabs vd va mk ty rm => some (execVabs vd va mk ty rm)
  | .vneg vd va mk ty rm => some (execVneg vd va mk ty rm)
  | .vand vd va vb mk => some (execVand vd va vb mk)
  | .vor vd va vb mk => some (execVor vd va vb mk)
  | .vxor vd va vb mk => some (execVxor vd va vb mk)
  | .vshl vd va vb mk ty imm1 amt => some (execVshl vd va vb mk ty imm1 amt)
  | .vshr vd va vb mk ty imm1 amt => some (execVshr vd va vb mk ty imm1 amt)
  | .vsar vd va vb mk ty imm1 amt => some (execVsar vd va vb mk ty imm1 amt)
  | .vsel vd va vb mk => some (execVsel vd va vb mk)
  | .vmov vd va mk => some (execVmov vd va mk)
  | .vbcast vd ra mk ty => some (execVbcast vd ra mk ty)
  | .vins vd ra ty j => some (execVins vd ra ty j)
  | .vperm vd va vb mk => some (execVperm vd va vb mk)
  | .vrot vd va mk n => some (execVrot vd va mk n)
  | .viota vd mk ty => some (execViota vd mk ty)
  | .vrsum vd va mk ty rm => some (execVrsum vd va mk ty rm)
  | .vrmax vd va mk ty rm => some (execVrmax vd va mk ty rm)
  | .vrmin vd va mk ty rm => some (execVrmin vd va mk ty rm)
  | .vscan vd va mk ty rm => some (execVscan vd va mk ty rm)
  | .vdiv vd va vb mk ty rm => some (execVdiv vd va vb mk ty rm)
  | .vsqrt vd va mk ty rm => some (execVsqrt vd va mk ty rm)
  | .vrcp vd va mk ty rm => some (execVrcp vd va mk ty rm)
  | .vrsqrt vd va mk ty rm => some (execVrsqrt vd va mk ty rm)
  | .vexp2 vd va mk ty rm => some (execVexp2 vd va mk ty rm)
  | .vlog2 vd va mk ty rm => some (execVlog2 vd va mk ty rm)
  | .vtanh vd va mk ty rm => some (execVtanh vd va mk ty rm)
  | .vrnd vd va mk ty rm => some (execVrnd vd va mk ty rm)
  | .vadds vd va ra mk ty => some (execVadds vd va ra mk ty)
  | .vmuls vd va ra mk ty => some (execVmuls vd va ra mk ty)
  | .vcvt vd va mk ty rm src => some (execVcvt vd va mk ty rm src)
  | .vpack vd va vb mk ty rm src => some (execVpack vd va vb mk ty rm src)
  | .vunpk vd va mk ty rm h src => some (execVunpk vd va mk ty rm h src)
  | .vzenc vd va mk ty p => some (execVzenc vd va mk ty p)
  | .vzdec vd va mk ty rm k => some (execVzdec vd va mk ty rm k)
  | .vzmac vd va vb mk => some (execVzmac vd va vb mk)
  | .vzmul vd va vb mk => some (execVzmul vd va vb mk)
  | .vzadd vd va vb mk => some (execVzadd vd va vb mk)
  | .vscale vd va vb mk ty rm => some (execVscale vd va vb mk ty rm)
  | .vquant vd va vb mk rm rn4 p => some (execVquant vd va vb mk rm rn4 p)
  | .vcomp vd va mk => some (execVcomp vd va mk)
  | _ => none

/-- The machine in which the operands of a vector micro-op stand in the registers that its selectors number, its
scalars in s4 and s5, and its enable in m1 (R379, R381). What the syllable writes there is its late result. -/
def State.microStage (s : State) (a : MopArgs) (m : Micro) (mask enable : Mask) : State :=
  let regs := [m.d, m.a, m.b, m.c].map fun sel => (BitVec.ofNat 11 sel, s.microSource a mask m.width sel)
  let s1 := regs.foldl (fun st r => st.setV r.1 r.2) s
  let s2 := ((s1.setS 4 (s.getS a.ra)).setS 5 (zext64 a.imm6)).setM 1 enable
  { s2.setMe { s2.me with pending := [] } with actor := { s.actor with late := true } }

/-- The lanes that a staged syllable has written, and their register. -/
def stagedLanes (t : State) : BitVec 64 × Vec :=
  match t.me.pending.head? with
  | some l => match l.dest with
    | .vector _ lanes => (lanes, l.raw)
    | _ => (0, 0)
  | none => (0, 0)

/-- The result and the flags of a vector micro-op: the lanes written, the destination's new value (R380, R381). -/
def State.microVector (s : State) (a : MopArgs) (m : Micro) (mask enable : Mask) :
    Option (BitVec 64 × Vec × Word) :=
  let isIns := m.op == 0x175
  let isSel := m.op == 0x171
  match (m.syllable (if isIns then 0 else 1)).bind vectorMeaning with
  | none => none
  | some f =>
    match f (s.microStage a m mask (if isSel then mask else enable)) with
    | .next t =>
      let r := stagedLanes t
      let lanes := if isIns then r.1 &&& enable else if isSel then s.getM a.mask else r.1
      some (lanes, mergeLanes lanes r.2 (s.microSource a mask m.width m.d), t.here.getSr srFpstat)
    | _ => none

/-! ### Sequences (R384 to R386) -/

/-- The sequence goes on at a micro-op, whose accesses are its own (R383), with the fields of its syllable (R35). -/
def State.microGoto (s : State) (u : USeq) (upc : Nat) : State :=
  s.setMe { s.me with useq := some ⟨u.slot, upc, some s.actor.syl⟩, fetched := [], failed := [] }

/-- Accesses of micro-ops (R383). -/
def microFields : MemFields := ⟨.relaxed, .core, .normal⟩

/-- The sequence goes on after a micro-op, or ends with its bundle (R384). -/
def State.microNext (s : State) (u : USeq) (m : Micro) : State :=
  if m.last then s.complete else s.microGoto u (u.upc + 1)

/-- The enabled lanes of a micro-op. -/
def enabledLanes (enable : Mask) : List Nat := (List.range 64).filter enable.getLsbD

/-- The lanes of a micro-op's access with their addresses (R382). -/
def microLanes (base : Word) (enable : Mask) (index : Option Vec) : List (Nat × Word) :=
  match index with
  | none => (enabledLanes enable).map fun i => (i, base + BitVec.ofNat 64 (4 * i))
  | some x => ((enabledLanes enable).filter fun i => lane x i != 0x80000000).map fun i =>
      (i, base + 4 * sext64 (BitVec.ofNat 32 (lane x i)))

/-- A load of a micro-op. -/
def microLoad (a : MopArgs) (u : USeq) (m : Micro) (lanes : List (Nat × Word)) (s : State) : Res :=
  alignCheck .misaligned 4 (lanes.map (·.2))
    (loadThen (microLoadDest a m.d (laneSet lanes)) .lanes microFields (laneSlots lanes) fun t => .next (t.microNext u m)) s

/-- One micro-op of the executing cluster's sequence (R380 to R384). A word that no image could hold ends the
sequence. -/
def State.microStep (s : State) (a : MopArgs) (u : USeq) : Res :=
  let m := microOf (s.here.microAt u.slot u.upc)
  let mask := s.getM (BitVec.ofNat 4 m.mask)
  let enable := s.getM a.mask &&& mask
  let base := s.getS a.ra + sext64 (BitVec.ofNat 20 m.imm)
  match m.op with
  | 0x1F0 => microLoad a u m (microLanes base enable none) s
  | 0x1F1 =>
    let lanes := microLanes base enable none
    alignCheck .misaligned 4 (lanes.map (·.2))
      (storeThen .lanes microFields (laneBytes (s.microSource a mask 32 m.a) lanes) fun t => .next (t.microNext u m)) s
  | 0x1F2 => microLoad a u m (microLanes base enable (some (s.microSource a mask 32 m.a))) s
  | 0x1F3 =>
    let v := s.microSource a mask 32 m.a
    if (enabledLanes enable).all fun i => lane v i == 0 then .next (s.microGoto u (u.upc + 1 + m.imm % 64))
    else .next (s.microNext u m)
  | 0x1F4 =>
    let v := mergeLanes enable (splat 32 (m.imm * 2 ^ 12)) (s.microSource a mask 32 m.d)
    .next ((s.microDest a m.d enable v).microNext u m)
  | _ =>
    match s.microVector a m mask enable with
    | none => .next s.complete
    | some (lanes, v, fp) =>
      let s1 := s.microDest a m.d lanes v
      .next ((s1.setHere (s1.here.setSr srFpstat fp)).microNext u m)

/-- MOPn (R384): its sequence begins, or goes on at its next micro-op. -/
def execMop (n : BitVec 4) (vd va vb : VReg) (mk : MReg) (ra : SReg) (imm6 : BitVec 6) (s : State) : Res :=
  let a : MopArgs := ⟨vd, va, vb, mk, ra, imm6⟩
  match s.me.useq with
  | some u => s.microStep a u
  | none =>
    if !s.here.bound n then s.faultHere .mopUnbound 0
    else
      let u : USeq := ⟨n, 0, some s.actor.syl⟩
      State.microStep (s.setMe { s.me with useq := some u, temps := Vector.replicate 16 0 }) a u

end Sys2Proof.Machine
end

