-- ==== Sys2Proof/Machine/Tasks.lean ====
section
/-!
DEFINITION. Launch records and the tasks that the launcher remembers (R269, R271, R282).
-/

namespace Sys2Proof.Machine

/-! ### Fields of a launch record (R269) -/

/-- A launch record: 128 bytes, byte 0 lowest. -/
abbrev Record := BitVec 1024

/-- `n` bytes of a record from byte `off`. -/
def Record.field (r : Record) (off n : Nat) : Nat := r.toNat / 2 ^ (8 * off) % 2 ^ (8 * n)

/-- The code section's address. -/
def Record.code (r : Record) : Word := BitVec.ofNat 64 (Record.field r 0x00 8)
/-- The entry bundle's offset. -/
def Record.entry (r : Record) : Nat := Record.field r 0x08 4
/-- The flags. -/
def Record.flags (r : Record) : Nat := Record.field r 0x0C 4
/-- PURE. -/
def Record.isPure (r : Record) : Bool := Record.flags r % 2 == 1
/-- EARLY_START. -/
def Record.early (r : Record) : Bool := Record.flags r / 2 % 2 == 1
/-- PERSISTENT. -/
def Record.persistent (r : Record) : Bool := Record.flags r / 4 % 2 == 1
/-- FIXED_LATENCY. -/
def Record.fixedLatency (r : Record) : Bool := Record.flags r / 8 % 2 == 1
/-- The kind of a level. -/
def Record.kind (r : Record) (j : Nat) : Nat := Record.field r (0x10 + 8 * j) 1
/-- The trip count of a level. -/
def Record.trip (r : Record) (j : Nat) : Nat := Record.field r (0x14 + 8 * j) 4
/-- The argument block. -/
def Record.args (r : Record) : Word := BitVec.ofNat 64 (Record.field r 0x30 8)
/-- The task identifier. -/
def Record.id (r : Record) : Half := BitVec.ofNat 32 (Record.field r 0x38 4)
/-- The record's rank. -/
def Record.rank (r : Record) : Nat := Record.field r 0x3C 1
/-- The memory-model revision. -/
def Record.mmrev (r : Record) : Nat := Record.field r 0x3D 1
/-- Producer `i`. -/
def Record.producer (r : Record) (i : Nat) : Half := BitVec.ofNat 32 (Record.field r (0x40 + 4 * i) 4)
/-- The nonzero producers. -/
def Record.producers (r : Record) : List Half := ((List.range 8).map (Record.producer r)).filter (· ≠ 0)
/-- The pure descriptor's address. -/
def Record.pureVa (r : Record) : Word := BitVec.ofNat 64 (Record.field r 0x60 8)
/-- The completion word's address. -/
def Record.done (r : Record) : Word := BitVec.ofNat 64 (Record.field r 0x68 8)
/-- %qroute. -/
def Record.qroute (r : Record) : Word := BitVec.ofNat 64 (Record.field r 0x70 8)

/-- The trip count of the level of a kind, 1 when there is none (R271). -/
def Record.trips (r : Record) (kind : Nat) : Nat :=
  match (List.range 4).find? fun j => Record.kind r j == kind with
  | some j => Record.trip r j
  | none => 1

/-- Td (R271). -/
def Record.td (r : Record) : Nat := Record.trips r 2
/-- Tc (R271). -/
def Record.tc (r : Record) : Nat := Record.trips r 1
/-- Iterations of a task (R271). -/
def Record.iterations (r : Record) : Nat := Record.td r * Record.tc r

/-! ### Tasks -/

/-- A remembered task. -/
def State.task (s : State) (uid : Nat) : Option Task := s.tasks.find? (·.uid = uid)

/-- Iterations that a task has started and that a resumption counts as started (R345). -/
def Task.startedCount (t : Task) : Nat := t.iters.length + (t.skipped.map (·.2)).sum

/-- Iterations of a task that are triggered: they have executed TRIGGER or ended (R282). -/
def Task.triggeredCount (t : Task) : Nat :=
  (t.iters.filter fun i => i.triggered || i.state ≠ .running).length + (t.skipped.map (·.2)).sum

/-- A dependence on a task is satisfied (R282). -/
def Task.satisfies (t : Task) : Bool :=
  t.ended || (decide (0 < Record.iterations t.record) && t.triggeredCount == Record.iterations t.record)

/-- Every dependence of a task is satisfied; a forgotten task is satisfied (R282). -/
def State.depsMet (s : State) (t : Task) : Bool :=
  t.deps.all fun u => ((s.task u).map Task.satisfies).getD true

end Sys2Proof.Machine
end

