-- ==== Sys2Proof/Machine/PureDesc.lean ====
section
/-!
DEFINITION. Pure descriptors (R291 to R293).
-/

namespace Sys2Proof.Machine

/-- A pure descriptor: 256 bytes, byte 0 lowest. -/
abbrev PureDesc := BitVec 2048

/-- `n` bytes of a descriptor from byte `off`. -/
def PureDesc.field (d : PureDesc) (off n : Nat) : Nat := d.toNat / 2 ^ (8 * off) % 2 ^ (8 * n)

/-- The code section's address. -/
def PureDesc.code (d : PureDesc) : Nat := PureDesc.field d 0x00 8
/-- The code section's size. -/
def PureDesc.codeBytes (d : PureDesc) : Nat := PureDesc.field d 0x08 4
/-- The argument count. -/
def PureDesc.nargs (d : PureDesc) : Nat := PureDesc.field d 0x0C 1
/-- The result count. -/
def PureDesc.nres (d : PureDesc) : Nat := PureDesc.field d 0x0D 1
/-- The constant section's address. -/
def PureDesc.constBase (d : PureDesc) : Nat := PureDesc.field d 0x10 8
/-- The constant section's size. -/
def PureDesc.constBytes (d : PureDesc) : Nat := PureDesc.field d 0x18 4
/-- Byte offset of argument entry `i`. -/
def argOff (i : Nat) : Nat := 0x40 + 16 * i
/-- Byte offset of result entry `j`. -/
def resOff (j : Nat) : Nat := 0xC0 + 16 * j
/-- The tile of an entry: address and size (R292). -/
def PureDesc.tile (d : PureDesc) (off : Nat) : Nat × Nat := (PureDesc.field d off 8, PureDesc.field d (off + 8) 4)
/-- The argument tiles. -/
def PureDesc.args (d : PureDesc) : List (Nat × Nat) :=
  (List.range (PureDesc.nargs d)).map fun i => PureDesc.tile d (argOff i)
/-- The result tiles. -/
def PureDesc.results (d : PureDesc) : List (Nat × Nat) :=
  (List.range (PureDesc.nres d)).map fun j => PureDesc.tile d (resOff j)
/-- The constant section, when there is one. -/
def PureDesc.consts (d : PureDesc) : List (Nat × Nat) :=
  if PureDesc.constBytes d = 0 then [] else [(PureDesc.constBase d, PureDesc.constBytes d)]

/-- An entry that names a tile is well formed (R292, R293). -/
def PureDesc.entryOk (d : PureDesc) (off : Nat) : Bool :=
  let size := PureDesc.field d (off + 8) 4
  let fmt := PureDesc.field d (off + 12) 1
  let row := PureDesc.field d (off + 14) 2
  decide (1 ≤ size ∧ size ≤ 16777216) && decide (fmt ≤ 13) && PureDesc.field d (off + 13) 1 == 0 && decide (1 ≤ row) &&
    (fmt != fmtRn4 || row % 2 == 0) && size % (row * halfBytes fmt / 2) == 0

/-- Two byte ranges meet. -/
def tilesMeet (a b : Nat × Nat) : Bool := decide (a.1 < b.1 + b.2 ∧ b.1 < a.1 + a.2)

/-- Result tiles meet no other result tile and no argument tile. -/
def disjointResults (args : List (Nat × Nat)) : List (Nat × Nat) → Bool
  | [] => true
  | r :: rs => !args.any (tilesMeet r) && !rs.any (tilesMeet r) && disjointResults args rs

/-- A range is canonical, lies in the user half and meets no scratchpad window of R151 (R293). -/
def inUserHalf (r : Nat × Nat) : Bool :=
  decide (r.1 + r.2 ≤ 0x800000000000) && decide (r.1 + r.2 ≤ 0x7E0000000000 ∨ 0x7F0000200000 ≤ r.1)

/-- The checks of R293 on the descriptor of a record, its address and its readability apart. -/
def PureDesc.ok (d : PureDesc) (r : Record) : Bool :=
  let n := PureDesc.codeBytes d
  decide (32 ≤ n ∧ n ≤ 16777216) && n % 32 == 0 && decide (PureDesc.nargs d ≤ 8) &&
    decide (1 ≤ PureDesc.nres d ∧ PureDesc.nres d ≤ 4) &&
    PureDesc.field d 0x0E 2 == 0 && PureDesc.field d 0x1C 4 == 0 &&
    ((List.range 8).all fun i =>
      if i < PureDesc.nargs d then PureDesc.entryOk d (argOff i) else PureDesc.field d (argOff i) 16 == 0) &&
    ((List.range 4).all fun j =>
      if j < PureDesc.nres d then PureDesc.entryOk d (resOff j) else PureDesc.field d (resOff j) 16 == 0) &&
    PureDesc.code d == (Record.code r).toNat &&
    (PureDesc.args d).all inUserHalf && (PureDesc.results d).all inUserHalf && (PureDesc.consts d).all inUserHalf &&
    disjointResults (PureDesc.args d) (PureDesc.results d) && !Record.early r

/-- The first 256 bytes of the argument block; absent when its address is 0 (R294, R300). -/
def argBlock (r : Record) : Nat × Nat := if Record.args r = 0 then (0, 0) else ((Record.args r).toNat, 256)

/-- A pair as a range. -/
def toRange (x : Nat × Nat) : VRange := ⟨BitVec.ofNat 64 x.1, x.2⟩

/-- The ten ranges that a pure task may read, in the order of R397 (R294). -/
def pureReads (r : Record) (d : PureDesc) : List VRange :=
  toRange (argBlock r) :: toRange ((PureDesc.consts d).getD 0 (0, 0)) ::
    (List.range 8).map fun i => toRange ((PureDesc.args d).getD i (0, 0))

/-- The four ranges that it may write (R294). -/
def pureWrites (d : PureDesc) : List VRange :=
  (List.range 4).map fun j => toRange ((PureDesc.results d).getD j (0, 0))

/-- %purectl of a task's iterations at their start (R298). -/
def purectlWord (d : PureDesc) : Word := BitVec.ofNat 64 (PureDesc.nres d * 2 ^ 12 + PureDesc.nargs d * 2 ^ 8 + 1)

end Sys2Proof.Machine
end

