-- ==== Sys2Proof/Machine/Sched.lean ====
section
/-!
DEFINITION. Scheduling instructions: LAUNCH, TRIGGER, DEPWAIT and the deques (R281 to R286).
-/

namespace Sys2Proof.Machine

/-- LAUNCH (R281): a release at device scope. -/
def execLaunch (rd ra : SReg) (s : State) : Res :=
  s.guarded false true fun s =>
    let va := s.getS ra
    let n := s.here.polderNo
    let p := s.polder n
    if va.toNat % 128 ≠ 0 then s.faultHere .misaligned va
    else if p.launch.devq.length ≥ Config.deviceQueueDepth then .next (s.setS rd 0).complete
    else
      releaseThen .device (fun s =>
        let p := s.polder n
        let l := { p.launch with devq := p.launch.devq ++ [(va, s.here.rank)] }
        .next ((s.setPolder n { p with launch := l }).setS rd 1).complete) s

/-- TRIGGER (R283): the iteration is marked, the first time with a release at device scope; a context loaded without a task has none to mark. -/
def execTrigger (s : State) : Res :=
  match s.here.ctx with
  | none => .next s.complete
  | some x =>
    match x.task with
    | none => .next s.complete
    | some uid =>
      let mine (i : Iter) : Bool := i.id == x.id && i.ic == x.ic
      let marked (s : State) : Res :=
        .next (s.mapTask uid fun t => { t with iters := t.iters.map fun i => if mine i then { i with triggered := true } else i }).complete
      if ((s.task uid).map fun t => t.iters.any fun i => mine i && i.triggered).getD false then marked s
      else releaseThen .device marked s

/-- The task of a core's context has every dependence satisfied (R283). -/
def State.depsMetAt (s : State) (c : CoreId) : Bool :=
  ((((s.core c).ctx.bind (·.task)).bind s.task).map s.depsMet).getD true

/-- DEPWAIT (R283). -/
def execDepwait (s : State) : Res :=
  s.guarded true false fun s =>
    if s.depsMetAt s.actor.core then .next s.complete else .next (s.block .dependence)

/-- DQPUSH (R285): at the bottom, the end of the list; a release at die scope. -/
def execDqpush (ra : SReg) (s : State) : Res :=
  s.guarded true true fun s =>
    let k := s.here
    if k.deque.length ≥ Config.dequeDepth then s.faultHere .dequeOverflow 0
    else releaseThen .die (fun s => .next (s.setHere { s.here with deque := s.here.deque ++ [s.getS ra] }).complete) s

/-- DQPOP (R285): from the bottom. -/
def execDqpop (rd : SReg) (pn : PReg) (s : State) : Res :=
  s.guarded true true fun s =>
    let k := s.here
    match k.deque.getLast? with
    | none => .next (s.setP pn false).complete
    | some v => .next (((s.setHere { k with deque := k.deque.dropLast }).setS rd v).setP pn true).complete

/-- A core runs an iteration of the task of another (R284, R285). -/
def State.sameTask (s : State) (a b : CoreId) : Bool :=
  a == b || (((s.core a).ctx.bind (·.task)).isSome && (s.core a).ctx.bind (·.task) == (s.core b).ctx.bind (·.task))

/-- A steal probes cores in turn: the first whose deque holds an item for the thief gives its top (R285). -/
def steal (rd : SReg) (pn : PReg) : List CoreId → State → Res
  | [], s => .next (s.setP pn false).complete
  | v :: vs, s =>
    let k := s.core v
    match k.deque with
    | [] => steal rd pn vs s
    | x :: rest =>
      if s.sameTask v s.actor.core then
        .next (((s.setCore v { k with deque := rest }).setS rd x).setP pn true).complete
      else steal rd pn vs s

/-- The cores of the executing core's polder on its die, by logical number (R273). -/
def State.siblings (s : State) : List CoreId :=
  ((s.polder s.here.polderNo).dieCores (s.actor.core.val / 64)).filterMap coreOfNat

/-- DQSTEAL of a named victim (R285). -/
def execDqsteal (rd ra : SReg) (pn : PReg) (s : State) : Res :=
  s.guarded true true fun s =>
    match s.siblings[(s.getS ra).toNat]? with
    | none => s.faultHere .stealTarget 0
    | some v => steal rd pn [v] s

/-- DQSTEAL in ring order (R285). -/
def execDqstealRing (rd : SReg) (pn : PReg) (s : State) : Res :=
  s.guarded true true fun s =>
    let l := s.siblings
    let c := (s.here.getSr srCore).toNat
    steal rd pn (l.drop (c + 1) ++ l.take c) s

end Sys2Proof.Machine
end

