-- ==== Sys2Proof/Machine/System.lean ====
section
/-!
DEFINITION. TRAP, ERET, BKPT, RDCYC, RDTIME, TLBINV and DHARV (R321, R323 to R325).
-/

namespace Sys2Proof.Machine

/-- TRAP (R323): completes, and then raises SYSTEM_CALL. -/
def execTrap (n16 : BitVec 16) (s : State) : Res :=
  s.guarded false true fun s => s.complete.trapHere .systemCall (zext64 n16)

/-- ERET (R321). -/
def execEret (s : State) : Res :=
  if s.here.inHandler then s.returnFromHandler s.actor.core else s.faultHere .privileged 0

/-- BKPT (R323). -/
def execBkpt (_n16 : BitVec 16) (s : State) : Res := s.faultHere .breakpoint s.me.pc

/-- RDCYC (R323, R326). -/
def execRdcyc (rd : SReg) (s : State) : Res := s.guarded false true (writeS rd s.here.trap.cycle)

/-- RDTIME (R323). -/
def execRdtime (rd : SReg) (s : State) : Res := s.guarded false true (writeS rd s.dev.time)

/-! ### TLBINV (R324) -/

/-- Addresses of a range. -/
def inSpan (base : Word) (size : Nat) (va : Word) : Bool := decide ((va - base).toNat < size)

/-- Two ranges share an address. -/
def spansMeet (b1 : Word) (n1 : Nat) (b2 : Word) (n2 : Nat) : Bool := inSpan b1 n1 b2 || inSpan b2 n2 b1

/-- The largest image of a core (R341). -/
def imageMax : Nat := 0x340000

/-- The polder whose access waits for a peer. -/
def State.peerPolder (s : State) : PeerUse → Nat
  | .atomic c _ _ _ => (s.core c).polderNo
  | .store c _ => (s.core c).polderNo
  | .ordered c _ _ _ => (s.core c).polderNo
  | .fetch c _ => (s.core c).polderNo
  | .engine c _ _ => (s.core c).polderNo
  | .unit n _ => n
  | .image _ n => n
  | .host n => n
  | .hostWrite n => n

/-- An access of a core's clusters to an address of a range is not performed with respect to every agent (R185). -/
def Core.outstanding (k : Core) (base : Word) (size : Nat) : Bool :=
  (k.posted.any fun p => inSpan base size p.va) || clusterOrder.any fun x =>
    ((k.cl x).held.any fun h => inSpan base size h.va) ||
      (k.cl x).pending.any fun l => l.unread.any fun u => inSpan base size u.1

/-- A piece that a copy command has checked and not written lies in a range (R195). -/
def EngineWrite.within (base : Word) (size : Nat) : EngineWrite → Bool
  | .store ws => ws.any fun w => inSpan base size w.1
  | .reduce _ vas _ _ => vas.any (inSpan base size)

/-- A command of the core has checked pieces of a range that it has not written. -/
def Core.writesOut (k : Core) (base : Word) (size : Nat) : Bool :=
  (k.queue .cout).entries.any fun x => x.out.any (EngineWrite.within base size)

/-- A TLBINV of a polder over a range is not complete: a save writes an image there (R341), or an access that used
a translation of it has not been performed (R324). -/
def State.pinned (s : State) (polder : Nat) (base : Word) (size : Nat) : Bool :=
  let rof (m : RofMsg) : Bool := m.core.isSome && m.polder == polder && inSpan base size m.va
  allCores.any (fun c =>
    ((s.core c).polderNo == polder && ((s.core c).outstanding base size || (s.core c).writesOut base size)) || match (s.core c).xfer with
      | some x => x.polder == polder && spansMeet base size x.base imageMax
      | none => false) ||
  s.rofSent.any rof || s.rofHeld.any rof ||
  s.peers.any fun p => s.peerPolder p.use == polder && spansMeet base size p.va (max p.bytes p.data.length)

/-- The context identifiers that tag translations of a polder (R352): of its contexts, and the basin's own. -/
def State.tagsOf (s : State) (polder : Nat) : List Nat :=
  (4096 + polder) :: (allCores.filter fun c => (s.core c).polderNo == polder).map fun c => ((s.core c).getSr srCtxid).toNat

/-- An address of 48 bits as the 64 bits of the address space (R151). -/
def sext48 (a : Nat) : Word := sext64 (BitVec.ofNat 48 a)

/-- The page of a TLB entry and a range have an address in common. -/
def TlbEntry.inSpan (e : TlbEntry) (base : Word) (size : Nat) : Bool :=
  let bits := leafBits e.level
  spansMeet base size (sext48 (e.page * 2 ^ bits)) (2 ^ bits)

/-- What a cached table translates and a range have an address in common. -/
def WalkEntry.inSpan (e : WalkEntry) (base : Word) (size : Nat) : Bool :=
  let bits := tableBits e.level
  spansMeet base size (sext48 (e.block * 2 ^ bits)) (2 ^ bits)

/-- Translations of a range leave the TLBs of the polder's cores and the TLBs and walk caches of the dies, and its range watches
fire (R305, R324, R357). -/
def State.invalidate (s : State) (polder : Nat) (base : Word) (size : Nat) : State :=
  let drop (k : Core) : Core := { k with loc := { k.loc with tlb := k.loc.tlb.filter fun e => !e.inSpan base size } }
  let tags := s.tagsOf polder
  let s1 := (allCores.filter fun c => (s.core c).polderNo == polder || (s.polder polder).owns c.val).foldl
    (fun st c => st.setCore c (drop (st.core c))) s
  let s2 : State := { s1 with dies := tmap (fun d : Die =>
    { d with
      tlb := d.tlb.filter fun e => !(tags.contains e.ctx && e.inSpan base size)
      walks := d.walks.filter fun e => !(tags.contains e.ctx && e.inSpan base size) }) s1.dies }
  s2.fireSlots fun w => w.polder == polder && w.vblocks.any fun b => inSpan base size (BitVec.ofNat 64 (b * 4096))

/-- The range that a TLBINV of kind 0 covers (R324). -/
def State.pageSpan (s : State) (p : Polder) (va : Word) : Word × Nat :=
  let bits := match s.walk p p.part.sec .read va with
    | .ok (_, level, _) => leafBits level
    | .error _ => 16
  (BitVec.ofNat 64 (va.toNat / 2 ^ bits * 2 ^ bits), 2 ^ bits)

/-- TLBINV over a range: the waits, the removal, and the fence of its cluster, to which its earlier accesses are performed
(R324). -/
def tlbinvOver (span : Word × Nat) (s0 : State) : Res :=
  let s := s0.settleHere true
  let p := s.here.polderNo
  if s.pinned p span.1 span.2 then .next (s.block (.pinned span.1 span.2))
  else if s.reductionsOut then .next (s.block .reductions)
  else .next (s.invalidate p span.1 span.2).complete

/-- TLBINV (R324). -/
def execTlbinv (ra rb : SReg) (kind : InvKind) (s : State) : Res :=
  let a := s.getS ra
  let n := s.getS rb
  match kind with
  | .page => tlbinvOver (s.pageSpan (s.polder s.here.polderNo) a) s
  | .range =>
    if a.toNat % 65536 ≠ 0 then s.faultHere .misaligned a
    else if n.toNat % 65536 ≠ 0 ∨ n = 0 then s.faultHere .misaligned n
    else tlbinvOver (a, n.toNat) s
  | .all => tlbinvOver (0, 2 ^ 64) s

/-! ### DHARV (R208, R209, R325) -/

/-- A block of a harvest: the addresses of the entries that translate it, its physical block number, and whether it is
HBM-backed. -/
structure HarvestBlock where
  path  : List Nat
  block : Nat
  isHbm : Bool
  deriving DecidableEq, Repr

/-- The translation of a 32 KiB block (R325). -/
def State.harvestBlock (s : State) (p : Polder) (va : Word) : Option HarvestBlock :=
  match regionOf va, s.walk p p.part.sec .read va with
  | .translated, .ok (e, level, a) | .supervisor, .ok (e, level, a) =>
    let pa := e.toNat / 2 ^ 16 % 2 ^ 36 * 2 ^ 16 + va.toNat % 2 ^ leafBits level
    some ⟨a, pa / 32768, e.toNat / 2 ^ 8 % 4 == 0⟩
  | _, _ => none

/-- The 64 blocks of a region, with their addresses. -/
def State.harvestBlocks (s : State) (p : Polder) (va : Word) : List (Word × Option HarvestBlock) :=
  (List.range 64).map fun i =>
    let a := va + BitVec.ofNat 64 (32768 * i)
    (a, s.harvestBlock p a)

/-- The dirty bits of a region as harvested, and the machine with them clear (R209, R325). -/
def State.harvest (s : State) (bs : List HarvestBlock) : Word × State :=
  let isClean (b : HarvestBlock) : Bool := (sget [] s.clean b.block).contains b.path
  let mask := (enumFrom0 bs).foldl (fun m x => setBit m x.1 (!isClean x.2)) (0 : Word)
  let clean := bs.foldl (fun m b => if (sget [] m b.block).contains b.path then m
    else sset [] m b.block (b.path :: sget [] m b.block)) s.clean
  (mask, { s with clean := clean })

/-- DHARV (R325): it is ordered as a returning atomic at device scope (R209). -/
def execDharv (rd ra : SReg) (s0 : State) : Res :=
  let s := s0.settleHere true
  let va := s.getS ra
  if va.toNat % 2 ^ 21 ≠ 0 then s.faultHere .misaligned va
  else
    let bs := s.harvestBlocks (s.polder s.here.polderNo) va
    match bs.find? (·.2.isNone) with
    | some b => s.faultHere .xlateRead b.1
    | none =>
      match bs.find? fun b => !(b.2.map (·.isHbm)).getD false with
      | some b => s.faultHere .permission b.1
      | none =>
        let r := s.harvest (bs.filterMap (·.2))
        writeS rd r.1 r.2

end Sys2Proof.Machine
end

