-- ==== Sys2Proof/Machine/Waits.lean ====
section
/-!
DEFINITION. The ends of waits, the rendezvous, the completion of loads and the stall watchdog (R95, R177, R211, R213,
R215, R216, R220), and the frame and the handler's restart as events (R316, R322).
-/

namespace Sys2Proof.Machine

/-- An event of a core; nothing happens when the core does not exist. -/
def onCore (core : Nat) (m : CoreId → State → Res) (s : State) : Res :=
  match coreOfNat core with
  | none => .next s
  | some c => m c s

/-- A core's clusters may move: its context runs, and in the handler only S (R316, R320). -/
def Core.movable (k : Core) (x : Cluster) : Bool := k.phase == .running && (!k.inHandler || x == .S)

/-- A transfer that a cluster asked for is in progress (R341, R342). -/
def State.transferring (s : State) (c : CoreId) (x : Cluster) (a : Asked) : Bool :=
  a.answer.isNone && allCores.any fun d => ((s.core d).xfer.map (·.by_)) == some (.cluster c x a.token)

/-- The transfer that the bundle of a cluster has begun, inside its handler or not. -/
def Core.askedAt (k : Core) (x : Cluster) : Option Asked :=
  (k.cl x).asked.find? fun a => a.pc = (k.cl x).pc ∧ a.handler = k.inHandler

/-- A cluster awaits bytes of a peer for its own syllable (R368). -/
def State.fetchingAt (s : State) (c : CoreId) (x : Cluster) : Bool :=
  s.peers.any (·.use == .fetch c x) || s.atomicOut c x

/-- The condition of a wait has ended (R211): the blocked syllable may execute. -/
def State.waitHolds (s : State) (c : CoreId) (x : Cluster) (w : Wait) : Bool :=
  let k := s.core c
  match w with
  | .rendezvous _ _ => false
  | .queueSpace q =>
    if isVectorQueue q then decide ((k.vqueue q).length < Config.vectorQueueDepth)
    else decide ((k.squeue q).length < Config.scalarQueueDepth)
  | .queueData q => if isVectorQueue q then !(k.vqueue q).isEmpty else !(k.squeue q).isEmpty
  | .flag f => (k.flag f).granted (.cluster x)
  | .time t _ => !s.dev.tlock || decide (t.toNat ≤ s.dev.time.toNat)
  | .pause => false
  | .monitor => s.fired c x
  | .ringFill st n => decide (n ≤ k.available st)
  | .ringFree st n => decide (n ≤ (k.stream st).free (((k.stream st).desc).getD 0))
  | .engineSpace e => !k.queueFull e
  | .generation mask => !k.gfenceBlocked mask
  | .retired e n => !(k.queue e).holds n
  | .event ev => decide ((tget 0 (k.cl x).consumed ev.toNat).toNat < (tget 0 k.eng.weirF ev.toNat).toNat)
  | .dependence => s.depsMetAt c
  | .streamFree st => !k.namesStream st ((k.cl x).setst.getD k.lasts)
  | .reductions => !s.reductionsOutOf c x
  | .stores => !s.storesOut c
  | .sequence slot => !k.inSequence slot
  | .answer => !(s.fetchingAt c x || ((k.askedAt x).map (s.transferring c x)).getD false)
  | .scoreboard d off => !(s.core d).scoreboard.any fun r => decide (r.lo ≤ off ∧ off ≤ r.hi)
  | .pinned base size => !s.pinned k.polderNo base size
  | .fenced site => !s.fenced.contains site
  | .load => (k.cl x).pending.isEmpty
  | .stood => false

/-- A cluster's wait is over; its syllable executes again from its beginning. -/
def State.wake (s : State) (c : CoreId) (x : Cluster) : State := s.setCl c x { s.cl c x with status := .running }

/-- BLOCKED_WAIT_RESUME (R211). -/
def execBlockedWaitResume (core : Nat) (x : Cluster) (s : State) : Res :=
  onCore core (fun c s =>
    match (s.cl c x).status with
    | .waiting w => if (s.core c).movable x && s.waitHolds c x w then .next (s.wake c x) else .next s
    | _ => .next s) s

/-- YIELD_PAUSE_END (R95): a pause ends at a time that programs cannot observe. -/
def execYieldPauseEnd (core : Nat) (x : Cluster) (s : State) : Res :=
  onCore core (fun c s =>
    if (s.core c).movable x && (s.cl c x).status == .waiting .pause then .next (s.wake c x) else .next s) s

/-! ### Loads (R216, R220) -/

/-- A core's loads may complete: it has not stopped for good (R316). -/
def Core.completes (k : Core) : Bool :=
  match k.phase with
  | .running => true
  | .stopping _ => true
  | .saving => true
  | _ => false

/-- In fixed-latency mode a load that has completed may have exceeded its declared latency, a free choice: it is counted,
but for one that a frame has kept back (R220, R318; assumption entry 16). -/
def Core.countLoad (k : Core) (free : Nat) (l : PendingLoad) : Core :=
  if Config.late free && l.kind == .load then k.countLate else k

/-- LOAD_COMPLETION (R216, R217): a result, any of those that are pending, is written to its register, or some of its lanes
are, and a cluster that waits for a register goes on (assumption entries 3 and 4). -/
def execLoadCompletion (core : Nat) (x : Cluster) (s : State) : Res :=
  onCore core (fun c s =>
    let l := (s.cl c x).pending
    let i := Config.choice s.free % l.length
    match l[i]? with
    | none => .next s
    | some a =>
      if !(s.core c).completes then .next s
      else
        let s1 := s.completeLoad c x i (Config.landing s.free)
        let s2 := if (s1.cl c x).pending.length < l.length then s1.setCore c ((s1.core c).countLoad s.free a) else s1
        if (s.core c).movable x && (s.cl c x).status == .waiting .load then .next (s2.wake c x) else .next s2) s

/-! ### Monitors (R177) -/

/-- MONITOR_FIRE (R177): a write to the granule, its departure from the L1, or no reason at all. -/
def execMonitorFire (core : Nat) (x : Cluster) (s : State) : Res :=
  onCore core (fun c s =>
    let fire (m : Monitor) : Monitor := if m.core = c ∧ m.cl = x then { m with fired := true } else m
    let s1 : State := { s with monitors := s.monitors.map fire }
    if (s.core c).movable x && (s.cl c x).status == .waiting .monitor then .next (s1.wake c x) else .next s1) s

/-! ### The rendezvous (R213) -/

/-- The synced bundle at which all four clusters wait. -/
def Core.met (k : Core) : Option Word :=
  match k.cls.cS.meets with
  | none => none
  | some b => if clusterOrder.all fun x => (k.cl x).meets == some b then some b else none

/-- RENDEZVOUS (R213): the four clusters may execute the synced bundle, each its own syllable. -/
def execRendezvous (core : Nat) (s : State) : Res :=
  onCore core (fun c s =>
    let k := s.core c
    if k.phase = .running && !k.inHandler && k.met.isSome then
      .next (clusterOrder.foldl (fun st x => st.setCl c x { st.cl c x with status := .running, released := true }) s)
    else .next s) s

/-! ### The stall watchdog (R215) -/

/-- A cluster is blocked by a rendezvous, a queue or FWAIT. -/
def ClusterState.blocked (k : ClusterState) : Bool :=
  match k.status with
  | .waiting (.rendezvous _ _) => true
  | .waiting (.queueSpace _) => true
  | .waiting (.queueData _) => true
  | .waiting (.flag _) => true
  | _ => false

/-- A cluster that the watchdog counts as stalled: halted, or blocked by a rendezvous, a queue or FWAIT, or held in a synced
bundle by one that is (R213, R215). -/
def Core.stalledAt (k : Core) (x : Cluster) : Bool :=
  let y := k.cl x
  y.status == .halted || y.blocked || (y.due && clusterOrder.any fun z => (k.cl z).owes && (k.cl z).blocked)

/-- The two conditions of the watchdog hold; an iteration that has ended is not counted (R215, R277). -/
def Core.stalled (k : Core) : Bool :=
  k.phase == .running && !k.inHandler && clusterOrder.all k.stalledAt &&
    engineOrder.all (fun e => (k.queue e).running.isEmpty) &&
    (clusterOrder.any (fun x => (k.cl x).status != .halted) || engineOrder.any fun e => !(k.queue e).entries.isEmpty)

/-- The cycles at which the watchdog raises its fault. -/
def watchdogLimit : Nat := 2 ^ 26

/-- STALL_WATCHDOG (R215): the core faults when the count has reached its limit; the fault names no cluster of its own
(DEDUCED, assumption entry 24). -/
def execStallWatchdog (core : Nat) (s : State) : Res :=
  onCore core (fun c s =>
    let k := s.core c
    if k.stalled && decide (watchdogLimit ≤ k.trap.watchdog) then
      (s.setCore c { k with trap := { k.trap with watchdog := 0 } }).raise c ⟨.watchdog, 0, .S, none, 0, 0, false⟩
    else .next s) s

/-! ### The frame, and the handler's restart -/

/-- The loads that a frame in fixed-latency mode keeps back: they write their registers after ERET (R318). -/
def Core.keepLoads (k : Core) : Core :=
  clusterOrder.foldl (fun k x =>
    let y := k.cl x
    let kept := (y.pending.filter (·.kind != .vector)).map (x, ·)
    { k.setCl x { y with pending := y.pending.filter (·.kind == .vector) } with
      trap := { k.trap with heldLoads := k.trap.heldLoads ++ kept } }) k

/-- FRAME_TAKEN (R316 to R320): every outstanding access of the core completes, and with no command running and nothing
left to do the frame is taken. In fixed-latency mode loads are performed, and those that have not written their registers
write them after ERET (R318). -/
def execFrameTaken (core : Nat) (s : State) : Res :=
  onCore core (fun c s =>
    match (s.core c).phase with
    | .stopping r =>
      let s1 := s.settleCore c
      let k := s1.core c
      let s2 := (if k.fixedLatency then s1.setCore c k.keepLoads else s1).completeAllLoads c
      if s2.quiet c then s2.takeFrame c r else .next s
    | _ => .next s) s

/-- DOUBLE_FAULT_RESTART (R322): management restarts the handler, without the entry stores. What the stopped handler has
loaded is in its registers before S.s1 is set. -/
def execDoubleFaultRestart (core : Nat) (s : State) : Res :=
  onCore core (fun c s0 =>
    let vec := (s0.core c).getSr srTvec
    if (s0.core c).phase ≠ .doubleFault then .next s0
    else if vec.toNat % 32 ≠ 0 then .next (s0.doubleFault c ⟨.misaligned, 0, .S, none, vec, 0, false⟩)
    else
      let s := s0.completeAllLoads c
      let k := s.core c
      let x := (k.cls.cS.endWait).setS 1 k.recordVa
      let y := { x with pc := vec, status := .running, loops := [], released := false, skipBk := false }
      .next (s.setCore c { k.setCl .S y with phase := .running })) s

end Sys2Proof.Machine
end

