-- ==== Sys2Proof/Machine/Ordered.lean ====
section
/-!
DEFINITION. Ordered reductions at their home slices (R174 to R176).
-/

namespace Sys2Proof.Machine

/-- The home slice of a pair, 0 to 191 (R174; assumption entry 20). -/
def homeOf (pair : Nat) : Nat := Config.homeSlice pair % 192

/-- The source field of an L2 slice's event (R331). -/
def sliceSource (h : Nat) : Half := BitVec.ofNat 32 (2 * 2 ^ 24 + h / 48 * 2 ^ 16 + h % 48 * 2 ^ 8 + 0xFF)

/-- The next expected number of a pair (R174). -/
def State.expectedNum (s : State) (pair : Nat) : Nat := leNat (rdBytes s.mem (pair + 4) 4)

/-- A peer's reduction is answered when it has been applied (R368). -/
def State.answerOrdered (s : State) (m : RofMsg) : State :=
  match m.core with
  | none => { s with dev := { s.dev with peerReply := some (.data []) } }
  | some _ => s

/-- A peer as an agent, for a request of a polder that is performed at the home slice of an address (R367, R368). -/
def peerAgent (polder pa : Nat) : Agent :=
  ⟨none, none, polder, 0, false, false, none, sliceSource (homeOf pa), .domain⟩

/-- The agent of a reduction at its home: the cluster that issued it, or a peer. -/
def State.rofAgent (s : State) (m : RofMsg) : Agent :=
  match m.core with
  | some c => (s.core c).agent c (.cluster m.cl)
  | none => peerAgent m.polder m.pair

/-- A reduction applied to its pair in one piece (R174); the pair's gap timer restarts (R176). -/
def State.applyOrdered (s : State) (m : RofMsg) : State :=
  let pas := (List.range 8).map (m.pair + ·)
  let s0 := s.beforeWrite (s.rofAgent m) (pas.map Place.hbm)
  let sum := addF32 (leNat (rdBytes s0.mem m.pair 4)) m.val.toNat
  let bytes := (leBytes 4 sum).append (leBytes 4 ((s0.expectedNum m.pair + 1) % 2 ^ 32))
  let s1 := s0.writePoison (s0.rofAgent m) ((vaBytes m.va 8).zip (pas.map fun a => ⟨.hbm a, .hc, none⟩))
  let s2 : State := { s1.pokeAll ((pas.map Place.hbm).zip bytes) with gaps := sset 0 s1.gaps m.pair 0 }
  ((s2.noteWrite none pas).touch pas).answerOrdered m

/-- Buffered reductions of a pair applied while the awaited number is held; `fuel` is their number (R174). -/
def State.drainOrdered (s : State) (pair : Nat) : Nat → State
  | 0 => s
  | n + 1 =>
    match s.rofHeld.find? fun m => m.pair == pair && m.num.toNat == s.expectedNum pair with
    | none => s
    | some m => (State.applyOrdered { s with rofHeld := s.rofHeld.erase m } m).drainOrdered pair n

/-- ORDERED_GAP goes to the issuer (R174, R176): its context while it is still on the core, the peer that sent the
reduction, and otherwise the polder as an event. -/
def State.reportGap (s : State) (m : RofMsg) : Res :=
  match m.core with
  | none => .next { s with dev := { s.dev with peerReply := some (.failed (BitVec.ofNat 6 Cause.orderedGap.code) 0) } }
  | some c =>
    if (s.core c).ctx.isSome && ((s.core c).getSr srCtxid).toNat == m.ctx then
      s.raise c ⟨.orderedGap, 2, m.cl, none, m.va, m.syl, false⟩
    else .next (s.sendEvent ⟨m.va, sliceSource (homeOf m.pair), .orderedGap, 6, m.polder⟩)

/-- ORDERED_GAP for several reductions, in order. -/
def reportGaps : List RofMsg → State → Res
  | [], s => .next s
  | m :: ms, s =>
    match s.reportGap m with
    | .next t => reportGaps ms t
    | r => r

/-- Entries of a slice's buffer that are in use (R175). -/
def State.sliceUsed (s : State) (slice : Nat) : Nat := (s.rofHeld.filter fun m => homeOf m.pair == slice).length

/-- An arrival of a reduction that has left the requester's side (R174, R175). -/
def State.arriveOrdered (s : State) (m : RofMsg) : Res :=
  let d := (m.num.toNat + (2 ^ 32 - s.expectedNum m.pair)) % 2 ^ 32
  if 2 ^ 31 ≤ d then s.reportGap m
  else if d = 0 then .next ((s.applyOrdered m).drainOrdered m.pair s.rofHeld.length)
  else .next { s with rofHeld := s.rofHeld.append [m] }

/-- ROFADD_ARRIVAL (R174, R175): the message at a place of those on their way. A slice whose last entry an arrival
would fill refuses it, but for the awaited number and a number already used. -/
def execRofaddArrival (place : Nat) (s : State) : Res :=
  match s.rofSent[place]? with
  | none => .next s
  | some m =>
    if m.refused then .next s
    else
      let d := (m.num.toNat + (2 ^ 32 - s.expectedNum m.pair)) % 2 ^ 32
      let full := decide (Config.rofBufferEntries ≤ s.sliceUsed (homeOf m.pair) + 1)
      if full && decide (0 < d ∧ d < 2 ^ 31) then
        .next { s with rofSent := s.rofSent.set place { m with refused := true } }
      else State.arriveOrdered { s with rofSent := s.rofSent.eraseIdx place } m

/-- ROFADD_RESEND (R175): a refused message leaves again. -/
def execRofaddResend (place : Nat) (s : State) : Res :=
  match s.rofSent[place]? with
  | none => .next s
  | some m =>
    .next { s with rofSent := s.rofSent.set place { m with refused := false } }

/-- The gap timer's limit in nanoseconds (R176). -/
def gapLimit : Nat := 1000000

/-- ORDERED_GAP_TIMEOUT (R176): the timer has run out; every buffered entry of the pair is discarded, and each issuer is
told. -/
def execOrderedGapTimeout (pair : Nat) (s : State) : Res :=
  if sget 0 s.gaps pair < gapLimit then .next s
  else reportGaps (s.rofHeld.filter (·.pair = pair))
    { s with rofHeld := s.rofHeld.filter (·.pair ≠ pair), gaps := sset 0 s.gaps pair 0 }

end Sys2Proof.Machine
end

