-- ==== Sys2Proof/Machine/Errors.lean ====
section
/-!
DEFINITION. Soft errors and the event order (R329 to R331, R366), and the eviction of an L1 copy (R197).
-/

namespace Sys2Proof.Machine

/-! ### Where an error is found -/

/-- The source field of an HBM controller's event (R331): stacks 2d and 2d + 1 attach to compute die d (R6). -/
def hbmSource (pa : Nat) : Half :=
  let c := Config.hbmController pa % 8
  BitVec.ofNat 32 (3 * 2 ^ 24 + c / 2 * 2 ^ 16 + 0xFF00 + c)

/-- The core of an error's site. -/
def siteCore : ErrorSite → Option CoreId
  | .hbm _ => none
  | .scratchpad c _ => coreOfNat c
  | .cache c _ => coreOfNat c
  | .contextState c => coreOfNat c
  | .slice _ => none
  | .basin _ => none

/-- The polder that an error in a core concerns (R331): that of its context; without one that of the memory cached there, or the
one that owns the core. -/
def State.sitePolder (s : State) (site : ErrorSite) (c : CoreId) : Nat :=
  match (s.core c).ctx, site with
  | some x, _ => x.polder
  | none, .cache _ n => s.polderOfByte (32 * n)
  | none, _ => ((List.range 64).find? fun n => (s.polder n).owns c.val).getD noPolder

/-- An event about a site (R329, R331). -/
def State.siteEvent (s : State) (site : ErrorSite) (addr : Word) (cause : Cause) (kind : Byte) : State :=
  match site, siteCore site with
  | .hbm n, _ => s.sendEvent ⟨addr, hbmSource (32 * n), cause, kind, s.polderOfByte (32 * n)⟩
  | .slice n, _ => s.sendEvent ⟨addr, sliceSource (homeOf (32 * n)), cause, kind, s.polderOfByte (32 * n)⟩
  | .basin h, _ => s.sendEvent ⟨addr, sliceSource h, cause, kind, noPolder⟩
  | _, some c => s.sendEvent ⟨addr, coreSource c none, cause, kind, s.sitePolder site c⟩
  | _, none => s

/-- The site exists. -/
def siteExists : ErrorSite → Bool
  | .hbm n => decide (32 * n < Config.hbmBytes)
  | .scratchpad c n => decide (c < 256 ∧ n < 65536)
  | .cache c n => decide (c < 256 ∧ 32 * n < Config.hbmBytes)
  | .contextState c => decide (c < 256)
  | .slice n => decide (32 * n < Config.hbmBytes)
  | .basin h => decide (h < 192)

/-- The contexts that use a site: that of its core, and for memory those of the polders that hold it (R329). -/
def State.siteUsers (s : State) (site : ErrorSite) : List CoreId :=
  allCores.filter fun c =>
    match site, (s.core c).ctx with
    | _, none => false
    | .hbm n, some x => (s.polder x.polder).inRange (32 * n)
    | .slice n, some x => (s.polder x.polder).inRange (32 * n)
    | _, some _ => siteCore site == some c

/-- MACHINE_CHECK stops a core's context for good, and management is told (R313, R329, R330). -/
def State.machineCheck (s : State) (c : CoreId) (addr : Word) : State :=
  State.sendEvent (s.setCore c { s.core c with phase := .machineStop })
    ⟨addr, coreSource c none, .machineCheck, 7, (s.core c).polderNo⟩

/-- The stored results that an error in a reuse store meets: the basin chooses which units hold an entry, so a free choice
among the polder's entries or none (R304, R308; assumption entry 28). -/
def State.poisonStore (s : State) (pa : Nat) : State :=
  match (List.range 64).find? fun n => (s.polder n).basin.holds pa with
  | none => s
  | some n =>
    let mine := s.basin.filter (·.polder = n)
    match mine[Config.choice s.free % (mine.length + 1)]? with
    | none => s
    | some e => { s with basin := s.basin.map fun x => if x = e then { x with poisoned := true } else x }

/-! ### The events of R329 and R330 -/

/-- CORRECTED_ERROR (R329): an event of kind 0, and the row is fenced for its self-test. -/
def execCorrectedError (site : ErrorSite) (s : State) : Res :=
  if !siteExists site then .next s
  else
    let s1 := s.siteEvent site 0 .none 0
    .next { s1 with fenced := if s1.fenced.contains site then s1.fenced else s1.fenced.append [site] }

/-- The event kind of a self-test's outcome (R329). -/
def selfTestKind : SelfTest → Byte
  | .transient => 1
  | .spared => 2
  | .retired => 3

/-- SELF_TEST_COMPLETE (R329): the row returns, or its bank is retired: a MACHINE_CHECK goes to management for each context
that uses it, which stops, or one for the unit when none does. -/
def execSelfTestComplete (site : ErrorSite) (result : SelfTest) (s : State) : Res :=
  if !s.fenced.contains site then .next s
  else
    let s1 := State.siteEvent { s with fenced := s.fenced.erase site } site 0 .none (selfTestKind result)
    match result with
    | .retired =>
      if (s1.siteUsers site).isEmpty then .next (s1.siteEvent site 0 .machineCheck 7)
      else .next ((s1.siteUsers site).foldl (fun st c => st.machineCheck c 0) s1)
    | _ => .next s1

/-- A core's L1 is known to hold a copy of a sector of device memory. -/
def State.holdsSector (s : State) (c : CoreId) (sector : Nat) : Bool :=
  sget false s.l1Poison (l1PoisonKey c sector) || (s.core c).loc.l1.any fun l => keyOfDevice l.1 && l.1 % 2 ^ 48 == sector

/-- UNCORRECTABLE_ERROR (R330): the sector is poisoned and an event of kind 4 records it; in a context's own state it
is a machine check. What one in the basin's own words does to its entries the manual does not say (assumption entry 28). -/
def execUncorrectableError (site : ErrorSite) (s : State) : Res :=
  if !siteExists site then .next s
  else
    match site with
    | .hbm n =>
      let t := s.readSector (.hbm (32 * n))
      .next (State.siteEvent (State.poisonStore { t with poison := sset false t.poison n true } (32 * n)) site
        (BitVec.ofNat 64 (32 * n)) .hbmUncorrectable 4)
    | .scratchpad c n =>
      let t := match coreOfNat c with
        | some d => s.readSector (.pad d (32 * n))
        | none => s
      .next (State.siteEvent { t with padPoison := sset false t.padPoison (65536 * c + n) true } site
        (ownVa (32 * n)) .sramUncorrectable 4)
    | .cache c n =>
      let t := s.readSector (.hbm (32 * n))
      let u := match coreOfNat c with
        | some d => if t.holdsSector d n then t else t.makeLineRoom d
        | none => t
      .next (State.siteEvent { u with l1Poison := sset false u.l1Poison (2 ^ 40 * c + n) true } site
        (BitVec.ofNat 64 (32 * n)) .sramUncorrectable 4)
    | .slice n =>
      .next (State.siteEvent ((s.readSector (.hbm (32 * n))).poisonL2 n) site (BitVec.ofNat 64 (32 * n))
        .sramUncorrectable 4)
    | .basin _ => .next (s.siteEvent site 0 .sramUncorrectable 4)
    | .contextState _ => .next ((s.siteUsers site).foldl (fun st c => st.machineCheck c 0) s)

/-! ### Events reach the arbiter (R331, R366) -/

/-- The 32 bytes of an event record (R331). -/
def eventBytes (time : Word) (num : Half) (e : EventRec) : List Byte :=
  leBytes 32 (time.toNat + e.addr.toNat * 2 ^ 64 + e.source.toNat * 2 ^ 128 + e.cause.code * 2 ^ 160 +
    e.kind.toNat * 2 ^ 168 + e.polder % 2 ^ 16 * 2 ^ 176 + num.toNat * 2 ^ 192)

/-- A unit of the device as an agent. -/
def unitAgent : Agent :=
  { core := none, who := none, polder := 0, ctx := 0, user := false, secure := true, pure := none, source := 0x0704FFFF,
    far := .device }

/-- Whole blocks or words written to device memory by an agent, for no task. -/
def State.writePhys (s0 : State) (ag : Agent) (pa : Nat) (bytes : List Byte) : State :=
  let pas := (List.range bytes.length).map (pa + ·)
  let s := s0.beforeWrite ag (pas.map Place.hbm)
  let s1 := s.writePoison ag ((pas.map fun a => BitVec.ofNat 64 a).zip (pas.map fun a => ⟨.hbm a, .hc, none⟩))
  ((s1.pokeAll ((pas.map Place.hbm).zip bytes)).noteWrite none pas).touch pas

/-- An MSI-X message of vector 0 of a virtual function (R366). -/
def State.sendMsix (s : State) (vf : Nat) : State :=
  if vf = 0 then s else { s with dev := { s.dev with msix := sset 0 s.dev.msix vf (sget 0 s.dev.msix vf + 1) } }

/-- The polder may have its event ring at a physical byte (R348, R353, R363). -/
def State.ringMay (s : State) (n pa : Nat) : Bool :=
  let p := s.polder n
  p.inRange pa && (p.part.sec || !s.isSecure pa)

/-- A record enters a polder's event ring, or is dropped (R366). A ring outside the polder's memory takes none
(DEDUCED, assumption entry 25). -/
def State.ringEvent (s : State) (n : Nat) (bytes : List Byte) : Res :=
  let p := s.polder n
  let e := p.events
  let size := 2 ^ e.log2n.toNat
  let pa := e.base.toNat + e.wr.toNat % size * 32
  if !e.en then .next s
  else if (e.wr - e.rd).toNat = size then
    .next (s.setPolder n { p with events := { e with lost := if e.lost = 0xFFFFFFFF then e.lost else e.lost + 1 } })
  else if !(s.ringMay n pa && s.ringMay n (pa + 31)) then .next s
  else if Config.hbmBytes < pa + 32 then .fault (.physicalHole pa)
  else
    let s1 := s.writePhys unitAgent pa bytes
    let s2 := s1.setPolder n { s1.polder n with events := { (s1.polder n).events with wr := e.wr + 1 } }
    .next (if e.wr = e.rd then s2.sendMsix p.part.vf.toNat else s2)

/-- The event goes to management (R331): device-wide events, double faults and machine checks. -/
def EventRec.toMgmt (e : EventRec) : Bool := decide (64 ≤ e.polder) || e.kind == 5 || e.kind == 7

/-- EVENT_RECORD_WRITE (R331): an event on its way, none of its source before it, arrives at the arbiter, which numbers
it and writes its record. -/
def execEventRecordWrite (place : Nat) (s : State) : Res :=
  match s.dev.events[place]? with
  | none => .next s
  | some e =>
    if (s.dev.events.take place).any (·.source = e.source) then .next s
    else
      let n := s.dev.arbNum
      let d := { s.dev with events := s.dev.events.eraseIdx place, arbNum := n + 1 }
      if e.toMgmt then .next { s with dev := { d with mgmt := d.mgmt.append [⟨s.dev.time, n, e⟩] } }
      else State.ringEvent { s with dev := d } e.polder (eventBytes s.dev.time n e)

/-! ### Eviction -/

/-- EVICTION (R197, R330): a copy leaves a core's L1, its dirty bytes written back first. Of an HC granule the model
holds no copy; its poison stays with the data (assumption entry 12). -/
def execEviction (core line : Nat) (s : State) : Res :=
  onCore core (fun c s =>
    if (s.line c line).isSome then .next (s.evictLine c line)
    else if s.linePoisoned c line then .next ((s.carryPoison c line false).dropLinePoison c line)
    else .next s) s

end Sys2Proof.Machine
end

