-- ==== Sys2Proof/Machine/Units.lean ====
section
/-!
DEFINITION. Accesses of a polder's own units (R364, R368, R398, R399): the launcher, the basin, image transfers and the
host's apertures.
-/

namespace Sys2Proof.Machine

/-- The source field of the launcher's events: the first compute die of the polder (R331). -/
def State.launcherSource (s : State) (n : Nat) : Half :=
  BitVec.ofNat 32 (5 * 2 ^ 24 + ((s.polder n).dieList.head?.getD 0) * 2 ^ 16 + 0xFFFF)

/-- The source field of an event of the basin's accesses for a polder: its first compute die (R331). -/
def State.basinSource (s : State) (n : Nat) : Half :=
  BitVec.ofNat 32 (2 * 2 ^ 24 + ((s.polder n).dieList.head?.getD 0) * 2 ^ 16 + 0xFFFF)

/-- The launcher as an agent (R398): supervisor privilege, the polder's world, no check of step 5. -/
def State.launcherAgent (s : State) (n : Nat) : Agent :=
  { core := none, who := none, polder := n, ctx := 0, user := false, secure := (s.polder n).part.sec, pure := none,
    source := s.launcherSource n, far := .device }

/-- The basin as an agent (R399): user privilege, the polder's world, logical core 0 of logical die 0. -/
def State.basinAgent (s : State) (n : Nat) : Agent :=
  { core := (s.polder n).place 0 0, who := none, polder := n, ctx := 4096 + n, user := true,
    secure := (s.polder n).part.sec, pure := none, source := s.basinSource n,
    far := .device }

/-- What a unit's read gives. -/
inductive UnitGot where
  | bytes (s : State) (l : List Byte)
  | failed (cause : Cause) (va : Word)
  /-- bytes of a peer are awaited -/
  | later (s : State)
  | hole (pa : Nat)

/-- A unit goes on with peers' answers to the runs of a read: what is unanswered is asked for once (R368). -/
def State.unitAwait (s : State) (n : Nat) (runs : List PeerRun) (got : UnitGot) : UnitGot :=
  match answersTo (s.polder n).fetched (s.polder n).failed runs with
  | .failed (.fault cause va) => .failed cause va
  | .failed (.hole a) => .hole a
  | .all => got
  | .missing l =>
    .later (if s.peers.any (·.use == .unit n true) then s else s.postPeers s.free (fun _ => .unit n true) false l)

/-- A failed access as a unit's read gives it. -/
def unitErr : AccErr → UnitGot
  | .hole a => .hole a
  | .fault cause va => .failed cause va

/-- A read of a polder's unit: bytes that a peer has sent stand in their places, and others are asked for once
(R368). -/
def State.unitRead (s : State) (n : Nat) (ag : Agent) (vas : List Word) : UnitGot :=
  match s.load ag .any .normal vas with
  | .err e => unitErr e
  | .wait _ => .later s
  | .behind runs e => s.unitAwait n runs (unitErr e)
  | .ok s1 bytes runs => s.unitAwait n runs (.bytes s1 (patchBytes (s.polder n).fetched vas bytes))

/-- A unit has used the bytes that peers sent. -/
def State.clearFetched (s : State) (n : Nat) : State := s.setPolder n { s.polder n with fetched := [], failed := [] }

/-- What a unit's write gives. -/
inductive UnitPut where
  | ok (s : State)
  | failed (cause : Cause) (va : Word)
  | hole (pa : Nat)

/-- A write of a polder's unit: no range that a command holds stalls it (R161, R253). -/
def State.unitPut (s : State) (ag : Agent) (use : PeerUse) (va : Word) (bytes : List Byte) : UnitPut :=
  let vas := vaBytes va bytes.length
  match s.checkAccess ag .write .any vas with
  | .error (.hole a) => .hole a
  | .error (.fault cause va) => .failed cause va
  | .ok ls =>
    let t := vas.zip (ls.zip bytes)
    .ok ((s.commit ag .normal .write t).postPeers s.free (fun _ => use) true (writeRuns t))

/-- A write of a polder's unit but its host. -/
def State.unitWrite (s : State) (n : Nat) (ag : Agent) (va : Word) (bytes : List Byte) : UnitPut :=
  s.unitPut ag (.unit n false) va bytes

end Sys2Proof.Machine
end

