-- ==== Sys2Proof/Machine/Launcher.lean ====
section
/-!
DEFINITION. The launcher: launch queues, records, placement, the start and the end of iterations, and completion words
(R269 to R282, R345, R350 to R352, R372, R398).
-/

namespace Sys2Proof.Machine

/-! ### Placement (R271, R272) -/

/-- Numbers below `n` congruent to `j` modulo `m`. -/
def residues (n m j : Nat) : Nat := if j < n then (n - j + m - 1) / m else 0

/-- Logical die and logical core of a core of a polder. -/
def Polder.position (p : Polder) (c : CoreId) : Nat × Nat :=
  (p.dieList.idxOf (c.val / 64), (p.dieCores (c.val / 64)).idxOf c.val)

/-- Iterations of a task placed on a core: counts by id and by ic. -/
def Record.placed (r : Record) (p : Polder) (c : CoreId) : Nat × Nat :=
  let x := p.position c
  (residues (Record.td r) p.dieList.length x.1, residues (Record.tc r) (p.dieCores (c.val / 64)).length x.2)

/-- Iterations placed on a core. -/
def Record.placedCount (r : Record) (p : Polder) (c : CoreId) : Nat := (Record.placed r p c).1 * (Record.placed r p c).2

/-- Iteration `k` of those placed on a core, in the order of R272. -/
def Record.iterAt (r : Record) (p : Polder) (c : CoreId) (k : Nat) : Nat × Nat :=
  let x := p.position c
  let b := (Record.placed r p c).2
  (x.1 + p.dieList.length * (k / b), x.2 + (p.dieCores (c.val / 64)).length * (k % b))

/-- The polder's cores. -/
def Polder.cores (p : Polder) : List CoreId := p.coreList.filterMap coreOfNat

/-- The polder that holds a core (R349). -/
def State.ownerOf (s : State) (c : CoreId) : Option Nat := (List.range 64).find? fun n => (s.polder n).owns c.val

/-! ### The state of a task -/

/-- The uid of the task registered next; a task is found by it. -/
def State.addTask (s : State) (t : Nat → Task) : State :=
  { s with
    tasks := s.tasks.append [t s.dev.taskNum]
    dev := { s.dev with taskNum := s.dev.taskNum + 1 } }

/-- Iterations of a task that have started on a core, those that a resumption counts included (R345). -/
def Task.startedOn (t : Task) (p : Polder) (c : CoreId) : Nat :=
  (t.iters.filter (·.core = c)).length + sget 0 t.skipped (p.numberOf c)

/-- An iteration of the task is still waiting for a core (R275). -/
def State.waitingFor (s : State) (t : Task) (c : CoreId) : Bool :=
  let p := s.polder t.polder
  !t.ended && !t.stopped && p.owns c.val && decide (t.startedOn p c < Record.placedCount t.record p c)

/-- The lookup does not hold the task back (R306). -/
def Task.lookedUp (t : Task) : Bool := t.lookup == .none || t.lookup == .missed

/-- The task's next iteration on a core is eligible (R275). -/
def State.eligible (s : State) (t : Task) (c : CoreId) : Bool :=
  s.waitingFor t c && t.lookedUp &&
    (s.depsMet t || (Record.early t.record && t.deps.all fun u =>
      match s.task u with
      | none => true
      | some x => x.ended || !s.waitingFor x c))

/-- The keys of R275: rank, then the earlier record. -/
def Task.before (a b : Task) : Bool := decide (b.rank < a.rank) || (a.rank == b.rank && decide (a.uid < b.uid))

/-- The task whose iteration a free core goes to first. -/
def State.bestFor (s : State) (c : CoreId) : Option Task :=
  (s.tasks.filter fun t => s.eligible t c).foldl (fun b t =>
    match b with
    | none => some t
    | some x => if t.before x then some t else some x) none

/-! ### Completion words (R270, R278, R398) -/

/-- A polder error event of the launcher (R270, R278, R280). -/
def State.launcherError (s : State) (n : Nat) (cause : Cause) (addr : Word) : State :=
  s.sendEvent ⟨addr, s.launcherSource n, cause, 6, n⟩

/-- A completion word (R278). -/
def doneWord (cores : Nat) (cause : Cause) (status : Nat) : Nat := cores * 2 ^ 16 + cause.code * 2 ^ 8 + status

/-- A completion word written, or the event given when it cannot be: an address of 0, one that is not a multiple of 8,
or a failed check. -/
def State.writeDone (s : State) (n : Nat) (va : Word) (word : Nat) (onFail : State → State) : Res :=
  if va = 0 ∨ va.toNat % 8 ≠ 0 then .next (onFail s)
  else match s.unitWrite n (s.launcherAgent n) va (leBytes 8 word) with
    | .ok s1 => .next s1
    | .failed _ _ => .next (onFail s)
    | .hole pa => .fault (.physicalHole pa)

/-- Distinct logical cores on which an iteration of the task has started, those of a resumption included (R278). -/
def State.taskCores (s : State) (t : Task) : Nat :=
  let p := s.polder t.polder
  ((t.iters.map fun i => p.numberOf i.core).append ((t.skipped.filter (·.2 ≠ 0)).map (·.1))).dedup.length

/-- The status and cause of a task that ends without a reuse (R278). -/
def Task.outcome (t : Task) : Nat × Cause :=
  match t.removal with
  | some r => if r.cause = .kill then (5, .kill) else (4, r.cause)
  | none => if t.saved then (6, .preempt) else (1, .none)

/-- The slots of range watches that a task holds are free (R305, R309). -/
def State.freeSlots (s : State) (l : List Nat) : State := { s with watches := s.watches.filter fun w => !l.contains w.1 }

/-- A task ends with a status and a cause, and its completion word is written (R277, R278). -/
def State.endTask (s : State) (t : Task) (status : Nat) (cause : Cause) : Res :=
  let s1 := (s.mapTask t.uid fun x => { x with ended := true, slots := [], slotsOk := false }).freeSlots t.slots
  let cores := if status = 2 ∨ status = 3 then 0 else s.taskCores t
  s1.writeDone t.polder (Record.done t.record) (doneWord cores cause status) fun st =>
    st.launcherError t.polder .launchRecord (Record.done t.record)

/-- Every iteration of the task that is to run has ended or been saved. -/
def State.allEnded (s : State) (t : Task) : Bool :=
  t.iters.all (·.state ≠ .running) && (t.stopped || (s.polder t.polder).cores.all fun c => !s.waitingFor t c)

/-- The task waits for its insertion: a pure task that was looked up and missed, and ended in order (R309). -/
def Task.insertable (t : Task) : Bool := t.lookup == .missed && !t.iters.isEmpty && t.removal.isNone && !t.saved

/-- The task is over: with no iteration still to run, its dependences satisfied and its lookup done (R271, R277). An
insertion or a pre-emption through the registers comes before its completion word. -/
def State.taskOver (s : State) (t : Task) : Bool :=
  !t.ended && t.lookedUp && s.allEnded t && (!t.iters.isEmpty || t.stopped || s.depsMet t) && !t.insertable &&
    !((s.polder t.polder).preempt.go && (s.polder t.polder).preempt.uid == some t.uid)

/-- Tasks that are over end, one after another; `fuel` is their number. -/
def State.settleTasks (s : State) : Nat → Res
  | 0 => .next s
  | n + 1 =>
    match s.tasks.find? s.taskOver with
    | none => .next s
    | some t =>
      match s.endTask t t.outcome.1 t.outcome.2 with
      | .next s1 => s1.settleTasks n
      | r => r

/-- Tasks that have ended and of whose polder 256 later records have been read are forgotten (R282). -/
def State.forget (s : State) : State :=
  { s with tasks := s.tasks.filter fun t => !(t.ended && decide (t.order + 256 ≤ (s.polder t.polder).recordsRead)) }

/-- Every task that is over ends. -/
def State.settle (s : State) : Res := if s.tasks.isEmpty then .next s else s.settleTasks s.tasks.length

/-! ### Records (R269, R270) -/

/-- The record's must-be-zero bits are zero (R269). -/
def Record.zeroOk (r : Record) : Bool :=
  Record.flags r / 16 == 0 && ((List.range 4).all fun j => Record.field r (0x11 + 8 * j) 3 == 0) &&
    Record.field r 0x3E 2 == 0 && Record.field r 0x78 8 == 0 && (Record.isPure r || Record.pureVa r == 0)

/-- Levels of a kind. -/
def Record.levels (r : Record) (kind : Nat) : Nat := ((List.range 4).filter fun j => Record.kind r j == kind).length

/-- Some core would have more than one iteration (R270). -/
def Record.crowded (r : Record) (p : Polder) : Bool := p.cores.any fun c => decide (1 < Record.placedCount r p c)

/-- The first row of R270. -/
def State.recordBad (s : State) (n : Nat) (r : Record) : Bool :=
  let p := s.polder n
  !Record.zeroOk r || decide ((Record.code r).toNat % 32 ≠ 0 ∨ Record.entry r % 32 ≠ 0) || Record.id r == 0 ||
    decide (7 < Record.rank r) || !(Record.mmrev r == 1 || Record.mmrev r == 2) ||
    ((List.range 4).any fun j => decide (2 < Record.kind r j)) ||
    decide (1 < Record.levels r 1 ∨ 1 < Record.levels r 2) ||
    decide (Record.done r = 0 ∨ (Record.done r).toNat % 8 ≠ 0) || (Record.isPure r && Record.persistent r) ||
    (Record.persistent r && Record.crowded r p) ||
    (s.tasks.any fun t => t.polder == n && !t.ended && Record.id t.record == Record.id r) ||
    (decide (0 < Record.iterations r) && p.coreList.isEmpty)

/-- The second row of R270. -/
def Record.depsBad (r : Record) : Bool :=
  let l := Record.producers r
  l.contains (Record.id r) || decide (l.dedup.length ≠ l.length)

/-- What a record's producers name: of the remembered tasks of an identifier, the one read last (R282). -/
def State.producersOf (s : State) (n : Nat) (r : Record) : List Nat :=
  (Record.producers r).filterMap fun id =>
    ((s.tasks.filter fun t => t.polder == n && Record.id t.record == id).getLast?).map (·.uid)

/-- The task of a record that has passed its checks. -/
def taskOf (n : Nat) (r : Record) (va : Word) (rank order : Nat) (deps : List Nat) (d : Option PureDesc) (uid : Nat) :
    Task :=
  { uid := uid, polder := n, record := r, address := va, rank := rank, order := order, deps := deps, iters := [],
    ended := false, removal := none, saved := false, stopped := false, skipped := [],
    lookup := if d.isSome then .due else .none, pure := d, key := none, slots := [], slotsOk := false,
    noInsert := false, results := [] }

/-- A record that has been read is counted, and old tasks may be forgotten (R282). -/
def State.countRecord (s : State) (n : Nat) : State :=
  (s.setPolder n { s.polder n with recordsRead := (s.polder n).recordsRead + 1 }).forget

/-- A record that fails a check: its completion word reports FAULTED, or an event does (R270). -/
def State.rejectRecord (s : State) (n : Nat) (r : Record) (va : Word) (cause : Cause) : Res :=
  (s.countRecord n).writeDone n (Record.done r) (doneWord 0 cause 4) fun st => st.launcherError n cause va

/-- A record that passes is registered. -/
def State.acceptRecord (s : State) (n : Nat) (r : Record) (va : Word) (rank : Nat) (d : Option PureDesc) : Res :=
  let deps := s.producersOf n r
  let s1 := s.countRecord n
  .next (s1.addTask (taskOf n r va rank (s1.polder n).recordsRead deps d))

/-! ### Launch queues (R275, R279, R280, R398) -/

/-- The host queue holds a pointer. -/
def LaunchRegs.hostHas (l : LaunchRegs) : Bool := l.en && l.rd != l.wr

/-- The queue that the next record is taken from: true for the host's (R275). -/
def LaunchRegs.next (l : LaunchRegs) : Option Bool :=
  if l.hostHas && (l.devLast || l.devq.isEmpty) then some true
  else if !l.devq.isEmpty then some false
  else none

/-- The pointer at the front of a queue has been consumed. -/
def State.consumePointer (s : State) (n : Nat) (host : Bool) : State :=
  let p := s.polder n
  let l := p.launch
  let l1 := if host then { l with rd := l.rd + 1, devLast := false } else { l with devq := l.devq.drop 1, devLast := true }
  s.setPolder n { p with launch := l1, fetched := [], failed := [] }

/-- The checks of a record that has been read, its registration, and its pointer consumed (R270, R280, R293). -/
def State.takeRecord (s : State) (n : Nat) (host : Bool) (r : Record) (va : Word) (rank : Nat) : Res :=
  let s0 := s.consumePointer n host
  if s.recordBad n r then s0.rejectRecord n r va .launchRecord
  else if Record.depsBad r then s0.rejectRecord n r va .dependence
  else if !Record.isPure r then s0.acceptRecord n r va rank none
  else if (Record.pureVa r).toNat % 64 ≠ 0 then s0.rejectRecord n r va .pureDescriptor
  else match s.unitRead n (s.launcherAgent n) (vaBytes (Record.pureVa r) 256) with
    | .hole pa => .fault (.physicalHole pa)
    | .later s1 => .next s1
    | .failed _ _ => s0.rejectRecord n r va .pureDescriptor
    | .bytes s1 l =>
      let d : PureDesc := BitVec.ofNat 2048 (leNat l)
      let s2 := s1.consumePointer n host
      if PureDesc.ok d r then s2.acceptRecord n r va rank (some d) else s2.rejectRecord n r va .pureDescriptor

/-- The record that a pointer names is read and judged (R270, R280). -/
def State.readRecord (s : State) (n : Nat) (host : Bool) (va : Word) (bound : Option Nat) : Res :=
  if va.toNat % 128 ≠ 0 then .next ((s.launcherError n .launchRecord va).consumePointer n host)
  else match s.unitRead n (s.launcherAgent n) (vaBytes va 128) with
    | .hole pa => .fault (.physicalHole pa)
    | .later s1 => .next s1
    | .failed _ _ => .next ((s.launcherError n .launchRecord va).consumePointer n host)
    | .bytes s1 l =>
      let r : Record := BitVec.ofNat 1024 (leNat l)
      let rank := match bound with
        | none => Record.rank r
        | some b => min b (Record.rank r)
      s1.takeRecord n host r va rank

/-- The polder's launcher reads records: the polder is enabled and no reset of it is in progress (R349, R360). -/
def Polder.launches (p : Polder) : Bool := p.part.en && !p.part.flrGo

/-- LAUNCHER_RECORD_READ (R275, R280, R281). -/
def execLauncherRecordRead (n : Nat) (s : State) : Res :=
  let p := s.polder n
  let l := p.launch
  if !p.launches then .next s
  else match l.next with
    | none => .next s
    | some false => match l.devq with
      | [] => .next s
      | x :: _ => s.readRecord n false x.1 (some x.2)
    | some true =>
      let at_ := l.base + BitVec.ofNat 64 (l.rd.toNat % 2 ^ l.log2n.toNat * 8)
      match s.unitRead n (s.launcherAgent n) (vaBytes at_ 8) with
      | .hole pa => .fault (.physicalHole pa)
      | .later s1 => .next s1
      | .failed _ _ => .next ((s.launcherError n .launchRecord at_).consumePointer n true)
      | .bytes s1 bytes => s1.readRecord n true (BitVec.ofNat 64 (leNat bytes)) none

/-- A write of LQCTL (R279): LOG2N is kept while EN is 1, and by values 0 to 3; RD and WR become 0 when EN rises. -/
def LaunchRegs.setCtl (l : LaunchRegs) (v : Word) : LaunchRegs :=
  let en := v.getLsbD 31
  let n : BitVec 4 := v.setWidth 4
  let l1 := { l with en := en, log2n := if l.en ∨ n.toNat < 4 then l.log2n else n }
  if en && !l.en then { l1 with rd := 0, wr := 0 } else l1

/-- The polder that a virtual function serves; its registers ignore writes while the polder is being reset (R360,
R362). -/
def State.served (s : State) (vf : Nat) : Option Nat :=
  if vf = 0 then none
  else ((List.range 64).find? fun n => (s.polder n).part.vf.toNat == vf).filter fun n => !(s.polder n).part.flrGo

/-- An event of a virtual function that serves a polder. -/
def onServed (vf : Nat) (m : Nat → State → Res) (s : State) : Res :=
  match s.served vf with
  | none => .next s
  | some n => m n s

/-- LQCTL of a polder is written. -/
def State.setLqctl (s : State) (n : Nat) (value : Word) : State :=
  s.setPolder n { s.polder n with launch := (s.polder n).launch.setCtl value }

/-- LQCTL_WRITE (R279). -/
def execLqctlWrite (vf : Nat) (value : Word) (s : State) : Res :=
  onServed vf (fun n s => .next (s.setLqctl n value)) s

/-- A polder's doorbell is written (R280). -/
def State.ringDoorbell (s : State) (n : Nat) (value : Half) : State :=
  let p := s.polder n
  let l := p.launch
  if !l.en || value == l.wr then s
  else if 2 ^ 31 ≤ (value - l.wr).toNat ∨ 2 ^ l.log2n.toNat < (value - l.rd).toNat then
    s.sendEvent ⟨0, s.launcherSource n, .launchRecord, 6, n⟩
  else s.setPolder n { p with launch := { l with wr := value } }

/-- DOORBELL (R280). -/
def execDoorbell (vf : Nat) (value : Half) (s : State) : Res :=
  onServed vf (fun n s => .next (s.ringDoorbell n value)) s

/-! ### The start of an iteration (R274, R296, R350 to R352, R372, R373) -/

/-- The identifiers that resident contexts and control-store partitions hold (R351, R352, R371). -/
def State.usedIds (s : State) : List Nat :=
  allCores.flatMap fun c =>
    let k := s.core c
    (if k.ctx.isSome then [(k.getSr srCtxid).toNat] else []).append (k.loc.parts.toList.filterMap (·.tag))

/-- The first identifier from a free one upward that nothing holds (R352; assumption entry 14). -/
def State.freshId (s : State) : Nat :=
  let used := s.usedIds
  let start := Config.ctxId s.free
  (((List.range 4096).map fun i => (start + i) % 4096).find? fun n => !used.contains n).getD (start % 4096)

/-- The partition that a new context takes: an invalid one, or that taken longest ago (R372). -/
def Core.spareIx (k : Core) : Nat :=
  match (List.range 4).find? fun i => (tget Partition.reset k.loc.parts i).tag.isNone with
  | some i => i
  | none => (List.range 4).foldl (fun b i =>
      if (tget Partition.reset k.loc.parts i).taken < (tget Partition.reset k.loc.parts b).taken then i else b) 0

/-- A partition tagged with a context, its words as given (R372). -/
def Core.takePartition (k : Core) (id now : Nat) (words : Sparse Word) : Core :=
  { k with loc := { k.loc with parts := tset k.loc.parts k.spareIx ⟨some id, words, now⟩ } }

/-- The registers of a new context's clusters (R274). -/
def startCluster (pc args : Word) : ClusterState :=
  { (ClusterState.reset.setS 1 args) with pc := pc, status := .running }

/-- The poison of a core's scratchpad below an offset is gone once the bytes there have been written (R330). -/
def State.clearPad (s : State) (c : CoreId) (top : Nat) : State :=
  { s with padPoison := s.padPoison.filter fun e => e.1 / 65536 != c.val || decide (top ≤ e.1 % 65536 * 32) }

/-- The special registers of an iteration at its start (R273, R274, R298, R351). -/
def startSrs (p : Polder) (n : Nat) (t : Task) (c : CoreId) (ctxid id ic : Nat) : List (Nat × Word) :=
  let r := t.record
  let x := p.position c
  let w (v : Nat) : Word := BitVec.ofNat 64 v
  let idx (j : Nat) : Nat := if Record.kind r j = 2 then id else if Record.kind r j = 1 then ic else 0
  [(srCtxid, w ctxid), (srPolder, w n), (srRank, w t.rank), (srWorld, if p.part.sec then 1 else 0),
    (srMmrev, w (Record.mmrev r)), (srFlmode, if Record.fixedLatency r then 1 else 0), (srCore, w x.2), (srDie, w x.1),
    (srQuad, w (x.2 / 4)), (srQroute, Record.qroute r),
    (srPurectl, ((t.pure.map purectlWord).getD 0))].append
    ((List.range 4).flatMap fun j => [(srLidx + j, w (idx j)), (srLtrip + j, w (Record.trip r j))])

/-- A core at the start of an iteration (R274). -/
def Core.startIter (k : Core) (p : Polder) (n now : Nat) (t : Task) (c : CoreId) (ctxid id ic : Nat) : Core :=
  let r := t.record
  let scratch := if t.pure.isSome then k.loc.scratch.filter (fun e => decide (padTop ≤ e.1)) else k.loc.scratch
  let x := startCluster (Record.code r + BitVec.ofNat 64 (Record.entry r)) (Record.args r)
  let k1 := { k with
    phase := .running
    ctx := some { polder := n, task := some t.uid, taskId := Record.id r, id := id, ic := ic, user := !p.supervisor,
                  reads := (t.pure.map (pureReads r)).getD [], writes := (t.pure.map pureWrites).getD [],
                  record := t.address, done := Record.done r }
    cls := ⟨x, x, x, x⟩
    regs := .reset
    eng := .reset
    loc := { k.loc with scratch := scratch, stash := [] }
    trap := .reset
    deque := []
    xfer := none }
  (k1.setSrs (startSrs p n t c ctxid id ic)).takePartition ctxid now []

/-- An iteration starts on a core. -/
def State.startIter (s : State) (t : Task) (c : CoreId) : State :=
  let n := t.polder
  let p := s.polder n
  let x := Record.iterAt t.record p c (t.startedOn p c)
  let k := (s.core c).startIter p n s.free t c s.freshId x.1 x.2
  let s1 := if t.pure.isSome then s.clearPad c padTop else s
  (s1.setCore c k).mapTask t.uid fun y => { y with iters := y.iters.append [⟨x.1, x.2, c, .running, false⟩] }

/-- The cores that a persistent task's iterations are placed on. -/
def State.persistentCores (s : State) (t : Task) : List CoreId :=
  (s.polder t.polder).cores.filter fun c => decide (0 < Record.placedCount t.record (s.polder t.polder) c)

/-- A core may take a context. -/
def Core.isFree (k : Core) : Bool := k.phase == .free && k.ctx.isNone

/-- ITERATION_START (R275, R276): the eligible iteration that comes first; a persistent task's start together. -/
def execIterationStart (core : Nat) (s : State) : Res :=
  onCore core (fun c s =>
    let ready := !s.dev.stopped && ((s.ownerOf c).map fun n => (s.polder n).launches).getD false
    if !ready || !(s.core c).isFree then .next s
    else match s.bestFor c with
      | none => .next s
      | some t =>
        if !Record.persistent t.record then .next (s.startIter t c)
        else
          let l := s.persistentCores t
          if l.all fun d => (s.core d).isFree && ((s.bestFor d).map (·.uid)) == some t.uid then
            .next (l.foldl (fun st d => st.startIter t d) s)
          else .next s) s

/-! ### The end of an iteration (R277, R352) -/

/-- Accesses of a core that have not been performed (R277). -/
def State.outstanding (s : State) (c : CoreId) : Bool :=
  (s.rofSent.any fun m => m.core == some c) || (s.rofHeld.any fun m => m.core == some c) ||
    s.peers.any fun p => match p.use with
      | .atomic d _ _ _ => d == c
      | .store d _ => d == c
      | .ordered d _ _ _ => d == c
      | .fetch d _ => d == c
      | .engine d _ _ => d == c
      | .image d _ => d == c
      | .unit _ _ => false
      | .host _ => false
      | .hostWrite _ => false

/-- The iteration on a core has ended (R277). -/
def State.iterationOver (s : State) (c : CoreId) : Bool :=
  let k := s.core c
  k.phase == .running && k.ctx.isSome && !k.inHandler && k.posted.isEmpty &&
    clusterOrder.all (fun x => (k.cl x).status == .halted && (k.cl x).pending.isEmpty && (k.cl x).held.isEmpty) &&
    engineOrder.all (fun e => (k.queue e).entries.isEmpty) && !s.outstanding c

/-- What is tagged with a context's identifier leaves the caches: L1 copies, written back first, then L2 copies, and TLB entries,
with those and the walk caches of its die (R352, R357). -/
def State.dropTagged (s : State) (c : CoreId) (id : Nat) : State :=
  let keys := ((s.core c).loc.l1.map (·.1)).filter fun key => key / 2 ^ 49 == id
  let s0 := keys.foldl (fun st key => st.evictLine c key) s
  let s1 := ((s0.l2.map (·.1)).filter fun key => key / 2 ^ 49 == id).foldl State.evictL2 s0
  let k := s1.core c
  let d := s1.die c
  (s1.setCore c { k with loc := { k.loc with tlb := k.loc.tlb.filter fun e => e.ctx != id } }).setDie c
    { d with tlb := d.tlb.filter fun e => e.ctx != id, walks := d.walks.filter fun e => e.ctx != id }

/-- An iteration of a task stands as given. -/
def State.setIter (s : State) (x : Context) (st : IterState) : State :=
  match x.task with
  | none => s
  | some uid => s.mapTask uid fun t => { t with iters := t.iters.map fun i =>
      if i.id = x.id ∧ i.ic = x.ic then { i with state := st } else i }

/-- The size of a core's scratchpad. -/
def padBytes : Nat := 0x200000

/-- A core as it passes into a polder: cleared when the polder is another than the last (R350). %tvec and %tstack of a resumed context
are those of the core it comes to (R339; assumption entry 10). -/
def Core.enterPolder (k : Core) (n : Nat) : Core :=
  if k.lastPolder = some n then k
  else { k with
    regs := .reset
    eng := .reset
    loc := { k.loc with scratch := [], parts := Vector.replicate 4 .reset }
    trap := .reset
    lastPolder := some n }

/-- A core that runs no context passes into the polder whose it is now, its poison gone with its bytes (R330, R350). -/
def State.passCore (s : State) (c : CoreId) : State :=
  match s.ownerOf c with
  | none => s
  | some n =>
    if (s.core c).ctx.isSome || (s.core c).lastPolder == some n then s
    else (s.clearPad c padBytes).setCore c ((s.core c).enterPolder n)

/-- A polder is given a core: it passes into the polder, were it the polder's once before, as soon as it runs no context
(R350). -/
def State.giveCore (s : State) (c : CoreId) : State :=
  (s.setCore c { s.core c with lastPolder := none }).passCore c

/-- A core gives up its context (R277, R278): stash mappings go, monitors are disarmed; a core that has passed to another
polder meanwhile is cleared (R350). -/
def State.freeCore (s : State) (c : CoreId) : State :=
  let s1 := s.dropTagged c ((s.core c).getSr srCtxid).toNat
  let k := s1.core c
  let s2 : State := { s1.setCore c { k with
      phase := .free, ctx := none, deque := [], xfer := none, loc := { k.loc with stash := [] } } with
    monitors := s1.monitors.filter (·.core ≠ c) }
  s2.passCore c

/-- What a transfer answers (R341, R342, R344): a status word to the requesting cluster, while it has an interest in it,
or nothing to a polder's registers. -/
def State.answerXfer (s : State) (x : Xfer) (word : Word) : State :=
  match x.by_ with
  | .cluster c y token =>
    let k := s.cl c y
    s.setCl c y { k with asked := k.asked.map fun a => if a.token = token then { a with answer := some word } else a }
  | .registers _ => s

/-- ITERATION_END (R277). A save still to come finds no context (R341). -/
def execIterationEnd (core : Nat) (s : State) : Res :=
  onCore core (fun c s =>
    match (s.core c).ctx with
    | none => .next s
    | some x =>
      if !s.iterationOver c then .next s
      else
        let s1 := match (s.core c).xfer with
          | some f => s.answerXfer f 1
          | none => s
        .next ((s1.freeCore c).setIter x .ended)) s

end Sys2Proof.Machine
end

