-- ==== Sys2Proof/Machine/Sha.lean ====
section
/-!
DEFINITION. SHA-256 and HMAC-SHA-256, as the basin and the security engine use them (R291, R300, R393). The functions
themselves are those of FIPS 180-4 and RFC 2104, which the manual names (assumption entry 29).
-/

namespace Sys2Proof.Machine

/-- The round constants of SHA-256, eight to a pattern, highest first. -/
def shaConsts : List (BitVec 256) :=
  [0x428a2f9871374491b5c0fbcfe9b5dba53956c25b59f111f1923f82a4ab1c5ed5,
    0xd807aa9812835b01243185be550c7dc372be5d7480deb1fe9bdc06a7c19bf174,
    0xe49b69c1efbe47860fc19dc6240ca1cc2de92c6f4a7484aa5cb0a9dc76f988da,
    0x983e5152a831c66db00327c8bf597fc7c6e00bf3d5a7914706ca635114292967,
    0x27b70a852e1b21384d2c6dfc53380d13650a7354766a0abb81c2c92e92722c85,
    0xa2bfe8a1a81a664bc24b8b70c76c51a3d192e819d6990624f40e3585106aa070,
    0x19a4c1161e376c082748774c34b0bcb5391c0cb34ed8aa4a5b9cca4f682e6ff3,
    0x748f82ee78a5636f84c878148cc7020890befffaa4506cebbef9a3f7c67178f2]

/-- The eight words of a pattern, highest first. -/
def shaWords (x : BitVec 256) : List Half := (List.range 8).map fun i => x.extractLsb' (224 - 32 * i) 32

/-- Round constant `t`. -/
def shaConst (t : Nat) : Half := (shaWords (shaConsts.getD (t / 8) 0)).getD (t % 8) 0

/-- The initial hash value of SHA-256. -/
def shaInit : List Half := shaWords 0x6a09e667bb67ae853c6ef372a54ff53a510e527f9b05688c1f83d9ab5be0cd19

/-- The value of a big-endian list of bytes. -/
def beNat (l : List Byte) : Nat := leNat l.reverse

/-- The low `n` bytes of a number, highest first. -/
def beBytes (n v : Nat) : List Byte := (leBytes n v).reverse

/-- A list cut into pieces of `n`; `fuel` is at least their number. -/
def pieces {α : Type} (n : Nat) : Nat → List α → List (List α)
  | 0, _ => []
  | _, [] => []
  | fuel + 1, l => l.take n :: pieces n fuel (l.drop n)

/-- The next word of the message schedule, the schedule listed newest first. -/
def shaNext (w : List Half) : Half :=
  let a := w.getD 14 0
  let b := w.getD 1 0
  (b.rotateRight 17 ^^^ b.rotateRight 19 ^^^ (b >>> 10)) + w.getD 6 0 +
    (a.rotateRight 7 ^^^ a.rotateRight 18 ^^^ (a >>> 3)) + w.getD 15 0

/-- The schedule extended by a number of words. -/
def shaExtend : Nat → List Half → List Half
  | 0, w => w
  | n + 1, w => shaExtend n (shaNext w :: w)

/-- The message schedule of a block of 64 bytes, in order. -/
def shaSchedule (block : List Byte) : List Half :=
  (shaExtend 48 ((pieces 4 16 block).map fun l => BitVec.ofNat 32 (beNat l)).reverse).reverse

/-- The exclusive-or of a word rotated right by three amounts. -/
def rotations (x : Half) (i j k : Nat) : Half := x.rotateRight i ^^^ x.rotateRight j ^^^ x.rotateRight k

/-- Round `t` with schedule word `w` on the eight working variables, in order. -/
def shaRound (v : List Half) (t : Nat) (w : Half) : List Half :=
  let at_ (i : Nat) : Half := v.getD i 0
  let pick := (at_ 4 &&& at_ 5) ||| (~~~(at_ 4) &&& at_ 6)
  let most := (at_ 0 &&& (at_ 1 ||| at_ 2)) ||| (at_ 1 &&& at_ 2)
  let up := shaConst t + w + at_ 7 + pick + rotations (at_ 4) 6 11 25
  let top := up + most + rotations (at_ 0) 2 13 22
  (top :: (v.take 7)).set 4 (at_ 3 + up)

/-- The rounds from round `t` on, one for each remaining word of the schedule. -/
def shaRounds (v : List Half) (t : Nat) : List Half → List Half
  | [] => v
  | w :: ws => shaRounds (shaRound v t w) (t + 1) ws

/-- A block worked into the hash value. -/
def shaBlock (v : List Half) (block : List Byte) : List Half :=
  List.zipWith (· + ·) v (shaRounds v 0 (shaSchedule block))

/-- A message padded to whole blocks. -/
def shaPad (m : List Byte) : List Byte :=
  let zeros := (119 - m.length % 64) % 64
  (m.append (0x80 :: List.replicate zeros 0)).append (beBytes 8 (8 * m.length))

/-- SHA-256 of a message: 32 bytes, the first emitted first. -/
def sha256 (m : List Byte) : List Byte :=
  let p := shaPad m
  ((pieces 64 (p.length / 64) p).foldl shaBlock shaInit).flatMap fun h => beBytes 4 h.toNat

/-- HMAC-SHA-256 with a 32-byte key (R300). -/
def hmacSha256 (key m : List Byte) : List Byte :=
  let k := key.append (List.replicate 32 0)
  sha256 ((k.map (· ^^^ 0x5C)).append (sha256 ((k.map (· ^^^ 0x36)).append m)))

/-- A tile's digest Di: the chunks of 4,096 bytes hashed, and their digests hashed (R300). -/
def tileDigest (m : List Byte) : List Byte :=
  sha256 ((pieces 4096 (m.length / 4096 + 1) m).flatMap sha256)

end Sys2Proof.Machine
end

