-- ==== Sys2Proof/Machine/Basin.lean ====
section
/-!
DEFINITION. The basin: keys, entries, range watches, lookups, hit copies and insertions (R299 to R309), and the registers
that control it (R302). An entry holds its stored results itself (assumption entry 28).
-/

namespace Sys2Proof.Machine

/-! ### Keys (R300, R301) -/

/-- The address key of a launch. -/
def addressKey (r : Record) (d : PureDesc) : AddressKey :=
  { code := Record.code r, entry := BitVec.ofNat 32 (Record.entry r), loops := BitVec.ofNat 256 (Record.field r 0x10 32),
    args := Record.args r, consts := BitVec.ofNat 128 (PureDesc.field d 0x10 16),
    tiles := BitVec.ofNat 1024 (PureDesc.field d 0x40 128) }

/-- The formats and shapes of a launch's results, with their sizes. -/
def resultFormats (d : PureDesc) : List Word :=
  (List.range (PureDesc.nres d)).map fun j => BitVec.ofNat 64 (PureDesc.field d (resOff j + 8) 8)

/-- The addresses of a tile's bytes. -/
def tileVas (x : Nat × Nat) : List Word := vaBytes (BitVec.ofNat 64 x.1) x.2

/-- The addresses that a content lookup reads after the code section: the argument block, the constant section and the
argument tiles (R300, R399). -/
def hashedVas (r : Record) (d : PureDesc) : List Word :=
  (tileVas (argBlock r)).append (((PureDesc.consts d).append (PureDesc.args d)).flatMap tileVas)

/-- Bytes cut into runs of given lengths. -/
def cutAt : List Nat → List Byte → List (List Byte)
  | [], _ => []
  | n :: ns, l => l.take n :: cutAt ns (l.drop n)

/-- The constant section's part of the message. -/
def constPart (d : PureDesc) (bytes : List Byte) : List Byte :=
  (leBytes 4 (PureDesc.constBytes d)).append (if PureDesc.constBytes d = 0 then List.replicate 32 0 else tileDigest bytes)

/-- An argument's part of the message. -/
def argPart (d : PureDesc) (x : Nat × List Byte) : List Byte :=
  (leBytes 8 (PureDesc.field d (argOff x.1 + 8) 8)).append (tileDigest x.2)

/-- The message m of a launch; `bytes` are those at `hashedVas` (R300). -/
def keyMessage (r : Record) (d : PureDesc) (bytes : List Byte) : List Byte :=
  let n := (argBlock r).2
  let block := (bytes.take n).append (List.replicate (256 - n) 0)
  let rest := bytes.drop n
  let consts := rest.take (PureDesc.constBytes d)
  let tiles := cutAt ((PureDesc.args d).map (·.2)) (rest.drop (PureDesc.constBytes d))
  let head := [[0x46, 0x41, 0x4C, 0x31], leBytes 32 (PureDesc.field d 0x20 32), leBytes 4 (Record.entry r),
    leBytes 32 (Record.field r 0x10 32), block, constPart d consts].flatten
  head.append ((enumFrom0 tiles).flatMap (argPart d))

/-- H of a launch, read as a little-endian number (R300, R301). -/
def contentKey (key : BitVec 256) (r : Record) (d : PureDesc) (bytes : List Byte) : BitVec 256 :=
  BitVec.ofNat 256 (leNat (hmacSha256 (leBytes 32 key.toNat) (keyMessage r d bytes)))

/-! ### Range watches (R305) -/

/-- The ranges that an entry watches. -/
def watchedRanges (r : Record) (d : PureDesc) : List (Nat × Nat) :=
  (PureDesc.args d).append ((if Record.args r = 0 then [] else [argBlock r]).append
    ((PureDesc.code d, PureDesc.codeBytes d) :: PureDesc.consts d))

/-- The physical block of a virtual block that lies on an HBM-backed HC page. -/
def State.hcBlock (s : State) (n : Nat) (b : Nat) : Option Nat :=
  match s.checkAccess (s.basinAgent n) .read .any [BitVec.ofNat 64 (4096 * b)] with
  | .ok [⟨.hbm pa, .hc, _⟩] => some (pa / 4096)
  | _ => none

/-- The slot that a range takes, when every page of it is an HBM-backed HC page. -/
def State.slotFor (s : State) (n : Nat) (x : Nat × Nat) : Option WatchSlot :=
  let vb := (List.range ((x.1 % 4096 + x.2 + 4095) / 4096)).map (x.1 / 4096 + ·)
  let pb := vb.map (s.hcBlock n)
  if pb.all (·.isSome) then some ⟨n, vb, pb.filterMap id⟩ else none

/-- A task that is remembered, as it stands now. -/
def State.taskNow (s : State) (t : Task) : Task := (s.task t.uid).getD t

/-- Slots armed for a task's ranges, all or none (R305, R306). -/
def State.armSlots (s : State) (t : Task) (d : PureDesc) : State :=
  let s0 := s.freeSlots (s.taskNow t).slots
  let ws := (watchedRanges t.record d).map (s0.slotFor t.polder)
  let used := s0.watches.map (·.1)
  let nums := ((List.range Config.watchSlots).filter fun i => !used.contains i).take ws.length
  if ws.all (·.isSome) && decide (nums.length = ws.length) then
    State.mapTask { s0 with watches := s0.watches.append (nums.zip (ws.filterMap id)) } t.uid
      fun x => { x with slots := nums, slotsOk := true }
  else s0.mapTask t.uid fun x => { x with slots := [], slotsOk := false }

/-! ### Entries (R301, R304) -/

/-- An entry is removed, and its slots are free. -/
def State.dropEntry (s : State) (e : BasinEntry) : State :=
  State.freeSlots { s with basin := s.basin.filter (· ≠ e) } e.slots

/-- Every entry of a polder is removed, and no task looked up before is inserted (R303, R309). -/
def State.clearBasin (s : State) (n : Nat) : State :=
  let s1 := s.freeSlots ((s.basin.filter (·.polder = n)).flatMap (·.slots))
  { s1 with
    basin := s1.basin.filter (·.polder ≠ n)
    tasks := s1.tasks.map fun t => if t.polder = n ∧ t.lookup ≠ .due then { t with noInsert := true } else t }

/-- The least recently used of entries. -/
def oldestOf (l : List BasinEntry) : Option BasinEntry :=
  l.foldl (fun b e => match b with
    | none => some e
    | some x => if e.used < x.used then some e else some x) none

/-- The least recently used of the entries that a test selects is removed. -/
def State.dropOldest (s : State) (p : BasinEntry → Bool) : State :=
  match oldestOf (s.basin.filter p) with
  | none => s
  | some e => s.dropEntry e

/-- Units of 64 KiB that results occupy. -/
def storeUnits (bytes : Nat) : Nat := (bytes + 65535) / 65536

/-- Units that a polder's entries hold. -/
def State.unitsHeld (s : State) (n : Nat) : Nat :=
  ((s.basin.filter (·.polder = n)).map fun e => storeUnits e.data.length).sum

/-- Entries of a polder removed until its store has room; `fuel` is their number (R304 step 2). -/
def State.makeRoom (s : State) (n need : Nat) : Nat → State
  | 0 => s
  | fuel + 1 =>
    if s.unitsHeld n + need ≤ (s.polder n).basin.rsquota.toNat then s
    else (s.dropOldest (·.polder = n)).makeRoom n need fuel

/-- Two entries share a set (R301). -/
def sameSet (a b : BitVec 256) : Bool := a.toNat % 2 ^ 13 == b.toNat % 2 ^ 13

/-- An entry inserted: room is found in the order of R304, and an entry that holds the same H is replaced (R309). -/
def State.insertEntry (s : State) (e : BasinEntry) : State :=
  let n := e.polder
  let s0 := match s.basin.find? fun x => x.polder == n && x.hash == e.hash with
    | none => s
    | some x => s.dropEntry x
  let mine : List BasinEntry := s0.basin.filter (·.polder = n)
  let s1 := if (s0.polder n).basin.bentq.toNat ≤ mine.length then s0.dropOldest (·.polder = n) else s0
  let s2 := s1.makeRoom n (storeUnits e.data.length) s1.basin.length
  let s3 := if 16 ≤ (s2.basin.filter fun x => sameSet x.hash e.hash).length then
      s2.dropOldest fun x => sameSet x.hash e.hash
    else s2
  { s3 with basin := s3.basin.append [e] }

/-- Whether an insertion may be made at all (R304). -/
def BasinRegs.admits (b : BasinRegs) (bytes : Nat) : Bool :=
  b.en && decide (0 < b.bentq.toNat ∧ 0 < b.rsquota.toNat ∧ storeUnits bytes ≤ b.rsquota.toNat)

/-- One of the counters BCNT0 to BCNT3 advances (R302). -/
def State.countBasin (s : State) (n i : Nat) : State :=
  let p := s.polder n
  let c := tget 0 p.basin.counts i
  s.setPolder n { p with basin := { p.basin with counts := tset p.basin.counts i (c + 1) } }

/-! ### Lookup (R306, R307) -/

/-- The lookup ends as a miss (R306, R307): with no H the task is never inserted. -/
def State.missTask (s : State) (t : Task) (d : PureDesc) (key : Option (BitVec 256)) : State :=
  State.clearFetched ((s.countBasin t.polder 2).mapTask t.uid fun x =>
    { x with lookup := .missed, key := key, noInsert := x.noInsert || key.isNone, results := PureDesc.results d }) t.polder

/-- The lookup ends as a hit, whose copy begins (R308). -/
def State.beginHit (s : State) (t : Task) (e : BasinEntry) (byAddress : Bool) : State :=
  State.clearFetched (s.mapTask t.uid fun x => { x with lookup := .copying e.hash e.data byAddress false }) t.polder

/-- The descriptor's digest does not agree with the code: the task does not run (R293). -/
def State.failDigest (s : State) (t : Task) : Res :=
  (s.clearFetched t.polder).endTask (s.taskNow t) 4 .pureDescriptor

/-- The end of the content step: H is compared (R306). -/
def State.compareContent (s : State) (t : Task) (d : PureDesc) (bytes : List Byte) : State :=
  let h := contentKey (s.polder t.polder).basin.key t.record d bytes
  match s.basin.find? fun e => e.polder == t.polder && e.hash == h && e.formats == resultFormats d with
  | some e => s.beginHit (s.taskNow t) e false
  | none => s.missTask (s.taskNow t) d (some h)

/-- A read that a lookup makes: no access to a scratchpad window is made, so bytes that lie in one cannot be read (R399). -/
def State.basinRead (s : State) (n : Nat) (vas : List Word) : UnitGot :=
  let window (va : Word) : Bool := match regionOf va with
    | .ownPad _ | .polderPad _ _ => true
    | _ => false
  match vas.find? window with
  | some va => .failed .scratchpadBounds va
  | none => s.unitRead n (s.basinAgent n) vas

/-- The content step of R306, from the arming of slots onward. -/
def State.contentStep (s0 : State) (t : Task) (d : PureDesc) : Res :=
  let n := t.polder
  let s := s0.armSlots t d
  match s.basinRead n (tileVas (PureDesc.code d, PureDesc.codeBytes d)) with
  | .hole pa => .fault (.physicalHole pa)
  | .later s1 => .next s1
  | .failed _ _ => s.failDigest t
  | .bytes s1 code =>
    if sha256 code ≠ leBytes 32 (PureDesc.field d 0x20 32) then s1.failDigest t
    else match s1.basinRead n (hashedVas t.record d) with
      | .hole pa => .fault (.physicalHole pa)
      | .later s2 => .next s2
      | .failed _ _ => .next (s1.missTask t d none)
      | .bytes s2 bytes => .next (s2.compareContent t d bytes)

/-- The entry that gives an address hit (R306). -/
def State.addressHit (s : State) (t : Task) (d : PureDesc) : Option BasinEntry :=
  s.basin.find? fun e =>
    e.polder == t.polder && e.eligible && e.akey == addressKey t.record d && e.formats == resultFormats d

/-- PURE_LOOKUP (R306): once every dependence is satisfied; with EN = 0 there is nothing to look up (R302). -/
def execPureLookup (uid : Nat) (s : State) : Res :=
  match s.task uid with
  | none => .next s
  | some t =>
    match t.pure with
    | none => .next s
    | some d =>
      if t.ended || t.stopped || t.lookup != .due || !s.depsMet t || !(s.polder t.polder).launches then .next s
      else if !(s.polder t.polder).basin.en then .next (s.mapTask uid fun x => { x with lookup := .none })
      else match s.addressHit t d with
        | some e => .next (s.beginHit t e true)
        | none => s.contentStep t d

/-! ### Hit copies (R308) -/

/-- The tiles of a hit written one after another, each checked as R161 states. -/
def State.writeTiles (s : State) (n : Nat) : List (Nat × Nat) → List Byte → UnitPut
  | [], _ => .ok s
  | x :: xs, l =>
    match s.unitWrite n (s.basinAgent n) (BitVec.ofNat 64 x.1) (l.take x.2) with
    | .ok s1 => s1.writeTiles n xs (l.drop x.2)
    | r => r

/-- What a copy that is given up has written: a free choice of the tiles that it may write (R308; assumption entry
23). -/
def State.writeSome (s : State) (n : Nat) : List (Nat × Nat) → List Byte → State
  | [], _ => s
  | x :: xs, l =>
    match s.unitWrite n (s.basinAgent n) (BitVec.ofNat 64 x.1) (l.take x.2) with
    | .ok s1 => (if Config.landed s.free x.1 then s1 else s).writeSome n xs (l.drop x.2)
    | _ => s.writeSome n xs (l.drop x.2)

/-- A hit that cannot be given: the content step follows an address hit, and a miss a content hit (R308). -/
def State.abandonHit (s : State) (t : Task) (d : PureDesc) (h : BitVec 256) (byAddress : Bool) : Res :=
  if byAddress then s.contentStep t d else .next (s.missTask t d (some h))

/-- An entry whose stored results hold an error is removed and reported, and the task runs (R303, R308). -/
def State.spoiltHit (s : State) (t : Task) (d : PureDesc) (e : BasinEntry) (byAddress : Bool) : State :=
  let s1 := s.dropEntry e
  let source : Half := BitVec.ofNat 32 (2 * 2 ^ 24 + e.hash.toNat % 4 * 2 ^ 16 + 0xFFFF)
  (s1.missTask t d (if byAddress then none else some e.hash)).sendEvent ⟨0, source, .hbmUncorrectable, 4, t.polder⟩

/-- A content hit re-arms its entry with the task's address key and slots (R306). -/
def State.rearm (s : State) (t : Task) (d : PureDesc) (h : BitVec 256) : State :=
  match s.basin.find? fun e => e.polder == t.polder && e.hash == h with
  | none => s
  | some e =>
    if !t.slotsOk then s
    else
      let s1 := s.freeSlots e.slots
      let e1 := { e with akey := addressKey t.record d, slots := t.slots, eligible := true }
      State.mapTask { s1 with basin := s1.basin.map fun x => if x = e then e1 else x } t.uid fun x => { x with slots := [] }

/-- A hit has been given: it is counted, its entry was used, and the task ends with its reuse status (R304, R308). -/
def State.finishHit (s : State) (t : Task) (d : PureDesc) (h : BitVec 256) (byAddress : Bool) : Res :=
  let use (e : BasinEntry) : BasinEntry := if e.polder = t.polder ∧ e.hash = h then { e with used := s.free } else e
  let s1 := State.countBasin { s with basin := s.basin.map use } t.polder (if byAddress then 0 else 1)
  let s2 := if byAddress then s1 else s1.rearm t d h
  s2.endTask (s2.taskNow t) (if byAddress then 2 else 3) .none

/-- Writes of a polder's unit that a peer has not answered. -/
def State.unitWritesOut (s : State) (n : Nat) : Bool := s.peers.any (·.use == .unit n false)

/-- HIT_COPY_COMPLETE (R308): every result tile is written in this step (DESIGN CHOICE, assumption entry 72); a reset of the
polder abandons the copy (R361). -/
def execHitCopyComplete (uid : Nat) (s : State) : Res :=
  match s.task uid with
  | none => .next s
  | some t =>
    match t.pure, t.lookup with
    | some d, .copying h data byAddress written =>
      let n := t.polder
      if t.ended || (s.polder n).part.flrGo then .next s
      else if written then (if s.unitWritesOut n then .next s else s.finishHit t d h byAddress)
      else match s.basin.find? fun e => e.polder == n && e.hash == h && e.poisoned with
        | some e => .next (s.spoiltHit t d e byAddress)
        | none =>
          match s.writeTiles n (PureDesc.results d) data with
          | .hole pa => .fault (.physicalHole pa)
          | .failed _ _ => (s.writeSome n (PureDesc.results d) data).abandonHit t d h byAddress
          | .ok s1 =>
            if s1.unitWritesOut n then
              .next (s1.mapTask uid fun x => { x with lookup := .copying h data byAddress true })
            else s1.finishHit t d h byAddress
    | _, _ => .next s

/-! ### Insertion (R309) -/

/-- A missed task may be inserted. -/
def State.insertionOk (s : State) (t : Task) (d : PureDesc) : Bool :=
  let total := ((PureDesc.results d).map (·.2)).sum
  !t.noInsert && t.key.isSome && decide (total ≤ 16777216) && (s.polder t.polder).basin.admits total

/-- The entry of a task. -/
def entryOf (t : Task) (d : PureDesc) (bytes : List Byte) (now : Nat) : BasinEntry :=
  { hash := t.key.getD 0, polder := t.polder, akey := addressKey t.record d, formats := resultFormats d, data := bytes,
    eligible := t.slotsOk, slots := if t.slotsOk then t.slots else [], used := now, poisoned := false }

/-- The task's entry is made and counted; its slots are the entry's. -/
def State.makeEntry (s : State) (t : Task) (d : PureDesc) (bytes : List Byte) : State :=
  ((s.insertEntry (entryOf t d bytes s.free)).countBasin t.polder 3).mapTask t.uid fun x =>
    if t.slotsOk then { x with slots := [] } else x

/-- BASIN_INSERTION (R309): the completion word is written after the insertion has been made or given up. -/
def execBasinInsertion (uid : Nat) (s : State) : Res :=
  match s.task uid with
  | none => .next s
  | some t =>
    match t.pure with
    | none => .next s
    | some d =>
      let done (s : State) : Res := s.endTask (s.taskNow t) t.outcome.1 t.outcome.2
      if t.ended || !t.insertable || !s.allEnded t then .next s
      else if !s.insertionOk t d then done s
      else match s.unitRead t.polder (s.basinAgent t.polder) ((PureDesc.results d).flatMap tileVas) with
        | .hole pa => .fault (.physicalHole pa)
        | .later s1 => .next s1
        | .failed _ _ => done (s.clearFetched t.polder)
        | .bytes s1 bytes => done ((s1.clearFetched t.polder).makeEntry t d bytes)

/-! ### The basin's registers (R302, R303) -/

/-- Who may write a polder's configuration block (R349, R392): management, or the physical function's driver where the
polder is not secure, once READY is set. -/
def State.mayWrite (s : State) (n : Nat) (by_ : Writer) : Bool :=
  s.dev.ready && decide (n < 64) && match by_ with
    | .management => true
    | .physicalFunction => !(s.polder n).part.sec
    | .virtualFunction _ => false

/-- A write of a polder's block, ignored where its writer may not. -/
def onBlock (n : Nat) (by_ : Writer) (m : State → Res) (s : State) : Res := if s.mayWrite n by_ then m s else .next s

/-- BKEY3 is written: the key of the four registers is installed, and the polder's entries go (R302, R303). -/
def State.installKey (s : State) (n : Nat) (value : Word) : State :=
  let b := (s.polder n).basin
  let ks := tset b.bkey 3 value
  let key : BitVec 256 := BitVec.ofNat 256 ((List.range 4).map fun i => (tget 0 ks i).toNat * 2 ^ (64 * i)).sum
  (s.setPolder n { s.polder n with basin := { b with bkey := ks, key := key } }).clearBasin n

/-- KEY_INSTALL (R302, R303). -/
def execKeyInstall (n : Nat) (by_ : Writer) (value : Word) (s : State) : Res :=
  onBlock n by_ (fun s => .next (s.installKey n value)) s

/-- BASIN_CLEAR (R302, R303). -/
def execBasinClear (n : Nat) (by_ : Writer) (s : State) : Res := onBlock n by_ (fun s => .next (s.clearBasin n)) s

/-- BCTL.EN is written: entries go when it falls (R302, R303). -/
def State.setBasinEn (s : State) (n : Nat) (on : Bool) : State :=
  let p := s.polder n
  let s1 := s.setPolder n { p with basin := { p.basin with en := on } }
  if p.basin.en && !on then s1.clearBasin n else s1

/-- BASIN_ENABLE (R302, R303). -/
def execBasinEnable (n : Nat) (by_ : Writer) (enable : Bool) (s : State) : Res :=
  onBlock n by_ (fun s => .next (s.setBasinEn n enable)) s

end Sys2Proof.Machine
end

