-- ==== Sys2Proof/Machine/Control.lean ====
section
/-!
DEFINITION. Branches, loops, HALT, YIELD, WAITT and the special registers (R92 to R104, R227).
-/

namespace Sys2Proof.Machine

/-! ### Branches -/

/-- The stack after a taken branch: entries whose body the target lies outside are popped, top first (R99). -/
def popOutside (t : Word) : List LoopEntry → List LoopEntry
  | [] => []
  | l :: ls => if l.start.toNat ≤ t.toNat ∧ t.toNat ≤ l.last.toNat then l :: ls else popOutside t ls

/-- A taken branch (R92, R99). -/
def branchTo (t : Word) (s : State) : Res := .next (s.completeTo t (popOutside t s.me.loops))

/-- A register target is 32-byte aligned; otherwise MISALIGNED (R13). -/
def alignedTarget (t : Word) (s : State) (m : State → Res) : Res :=
  if t.toNat % 32 ≠ 0 then s.faultHere .misaligned t else m s

/-- BR (R92). -/
def execBr (off32 : BitVec 32) (s : State) : Res := branchTo (relTarget s.me.pc off32) s

/-- BRI (R92). -/
def execBri (ra : SReg) (s : State) : Res := alignedTarget (s.getS ra) s (branchTo (s.getS ra))

/-- CALL (R92): the loop stack is untouched (R99). -/
def execCall (off32 : BitVec 32) (s : State) : Res :=
  .next ((s.setS 63 (s.me.pc + 32)).completeTo (relTarget s.me.pc off32) s.me.loops)

/-- CALLI (R92): s[ra] is read before s63 is written. -/
def execCalli (ra : SReg) (s : State) : Res :=
  alignedTarget (s.getS ra) s fun s => .next ((s.setS 63 (s.me.pc + 32)).completeTo (s.getS ra) s.me.loops)

/-- RET (R92): the loop stack is untouched (R99). -/
def execRet (ra : SReg) (s : State) : Res :=
  alignedTarget (s.getS ra) s fun s => .next (s.completeTo (s.getS ra) s.me.loops)

/-- BRQ (R93). -/
def execBrq (q : QReg) (off32 : BitVec 32) (s : State) : Res :=
  popS q s fun v rest s =>
    let s1 := s.setHere (s.here.setSqueue q rest)
    if v.getLsbD 0 then branchTo (relTarget s.me.pc off32) s1 else .next s1.complete

/-! ### Hardware loops -/

/-- A loop start with count `n` (R97): the end is compared before it wraps (R36). -/
def startLoop (n : Word) (endOff : BitVec 16) (s : State) : Res :=
  let pc := s.me.pc
  let last := pc + zext64 endOff * 32
  let past := match s.me.loops with
    | [] => false
    | l :: _ => decide (pc.toNat + 32 * endOff.toNat > l.last.toNat)
  if past then s.faultHere .loopStructure pc
  else if n = 0 then .next (s.completeTo (last + 32) s.me.loops)
  else if s.me.loops.length ≥ Config.loopDepth then s.faultHere .loopStructure pc
  else .next (s.completeTo (pc + 32) (⟨pc + 32, last, n⟩ :: s.me.loops))

/-- LOOP (R97). -/
def execLoop (ra : SReg) (endOff : BitVec 16) (s : State) : Res := startLoop (s.getS ra) endOff s

/-- LOOPI (R97). -/
def execLoopi (endOff : BitVec 16) (count : BitVec 27) (s : State) : Res := startLoop (zext64 count) endOff s

/-- LOOPT (R97): the count is %ltrip[level]. -/
def execLoopt (level : BitVec 6) (endOff : BitVec 16) (s : State) : Res :=
  startLoop (s.here.getSr (srLtrip + level.toNat)) endOff s

/-- LBREAK (R100). -/
def execLbreak (s : State) : Res :=
  match s.me.loops with
  | [] => s.faultHere .loopStructure s.me.pc
  | l :: ls => let r := loopEnd l.last ls; .next (s.completeTo r.1 r.2)

/-! ### HALT, YIELD and WAITT -/

/-- HALT (R94, R214): PC names the bundle after it; a cluster that waits at a synced bundle then fails. The first
such cluster in slot order raises the fault, with the syllable that waits there (DEDUCED, assumption entry 24). -/
def execHalt (s : State) : Res :=
  let s1 := (s.setMe { s.me with pc := s.me.pc + 32, status := .halted, released := false, skipBk := false }).markDone
  match clusterOrder.filterMap fun y => (s1.here.cl y).meeting.map (y, ·) with
  | [] => .next s1
  | (y, b, w) :: _ =>
    if s1.here.inHandler then .next s1
    else s1.raise s1.actor.core ⟨.rendezvousMismatch, 0, y, none, b, w, false⟩

/-- YIELD (R95): the pause ends at YIELD_PAUSE_END, and the cluster goes on after the bundle. -/
def execYield (_n4 : BitVec 4) (s : State) : Res :=
  let s1 := s.complete
  .next (s1.setMe { s1.me with status := .waiting .pause })

/-- WAITT (R227). A loss of lock while it waits ends the wait with the fault (`State.loseLock`). -/
def execWaitt (ra : SReg) (s : State) : Res :=
  s.guarded false true fun s =>
    if !s.dev.tlock then s.faultHere .timeUnlocked 0
    else if s.dev.time.toNat ≥ (s.getS ra).toNat then .next s.complete
    else .next (s.block (.time (s.getS ra) s.actor.syl))

/-! ### Special registers -/

/-- Access to a special register (R102): 0 none, 1 read, 2 read and write; for users and for supervisors. -/
def srAccess (n : Nat) : Nat × Nat :=
  if n = 0x011 ∨ n = 0x012 then (0, 2)
  else if n = 0x040 ∨ n = 0x041 ∨ n = srQroute then (2, 2)
  else if (0x003 ≤ n ∧ n ≤ 0x006) ∨ n = srRank ∨ (0x070 ≤ n ∧ n ≤ 0x078) ∨ (0x080 ≤ n ∧ n ≤ 0x084) ∨
      n = srCsmap then (1, 2)
  else (1, 1)

/-- The number is a register of R102. -/
def srAssigned (n : Nat) : Bool :=
  decide (n ≤ 0x006) || decide (0x008 ≤ n ∧ n ≤ 0x012) || decide (0x020 ≤ n ∧ n ≤ 0x025) ||
  decide (0x030 ≤ n ∧ n ≤ 0x03A) || n == 0x040 || n == 0x041 || n == 0x050 || n == 0x051 || n == 0x060 ||
  decide (0x070 ≤ n ∧ n ≤ 0x078) || decide (0x080 ≤ n ∧ n ≤ 0x084) || n == 0x090 || n == 0x0A0 || n == 0x0B0

/-- The fields of a special register that an MTSR writes (R101): the maps of R319, R255, R327, R328, R373, R222,
R69 and R70. -/
def srMask (n : Nat) : Word :=
  if 0x003 ≤ n ∧ n ≤ 0x006 then ~~~31
  else if n = srRank then 7
  else if n = srFpstat then 0x1F
  else if n = srFpctl then 3
  else if 0x070 ≤ n ∧ n ≤ 0x077 then ~~~16
  else if n = srBkctl then 0x3FFF
  else if n = srWctl then 0xFFFFFFFF
  else if n = srCsmap then 0x1FFFF0000
  else BitVec.allOnes 64

/-- What MFSR reads (R101): %cycle and %time are counters, unassigned numbers read as zero (R103). -/
def State.readSr (s : State) (n : Nat) : Word :=
  if n = srCycle then s.here.trap.cycle
  else if n = srTime then s.dev.time
  else if srAssigned n then s.here.getSr n
  else 0

/-- A pure task may read the register (R103). -/
def pureReadable (n : Nat) : Bool :=
  n == srCore || n == srDie || n == srQuad || decide (0x033 ≤ n ∧ n ≤ 0x03A) || n == srFpstat || n == srFpctl

/-- MFSR (R101 to R103). -/
def execMfsr (rd : SReg) (num : BitVec 12) (s : State) : Res :=
  let n := num.toNat
  s.guarded false (!pureReadable n) fun s =>
    if s.here.isUser && (srAccess n).1 == 0 then s.faultHere .privileged 0
    else writeS rd (s.readSr n) s

/-- A supervisor's write to %fpcn in the handler moves a stopped cluster: it is no longer inside a sequence (R388), or
released at a synced bundle (DEDUCED, assumption entry 31); %fupc keeps what the frame recorded (R387; DEDUCED, assumption
entry 31). -/
def Core.moved (k : Core) (n : Nat) : Core :=
  if !k.inHandler then k
  else
    let k1 := clusterOrder.foldl (fun k x =>
      if n = srFpc + x.code then k.setCl x { k.cl x with useq := none, released := false } else k) k
    if n = srFpc then { k1 with trap := { k1.trap with heldReleased := false } } else k1

/-- MTSR (R101 to R104). -/
def execMtsr (ra : SReg) (num : BitVec 12) (s : State) : Res :=
  let n := num.toNat
  s.guarded false true fun s =>
    let user := s.here.isUser
    let acc := if user then (srAccess n).1 else (srAccess n).2
    if !srAssigned n || acc != 2 then
      if user then s.faultHere .privileged 0 else .next s.complete
    else if user && n == srQroute && s.here.regs.qUsed then s.faultHere .queueRoute 0
    else
      let m := srMask n
      let v := (s.here.getSr n &&& ~~~m) ||| (s.getS ra &&& m)
      .next (s.setHere ((s.here.setSr n v).moved n)).complete

end Sys2Proof.Machine
end

