-- ==== Sys2Proof/Machine/EngineCmd.lean ====
section
/-!
DEFINITION. How an engine command starts (R136, R137, R229, R239, R240, R248, R253, R254), how it faults and stops,
and what a stop does to the commands that have started (R316, R317).
-/

namespace Sys2Proof.Machine

/-! ### Whether a command may start -/

/-- A generation stamp is younger than another (R243). -/
def youngerGen (a b : BitVec 4) : Bool := decide (1 ≤ (a - b).toNat ∧ (a - b).toNat ≤ 7)

/-- An accumulator run of the core is open, or the MMA that opens it runs (R138, R334). -/
def Core.openRun (k : Core) : Bool :=
  k.eng.accs.toList.any (·.isOpen) ||
    (k.queue .mtx).entries.any fun x => x.started.isSome && wordEop (k.cmdWord .mtx x.seq) == 1

/-- The core's queues start commands (R316, R320, R333 to R335): while its context runs outside the handler, up to the
boundary of a fence save, and while it is saved, only the matrix queue with a run open. -/
def Core.mayStart (k : Core) (e : Engine) (x : Cmd) : Bool :=
  match k.phase with
  | .running =>
    !k.inHandler && !(((k.xfer.bind (·.boundary)).map (youngerGen x.gen)).getD false)
  | .saving => !k.inHandler && e == .mtx && (k.xfer.map (·.drain)).getD false && k.openRun
  | _ => false

/-- The WAIT condition of a command holds (R240). -/
def Core.cmdReady (k : Core) (x : Cmd) (w : Word) : Bool :=
  match waitPred (wordWait w), x.predSeq with
  | some (e, _), some n => !(k.queue e).holds n
  | _, _ => (waitFlag (wordWait w)).isNone || x.granted

/-! ### Faults -/

/-- The entries of a queue with the command of a number changed. -/
def EngineQueue.mapCmd (q : EngineQueue) (seq : Half) (f : Cmd → Cmd) : EngineQueue :=
  { q with entries := q.entries.map fun x => if x.seq = seq then f x else x }

/-- The record of a number changed. -/
def EngineQueue.mapHist (q : EngineQueue) (seq : Half) (f : Hist → Hist) : EngineQueue :=
  { q with hist := q.hist.map fun x => if x.seq = seq then f x else x }

/-- The fault of an engine command (R313, R316, R317, R267). While the core's context does not run, or the core is
already stopping, the command stands at the cut unreported (R315, R334). -/
def State.engineFault (s : State) (c : CoreId) (e : Engine) (seq : Half) (cause : Cause) (va : Word) : Res :=
  let k := s.core c
  let w := k.cmdWord e seq
  match k.phase with
  | .running =>
    let q := ((k.queue e).mapCmd seq fun x => { x with faulted := true }).mapHist seq fun h =>
      { h with status := .faulted }
    (s.setCore c (k.setQueue e q)).raise c ⟨cause, 0, .S, some e, va, w, false⟩
  | .saving => .next (s.setCore c { k with xfer := k.xfer.map fun x => if e = .mtx then { x with drain := false } else x })
  | _ => .next s

/-! ### Commands that have started and are stopped (R316, R317) -/

/-- The claims of a run are the last of its ring, so that they can be undone. -/
def Core.lastClaims (k : Core) (id : CmdId) (r : SlotRun) : Bool :=
  let l := (k.stream r.st).claims
  (l.drop (l.length - r.n)).all (fun c => c.owner == some id) && decide (r.n ≤ l.length)

/-- The claims of a run undone. -/
def Core.unclaim (k : Core) (r : SlotRun) : Core :=
  let x := k.stream r.st
  k.setStream r.st { x with t := x.t - BitVec.ofNat 32 r.n, claims := x.claims.take (x.claims.length - r.n) }

/-- A started command returns to the queue unstarted with the claims and reservations it made, its first tiles written and
the lowest watched byte of them kept (R317, R328). -/
def Cmd.hold (x : Cmd) (prog : Nat) (hit : Option Word) : Cmd :=
  { x with started := none, held := true, prog := prog, out := [], hit := hit, fetched := [], failed := [] }

/-- A started command returns to the queue unstarted with nothing held. -/
def Cmd.drop (x : Cmd) : Cmd :=
  { x with
    started := none, held := false, prog := 0, claims := [], reserves := [], out := [], hit := none, fetched := []
    failed := [] }

/-- A record returns to PENDING, that of a promoted start without P (R267; DESIGN CHOICE, assumption entry 71). -/
def Hist.pend (h : Hist) : Hist := { h with status := .pending, promoted := false, raws := [], runs := [] }

/-- What a queue remembers of the command before one that has started, when that one is undone (R267). -/
def EngineQueue.unstart (q : EngineQueue) (x : Cmd) : EngineQueue :=
  { q with lastSub := (x.started.map (·.wasSub)).getD q.lastSub }

/-- A started command that stands behind one that stopped is undone: its claims, if they are still the last of their
rings, and its reservations. Otherwise it keeps both, as a held command (R317). -/
def Core.undo (k : Core) (e : Engine) (x : Cmd) : Core :=
  let id : CmdId := ⟨e, x.seq⟩
  if x.claims.all (k.lastClaims id) then
    let k1 := x.claims.foldl Core.unclaim k
    k1.setQueue e ((((k1.queue e).mapCmd x.seq Cmd.drop).mapHist x.seq Hist.pend).unstart x)
  else k.setQueue e ((((k.queue e).mapCmd x.seq fun y => y.hold 0 none).mapHist x.seq Hist.pend).unstart x)

/-- The started commands behind a command are undone, the last first. -/
def Core.unwind (k : Core) (e : Engine) (seq : Half) : Core :=
  let behind := (((k.queue e).entries.dropWhile (·.seq ≠ seq)).drop 1).filter (·.started.isSome)
  behind.reverse.foldl (fun k x => k.undo e x) k

/-- A started command stops with its claims held, its tile progress as given; those behind it are undone (R317,
R333). -/
def Core.holdCmd (k : Core) (e : Engine) (seq : Half) (prog : Nat) (hit : Option Word) : Core :=
  let k1 := k.unwind e seq
  let q := ((k1.queue e).mapCmd seq fun x => x.hold prog hit).mapHist seq Hist.pend
  k1.setQueue e ((((k1.queue e).entries.find? (·.seq = seq)).map q.unstart).getD q)

/-! ### Raw ranges and the determinism check (R254) -/

/-- The placement-2 table of a stream as a raw range that is read. -/
def Core.tableRange (k : Core) (st : StReg) : List RawRange :=
  match (k.stream st).desc.bind Desc.table with
  | some (lo, hi) => [⟨lo, hi, false⟩]
  | none => []

/-- Tiles that a copy command moves (R247). -/
def copyTiles (w : Word) : Nat := wordField w 9 4 + 1

/-- The raw area of a CPSTR (R249, R254). -/
def Desc.rawArea (d : Desc) (n : Nat) : RawRange :=
  ⟨Desc.ring d, Desc.ring d + (n - 1) * Desc.slotBytes d + Desc.tileBytes d - 1, true⟩

/-- The raw ranges of a command by the descriptors in force (R254). -/
def Core.rawRanges (k : Core) (e : Engine) (w : Word) : List RawRange :=
  match e, wordEop w with
  | .mtx, 1 => k.tableRange (wordSt w 19) ++ k.tableRange (wordSt w 14)
  | .mtx, 2 => k.tableRange (wordSt w 19)
  | .cin, 2 =>
    match (k.stream (wordSt w 19)).desc with
    | some d => [Desc.rawArea d (copyTiles w)]
    | none => []
  | _, _ => []

/-- The raw ranges of a recorded command: as recorded at its start, or by the descriptors in force. -/
def Core.histRaws (k : Core) (e : Engine) (h : Hist) : List RawRange :=
  if (k.queue e).entries.any fun x => x.seq = h.seq && x.started.isNone then k.rawRanges e (k.cmdWord e h.seq)
  else h.raws

/-- A sequence number is ordered before a point. -/
def seqWithin (seq limit : Half) : Bool := limit != 0xFFFFFFFF && decide ((limit - seq).toNat < 2 ^ 31)

/-- Commands of a queue that a command is compared with: enqueued before it, fewer than 256 later ones of their queue
enqueued before it, and not ordered before it (R254). -/
def EngineQueue.unordered (q : EngineQueue) (ordinal : Half) (limit : Half) : List Hist :=
  ((q.hist.filter fun h => ordBefore h.ordinal ordinal).take 256).filter fun h => !seqWithin h.seq limit

/-- The determinism check: the lowest byte on which a command overlaps one that is not ordered before it, one of the
two writing it (R254). -/
def Core.overlap (k : Core) (x : Cmd) (mine : List RawRange) (front : Front) : Option Nat :=
  let against (e : Engine) (limit : Half) : List RawRange :=
    ((k.queue e).unordered x.ordinal limit).flatMap (k.histRaws e)
  let others := against .mtx front.mtx ++ against .cin front.cin
  leastOff (mine.flatMap fun a => others.filterMap fun b =>
    if a.write || b.write then firstShared (a.lo, a.hi) (b.lo, b.hi) else none)

/-! ### Checks, in order -/

/-- A check: the cause and address of its failure. -/
abbrev Check := Option (Cause × Word)

/-- A check that fails with no address. -/
def failIf (b : Bool) (cause : Cause) : Check := if b then some (cause, 0) else none

/-- The first failure of a list of checks. -/
def firstCheck : List Check → Check
  | [] => none
  | some x :: _ => some x
  | none :: l => firstCheck l

/-- What a role requires of a stream (R137); `tile` is how many bytes the elements occupy where the descriptor's rows, columns
and format do not say it. -/
structure Role where
  minBytes : Nat
  formats  : List Nat
  rows     : Option Nat
  cols     : Option Nat
  places   : List Nat
  isOut    : Bool
  tile     : Option Nat

/-- A stream meets the first column of its role: set, its slots large enough. -/
def roleFirst (d : Option Desc) (r : Role) : Bool :=
  match d with
  | none => false
  | some d => decide (r.minBytes ≤ Desc.slotBytes d)

/-- A set stream meets the other columns of its role. -/
def roleRest (d : Desc) (r : Role) : Bool :=
  r.formats.contains (Desc.format d) && (r.rows.map (· == Desc.rows d)).getD true &&
    (r.cols.map (· == Desc.cols d)).getD true && r.places.contains (Desc.placement d) &&
    Desc.isOut d == r.isOut

/-- A placement-1 scale area overlaps the bytes of a tile's elements, `n` of them (R137). -/
def Desc.scaleInTile (d : Desc) (n : Nat) : Bool := Desc.placement d == 1 && decide (Desc.scaleOff d < n)

/-- The checks of R137 for one stream. -/
def roleCheck (d : Option Desc) (r : Role) : Check :=
  if !roleFirst d r then some (.ringDescriptor, 0)
  else failIf (!roleRest (d.getD 0) r || Desc.scaleInTile (d.getD 0) (r.tile.getD (Desc.tileBytes (d.getD 0)))) .streamFormat

/-- A stream that fails its role counts as ready (R140, R141, R146 to R148, R248). -/
def readyUnless (check : Check) (ready : Bool) : Bool := check.isSome || ready

/-! ### The start -/

/-- What a command does at its start (R136, R229, R239). -/
structure Launch where
  check    : Check
  claims   : List (StReg × Nat)
  reserves : List (StReg × Nat)
  heads    : List (StReg × Nat)
  walk     : Nat
  rowScale : Sparse Byte
  colScale : Sparse Byte
  /-- ranges recorded on the scoreboard beside its slots, and bytes of each slot it uses -/
  board    : List RawRange
  isBound  : Bool

/-- The head slot of a command on a ring (R229): that of a held reservation, or the next one not reserved. -/
def Core.headOf (k : Core) (x : Cmd) (st : StReg) : Half :=
  match x.reserves.find? (·.st = st) with
  | some r => r.first
  | none => k.headCount st

/-- What orders before a command that starts now (R254): what did at its enqueue, its predecessors' fronts as they
stand, and the publishers of the slots it reads. -/
def Core.startFront (k : Core) (e : Engine) (x : Cmd) (w : Word) (heads : List (StReg × Nat)) : Front :=
  heads.foldl (fun f h => f.join ((k.stream h.1).publishers (k.headOf x h.1) h.2))
    (k.staticFront ⟨e, x.seq⟩ w x.predSeq x.ordinal x.issuer)

/-- Claims made one after another: the core and the runs. -/
def Core.claimAll (k : Core) (id : CmdId) (front : Front) : List (StReg × Nat) → Core × List SlotRun
  | [] => (k, [])
  | (st, n) :: l =>
    let x := k.stream st
    let r := (k.setStream st (x.claim n (some id) front)).claimAll id front l
    (r.1, ⟨st, x.t, n⟩ :: r.2)

/-- The scratchpad bytes of a run of slots. -/
def Core.slotRanges (k : Core) (r : SlotRun) : List RawRange :=
  match (k.stream r.st).desc with
  | none => []
  | some d => (List.range r.n).map fun i =>
      let o := Desc.slotOff d (r.first + BitVec.ofNat 32 i)
      ⟨o, o + Desc.slotBytes d - 1, true⟩

/-- The claims that a held command keeps stand behind what orders before its new start (R254, R317). -/
def Core.reclaim (k : Core) (id : CmdId) (front : Front) (runs : List SlotRun) : Core :=
  let behind (c : SlotClaim) : SlotClaim := if c.owner = some id then { c with front := c.front.join front } else c
  runs.foldl (fun k r => k.setStream r.st { k.stream r.st with claims := (k.stream r.st).claims.map behind }) k

/-- A command starts: its claims and reservations are made unless it holds them, its record is completed, and the
command behind it may begin its flag wait (R229, R239, R254, R267, R317). -/
def Core.startCmd (k : Core) (e : Engine) (x : Cmd) (w : Word) (front : Front) (dedicated : Bool) (l : Launch) : Core :=
  let id : CmdId := ⟨e, x.seq⟩
  let heads := l.heads.map fun h => (⟨h.1, k.headOf x h.1, h.2⟩ : SlotRun)
  let reserves := if x.held then x.reserves else l.reserves.map fun r => ⟨r.1, k.headOf x r.1, r.2⟩
  let made := if x.held then (k.reclaim id front x.claims, x.claims) else k.claimAll id front l.claims
  let k1 := made.1
  let descs := (streamsOf e w).filterMap fun n => (k.stream n).desc.map fun d => (n, d)
  let st : Started := ⟨dedicated, descs, (k1.queue e).lastSub, l.walk, heads, l.rowScale, l.colScale,
    l.board ++ (heads ++ made.2).flatMap k1.slotRanges⟩
  let q := k1.queue e
  let q1 := q.mapCmd x.seq fun y => { y with started := some st, claims := made.2, reserves := reserves }
  let q2 := q1.mapHist x.seq fun h =>
    { h with
      raws := k1.rawRanges e w
      runs := made.2
      front := front
      status := if dedicated then .dedicated else .substitute
      promoted := l.isBound && dedicated && q.lastSub }
  let q3 := { q2 with started := x.seq, lastSub := if l.isBound then !dedicated else q.lastSub }
  (k1.setQueue e q3).beginFlagWait e

/-- The descriptor of a stream that a started command read (R136). -/
def Started.desc (st : Started) (n : StReg) : Desc := ((st.descs.find? (·.1 = n)).map (·.2)).getD 0

/-- The slot that a started command reads on a stream. -/
def Started.head (st : Started) (n : StReg) : Half := ((st.heads.find? (·.st = n)).map (·.first)).getD 0

/-- The scratchpad offset of the slot that a started command reads on a stream. -/
def Started.headOff (st : Started) (n : StReg) : Nat := Desc.slotOff (st.desc n) (st.head n)

/-- The scratchpad offset of the slot that a started command has claimed on a stream. -/
def Started.claimOff (st : Started) (x : Cmd) (n : StReg) : Nat :=
  Desc.slotOff (st.desc n) (((x.claims.find? (·.st = n)).map (·.first)).getD 0)

/-! ### Slots read and written piece by piece (R195) -/

/-- A scratchpad run split at 32-byte sectors; `fuel` bounds the pieces. -/
def padRuns : Nat → Nat → Nat → List (Nat × Nat)
  | 0, _, _ => []
  | fuel + 1, o, n =>
    if n = 0 then []
    else
      let m := min n (32 - o % 32)
      (o, m) :: padRuns fuel (o + m) (n - m)

/-- Bytes that a command reads in its slots: those of sectors that it has read early stand in their places. -/
def Core.padRead (k : Core) (x : Cmd) (off n : Nat) : List Byte :=
  let now := rdBytes k.loc.scratch off n
  if x.fetched.isEmpty then now else patchBytes x.fetched (vaBytes (ownVa off) n) now

/-- Bytes that a command writes to its core's scratchpad, as pieces. -/
def padPieces (c : CoreId) (off : Nat) (bytes : List Byte) : List EngineWrite :=
  (padRuns bytes.length off bytes.length).map fun r =>
    .store ((vaBytes (ownVa r.1) r.2).zip (((List.range r.2).map fun i => ⟨.pad c (r.1 + i), .hc, none⟩).zip
      ((bytes.drop (r.1 - off)).take r.2)))

/-- Pieces of other cores' stores that reach a core's agents land in its scratchpad before a command of it reads or writes
there (R183, R192). -/
def State.meetPad (s : State) (c : CoreId) : State :=
  if s.cores.toList.any Core.reaches then
    let ag := (s.core c).agent c (.cluster .S)
    allCores.foldl (fun st d => st.settlePosted d (fun p => p.reachesTo d ag && p.bytes.any fun w => match w.1 with
      | .pad e _ => e == c
      | _ => false) noRaise []) s
  else s

/-! ### Quads -/

/-- The quad of a core. -/
def quadOf (c : CoreId) : Fin 64 := ⟨c.val / 4, by omega⟩

/-- A quad of the machine. -/
def State.quad (s : State) (q : Fin 64) : Quad := s.quads.get q

/-- The machine with a quad replaced. -/
def State.setQuad (s : State) (q : Fin 64) (x : Quad) : State := { s with quads := s.quads.set q.val x q.isLt }

/-- A bound command counts toward its core's lease (R258). -/
def State.countLease (s : State) (c : CoreId) (dedicated : Bool) : State :=
  let q := s.quad (quadOf c)
  if dedicated then s.setQuad (quadOf c) { q with started := q.started + 1 } else s

/-- The outlier ring of an MRET. -/
def Core.outlierRing (k : Core) (e : Engine) (w : Word) : List (Nat × Nat) :=
  if e = .mtx ∧ wordEop w = 2 ∧ w.getLsbD 10 then (((k.stream (wordSt w 14)).desc.map Desc.areas).getD []).take 1 else []

/-- The scratchpad bytes of a command that starts: the slots it reads and claims, its raw ranges and its outlier ring. -/
def Core.launchPads (k : Core) (e : Engine) (x : Cmd) (w : Word) (l : Launch) : List (Nat × Nat) :=
  let heads := l.heads.map fun h => (⟨h.1, k.headOf x h.1, h.2⟩ : SlotRun)
  let claims := if x.held then x.claims else l.claims.map fun r => ⟨r.1, (k.stream r.1).t, r.2⟩
  ((heads ++ claims).flatMap k.slotRanges ++ k.rawRanges e w).map (fun r => (r.lo, r.hi)) ++ k.outlierRing e w

/-- The stash check of a command that starts, on either binding (R157): where it stands among the command's checks is the
model's choice (DESIGN CHOICE, assumption entry 64). -/
def Core.stashCheck (k : Core) (e : Engine) (x : Cmd) (w : Word) (l : Launch) : Check :=
  if k.loc.stash.isEmpty then none
  else (k.stashConflict (k.launchPads e x w l)).map fun o => (.stashConflict, ownVa o)

/-- Before the ranges of a copy or gather command are recorded, the accesses of clusters to bytes of them that have been issued
and not performed are: later ones stall (R253; assumption entry 3). -/
def State.clearRanges (s : State) (c : CoreId) (l : List RawRange) : State :=
  if l.isEmpty then s
  else s.forceAt fun ps => ps.any fun
    | .pad d off => d == c && l.any fun r => decide (r.lo ≤ off ∧ off ≤ r.hi)
    | _ => false

/-- A command's checks, the determinism check last, and its start (R239, R254). -/
def State.tryStart (s : State) (c : CoreId) (e : Engine) (x : Cmd) (w : Word) (dedicated : Bool) (l : Launch) : Res :=
  let k := s.core c
  let front := k.startFront e x w l.heads
  match firstCheck [l.check, k.stashCheck e x w l] with
  | some (cause, va) => s.engineFault c e x.seq cause va
  | none =>
    match k.overlap x (k.rawRanges e w) front with
    | some o => s.engineFault c e x.seq .unorderedOverlap (ownVa o)
    | none =>
      let s0 := s.clearRanges c (k.startCmd e x w front dedicated l).scoreboard
      let s1 := s0.setCore c ((s0.core c).startCmd e x w front dedicated l)
      .next (if l.isBound && e == .mtx then s1.countLease c dedicated else s1)

/-- The event that starts the command next in a queue, when it is of the kind named and its WAIT condition holds; `m`
is given the command and its word. A word that no syllable could produce faults when it is the oldest that has not
retired (R241). Otherwise nothing happens. -/
def startEvent (core : Nat) (e : Engine) (kind : Word → Bool) (m : CoreId → Cmd → Word → State → Res) (s : State) :
    Res :=
  match coreOfNat core with
  | none => .next s
  | some c =>
    let s := s.meetPad c
    let k := s.core c
    match (k.queue e).nextCmd e with
    | none => .next s
    | some x =>
      let w := k.cmdWord e x.seq
      if s.dev.stopped || !s.mayRun c || x.faulted || !k.mayStart e x then .next s
      else if !wordOk e w then
        if (k.queue e).entries.head?.map (·.seq) = some x.seq then s.engineFault c e x.seq .engineCommand 0
        else .next s
      else if !kind w || !k.cmdReady x w then .next s
      else m c x w s

/-- The engine opcode of a command is one of a list. -/
def hasEop (l : List Nat) (w : Word) : Bool := l.contains (wordEop w)

/-! ### NOTIFY and GFENCE (R243, R244, R256) -/

/-- NOTIFY and GFENCE are carried out by the queue: they take no unit and report DEDICATED (R256, R267). -/
def startInternal (e : Engine) (c : CoreId) (x : Cmd) (w : Word) (s : State) : Res :=
  s.tryStart c e x w true ⟨none, [], [], [], 0, [], [], [], false⟩

/-- A GFENCE command starts (R243). -/
def execGfenceCommand (core : Nat) (eng : Engine) (s : State) : Res :=
  startEvent core eng (hasEop [14]) (startInternal eng) s

/-- A NOTIFY command starts (R244). -/
def execNotifyCommand (core : Nat) (eng : Engine) (s : State) : Res :=
  startEvent core eng (hasEop [15]) (startInternal eng) s

end Sys2Proof.Machine
end

