-- ==== Sys2Proof/Machine/Sluice.lean ====
section
/-!
DEFINITION. Binding by rank: the sluice of a quad's matrix array (R255 to R262, R334) and the units of copy, gather
and top-k commands (R263, R266).
-/

namespace Sys2Proof.Machine

/-! ### The sluice -/

/-- Bound commands: MMA, MRET and MZERO (R256). -/
def isBoundWord (w : Word) : Bool := hasEop [1, 2, 3] w

/-- The oldest unstarted bound command of the matrix queue. -/
def Core.firstBound (k : Core) : Option Cmd :=
  (k.queue .mtx).entries.find? fun x => x.started.isNone && isBoundWord (k.cmdWord .mtx x.seq)

/-- A matrix command of the core runs on the array. -/
def Core.onArray (k : Core) : Bool :=
  (k.queue .mtx).entries.any fun x =>
    (x.started.map (·.dedicated)).getD false && isBoundWord (k.cmdWord .mtx x.seq)

/-- The core is being drained for pre-emption (R334); in its trap handler it is not (R256). -/
def Core.draining (k : Core) : Bool := k.phase == .saving && !k.inHandler && (k.xfer.map (·.drain)).getD false && k.openRun

/-- The core's clusters and queues run: it has not stopped and is not in its handler. -/
def Core.runsFree (k : Core) : Bool := k.phase == .running && !k.inHandler

/-- The core requests the array (R256, R334). -/
def Core.requests (k : Core) : Bool :=
  match k.firstBound with
  | none => false
  | some x => k.draining || (k.runsFree && x.pref != .subst)

/-- The rank at which a core is arbitrated (R257). -/
def Core.arrayRank (k : Core) : Nat := if k.draining then 8 else k.rank

/-- The core of a position of a quad (R6). -/
def quadCore (q : Fin 64) (p : Fin 4) : CoreId := ⟨4 * q.val + p.val, by omega⟩

/-- The position of a core in its quad. -/
def posOf (c : CoreId) : Fin 4 := ⟨c.val % 4, by omega⟩

/-- The core with a matrix command still to start or on the array keeps its lease (R258), unless it has stopped or is
in its handler with nothing on the array, or is saved with no run to drain (DESIGN CHOICE, assumption entry 70). -/
def Core.keepsLease (k : Core) : Bool := k.onArray || (k.firstBound.isSome && (k.runsFree || k.draining))

/-- The keys of R257: rank, then a dedicated-preferred preference, then round-robin distance, smaller better. -/
def Core.arrayKey (k : Core) (distance : Nat) : Nat :=
  (k.arrayRank * 2 + (if (k.firstBound.map (·.pref)) = some .dpref then 1 else 0)) * 4 + (3 - distance)

/-- The position that a re-arbitration chooses (R257). -/
def State.arrayWinner (s : State) (q : Fin 64) : Option (Fin 4) :=
  let last := (s.quad q).last
  let key (p : Fin 4) : Nat := (s.core (quadCore q p)).arrayKey ((p.val + 3 - last.val) % 4)
  ((List.finRange 4).filter fun p => (s.core (quadCore q p)).requests).foldl (fun b p =>
    match b with
    | none => some p
    | some w => if key w < key p then some p else some w) none

/-- The other cores of a quad that request with a rank above the holder's (R259). -/
def State.outranking (s : State) (q : Fin 64) (h : Fin 4) : List (Fin 4) :=
  (List.finRange 4).filter fun p => p != h && (s.core (quadCore q p)).requests &&
    decide ((s.core (quadCore q h)).arrayRank < (s.core (quadCore q p)).arrayRank)

/-- A quad whose lease has ended where it ends without a retirement: a cut with nothing on the array, or a holder that
keeps none (R258, R259). -/
def State.endLease (s : State) (q : Fin 64) : Quad :=
  let x := s.quad q
  match x.holder with
  | none => x
  | some h =>
    let k := s.core (quadCore q h)
    let cut := x.cut ++ (s.outranking q h).filter fun p => !x.cut.contains p
    if (!cut.isEmpty && !k.onArray) || !k.keepsLease then { x with holder := none, started := 0, cut := [] }
    else { x with cut := cut }

/-- A re-arbitration of a quad (R257): the lease ends where it must, and goes to a requesting core when none holds
it. -/
def State.rearbitrate (s : State) (q : Fin 64) : State :=
  let x := s.endLease q
  match x.holder, s.arrayWinner q with
  | none, some p => s.setQuad q { holder := some p, started := 0, cut := [], last := p }
  | _, _ => s.setQuad q x

/-- A quad in which a lease is held or requested. -/
def State.arrayBusy (s : State) (q : Fin 64) : Bool :=
  (s.quad q).holder.isSome || (List.finRange 4).any fun p => (s.core (quadCore q p)).requests

/-- Every quad's arbitration, as it takes place in every cycle (R257, R259). -/
def State.arbitrate (s : State) : State :=
  (List.finRange 64).foldl (fun st q => if st.arrayBusy q then st.rearbitrate q else st) s

/-- LEASE_REARBITRATION (R257 to R259). -/
def execLeaseRearbitration (quad : Nat) (s : State) : Res :=
  if h : quad < 64 then .next (s.rearbitrate ⟨quad, h⟩) else .next s

/-! ### Binding -/

/-- How a command that is ready is bound (R260, R263). -/
inductive Binding where
  | dedicated | substitute | waits
  deriving DecidableEq, Repr

/-- The binding of a bound command that is ready (R260, R334). -/
def State.bindArray (s : State) (c : CoreId) (x : Cmd) : Binding :=
  let k := s.core c
  if x.pref == .subst && !k.draining then .substitute
  else
    match (s.quad (quadOf c)).holder with
    | none => .waits
    | some h =>
      let o := s.core (quadCore (quadOf c) h)
      if h = posOf c then (if (s.quad (quadOf c)).cut.isEmpty then .dedicated else .waits)
      else if (s.quad (quadOf c)).cut.contains (posOf c) || o.arrayRank < k.arrayRank || (x.pref == .dpref && k.arrayRank == o.arrayRank) ||
          (k.draining && o.draining) then .waits
      else .substitute

/-- The binding of a copy or gather command (R263). -/
def bindUnit (x : Cmd) : Binding := if x.pref == .subst then .substitute else .dedicated

/-- A bound command retires: the sixteenth of a lease, an MRET or an MZERO ends it (R258). -/
def State.lapse (s : State) (c : CoreId) (dedicated : Bool) (w : Word) : State :=
  let q := s.quad (quadOf c)
  if dedicated && q.holder == some (posOf c) && (hasEop [2, 3] w || decide (16 ≤ q.started)) then
    s.setQuad (quadOf c) { q with holder := none, started := 0, cut := [] }
  else s

/-- A command starts with the binding that it is given, or waits. -/
def startBound (b : Binding) (m : Bool → Res) (s : State) : Res :=
  match b with
  | .waits => .next s
  | .dedicated => m true
  | .substitute => m false

end Sys2Proof.Machine
end

