-- ==== Sys2Proof/Machine/Matrix.lean ====
section
/-!
DEFINITION. The matrix engine: MMA, MRET and MZERO at their starts and at their retirements (R75 to R79, R131, R137 to
R144, R150).
-/

namespace Sys2Proof.Machine

/-! ### What engines share: scratchpad bytes, scales, tables -/

/-- The first poisoned byte of scratchpad runs, offset and length, in order (R330). -/
def State.poisonIn (s : State) (c : CoreId) : List (Nat × Nat) → Option Nat
  | [] => none
  | (o, n) :: l =>
    match (List.range (n / 32 + 2)).find? fun i =>
        decide (o / 32 * 32 + 32 * i < o + n) && sget false s.padPoison (65536 * c.val + o / 32 + i) with
    | some i => some (max o (o / 32 * 32 + 32 * i))
    | none => s.poisonIn c l

/-- A command's read of poisoned scratchpad bytes faults (R330). -/
def State.poisonCheck (s : State) (c : CoreId) (l : List (Nat × Nat)) : Check :=
  (s.poisonIn c l).map fun o => (.sramUncorrectable, ownVa o)

/-- A command as an agent. -/
def State.engineAgent (s : State) (c : CoreId) (e : Engine) : Agent := (s.core c).agent c (.engine e)

/-- Bytes written to a core's scratchpad by a command: poison is cleared or reported (R330). -/
def State.padWrite (s : State) (c : CoreId) (e : Engine) (off : Nat) (bytes : List Byte) : State :=
  let ag := s.engineAgent c e
  let ps := (List.range bytes.length).map fun i => Place.pad c (off + i)
  let s1 := (s.beforeWrite ag ps).writePoison ag ((vaBytes (ownVa off) bytes.length).zip (ps.map fun p => ⟨p, .hc, none⟩))
  let k := s1.core c
  s1.setCore c { k with loc := { k.loc with scratch := wrBytes k.loc.scratch off bytes } }

/-- Runs of the scratchpad written by a command, each whole. -/
def State.padWrites (s : State) (c : CoreId) (e : Engine) (l : List (Nat × List Byte)) : State :=
  l.foldl (fun st r => st.padWrite c e r.1 r.2) s

/-- A sparse table of the values of a function below a bound. -/
def sparseOf {α : Type} [DecidableEq α] (d : α) (n : Nat) (f : Nat → α) : Sparse α :=
  (List.range n).filterMap fun i => if f i = d then none else some (i, f i)

/-- The entries of a sparse table below a bound, spread over an array. -/
def spread {α : Type} (d : α) (n : Nat) (m : Sparse α) : Array α :=
  m.foldl (fun a e => a.setIfInBounds e.1 e.2) (Array.replicate n d)

/-- The scratchpad run that holds the scales of a stream, at a slot (R133). -/
def Desc.scaleRun (d : Desc) (slot : Nat) : List (Nat × Nat) :=
  let n := (Desc.cols d - 1) * Desc.scaleStride d + 1
  if Desc.placement d = 1 then [(slot + Desc.scaleOff d, n)]
  else if Desc.placement d = 2 then [(Desc.scaleOff d, n)]
  else []

/-- The scales of a stream at a slot: 127 each when none are stored (R133). -/
def Desc.scales (d : Desc) (m : Memory) (slot : Nat) : List Byte :=
  match Desc.scaleRun d slot with
  | (o, n) :: _ =>
    let raw := (rdBytes m o n).toArray
    (List.range (Desc.cols d)).map fun j => raw.getD (j * Desc.scaleStride d) 0
  | [] => List.replicate (Desc.cols d) 127

/-- A list of scales as a table. -/
def scaleTable (l : List Byte) : Sparse Byte :=
  (enumFrom0 l).filterMap fun x => if x.2 = 0 then none else some x

/-- The RN8 or RN4 elements of a tile of bytes, widened (R75). -/
def rnTile (bytes : List Byte) (format count : Nat) : Array Int :=
  let raw := bytes.toArray
  let one (i : Nat) : Int :=
    if format = fmtRn4 then
      BitVec.toInt (BitVec.ofNat 4 ((raw.getD (i / 2) 0).toNat / (if i % 2 = 1 then 16 else 1)))
    else (raw.getD i 0).toInt
  ((List.range count).map one).toArray

/-! ### Roles (R137) -/

/-- The bytes of a tile of RN elements; another format fails by its format (R137). -/
def rnBytes (elems format : Nat) : Nat :=
  if format = fmtRn8 then elems else if format = fmtRn4 then elems / 2 else 0

/-- MMA's A operand. -/
def roleA (format : Nat) : Role := ⟨rnBytes 16384 format, [fmtRn8, fmtRn4], some 128, some 128, [0, 1, 2], false, none⟩

/-- MMA's B operand. -/
def roleB (format : Nat) : Role := ⟨rnBytes 32768 format, [fmtRn8, fmtRn4], some 128, some 256, [0, 1, 2], false, none⟩

/-- MRET's destination. -/
def roleD (format : Nat) : Role :=
  ⟨16384 * halfBytes format,
    [ElemType.f32.code, ElemType.f16.code, ElemType.bf16.code, fmtRn8, fmtRn4, ElemType.i32.code],
    some 128, some 256, [0, 1, 2], false, none⟩

/-- MRET's outlier list. -/
def roleO : Role := ⟨256, [ElemType.f32.code], none, none, [0], true, none⟩

/-- The check of a stream of a core in a role that depends on its format. -/
def Core.checkRole (k : Core) (st : StReg) (r : Nat → Role) : Check :=
  roleCheck (k.stream st).desc (r (((k.stream st).desc.map Desc.format).getD 0))

/-! ### Accumulators -/

/-- An accumulator of a core. -/
def Core.acc (k : Core) (n : Nat) : Acc := tget Acc.reset k.eng.accs n

/-- A core with an accumulator replaced. -/
def Core.setAcc (k : Core) (n : Nat) (a : Acc) : Core := { k with eng := { k.eng with accs := tset k.eng.accs n a } }

/-- The accumulator a matrix command names (R139). -/
def wordAcc (w : Word) : Nat := wordField w 11 3

/-- The operands of an MMA: the streams of A and B. -/
def mmaA (w : Word) : StReg := wordSt w 19
/-- The stream of B. -/
def mmaB (w : Word) : StReg := wordSt w 14

/-! ### MMA (R140) -/

/-- An MMA is ready: each operand ring has an available slot, or fails its role. One whose stream fails waits all the same
while the other ring is sound and empty (DEDUCED, assumption entry 61; R140). -/
def Core.mmaReady (k : Core) (w : Word) : Bool :=
  readyUnless (k.checkRole (mmaA w) roleA) (decide (1 ≤ k.available (mmaA w))) &&
    readyUnless (k.checkRole (mmaB w) roleB) (decide (1 ≤ k.available (mmaB w)))

/-- The checks 3 to 5 of R140. -/
def runCheck (a : Acc) (z : Bool) (rows cols : Sparse Byte) : Check :=
  if z == a.isOpen then some (.accumulatorState, 0)
  else if !z && decide (64 ≤ a.steps) then some (.runDepth, 0)
  else failIf (!z && (rows != a.rowScale || cols != a.colScale)) .scaleMismatch

/-- What an MMA does at its start (R140). -/
def State.mmaLaunch (s : State) (c : CoreId) (x : Cmd) (w : Word) : Launch :=
  let k := s.core c
  let da := (k.stream (mmaA w)).desc.getD 0
  let db := (k.stream (mmaB w)).desc.getD 0
  let oa := Desc.slotOff da (k.headOf x (mmaA w))
  let ob := Desc.slotOff db (k.headOf x (mmaB w))
  let sa := Desc.scales da k.loc.scratch oa
  let sb := Desc.scales db k.loc.scratch ob
  let rows := scaleTable sa
  let cols := scaleTable sb
  let roles := firstCheck [k.checkRole (mmaA w) roleA, k.checkRole (mmaB w) roleB]
  let rest := firstCheck
    [s.poisonCheck c ((oa, Desc.tileBytes da) :: Desc.scaleRun da oa ++ (ob, Desc.tileBytes db) :: Desc.scaleRun db ob),
     failIf (sa.contains 255 || sb.contains 255) .streamFormat,
     runCheck (k.acc (wordAcc w)) (w.getLsbD 10) rows cols]
  { check := if roles.isSome then roles else rest
    claims := []
    reserves := (if w.getLsbD 9 then [(mmaA w, 1)] else []) ++ (if w.getLsbD 8 then [(mmaB w, 1)] else [])
    heads := [(mmaA w, 1), (mmaB w, 1)]
    walk := 0
    rowScale := rows
    colScale := cols
    board := []
    isBound := true }

/-- One word of the accumulator after an MMA. -/
def mmaWord (a b : Array Nat) (t0 : Nat) (r n : Nat) : Nat :=
  (List.range 128).foldl (fun t j => rwAdd t (rwMul (a.getD (128 * r + j) 0) (b.getD (256 * j + n) 0))) t0

/-- The words of an accumulator after an MMA (R140). -/
def mmaWords (z : Bool) (old : Sparse (BitVec 32)) (a b : Array Int) : Sparse (BitVec 32) :=
  let ea := a.map rwEnc
  let eb := b.map rwEnc
  let t := spread 0 32768 old
  sparseOf 0 32768 fun i =>
    BitVec.ofNat 32 (mmaWord ea eb (if z then rwEnc 0 else (t.getD i 0).toNat) (i / 256) (i % 256))

/-- An operand of an MMA, of a number of elements, in the slot that it reads. -/
def Core.mmaOperand (k : Core) (x : Cmd) (st : Started) (n : StReg) (count : Nat) : Array Int :=
  let format := Desc.format (st.desc n)
  rnTile (k.padRead x (st.headOff n) (count * halfBytes format / 2)) format count

/-- What an MMA computes (R140). -/
def Core.mmaDone (k : Core) (x : Cmd) (w : Word) (st : Started) : Core :=
  let a := k.mmaOperand x st (mmaA w) 16384
  let b := k.mmaOperand x st (mmaB w) 32768
  let t := k.acc (wordAcc w)
  let z := w.getLsbD 10
  k.setAcc (wordAcc w)
    { isOpen := true
      steps := if z then 1 else t.steps + 1
      rowScale := if z then st.rowScale else t.rowScale
      colScale := if z then st.colScale else t.colScale
      words := mmaWords z t.words a b }

/-! ### MRET (R141 to R143) -/

/-- The destination stream of an MRET. -/
def mretD (w : Word) : StReg := wordSt w 19
/-- The outlier list of an MRET. -/
def mretO (w : Word) : StReg := wordSt w 14
/-- OE: an outlier list is named. -/
def mretOe (w : Word) : Bool := w.getLsbD 10

/-- An MRET is ready: its destination has a free slot, or fails its role. -/
def Core.mretReady (k : Core) (w : Word) : Bool :=
  readyUnless (k.checkRole (mretD w) roleD)
    (decide (1 ≤ (k.stream (mretD w)).free ((k.stream (mretD w)).desc.getD 0)))

/-- The destination format has output scales (R77). -/
def isRn (format : Nat) : Bool := format == fmtRn8 || format == fmtRn4

/-- What an MRET does at its start (R141). The poison of its output scales is looked for after check 3, before check 4 (DESIGN
CHOICE, assumption entry 67). -/
def State.mretLaunch (s : State) (c : CoreId) (w : Word) : Launch :=
  let k := s.core c
  let x := k.stream (mretD w)
  let d := x.desc.getD 0
  let o := Desc.slotOff d x.t
  let eo := if isRn (Desc.format d) then Desc.scales d k.loc.scratch o else []
  let role := k.checkRole (mretD w) roleD
  let badO := mretOe w && (mretO w == mretD w || (roleCheck (k.stream (mretO w)).desc roleO).isSome)
  let rest := firstCheck
    [failIf badO .outlierStream,
     failIf (!(k.acc (wordAcc w)).isOpen) .accumulatorState,
     s.poisonCheck c (if isRn (Desc.format d) then Desc.scaleRun d o else []),
     failIf (eo.contains 255) .streamFormat]
  { check := if role.isSome then role else rest
    claims := [(mretD w, 1)]
    reserves := []
    heads := []
    walk := 0
    rowScale := []
    colScale := scaleTable eo
    board := []
    isBound := true }

/-- The exact value x of an element (R77): v × 2^(ea + eb − 254) × xs. -/
def retValue (v : Int) (ea eb : Nat) (xs : Nat) : Int × Nat :=
  let f := Fp.frac (fmtF32.value xs)
  let e : Int := (ea : Int) + eb - 254
  if 0 ≤ e then (v * f.1 * 2 ^ e.toNat, f.2) else (v * f.1, f.2 * 2 ^ (-e).toNat)

/-- q of R77: the nearest integer to x × 2^(127 − eo), ties to even. -/
def retQuotient (x : Int × Nat) (eo : Nat) : Int :=
  if x.1 = 0 then 0
  else
    let n := x.1.natAbs
    (rintFrac .rne (decide (x.1 < 0)) (if eo ≤ 127 then n * 2 ^ (127 - eo) else n)
      (if eo ≤ 127 then x.2 else x.2 * 2 ^ (eo - 127))).1

/-- A float result and whether it is infinite. A result for an x of 0 is +0, whatever the signs of the factors (DESIGN CHOICE,
assumption entry 65; R67, R77). -/
def retFloat (f : Fmt) (x : Int × Nat) : Nat × Bool :=
  let y := (roundInt f .rne false x.1 x.2).bits
  (y, y % f.signBit == f.inf)

/-- The result of an element and whether it is an outlier (R77). -/
def retElem (format : Nat) (v : Int) (x : Int × Nat) (eo : Nat) : Nat × Bool :=
  if format = ElemType.i32.code then (lowBits 32 v, false)
  else if format = ElemType.f32.code then ((retFloat fmtF32 x).1, false)
  else if format = ElemType.f16.code then retFloat fmtF16 x
  else if format = ElemType.bf16.code then retFloat fmtBF16 x
  else if format = fmtRn8 then (lowBits 8 (retQuotient x eo), decide (127 < (retQuotient x eo).natAbs))
  else (lowBits 4 (retQuotient x eo), decide (7 < (retQuotient x eo).natAbs))

/-- The clamp path's element (R78): +b or −b. -/
def clampElem (format b : Nat) (neg : Bool) : Nat :=
  if format = fmtRn8 then lowBits 8 (if neg then -(b : Int) else b)
  else if format = fmtRn4 then lowBits 4 (if neg then -(b : Int) else b)
  else b % 2 ^ 15 + (if neg then 2 ^ 15 else 0)

/-- What an MRET has written so far: its elements, last first; its outlier records, last first; counts. -/
structure RetState where
  elems   : List Nat
  entries : List (List Byte)
  records : Nat
  clamps  : Nat

/-- What an MRET reads of its destination and outlier streams. -/
structure RetEnv where
  format : Nat
  xscale : Nat
  clamp  : Nat
  row0   : Nat
  col0   : Nat
  tag    : Nat
  limit  : Nat
  ea     : Array Byte
  eb     : Array Byte
  eo     : Array Byte

/-- One element retired (R141). -/
def retStep (e : RetEnv) (words : Array (BitVec 32)) (t : RetState) (i : Nat) : RetState :=
  let v := rwDec (words.getD i 0).toNat
  let n := i % 256
  let x := retValue v (e.ea.getD (i / 256) 0).toNat (e.eb.getD n 0).toNat e.xscale
  let y := retElem e.format v x (e.eo.getD n 0).toNat
  if !y.2 then { t with elems := y.1 :: t.elems }
  else if t.records < e.limit then
    let rec_ := leBytes 4 (e.row0 + i / 256) ++ leBytes 4 (e.col0 + n) ++
      leBytes 4 (roundInt fmtF32 .rne false x.1 x.2).bits ++ leBytes 4 e.tag
    { t with elems := 0 :: t.elems, entries := rec_ :: t.entries, records := t.records + 1 }
  else { t with elems := clampElem e.format e.clamp (decide (x.1 < 0)) :: t.elems, clamps := t.clamps + 1 }

/-- Four-bit elements as bytes, two to a byte, the first in the low half. -/
def pairBytes : List Nat → List Byte
  | [] => []
  | [a] => [BitVec.ofNat 8 a]
  | a :: b :: l => BitVec.ofNat 8 (a + 16 * b) :: pairBytes l

/-- Elements as the bytes of a tile (R75, R137). -/
def tileOut (format : Nat) (l : List Nat) : List Byte :=
  if format = fmtRn4 then pairBytes l else l.flatMap (leBytes (halfBytes format / 2))

/-- The entries of an outlier slot (R142). -/
def Desc.entriesPerSlot (d : Desc) : Nat := Desc.units d * 16

/-- The offset of entry `e` of an outlier list (R142). -/
def Desc.entryAt (d : Desc) (e : Nat) : Nat :=
  Desc.slotOff d (BitVec.ofNat 32 (e / Desc.entriesPerSlot d)) + e % Desc.entriesPerSlot d * 16

/-- Slots that an MRET has begun, from its first record count to its last (R142). -/
def outSlots (per first last : Nat) : Nat := if last = first then 0 else (last + per - 1) / per - first / per

/-- What an MRET reads when it computes. -/
def Core.retEnv (k : Core) (x : Cmd) (w : Word) (st : Started) : RetEnv :=
  let d := st.desc (mretD w)
  let o := st.desc (mretO w)
  let t := k.acc (wordAcc w)
  let q := ((x.claims.find? (·.st = mretD w)).map (·.first)).getD 0
  { format := Desc.format d
    xscale := Desc.xscale d
    clamp := Desc.clamp d
    row0 := q.toNat / Desc.across d * 128
    col0 := q.toNat % Desc.across d * 256
    tag := wordAcc w * 2 ^ 29 + x.seq.toNat % 2 ^ 29
    limit := if mretOe w then Desc.outcap o * Desc.entriesPerSlot o else 0
    ea := spread 0 128 t.rowScale
    eb := spread 0 256 t.colScale
    eo := spread 0 256 st.colScale }

/-- What an MRET computes, element by element in row-major order (R141). -/
def Core.retAll (k : Core) (x : Cmd) (w : Word) (st : Started) : RetState :=
  let e := k.retEnv x w st
  let words := spread 0 32768 (k.acc (wordAcc w)).words
  (List.range 32768).foldl (retStep e words)
    ⟨[], [], if mretOe w then (k.stream (mretO w)).records.toNat else 0, 0⟩

/-- The outlier records of an MRET and the filler behind them, each with its scratchpad offset (R142). -/
def Core.outlierWrites (k : Core) (w : Word) (st : Started) (t : RetState) : List (Nat × List Byte) :=
  let o := st.desc (mretO w)
  let per := Desc.entriesPerSlot o
  if t.entries.isEmpty then []
  else
    let all := t.entries.reverse ++ List.replicate ((t.records + per - 1) / per * per - t.records) (List.replicate 16 255)
    (enumFrom0 all).map fun e => (Desc.entryAt o ((k.stream (mretO w)).records.toNat + e.1), e.2)

/-- What an MRET writes: runs of the scratchpad, each with its bytes (R141, R142). -/
def Core.mretWrites (k : Core) (x : Cmd) (w : Word) (st : Started) (t : RetState) : List (Nat × List Byte) :=
  (st.claimOff x (mretD w), tileOut (Desc.format (st.desc (mretD w))) t.elems.reverse) ::
    if mretOe w then k.outlierWrites w st t else []

/-- The slots of the outlier list that an MRET publishes, and the list's record count (R142). -/
def Core.countOutliers (k : Core) (x : Cmd) (w : Word) (st : Started) (t : RetState) (front : Front) : Core :=
  let y := k.stream (mretO w)
  let per := Desc.entriesPerSlot (st.desc (mretO w))
  let n := outSlots per y.records.toNat t.records
  if t.entries.isEmpty then k
  else
    let z := y.claim n (some ⟨.mtx, x.seq⟩) front
    let k1 := k.setStream (mretO w)
      (Stream.publCmd { z with records := BitVec.ofNat 32 ((t.records + per - 1) / per * per) } ⟨.mtx, x.seq⟩)
    k1.setQueue .mtx ((k1.queue .mtx).mapHist x.seq fun h => { h with runs := h.runs ++ [⟨mretO w, y.t, n⟩] })

/-- The counts of an MRET that has written its results: the outlier list, the clamp count, and the accumulator idle, of which
nothing is kept (R132, R141). -/
def Core.mretCounts (k : Core) (x : Cmd) (w : Word) (st : Started) (t : RetState) : Core :=
  let k1 := if mretOe w then k.countOutliers x w st t (k.frontOf ⟨.mtx, x.seq⟩) else k
  let y := k1.stream (mretD w)
  (k1.setStream (mretD w) { y with clamps := BitVec.ofNat 32 (min (y.clamps.toNat + t.clamps) 0xFFFFFFFF) }).setAcc
    (wordAcc w) Acc.reset

/-! ### MZERO (R144) -/

/-- MZERO's effect: idle, every word rw.enc(0). -/
def Core.mzeroDone (k : Core) (w : Word) : Core := k.setAcc (wordAcc w) Acc.reset

/-! ### The start events -/

/-- An MRET or MZERO that a drain starts is the drain's last command (R334). -/
def State.lastOfDrain (s : State) (c : CoreId) (w : Word) : State :=
  let k := s.core c
  if k.phase = .saving ∧ hasEop [2, 3] w then
    s.setCore c { k with xfer := k.xfer.map fun x => { x with drain := false } }
  else s

/-- A bound command starts with its binding, and counts toward the lease (R258, R260). -/
def startOnArray (c : CoreId) (x : Cmd) (w : Word) (l : Launch) (s : State) : Res :=
  startBound (s.bindArray c x) (fun ded =>
    match s.tryStart c .mtx x w ded l with
    | .next t => .next (t.lastOfDrain c w)
    | r => r) s

/-- MMA starts (R140). -/
def execMmaCommand (core : Nat) (s : State) : Res :=
  startEvent core .mtx (hasEop [1]) (fun c x w s =>
    if (s.core c).mmaReady w then startOnArray c x w (s.mmaLaunch c x w) s else .next s) s

/-- MRET starts (R141). -/
def execMretCommand (core : Nat) (s : State) : Res :=
  startEvent core .mtx (hasEop [2]) (fun c x w s =>
    if (s.core c).mretReady w then startOnArray c x w (s.mretLaunch c w) s else .next s) s

/-- MZERO starts (R144). -/
def execMzeroCommand (core : Nat) (s : State) : Res :=
  startEvent core .mtx (hasEop [3]) (fun c x w s =>
    startOnArray c x w ⟨none, [], [], [], 0, [], [], [], true⟩ s) s

end Sys2Proof.Machine
end

