-- ==== Sys2Proof/Machine/Copy.lean ====
section
/-!
DEFINITION. The copy engine: CPIN, CPSTR, CPOUT and CPRED at their starts, and the tiles that they move (R246 to R253).
-/

namespace Sys2Proof.Machine

/-! ### Operands and checks -/

/-- The stream of a copy command. -/
def copyS (w : Word) : StReg := wordSt w 19
/-- The completion stream of a copy command, when CE is set. -/
def copyC (w : Word) : Option StReg := if w.getLsbD 13 then some (wordSt w 14) else none
/-- The operation of a CPRED. -/
def copyOp (w : Word) : RedOp := (RedOp.ofCode (wordField w 6 3)).getD .addI32

/-- Copy and gather commands of the core in flight (R253). -/
def Core.inFlight (k : Core) : Nat :=
  ([Engine.cin, .cout, .gth].map fun e =>
    ((k.queue e).running.filter fun x => !hasEop [14, 15] (k.cmdWord e x.seq)).length).sum

/-- The check of a source stream: set, OUT clear (R248). -/
def Core.sourceCheck (k : Core) (st : StReg) : Check :=
  failIf (((k.stream st).desc.map Desc.isOut).getD true) .ringDescriptor

/-- The check of a completion stream: set, OUT clear, none of the command's other streams (R246). -/
def Core.completionCheck (k : Core) (c : Option StReg) (others : List StReg) : Check :=
  match c with
  | none => none
  | some st => failIf (((k.stream st).desc.map Desc.isOut).getD true || others.contains st) .ringDescriptor

/-- A completion stream has a free slot, or fails its check (R246). -/
def Core.completionReady (k : Core) (c : Option StReg) (others : List StReg) : Bool :=
  match c with
  | none => true
  | some st => readyUnless (k.completionCheck c others)
      (decide (1 ≤ (k.stream st).free ((k.stream st).desc.getD 0)))

/-- The second check of R248; `form` is the engine opcode with the queue. -/
def Desc.badCopy (d : Desc) (e : Engine) (w : Word) : Bool :=
  let n := copyTiles w
  Desc.tiles d == 0 || (Desc.format d == fmtRn4 && Desc.cols d % 2 == 1) ||
    decide (Desc.slotBytes d < Desc.tileBytes d) || decide (1048576 < n * Desc.tileBytes d) ||
    (e == .cin && wordEop w == 2 && decide (Desc.slots d < n)) ||
    (e == .cin && wordEop w == 1 && Desc.scaleInTile d (Desc.tileBytes d))

/-- The format that a CPRED operation works on (R248, R250). -/
def redFormat : RedOp → ElemType
  | .addI32 => .i32
  | .addBf16 => .bf16
  | _ => .f32

/-- The command is a CPRED. -/
def isCpred (e : Engine) (w : Word) : Bool := e == .cout && wordEop w == 2

/-- Bytes that a copy command moves, by its stream's descriptor. -/
def copyBytes (d : Desc) (w : Word) : Nat := copyTiles w * Desc.tileBytes d

/-- The core's outbound side has room for a command (R248); a command that exceeds it alone starts, and faults at the
size check. -/
def Core.outboundRoom (k : Core) (w : Word) : Bool :=
  let b := copyBytes ((k.stream (copyS w)).desc.getD 0) w
  let moves (x : Cmd) : Nat :=
    let y := k.cmdWord .cout x.seq
    if hasEop [1, 2] y then ((x.started).map fun st => copyBytes (st.desc (copyS y)) y).getD 0 else 0
  let busy := ((k.queue .cout).entries.map moves).sum
  decide (Config.outboundBytes < b) || decide (busy + b ≤ Config.outboundBytes)

/-- A copy command is ready (R246, R248, R253). -/
def Core.copyReady (k : Core) (e : Engine) (x : Cmd) (w : Word) : Bool :=
  let st := copyS w
  let y := k.stream st
  let n := copyTiles w
  let slots :=
    if e = .cout then decide (n ≤ k.available st) && k.outboundRoom w
    else wordEop w == 2 || decide (n ≤ y.free (y.desc.getD 0))
  decide (k.inFlight < Config.scoreboardEntries) &&
    (x.held || (k.completionReady (copyC w) [st] && readyUnless (k.sourceCheck st) slots))

/-- Tiles of earlier copy commands of a stream that have started and not retired (R249). -/
def Core.tilesBefore (k : Core) (st : StReg) : Nat :=
  ([Engine.cin, .cout].flatMap fun e => ((k.queue e).running).filterMap fun x =>
    let w := k.cmdWord e x.seq
    if hasEop [1, 2] w && copyS w == st then some (copyTiles w) else none).sum

/-- The first count of the slots that a copy command uses: held claims, those it would claim, or its head. -/
def Core.copyFirst (k : Core) (e : Engine) (x : Cmd) (st : StReg) : Half :=
  if e = .cout then k.headOf x st
  else match x.claims.find? (·.st = st) with
    | some r => r.first
    | none => (k.stream st).t

/-- What a copy command does at its start (R248, R249). -/
def State.copyLaunch (s : State) (c : CoreId) (e : Engine) (w : Word) : Launch :=
  let k := s.core c
  let st := copyS w
  let d := (k.stream st).desc.getD 0
  let n := copyTiles w
  let first := firstCheck [k.sourceCheck st, k.completionCheck (copyC w) [st]]
  let rest := firstCheck
    [failIf (Desc.badCopy d e w) .streamFormat,
     failIf (isCpred e w && k.isPure) .pureInstruction,
     failIf (isCpred e w && Desc.format d != (redFormat (copyOp w)).code) .streamFormat]
  let comp := (copyC w).toList.map fun c => (c, 1)
  { check := if first.isSome then first else rest
    claims := (if e = .cin ∧ wordEop w = 1 then [(st, n)] else []) ++ comp
    reserves := if e = .cout then [(st, n)] else []
    heads := if e = .cout then [(st, n)] else []
    walk := Desc.pos d + k.tilesBefore st
    rowScale := []
    colScale := []
    board := if e = .cin ∧ wordEop w = 2 then [Desc.rawArea d n] else []
    isBound := true }

/-- A copy or gather command starts on its unit (R263). -/
def startOnUnit (c : CoreId) (e : Engine) (x : Cmd) (w : Word) (l : Launch) (s : State) : Res :=
  startBound (bindUnit x) (fun ded => s.tryStart c e x w ded l) s

/-- The start of a copy command. -/
def startCopy (core : Nat) (e : Engine) (eop : Nat) (s : State) : Res :=
  startEvent core e (hasEop [eop]) (fun c x w s =>
    if (s.core c).copyReady e x w then startOnUnit c e x w (s.copyLaunch c e w) s else .next s) s

/-- CPIN starts (R248). -/
def execCpinCommand (core : Nat) (s : State) : Res := startCopy core .cin 1 s
/-- CPSTR starts (R248). -/
def execCpstrCommand (core : Nat) (s : State) : Res := startCopy core .cin 2 s
/-- CPOUT starts (R248). -/
def execCpoutCommand (core : Nat) (s : State) : Res := startCopy core .cout 1 s
/-- CPRED starts (R248). -/
def execCpredCommand (core : Nat) (s : State) : Res := startCopy core .cout 2 s

/-! ### Accesses of engine commands -/

/-- The cause that a command reports for an access that fails (R251). -/
def copyCause : Cause → Cause
  | .pureRead => .pureRead
  | .pureWrite => .pureWrite
  | .sramUncorrectable => .copyMemoryError
  | .hbmUncorrectable => .copyMemoryError
  | .linkError => .copyMemoryError
  | .peerTimeout => .copyMemoryError
  | _ => .copyXlate

/-- How a part of a command's work ends: done, with the lowest watched byte; a fault; bytes of a peer awaited; or a
device byte that the manual does not give. -/
inductive Piece where
  | ok (s : State) (hit : Option Word)
  | stop (cause : Cause) (va : Word)
  | await (runs : List PeerRun)
  | hole (pa : Nat)

/-- Bytes that an engine command reads, and the lowest watched one; or why it has none. -/
inductive Got where
  | bytes (s : State) (l : List Byte) (hit : Option Word)
  | none (p : Piece)

/-- A failed access as a command reports it. -/
def enginePiece : AccErr → Piece
  | .fault cause va => .stop (copyCause cause) va
  | .hole pa => .hole pa

/-- A command goes on with peers' answers to the runs of a read (R368). -/
def Cmd.await (x : Cmd) (runs : List PeerRun) (got : Got) : Got :=
  match answersTo x.fetched x.failed runs with
  | .failed e => .none (enginePiece e)
  | .all => got
  | .missing l => .none (.await l)

/-- A read of an engine command (R195, R251, R368): bytes that it has read early, and those that a peer has sent, stand in
their places. -/
def State.engineRead (s : State) (c : CoreId) (e : Engine) (x : Cmd) (vas : List Word) : Got :=
  let ag := s.engineAgent c e
  match s.load ag .any .normal vas with
  | .err r => .none (enginePiece r)
  | .wait _ => .none (.await [])
  | .behind runs r => x.await runs (.none (enginePiece r))
  | .ok s1 bytes runs => x.await runs (.bytes s1 (patchBytes x.fetched vas bytes) (s.watchedByte ag .read vas))

/-- A read of an engine command that only what it has read early answers; otherwise it awaits the first address that it has
not read. -/
def earlyRead (x : Cmd) (s : State) (vas : List Word) : Got :=
  match vas.find? fun a => (sget none x.fetched a.toNat).isNone with
  | none => .bytes s (patchBytes x.fetched vas (vas.map fun _ => 0)) none
  | some a => .none (.await [⟨0, a, [0], []⟩])

/-- The watched bytes of a command's own scratchpad range. -/
def State.padWatch (s : State) (c : CoreId) (e : Engine) (kind : AccKind) (off n : Nat) : Option Word :=
  s.watchedByte (s.engineAgent c e) kind (vaBytes (ownVa off) n)

/-! ### One row and one tile (R249, R250) -/

/-- Bytes of a tile row. -/
def Desc.rowBytes (d : Desc) : Nat := Desc.cols d * halfBytes (Desc.format d) / 2

/-- The address of tile `p` of a walk (R133). -/
def Desc.tileVa (d : Desc) (p : Nat) : Word :=
  Desc.base d + BitVec.ofNat 64 (p / Desc.across d * Desc.rows d * Desc.rowStride d +
    p % Desc.across d * Desc.tileStride d)

/-- The rows of a tile: global address and scratchpad offset. -/
def Desc.tileRows (d : Desc) (g : Word) (o : Nat) : List (Word × Nat) :=
  (List.range (Desc.rows d)).map fun r =>
    (g + BitVec.ofNat 64 (r * Desc.rowStride d), o + r * Desc.rowBytes d)

/-- A run split where its global address crosses a 32-byte sector; `fuel` bounds the pieces. -/
def sectorRuns : Nat → Word × Nat → Nat → List ((Word × Nat) × Nat)
  | 0, _, _ => []
  | fuel + 1, r, n =>
    if n = 0 then []
    else
      let m := min n (32 - r.1.toNat % 32)
      (r, m) :: sectorRuns fuel (r.1 + BitVec.ofNat 64 m, r.2 + m) (n - m)

/-- The new value of an element of global memory (R250). -/
def redValue (op : RedOp) (old x : Nat) : Nat :=
  match op with
  | .addI32 => (old + x) % 2 ^ 32
  | .addF32 => addF32 old x
  | .addBf16 => (fpAdd fmtBF16 .rne old x).bits
  | .maxF32 => (minMaxBits fmtF32 true old x).bits
  | .minF32 => (minMaxBits fmtF32 false old x).bits

/-- A piece of a command is written (R195, R250). -/
def State.landOut (s : State) (c : CoreId) (e : Engine) (p : EngineWrite) : State :=
  let ag := s.engineAgent c e
  let send (s : State) (runs : List PeerRun) : State := s.postPeers s.free (fun _ => .store c (.engine e)) true runs
  match p with
  | .store ws => send (s.commit ag .normal .write ws) (writeRuns ws)
  | .reduce op vas ls v =>
    let r := s.rmwAt ag .normal vas ls fun old => redValue op old v
    send r.1 (r.2.2.map fun y => { y with data := leBytes vas.length v })

/-- Pieces written one after another. -/
def State.landOuts (s : State) (c : CoreId) (e : Engine) (ps : List EngineWrite) : State :=
  ps.foldl (fun s p => s.landOut c e p) s

/-- The sector that a piece lies in: that of its first address. -/
def EngineWrite.sector : EngineWrite → Nat
  | .store ws => (ws.head?.map (·.1.toNat / 32)).getD 0
  | .reduce _ vas _ _ => (vas.headD 0).toNat / 32

/-- A piece put behind others: with a piece of its sector it is one (R195). -/
def addPiece (ps : List EngineWrite) (p : EngineWrite) : List EngineWrite :=
  match ps with
  | [] => [p]
  | q :: qs =>
    match q, p with
    | .store a, .store b => if q.sector = p.sector then .store (a ++ b) :: qs else q :: addPiece qs p
    | _, _ => q :: addPiece qs p

/-- The pieces of a checked row of a CPOUT; `bs` are its bytes. -/
def rowPieces (n : Nat) (r : Word × Nat) (ls : List Loc) (bs : List Byte) : List EngineWrite :=
  (sectorRuns n r n).map fun y =>
    let i := y.1.2 - r.2
    .store ((vaBytes y.1.1 y.2).zip (((ls.drop i).take y.2).zip ((bs.drop i).take y.2)))

/-- The elements of a checked row of a CPRED, in ascending order: `m` of them, of `eb` bytes. -/
def rowElems (op : RedOp) (eb : Nat) : Nat → List Word → List Loc → List Byte → List EngineWrite
  | 0, _, _, _ => []
  | m + 1, vas, ls, bs =>
    .reduce op (vas.take eb) (ls.take eb) (leNat (bs.take eb)) ::
      rowElems op eb m (vas.drop eb) (ls.drop eb) (bs.drop eb)

/-- The rows of a tile on the copy-out side, checked in order before any byte is written (R161, R162, R250, R251): the pieces
and the lowest watched byte. -/
def State.outRows (s : State) (c : CoreId) (x : Cmd) (d : Desc) (op : Option RedOp) :
    List (Word × Nat) → Except Piece (List EngineWrite × Option Word)
  | [] => .ok ([], none)
  | r :: l =>
    let n := Desc.rowBytes d
    let eb := halfBytes (Desc.format d) / 2
    let vas := vaBytes r.1 n
    let ag := s.engineAgent c .cout
    if op.isSome && r.1.toNat % eb != 0 then .error (.stop .copyXlate r.1)
    else
      match s.poisonIn c [(r.2, n)] with
      | some o => .error (.stop .sramUncorrectable (ownVa o))
      | none =>
        match s.checkAccess ag (if op.isSome then .atomic else .write) (if op.isSome then .atomics else .any) vas with
        | .error e => .error (enginePiece e)
        | .ok ls =>
          if (s.fencedAt ag ls).isSome then .error (.await [])
          else
          let bs := (s.core c).padRead x r.2 n
          let ps := match op with
            | some op => rowElems op eb (Desc.cols d) vas ls bs
            | none => rowPieces n r ls bs
          let h := minAddr (s.watchedByte ag .write vas) (s.padWatch c .cout .read r.2 n)
          (s.outRows c x d op l).map fun y => (ps ++ y.1, minAddr h y.2)

/-- The rows of a tile read, one after another: the machine, the tile's bytes and the lowest watched byte. -/
def State.inRows (s : State) (c : CoreId) (x : Cmd) (n : Nat) :
    List (Word × Nat) → Except Piece (State × List Byte × Option Word)
  | [] => .ok (s, [], none)
  | r :: l =>
    match s.engineRead c .cin x (vaBytes r.1 n) with
    | .none p => .error p
    | .bytes s1 bs h => (s1.inRows c x n l).map fun y => (y.1, bs ++ y.2.1, minAddr h y.2.2)

/-- The scratchpad offset of tile `i` of a copy command (R249). -/
def Core.copyPlace (k : Core) (e : Engine) (x : Cmd) (w : Word) (st : Started) (i : Nat) : Nat :=
  let d := st.desc (copyS w)
  if e = .cin ∧ wordEop w = 2 then Desc.ring d + i * Desc.slotBytes d
  else Desc.slotOff d (k.copyFirst e x (copyS w) + BitVec.ofNat 32 i)

/-- The rows of tile `i` of a copy command. -/
def Core.copyRows (k : Core) (e : Engine) (x : Cmd) (w : Word) (st : Started) (i : Nat) : List (Word × Nat) :=
  let d := st.desc (copyS w)
  Desc.tileRows d (Desc.tileVa d ((st.walk + i) % Desc.tiles d)) (k.copyPlace e x w st i)

/-- Tile `i` of a command on the copy-out side: its pieces, those of one sector as one. -/
def State.outTile (s : State) (c : CoreId) (x : Cmd) (w : Word) (st : Started) (i : Nat) :
    Except Piece (List EngineWrite × Option Word) :=
  let op := if isCpred .cout w then some (copyOp w) else none
  (s.outRows c x (st.desc (copyS w)) op ((s.core c).copyRows .cout x w st i)).map fun r => (r.1.foldl addPiece [], r.2)

/-- Tile `i` of a command on the copy-in side read: the machine, its scratchpad offset, its bytes and the lowest watched
byte. -/
def State.inTile (s : State) (c : CoreId) (x : Cmd) (w : Word) (st : Started) (i : Nat) :
    Except Piece (State × Nat × List Byte × Option Word) :=
  let k := s.core c
  let o := k.copyPlace .cin x w st i
  (s.inRows c x (Desc.rowBytes (st.desc (copyS w))) (k.copyRows .cin x w st i)).map fun r =>
    (r.1, o, r.2.1, minAddr r.2.2 (s.padWatch c .cin .write o r.2.1.length))

/-- Tile `i` of a copy command moved (R249). -/
def State.copyTile (s : State) (c : CoreId) (e : Engine) (x : Cmd) (w : Word) (st : Started) (i : Nat) : Piece :=
  if e = .cout then
    match s.outTile c x w st i with
    | .error p => p
    | .ok (ps, h) => .ok (s.landOuts c .cout ps) h
  else
    match s.inTile c x w st i with
    | .error p => p
    | .ok (s1, o, bs, h) => .ok (s1.padWrite c .cin o bs) h

/-- The sector runs of the tiles of a copy command from a tile on. -/
def Core.copySectors (k : Core) (e : Engine) (x : Cmd) (w : Word) (st : Started) (from_ : Nat) : List ((Word × Nat) × Nat) :=
  let n := Desc.rowBytes (st.desc (copyS w))
  ((List.range (copyTiles w)).drop from_).flatMap fun i =>
    (k.copyRows e x w st i).flatMap fun r => sectorRuns n r n

/-! ### What a stopped copy has written of its other tiles (R251, R317) -/

/-- A sector run of a stopped copy is written, where its checks pass. -/
def State.mixRun (s : State) (c : CoreId) (e : Engine) (x : Cmd) (r : (Word × Nat) × Nat) : State :=
  if e = .cin then
    match s.engineRead c .cin x (vaBytes r.1.1 r.2) with
    | .bytes s1 l _ => s1.padWrite c .cin r.1.2 l
    | .none _ => s
  else
    match s.checkAccess (s.engineAgent c .cout) .write .any (vaBytes r.1.1 r.2), s.poisonIn c [(r.1.2, r.2)] with
    | .ok ls, none => s.landOuts c .cout (rowPieces r.2 r.1 ls ((s.core c).padRead x r.1.2 r.2))
    | _, _ => s

/-- The pieces of tiles that a stopped copy had not written in full: a free choice of them is written (assumption
entry 23). A CPRED applies no element twice, so it has written none (R250). -/
def State.copyMix (s : State) (c : CoreId) (e : Engine) (x : Cmd) (w : Word) (st : Started) (from_ : Nat) : State :=
  if isCpred e w then s
  else
    let rs := (s.core c).copySectors e x w st from_
    let cut (r : (Word × Nat) × Nat) : List ((Word × Nat) × Nat) :=
      (padRuns r.2 r.1.2 r.2).map fun y => ((r.1.1 + BitVec.ofNat 64 (y.1 - r.1.2), y.1), y.2)
    let sector (r : (Word × Nat) × Nat) : Nat := if e = .cin then r.1.2 / 32 else r.1.1.toNat / 32
    (if e = .cin then rs.flatMap cut else rs).foldl (fun t r =>
      if Config.landed s.free (sector r) then t.mixRun c e x r else t) s

/-! ### Pieces at moments of their own (R195; assumption entry 32) -/

/-- Bytes that a command reads early are remembered. -/
def State.remember (s : State) (c : CoreId) (e : Engine) (x : Cmd) (vas : List Word) (l : List Byte) : State :=
  let got := (vas.zip l).foldl (fun m y => sset none m y.1.toNat (some y.2)) x.fetched
  s.setCore c ((s.core c).setQueue e (((s.core c).queue e).mapCmd x.seq fun y => { y with fetched := got }))

/-- A command's early read of a run of bytes: on a page that is its own to read it is remembered; otherwise nothing
happens. -/
def State.sample (s : State) (c : CoreId) (e : Engine) (x : Cmd) (vas : List Word) : State :=
  match s.engineRead c e x vas with
  | .none _ => s
  | .bytes s1 l _ => s1.remember c e x vas l

/-- The bytes of a copy command's tiles in one sector of the address space, each once: one piece (R195, R210). -/
def sectorBytes32 (rs : List ((Word × Nat) × Nat)) (sector : Nat) : List Word :=
  ((rs.filter fun r => r.1.1.toNat / 32 == sector).flatMap fun r => vaBytes r.1.1 r.2).dedup

/-- The sectors that a started CPIN or CPSTR has not read, each with its bytes. -/
def Core.unsampled (k : Core) (x : Cmd) (w : Word) (st : Started) : List (List Word) :=
  let rs := (k.copySectors .cin x w st x.prog).filter fun r => (sget none x.fetched r.1.1.toNat).isNone
  ((rs.map fun r => r.1.1.toNat / 32).dedup).map (sectorBytes32 rs)

/-- The oldest command of a queue, when it has started and its opcode is one of a list. -/
def Core.headRun (k : Core) (e : Engine) (eops : List Nat) : Option (Cmd × Word × Started) :=
  match (k.queue e).entries.head? with
  | none => none
  | some x =>
    let w := k.cmdWord e x.seq
    if hasEop eops w then x.started.map fun st => (x, w, st) else none

/-- The sectors of a tile of a CPIN or CPSTR that it has not read are read whole, the bytes of other tiles with them. -/
def State.sampleTile (s : State) (c : CoreId) (x : Cmd) (w : Word) (st : Started) : State :=
  let k := s.core c
  let mine := (k.copyRows .cin x w st x.prog).flatMap fun r => sectorRuns (Desc.rowBytes (st.desc (copyS w))) r (Desc.rowBytes (st.desc (copyS w)))
  ((k.unsampled x w st).filter fun l => mine.any fun r => (l.head?.map (·.toNat / 32)) == some (r.1.1.toNat / 32)).foldl
    (fun t l => match ((t.core c).queue .cin).entries.head? with
      | some y => t.sample c .cin y l
      | none => t) s

/-- A command's pieces are put with those that it has still to write. -/
def State.addOut (s : State) (c : CoreId) (e : Engine) (x : Cmd) (ps : List EngineWrite) (h : Option Word) : State :=
  let k := s.core c
  s.setCore c (k.setQueue e ((k.queue e).mapCmd x.seq fun y =>
    { y with out := ps.foldl addPiece y.out, prog := y.prog + 1, hit := minAddr y.hit h }))

/-- The oldest command of a copy queue checks its next tile, and on the copy-in side reads it: the tile's pieces may be written
from now on. -/
def State.openTile (s0 : State) (c : CoreId) (e : Engine) : State :=
  let s := s0.meetPad c
  match (s.core c).headRun e [1, 2] with
  | none => s
  | some (x, w, st) =>
    if copyTiles w ≤ x.prog then s
    else if e = .cout then
      match s.outTile c x w st x.prog with
      | .error _ => s
      | .ok (ps, h) => s.addOut c .cout x ps h
    else
      let s1 := s.sampleTile c x w st
      match (s1.core c).headRun .cin [1, 2] with
      | none => s
      | some (y, _, _) =>
        match s1.inTile c y w st y.prog with
        | .error _ => s
        | .ok (s2, o, bs, h) => s2.addOut c .cin y (padPieces c o bs) h

/-- The bytes that a piece writes. -/
def EngineWrite.places : EngineWrite → List Place
  | .store ws => ws.map (·.2.1.place)
  | .reduce _ _ ls _ => ls.map (·.place)

/-- A piece may be written before the older ones of its command: none is a reduction, and none covers a byte of it
(R195, R250). -/
def EngineWrite.mayPass (p : EngineWrite) (older : List EngineWrite) : Bool :=
  older.all fun q => match q with
    | .store _ => !bytesMeet q.places p.places
    | .reduce .. => false

/-- Sectors that a CPOUT has still to check bytes of: its pieces there are not whole. -/
def Core.openSectors (k : Core) (e : Engine) (x : Cmd) (w : Word) (st : Started) : List Nat :=
  if e = .cout ∧ wordEop w = 1 then (k.copySectors .cout x w st x.prog).map fun r => r.1.1.toNat / 32 else []

/-- The pieces of the oldest command of a queue that may be written next. -/
def Core.outReady (k : Core) (e : Engine) : List Nat :=
  match k.headRun e [1, 2] with
  | none => []
  | some (x, w, st) =>
    if x.out.isEmpty then []
    else
      let later := k.openSectors e x w st
      (List.range x.out.length).filter fun i =>
        ((x.out[i]?).map fun p => p.mayPass (x.out.take i) && !later.contains p.sector).getD false

/-- Piece `i` of the oldest command of a queue is written. -/
def State.landPiece (s : State) (c : CoreId) (e : Engine) (i : Nat) : State :=
  match (s.core c).headRun e [1, 2] with
  | none => s
  | some (x, _, _) =>
    match x.out[i]? with
    | none => s
    | some p =>
      let k := s.core c
      if (s.fencedAt (s.engineAgent c e) (p.places.map fun q => ⟨q, .hc, none⟩)).isSome then s
      else (s.setCore c (k.setQueue e ((k.queue e).mapCmd x.seq fun y => { y with out := y.out.eraseIdx i }))).landOut c e p

/-! ### The tiles of a command -/

/-- How a command's work ends: done, with the bytes its record reports and the lowest watched byte; a fault, or bytes of a peer
awaited, with the tiles written in full and their lowest watched byte; or a byte that the manual does not give. -/
inductive Finish where
  | done (s : State) (bytes : Nat) (hit : Option Word)
  | stop (s : State) (prog : Nat) (hit : Option Word) (cause : Cause) (va : Word)
  | await (s : State) (prog : Nat) (hit : Option Word) (runs : List PeerRun)
  | hole (pa : Nat)

/-- Tiles moved one after another; `bytes` is what the completion record reports (R246). -/
def copyTilesFrom (tile : State → Nat → Piece) (bytes : Nat) (s : State) (hit : Option Word) : List Nat → Finish
  | [] => .done s bytes hit
  | i :: l =>
    match tile s i with
    | .ok s1 h => copyTilesFrom tile bytes s1 (minAddr hit h) l
    | .stop cause va => .stop s i hit cause va
    | .await runs => .await s i hit runs
    | .hole pa => .hole pa

/-- A copy command's tiles up to a limit (R249): what it has still to write of the tiles before its progress, then the
others. -/
def State.copyWork (s : State) (c : CoreId) (e : Engine) (x : Cmd) (w : Word) (st : Started) (limit : Nat) : Finish :=
  copyTilesFrom (fun s i => s.copyTile c e x w st i) (copyBytes (st.desc (copyS w)) w) (s.landOuts c e x.out) x.hit
    ((List.range limit).drop x.prog)

/-- The stream of a copy command after it retires (R136, R249): the position advances, claims become ready and
reservations are popped. -/
def Core.copyRetire (k : Core) (e : Engine) (x : Cmd) (w : Word) : Core :=
  let st := copyS w
  let n := copyTiles w
  let y := k.stream st
  let d := y.desc.getD 0
  let y1 := { y with desc := some (Desc.setField d 0x1C 4 ((Desc.pos d + n) % Desc.tiles d)) }
  k.setStream st (if e = .cout then y1.pop n else if wordEop w = 1 then y1.publCmd ⟨e, x.seq⟩ else y1)

end Sys2Proof.Machine
end

