-- ==== Sys2Proof/Machine/Gather.lean ====
section
/-!
DEFINITION. The gather engine (R145, R146).
-/

namespace Sys2Proof.Machine

/-! ### Operands and roles (R137, R145) -/

/-- The row-pointer stream. -/
def gathS (w : Word) : StReg := wordSt w 19
/-- The dense operand. -/
def gathD (w : Word) : StReg := wordSt w 14
/-- The stream of the A tile; the next one receives the B tile. -/
def gathO (w : Word) : StReg := wordSt w 9
/-- The completion stream, when CE is set. -/
def gathC (w : Word) : Option StReg := if w.getLsbD 3 then some (wordSt w 4) else none

/-- The streams of a GATH with their roles, in the order of the checks (R146). -/
def gathRoles (w : Word) : List (StReg × Role) :=
  let n32 := [ElemType.n32.code]
  [(gathS w, ⟨516, n32, none, none, [0, 1, 2], false, none⟩),
   (gathS w + 1, ⟨0, n32, none, none, [0, 1, 2], false, none⟩),
   (gathS w + 2, ⟨0, [fmtRn8], none, none, [0, 1, 2], false, none⟩),
   (gathD w, ⟨0, [fmtRn8], none, some 256, [0, 1, 2], false, none⟩),
   (gathO w, ⟨16384, [fmtRn8], some 128, some 128, [0, 2], false, none⟩),
   (gathO w + 1, ⟨32768, [fmtRn8], some 128, some 256, [0, 2], false, none⟩)]

/-- The check of one stream of a GATH. -/
def Core.gathCheck (k : Core) (r : StReg × Role) : Check := roleCheck (k.stream r.1).desc r.2

/-- The streams of a GATH but its completion stream. -/
def gathStreams (w : Word) : List StReg := (gathRoles w).map (·.1)

/-- A stream of a GATH is ready: the row pointers filled, the outputs free. -/
def Core.gathStreamReady (k : Core) (w : Word) (r : StReg × Role) : Bool :=
  let y := k.stream r.1
  readyUnless (k.gathCheck r)
    (if r.1 = gathS w then decide (1 ≤ k.available r.1)
    else if r.1 = gathO w ∨ r.1 = gathO w + 1 then decide (1 ≤ y.free (y.desc.getD 0))
    else true)

/-- A GATH is ready (R146, R246, R253). -/
def Core.gathReady (k : Core) (x : Cmd) (w : Word) : Bool :=
  decide (k.inFlight < Config.scoreboardEntries) &&
    (x.held || ((gathRoles w).all (k.gathStreamReady w) && k.completionReady (gathC w) (gathStreams w)))

/-- What a GATH does at its start (R146). -/
def State.gathLaunch (s : State) (c : CoreId) (w : Word) : Launch :=
  let k := s.core c
  let comp := (gathC w).toList.map fun c => (c, 1)
  { check := firstCheck ((gathRoles w).map k.gathCheck ++ [k.completionCheck (gathC w) (gathStreams w)])
    claims := (gathO w, 1) :: (gathO w + 1, 1) :: comp
    reserves := [(gathS w, 1)]
    heads := [(gathS w, 1)]
    walk := Desc.pos ((k.stream (gathD w)).desc.getD 0)
    rowScale := []
    colScale := []
    board := []
    isBound := true }

/-- GATH starts (R146). -/
def execGathCommand (core : Nat) (s : State) : Res :=
  startEvent core .gth (hasEop [1]) (fun c x w s =>
    if (s.core c).gathReady x w then startOnUnit c .gth x w (s.gathLaunch c w) s else .next s) s

/-! ### The gather (R146) -/

/-- A number put into an ascending list, once. -/
def insertAsc (n : Nat) : List Nat → List Nat
  | [] => [n]
  | m :: l => if n < m then n :: m :: l else if n = m then m :: l else m :: insertAsc n l

/-- A gather in progress: the machine, the set U in ascending order, the entries met (row, number, column index), last
first, and the lowest watched byte. -/
structure GathState where
  s       : State
  u       : List Nat
  entries : List (Nat × Nat × Nat)
  hit     : Option Word

/-- How a gather reads bytes: from memory, or only from what it has read early. -/
abbrev Reader := State → List Word → Got

/-- The column indices of one row, `n` of them from number `j` (R146). -/
def gathRow (rd : Reader) (base : Word) (nD r : Nat) : Nat → Nat → List Nat → GathState → Except Piece GathState
  | 0, _, _, g => .ok g
  | n + 1, j, seen, g =>
    let a := base + BitVec.ofNat 64 (4 * j)
    match rd g.s (vaBytes a 4) with
    | .none p => .error p
    | .bytes s1 l hit =>
      let i := leNat l
      let u := insertAsc i g.u
      if nD ≤ i ∨ seen.contains i ∨ 128 < u.length then .error (.stop .gatherIndex a)
      else gathRow rd base nD r n (j + 1) (i :: seen) ⟨s1, u, (r, j, i) :: g.entries, minAddr g.hit hit⟩

/-- The rows of the block from row `r` on; `p` holds the pointers at offset `off`. -/
def gathRows (rd : Reader) (base : Word) (nD : Nat) (p : Array Nat) (off : Nat) :
    Nat → GathState → Except Piece GathState
  | 0, g => .ok g
  | n + 1, g =>
    let r := 127 - n
    if p.getD (r + 1) 0 < p.getD r 0 then .error (.stop .gatherIndex (ownVa (off + 4 * (r + 1))))
    else
      match gathRow rd base nD r (p.getD (r + 1) 0 - p.getD r 0) (p.getD r 0) [] g with
      | .error e => .error e
      | .ok g1 => gathRows rd base nD p off n g1

/-- Reads of a list of byte runs, one after another: the bytes of each, in order. -/
def gathReads (rd : Reader) : List (Word × Nat) → GathState → Except Piece (GathState × List (List Byte))
  | [], g => .ok (g, [])
  | (a, n) :: l, g =>
    match rd g.s (vaBytes a n) with
    | .none p => .error p
    | .bytes s1 bs hit => (gathReads rd l { g with s := s1, hit := minAddr g.hit hit }).map fun r => (r.1, bs :: r.2)

/-- The A tile: each value at its row and at the place of its column in U. -/
def gathA (u : List Nat) (entries : List (Nat × Nat × Nat)) (vals : List (List Byte)) : List Byte :=
  ((entries.zip vals).foldl (fun (a : Array Byte) e =>
    a.setIfInBounds (128 * e.1.1 + u.idxOf e.1.2.2) (e.2.headD 0)) (Array.replicate 16384 0)).toList

/-- A GATH's reads, and what it writes (R146): the machine, both tiles with their scratchpad offsets, and the lowest watched
byte. -/
def State.gathPlan (s : State) (c : CoreId) (rd : Reader) (x : Cmd) (w : Word) (st : Started) :
    Except Piece (State × List (Nat × List Byte) × Option Word) :=
  let off := st.headOff (gathS w)
  let d := st.desc (gathD w)
  match s.poisonIn c [(off, 516)] with
  | some o => .error (.stop .sramUncorrectable (ownVa o))
  | none =>
    let raw := ((s.core c).padRead x off 516).toArray
    let p := ((List.range 129).map fun i => leNat ((List.range 4).map fun j => raw.getD (4 * i + j) 0)).toArray
    match gathRows rd (Desc.base (st.desc (gathS w + 1))) (Desc.tiles d) p off 128
        ⟨s, [], [], s.padWatch c .gth .read off 516⟩ with
    | .error e => .error e
    | .ok g =>
      let row (i : Nat) : Word × Nat :=
        (Desc.base d + BitVec.ofNat 64 (i * Desc.rowStride d + st.walk * Desc.tileStride d), 256)
      match gathReads rd (g.u.map row) g with
      | .error e => .error e
      | .ok (g1, rows) =>
        let es := g.entries.reverse
        match gathReads rd (es.map fun e => (Desc.base (st.desc (gathS w + 2)) + BitVec.ofNat 64 e.2.1, 1)) g1 with
        | .error e => .error e
        | .ok (g2, vals) =>
          let oa := st.claimOff x (gathO w)
          let ob := st.claimOff x (gathO w + 1)
          .ok (g2.s, [(oa, gathA g.u es vals), (ob, rows.flatten ++ List.replicate (32768 - 256 * rows.length) 0)],
            minAddr g2.hit (minAddr (s.padWatch c .gth .write oa 16384) (s.padWatch c .gth .write ob 32768)))

/-- A GATH's work (R146): every read, then both tiles; what it has computed before, it has still to write. -/
def State.gathWork (s : State) (c : CoreId) (x : Cmd) (w : Word) (st : Started) : Finish :=
  if x.prog ≠ 0 then .done (s.landOuts c .gth x.out) 49152 x.hit
  else match s.gathPlan c (fun s vas => s.engineRead c .gth x vas) x w st with
    | .ok (s1, ws, hit) => .done (s1.padWrites c .gth ws) 49152 hit
    | .error (.ok s1 hit) => .done s1 0 hit
    | .error (.stop cause va) => .stop s 0 none cause va
    | .error (.await runs) => .await s 0 none runs
    | .error (.hole pa) => .hole pa

/-- The oldest GATH of a core reads early the sector of what it would read next: whole where it may, and otherwise the byte
(R146, R195). -/
def State.gathSample (s : State) (c : CoreId) : State :=
  match (s.core c).headRun .gth [1] with
  | none => s
  | some (x, w, st) =>
    match s.gathPlan c (earlyRead x) x w st with
    | .error (.await (r :: _)) =>
      let sector := (vaBytes (r.va &&& ~~~31) 32).filter fun a => (sget none x.fetched a.toNat).isNone
      match s.engineRead c .gth x sector with
      | .bytes s1 l _ => s1.remember c .gth x sector l
      | .none _ => s.sample c .gth x [r.va]
    | _ => s

/-- The rings of a GATH after it retires: both tiles published, the row pointers popped. -/
def Core.gathRetire (k : Core) (x : Cmd) (w : Word) : Core :=
  let publ (k : Core) (n : StReg) : Core := k.setStream n ((k.stream n).publCmd ⟨.gth, x.seq⟩)
  let k1 := publ (publ k (gathO w)) (gathO w + 1)
  k1.setStream (gathS w) ((k1.stream (gathS w)).pop 1)

end Sys2Proof.Machine
end

