-- ==== Sys2Proof/Machine/Interlock.lean ====
section
/-!
DEFINITION. The register interlock (R89, R216): the scalar and vector registers that a syllable names, and the
loads of its cluster that are still to write one of them.
-/

namespace Sys2Proof.Machine

/-- The scalar and vector registers that a syllable reads or writes by name; CALL and CALLI write s63 (R92). -/
def namedRegs : Instr → List SReg × List VReg
  | .add rd ra rb => ([rd, ra, rb], [])
  | .sub rd ra rb => ([rd, ra, rb], [])
  | .mul rd ra rb => ([rd, ra, rb], [])
  | .mulh rd ra rb => ([rd, ra, rb], [])
  | .mulhu rd ra rb => ([rd, ra, rb], [])
  | .div rd ra rb => ([rd, ra, rb], [])
  | .divu rd ra rb => ([rd, ra, rb], [])
  | .rem rd ra rb => ([rd, ra, rb], [])
  | .remu rd ra rb => ([rd, ra, rb], [])
  | .and rd ra rb => ([rd, ra, rb], [])
  | .or rd ra rb => ([rd, ra, rb], [])
  | .xor rd ra rb => ([rd, ra, rb], [])
  | .andn rd ra rb => ([rd, ra, rb], [])
  | .shl rd ra rb => ([rd, ra, rb], [])
  | .shr rd ra rb => ([rd, ra, rb], [])
  | .sar rd ra rb => ([rd, ra, rb], [])
  | .rotr rd ra rb => ([rd, ra, rb], [])
  | .min rd ra rb => ([rd, ra, rb], [])
  | .max rd ra rb => ([rd, ra, rb], [])
  | .minu rd ra rb => ([rd, ra, rb], [])
  | .maxu rd ra rb => ([rd, ra, rb], [])
  | .clz rd ra => ([rd, ra], [])
  | .ctz rd ra => ([rd, ra], [])
  | .popc rd ra => ([rd, ra], [])
  | .brev rd ra => ([rd, ra], [])
  | .bswap rd ra => ([rd, ra], [])
  | .extr rd ra _ _ => ([rd, ra], [])
  | .extru rd ra _ _ => ([rd, ra], [])
  | .insr rd ra rb _ _ => ([rd, ra, rb], [])
  | .madd rd ra rb rc => ([rd, ra, rb, rc], [])
  | .lea rd ra rb _ => ([rd, ra, rb], [])
  | .sext rd ra _ => ([rd, ra], [])
  | .zext rd ra _ => ([rd, ra], [])
  | .mov rd ra => ([rd, ra], [])
  | .addi rd ra _ => ([rd, ra], [])
  | .andi rd ra _ => ([rd, ra], [])
  | .ori rd ra _ => ([rd, ra], [])
  | .xori rd ra _ => ([rd, ra], [])
  | .shli rd ra _ => ([rd, ra], [])
  | .shri rd ra _ => ([rd, ra], [])
  | .sari rd ra _ => ([rd, ra], [])
  | .muli rd ra _ => ([rd, ra], [])
  | .li rd _ => ([rd], [])
  | .lih rd ra _ => ([rd, ra], [])
  | .cmp _ ra rb _ => ([ra, rb], [])
  | .cmpi _ ra _ _ => ([ra], [])
  | .sel rd ra rb _ => ([rd, ra, rb], [])
  | .getp rd => ([rd], [])
  | .setp ra _ => ([ra], [])
  | .tstb _ ra _ => ([ra], [])
  | .bri ra => ([ra], [])
  | .call _ => ([63], [])
  | .calli ra => ([ra, 63], [])
  | .ret ra => ([ra], [])
  | .loop ra _ => ([ra], [])
  | .waitt ra => ([ra], [])
  | .mfsr rd _ => ([rd], [])
  | .mtsr ra _ => ([ra], [])
  | .qpush _ ra => ([ra], [])
  | .qpop _ rd => ([rd], [])
  | .qpeek _ rd => ([rd], [])
  | .qtry _ rd _ => ([rd], [])
  | .vqpush _ va => ([], [va])
  | .vqpop _ vd => ([], [vd])
  | .qcount _ rd => ([rd], [])
  | .fread rd _ => ([rd], [])
  | .ldb rd base _ _ => ([rd, base], [])
  | .ldbu rd base _ _ => ([rd, base], [])
  | .ldh rd base _ _ => ([rd, base], [])
  | .ldhu rd base _ _ => ([rd, base], [])
  | .ldw rd base _ _ => ([rd, base], [])
  | .ldwu rd base _ _ => ([rd, base], [])
  | .ldd rd base _ _ => ([rd, base], [])
  | .stb rs base _ _ => ([rs, base], [])
  | .sth rs base _ _ => ([rs, base], [])
  | .stw rs base _ _ => ([rs, base], [])
  | .std rs base _ _ => ([rs, base], [])
  | .vld vd base _ _ => ([base], [vd])
  | .vldn vd base _ _ _ => ([base], [vd])
  | .vst vs base _ _ => ([base], [vs])
  | .vstn vs base _ _ _ => ([base], [vs])
  | .vlds vd base stride _ => ([base, stride], [vd])
  | .vsts vs base stride _ => ([base, stride], [vs])
  | .vgth vd base vi _ => ([base], [vd, vi])
  | .vsct vs base vi _ => ([base], [vs, vi])
  | .pref base _ _ _ => ([base], [])
  | .cwb base _ _ => ([base], [])
  | .cinv base _ _ => ([base], [])
  | .retain rd ra rb _ => ([rd, ra, rb], [])
  | .unpin ra => ([ra], [])
  | .smap ra rb rc => ([ra, rb, rc], [])
  | .sunmap ra => ([ra], [])
  | .sflush ra => ([ra], [])
  | .aadd rd base rb _ _ _ _ => ([rd, base, rb], [])
  | .aand rd base rb _ _ _ _ => ([rd, base, rb], [])
  | .aor rd base rb _ _ _ _ => ([rd, base, rb], [])
  | .axor rd base rb _ _ _ _ => ([rd, base, rb], [])
  | .amin rd base rb _ _ _ _ => ([rd, base, rb], [])
  | .amax rd base rb _ _ _ _ => ([rd, base, rb], [])
  | .aminu rd base rb _ _ _ _ => ([rd, base, rb], [])
  | .amaxu rd base rb _ _ _ _ => ([rd, base, rb], [])
  | .aswp rd base rb _ _ _ _ => ([rd, base, rb], [])
  | .acas rd base rb rc _ _ _ _ => ([rd, base, rb, rc], [])
  | .radd base rb _ _ _ _ => ([base, rb], [])
  | .rfadd base rb _ _ _ => ([base, rb], [])
  | .rmin base rb _ _ _ _ => ([base, rb], [])
  | .rmax base rb _ _ _ _ => ([base, rb], [])
  | .rofadd base rb rc _ _ _ => ([base, rb, rc], [])
  | .vredm vs base vi _ _ => ([base], [vs, vi])
  | .mwait rd base rb _ _ _ _ => ([rd, base, rb], [])
  | .barinit base rb _ _ _ => ([base, rb], [])
  | .barrive rd base rb _ _ _ => ([rd, base, rb], [])
  | .barwait base rb _ _ _ => ([base, rb], [])
  | .setst ra _ _ => ([ra], [])
  | .getst rd _ _ => ([rd], [])
  | .claim rd _ _ => ([rd], [])
  | .raddr rd ra _ => ([rd, ra], [])
  | .rstat rd _ _ => ([rd], [])
  | .enq rd _ rs => ([rd, rs], [])
  | .mma rd _ _ _ _ _ _ _ => ([rd], [])
  | .mret rd _ _ _ _ _ => ([rd], [])
  | .mzero rd _ _ => ([rd], [])
  | .cpin rd _ _ _ _ _ => ([rd], [])
  | .cpout rd _ _ _ _ _ => ([rd], [])
  | .cpred rd _ _ _ _ _ _ => ([rd], [])
  | .cpstr rd _ _ _ _ _ => ([rd], [])
  | .gath rd _ _ _ _ _ _ => ([rd], [])
  | .topk rd _ _ _ _ _ _ => ([rd], [])
  | .notify rd _ _ _ _ => ([rd], [])
  | .ewait _ rs => ([rs], [])
  | .eseq rd _ _ => ([rd], [])
  | .bstat rd _ rs => ([rd, rs], [])
  | .launch rd ra => ([rd, ra], [])
  | .dqpush ra => ([ra], [])
  | .dqpop rd _ => ([rd], [])
  | .dqsteal rd ra _ => ([rd, ra], [])
  | .dqstealRing rd _ => ([rd], [])
  | .vadd vd va vb _ _ _ => ([], [vd, va, vb])
  | .vsub vd va vb _ _ _ => ([], [vd, va, vb])
  | .vmul vd va vb _ _ _ => ([], [vd, va, vb])
  | .vfma vd va vb vc _ => ([], [vd, va, vb, vc])
  | .vfmah vd va vb vc _ => ([], [vd, va, vb, vc])
  | .vfmab vd va vb vc _ => ([], [vd, va, vb, vc])
  | .vmin vd va vb _ _ _ => ([], [vd, va, vb])
  | .vmax vd va vb _ _ _ => ([], [vd, va, vb])
  | .vabs vd va _ _ _ => ([], [vd, va])
  | .vneg vd va _ _ _ => ([], [vd, va])
  | .vand vd va vb _ => ([], [vd, va, vb])
  | .vor vd va vb _ => ([], [vd, va, vb])
  | .vxor vd va vb _ => ([], [vd, va, vb])
  | .vshl vd va vb _ _ _ _ => ([], [vd, va, vb])
  | .vshr vd va vb _ _ _ _ => ([], [vd, va, vb])
  | .vsar vd va vb _ _ _ _ => ([], [vd, va, vb])
  | .vcmp _ va vb _ _ _ => ([], [va, vb])
  | .vsel vd va vb _ => ([], [vd, va, vb])
  | .vmov vd va _ => ([], [vd, va])
  | .vbcast vd ra _ _ => ([ra], [vd])
  | .vext va rd _ _ => ([rd], [va])
  | .vins vd ra _ _ => ([ra], [vd])
  | .vperm vd va vb _ => ([], [vd, va, vb])
  | .vrot vd va _ _ => ([], [vd, va])
  | .viota vd _ _ => ([], [vd])
  | .vrsum vd va _ _ _ => ([], [vd, va])
  | .vrmax vd va _ _ _ => ([], [vd, va])
  | .vrmin vd va _ _ _ => ([], [vd, va])
  | .vscan vd va _ _ _ => ([], [vd, va])
  | .vdiv vd va vb _ _ _ => ([], [vd, va, vb])
  | .vsqrt vd va _ _ _ => ([], [vd, va])
  | .vrcp vd va _ _ _ => ([], [vd, va])
  | .vrsqrt vd va _ _ _ => ([], [vd, va])
  | .vexp2 vd va _ _ _ => ([], [vd, va])
  | .vlog2 vd va _ _ _ => ([], [vd, va])
  | .vtanh vd va _ _ _ => ([], [vd, va])
  | .vrnd vd va _ _ _ => ([], [vd, va])
  | .mpop rd _ _ => ([rd], [])
  | .vadds vd va ra _ _ => ([ra], [vd, va])
  | .vmuls vd va ra _ _ => ([ra], [vd, va])
  | .vcvt vd va _ _ _ _ => ([], [vd, va])
  | .vpack vd va vb _ _ _ _ => ([], [vd, va, vb])
  | .vunpk vd va _ _ _ _ _ => ([], [vd, va])
  | .vzenc vd va _ _ _ => ([], [vd, va])
  | .vzdec vd va _ _ _ _ => ([], [vd, va])
  | .vzmac vd va vb _ => ([], [vd, va, vb])
  | .vzmul vd va vb _ => ([], [vd, va, vb])
  | .vzadd vd va vb _ => ([], [vd, va, vb])
  | .vscale vd va vb _ _ _ => ([], [vd, va, vb])
  | .vquant vd va vb _ _ _ _ => ([], [vd, va, vb])
  | .vochk _ va vb _ _ => ([], [va, vb])
  | .vcomp vd va _ => ([], [vd, va])
  | .mop _ vd va vb _ ra _ => ([ra], [vd, va, vb])
  | .csload ra _ => ([ra], [])
  | .rdcyc rd => ([rd], [])
  | .rdtime rd => ([rd], [])
  | .tlbinv ra rb _ => ([ra, rb], [])
  | .dharv rd ra => ([rd, ra], [])
  | .ctxsave rd ra rb rc _ => ([rd, ra, rb, rc], [])
  | .ctxload rd ra => ([rd, ra], [])
  | _ => ([], [])

/-- The masks that a syllable reads or writes by name (R106, R116 to R119). -/
def namedMasks : Instr → List MReg
  | .vadd _ _ _ mk _ _ => [mk]
  | .vsub _ _ _ mk _ _ => [mk]
  | .vmul _ _ _ mk _ _ => [mk]
  | .vfma _ _ _ _ mk => [mk]
  | .vfmah _ _ _ _ mk => [mk]
  | .vfmab _ _ _ _ mk => [mk]
  | .vmin _ _ _ mk _ _ => [mk]
  | .vmax _ _ _ mk _ _ => [mk]
  | .vabs _ _ mk _ _ => [mk]
  | .vneg _ _ mk _ _ => [mk]
  | .vand _ _ _ mk => [mk]
  | .vor _ _ _ mk => [mk]
  | .vxor _ _ _ mk => [mk]
  | .vshl _ _ _ mk _ _ _ => [mk]
  | .vshr _ _ _ mk _ _ _ => [mk]
  | .vsar _ _ _ mk _ _ _ => [mk]
  | .vcmp md _ _ mk _ _ => [md, mk]
  | .vsel _ _ _ mk => [mk]
  | .vmov _ _ mk => [mk]
  | .vbcast _ _ mk _ => [mk]
  | .vperm _ _ _ mk => [mk]
  | .vrot _ _ mk _ => [mk]
  | .viota _ mk _ => [mk]
  | .vrsum _ _ mk _ _ => [mk]
  | .vrmax _ _ mk _ _ => [mk]
  | .vrmin _ _ mk _ _ => [mk]
  | .vscan _ _ mk _ _ => [mk]
  | .vdiv _ _ _ mk _ _ => [mk]
  | .vsqrt _ _ mk _ _ => [mk]
  | .vrcp _ _ mk _ _ => [mk]
  | .vrsqrt _ _ mk _ _ => [mk]
  | .vexp2 _ _ mk _ _ => [mk]
  | .vlog2 _ _ mk _ _ => [mk]
  | .vtanh _ _ mk _ _ => [mk]
  | .vrnd _ _ mk _ _ => [mk]
  | .mand md ma mb => [md, ma, mb]
  | .mor md ma mb => [md, ma, mb]
  | .mnot md ma => [md, ma]
  | .mpop _ mk _ => [mk]
  | .vadds _ _ _ mk _ => [mk]
  | .vmuls _ _ _ mk _ => [mk]
  | .vcvt _ _ mk _ _ _ => [mk]
  | .vpack _ _ _ mk _ _ _ => [mk]
  | .vunpk _ _ mk _ _ _ _ => [mk]
  | .vzenc _ _ mk _ _ => [mk]
  | .vzdec _ _ mk _ _ _ => [mk]
  | .vzmac _ _ _ mk => [mk]
  | .vzmul _ _ _ mk => [mk]
  | .vzadd _ _ _ mk => [mk]
  | .vscale _ _ _ mk _ _ => [mk]
  | .vquant _ _ _ mk _ _ _ => [mk]
  | .vochk md _ _ mk _ => [md, mk]
  | .vcomp _ _ mk => [mk]
  | .mop _ _ _ _ mk _ _ => [mk]
  | _ => []

/-- A pending result will be written to one of the named registers; a sequence may read any mask and temporary. -/
def PendingLoad.hits (l : PendingLoad) (i : Instr) : Bool :=
  match l.dest with
  | .scalar rd _ _ => rd != 0 && (namedRegs i).1.contains rd
  | .vector vd _ => (namedRegs i).2.contains vd
  | .temp _ _ => match i with
    | .mop .. => true
    | _ => false
  | .mask md _ => match i with
    | .mop .. => true
    | _ => (namedMasks i).contains md

/-- A push to a queue and an FSIG wait until every earlier syllable of the cluster has written its results (R218), and
so does ERET, which writes registers of its cluster (R89, R216, R321). -/
def waitsForLoads : Instr → Bool
  | .qpush .. => true
  | .qpushp .. => true
  | .vqpush .. => true
  | .fsig .. => true
  | .eret => true
  | _ => false

/-- The syllable may not issue yet (R89, R216, R218). -/
def ClusterState.interlocked (k : ClusterState) (i : Instr) : Bool :=
  k.pending.any (fun l => l.hits i) || (waitsForLoads i && !k.pending.isEmpty)

end Sys2Proof.Machine
end

