-- ==== Sys2Proof/Machine/Fetch.lean ====
section
/-!
DEFINITION. Fetching a bundle: translation for a fetch, code remap entries (R370), poison, and the checks made
before a syllable decodes (R12, R98, R213, R327).
-/

namespace Sys2Proof.Machine

/-- What a fetch gives. -/
inductive Fetched where
  | bundle (s : State) (b : BitVec 256)
  /-- a peer holds the page: its domain address (R367) -/
  | peer (addr : Nat)
  | wait (w : Wait)
  | err (e : AccErr)

/-- The enabled code remap entry of a context's page (R370). -/
def Polder.remap (p : Polder) (ctx : Nat) (va : Word) : Option Nat :=
  (p.part.crem.toList.find? fun r =>
    r.ctl.getLsbD 63 && r.ctl.toNat / 2 ^ 48 % 2 ^ 12 == ctx && r.ctl.toNat / 2 ^ 16 % 2 ^ 32 == pageOf va).map
    fun r => r.pa.toNat

/-- The 32 bytes at a device physical address, or the poison they hold (R330); a row under self-test makes the fetch wait
(R329). -/
def State.fetchHbm (s : State) (ag : Agent) (va : Word) (pa : Nat) : Fetched :=
  if Config.hbmBytes < pa + 32 then .err (.hole pa)
  else match s.homePoison (pa / 32), s.fencedAt ag [⟨.hbm pa, .hc, none⟩] with
    | some c, _ => .err (.fault c va)
    | none, some site => .wait (.fenced site)
    | none, none => .bundle (s.touch [pa]) (BitVec.ofNat 256 (leNat (rdBytes s.mem pa 32)))

/-- A fetch of a page that a code remap entry names reads the copy instead (R353, R370). -/
def State.fetchRemapped (s : State) (ag : Agent) (va : Word) (copy : Nat) : Fetched :=
  let a := copy / 65536 * 65536 + va.toNat % 65536
  if !(s.polder ag.polder).inRange a then .err (.fault .permission va)
  else if s.isSecure a && !ag.secure then .err (.fault .worldViolation va)
  else s.fetchHbm ag va a

/-- A fetch of the bundle at an address (R10, R152, R161, R355, R370). A remapped page is translated first, as any other
(DEDUCED, assumption entry 42). -/
def State.fetch (s : State) (c : CoreId) (x : Cluster) (va : Word) : Fetched :=
  let k := s.core c
  let ag := k.agent c (.cluster x)
  match s.checkEarly ag .fetch [va] with
  | some e => .err e
  | none =>
    match s.leaf ag .fetch va with
    | .error e => .err e
    | .ok (e, level) =>
      match s.useLeaf ag .fetch va e level with
      | .error e => .err e
      | .ok (pl, _) =>
        let s1 := s.fillTlb ag .fetch va
        match (s.polder ag.polder).remap ag.ctx va with
        | some copy => s1.fetchRemapped ag va copy
        | none =>
          match pl with
          | .hbm pa => s1.fetchHbm ag va pa
          | .host ba => .bundle s1 (BitVec.ofNat 256 (leNat (rdBytes s.hostMem ba 32)))
          | .peer a => .peer a
          | .pad _ _ => .err (.fault .permission va)

/-- The syllable of a cluster's slot (R10). -/
def slotOf (b : BitVec 256) (x : Cluster) : Word := b.extractLsb' (64 * x.code) 64

/-- The four Y bits of a bundle are equal (R12). -/
def syncAgrees (b : BitVec 256) : Bool :=
  clusterOrder.all fun x => (slotOf b x).getLsbD 63 == b.getLsbD 63

/-- The bundle is synced (R12). -/
def isSynced (b : BitVec 256) : Bool := clusterOrder.all fun x => (slotOf b x).getLsbD 63

/-- An enabled breakpoint matches the cluster at its bundle (R327). -/
def Core.breaks (k : Core) (x : Cluster) : Bool :=
  let st := k.cl x
  !k.inHandler && !st.skipBk && st.useq.isNone && !st.released &&
    (List.range 8).any fun n =>
      let b := k.getSr (srBkpt + n)
      (k.getSr srBkctl).getLsbD n && b.getLsbD x.code && (b &&& ~~~31) == st.pc

/-- The syllables that may not stand in an end bundle (R98). -/
def badLoopEnd : Instr → Bool
  | .br .. => true
  | .bri .. => true
  | .call .. => true
  | .calli .. => true
  | .ret .. => true
  | .brq .. => true
  | .lbreak => true
  | .loop .. => true
  | .loopi .. => true
  | .loopt .. => true
  | _ => false

/-- The cause of a decode fault (R27). -/
def decodeCause : DecodeFault → Cause
  | .illegalOpcode => .illegalOpcode
  | .slotMismatch => .slotMismatch
  | .privileged => .privileged
  | .reservedField => .reservedField
  | .registerRange => .registerRange

/-! ### Traps after a bundle (R327, R328) -/

/-- Traps that the completed bundle raises: each watchpoint and step trap (R327, R328). -/
def State.bundleTraps (s : State) (before : Core) : List (Cause × Word) :=
  let x := s.actor.cl
  let w := sget 0 s.here.trap.watchHit x.code
  let ctl := before.getSr srBkctl
  (if w = 0 then [] else [(.watchpoint, w - 1)]) ++
    (if !before.inHandler && ctl.getLsbD 9 && ctl.getLsbD (10 + x.code) then [(.singleStep, 0)] else [])

/-- The watch hit of the executing cluster is spent. -/
def State.clearWatch (s : State) : State :=
  let k := s.here
  s.setHere { k with trap := { k.trap with watchHit := sset 0 k.trap.watchHit s.actor.cl.code 0 } }

/-- After a bundle has completed its traps are raised: the first at once, the others held (R315, R327, R328). A
trap that the bundle itself has raised comes first. -/
def State.afterBundle (s : State) (before : Core) : Res :=
  if !s.actor.done then .next s
  else
    let traps := (s.bundleTraps before).map fun t => (⟨t.1, 1, s.actor.cl, none, t.2, s.actor.syl, false⟩ : Report)
    let s1 := s.clearWatch
    match traps with
    | [] => .next s1
    | r :: rs =>
      let hold (s : State) (l : List Report) : State :=
        s.setHere { s.here with trap := { s.here.trap with held := s.here.trap.held ++ l } }
      if s1.here.phase = .running && !s1.here.inHandler then (hold s1 rs).raise s.actor.core r
      else .next (hold s1 (r :: rs))

end Sys2Proof.Machine
end

