-- ==== Sys2Proof/Machine/Host.lean ====
section
/-!
DEFINITION. The host's aperture and atomics, the event ring's control, peers in both directions, links, and the refill of
bandwidth tokens (R359, R363, R364, R367 to R369).
-/

namespace Sys2Proof.Machine

/-! ### The aperture (R364) -/

/-- The polder that a virtual function serves (R362). -/
def State.apertureOf (s : State) (vf : Nat) : Option Nat :=
  if vf = 0 then none else (List.range 64).find? fun n => (s.polder n).part.vf.toNat == vf

/-- The host as an agent: user privilege, non-secure, no core. -/
def hostAgent (n : Nat) : Agent :=
  { core := none, who := none, polder := n, ctx := 0, user := true, secure := false, pure := none, source := hostSource,
    far := .system }

/-- The host is answered. -/
def State.answerHost (s : State) (r : HostReply) : State := { s with dev := { s.dev with hostReply := r } }

/-- A failed access of the host: a read is answered Unsupported Request, and an event of kind 6 is raised. -/
def State.hostFail (s : State) (n : Nat) (cause : Cause) (va : Word) (reads : Bool) : State :=
  (if reads then s.answerHost .unsupported else s).sendEvent ⟨va, hostSource, cause, 6, n⟩

/-- The address of an aperture offset. -/
def State.hostVa (s : State) (n off : Nat) : Word := (s.polder n).events.hwbase + BitVec.ofNat 64 off

/-- An access of the 64 GiB aperture of a virtual function; one that serves no polder reads as 0 and ignores writes
(R362). -/
def onAperture (vf off size : Nat) (reads : Bool) (m : Nat → State → Res) (s : State) : Res :=
  if size = 0 ∨ 2 ^ 36 < off + size then .next s
  else match s.apertureOf vf with
    | some n => m n s
    | none => .next (if reads then s.answerHost (.data (List.replicate size 0)) else s)

/-- A posted write of a polder's host has not been answered by a peer: the host's reads and atomics come after it (R364). -/
def State.hostWrites (s : State) (n : Nat) : Bool := s.peers.any (·.use == .hostWrite n)

/-- A read or atomic of the host waits. -/
def State.hostWaits (s : State) (r : HostRead) : State :=
  { s with dev := { s.dev with hostWait := s.dev.hostWait.append [r] } }

/-- A read of the host: it waits for the host's earlier posted writes, and for bytes of a peer, and is made again when they have
come (R364, R368). -/
def State.hostRead (s : State) (n : Nat) (va : Word) (size : Nat) (again : HostRead) : Res :=
  if s.hostWrites n then .next (s.hostWaits again)
  else match s.unitRead n (hostAgent n) (vaBytes va size) with
    | .hole pa => .fault (.physicalHole pa)
    | .later s1 => .next (s1.hostWaits again)
    | .failed cause a => .next ((s.clearFetched n).hostFail n cause a true)
    | .bytes s1 l => .next ((s1.clearFetched n).answerHost (.data l))

/-- A posted write of the host. -/
def State.hostWrite (s : State) (n : Nat) (va : Word) (data : List Byte) : Res :=
  match s.unitPut (hostAgent n) (.hostWrite n) va data with
  | .hole pa => .fault (.physicalHole pa)
  | .failed cause a => .next (s.hostFail n cause a false)
  | .ok s1 => .next s1

/-- HOST_BAR2_ACCESS (R364). -/
def execHostBar2Access (vf off bytes : Nat) (write : Option (List Byte)) (s : State) : Res :=
  match write with
  | none => onAperture vf off bytes true (fun n s =>
      s.hostRead n (s.hostVa n off) bytes ⟨vf, off, bytes, none⟩) s
  | some data => onAperture vf off data.length false (fun n s => s.hostWrite n (s.hostVa n off) data) s

/-- The width of an atomic of the host. -/
def HostAtomic.wide : HostAtomic → Bool
  | .fetchAdd w _ => w
  | .swap w _ => w
  | .cas w _ _ => w

/-- What an atomic of the host sends. -/
def HostAtomic.operand : HostAtomic → Nat
  | .fetchAdd w v => atomOperand w v
  | .swap w v => atomOperand w v
  | .cas w _ v => atomOperand w v

/-- The value that an atomic of the host writes, from the old one (R364). -/
def HostAtomic.apply (a : HostAtomic) (old : Nat) : Nat :=
  match a with
  | .fetchAdd .. => old + a.operand
  | .swap .. => a.operand
  | .cas w c _ => if old = atomOperand w c then a.operand else old

/-- An atomic of the host on an HC page, at the home L2 slice, after the host's earlier posted writes (R364); one at a peer
awaits its response. -/
def hostAtomic (vf off : Nat) (a : HostAtomic) (s : State) : Res :=
  let size := atomBytes a.wide
  onAperture vf off size true (fun n s =>
    let va := s.hostVa n off
    if va.toNat % size ≠ 0 then .next (s.hostFail n .atomicPage va true)
    else if s.hostWrites n then .next (s.hostWaits ⟨vf, off, size, some a⟩)
    else match s.rmw (hostAgent n) .ordered .normal true (vaBytes va size) a.apply with
      | .err (.hole pa) => .fault (.physicalHole pa)
      | .err (.fault cause b) => .next (s.hostFail n cause b true)
      | .wait _ => .next s
      | .behind _ _ => .next s
      | .ok s1 old runs =>
        if runs.isEmpty then .next (s1.answerHost (.data old))
        else
          let sent := runs.map fun r => { r with data := leBytes size a.operand }
          .next ((s1.postPeers s.free (fun _ => .host n) true sent).answerHost .none)) s

/-- HOST_FETCHADD (R364). -/
def execHostFetchadd (vf off : Nat) (wide : Bool) (value : Word) (s : State) : Res := hostAtomic vf off (.fetchAdd wide value) s

/-- HOST_SWAP (R364). -/
def execHostSwap (vf off : Nat) (wide : Bool) (value : Word) (s : State) : Res := hostAtomic vf off (.swap wide value) s

/-- HOST_CAS (R364). -/
def execHostCas (vf off : Nat) (wide : Bool) (compare value : Word) (s : State) : Res :=
  hostAtomic vf off (.cas wide compare value) s

/-- A read or atomic of the host that has waited is made again. -/
def hostAgain (r : HostRead) (s0 : State) : Res :=
  let s : State := { s0 with dev := { s0.dev with hostWait := s0.dev.hostWait.erase r } }
  match r.atomic with
  | none => execHostBar2Access r.vf r.off r.bytes none s
  | some a => hostAtomic r.vf r.off a s

/-! ### The event ring's control (R363) -/

/-- A write of EVCTL: values 0 to 3 of LOG2N leave it, and RD and WR become 0 when EN rises. -/
def EventRegs.setCtl (e : EventRegs) (v : Word) : EventRegs :=
  let on := v.getLsbD 31
  let n : BitVec 4 := v.setWidth 4
  let e1 := { e with en := on, log2n := if n.toNat < 4 then e.log2n else n }
  if on && !e.en then { e1 with rd := 0, wr := 0 } else e1

/-- EVCTL of a polder is written. -/
def State.setEvctl (s : State) (n : Nat) (value : Word) : State :=
  s.setPolder n { s.polder n with events := (s.polder n).events.setCtl value }

/-- EVCTL_WRITE (R363). -/
def execEvctlWrite (vf : Nat) (value : Word) (s : State) : Res :=
  onServed vf (fun n s => .next (s.setEvctl n value)) s

/-! ### Requests of peers (R367, R368) -/

/-- Bytes that a request touches, and whether it reads and writes them. -/
def peerShape : PeerOp → Nat × Bool × Bool
  | .read n => (n, true, false)
  | .write l => (l.length, false, true)
  | .rmw _ wide _ => (atomBytes wide, true, true)
  | .ordered _ _ => (8, true, true)

/-- An export entry matches a request. -/
def Export.grants (e : Export) (r : PeerRequest) : Bool :=
  let k := peerShape r.op
  e.control.getLsbD 63 && (!k.2.1 || e.control.getLsbD 61) && (!k.2.2 || e.control.getLsbD 62) &&
    e.control.toNat / 2 ^ 48 % 512 == r.device && e.control.toNat / 2 ^ 40 % 64 == r.polder &&
    decide (e.base.toNat ≤ r.address ∧ r.address + k.1 ≤ e.base.toNat + e.size.toNat * 65536)

/-- A polder whose memory holds the request's bytes exports them to the requester; one that is being reset refuses
(R361). -/
def State.exported (s : State) (r : PeerRequest) : Bool :=
  let pas := (List.range (peerShape r.op).1).map (r.address + ·)
  (List.range 64).any fun n =>
    let p := s.polder n
    !p.part.flrGo && pas.all p.inRange && p.part.exps.toList.any fun e => e.grants r

/-- A peer is answered. -/
def State.answerPeer (s : State) (a : PeerAnswer) : State := { s with dev := { s.dev with peerReply := some a } }

/-- A peer is answered with a failure. -/
def State.refusePeer (s : State) (cause : Cause) : State := s.answerPeer (.failed (BitVec.ofNat 6 cause.code) 0)

/-- The value that a peer's atomic or reduction writes (R171, R172). -/
def peerRmw (op : PeerRmw) (wide : Bool) (value : Word) (old : Nat) : Nat :=
  let b := atomOperand wide value
  match op with
  | .add => old + b
  | .and => old &&& b
  | .or => old ||| b
  | .xor => old ^^^ b
  | .min => atomMin wide old b
  | .max => atomMax wide old b
  | .minu => min old b
  | .maxu => max old b
  | .swap => b
  | .addF32 => addF32 old b
  | .cas expected => if old = atomOperand wide expected then b else old

/-- A granted request is performed at this device's L2 (R368, R170, R174). -/
def State.servePeer (s : State) (r : PeerRequest) : State :=
  let n := (peerShape r.op).1
  let pas := (List.range n).map (r.address + ·)
  let ag := peerAgent r.polder r.address
  let s := s.landReaching ag (pas.map Place.hbm)
  let bad := (pas.filterMap fun a => s.poisonAt ag ⟨.hbm a, .hc, none⟩).head?
  match r.op, bad with
  | .read _, some cause => s.refusePeer cause
  | .read _, none => s.answerPeer (.data (rdBytes s.mem r.address n))
  | .write l, _ => (s.writePhys ag r.address l).answerPeer (.data [])
  | .rmw _ _ _, some cause => s.refusePeer cause
  | .rmw op wide value, none =>
    let old := rdBytes s.mem r.address n
    (s.writePhys ag r.address (leBytes n (peerRmw op wide value (leNat old)))).answerPeer (.data old)
  | .ordered value num, _ =>
    let m : RofMsg := ⟨r.address, num, value, none, .S, 0, r.polder, BitVec.ofNat 64 r.address, 0, false⟩
    { s with rofSent := s.rofSent.append [m], dev := { s.dev with peerReply := none } }

/-- PEER_REQUEST (R367, R368): granted by an export entry, then checked against the secure ranges. -/
def execPeerRequest (r : PeerRequest) (s : State) : Res :=
  let pas := (List.range (peerShape r.op).1).map (r.address + ·)
  if !s.exported r then .next (s.refusePeer .permission)
  else if !r.secure && pas.any s.isSecure then .next (s.refusePeer .worldViolation)
  else if Config.hbmBytes < r.address + pas.length then .fault (.physicalHole r.address)
  else .next (s.servePeer r)

/-! ### Responses of peers (R368) -/

/-- Bytes that have come from a peer, by virtual address. -/
def addFetched (m : Sparse (Option Byte)) (va : Word) (data : List Byte) : Sparse (Option Byte) :=
  ((vaBytes va data.length).zip data).foldl (fun t x => sset none t x.1.toNat (some x.2)) m

/-- A returning atomic's response: its register is written and its bundle completes, with the traps of the bundle
(R171, R327, R328). -/
def State.finishAtomic (s : State) (c : CoreId) (x : Cluster) (rd : SReg) (syl : Word) (data : List Byte) : Res :=
  let before := s.core c
  let s1 := s.setCl c x (((s.cl c x).setS rd (BitVec.ofNat 64 (leNat data))).complete)
  State.afterBundle { s1 with actor := ⟨c, x, syl, true, false⟩ } before

/-- An ordered reduction that a peer reports as failed: a gap is the issuer's deferred fault, or its polder's event
(R174, R336). -/
def State.orderedFailed (s : State) (c : CoreId) (x : Cluster) (syl : Word) (ctx : Nat) (va : Word) (cause : Cause) :
    Res :=
  if cause ≠ .orderedGap then .next (s.storeError c none cause va)
  else if (s.core c).ctx.isSome && ((s.core c).getSr srCtxid).toNat == ctx then
    s.raise c ⟨.orderedGap, 2, x, none, va, syl, false⟩
  else .next (s.sendEvent ⟨va, coreSource c none, .orderedGap, 6, (s.core c).polderNo⟩)

/-- A command of a queue changed. -/
def Core.mapCmd (k : Core) (e : Engine) (seq : Half) (f : Cmd → Cmd) : Core :=
  let q := k.queue e
  k.setQueue e { q with entries := q.entries.map fun x => if x.seq = seq then f x else x }

/-- The bytes of a response are used. -/
def State.peerData (s : State) (w : PeerWait) (data : List Byte) : Res :=
  match w.use with
  | .atomic c x rd syl => s.finishAtomic c x rd syl data
  | .store _ _ => .next s
  | .ordered _ _ _ _ => .next s
  | .fetch c x =>
    let k := s.cl c x
    .next (s.setCl c x { k with fetched := addFetched k.fetched w.va data })
  | .engine c e seq =>
    .next (s.setCore c ((s.core c).mapCmd e seq fun y => { y with fetched := addFetched y.fetched w.va data }))
  | .unit n read =>
    let p := s.polder n
    .next (if read then s.setPolder n { p with fetched := addFetched p.fetched w.va data } else s)
  | .image _ _ => .next s
  | .host _ => .next (s.answerHost (.data data))
  | .hostWrite _ => .next s

/-- The engine whose access it is: none for a cluster's. -/
def Party.engine? : Party → Option Engine
  | .cluster _ => none
  | .engine e => some e

/-- A response that reports a failure at a byte (R368): a fault of a load, an atomic or a command's read, and an event of a
store or reduction. -/
def State.peerFailed (s : State) (w : PeerWait) (va : Word) (cause : Cause) : Res :=
  let failing (k : ClusterState) : ClusterState := { k with failed := k.failed ++ [(va, cause)] }
  match w.use with
  | .atomic c x _ _ => .next (s.setCl c x (failing (s.cl c x)))
  | .store c who => .next (s.storeError c who.engine? cause va)
  | .ordered c x syl ctx => s.orderedFailed c x syl ctx va cause
  | .fetch c x => .next (s.setCl c x (failing (s.cl c x)))
  | .engine c e seq => .next (s.setCore c ((s.core c).mapCmd e seq fun y => { y with failed := y.failed ++ [(va, cause)] }))
  | .unit n read =>
    if read then .next (s.setPolder n { s.polder n with failed := (s.polder n).failed ++ [(va, cause)] })
    else .next (s.sendEvent ⟨va, s.launcherSource n, cause, 8, n⟩)
  | .image c n => .next (s.sendEvent ⟨va, coreSource c none, cause, 8, n⟩)
  | .host n => .next (s.hostFail n cause va true)
  | .hostWrite n => .next (s.hostFail n cause va false)

/-- PEER_RESPONSE (R368): the access at a place of those that wait is answered. -/
def execPeerResponse (place : Nat) (answer : PeerAnswer) (s : State) : Res :=
  match s.peers[place]? with
  | none => .next s
  | some w =>
    let s1 : State := { s with peers := s.peers.eraseIdx place }
    match answer with
    | .data l => s1.peerData w l
    | .failed code byte => s1.peerFailed w (w.va + BitVec.ofNat 64 byte) (causeOfCode code.toNat)

/-- PEER_TIMEOUT (R368). -/
def execPeerTimeout (place : Nat) (s : State) : Res :=
  match s.peers[place]? with
  | none => .next s
  | some w =>
    if w.age < Config.peerLimit then .next s
    else State.peerFailed { s with peers := s.peers.eraseIdx place } w w.va .peerTimeout

/-! ### Links and bandwidth -/

/-- The source field of a port's event: ports 0 to 7 on I/O die 0 and 8 to 15 on I/O die 1 (R331). -/
def portSource (p : Nat) : Half := BitVec.ofNat 32 (4 * 2 ^ 24 + (4 + p / 8) * 2 ^ 16 + 0xFF00 + p % 8)

/-- FLIT_REPLAY (R369): a replay has failed; after 16 of one flit the port goes down. -/
def execFlitReplay (port : Nat) (s : State) : Res :=
  let p := tget ⟨false, 0⟩ s.ports port
  if 16 ≤ port ∨ !p.up then .next s
  else
    let n := if Config.sameFlit s.free then p.replays + 1 else 1
    if n < Config.replayLimit then .next { s with ports := tset s.ports port ⟨true, n⟩ }
    else .next (State.sendEvent { s with ports := tset s.ports port ⟨false, 0⟩ } ⟨0, portSource port, .linkError, 4, noPolder⟩)

/-- A polder's count at a controller at the start of a window, before any unit takes one (R359). -/
def PolderRegs.topUp (p : PolderRegs) (c : Nat) : Nat :=
  let rate := (tget 0 p.rate c).toNat
  min (tget 0 p.tokens c + rate) (max (tget 0 p.burst c).toNat rate)

/-- Units take the tokens that there are, those that waited first, and the others wait; a polder with no limit takes none
(R359). -/
def PolderRegs.serve (p : PolderRegs) (arrive : Nat → Nat) (count : Nat → Nat) : PolderRegs :=
  let due (c : Nat) : Nat := if tget 0 p.rate c = 0 then 0 else tget 0 p.owed c + arrive c
  { p with
    tokens := ⟨⟨(List.range 8).map fun c => count c - due c⟩, by simp⟩
    owed := ⟨⟨(List.range 8).map fun c => due c - count c⟩, by simp⟩ }

/-- A polder's counts at the start of a window: the units that have waited are served (R359). -/
def PolderRegs.refill (p : PolderRegs) : PolderRegs := p.serve (fun _ => 0) p.topUp

/-- TOKEN_REFILL (R359): a window begins at every controller. -/
def execTokenRefill (s : State) : Res :=
  .next { s with polders := tmap (fun p : Polder => { p with part := p.part.refill }) s.polders }

end Sys2Proof.Machine
end

