-- ==== Sys2Proof/Machine/Topk.lean ====
section
/-!
DEFINITION. The top-k engine and the die's selection unit (R147, R148, R263).
-/

namespace Sys2Proof.Machine

/-! ### Operands and checks (R137, R147) -/

/-- The input stream. -/
def topkI (w : Word) : StReg := wordSt w 19
/-- The output stream. -/
def topkO (w : Word) : StReg := wordSt w 14
/-- k. -/
def topkK (w : Word) : Nat := wordField w 6 8 + 1
/-- P: the input slot holds pairs. -/
def topkPairs (w : Word) : Bool := w.getLsbD 5
/-- PI: the input slot is popped. -/
def topkPop (w : Word) : Bool := w.getLsbD 4

/-- The elements of a tile. -/
def Desc.elems (d : Desc) : Nat := Desc.rows d * Desc.cols d

/-- Bytes of a candidate in the input slot. -/
def topkUnit (w : Word) : Nat := if topkPairs w then 8 else 4

/-- The check of the input (R137), but for the bound on n, whose failure R147 names. -/
def Core.topkIn (k : Core) (w : Word) : Check :=
  let d := (k.stream (topkI w)).desc
  let n := Desc.elems (d.getD 0) * topkUnit w
  roleCheck d ⟨n, [ElemType.f32.code, ElemType.i32.code], none, none, [0, 1, 2], false, some n⟩

/-- The check of the output (R137), but for its format, whose failure R147 names. -/
def Core.topkOut (k : Core) (w : Word) : Check :=
  let d := (k.stream (topkO w)).desc
  roleCheck d ⟨8 * topkK w, [Desc.format (d.getD 0)], none, none, [0, 1, 2], false, some (8 * topkK w)⟩

/-- The element count lies outside the range of R137. -/
def Core.topkCount (k : Core) (w : Word) : Bool :=
  let n := Desc.elems ((k.stream (topkI w)).desc.getD 0)
  !decide (1 ≤ n ∧ n ≤ 32768)

/-- The output has another format than the input (R137). -/
def Core.topkFormats (k : Core) (w : Word) : Bool :=
  Desc.format ((k.stream (topkO w)).desc.getD 0) != Desc.format ((k.stream (topkI w)).desc.getD 0)

/-- A TOPK is ready (R147): a stream that fails any column of R137 counts as ready. -/
def Core.topkReady (k : Core) (w : Word) : Bool :=
  readyUnless (k.topkIn w) (k.topkCount w || decide (1 ≤ k.available (topkI w))) &&
    readyUnless (k.topkOut w) (k.topkFormats w || decide (1 ≤ (k.stream (topkO w)).free ((k.stream (topkO w)).desc.getD 0)))

/-- What a TOPK does at its start (R147). -/
def State.topkLaunch (s : State) (c : CoreId) (x : Cmd) (w : Word) : Launch :=
  let k := s.core c
  let d := (k.stream (topkI w)).desc.getD 0
  let n := Desc.elems d
  let role := firstCheck [k.topkIn w, k.topkOut w]
  let rest := firstCheck
    [failIf (k.topkCount w || decide (n < topkK w)) .topkParameter,
     failIf (k.topkFormats w) .streamFormat,
     s.poisonCheck c [(Desc.slotOff d (k.headOf x (topkI w)), n * topkUnit w)]]
  { check := if role.isSome then role else rest
    claims := [(topkO w, 1)]
    reserves := if topkPop w then [(topkI w, 1)] else []
    heads := [(topkI w, 1)]
    walk := (Desc.ibase d).toNat
    rowScale := []
    colScale := []
    board := []
    isBound := true }

/-! ### The order of candidates (R148) -/

/-- The key of a value: larger first; −0 equals +0, and a NaN lies below −∞. -/
def topkKey (format v : Nat) : Int :=
  if format = ElemType.i32.code then (BitVec.ofNat 32 v).toInt
  else
    let m := v % 2 ^ 31
    if fmtF32.inf < m then -(2 ^ 33 : Int)
    else if 2 ^ 31 ≤ v then -(m : Int) else m

/-- A candidate (value, logical index) comes no later than another. -/
def topkBefore (format : Nat) (a b : Nat × Nat) : Bool :=
  decide (topkKey format b.1 < topkKey format a.1) ||
    (topkKey format a.1 == topkKey format b.1 && decide (a.2 ≤ b.2))

/-- The candidates of an input slot, in the order of the slot (R147). -/
def topkCandidates (pairs : Bool) (ibase n : Nat) (words : Array Nat) : List (Nat × Nat) :=
  (List.range n).map fun j =>
    if pairs then (words.getD (2 * j) 0, words.getD (2 * j + 1) 0)
    else (words.getD j 0, (ibase + j) % 2 ^ 32)

/-- The first `k` candidates in the order of R148; equal ones keep their order in the slot. -/
def topkFirst (format k : Nat) (l : List (Nat × Nat)) : List (Nat × Nat) := (l.mergeSort (topkBefore format)).take k

/-- The 32-bit words of a list of bytes. -/
def padWords (bytes : List Byte) : Array Nat :=
  let raw := bytes.toArray
  ((List.range (raw.size / 4)).map fun i =>
    leNat ((List.range 4).map fun b => raw.getD (4 * i + b) 0)).toArray

/-- What a TOPK writes, with its scratchpad offset (R147). -/
def Core.topkWrite (k : Core) (x : Cmd) (w : Word) (st : Started) : Nat × List Byte :=
  let d := st.desc (topkI w)
  let n := Desc.elems d
  let words := padWords (k.padRead x (st.headOff (topkI w)) (n * topkUnit w))
  let out := topkFirst (Desc.format d) (topkK w) (topkCandidates (topkPairs w) st.walk n words)
  (st.claimOff x (topkO w), out.flatMap fun e => leBytes 4 e.1 ++ leBytes 4 e.2)

/-- The rings of a TOPK after it retires: the output published; with PI the input popped, and without pairs its index
base advanced. -/
def Core.topkRetire (k : Core) (x : Cmd) (w : Word) : Core :=
  let k1 := k.setStream (topkO w) ((k.stream (topkO w)).publCmd ⟨.topk, x.seq⟩)
  if !topkPop w then k1
  else
    let y := k1.stream (topkI w)
    let d := y.desc.getD 0
    let d1 := if topkPairs w then d else Desc.setField d 0x34 4 ((Desc.ibase d).toNat + Desc.elems d)
    k1.setStream (topkI w) { y.pop 1 with desc := some d1 }

/-! ### The selection unit (R263) -/

/-- The cores of a die. -/
def dieCores (d : Nat) : List CoreId := (List.range 64).filterMap fun i => coreOfNat (64 * d + i)

/-- The core whose TOPK runs on the die's unit. -/
def State.topkOwner (s : State) (d : Nat) : Option CoreId :=
  (dieCores d).find? fun c => ((s.core c).queue .topk).entries.any fun x =>
    (x.started.map (·.dedicated)).getD false && hasEop [1] ((s.core c).cmdWord .topk x.seq)

/-- The TOPK that a core has ready for the unit: its core may start it (R263, R349). -/
def State.topkWants (s : State) (c : CoreId) : Option Cmd :=
  let k := s.core c
  ((k.queue .topk).nextCmd .topk).filter fun x =>
    let w := k.cmdWord .topk x.seq
    !s.dev.stopped && s.mayRun c && !x.faulted && k.mayStart .topk x && wordOk .topk w && hasEop [1] w && k.cmdReady x w && k.topkReady w &&
      x.pref != .subst

/-- The keys of the choice (R257, R263). -/
def State.topkKey (s : State) (c : CoreId) (x : Cmd) : Nat :=
  let last := (s.die c).topkLast
  (((s.core c).rank * 2 + (if x.pref = .dpref then 1 else 0)) * 64) + (63 - (c.val % 64 + 63 - last) % 64)

/-- The core that the free unit of a die chooses (R263). -/
def State.topkWinner (s : State) (d : Nat) : Option CoreId :=
  (dieCores d).foldl (fun b c =>
    match s.topkWants c, b with
    | none, _ => b
    | some _, none => some c
    | some x, some a =>
      match s.topkWants a with
      | none => some c
      | some y => if s.topkKey a y < s.topkKey c x then some c else some a) none

/-- The binding of a TOPK that is ready (R263, R266). One that meets the unit busy with its own core's command waits (DEDUCED,
assumption entry 62). -/
def State.bindTopk (s : State) (c : CoreId) (x : Cmd) : Binding :=
  if x.pref = .subst then .substitute
  else
    match s.topkOwner (c.val / 64) with
    | none => if s.topkWinner (c.val / 64) = some c then .dedicated else .waits
    | some o =>
      if o = c then .waits
      else if (s.core o).rank < (s.core c).rank ∨ ((s.core o).rank = (s.core c).rank ∧ x.pref = .dpref) then .waits
      else .substitute

/-- The winner of the unit is remembered for its round-robin (R257). -/
def State.noteWinner (s : State) (c : CoreId) (dedicated : Bool) : State :=
  if dedicated then s.setDie c { s.die c with topkLast := c.val % 64 } else s

/-- TOPK starts (R147, R263). -/
def execTopkCommand (core : Nat) (s : State) : Res :=
  startEvent core .topk (hasEop [1]) (fun c x w s =>
    if !(s.core c).topkReady w then .next s
    else startBound (s.bindTopk c x) (fun ded => (s.noteWinner c ded).tryStart c .topk x w ded (s.topkLaunch c x w)) s) s

end Sys2Proof.Machine
end

