-- ==== Sys2Proof/Machine/Retire.lean ====
section
/-!
DEFINITION. Retirement of engine commands (R136, R239, R244, R246, R251, R258, R316, R328, R334).
-/

namespace Sys2Proof.Machine

/-! ### The matrix drain of a save (R334) -/

/-- The readiness of a matrix command. -/
def Core.mtxReady (k : Core) (w : Word) : Bool :=
  match wordEop w with
  | 1 => k.mmaReady w
  | 2 => k.mretReady w
  | _ => true

/-- The matrix queue's next command may start now, but for its binding. -/
def Core.drainReady (k : Core) : Bool :=
  k.draining &&
    match (k.queue .mtx).nextCmd .mtx with
    | none => false
    | some x =>
      let w := k.cmdWord .mtx x.seq
      !x.faulted && wordOk .mtx w && k.cmdReady x w && k.mtxReady w

/-- The drain of a core that is saved goes on or ends, as it stands when a matrix command retires (R334). -/
def Core.reviewDrain (k : Core) : Core :=
  if k.phase = .saving ∧ k.drainReady = false then { k with xfer := k.xfer.map fun x => { x with drain := false } } else k

/-! ### The weir (R244, R245) -/

/-- The least of the NOTIFY counts of an event over the queues of a mask. -/
def Core.weirLeast (k : Core) (mask : BitVec 5) (ev : Nat) : Nat :=
  (maskEngines mask).foldl (fun m e => min m (tget 0 (tget (Vector.replicate 8 0) k.eng.weirN e.code) ev).toNat) (2 ^ 32)

/-- The key of a NOTIFY's record. -/
def noteKey (n : Nat) (ev : Nat) (e : Engine) : Nat := 40 * n + 5 * ev + e.code

/-- A NOTIFY retires (R244): its queue's count rises, and the event fires as often as every queue of the mask allows;
each firing joins the commands before the NOTIFYs it counts (R193, R245). -/
def Core.notified (k : Core) (e : Engine) (w : Word) (front : Front) : Core :=
  let mask : BitVec 5 := w.extractLsb' 3 5
  let ev := wordField w 0 3
  let row := tget (Vector.replicate 8 0) k.eng.weirN e.code
  let n := tget 0 row ev + 1
  let k1 := { k with eng := { k.eng with
    weirN := tset k.eng.weirN e.code (tset row ev n)
    weirNote := sset .none k.eng.weirNote (noteKey n.toNat ev e) front } }
  let old := (tget 0 k1.eng.weirF ev).toNat
  let new := max old (k1.weirLeast mask ev)
  let fire (fs : Sparse Front) (i : Nat) : Sparse Front :=
    let m := old + 1 + i
    let f := (maskEngines mask).foldl (fun f q => f.join (sget .none k1.eng.weirNote (noteKey m ev q))) .none
    sset .none fs (8 * m + ev) f
  { k1 with eng := { k1.eng with
    weirF := tset k1.eng.weirF ev (BitVec.ofNat 32 new)
    weirFront := (List.range (new - old)).foldl fire k1.eng.weirFront } }

/-! ### The work of a command -/

/-- The lowest watched byte of scratchpad runs that a command reads and writes (R328). -/
def State.padWatches (s : State) (c : CoreId) (e : Engine) (reads writes : List (Nat × Nat)) : Option Word :=
  let look (kind : AccKind) (h : Option Word) (r : Nat × Nat) : Option Word := minAddr h (s.padWatch c e kind r.1 r.2)
  writes.foldl (look .write) (reads.foldl (look .read) none)

/-- What a command writes to the scratchpad is written: the runs whole, or what is left of them, when it has computed them
before (R195). -/
def State.writeResult (s : State) (c : CoreId) (e : Engine) (x : Cmd) (ws : List (Nat × List Byte)) : State :=
  if x.prog = 0 then s.padWrites c e ws else s.landOuts c e x.out

/-- The lengths of runs. -/
def runLengths (ws : List (Nat × List Byte)) : List (Nat × Nat) := ws.map fun r => (r.1, r.2.length)

/-- The work of a matrix command (R140 to R144). -/
def State.mtxWork (s : State) (c : CoreId) (x : Cmd) (w : Word) (st : Started) : Finish :=
  let k := s.core c
  match wordEop w with
  | 1 =>
    let run (n : StReg) : List (Nat × Nat) :=
      (st.headOff n, Desc.tileBytes (st.desc n)) :: Desc.scaleRun (st.desc n) (st.headOff n)
    .done (s.setCore c (k.mmaDone x w st)) 0 (s.padWatches c .mtx (run (mmaA w) ++ run (mmaB w)) [])
  | 2 =>
    let d := st.desc (mretD w)
    let t := k.retAll x w st
    let ws := k.mretWrites x w st t
    let s1 := s.writeResult c .mtx x ws
    .done (s1.setCore c ((s1.core c).mretCounts x w st t)) 0
      (s.padWatches c .mtx (if isRn (Desc.format d) then Desc.scaleRun d (st.claimOff x (mretD w)) else []) (runLengths ws))
  | 3 => .done (s.setCore c (k.mzeroDone w)) 0 none
  | _ => .done s 0 none

/-- The work of a command that has started (R239). -/
def State.cmdWork (s : State) (c : CoreId) (e : Engine) (x : Cmd) (w : Word) (st : Started) : Finish :=
  if hasEop [14, 15] w then .done s 0 none
  else match e with
    | .mtx => s.mtxWork c x w st
    | .cin | .cout => s.copyWork c e x w st (copyTiles w)
    | .gth => s.gathWork c x w st
    | .topk =>
      let r := (s.core c).topkWrite x w st
      .done (s.writeResult c .topk x [r]) 0 (s.padWatches c .topk
        [(st.headOff (topkI w), Desc.elems (st.desc (topkI w)) * topkUnit w)] (runLengths [r]))

/-! ### Slots read and results written before the retirement (R195; assumption entry 32) -/

/-- The scratchpad runs that a started command reads at moments of its own. -/
def Core.slotReads (k : Core) (e : Engine) (x : Cmd) (w : Word) (st : Started) : List (Nat × Nat) :=
  match e, wordEop w with
  | .mtx, 1 => [mmaA w, mmaB w].map fun n => (st.headOff n, Desc.tileBytes (st.desc n))
  | .cout, _ =>
    ((List.range (copyTiles w)).drop x.prog).map fun i => (k.copyPlace .cout x w st i, Desc.tileBytes (st.desc (copyS w)))
  | .gth, _ => [(st.headOff (gathS w), 516)]
  | .topk, _ => [(st.headOff (topkI w), Desc.elems (st.desc (topkI w)) * topkUnit w)]
  | _, _ => []

/-- The sectors of the slots of the oldest command of a queue that it has not read, each with its length. -/
def Core.slotSectors (k : Core) (e : Engine) : List (Nat × Nat) :=
  match k.headRun e [1, 2] with
  | none => []
  | some (x, w, st) =>
    ((k.slotReads e x w st).flatMap fun r => padRuns r.2 r.1 r.2).filter fun r => (sget none x.fetched (ownVa r.1).toNat).isNone

/-- Sector `i` of those is read. -/
def State.slotSample (s0 : State) (c : CoreId) (e : Engine) (i : Nat) : State :=
  let s := s0.meetPad c
  let k := s.core c
  match k.headRun e [1, 2], (k.slotSectors e)[i]? with
  | some (x, _, _), some r =>
    if s.fenced.contains (.scratchpad c.val (r.1 / 32)) then s
    else s.remember c e x (vaBytes (ownVa r.1) r.2) (rdBytes k.loc.scratch r.1 r.2)
  | _, _ => s

/-- What a command that moves no tiles writes to the scratchpad, once it has read all that it reads: the machine, the runs and
the lowest watched byte of a gather. -/
def State.resultOf (s : State) (c : CoreId) (e : Engine) (x : Cmd) (w : Word) (st : Started) :
    Option (State × List (Nat × List Byte) × Option Word) :=
  match e, wordEop w with
  | .mtx, 2 => some (s, (s.core c).mretWrites x w st ((s.core c).retAll x w st), none)
  | .topk, 1 => some (s, [(s.core c).topkWrite x w st], none)
  | .gth, 1 => (s.gathPlan c (fun s vas => s.engineRead c .gth x vas) x w st).toOption
  | _, _ => none

/-- The oldest command of a queue computes what it writes next: its pieces may be written from now on. -/
def State.openNext (s0 : State) (c : CoreId) (e : Engine) : State :=
  if e = .cin ∨ e = .cout then s0.openTile c e
  else
    let s := s0.meetPad c
    match (s.core c).headRun e [1, 2] with
    | none => s
    | some (x, w, st) =>
      if x.prog ≠ 0 then s
      else match s.resultOf c e x w st with
        | none => s
        | some (s1, ws, h) => s1.addOut c e x (ws.flatMap fun r => padPieces c r.1 r.2) h

/-! ### Retirement (R239) -/

/-- Publications, pops and descriptor updates of a command (R136, R239). -/
def Core.retireRings (k : Core) (e : Engine) (x : Cmd) (w : Word) : Core :=
  if hasEop [14, 15] w then k
  else match e with
    | .mtx =>
      let k1 := if wordEop w = 2 then k.setStream (mretD w) ((k.stream (mretD w)).publCmd ⟨.mtx, x.seq⟩) else k
      x.reserves.foldl (fun k r => k.setStream r.st ((k.stream r.st).pop r.n)) k1
    | .cin | .cout => k.copyRetire e x w
    | .gth => k.gathRetire x w
    | .topk => k.topkRetire x w

/-- The completion stream of a command. -/
def completionOf (e : Engine) (w : Word) : Option StReg :=
  if hasEop [14, 15] w then none
  else match e with
    | .cin | .cout => copyC w
    | .gth => gathC w
    | _ => none

/-- The bytes of a completion record (R246). -/
def completionBytes (e : Engine) (seq : Half) (bytes : Nat) : List Byte :=
  leBytes 8 (seq.toNat * 2 ^ 32 + e.code * 2 ^ 16 + 1) ++ leBytes 8 bytes

/-- The completion record written and its slot published (R246), with the watched byte of the write. -/
def State.completion (s : State) (c : CoreId) (e : Engine) (x : Cmd) (w : Word) (run : Started) (bytes : Nat) :
    State × Option Word :=
  match completionOf e w with
  | none => (s, none)
  | some st =>
    let o := run.claimOff x st
    let s1 := s.padWrite c e o (completionBytes e x.seq bytes)
    let k1 := s1.core c
    (s1.setCore c (k1.setStream st ((k1.stream st).publCmd ⟨e, x.seq⟩)), s.padWatch c e .write o 16)

/-- A command leaves its queue, its signal is given, and the next one may begin its flag wait (R31, R239, R240). -/
def Core.leave (k : Core) (e : Engine) (x : Cmd) (w : Word) : Core :=
  let front := k.frontOf ⟨e, x.seq⟩
  let q := k.queue e
  let k1 := k.setQueue e { q with retired := x.seq, entries := q.entries.filter (·.seq ≠ x.seq) }
  let k2 := if wordEop w = 15 then k1.notified e w front else k1
  let f := signalFlag (wordSignal w)
  let k3 := if f = 0 then k2 else k2.signal f front
  let k4 := k3.beginFlagWait e
  if e = .mtx then k4.reviewDrain else k4

/-- A command retires (R239, R258, R328). -/
def State.retireCmd (s : State) (c : CoreId) (e : Engine) (x : Cmd) (w : Word) (st : Started) (bytes : Nat)
    (hit : Option Word) : Res :=
  let s1 := s.setCore c ((s.core c).retireRings e x w)
  let r := s1.completion c e x w st bytes
  let s2 := r.1.setCore c ((r.1.core c).leave e x w)
  let s3 := if e = .mtx ∧ isBoundWord w then s2.lapse c st.dedicated w else s2
  match minAddr hit r.2 with
  | none => .next s3
  | some va => s3.raise c ⟨.watchpoint, 1, .S, some e, va, w, false⟩

/-- A command awaits bytes of a peer, its first tiles written: they are asked for once (R368). -/
def State.engineAwait (s : State) (c : CoreId) (e : Engine) (x : Cmd) (prog : Nat) (hit : Option Word) (runs : List PeerRun) :
    State :=
  let k := s.core c
  let s1 := s.setCore c (k.setQueue e ((k.queue e).mapCmd x.seq fun y => { y with prog := prog, out := [], hit := hit }))
  if s.peers.any (·.use == .engine c e x.seq) then s1
  else s1.postPeers s.free (fun _ => .engine c e x.seq) false runs

/-- A copy or gather command meets a fault of its own (R251, R316, R317): it stops at its tile progress, holding its
claims, and those behind it are undone. -/
def State.engineStop (s : State) (c : CoreId) (e : Engine) (x : Cmd) (w : Word) (st : Started) (prog : Nat)
    (hit : Option Word) (cause : Cause) (va : Word) : Res :=
  let s1 := if e = .gth then s else s.copyMix c e x w st prog
  (s1.setCore c ((s1.core c).holdCmd e x.seq prog hit)).engineFault c e x.seq cause va

/-- The core's started commands run to retirement (R316, R333). -/
def Core.retires (k : Core) : Bool :=
  match k.phase with
  | .running => !k.inHandler
  | .stopping _ => true
  | .saving => true
  | _ => false

/-- A row of a core's scratchpad that is under self-test lies in the ranges of a command that has started: it stalls (R329). -/
def State.padFenced (s : State) (c : CoreId) (st : Started) : Bool :=
  !s.fenced.isEmpty && s.fenced.any fun site => match site with
    | .scratchpad d n => d == c.val && st.ranges.any fun r => decide (r.lo / 32 ≤ n ∧ n ≤ r.hi / 32)
    | _ => false

/-- The oldest command of a queue retires, when it has started (R239) and meets no row under self-test (R329). -/
def State.retireHead (s0 : State) (c : CoreId) (e : Engine) : Res :=
  let s := s0.meetPad c
  let k := s.core c
  match (k.queue e).entries.head? with
  | none => .next s
  | some x =>
    match x.started with
    | none => .next s
    | some st =>
      let w := k.cmdWord e x.seq
      if s.padFenced c st then .next s
      else match s.cmdWork c e x w st with
      | .done s1 bytes hit => s1.retireCmd c e x w st bytes hit
      | .stop s1 prog hit cause va => s1.engineStop c e x w st prog hit cause va
      | .await s1 prog hit runs => .next (s1.engineAwait c e x prog hit runs)
      | .hole pa => .fault (.physicalHole pa)

/-- COMMAND_RETIREMENT (R239). -/
def execCommandRetirement (core : Nat) (eng : Engine) (s : State) : Res :=
  match coreOfNat core with
  | none => .next s
  | some c => if (s.core c).retires && !s.dev.stopped then s.retireHead c eng else .next s

end Sys2Proof.Machine
end

