-- ==== Sys2Proof/Machine/Removal.lean ====
section
/-!
DEFINITION. The removal of a context (R347, R278).
-/

namespace Sys2Proof.Machine

/-! ### Commands that are flushed (R195, R347) -/

/-- A scratchpad of which some sectors hold what a stopped command wrote (assumption entry 23). -/
def mixSectors (now : Nat) (before after : Memory) : Memory :=
  ((before.map (·.1)).append (after.map (·.1))).foldl (fun m a =>
    if Config.landed now (a / 32) then wrByte m a (rdByte after a) else m) before

/-- The state in which a command's work has been done as far as it goes. -/
def Finish.state : Finish → Option State
  | .done t _ _ => some t
  | .stop t _ _ _ _ => some t
  | .await t _ _ _ => some t
  | .hole _ => none

/-- What a flushed CPRED has applied (R195, R347): its elements in order up to a free one. -/
def State.flushReduce (s : State) (c : CoreId) (x : Cmd) (w : Word) (st : Started) : State :=
  let p := Config.progress s.free
  let n := p % (copyTiles w - x.prog + 1)
  let q := p / (copyTiles w - x.prog + 1)
  if n = 0 ∧ !x.out.isEmpty then s.landOuts c .cout (x.out.take (q % (x.out.length + 1)))
  else
    let s1 := ((s.copyWork c .cout x w st (x.prog + n)).state).getD s
    match s1.outTile c x w st (x.prog + n) with
    | .ok (ps, _) => if x.prog + n < copyTiles w then s1.landOuts c .cout (ps.take (q % (ps.length + 1))) else s1
    | .error _ => s1

/-- What a running command that is flushed has written (R195, R347): a free choice of a copy's pieces, the first elements
of a CPRED, and of the others a free choice of scratchpad sectors. -/
def State.flushWrites (s : State) (c : CoreId) (e : Engine) (x : Cmd) : State :=
  let k := s.core c
  let w := k.cmdWord e x.seq
  match x.started with
  | none => s
  | some st =>
    if hasEop [14, 15] w then s
    else if isCpred e w then s.flushReduce c x w st
    else if e = .cin ∨ e = .cout then
      (s.landOuts c e (x.out.filter fun p => Config.landed s.free p.sector)).copyMix c e x w st x.prog
    else match (s.cmdWork c e x w st).state with
      | none => s
      | some t =>
        s.setCore c { k with loc := { k.loc with scratch := mixSectors s.free k.loc.scratch (t.core c).loc.scratch } }

/-- Every running command of a core, the queues from tail to head. -/
def State.flushAll (s : State) (c : CoreId) : State :=
  engineOrder.foldl (fun st e => ((st.core c).queue e).running.reverse.foldl (fun st x => st.flushWrites c e x) st) s

/-- A queue with no command left: those that had not retired report FLUSHED (R267). -/
def EngineQueue.flush (q : EngineQueue) : EngineQueue :=
  let mark (h : Hist) : Hist := if q.entries.any (·.seq = h.seq) then { h with status := .flushed } else h
  { q with
    hist := q.hist.map mark
    entries := [] }

/-- A partition of a context becomes invalid (R372). -/
def Partition.release (id : Nat) (p : Partition) : Partition := if p.tag = some id then { p with tag := none } else p

/-- A core whose context is removed, its stores performed: loads are dropped, queues flushed, accumulators idle, the partition invalid, and
the flags cleared last (R347). -/
def Core.stripped (k : Core) : Core :=
  let quiet (x : ClusterState) : ClusterState :=
    { x with status := .halted, pending := [], held := [], released := false }
  { k with
    cls := ⟨quiet k.cls.cS, quiet k.cls.cA, quiet k.cls.cX0, quiet k.cls.cX1⟩
    eng := { k.eng with queues := tmap EngineQueue.flush k.eng.queues, accs := Vector.replicate 6 .reset }
    regs := { k.regs with flags := Vector.replicate 128 .reset }
    loc := { k.loc with stash := [], parts := tmap (Partition.release (k.getSr srCtxid).toNat) k.loc.parts }
    posted := []
    trap := { k.trap with held := [], heldLoads := [] } }

/-- Responses that a core's loads, fetches and commands await are discarded when they arrive (R347, R360). -/
def State.abandonReads (s : State) (c : CoreId) : State :=
  { s with peers := s.peers.filter fun p => match p.use with
      | .atomic d _ _ _ => d != c
      | .fetch d _ => d != c
      | .engine d _ _ => d != c
      | _ => true }

/-- The event of a fault that stops a core's context for good: of the core, or of the device. -/
def EventRec.stops (e : EventRec) (c : CoreId) : Bool :=
  (e.source == coreSource c none || decide (64 ≤ e.polder)) && (e.kind == 5 || e.kind == 7)

/-- The arbiter's number of the event that stopped a core's context (R278, R331). -/
def State.fatalNum (s : State) (c : CoreId) : Option Half := ((s.dev.mgmt.filter fun m => m.rec_.stops c).getLast?).map (·.num)

/-- The removal that a task's completion word reports, when another follows (R278): of fault removals the first in the
arbiter's order, and a kill only where none precedes it. -/
def Task.noteRemoval (t : Task) (r : RemovalNote) : Task :=
  match t.removal with
  | none => { t with removal := some r }
  | some q =>
    match q.num, r.num with
    | some m, some n => if ordBefore n m then { t with removal := some r } else t
    | _, _ => t

/-- The removal of a core's context (R347): its iteration ends, and its task remembers why (R278). -/
def State.removeContext (s : State) (c : CoreId) (cause : Cause) : State :=
  match (s.core c).ctx with
  | none => s
  | some x =>
    let s0 := match (s.core c).xfer with
      | some f => s.answerXfer f 1
      | none => s
    let s1 := (((s0.settleCore c).meetPad c).flushAll c).abandonReads c
    let s2 := (s1.setCore c (s1.core c).stripped).freeCore c
    let s3 := s2.setIter x .ended
    match x.task with
    | none => s3
    | some uid => s3.mapTask uid fun t => t.noteRemoval ⟨cause, if cause = .kill then none else s.fatalNum c⟩

/-! ### The pre-emption registers' kill (R344, R345) -/

/-- The contexts of a task that are resident. -/
def State.taskCoresNow (s : State) (uid : Nat) : List CoreId :=
  allCores.filter fun c => ((s.core c).ctx.bind (·.task)) == some uid

/-- An operation of the pre-emption registers ends with a status (R344). -/
def State.endPreempt (s : State) (n : Nat) (status : Byte) : State :=
  let p := s.polder n
  s.setPolder n { p with preempt := { p.preempt with go := false, status := status, uid := none } }

/-- A kill in progress is done once no context of its task is left (R345). -/
def State.reviewKill (s : State) (n : Nat) : State :=
  let r := (s.polder n).preempt
  match r.uid with
  | none => s
  | some uid => if r.go && r.op == 3 && (s.taskCoresNow uid).isEmpty then s.endPreempt n 1 else s

/-- Management has received the event that stopped a core's context (R322, R330, R331). -/
def State.fatalKnown (s : State) (c : CoreId) : Bool := !s.dev.events.any fun e => e.stops c

/-- A removal of a kind is due on a core (R322, R330, R344). -/
def State.removalDue (s : State) (c : CoreId) (why : RemovalCause) : Bool :=
  let k := s.core c
  match why, k.ctx with
  | _, none => false
  | .doubleFault, some _ => k.phase == .doubleFault && s.fatalKnown c
  | .machineCheck, some _ => k.phase == .machineStop && s.fatalKnown c
  | .kill, some x =>
    let r := (s.polder x.polder).preempt
    r.go && r.op == 3 && x.task.isSome && r.uid == x.task

/-- The cause that a removal gives its task. -/
def removalCode : RemovalCause → Cause
  | .doubleFault => .doubleFault
  | .machineCheck => .machineCheck
  | .kill => .kill

/-- CONTEXT_REMOVAL (R347). -/
def execContextRemoval (core : Nat) (why : RemovalCause) (s : State) : Res :=
  onCore core (fun c s =>
    if !s.removalDue c why then .next s
    else
      let n := (s.core c).polderNo
      .next ((s.removeContext c (removalCode why)).reviewKill n)) s

end Sys2Proof.Machine
end

