-- ==== Sys2Proof/Machine/Image.lean ====
section
/-!
DEFINITION. The context image (R338 to R340, R389, R397): what a save writes, what a load checks and restores. Places
inside a block that the tables leave open are the model's (assumption entry 26).
-/

namespace Sys2Proof.Machine

/-! ### Fields -/

/-- A field of an image: offset, bytes, value. -/
abbrev Field := Nat × Nat × Nat

/-- A field put into an image that is zero there. -/
def imgPut (m : Memory) (f : Field) : Memory := if f.2.2 = 0 then m else wrBytes m f.1 (leBytes f.2.1 f.2.2)

/-- Fields put one after another. -/
def imgPuts (m : Memory) (l : List Field) : Memory := l.foldl imgPut m

/-- A field read from an image. -/
def imgGet (m : Memory) (off n : Nat) : Nat := leNat (rdBytes m off n)

/-- The elements of a list as fields of `n` bytes each from an offset. -/
def fieldRow (off n : Nat) (l : List Nat) : List Field := (enumFrom0 l).map fun x => (off + n * x.1, n, x.2)

/-! ### The header (R339) -/

/-- Open accumulators. -/
def Core.openAccs (k : Core) : List Nat := (List.range 6).filter fun i => (tget Acc.reset k.eng.accs i).isOpen

/-- The OPEN byte. -/
def Core.openByte (k : Core) : Nat := (k.openAccs.map fun i => 2 ^ i).sum

/-- The size of an image with a number of open accumulators (R338). -/
def imageBytes (n : Nat) : Nat := 0x280000 + 0x20000 * n

/-- The core counts of the polder's logical dies. -/
def Polder.shape (p : Polder) : List Nat := p.dieList.map fun d => (p.dieCores d).length

/-- The header of a core's image. -/
def Core.headerFields (k : Core) (p : Polder) (c : CoreId) (time : Word) : List Field :=
  let x := p.position c
  let task := (k.ctx.map fun y => y.taskId.toNat).getD 0
  [(0, 4, 0x58434659), (4, 2, 1), (6, 1, k.openByte),
    (7, 1, (if k.inHandler then 1 else 0) + (if (k.getSr srPurectl).getLsbD 0 then 2 else 0)),
    (8, 4, imageBytes k.openAccs.length), (0xC, 4, task), (0x10, 1, x.1), (0x11, 1, x.2), (0x12, 1, p.dieList.length),
    (0x20, 8, (k.ctx.map fun y => y.record.toNat).getD 0), (0x28, 8, (k.ctx.map fun y => y.done.toNat).getD 0),
    (0x30, 8, time.toNat)].append (fieldRow 0x14 1 p.shape)

/-! ### Clusters (R340) -/

/-- Loop entries in the order of their nesting, outermost first. -/
def loopFields (off : Nat) (l : List LoopEntry) : List Field :=
  (enumFrom0 l.reverse).flatMap fun x =>
    fieldRow (off + 24 * x.1) 8 [x.2.start.toNat, x.2.last.toNat, x.2.remaining.toNat]

/-- The fields of a cluster. -/
def clusterFields (x : Cluster) (k : ClusterState) : List Field :=
  let b := 0x260800 + 0x100 * x.code
  let u : List Nat := match k.useq with
    | none => []
    | some y => [1, y.slot.toNat, y.upc]
  ((fieldRow (0x260000 + 0x200 * x.code) 8 (k.s.toList.map (·.toNat))).append
    [(b, 8, (fpcWord k).toNat), (b + 8, 2, k.allP.toNat), (b + 0xA, 2, k.loops.length)]).append
  (((loopFields (b + 0x10) k.loops).append (fieldRow (b + 0x70) 4 (k.consumed.toList.map (·.toNat)))).append
    ((fieldRow (b + 0x90) 1 u).append
      [(0x26E920 + 8 * x.code, 4, k.joined.mtx.toNat), (0x26E924 + 8 * x.code, 4, k.joined.cin.toNat)]))

/-- The temporaries of X0 and X1. -/
def tempFields (k : Core) : List Field :=
  (fieldRow 0x26C800 256 (k.cls.cX0.temps.toList.map (·.toNat))).append
    (fieldRow 0x26D800 256 (k.cls.cX1.temps.toList.map (·.toNat)))

/-! ### Shared registers (R340) -/

/-- The special registers at 0x26_0E00, in order; %cycle stands third. -/
def imageSrs : List Nat :=
  [srFpstat, srFpctl, srCycle, srGen, srRank, srMmrev, srFlmode, srQroute, srPurectl, srCsmap].append
    (((List.range 9).map (srBkpt + ·)).append (((List.range 5).map (srWatch + ·)).append
      ((List.range 11).map (srCore + ·))))

/-- A special register as an image holds it. -/
def Core.imageSr (k : Core) (n : Nat) : Nat := if n = srCycle then k.trap.cycle.toNat else (k.getSr n).toNat

/-- Masks, flags, weir counts, special and frame registers, held loops and reports. -/
def sharedFields (k : Core) : List Field :=
  let masks := (List.range 16).map fun n => (k.getM (BitVec.ofNat 4 n)).toNat
  let flags := k.regs.flags.toList.map fun f => f.value % 256
  let weir := (k.eng.weirN.toList.flatMap (·.toList.map (·.toNat))).append (k.eng.weirF.toList.map (·.toNat))
  let held := (enumFrom0 (k.trap.held.take 8)).flatMap fun x =>
    fieldRow (0x2610F0 + 16 * x.1) 8 [(causeWord x.2).toNat, x.2.addr.toNat]
  ((fieldRow 0x260C00 8 masks).append (fieldRow 0x260C80 1 flags)).append
    ((fieldRow 0x260D00 4 weir).append ((fieldRow 0x260E00 8 (imageSrs.map k.imageSr)).append
      ((fieldRow 0x261000 8 ((List.range 17).map k.imageSr)).append
        ((0x261088, 8, k.trap.heldLoops.length) :: (loopFields 0x261090 k.trap.heldLoops).append held))))

/-- Queues, their occupancy, the queue-used bit, stash mappings, preferences and the deque. -/
def queueFields (k : Core) : List Field :=
  let vq := (enumFrom0 k.regs.vq.toList).flatMap fun x => fieldRow (0x264000 + 0x800 * x.1) 256 (x.2.map (·.toNat))
  let sq := (enumFrom0 k.regs.sq.toList).flatMap fun x => fieldRow (0x26A000 + 0x100 * x.1) 8 (x.2.map (·.toNat))
  let sizes := (k.regs.vq.toList.map (·.length)).append (k.regs.sq.toList.map (·.length))
  let stash := (enumFrom0 k.loc.stash).flatMap fun x =>
    [(0x26A420 + 16 * x.1, 8, x.2.addr.toNat), (0x26A428 + 16 * x.1, 4, x.2.off), (0x26A42C + 16 * x.1, 4, x.2.count)]
  let tail := [(0x26A410, 1, if k.regs.qUsed then 1 else 0), (0x26A4A8, 2, k.deque.length)]
  ((vq.append sq).append ((fieldRow 0x26A400 1 sizes).append stash)).append
    (((fieldRow 0x26A4A0 1 (k.eng.prefs.toList.map BindMode.code)).append tail).append
      (fieldRow 0x26A800 8 (k.deque.map (·.toNat))))

/-! ### Engines (R340, R397) -/

/-- The metadata and the words of the open accumulators: an idle one is not part of the image (R132). -/
def accFields (k : Core) : List Field :=
  let one (i : Nat) : List Field :=
    let a := tget Acc.reset k.eng.accs i
    let b := 0x261400 + 0x200 * i
    ([(b, 1, 1), (b + 4, 4, a.steps)].append
      (fieldRow (b + 0x80) 1 ((List.range 128).map fun r => (sget 0 a.rowScale r).toNat))).append
      (fieldRow (b + 0x100) 1 ((List.range 256).map fun n => (sget 0 a.colScale n).toNat))
  let words := (enumFrom0 k.openAccs).flatMap fun x =>
    (tget Acc.reset k.eng.accs x.2).words.map fun w => (0x280000 + 0x20000 * x.1 + 4 * w.1, 4, w.2.toNat)
  (k.openAccs.flatMap one).append words

/-- Slots of a ring that the clusters have marked ready and that are not published. -/
def Stream.readyClaims (x : Stream) : Nat := (x.claims.filter fun c => c.owner.isNone && c.ready).length

/-- The stream registers. -/
def streamFields (k : Core) : List Field :=
  (enumFrom0 k.eng.streams.toList).flatMap fun x =>
    let b := 0x262000 + 0x80 * x.1
    let y := x.2
    [(b, 64, (y.desc.getD 0).toNat), (b + 0x40, 4, y.h.toNat), (b + 0x44, 4, y.t.toNat), (b + 0x48, 4, y.c),
      (b + 0x4C, 4, y.records.toNat), (b + 0x50, 4, y.clamps.toNat), (0x26E800 + 4 * x.1, 4, y.readyClaims)]

/-- The place of an entry among the 400 of the five queues (R237). -/
def entryIx (e : Engine) (seq : Half) : Nat := (entryOff e seq - 0x1FF000) / 8

/-- The queue numbers and the entries of an engine. -/
def engineFields (k : Core) (e : Engine) : List Field :=
  let q := k.queue e
  let head := q.entries.head?
  let held := (head.map (·.held)).getD false
  let b := 0x263E10 + 24 * e.code
  let claims := if held then (head.map (·.claims)).getD [] else []
  let nums := [(b, 4, q.last.toNat), (b + 4, 4, q.started.toNat), (b + 8, 4, q.retired.toNat),
    (b + 12, 4, (q.retired + 1).toNat), (b + 16, 1, if held then 1 else 0), (b + 17, 1, (head.map (·.prog)).getD 0)]
  let runs := (enumFrom0 (claims.take 4)).map fun x =>
    (0x26E880 + 32 * e.code + 8 * x.1, 8, x.2.st.toNat + x.2.n % 65536 * 2 ^ 16 + x.2.first.toNat * 2 ^ 32)
  let entry (c : Cmd) : List Field :=
    let r := 0x27C000 + 24 * entryIx e c.seq
    let pred := (c.predSeq.map (·.toNat)).getD 0
    [(0x1000 + entryOff e c.seq - 0x1FF000 + 0x262000, 8, (k.cmdWord e c.seq).toNat),
      (0x263C80 + entryIx e c.seq, 1, c.gen.toNat + c.pref.code * 16), (r, 4, c.ordinal.toNat), (r + 4, 4, pred),
      (r + 8, 1, (if c.predSeq.isSome then 1 else 0) + (if c.granted then 2 else 0)), (r + 12, 4, c.issuer.mtx.toNat),
      (r + 16, 4, c.issuer.cin.toNat)]
  (nums.append runs).append (q.entries.flatMap entry)

/-- A raw range as a record holds it (R397). -/
def rawWord (r : RawRange) : Nat := r.lo % 2 ^ 21 + r.hi % 2 ^ 21 * 2 ^ 21

/-- The history record of a command (R397). -/
def histFields (k : Core) (e : Engine) (base : Nat) (last : Half) (h : Hist) : List Field :=
  let b := base + 32 * (255 - (last - h.seq).toNat)
  let raws := (k.histRaws e h).take 2
  let runs := if raws.isEmpty then [] else h.runs.take 2
  let first := if ((raws.head?).map (·.write)).getD false then 4 else 0
  [(b, 4, h.ordinal.toNat), (b + 8, 1, 128 + h.signal.toNat), (b + 9, 1, raws.length + first + runs.length * 8)].append
    ((fieldRow (b + 4) 2 (runs.map (·.n))).append ((fieldRow (b + 10) 6 (raws.map rawWord)).append
      ((fieldRow (b + 22) 1 (runs.map fun r => r.st.toNat)).append (fieldRow (b + 24) 4 (runs.map fun r => r.first.toNat)))))

/-- The history of a queue's last 256 commands. -/
def historyFields (k : Core) (e : Engine) (base : Nat) : List Field :=
  let q := k.queue e
  (q.hist.filter fun h => decide ((q.last - h.seq).toNat < 256)).flatMap (histFields k e base q.last)

/-- The ranges of a pure task (R397). -/
def pureFields (k : Core) : List Field :=
  let rs := ((k.ctx.map fun x => x.reads.append x.writes).getD [])
  (enumFrom0 rs).flatMap fun x =>
    if x.2.size = 0 then [] else [(0x26E950 + 16 * x.1, 8, x.2.base.toNat), (0x26E958 + 16 * x.1, 4, x.2.size)]

/-- The context's partition. -/
def partFields (k : Core) : List Field :=
  match k.partIx with
  | none => []
  | some i => (tget Partition.reset k.loc.parts i).words.map fun w => (0x270000 + 8 * w.1, 8, w.2.toNat)

/-- Every field of a core's image but its scratchpad. -/
def Core.imageFields (k : Core) (p : Polder) (c : CoreId) (time : Word) : List Field :=
  [k.headerFields p c time, (clusterOrder.flatMap fun x => clusterFields x (k.cl x)), tempFields k,
    fieldRow 0x200000 256 (k.regs.v.toList.map (·.toNat)), sharedFields k, queueFields k, accFields k, streamFields k,
    (engineOrder.flatMap (engineFields k)), [(0x26E940, 4, k.eng.ordinal.toNat)], pureFields k, partFields k,
    historyFields k .mtx 0x278000, historyFields k .cin 0x27A000].flatten

/-- The image of a core whose context has stopped (R338). -/
def Core.image (k : Core) (p : Polder) (c : CoreId) (time : Word) : Memory :=
  imgPuts ((k.loc.scratch.filter fun e => decide (e.1 < padTop)).map fun e => (0x1000 + e.1, e.2)) (k.imageFields p c time)

/-! ### The checks of a load (R342, R389, R397) -/

/-- The header bytes that are not listed are zero. -/
def headerZero (m : Memory) : Bool :=
  imgGet m 0x13 1 == 0 && imgGet m 0x18 8 == 0 && imgGet m 0x38 0xFC8 == 0 && decide (imgGet m 7 1 < 4)

/-- Open accumulators that an OPEN byte names. -/
def openOf (m : Memory) : List Nat := (List.range 6).filter fun i => (imgGet m 6 1) / 2 ^ i % 2 == 1

/-- The header's checks. -/
def headerOk (m : Memory) : Bool :=
  imgGet m 0 4 == 0x58434659 && imgGet m 4 2 == 1 && decide (imgGet m 6 1 < 64) && headerZero m &&
    imgGet m 8 4 == imageBytes (openOf m).length

/-- The size that a header names, within the bounds of R338. -/
def imageSize (m : Memory) : Nat := min (imgGet m 8 4) imageMax

/-- The words of a slot's region. -/
def regionWords (m : Memory) (slot : Nat) : List Word :=
  (List.range 256).map fun i => BitVec.ofNat 64 (imgGet m (0x270000 + 8 * (256 * slot + i)) 8)

/-- The length of the sequence that begins a region: up to its first word marked last. -/
def sequenceLength (ws : List Word) : Nat := (ws.takeWhile fun w => !(microOf w).last).length + 1

/-- %csmap of an image. -/
def imageCsmap (m : Memory) : Nat := imgGet m (0x260E00 + 8 * 9) 8

/-- A slot's region and BOUND bit agree (R389). -/
def slotOk (m : Memory) (slot : Nat) : Bool :=
  let ws := regionWords m slot
  let n := sequenceLength ws
  if imageCsmap m / 2 ^ slot % 2 == 1 then
    decide (n ≤ 64) && (sequenceFault (ws.take n)).isNone && (ws.drop n).all (· == 0)
  else ws.all (· == 0)

/-- The micro-sequence of a cluster's area is that of a bound slot (R389). -/
def useqOk (m : Memory) (x : Cluster) : Bool :=
  let b := 0x260890 + 0x100 * x.code
  let slot := imgGet m (b + 1) 1
  imgGet m b 1 == 0 || (imgGet m b 1 == 1 && decide (slot < 16) && imageCsmap m / 2 ^ slot % 2 == 1 &&
    decide (imgGet m (b + 2) 1 < sequenceLength (regionWords m slot)))

/-- The numbers of a queue agree (R242, R317, R397). -/
def queueOk (m : Memory) (e : Engine) : Bool :=
  let b := 0x263E10 + 24 * e.code
  let last := BitVec.ofNat 32 (imgGet m b 4)
  let started := BitVec.ofNat 32 (imgGet m (b + 4) 4)
  let retired := BitVec.ofNat 32 (imgGet m (b + 8) 4)
  imgGet m (b + 12) 4 == (retired + 1).toNat && decide ((last - retired).toNat ≤ queueDepth e) &&
    decide ((started - retired).toNat ≤ (last - retired).toNat) && decide (imgGet m (b + 16) 1 < 2) &&
    decide (imgGet m (b + 17) 1 ≤ 16) && (imgGet m (b + 16) 1 == 0 || last != retired)

/-- The claims that an engine's head command holds (R397). -/
def heldRuns (m : Memory) (e : Engine) : List SlotRun :=
  if imgGet m (0x263E10 + 24 * e.code + 16) 1 = 0 then []
  else (List.range 4).filterMap fun i =>
    let w := imgGet m (0x26E880 + 32 * e.code + 8 * i) 8
    if w = 0 then none else some ⟨BitVec.ofNat 5 w, BitVec.ofNat 32 (w / 2 ^ 32), w / 2 ^ 16 % 2 ^ 16⟩

/-- The counts of a stream register agree with one another and with the held claims on its ring (R228, R397). -/
def streamOk (m : Memory) (n : Nat) : Bool :=
  let b := 0x262000 + 0x80 * n
  let d : Desc := BitVec.ofNat 512 (imgGet m b 64)
  let h := BitVec.ofNat 32 (imgGet m (b + 0x40) 4)
  let t := BitVec.ofNat 32 (imgGet m (b + 0x44) 4)
  let c := imgGet m (b + 0x48) 4
  let held := (engineOrder.flatMap fun e => heldRuns m e).filter (·.st.toNat = n)
  let ready := imgGet m (0x26E800 + 4 * n) 4
  decide (c ≤ (t - h).toNat) && decide (ready + (held.map (·.n)).sum ≤ c) &&
    (held.all fun r => decide ((t - r.first).toNat ≤ c ∧ r.n ≤ (t - r.first).toNat)) &&
    (if d = 0 then decide (t - h = 0) else (Desc.invalid d).isNone && decide ((t - h).toNat ≤ Desc.slots d))

/-- Claim records are present only with HELD (R397). -/
def claimsOk (m : Memory) (e : Engine) : Bool :=
  imgGet m (0x263E10 + 24 * e.code + 16) 1 == 1 || imgGet m (0x26E880 + 32 * e.code) 32 == 0

/-- The address of record `i` of a history, and whether it is valid. -/
def recordValid (m : Memory) (base i : Nat) : Bool := imgGet m (base + 32 * i + 8) 1 / 128 == 1

/-- A history record is well formed: a command without a raw range carries its ordinal and flag only (R397). -/
def recordOk (m : Memory) (base i : Nat) : Bool :=
  let b := base + 32 * i
  let f := imgGet m (b + 9) 1
  if recordValid m base i then
    decide (f / 32 = 0 ∧ f % 4 ≤ 2 ∧ f / 8 % 4 ≤ 2) && (f % 4 != 0 || (f == 0 && imgGet m (b + 10) 22 == 0)) &&
      ((List.range 2).all fun j => decide (imgGet m (b + 10 + 6 * j) 6 < 2 ^ 42 ∧ imgGet m (b + 22 + j) 1 < 32))
  else imgGet m b 32 == 0

/-- The ordinals of the valid records rise up to the next ordinal (R397). -/
def ordinalsRise (m : Memory) (base : Nat) : Bool :=
  let next : Half := BitVec.ofNat 32 (imgGet m 0x26E940 4)
  let ord (i : Nat) : Half := BitVec.ofNat 32 (imgGet m (base + 32 * i) 4)
  (List.range 256).all fun i => !recordValid m base i ||
    ordBefore (ord i) (if i < 255 then ord (i + 1) else next)

/-- The history of a queue agrees with it: the records of the numbers that the task has enqueued are valid and no other, all
of them where the numbers have wrapped (R397). -/
def historyOk (m : Memory) (e : Engine) (base : Nat) : Bool :=
  let last : Half := BitVec.ofNat 32 (imgGet m (0x263E10 + 24 * e.code) 4)
  let ix := List.range 256
  ix.all (recordOk m base) && ordinalsRise m base &&
    (ix.all (recordValid m base) ||
      ix.all fun i => recordValid m base i == (last != 0xFFFFFFFF && decide (255 - i ≤ last.toNat)))

/-- The unlisted bytes of the blocks at 0x26_E800 and 0x27_8000, and the reserved ones of their claim records and ranges, are
zero (R397). -/
def blocksZero (m : Memory) : Bool :=
  imgGet m 0x26E944 12 == 0 && imgGet m 0x26EA30 0x15D0 == 0 && imgGet m 0x27E580 0x1A80 == 0 &&
    ((List.range 20).all fun i => imgGet m (0x26E881 + 8 * i) 1 == 0) &&
    (List.range 14).all fun i => imgGet m (0x26E95C + 16 * i) 4 == 0

/-- The reserved bytes of the entry records are zero (R397). -/
def entryOk (m : Memory) (i : Nat) : Bool :=
  let r := 0x27C000 + 24 * i
  decide (imgGet m (r + 8) 1 < 4) && imgGet m (r + 9) 3 == 0 && imgGet m (r + 20) 4 == 0

/-- The history records of a queue that keeps them. -/
def historyBase : Engine → Option Nat
  | .mtx => some 0x278000
  | .cin => some 0x27A000
  | _ => none

/-- The history record of an unretired entry agrees with the entry's record and its command word (R397). -/
def historyAgrees (m : Memory) (e : Engine) (seq : Half) : Bool :=
  match historyBase e with
  | none => true
  | some base =>
    let b := base + 32 * (255 - (BitVec.ofNat 32 (imgGet m (0x263E10 + 24 * e.code) 4) - seq).toNat)
    let ix := entryIx e seq
    imgGet m b 4 == imgGet m (0x27C000 + 24 * ix) 4 &&
      imgGet m (b + 8) 1 == 128 + (signalFlag (BitVec.ofNat 8 (imgGet m (0x263006 + 8 * ix) 1))).toNat

/-- The last number that an image gives a queue as enqueued. -/
def lastEnqueued (m : Memory) (e : Engine) : Half := BitVec.ofNat 32 (imgGet m (0x263E10 + 24 * e.code) 4)

/-- The last number that an image gives a queue as retired. -/
def lastRetired (m : Memory) (e : Engine) : Half := BitVec.ofNat 32 (imgGet m (0x263E10 + 24 * e.code + 8) 4)

/-- The ordinals that an image records of the commands of a queue: those of its history, or of its unretired entries. -/
def knownOrdinals (m : Memory) (e : Engine) : List Half :=
  match historyBase e with
  | some base => (List.range 256).filterMap fun i =>
      if recordValid m base i then some (BitVec.ofNat 32 (imgGet m (base + 32 * i) 4)) else none
  | none => (List.range (min (queueDepth e) (lastEnqueued m e - lastRetired m e).toNat)).map fun i =>
      BitVec.ofNat 32 (imgGet m (0x27C000 + 24 * entryIx e (lastRetired m e + 1 + BitVec.ofNat 32 i)) 4)

/-- The number last enqueued on a queue when the command of an ordinal was, at most: those recorded from it on came later. -/
def enqueuedBefore (m : Memory) (e : Engine) (ord : Half) : Half :=
  lastEnqueued m e - BitVec.ofNat 32 ((knownOrdinals m e).filter fun o => !ordBefore o ord).length

/-- A number lies at or before another, which may be none. -/
def notBeyond (n last : Half) : Bool := n == 0xFFFFFFFF || seqWithin n last

/-- The number that an entry's record names as predecessor is that of its WAIT byte (R30, R397): exactly where the records
reach back to the command enqueued last before it, and otherwise not later. -/
def predecessorOk (m : Memory) (wait : BitVec 8) (ord named : Half) : Bool :=
  match waitPred wait with
  | none => named == 0
  | some (e, d) =>
    let last := named + BitVec.ofNat 32 d - 1
    if (knownOrdinals m e).any (ordBefore · ord) then last == enqueuedBefore m e ord
    else notBeyond last (enqueuedBefore m e ord)

/-- What the issuer of a command had joined was enqueued before it (R397). -/
def frontierOk (m : Memory) (r : Nat) (ord : Half) : Bool :=
  [(12, Engine.mtx), (16, Engine.cin)].all fun p =>
    notBeyond (BitVec.ofNat 32 (imgGet m (r + p.1) 4)) (enqueuedBefore m p.2 ord)

/-- The record of each unretired entry agrees with the entry's command word, with its history record, with the records of
the other commands and with the next ordinal (R397). -/
def entriesOk (m : Memory) (e : Engine) : Bool :=
  (List.range (min (queueDepth e) (lastEnqueued m e - lastRetired m e).toNat)).all fun i =>
    let seq := lastRetired m e + 1 + BitVec.ofNat 32 i
    let ix := entryIx e seq
    let r := 0x27C000 + 24 * ix
    let wait : BitVec 8 := BitVec.ofNat 8 (imgGet m (0x263007 + 8 * ix) 1)
    let f := imgGet m (r + 8) 1
    let ord : Half := BitVec.ofNat 32 (imgGet m r 4)
    (f % 2 == 1) == (waitPred wait).isSome && (f / 2 % 2 == 0 || (waitFlag wait).isSome) &&
      ordBefore ord (BitVec.ofNat 32 (imgGet m 0x26E940 4)) && historyAgrees m e seq &&
      predecessorOk m wait ord (BitVec.ofNat 32 (imgGet m (r + 4) 4)) && frontierOk m r ord

/-- What the command of a word claims at its start: streams and slots (R141, R146, R147, R248). -/
def wordClaims (e : Engine) (w : Word) : List (StReg × Nat) :=
  let comp (bit : Nat) (lo : Nat) : List (StReg × Nat) := if w.getLsbD bit then [(wordSt w lo, 1)] else []
  match e, wordEop w with
  | .mtx, 2 => [(wordSt w 19, 1)]
  | .cin, 1 => (wordSt w 19, wordField w 9 4 + 1) :: comp 13 14
  | .cin, 2 => comp 13 14
  | .cout, 1 => comp 13 14
  | .cout, 2 => comp 13 14
  | .gth, 1 => (wordSt w 9, 1) :: (wordSt w 9 + 1, 1) :: comp 3 4
  | .topk, 1 => [(wordSt w 14, 1)]
  | _, _ => []

/-- The claims that a held command keeps are those that its word makes (R317, R397). -/
def claimsAgree (m : Memory) (e : Engine) : Bool :=
  let ix := entryIx e (lastRetired m e + 1)
  imgGet m (0x263E10 + 24 * e.code + 16) 1 == 0 ||
    (heldRuns m e).map (fun r => (r.st, r.n)) == wordClaims e (BitVec.ofNat 64 (imgGet m (0x263000 + 8 * ix) 8))

/-- What a cluster has joined has been enqueued (R397). -/
def joinOk (m : Memory) (x : Cluster) : Bool :=
  [(0, Engine.mtx), (4, Engine.cin)].all fun p =>
    let n : Half := BitVec.ofNat 32 (imgGet m (0x26E920 + 8 * x.code + p.1) 4)
    n == 0xFFFFFFFF || seqWithin n (BitVec.ofNat 32 (imgGet m (0x263E10 + 24 * p.2.code) 4))

/-- The states of the accumulators are those that the header's OPEN names (R340). -/
def accsOk (m : Memory) : Bool := (List.range 6).all fun i => imgGet m (0x261400 + 0x200 * i) 1 == imgGet m 6 1 / 2 ^ i % 2

/-- The whole image is one that a save could have written (R342). -/
def imageOk (m : Memory) : Bool :=
  headerOk m && blocksZero m && (List.range 16).all (slotOk m) && useqOk m .X0 && useqOk m .X1 && engineOrder.all (queueOk m) && engineOrder.all (claimsOk m) &&
    (List.range 32).all (streamOk m) && historyOk m .mtx 0x278000 && historyOk m .cin 0x27A000 &&
    (List.range 400).all (entryOk m) && engineOrder.all (entriesOk m) &&
    engineOrder.all (claimsAgree m) && clusterOrder.all (joinOk m) && accsOk m && decide (imgGet m 0x26A4A8 2 ≤ 1024)

/-- The polder has the image's shape, and the core of its position (R342, R346): a position that names no core of a polder whose
counts match is a shape that it has not (DESIGN CHOICE, assumption entry 75). -/
def Polder.fits (p : Polder) (m : Memory) : Bool :=
  imgGet m 0x12 1 == p.dieList.length && ((List.range 4).all fun j => imgGet m (0x14 + j) 1 == p.shape.getD j 0) &&
    (p.place (imgGet m 0x10 1) (imgGet m 0x11 1)).isSome

/-! ### Restoring (R342, R346, R397) -/

/-- A bundle address: its low bits are zero (R11). -/
def bundleOf (v : Nat) : Word := BitVec.ofNat 64 (v / 32 * 32)

/-- Loop entries of an image, top first. -/
def loopsOf (m : Memory) (off n : Nat) : List LoopEntry :=
  ((List.range (min n 4)).map fun i =>
    (⟨bundleOf (imgGet m (off + 24 * i) 8), bundleOf (imgGet m (off + 24 * i + 8) 8),
      BitVec.ofNat 64 (imgGet m (off + 24 * i + 16) 8)⟩ : LoopEntry)).reverse

/-- A table of words of an image. -/
def tableOf (w : Nat) (m : Memory) (off bytes n : Nat) : Vector (BitVec w) n :=
  ⟨⟨(List.range n).map fun i => BitVec.ofNat w (imgGet m (off + bytes * i) bytes)⟩, by simp⟩

/-- A table given entry by entry. -/
def tableFn {α : Type} (n : Nat) (f : Nat → α) : Vector α n := ⟨⟨(List.range n).map f⟩, by simp⟩

/-- A join frontier of an image. -/
def frontOfImage (m : Memory) (off : Nat) : Front :=
  ⟨BitVec.ofNat 32 (imgGet m off 4), BitVec.ofNat 32 (imgGet m (off + 4) 4)⟩

/-- A cluster as an image holds it. -/
def clusterOf (m : Memory) (x : Cluster) : ClusterState :=
  let b := 0x260800 + 0x100 * x.code
  let fpc : Word := BitVec.ofNat 64 (imgGet m b 8)
  let useq : Option USeq :=
    if imgGet m (b + 0x90) 1 = 1 then some ⟨BitVec.ofNat 4 (imgGet m (b + 0x91) 1), imgGet m (b + 0x92) 1, none⟩ else none
  let temps := match x with
    | .X0 => tableOf 2048 m 0x26C800 256 16
    | .X1 => tableOf 2048 m 0x26D800 256 16
    | _ => Vector.replicate 16 0
  { ClusterState.reset with
    s := tset (tableOf 64 m (0x260000 + 0x200 * x.code) 8 64) 0 0
    p := BitVec.ofNat 16 (imgGet m (b + 8) 2 / 2 * 2)
    pc := fpc &&& ~~~31
    status := if fpc.getLsbD 0 then .halted else .running
    loops := loopsOf m (b + 0x10) (imgGet m (b + 0xA) 2)
    consumed := tableOf 32 m (b + 0x70) 4 8
    useq := useq
    temps := temps
    joined := frontOfImage m (0x26E920 + 8 * x.code) }

/-- A held report of an image: its cause word and address (R340). -/
def heldOf (m : Memory) (i : Nat) : Option Report :=
  let w := imgGet m (0x2610F0 + 16 * i) 8
  if w = 0 then none
  else some ⟨causeOfCode (w % 64), w / 2 ^ 8 % 8, (Cluster.ofCode (w / 2 ^ 6 % 4)).getD .S, none,
    BitVec.ofNat 64 (imgGet m (0x2610F8 + 16 * i) 8), 0, false⟩

/-- A raw range of a record. -/
def rawOf (v : Nat) (write : Bool) : RawRange := ⟨v % 2 ^ 21, v / 2 ^ 21 % 2 ^ 21, write⟩

/-- The last enqueued and the last retired number of a queue of an image. -/
def lastsOf (m : Memory) (e : Engine) : Half × Half :=
  let b := 0x263E10 + 24 * e.code
  (BitVec.ofNat 32 (imgGet m b 4), BitVec.ofNat 32 (imgGet m (b + 8) 4))

/-- The status of a command after a resumption (R346). -/
def statusOf (m : Memory) (e : Engine) (seq : Half) : BindStatus :=
  if beyondLast seq (lastsOf m e).2 then .pending else .expired

/-- The recorded commands of a queue that had retired before the save, newest first: numbers and ordinals. -/
def retiredOf (m : Memory) (e : Engine) : List (Half × Half) :=
  match historyBase e with
  | none => []
  | some base =>
    let l := lastsOf m e
    ((List.range 256).filterMap fun j =>
      let seq := l.1 - BitVec.ofNat 32 j
      if recordValid m base (255 - j) && !beyondLast seq l.2 then
        some (seq, BitVec.ofNat 32 (imgGet m (base + 32 * (255 - j)) 4))
      else none)

/-- The part of an order that an image does not carry, and this machine has not kept: of the recorded commands of a queue that had retired and that `p`
admits, those up to a free one, or none (R254, R397; assumption entry 27). -/
def lostPart (m : Memory) (key : Nat) (p : Half → Bool) (e : Engine) : Half :=
  match (retiredOf m e).filter fun y => p y.2 with
  | [] => 0xFFFFFFFF
  | l => ((l[Config.unrecorded (2 * key + e.code) % (l.length + 1)]?).map (·.1)).getD 0xFFFFFFFF

/-- What ordered before a point that an image does not describe. -/
def lostFront (m : Memory) (key : Nat) (p : Half → Bool) : Front := ⟨lostPart m key p .mtx, lostPart m key p .cin⟩

/-- A record of an image's history (R397): what ordered before a command that had retired is not recorded beyond its own
queue. -/
def histOf (m : Memory) (e : Engine) (base : Nat) (i : Nat) : Option Hist :=
  let b := base + 32 * i
  let f := imgGet m (b + 9) 1
  let seq := (lastsOf m e).1 - BitVec.ofNat 32 (255 - i)
  let ord : Half := BitVec.ofNat 32 (imgGet m b 4)
  if !recordValid m base i then none
  else
    let raws := (List.range (f % 4)).map fun j => rawOf (imgGet m (b + 10 + 6 * j) 6) (j == 0 && f / 4 % 2 == 1)
    let runs := (List.range (f / 8 % 4)).map fun j =>
      (⟨BitVec.ofNat 5 (imgGet m (b + 22 + j) 1), BitVec.ofNat 32 (imgGet m (b + 24 + 4 * j) 4),
        imgGet m (b + 4 + 2 * j) 2⟩ : SlotRun)
    let lost := if beyondLast seq (lastsOf m e).2 then Front.none else lostFront m (base + i) fun a => ordBefore a ord
    some ⟨seq, ord, BitVec.ofNat 7 (imgGet m (b + 8) 1), raws, runs, (ownFront ⟨e, seq⟩).join lost,
      statusOf m e seq, false⟩

/-- The history of a queue that an image records, newest first. -/
def historyOf (m : Memory) (e : Engine) : List Hist :=
  match e with
  | .mtx => ((List.range 256).filterMap (histOf m e 0x278000)).reverse
  | .cin => ((List.range 256).filterMap (histOf m e 0x27A000)).reverse
  | _ => []

/-- The command word of an entry of an image. -/
def wordOfImage (m : Memory) (e : Engine) (seq : Half) : Word :=
  BitVec.ofNat 64 (imgGet m (0x263000 + (entryOff e seq - 0x1FF000)) 8)

/-- The reservation that a held command made at its start: the slots at the head of the ring that it pops (R229). -/
def heldReserves (m : Memory) (e : Engine) (seq : Half) : List SlotRun :=
  let w := wordOfImage m e seq
  let head (st : StReg) : Half := BitVec.ofNat 32 (imgGet m (0x262040 + 0x80 * st.toNat) 4)
  match e with
  | .cout => [⟨copyS w, head (copyS w), copyTiles w⟩]
  | .gth => [⟨wordSt w 19, head (wordSt w 19), 1⟩]
  | _ => []

/-- An unretired command of an image. -/
def cmdOf (m : Memory) (e : Engine) (retired : Half) (i : Nat) : Cmd :=
  let seq := retired + BitVec.ofNat 32 (i + 1)
  let r := 0x27C000 + 24 * entryIx e seq
  let tag := imgGet m (0x263C80 + entryIx e seq) 1
  let flags := imgGet m (r + 8) 1
  let b := 0x263E10 + 24 * e.code
  let held := i == 0 && imgGet m (b + 16) 1 == 1
  ⟨seq, BitVec.ofNat 4 tag, (BindMode.ofCode (tag / 16 % 4)).getD .normal, BitVec.ofNat 32 (imgGet m r 4),
    if flags % 2 = 1 then some (BitVec.ofNat 32 (imgGet m (r + 4) 4)) else none, flags / 2 % 2 == 1,
    frontOfImage m (r + 12), none, false, held, if i = 0 then imgGet m (b + 17) 1 else 0,
    if held then heldRuns m e else [], if held then heldReserves m e seq else [],
    [], none, [], []⟩

/-- What is kept of an unretired command of a queue whose history an image does not record. -/
def histOfCmd (m : Memory) (e : Engine) (x : Cmd) : Hist :=
  ⟨x.seq, x.ordinal, signalFlag (wordSignal (wordOfImage m e x.seq)), [], [], x.issuer, .pending, false⟩

/-- The last retired commands of a queue whose history an image does not record, as far as a predecessor wait may name them
(R30). -/
def retiredHist (m : Memory) (e : Engine) : List Hist :=
  let last := (lastsOf m e).2
  if last = 0xFFFFFFFF then []
  else (List.range (min 16 (last.toNat + 1))).map fun i =>
    ⟨last - BitVec.ofNat 32 i, 0, 0, [], [], lostFront m (2 ^ 32 * (e.code + 1) + i) fun _ => true, .expired, false⟩

/-- A queue of an image. -/
def queueOf (m : Memory) (e : Engine) : EngineQueue :=
  let b := 0x263E10 + 24 * e.code
  let last := (lastsOf m e).1
  let retired := (lastsOf m e).2
  let entries := (List.range (last - retired).toNat).map (cmdOf m e retired)
  let hist := match e with
    | .mtx => historyOf m e
    | .cin => historyOf m e
    | _ => (entries.map (histOfCmd m e)).reverse.append (retiredHist m e)
  { last := last, started := BitVec.ofNat 32 (imgGet m (b + 4) 4), retired := retired, entries := entries, hist := hist,
    lastSub := false }

/-- Who holds the claimed slot of a count, of the claims an image records. -/
def claimOwner (m : Memory) (st : Nat) (n : Half) : Option CmdId :=
  engineOrder.findSome? fun e =>
    ((heldRuns m e).find? fun r => r.st.toNat == st && decide ((n - r.first).toNat < r.n)).map fun _ =>
      ⟨e, BitVec.ofNat 32 (imgGet m (0x263E10 + 24 * e.code + 12) 4)⟩

/-- What ordered before the publication of a filled slot: the recorded command whose claim covered it (R254, R397), or one
that the image does not describe. -/
def publisherOf (m : Memory) (st : Nat) (n : Half) : Front :=
  let hit (h : Hist) : Bool := h.runs.any fun r => r.st.toNat == st && decide ((n - r.first).toNat < r.n)
  match [Engine.mtx, .cin].findSome? fun e => (historyOf m e).find? hit with
  | some h => h.front
  | none => lostFront m (2 ^ 40 * (st + 1) + n.toNat) fun _ => true

/-- A stream register of an image: the clusters' ready claims are the oldest of theirs. -/
def streamOf (m : Memory) (n : Nat) : Stream :=
  let b := 0x262000 + 0x80 * n
  let d : Desc := BitVec.ofNat 512 (imgGet m b 64)
  let h := BitVec.ofNat 32 (imgGet m (b + 0x40) 4)
  let t := BitVec.ofNat 32 (imgGet m (b + 0x44) 4)
  let c := imgGet m (b + 0x48) 4
  let claims := (List.range c).map fun i => (⟨claimOwner m n (t - BitVec.ofNat 32 (c - i)), false, .none⟩ : SlotClaim)
  { desc := if d = 0 then none else some d, h := h, t := t,
    claims := readyFirst (fun x => x.owner.isNone && !x.ready) (imgGet m (0x26E800 + 4 * n) 4) claims,
    filledBy := (List.range ((t - h).toNat - c)).map fun i => publisherOf m n (h + BitVec.ofNat 32 i),
    records := BitVec.ofNat 32 (imgGet m (b + 0x4C) 4), clamps := BitVec.ofNat 32 (imgGet m (b + 0x50) 4) }

/-- A flag of an image: its increments are joined with the recorded commands that signalled it and have retired. -/
def flagOf (m : Memory) (n : Nat) : Flag :=
  let fronts := [Engine.mtx, .cin].flatMap fun e =>
    let q := queueOf m e
    (q.hist.filter fun h => h.signal.toNat == n && n != 0 && !q.holds h.seq).map (·.front)
  ⟨imgGet m (0x260C80 + n) 1, [], fronts.foldl Front.join .none⟩

/-- A sparse table of an image's words, zeros left out. -/
def imgSparse (w : Nat) (m : Memory) (off bytes n : Nat) : Sparse (BitVec w) :=
  (List.range n).filterMap fun i =>
    let v : BitVec w := BitVec.ofNat w (imgGet m (off + bytes * i) bytes)
    if v = 0 then none else some (i, v)

/-- An accumulator of an image: the words of the open ones, in ascending number. -/
def accOf (m : Memory) (i : Nat) : Acc :=
  let b := 0x261400 + 0x200 * i
  if !(openOf m).contains i then .reset
  else ⟨true, imgGet m (b + 4) 4, imgSparse 8 m (b + 0x80) 1 128, imgSparse 8 m (b + 0x100) 1 256,
    imgSparse 32 m (0x280000 + 0x20000 * (openOf m).idxOf i) 4 32768⟩

/-- The shared registers of an image. -/
def regsOf (m : Memory) : SharedRegs :=
  { v := tableOf 2048 m 0x200000 256 1536, m := tset (tableOf 64 m 0x260C00 8 16) 0 0, flags := tableFn 128 (flagOf m),
    vq := tableFn 12 fun q => (List.range (imgGet m (0x26A400 + q) 1)).map fun i =>
      BitVec.ofNat 2048 (imgGet m (0x264000 + 0x800 * q + 256 * i) 256),
    sq := tableFn 4 fun q => (List.range (imgGet m (0x26A40C + q) 1)).map fun i =>
      BitVec.ofNat 64 (imgGet m (0x26A000 + 0x100 * q + 8 * i) 8),
    qUsed := imgGet m 0x26A410 1 == 1 }

/-- A number of an event count of an image. -/
def countOf (m : Memory) (off i : Nat) : Nat := imgGet m (off + 4 * i) 4

/-- A table of the orders that an image does not carry, by its keys. -/
def lostTable (m : Memory) (space : Nat) (keys : List Nat) : Sparse Front :=
  keys.foldl (fun t k => sset .none t k (lostFront m (space + k) fun _ => true)) []

/-- The firings of an image that some cluster has still to consume (R245), and the NOTIFYs that no firing counts yet. -/
def lostFirings (m : Memory) : List Nat :=
  (List.range 8).flatMap fun e =>
    let least := clusterOrder.foldl (fun b x => min b (countOf m (0x260870 + 0x100 * x.code) e)) (2 ^ 32)
    (List.range (countOf m 0x260DA0 e - least)).map fun i => 8 * (least + 1 + i) + e

/-- The keys of those NOTIFYs. -/
def lostNotes (m : Memory) : List Nat :=
  engineOrder.flatMap fun q => (List.range 8).flatMap fun e =>
    let fired := countOf m 0x260DA0 e
    (List.range (countOf m (0x260D00 + 32 * q.code) e - fired)).map fun i => noteKey (fired + 1 + i) e q

/-- The engines of an image. -/
def enginesOf (m : Memory) : EngineState :=
  { accs := tableFn 6 (accOf m), streams := tableFn 32 (streamOf m),
    queues := tableFn 5 fun i => queueOf m ((Engine.ofCode i).getD .mtx),
    prefs := tableFn 5 fun i => (BindMode.ofCode (imgGet m (0x26A4A0 + i) 1)).getD .normal,
    ordinal := BitVec.ofNat 32 (imgGet m 0x26E940 4),
    weirN := tableFn 5 fun q => tableOf 32 m (0x260D00 + 32 * q) 4 8, weirF := tableOf 32 m 0x260DA0 4 8,
    weirFront := lostTable m (2 ^ 50) (lostFirings m), weirNote := lostTable m (2 ^ 60) (lostNotes m) }

/-- The scratchpad of an image: its contents, and the unretired command words at their offsets. -/
def scratchOf (m : Memory) : Memory :=
  let pad := (m.filter fun e => decide (0x1000 ≤ e.1 ∧ e.1 < 0x1000 + padTop)).map fun e => (e.1 - 0x1000, e.2)
  let queues := (m.filter fun e => decide (0x263000 ≤ e.1 ∧ e.1 < 0x263C80)).map fun e => (e.1 - 0x263000 + padTop, e.2)
  pad.append queues

/-- The stash mappings of an image: every entry is unfilled (R157). -/
def stashOf (m : Memory) : List StashMap :=
  (List.range 8).filterMap fun i =>
    let count := imgGet m (0x26A42C + 16 * i) 4
    if count = 0 then none
    else some ⟨imgGet m (0x26A428 + 16 * i) 4, BitVec.ofNat 64 (imgGet m (0x26A420 + 16 * i) 8), count, [], []⟩

/-- The bits of a special register that its map does not reserve (R101, R273, R319, R387, R243, R220, R298, R373; the others
as an MTSR writes them). -/
def srFields (n : Nat) : Word :=
  if n = srCause ∨ n = srDfcause then 0x7FF
  else if srFpc ≤ n ∧ n < srFpc + 4 then ~~~30
  else if srFcut ≤ n ∧ n < srFcut + 5 then 0x3FFFFFFFFF
  else if n = srFupc then 0x7FF07FF
  else if n = srFflags then 0x3F
  else if n = srGen then 0xF
  else if n = srFlmode then 0xFFFF0001
  else if n = srCore then 63
  else if n = srDie then 3
  else if n = srQuad then 15
  else if srLidx ≤ n ∧ n < srLtrip + 4 then 0xFFFFFFFF
  else if n = srPurectl then 0xFF03
  else if n = srCsmap then 0x1FFFFFFFF
  else if srAssigned n then srMask n
  else 0

/-- The special registers of an image, their reserved bits zero (R101); %ctxid, %polder, %world, %tvec and %tstack are the destination's (R340). -/
def srsOf (m : Memory) : List (Nat × Word) :=
  (((enumFrom0 imageSrs).filter (·.2 ≠ srCycle)).map fun x => (x.2, BitVec.ofNat 64 (imgGet m (0x260E00 + 8 * x.1) 8) &&& srFields x.2))
    |>.append ((List.range 17).map fun n => (n, BitVec.ofNat 64 (imgGet m (0x261000 + 8 * n) 8) &&& srFields n))

/-- The ranges of a pure context. -/
def rangesOf (m : Memory) (i n : Nat) : List VRange :=
  (List.range n).map fun j =>
    ⟨BitVec.ofNat 64 (imgGet m (0x26E950 + 16 * (i + j)) 8), imgGet m (0x26E958 + 16 * (i + j)) 4⟩

/-- The context of an image, of a task or of none. -/
def contextOf (m : Memory) (n : Nat) (user : Bool) (task : Option Nat) (id ic : Nat) : Context :=
  let isPure := imgGet m 7 1 / 2 % 2 == 1
  { polder := n, task := task, taskId := BitVec.ofNat 32 (imgGet m 0xC 4), id := id, ic := ic, user := user,
    reads := if isPure then rangesOf m 0 10 else [], writes := if isPure then rangesOf m 10 4 else [],
    record := BitVec.ofNat 64 (imgGet m 0x20 8), done := BitVec.ofNat 64 (imgGet m 0x28 8) }

/-- A command put into an order of ordinals, the oldest first. -/
def insertByOrdinal (y : Engine × Cmd) : List (Engine × Cmd) → List (Engine × Cmd)
  | [] => [y]
  | z :: l => if ordBefore y.2.ordinal z.2.ordinal then y :: z :: l else z :: insertByOrdinal y l

/-- The unretired commands of a core have, in the order in which they were enqueued, what orders before each (R254, R397). -/
def Core.refront (k : Core) : Core :=
  let all := engineOrder.flatMap fun e => (k.queue e).entries.map fun x => (e, x)
  (all.foldr insertByOrdinal []).foldl (fun k y =>
    let x := y.2
    let f := k.staticFront ⟨y.1, x.seq⟩ (k.cmdWord y.1 x.seq) x.predSeq x.ordinal x.issuer
    k.setQueue y.1 ((k.queue y.1).mapHist x.seq fun h => { h with front := f })) k

/-! ### What an image does not hold (R254, R346) -/

/-- A cluster with what its image does not hold of it. -/
def ClusterState.recall (k n : ClusterState) : ClusterState :=
  { k with released := n.released, skipBk := n.skipBk, useq := n.useq }

/-- A queue with what its image does not hold of it; of retired commands no binding history comes back (R346). -/
def EngineQueue.recall (q n : EngineQueue) : EngineQueue :=
  let status (h : Hist) : BindStatus := if q.entries.any (·.seq = h.seq) then .pending else .expired
  { q with
    entries := q.entries.map fun x => ((n.entries.find? (·.seq = x.seq)).map fun y =>
      { x with held := y.held, prog := y.prog, claims := y.claims, reserves := y.reserves, hit := y.hit }).getD x
    hist := n.hist.map fun h => { h with status := status h, promoted := false } }

/-- A stream with what orders before its publications. -/
def Stream.recall (x n : Stream) : Stream := { x with claims := n.claims, filledBy := n.filledBy }

/-- A core with what the image of its context does not hold (R346). -/
def Core.recall (k : Core) (n : SaveNote) : Core :=
  { k with
    cls := ⟨k.cls.cS.recall n.cls.cS, k.cls.cA.recall n.cls.cA, k.cls.cX0.recall n.cls.cX0, k.cls.cX1.recall n.cls.cX1⟩
    regs := { k.regs with flags := Vector.zipWith (fun a b => { a with front := b.front }) k.regs.flags n.flags }
    eng := { k.eng with
      streams := Vector.zipWith Stream.recall k.eng.streams n.eng.streams
      queues := Vector.zipWith EngineQueue.recall k.eng.queues n.eng.queues
      weirFront := n.eng.weirFront
      weirNote := n.eng.weirNote }
    trap := { k.trap with heldReleased := n.heldReleased } }

/-- What the image of a core's context does not hold of it, beside the image. -/
def Core.saveNote (k : Core) (m : Memory) (triggered : Bool) : SaveNote :=
  ⟨m, k.cls, k.eng, k.regs.flags, k.trap.heldReleased, triggered⟩

/-- What this machine has kept of a context whose image it saved. -/
def State.noteOf (s : State) (m : Memory) : Option SaveNote := s.saves.find? (·.image = m)

/-- The trap state of a resumed context: %tvec and %tstack are the destination's own (R339). -/
def Core.freshTrap (k : Core) : TrapState :=
  { TrapState.reset with
    sr := sset 0 (sset 0 [] srTvec (k.getSr srTvec)) srTstack (k.getSr srTstack) }

/-- A core with the context of an image (R342, R346, R372): the flag waits of its queues' heads begin again (R225). -/
def Core.restore (k : Core) (p : Polder) (n now ctxid : Nat) (m : Memory) (x : Context) (note : Option SaveNote) : Core :=
  let k1 := { k with
    phase := .loading
    ctx := some x
    cls := ⟨clusterOf m .S, clusterOf m .A, clusterOf m .X0, clusterOf m .X1⟩
    regs := regsOf m
    eng := enginesOf m
    loc := { k.loc with scratch := scratchOf m, stash := stashOf m }
    trap := { k.freshTrap with
      cycle := BitVec.ofNat 64 (imgGet m 0x260E10 8)
      heldLoops := loopsOf m 0x261090 (imgGet m 0x261088 8)
      held := (List.range 8).filterMap (heldOf m) }
    deque := (List.range (imgGet m 0x26A4A8 2)).map fun i => BitVec.ofNat 64 (imgGet m (0x26A800 + 8 * i) 8) }
  let tags := [(srCtxid, BitVec.ofNat 64 ctxid), (srPolder, BitVec.ofNat 64 n),
    (srWorld, if p.part.sec then 1 else 0)]
  let frame := (srsOf m).filter fun r => r.1 ≠ srTvec ∧ r.1 ≠ srTstack
  let k2 := ((k1.setSrs frame).setSrs tags).takePartition ctxid now (imgSparse 64 m 0x270000 8 4096)
  engineOrder.foldl Core.beginFlagWait (((note.map k2.recall).getD k2).refront)

end Sys2Proof.Machine
end

