-- ==== Sys2Proof/Machine/Preempt.lean ====
section
/-!
DEFINITION. Saving and loading contexts: CTXSAVE and CTXLOAD, the stops of immediate and fence mode, and the end of a
transfer (R332 to R346).
-/

namespace Sys2Proof.Machine

/-! ### The stop of a save (R333, R336) -/

/-- A running CPIN, CPSTR or GATH stops at its tile progress (R333): a free number of a copy's remaining tiles is written
in full, and of the others a free mix (assumption entry 23). -/
def State.stopCmd (s : State) (c : CoreId) (e : Engine) (x : Cmd) : State :=
  let w := (s.core c).cmdWord e x.seq
  match x.started with
  | none => s
  | some st =>
    if hasEop [14, 15] w then s
    else if e = .gth then s.setCore c ((s.core c).holdCmd e x.seq 0 none)
    else
      let p := x.prog + Config.progress s.free % (copyTiles w - x.prog + 1)
      let r : State × Nat × Option Word := match s.copyWork c e x w st p with
        | .done t _ hit => (t, p, hit)
        | .stop t q hit _ _ => (t, q, hit)
        | .await t q hit _ => (t, q, hit)
        | .hole _ => (s, x.prog, x.hit)
      let s1 := r.1.copyMix c e x w st r.2.1
      s1.setCore c ((s1.core c).holdCmd e x.seq r.2.1 r.2.2)

/-- The oldest running CPIN, CPSTR or GATH of a queue stops, and those behind it with it; NOTIFY and GFENCE commands before
it go on (R333). -/
def State.stopCopyIn (s : State) (c : CoreId) (e : Engine) : State :=
  match ((s.core c).queue e).running.find? fun x => !hasEop [14, 15] ((s.core c).cmdWord e x.seq) with
  | none => s
  | some x => s.stopCmd c e x

/-- What a core does with the report of a stop that a save overtakes: a fault recurs, and a trap is held (R336). -/
def Core.setAside (k : Core) : Core :=
  match k.phase with
  | .stopping r => if r.cls = 0 then k else { k with trap := { k.trap with held := k.trap.held.append [r] } }
  | _ => k

/-- A pure context's task is never inserted once it is pre-empted (R309, R336). -/
def State.spoilPure (s : State) (c : CoreId) : State :=
  if ((s.core c).getSr srPurectl).getLsbD 0 then
    let t := s.setNoins c
    match (t.core c).ctx.bind (·.task) with
    | some uid => t.mapTask uid fun x => { x with noInsert := true }
    | none => t
  else s

/-- Whether the matrix queue of a core that has begun to save drains (R334): while a run is open or a running command
may open one, unless the running command is the first MRET or MZERO behind it; and with none running, when its first
command could start now. -/
def Core.drains (k : Core) : Bool :=
  let open_ : Core := { k with xfer := k.xfer.map fun x => { x with drain := true } }
  match (k.queue .mtx).running.head? with
  | some x => !hasEop [2, 3] (k.cmdWord .mtx x.seq)
  | none => open_.drainReady

/-- A core stops toward its image (R333 to R336); `drain` lets its matrix queue drain an open run. A rendezvous that has been
met and that no cluster has followed is undone. -/
def State.beginSave (s : State) (c : CoreId) (x : Xfer) (drain : Bool) : State :=
  let s1 := (s.spoilPure c).endWaits c
  let k := (s1.core c).setAside.unfault.unmeet
  let k1 := { k with phase := .saving, xfer := some { x with drain := false } }
  let s2 := s1.setCore c { k1 with xfer := some { x with drain := drain && k1.drains } }
  (s2.stopCopyIn c .cin).stopCopyIn c .gth

/-! ### Image transfers -/

/-- The addresses of 4 KiB blocks. -/
def blockVas (base : Word) (n : Nat) : List Word := (List.range n).map fun i => base + BitVec.ofNat 64 (4096 * i)

/-- The places of blocks, each checked at its first byte. -/
def State.placeBlocks (s : State) (ag : Agent) (kind : AccKind) : List Word → Except AccErr (List (Nat × Nat))
  | [] => .ok []
  | va :: vas =>
    match s.locate ag kind .any va with
    | .error e => .error e
    | .ok l =>
      match s.placeBlocks ag kind vas with
      | .error e => .error e
      | .ok r =>
        match l.place with
        | .hbm a => .ok ((0, a) :: r)
        | .host a => .ok ((1, a) :: r)
        | .peer a => .ok ((2, a) :: r)
        | .pad _ _ => .error (.fault .scratchpadBounds va)

/-- The checks of an image's range (R341): steps 2 to 4 and 6 of R161. -/
def State.checkBlocks (s : State) (ag : Agent) (kind : AccKind) (base : Word) (n : Nat) :
    Except AccErr (List (Nat × Nat)) :=
  match s.checkEarly ag kind (blockVas base n) with
  | some e => .error e
  | none => s.placeBlocks ag kind (blockVas base n)

/-- A 4 KiB block of a core's image written where it was placed: at a peer, the save is complete once it has answered
(R343). -/
def State.putBlock (s : State) (c : CoreId) (n : Nat) (pl : Nat × Nat) (va : Word) (bytes : List Byte) : State :=
  match pl.1 with
  | 0 => (s.writePhys ((s.core c).agent c (.cluster .S)) pl.2 bytes).uncharged s
  | 1 => s.pokeAll (((List.range bytes.length).map fun j => Place.host (pl.2 + j)).zip bytes)
  | _ => s.postPeers s.free (fun _ => .image c n) true [⟨pl.2, va, List.range bytes.length, bytes⟩]

/-- An image written block by block. -/
def State.putImage (s : State) (c : CoreId) (n : Nat) (base : Word) (m : Memory) (size : Nat) (blocks : List (Nat × Nat)) : State :=
  (enumFrom0 (blocks.take (size / 4096))).foldl (fun st x =>
    st.putBlock c n x.2 (base + BitVec.ofNat 64 (4096 * x.1)) (rdBytes m (4096 * x.1) 4096)) s

/-- Poisoned scratchpad sectors carry their poison into the image (R330). -/
def State.carryPadPoison (s : State) (c : CoreId) (blocks : List (Nat × Nat)) : State :=
  let mine := s.padPoison.filter fun e => e.1 / 65536 == c.val && decide (e.1 % 65536 * 32 < padTop)
  mine.foldl (fun st e =>
    let off := 0x1000 + e.1 % 65536 * 32
    match blocks.getD (off / 4096) (1, 0) with
    | (0, a) =>
      let n := (a + off % 4096) / 32
      let t := st.readSector (.hbm (32 * n))
      { t with poison := sset false t.poison n true }
    | _ => st) s

/-- Dirty stash entries written back before a save, as stores of the context; one that fails is an event (R157,
R163, R338). -/
def State.saveStash (s : State) (c : CoreId) : State :=
  ((s.core c).loc.stash.flatMap fun m =>
    (List.range m.count).filterMap fun i =>
      if sget false m.dirty i then some (m.off + 64 * i, m.addr + BitVec.ofNat 64 (64 * i)) else none).foldl
    (fun st x =>
      let bytes := rdBytes (st.core c).loc.scratch x.1 64
      match st.storeNow ((st.core c).agent c (.cluster .S)) ((vaBytes x.2 64).zip bytes) with
      | .ok st1 => st1
      | .error (.fault cause va) => st.storeError c none cause va
      | .error (.hole _) => st) s

/-- The frame of a pre-emption (R332); a context in its handler keeps its own (R336). -/
def Core.preemptFrame (k : Core) : Core :=
  if k.inHandler then k else k.frame ⟨.preempt, 3, .S, none, 0, 0, false⟩

/-- A polder's registers count a context (R344). -/
def State.countPreempt (s : State) (n : Nat) : State :=
  let p := s.polder n
  s.setPolder n { p with preempt := { p.preempt with count := p.preempt.count + 1 } }

/-- A register operation has a transfer in progress. -/
def State.registersBusy (s : State) (n : Nat) : Bool :=
  allCores.any fun d => ((s.core d).xfer.map (·.by_)) == some (.registers n)

/-- The part of a task image before its core images (R345). -/
def State.taskHeader (s : State) (t : Task) : Memory :=
  let p := s.polder t.polder
  let saved := t.iters.filter (·.state = .imaged)
  imgPuts [] ([(0, 128, t.record.toNat), (0x80, 4, saved.length)].append
    ((enumFrom0 p.cores).flatMap fun x =>
      [(0x1000 + 16 * x.1, 8, t.startedOn p x.2),
        (0x1008 + 16 * x.1, 1, if saved.any (·.core = x.2) then 1 else 0)]))

/-- The end of a register save, once every context of it is complete (R344, R345): its header is written. -/
def State.reviewSave (s : State) (n : Nat) : Res :=
  let r := (s.polder n).preempt
  if !r.go || decide (1 < r.op.toNat) || s.registersBusy n then .next s
  else match r.uid.bind s.task with
    | none => .next (s.endPreempt n 1)
    | some t =>
      match s.unitWrite n (s.launcherAgent n) r.base (rdBytes (s.taskHeader t) 0 0x2000) with
      | .ok s1 => .next (s1.endPreempt n 1)
      | .failed _ _ => .next (s.endPreempt n 5)
      | .hole pa => .fault (.physicalHole pa)

/-- The loads that a frame of fixed-latency mode has kept back are in the image as if ERET had come (R318, R340): those of
s1 to s15 of S in the handler record, which is memory, and the others in their registers. -/
def State.flushHeldLoads (s : State) (c : CoreId) : State :=
  (s.core c).trap.heldLoads.foldl (fun st l =>
    match l.2.dest with
    | .scalar rd bytes signed =>
      if l.1 = .S ∧ 1 ≤ rd.toNat ∧ rd.toNat ≤ 15 then
        let va := (st.core c).recordVa + BitVec.ofNat 64 (8 * (rd.toNat - 1))
        match st.storeNow ((st.core c).handlerAgent c)
            ((vaBytes va 8).zip (leBytes 8 (extendLoad l.2.raw bytes signed).toNat)) with
        | .ok st1 => st1
        | .error _ => st
      else st.writeLoad c l.1 l.2
    | _ => st.writeLoad c l.1 l.2) s

/-- An image of bytes. -/
def imageOf (bytes : List Byte) : Memory := wrBytes [] 0 bytes

/-- The iteration of a core's context has executed TRIGGER (R282). -/
def State.triggeredAt (s : State) (c : CoreId) : Bool :=
  match (s.core c).ctx with
  | none => false
  | some x => (((x.task.bind s.task).map (·.iters)).getD []).any fun i => i.id == x.id && i.ic == x.ic && i.triggered

/-- What an image that is written does not hold of its context is kept beside it (R346). -/
def State.noteSave (s : State) (c : CoreId) (m : Memory) : State :=
  { s with saves := (s.core c).saveNote m (s.triggeredAt c) :: s.saves.filter (·.image ≠ m) }

/-- The core writes its image (R338): the registers are as the stop leaves them, and the blocks are written. -/
def State.writeImage (s : State) (c : CoreId) (x : Xfer) : State :=
  let s1 := (s.flushHeldLoads c).saveStash c
  let s2 := s1.setCore c (s1.core c).preemptFrame
  let k := s2.core c
  let m := k.image (s2.polder k.polderNo) c s2.dev.time
  let n := imageBytes k.openAccs.length
  let s3 := (s2.noteSave c (imageOf (rdBytes m 0 n))).putImage c x.polder x.base m n x.blocks
  let s4 := s3.carryPadPoison c x.blocks
  s4.setCore c { s4.core c with phase := .saved }

/-- A save is complete (R341, R343): the core is free, and its iteration counts as saved. -/
def State.finishSave (s : State) (c : CoreId) (x : Xfer) : State :=
  let k := s.core c
  let s4 := s.answerXfer x (BitVec.ofNat 64 (imageBytes k.openAccs.length * 2 ^ 32))
  let s5 := match k.ctx with
    | none => s4
    | some y =>
      let s' := s4.setIter y (match x.by_ with
        | .cluster _ _ _ => .saved
        | .registers _ => .imaged)
      match y.task with
      | none => s'
      | some uid => s'.mapTask uid fun t => { t with saved := true, noInsert := true }
  s5.freeCore c

/-- The end of a save whose image has been written, once every write of it has been performed (R343). -/
def State.closeSave (s : State) (c : CoreId) (x : Xfer) : Res :=
  if !s.quiet c then .next s
  else
    let s2 := s.finishSave c x
    match x.by_ with
    | .cluster _ _ _ => .next s2
    | .registers n => (s2.countPreempt n).reviewSave n

/-- IMAGE_SAVE_COMPLETE (R316, R333, R334, R343): the image is written, and the save ends in the same step unless a peer has
still to answer a write of it. -/
def execImageSaveComplete (core : Nat) (s : State) : Res :=
  onCore core (fun c s =>
    match (s.core c).phase, (s.core c).xfer with
    | .saving, some x =>
      let s1 := (s.settleCore c).completeAllLoads c
      if !s1.quiet c || (s1.core c).drainReady then .next s else (s1.writeImage c x).closeSave c x
    | .saved, some x => s.closeSave c x
    | _, _ => .next s) s

/-! ### Fence mode (R335) -/

/-- Every command stamped with a generation or an older one has retired. -/
def Core.boundaryReached (k : Core) (g : BitVec 4) : Bool :=
  engineOrder.all fun e => (k.queue e).entries.all fun x => youngerGen x.gen g

/-- A fence save is still to stop its core. -/
def Core.fencing (k : Core) : Option Xfer :=
  match k.phase with
  | .running => k.xfer.filter (·.fence)
  | .stopping _ => k.xfer.filter (·.fence)
  | _ => none

/-- FENCE_MODE_BOUNDARY (R335): also where no GFENCE has been executed since the request. DEDUCED (assumption entry 30). -/
def execFenceModeBoundary (core : Nat) (s : State) : Res :=
  onCore core (fun c s =>
    match (s.core c).fencing with
    | none => .next s
    | some x => if (s.core c).boundaryReached x.gen then .next (s.beginSave c x false) else .next s) s

/-- FENCE_MODE_TIMEOUT (R335): immediate mode from the cycle at which the time-out has passed. -/
def execFenceModeTimeout (core : Nat) (s : State) : Res :=
  onCore core (fun c s =>
    match (s.core c).fencing with
    | none => .next s
    | some x => if x.timeout = 0 then .next (s.beginSave c x true) else .next s) s

/-! ### CTXSAVE (R341) -/

/-- The context of a core is being removed (R341): it has stopped for good, a kill of its task is in progress, or its polder
is being reset. -/
def State.removing (s : State) (c : CoreId) : Bool :=
  let k := s.core c
  k.phase == .doubleFault || k.phase == .machineStop || s.removalDue c .kill || (s.polder k.polderNo).part.flrGo

/-- The status of a core for a save: none when it may begin (R341). -/
def State.saveStatus (s : State) (c : CoreId) : Option Word :=
  let k := s.core c
  if k.xfer.isSome || k.phase == .saving || k.phase == .saved || k.phase == .loading then some 3
  else if k.ctx.isNone || k.phase == .free || s.removing c then some 1
  else none

/-- A save begins on a core, at once or at a generation boundary. -/
def State.requestSave (s : State) (c : CoreId) (x : Xfer) : State :=
  if x.fence then s.setCore c { s.core c with xfer := some x } else s.beginSave c x true

/-- The executing syllable begins a transfer and awaits its answer. -/
def State.ask (s : State) (ops : List Word) : State :=
  let mine (a : Asked) : Bool := a.pc == s.me.pc && a.handler == s.here.inHandler
  (s.setMe { s.me with
    asked := ⟨s.free, s.me.pc, s.actor.syl, ops, s.here.inHandler, none⟩ :: s.me.asked.filter fun a => !mine a }).block .answer

/-- The status that the transfer of the executing syllable has answered is delivered once the fence of its cluster is done
(R343); a syllable that has begun none with these operands makes its checks and begins one. -/
def takeAnswer (rd : SReg) (ops : List Word) (m : State → Res) (s0 : State) : Res :=
  let s := s0.settleHere true
  match (s.here.askedAt s.actor.cl).filter fun a => a.syl = s.actor.syl ∧ a.ops = ops with
  | none => m s
  | some a =>
    match a.answer with
    | some w => if s.reductionsOut then .next (s.block .reductions) else .next (s.setS rd w).complete
    | none => if s.transferring s.actor.core s.actor.cl a then .next (s.block .answer) else m s

/-- CTXSAVE (R341). -/
def execCtxsave (rd ra rb rc : SReg) (smode : SaveMode) (s : State) : Res :=
  takeAnswer rd [s.getS ra, s.getS rb, s.getS rc] (fun s =>
    let base := s.getS rb
    if base.toNat % 4096 ≠ 0 then s.faultHere .misaligned base
    else match s.checkBlocks s.agentHere .write base (imageMax / 4096) with
      | .error e => s.accessErr e
      | .ok blocks =>
        let n := s.here.polderNo
        let p := s.polder n
        let i := (s.getS ra).toNat
        match if i < p.coreList.length then p.coreAt i else none with
        | none => .next (s.setS rd 4).complete
        | some c =>
          if c = s.actor.core then .next (s.setS rd 2).complete
          else match s.saveStatus c with
            | some w => .next (s.setS rd w).complete
            | none =>
              let x : Xfer := ⟨base, n, .cluster s.actor.core s.actor.cl s.free, smode == .fence, (s.core c).gen, none,
                (s.getS rc).toNat % 2 ^ 32, blocks, false⟩
              .next ((s.requestSave c x).ask [s.getS ra, base, s.getS rc])) s

/-! ### CTXLOAD (R342) -/

/-- A core may receive an image. -/
def Core.loadable (k : Core) : Bool := k.isFree && k.xfer.isNone

/-- An image is restored onto a core (R342): the core loads it until IMAGE_LOAD_COMPLETE. -/
def State.beginLoad (s : State) (c : CoreId) (n : Nat) (m : Memory) (x : Context) (f : Xfer) : State :=
  let k := (s.core c).restore (s.polder n) n s.free s.freshId m x (s.noteOf m)
  (s.clearPad c padBytes).setCore c { k with xfer := some f }

/-- The judgement of an image, and its load (R342). -/
def loadImage (rd : SReg) (base : Word) (m : Memory) (s : State) : Res :=
  let n := s.here.polderNo
  let p := s.polder n
  if !imageOk m then .next (s.setS rd 5).complete
  else if !p.fits m then .next (s.setS rd 6).complete
  else match p.place (imgGet m 0x10 1) (imgGet m 0x11 1) with
    | none => .next (s.setS rd 6).complete
    | some c =>
      if !(s.core c).loadable then .next (s.setS rd 3).complete
      else
        let f : Xfer := ⟨base, n, .cluster s.actor.core s.actor.cl s.free, false, 0, none, 0, [], false⟩
        .next ((s.beginLoad c n m (contextOf m n (!p.supervisor) none 0 0) f).ask [base])

/-- CTXLOAD (R342). -/
def execCtxload (rd ra : SReg) (s : State) : Res :=
  takeAnswer rd [s.getS ra] (fun s =>
    let base := s.getS ra
    if base.toNat % 4096 ≠ 0 then s.faultHere .misaligned base
    else if s.reductionsOut then .next (s.block .reductions)
    else
      readThen s.agentHere (vaBytes base 4096) (fun e s => s.accessErr e) (fun head t =>
        let s := t.uncharged s
        let h := imageOf head
        if !headerOk h then .next (s.setS rd 5).complete
        else
          readThen s.agentHere (vaBytes base (imageSize h)) (fun e s => s.accessErr e)
            (fun bytes t => loadImage rd base (imageOf bytes) (t.uncharged s)) s) s) s

/-- The end of a register resumption, once every context of it is loaded (R344, R345). -/
def State.reviewResume (s : State) (n : Nat) : State :=
  let r := (s.polder n).preempt
  if r.go && r.op == 2 && r.uid.isSome && !s.registersBusy n then s.endPreempt n 1 else s

/-- IMAGE_LOAD_COMPLETE (R342, R346): the context resumes, a held trap or deferred fault first (R336). -/
def execImageLoadComplete (core : Nat) (s : State) : Res :=
  onCore core (fun c s =>
    match (s.core c).phase, (s.core c).xfer with
    | .loading, some f =>
      let k := { s.core c with phase := Phase.running, xfer := none }
      let s1 := (s.setCore c k).answerXfer f 0
      let s2 := match f.by_ with
        | .registers n => (s1.countPreempt n).reviewResume n
        | .cluster _ _ _ => s1
      if k.inHandler then .next s2
      else match k.trap.held with
        | [] => .next s2
        | r :: rs => (s2.setCore c { k with trap := { k.trap with held := rs } }).takeFrame c r
    | _, _ => .next s) s

end Sys2Proof.Machine
end

