-- ==== Sys2Proof/Machine/PreemptRegs.lean ====
section
/-!
DEFINITION. The pre-emption registers of a polder: saving, resuming and killing a task (R344, R345, R347).
-/

namespace Sys2Proof.Machine

/-! ### The start and the end of an operation (R344) -/

/-- An operation begins: GO reads 1, STATUS and COUNT are 0. -/
def State.openOp (s : State) (n : Nat) (op : BitVec 2) : State :=
  let p := s.polder n
  s.setPolder n { p with preempt := { p.preempt with op := op, go := true, status := 0, count := 0, uid := none } }

/-- The operation acts on a task. -/
def State.aimOp (s : State) (n uid : Nat) : State :=
  let p := s.polder n
  s.setPolder n { p with preempt := { p.preempt with uid := some uid } }

/-- A request while GO reads 1 is refused as busy, and the operation in progress goes on (R336, R344). -/
def State.refuseOp (s : State) (n : Nat) : State :=
  let p := s.polder n
  s.setPolder n { p with preempt := { p.preempt with status := 6 } }

/-- A write of 1 to GO by one who may write the block; nothing happens while the polder is being reset (R361). A
resumption that awaits a peer's bytes goes on. -/
def onGo (n : Nat) (by_ : Writer) (op : BitVec 2) (m : State → Res) (s : State) : Res :=
  onBlock n by_ (fun s =>
    let r := (s.polder n).preempt
    if (s.polder n).part.flrGo then .next s
    else if r.go then (if op = 2 ∧ r.op = 2 ∧ r.uid = none then m s else .next (s.refuseOp n))
    else m (s.openOp n op)) s

/-- The unended task that PRTASK names. -/
def State.namedTask (s : State) (n : Nat) (id : Half) : Option Task :=
  s.tasks.find? fun t => t.polder == n && !t.ended && Record.id t.record == id

/-- The address of a slot of a task image (R345). -/
def slotBase (base : Word) (k : Nat) : Word := base + BitVec.ofNat 64 (0x2000 + imageMax * k)

/-! ### Save (R345) -/

/-- The cores of a task's contexts that a save stops. -/
def State.savable (s : State) (uid : Nat) : List CoreId :=
  (s.taskCoresNow uid).filter fun c => (s.core c).phase != .doubleFault && (s.core c).phase != .machineStop

/-- What a function gives for each item of a list, or the first error. -/
def collect {α β : Type} (f : α → Except AccErr β) : List α → Except AccErr (List β)
  | [] => .ok []
  | a :: l => match f a with
    | .error e => .error e
    | .ok b => match collect f l with
      | .error e => .error e
      | .ok r => .ok (b :: r)

/-- The slot of a core, its range checked (R341, R344). -/
def State.slotBlock (s : State) (n : Nat) (base : Word) (c : CoreId) : Except AccErr (CoreId × Word × List (Nat × Nat)) :=
  let va := slotBase base ((s.polder n).numberOf c)
  match s.checkBlocks (s.launcherAgent n) .write va (imageMax / 4096) with
  | .error e => .error e
  | .ok b => .ok (c, va, b)

/-- The slots of cores, each range checked (R341, R344). -/
def State.slotBlocks (s : State) (n : Nat) (base : Word) (cores : List CoreId) :
    Except AccErr (List (CoreId × Word × List (Nat × Nat))) := collect (s.slotBlock n base) cores

/-- The ranges of a task image, the header's first. -/
def State.imageSlots (s : State) (n : Nat) (base : Word) (cores : List CoreId) :
    Except AccErr (List (CoreId × Word × List (Nat × Nat))) :=
  match s.checkBlocks (s.launcherAgent n) .write base 2 with
  | .error e => .error e
  | .ok _ => s.slotBlocks n base cores

/-- A task of which no further iteration starts, and which has been saved (R345). -/
def Task.haltForSave (t : Task) : Task :=
  { t with
    stopped := true
    saved := true
    noInsert := true
    lookup := if t.lookup = .due then .none else t.lookup }

/-- The saves of a task's contexts begin. -/
def State.saveSlots (s : State) (n : Nat) (fence : Bool) (l : List (CoreId × Word × List (Nat × Nat))) : State :=
  l.foldl (fun st x =>
    st.requestSave x.1 ⟨x.2.1, n, .registers n, fence, (st.core x.1).gen, none, (st.polder n).preempt.timeout.toNat, x.2.2,
      false⟩) s

/-- A save of the task that PRTASK names (R345). A hit copy is never stopped (R336). -/
def State.saveTask (s : State) (n : Nat) (fence : Bool) : Res :=
  let r := (s.polder n).preempt
  match s.namedTask n r.task with
  | none => .next (s.endPreempt n 2)
  | some t =>
    match t.lookup with
    | .copying _ _ _ _ => .next (s.endPreempt n 1)
    | _ =>
      let cores := s.savable t.uid
      if r.base.toNat % 65536 ≠ 0 then .next (s.endPreempt n 5)
      else match s.imageSlots n r.base cores with
        | .error (.hole pa) => .fault (.physicalHole pa)
        | .error _ => .next (s.endPreempt n 5)
        | .ok l =>
          if cores.any fun c => (s.core c).xfer.isSome then .next (s.endPreempt n 6)
          else
            let s1 := (s.aimOp n t.uid).mapTask t.uid Task.haltForSave
            (s1.saveSlots n fence l).reviewSave n

/-- IMMEDIATE_SAVE (R333, R345). -/
def execImmediateSave (n : Nat) (by_ : Writer) (s : State) : Res := onGo n by_ 0 (fun s => s.saveTask n false) s

/-- FENCE_SAVE (R335, R345). -/
def execFenceSave (n : Nat) (by_ : Writer) (s : State) : Res := onGo n by_ 1 (fun s => s.saveTask n true) s

/-! ### Kill (R345, R347) -/

/-- A kill of the task that PRTASK names: its contexts are removed one by one. -/
def State.killTask (s : State) (n : Nat) : Res :=
  match s.namedTask n (s.polder n).preempt.task with
  | none => .next (s.endPreempt n 2)
  | some t =>
    let stop (x : Task) : Task :=
      { x with stopped := true, noInsert := true, lookup := .none, removal := some (x.removal.getD ⟨.kill, none⟩) }
    .next (((s.aimOp n t.uid).mapTask t.uid stop).reviewKill n)

/-- KILL (R345, R347). -/
def execKill (n : Nat) (by_ : Writer) (s : State) : Res := onGo n by_ 3 (fun s => s.killTask n) s

/-! ### Resume (R345) -/

/-- What reading the saved slots of a task image gives. -/
inductive SlotsRead where
  | ok (s : State) (l : List (Nat × Memory))
  | later (s : State)
  | failed
  | hole (pa : Nat)

/-- The image of one slot, read whole. -/
def State.readSlot (s : State) (n : Nat) (base : Word) (k : Nat) : SlotsRead :=
  let ag := s.launcherAgent n
  match s.unitRead n ag (vaBytes (slotBase base k) 4096) with
  | .hole pa => .hole pa
  | .later s1 => .later s1
  | .failed _ _ => .failed
  | .bytes s1 head =>
    let h := imageOf head
    match s1.unitRead n ag (vaBytes (slotBase base k) (if headerOk h then imageSize h else 4096)) with
    | .hole pa => .hole pa
    | .later s2 => .later s2
    | .failed _ _ => .failed
    | .bytes s2 bytes => .ok (s2.uncharged s) [(k, imageOf bytes)]

/-- Slots read one after another, as long as each is. -/
def readEach (f : State → Nat → SlotsRead) : State → List Nat → SlotsRead
  | s, [] => .ok s []
  | s, k :: ks => match f s k with
    | .ok s1 a => match readEach f s1 ks with
      | .ok s2 l => .ok s2 (a ++ l)
      | r => r
    | r => r

/-- The images of the slots that a header marks, each read whole. -/
def State.readSlots (s : State) (n : Nat) (base : Word) (slots : List Nat) : SlotsRead :=
  readEach (fun t k => t.readSlot n base k) s slots

/-- What the record of a task image is found to be. -/
inductive Verdict where
  | status (st : Byte)
  | later (s : State)
  | hole (pa : Nat)
  | ok (s : State) (d : Option PureDesc)

/-- The pure descriptor that a saved record names, its code digest included (R293, R345). -/
def State.judgePure (s : State) (n : Nat) (r : Record) : Verdict :=
  if !Record.isPure r then .ok s none
  else if (Record.pureVa r).toNat % 64 ≠ 0 then .status 3
  else match s.unitRead n (s.launcherAgent n) (vaBytes (Record.pureVa r) 256) with
    | .hole pa => .hole pa
    | .later s1 => .later s1
    | .failed _ _ => .status 3
    | .bytes s1 l =>
      let d : PureDesc := BitVec.ofNat 2048 (leNat l)
      if !PureDesc.ok d r then .status 3
      else match s1.basinRead n (tileVas (PureDesc.code d, PureDesc.codeBytes d)) with
        | .hole pa => .hole pa
        | .later s2 => .later s2
        | .failed _ _ => .status 3
        | .bytes s2 code => if sha256 code = leBytes 32 (PureDesc.field d 0x20 32) then .ok s2 (some d) else .status 3

/-- Iterations that a header counts as started on polder core `k`. -/
def headerCount (h : Memory) (k : Nat) : Nat := imgGet h (0x1000 + 16 * k) 8

/-- The slots that a header marks. -/
def headerSlots (h : Memory) (cores : Nat) : List Nat := (List.range cores).filter fun k => imgGet h (0x1008 + 16 * k) 1 == 1

/-- The polder has a slot's shape, and the slot is that of its position (R342, R345). -/
def Polder.fitsSlot (p : Polder) (x : Nat × Memory) : Bool :=
  p.fits x.2 && ((p.place (imgGet x.2 0x10 1) (imgGet x.2 0x11 1)).map p.numberOf) == some x.1

/-- The counts of a header agree with the record's placement. -/
def countsOk (p : Polder) (r : Record) (h : Memory) (slots : List Nat) : Bool :=
  (enumFrom0 p.cores).all fun x =>
    decide (headerCount h x.1 ≤ Record.placedCount r p x.2) && (!slots.contains x.1 || decide (0 < headerCount h x.1))

/-- Where an iteration of a saved slot stands (R271, R345), and whether it has executed TRIGGER (R346). -/
def slotIter (p : Polder) (r : Record) (h : Memory) (k : Nat) (triggered : Bool) : Option Iter :=
  (p.coreAt k).map fun c =>
    let x := Record.iterAt r p c (headerCount h k - 1)
    ⟨x.1, x.2, c, .running, triggered⟩

/-- The task of a saved record (R345), its saved slots each with whether the iteration has executed TRIGGER: never looked up
and never inserted. -/
def resumedTask (p : Polder) (n : Nat) (r : Record) (h : Memory) (slots : List (Nat × Bool)) (va : Word) (order : Nat)
    (d : Option PureDesc) (uid : Nat) : Task :=
  let counted (k : Nat) : Nat := headerCount h k - (if slots.any (·.1 = k) then 1 else 0)
  { taskOf n r va (Record.rank r) order [] d uid with
    lookup := .none
    noInsert := true
    iters := slots.filterMap fun x => slotIter p r h x.1 x.2
    skipped := (List.range p.coreList.length).filterMap fun k => if counted k = 0 then none else some (k, counted k) }

/-- Every saved slot is loaded onto its core. -/
def State.loadSlots (s : State) (n uid : Nat) (r : Record) (h : Memory) (base : Word) (l : List (Nat × Memory)) : State :=
  l.foldl (fun st x =>
    let p := st.polder n
    match slotIter p r h x.1 false with
    | none => st
    | some i =>
      let f : Xfer := ⟨slotBase base x.1, n, .registers n, false, 0, none, 0, [], false⟩
      st.beginLoad i.core n x.2 (contextOf x.2 n (!p.supervisor) (some uid) i.id i.ic) f) s

/-- The task is registered and its slots are loaded, once everything has been found good (R345). -/
def State.admitTask (s : State) (n : Nat) (r : Record) (h : Memory) (base : Word) (l : List (Nat × Memory))
    (d : Option PureDesc) : State :=
  let p := s.polder n
  let uid := s.dev.taskNum
  let s1 := (s.countRecord n).addTask
    (resumedTask p n r h (l.map fun x => (x.1, ((s.noteOf x.2).map (·.triggered)).getD false)) base ((s.countRecord n).polder n).recordsRead d)
  (((s1.aimOp n uid).loadSlots n uid r h base l).clearFetched n).reviewResume n

/-- The images are judged in the order IMAGE, SHAPE, BUSY (R342, R345). -/
def State.judgeSlots (s : State) (n : Nat) (r : Record) (h : Memory) (base : Word) (d : Option PureDesc) : Res :=
  let p := s.polder n
  let slots := headerSlots h p.coreList.length
  let fail (st : Byte) : Res := .next ((s.clearFetched n).endPreempt n st)
  match s.readSlots n base slots with
  | .hole pa => .fault (.physicalHole pa)
  | .later s1 => .next s1
  | .failed => fail 5
  | .ok s1 l =>
    if !(l.all fun x => imageOk x.2) || s1.recordBad n r || !countsOk p r h slots then fail 3
    else if !l.all p.fitsSlot then fail 4
    else if !(slots.all fun k => ((p.coreAt k).map fun c => (s1.core c).loadable).getD false) then fail 6
    else .next (s1.admitTask n r h base l d)

/-- A resumption from the task image at PRBASE (R345). -/
def State.resumeTask (s : State) (n : Nat) : Res :=
  let base := (s.polder n).preempt.base
  let fail (st : Byte) : Res := .next ((s.clearFetched n).endPreempt n st)
  if base.toNat % 65536 ≠ 0 then fail 5
  else match s.unitRead n (s.launcherAgent n) (vaBytes base 0x2000) with
    | .hole pa => .fault (.physicalHole pa)
    | .later s1 => .next s1
    | .failed _ _ => fail 5
    | .bytes s1 bytes =>
      let h := imageOf bytes
      let r : Record := BitVec.ofNat 1024 (imgGet h 0 128)
      match s1.judgePure n r with
      | .status st => fail st
      | .hole pa => .fault (.physicalHole pa)
      | .later s2 => .next s2
      | .ok s2 d => if (s2.namedTask n (Record.id r)).isSome then fail 2 else s2.judgeSlots n r h base d

/-- RESUME (R345). -/
def execResume (n : Nat) (by_ : Writer) (s : State) : Res := onGo n by_ 2 (fun s => s.resumeTask n) s

end Sys2Proof.Machine
end

