-- ==== Sys2Proof/Machine/Reset.lean ====
section
/-!
DEFINITION. Function-level reset of a polder, and the reset of the device (R347, R360, R361, R392).
-/

namespace Sys2Proof.Machine

/-- The cores that run a context of a polder. -/
def State.contextCores (s : State) (n : Nat) : List CoreId :=
  allCores.filter fun c => ((s.core c).ctx.map (·.polder)) == some n

/-- A context drains toward its removal (R316, R360 step 2): a save or load of it is given up, and one that has stopped
for good stays as it is. An image that it was being saved to is untouched, or whole (R361; DESIGN CHOICE, assumption entry 77). -/
def State.drainCore (s : State) (c : CoreId) : State :=
  let s1 := s.endWaits c
  let k := s1.core c
  match k.phase with
  | .doubleFault => s1.setCore c { k with xfer := none }
  | .machineStop => s1.setCore c { k with xfer := none }
  | _ => s1.setCore c { k with phase := .saving, xfer := none }

/-- The polder's registers as a reset begins: the launcher reads no more, and an operation of PRCTL is abandoned
(R360 step 1, R361). -/
def Polder.quiesce (p : Polder) : Polder :=
  { p with
    part := { p.part with flrGo := true, flrLate := false, flrTime := 0, flrStat := 0 }
    launch := { p.launch with en := false, devq := [] }
    events := { p.events with en := false }
    preempt := { p.preempt with go := false, status := 0, uid := none } }

/-- A reset of a polder begins; a second request is ignored (R360, R361). -/
def State.beginReset (s : State) (n : Nat) : State :=
  if 64 ≤ n ∨ (s.polder n).part.flrGo then s
  else
    let s1 := s.setPolder n (s.polder n).quiesce
    (s1.contextCores n).foldl State.drainCore s1

/-- FUNCTION_LEVEL_RESET (R360). -/
def execFunctionLevelReset (n : Nat) (s : State) : Res := .next (s.beginReset n)

/-- Every context of the polder has drained, those apart that have stopped for good, no access of the polder awaits a peer, and
no ordered reduction of a peer is on its way to the polder's memory (R360 step 2). -/
def State.drained (s : State) (n : Nat) : Bool :=
  (s.peers.all fun p => s.peerPolder p.use != n) &&
  (s.rofSent.all fun m => m.core.isSome || !(s.polder n).inRange m.pair) &&
  (s.contextCores n).all fun c => match (s.core c).phase with
    | .doubleFault => true
    | .machineStop => true
    | _ => s.quiet c && !(s.core c).drainReady

/-- FLR_DRAIN_TIMEOUT (R360 step 2). -/
def execFlrDrainTimeout (n : Nat) (s : State) : Res :=
  let p := s.polder n
  if p.part.flrGo && decide (Config.drainLimit ≤ p.part.flrTime) && !s.drained n then
    .next (s.setPolder n { p with part := { p.part with flrLate := true } })
  else .next s

/-- The unended tasks of a polder end one after another: KILLED, or FAULTED where a fault removal came first (R278, R360
step 3). -/
def State.killTasks (n : Nat) : List Nat → State → Res
  | [], s => .next s
  | uid :: l, s =>
    let stop (x : Task) : Task :=
      { x with stopped := true, noInsert := true, lookup := .none, removal := some (x.removal.getD ⟨.kill, none⟩) }
    match s.task uid with
    | none => State.killTasks n l s
    | some t =>
      if t.polder ≠ n ∨ t.ended then State.killTasks n l s
      else
        let s1 := s.mapTask uid stop
        let t1 := s1.taskNow t
        match s1.endTask t1 t1.outcome.1 t1.outcome.2 with
        | .next s2 => State.killTasks n l s2
        | r => r

/-- Responses that the polder's accesses await are discarded when they arrive (R360 step 3). -/
def State.abandonPeers (s : State) (n : Nat) : State := { s with peers := s.peers.filter fun p => s.peerPolder p.use != n }

/-- What is tagged with the polder, and what it holds beside its contexts, goes (R360 step 4). -/
def State.forgetPolder (s0 : State) (n : Nat) : State :=
  let drop (k : Core) : Core := { k with loc := { k.loc with tlb := k.loc.tlb.filter fun e => e.ctx != 4096 + n } }
  let mine := (s0.l2.map (·.1)).filter fun key => key / 2 ^ 49 == 4096 + n
  let s := (mine.foldl State.evictL2 s0).clearBasin n
  let p := s.polder n
  State.setPolder { s with
      cores := tmap drop s.cores
      dies := tmap (fun d : Die => { d with
        retention := d.retention.filter fun r => r.polder != n
        tlb := d.tlb.filter fun e => e.ctx != 4096 + n
        walks := d.walks.filter fun e => e.ctx != 4096 + n }) s.dies
      watches := s.watches.filter fun w => w.2.polder != n
      rofSent := s.rofSent.filter fun m => m.polder != n || m.core.isNone
      rofHeld := s.rofHeld.filter fun m => m.polder != n || m.core.isNone } n
    { p with
      part := { p.part with crem := tmap (fun r : Remap => { r with ctl := setBit r.ctl 63 false }) p.part.crem }
      fetched := []
      failed := [] }

/-- The end of a reset (R360 step 5). -/
def State.closeReset (s : State) (n : Nat) : State :=
  let p := s.polder n
  s.setPolder n { p with part := { p.part with
    flrGo := false, flrStat := if p.part.flrLate then 2 else 1, flrLate := false, flrTime := 0 } }

/-- Steps 3 to 5 of R360. -/
def State.finishReset (s : State) (n : Nat) : Res :=
  let s1 := s.abandonPeers n
  let s2 := (s1.contextCores n).foldl (fun st c => st.removeContext c .kill) s1
  match State.killTasks n (s2.tasks.map (·.uid)) s2 with
  | .next s3 => .next ((s3.forgetPolder n).closeReset n)
  | r => r

/-- FLR_COMPLETE (R360): every context has drained, or the time-out has passed. -/
def execFlrComplete (n : Nat) (s : State) : Res :=
  let p := s.polder n
  if p.part.flrGo && (p.part.flrLate || s.drained n) then s.finishReset n else .next s

/-! ### The device (R392) -/

/-- The device as it comes out of reset: what lies outside it, and the model's own records of images, agenda and count of free values,
are kept. -/
def State.powered (s : State) : State :=
  { State.reset with hostMem := s.hostMem, saves := s.saves, agenda := s.agenda, free := s.free }

/-- POWER_ON (R392). -/
def execPowerOn (s : State) : Res := .next s.powered

/-- Every polder is reset as its own reset does it, one polder after another; the drain is cut short (R360, R392; assumption
entry 18). -/
def resetPolders : List Nat → State → Res
  | [], s => .next s
  | n :: l, s =>
    match (s.beginReset n).finishReset n with
    | .next t => resetPolders l t
    | r => r

/-- A device reset (R392): the contexts are removed, HBM is cleared, and the device boots again. -/
def State.resetDevice (s : State) : Res :=
  match resetPolders (List.range 64) s with
  | .next t => .next t.powered
  | r => r

/-- DEVICE_RESET (R392). -/
def execDeviceReset (s : State) : Res := s.resetDevice

end Sys2Proof.Machine
end

