-- ==== Sys2Proof/Machine/Registers.lean ====
section
/-!
DEFINITION. The device's registers as drivers and management write and read them (R279, R302, R344, R349, R363, R367, R370,
R396). Bits that a table reserves, and address bits below an alignment that it requires, are kept as zero.
-/

namespace Sys2Proof.Machine

/-! ### Fields -/

/-- A word with its low bits zero. -/
def alignDown (bits : Nat) (v : Word) : Word := BitVec.ofNat 64 (v.toNat / 2 ^ bits * 2 ^ bits)

/-- Bits `lo` to `lo + n - 1` of a word, in place. -/
def keepBits (v : Word) (lo n : Nat) : Nat := v.toNat / 2 ^ lo % 2 ^ n * 2 ^ lo

/-- The offset is that of entry `i` of a table of `n` entries from `base`, `step` bytes apart: the entry and the offset in
it. -/
def entryAt (base step n off : Nat) : Option (Nat × Nat) :=
  if base ≤ off ∧ off < base + step * n then some ((off - base) / step, (off - base) % step) else none

/-! ### A polder's partition registers (R349) -/

/-- PCTL is written (R349): SEC changes only by management. When EN rises, the device launch queue counts as read last
(R275). -/
def Polder.setPctl (p : Polder) (by_ : Writer) (v : Word) : Polder :=
  { p with
    part := { p.part with
      vf := BitVec.ofNat 6 (v.toNat / 2 ^ 8)
      sec := if by_ = .management then v.getLsbD 1 else p.part.sec
      en := v.getLsbD 0 }
    launch := { p.launch with devLast := (v.getLsbD 0 && !p.part.en) || p.launch.devLast } }

/-- Another polder holds one of the cores that a PCORE word names. -/
def State.takenElsewhere (s : State) (n k : Nat) (v : Word) : Bool :=
  (List.range 64).any fun m => m != n && (tget 0 (s.polder m).part.pcore k &&& v) != 0

/-- PCOREk is written (R349): ignored while EN is 1 and where it names another polder's core; the basin's entries go when
the set of cores changes (R303), and the cores that it newly names pass into the polder (R350). -/
def State.setPcore (s : State) (n k : Nat) (v : Word) : State :=
  let p := s.polder n
  if p.part.en || decide (4 ≤ k) || s.takenElsewhere n k v || tget 0 p.part.pcore k == v then s
  else
    let s1 := (s.setPolder n { p with part := { p.part with pcore := tset p.part.pcore k v } }).clearBasin n
    let new := v &&& ~~~(tget 0 p.part.pcore k)
    (allCores.filter fun c => c.val / 64 == k && new.getLsbD (c.val % 64)).foldl State.giveCore s1

/-- A half of a memory range is written (R349). -/
def PolderRegs.setPmem (p : PolderRegs) (k off : Nat) (v : Word) : PolderRegs :=
  if p.en then p
  else if off = 0 then { p with pmemB := tset p.pmemB k (alignDown 16 v) }
  else if off = 8 then { p with pmemS := tset p.pmemS k (v.setWidth 21) }
  else p

/-- A root of the translation is written (R349): the translations through the old table are no more, and are created anew
if it becomes the root again (R325). -/
def State.setRoot (s : State) (n : Nat) (upper : Bool) (v : Word) : State :=
  let p := s.polder n
  let new := alignDown 12 v
  let old := if upper then p.part.ptroot1 else p.part.ptroot0
  if p.part.en || new == old then s
  else
    let part := if upper then { p.part with ptroot1 := new } else { p.part with ptroot0 := new }
    { s.setPolder n { p with part := part } with
      clean := retranslated s.clean ((List.range 512).map fun i => old.toNat + 8 * i) }

/-- A bandwidth register is written (R349, R359). -/
def PolderRegs.setBw (p : PolderRegs) (c : Nat) (v : Word) : PolderRegs :=
  { p with burst := tset p.burst c (BitVec.ofNat 17 (v.toNat / 2 ^ 32)), rate := tset p.rate c (v.setWidth 17) }

/-- A word of an export entry is written (R367). -/
def PolderRegs.setExport (p : PolderRegs) (j off : Nat) (v : Word) : PolderRegs :=
  let e := tget ⟨0, 0, 0⟩ p.exps j
  let control : Word := BitVec.ofNat 64 (keepBits v 61 3 + keepBits v 48 9 + keepBits v 40 6)
  let e1 : Export := if off = 0 then { e with control := control } else if off = 8 then { e with base := alignDown 16 v }
    else if off = 16 then { e with size := v } else e
  { p with exps := tset p.exps j e1 }

/-- A word of a code remap entry is written (R370). -/
def PolderRegs.setRemap (p : PolderRegs) (j off : Nat) (v : Word) : PolderRegs :=
  let e := tget ⟨0, 0⟩ p.crem j
  let ctl : Word := BitVec.ofNat 64 (keepBits v 63 1 + keepBits v 48 12 + keepBits v 16 32)
  let e1 : Remap := if off = 0 then { e with ctl := ctl } else if off = 8 then { e with pa := alignDown 16 v } else e
  { p with crem := tset p.crem j e1 }

/-- The partition registers of a polder changed. -/
def State.mapPart (s : State) (n : Nat) (f : PolderRegs → PolderRegs) : State :=
  let p := s.polder n
  s.setPolder n { p with part := f p.part }

/-! ### A polder's basin and pre-emption registers (R302, R344) -/

/-- A register of the basin is written (R302). A QUOTA above 1,048,576 and a LIMIT above 131,072 stand as written (DESIGN CHOICE,
assumption entry 74). -/
def State.setBasinReg (s : State) (n off : Nat) (v : Word) : State :=
  let p := s.polder n
  let b := p.basin
  let put (b : BasinRegs) : State := s.setPolder n { p with basin := b }
  if off < 0x418 then put { b with bkey := tset b.bkey ((off - 0x400) / 8) v }
  else if off = 0x418 then s.installKey n v
  else if off = 0x420 then (if b.en then s else put { b with rsbase := alignDown 16 v })
  else if off = 0x428 then (if b.en then s else put { b with rsquota := v.setWidth 21 })
  else if off = 0x430 then (if b.en then s else put { b with bentq := v.setWidth 18 })
  else if off = 0x438 then (if v.getLsbD 1 then s.clearBasin n else s).setBasinEn n (v.getLsbD 0)
  else s

/-- An operation of PRCTL. -/
def State.runOp (n : Nat) (op : BitVec 2) (s : State) : Res :=
  if op = 0 then s.saveTask n false
  else if op = 1 then s.saveTask n true
  else if op = 2 then s.resumeTask n
  else s.killTask n

/-- A register of the pre-emption registers is written (R344): writes but that of GO = 1 are ignored while GO reads 1. -/
def State.setPreemptReg (s : State) (n off : Nat) (by_ : Writer) (v : Word) : Res :=
  let p := s.polder n
  let r := p.preempt
  let put (r : PreemptRegs) : Res := .next (s.setPolder n { p with preempt := r })
  if off = 0x498 then
    let op : BitVec 2 := BitVec.ofNat 2 (v.toNat / 2)
    if v.getLsbD 0 then onGo n by_ op (State.runOp n op) s
    else if r.go then .next s else put { r with op := op }
  else if r.go then .next s
  else if off = 0x480 then put { r with task := v.setWidth 32 }
  else if off = 0x488 then put { r with base := v }
  else if off = 0x490 then put { r with timeout := v.setWidth 32 }
  else .next s

/-- A register of a polder's configuration block is written (R349); offsets that no table names ignore it. -/
def State.setPolderReg (s : State) (n : Nat) (by_ : Writer) (off : Nat) (v : Word) : Res :=
  if off % 8 ≠ 0 then .next s
  else if off = 0 then .next (s.setPolder n ((s.polder n).setPctl by_ v))
  else if off < 0x28 then .next (s.setPcore n (off / 8 - 1) v)
  else if off = 0xC0 ∨ off = 0xC8 then .next (s.setRoot n (off == 0xC8) v)
  else if off = 0x200 then .next (if v.getLsbD 0 then s.beginReset n else s)
  else if 0x400 ≤ off ∧ off < 0x460 then .next (s.setBasinReg n off v)
  else if 0x480 ≤ off ∧ off < 0x4A0 then s.setPreemptReg n off by_ v
  else match entryAt 0x40 16 8 off, entryAt 0x100 8 8 off, entryAt 0x600 32 16 off, entryAt 0x800 16 8 off with
    | some x, _, _, _ => .next (s.mapPart n fun p => p.setPmem x.1 x.2 v)
    | _, some x, _, _ => .next (s.mapPart n fun p => p.setBw x.1 v)
    | _, _, some x, _ => .next (s.mapPart n fun p => p.setExport x.1 x.2 v)
    | _, _, _, some x => .next (s.mapPart n fun p => p.setRemap x.1 x.2 v)
    | _, _, _, _ => .next s

/-- PCORE_WRITE (R303, R349). -/
def execPcoreWrite (n : Nat) (by_ : Writer) (k : Nat) (value : Word) (s : State) : Res :=
  onBlock n by_ (fun s => .next (s.setPcore n k value)) s

/-- CODE_REMAP_WRITE (R370), at an offset from CREM0. -/
def execCodeRemapWrite (n : Nat) (by_ : Writer) (off : Nat) (value : Word) (s : State) : Res :=
  onBlock n by_ (fun s => match entryAt 0 16 8 off with
    | some x => .next (s.mapPart n fun p => p.setRemap x.1 x.2 value)
    | none => .next s) s

/-! ### A virtual function's registers (R279, R363) -/

/-- A register of a virtual function's block is written. -/
def State.setVfReg (s : State) (n off : Nat) (v : Word) : State :=
  let p := s.polder n
  let e := p.events
  if off = 0x1000 then
    (if p.launch.en then s else s.setPolder n { p with launch := { p.launch with base := alignDown 3 v } })
  else if off = 0x1008 then s.setLqctl n v
  else if off = 0x1020 then s.ringDoorbell n (v.setWidth 32)
  else if off = 0x2000 then s.setPolder n { p with events := { e with hwbase := alignDown 36 v } }
  else if off = 0x3000 then s.setPolder n { p with events := { e with base := alignDown 12 v } }
  else if off = 0x3008 then s.setEvctl n v
  else if off = 0x3010 then s.setPolder n { p with events := { e with rd := v.setWidth 32 } }
  else s

/-! ### The management block (R396) -/

/-- The device's own registers changed. -/
def State.mapDev (s : State) (f : Device → Device) : State := { s with dev := f s.dev }

/-- A report is requested; a second request while one is in progress is busy (R396). -/
def Device.request (d : Device) : Device :=
  if d.actlGo then { d with actlStat := 3 } else { d with actlGo := true, actlStat := 0 }

/-- 64 bits of the nonce replaced. -/
def setNonce (x : BitVec 256) (i : Nat) (v : Word) : BitVec 256 :=
  (x &&& ~~~(BitVec.ofNat 256 (2 ^ 64 - 1) <<< (64 * i))) ||| (BitVec.setWidth 256 v <<< (64 * i))

/-- A register of the management block is written. -/
def State.setMgmtReg (s : State) (off : Nat) (v : Word) : Res :=
  if off = 0x30 then (if v.getLsbD 0 then s.resetDevice else .next s)
  else if off = 0x120 then .next (s.mapDev fun d => if d.actlGo then d else { d with aaddr := v })
  else if off = 0x128 then .next (s.mapDev fun d => if v.getLsbD 0 then d.request else d)
  else match entryAt 0x100 8 4 off with
    | some (i, 0) => .next (s.mapDev fun d => if d.actlGo then d else { d with nonce := setNonce d.nonce i v })
    | _ => .next s

/-- REGISTER_WRITE (R349, R362, R363, R392, R396): 8 bytes at an offset of a block, ignored where the writer does not reach
the register. -/
def execRegisterWrite (by_ : Writer) (block : RegBlock) (off : Nat) (value : Word) (s : State) : Res :=
  match block with
  | .management => match by_ with
    | .virtualFunction _ => .next s
    | _ => s.setMgmtReg off value
  | .polder n => onBlock n by_ (fun s => s.setPolderReg n by_ off value) s
  | .virtualFunction v =>
    if by_ = .virtualFunction v then onServed v (fun n s => .next (s.setVfReg n off value)) s else .next s

/-! ### Reads -/

/-- The partition registers as they read (R349, R360). -/
def PolderRegs.read (p : PolderRegs) (off : Nat) : Nat :=
  let bit (b : Bool) (n : Nat) : Nat := if b then 2 ^ n else 0
  if off = 0 then p.vf.toNat * 2 ^ 8 + bit p.sec 1 + bit p.en 0
  else if off < 0x28 then (tget 0 p.pcore (off / 8 - 1)).toNat
  else if off = 0xC0 then p.ptroot0.toNat
  else if off = 0xC8 then p.ptroot1.toNat
  else if off = 0x200 then p.flrStat.toNat * 2 ^ 8 + bit p.flrGo 0
  else match entryAt 0x40 16 8 off, entryAt 0x100 8 8 off, entryAt 0x600 32 16 off, entryAt 0x800 16 8 off with
    | some (k, o), _, _, _ => if o = 0 then (tget 0 p.pmemB k).toNat else (tget 0 p.pmemS k).toNat
    | _, some (c, _), _, _ => (tget 0 p.burst c).toNat * 2 ^ 32 + (tget 0 p.rate c).toNat
    | _, _, some (j, o), _ =>
      let e := tget ⟨0, 0, 0⟩ p.exps j
      if o = 0 then e.control.toNat else if o = 8 then e.base.toNat else if o = 16 then e.size.toNat else 0
    | _, _, _, some (j, o) => let e := tget ⟨0, 0⟩ p.crem j; if o = 0 then e.ctl.toNat else e.pa.toNat
    | _, _, _, _ => 0

/-- The basin's registers as they read; the key reads 0 (R302). -/
def BasinRegs.read (b : BasinRegs) (off : Nat) : Nat :=
  if off = 0x420 then b.rsbase.toNat
  else if off = 0x428 then b.rsquota.toNat
  else if off = 0x430 then b.bentq.toNat
  else if off = 0x438 then (if b.en then 1 else 0)
  else match entryAt 0x440 8 4 off with
    | some (i, _) => (tget 0 b.counts i).toNat
    | none => 0

/-- The pre-emption registers as they read (R344). -/
def PreemptRegs.read (r : PreemptRegs) (off : Nat) : Nat :=
  if off = 0x480 then r.task.toNat
  else if off = 0x488 then r.base.toNat
  else if off = 0x490 then r.timeout.toNat
  else if off = 0x498 then
    r.count.toNat * 2 ^ 32 + r.status.toNat * 2 ^ 16 + r.op.toNat * 2 + (if r.go then 1 else 0)
  else 0

/-- A polder's configuration block as it reads: offsets that no table names read 0. -/
def Polder.read (p : Polder) (off : Nat) : Nat :=
  if off % 8 ≠ 0 then 0
  else if 0x400 ≤ off ∧ off < 0x460 then p.basin.read off
  else if 0x480 ≤ off ∧ off < 0x4A0 then p.preempt.read off
  else p.part.read off

/-- A virtual function's block as it reads (R279, R363). -/
def Polder.readVf (p : Polder) (n off : Nat) : Nat :=
  let l := p.launch
  let e := p.events
  let ctl (en : Bool) (k : BitVec 4) : Nat := (if en then 2 ^ 31 else 0) + k.toNat
  if off = 0 then n
  else if off = 0x1000 then l.base.toNat
  else if off = 0x1008 then ctl l.en l.log2n
  else if off = 0x1010 then l.rd.toNat
  else if off = 0x1018 then l.wr.toNat
  else if off = 0x2000 then e.hwbase.toNat
  else if off = 0x3000 then e.base.toNat
  else if off = 0x3008 then ctl e.en e.log2n
  else if off = 0x3010 then e.rd.toNat
  else if off = 0x3018 then e.wr.toNat
  else if off = 0x3020 then e.lost.toNat
  else 0

/-- The management block as it reads; `now` numbers the sensors' free value, which DPWR gives once READY is set (R396;
assumption entry 5). -/
def Device.read (d : Device) (now off : Nat) : Nat :=
  let bit (b : Bool) (n : Nat) : Nat := if b then 2 ^ n else 0
  if off = 0 then
    d.svn.toNat * 2 ^ 16 + d.boot.toNat * 2 ^ 4 + bit d.tlock 2 + bit (decide (d.mhz.toNat < 3600)) 1 + bit d.ready 0
  else if off = 8 then d.mhz.toNat
  else if off = 0x10 then (if d.ready then (Config.sensor now).toNat else 0)
  else if off = 0x18 then Config.serial.toNat
  else if off = 0x20 then d.dnum.toNat
  else if off = 0x28 then d.toff.toNat
  else if off = 0x120 then d.aaddr.toNat
  else if off = 0x128 then d.actlStat.toNat * 2 ^ 8 + bit d.actlGo 0
  else 0

/-- What a read of 8 bytes at an offset of a block gives (R349, R360, R362, R392). -/
def State.readRegister (s : State) (by_ : Writer) (block : RegBlock) (off : Nat) : Word :=
  match block with
  | .management => match by_ with
    | .virtualFunction _ => 0
    | _ => BitVec.ofNat 64 (s.dev.read s.free off)
  | .polder n => if s.mayWrite n by_ then BitVec.ofNat 64 ((s.polder n).read off) else 0
  | .virtualFunction v =>
    if by_ = .virtualFunction v then ((s.served v).map fun n => BitVec.ofNat 64 ((s.polder n).readVf n off)).getD 0
    else 0

end Sys2Proof.Machine
end

