-- ==== Sys2Proof/Machine/Mgmt.lean ====
section
/-!
DEFINITION. Management: boot, clock and temperature, the time unit, and attestation (R390 to R396).
-/

namespace Sys2Proof.Machine

/-! ### Boot (R392) -/

/-- FIRMWARE_FETCH_RETRY (R392, R396): an image was rejected, or none was found. -/
def execFirmwareFetchRetry (result : FirmwareFetch) (s : State) : Res :=
  if s.dev.ready then .next s
  else .next (s.mapDev fun d => { d with boot := match result with
    | .rejected => 2
    | .notFound => 3 })

/-- The ROM accepts an image: its signature verifies, its key is the fused one, and its security version is not below the
rollback counter (R392). -/
def bootable (config : BootConfig) : Bool :=
  config.signed && config.key == Config.fusedKey && decide (Config.rollback.toNat ≤ config.svn.toNat)

/-- BOOT_COMPLETE (R392): the firmware sets the secure ranges, the device number and READY; an image that fails a check is
discarded. -/
def execBootComplete (config : BootConfig) (s : State) : Res :=
  if s.dev.ready then .next s
  else if !bootable config then .next (s.mapDev fun d => { d with boot := 2 })
  else .next (s.mapDev fun d => { d with
    ready := true
    boot := 1
    digest := config.digest
    svn := config.svn
    dnum := config.device
    secure := config.secure.take 16 })

/-! ### Clock and temperature (R390) -/

/-- The die junction temperature that the sensors give, in °C (R390, R396; assumption entry 5). -/
def junction (now : Nat) : Nat := (Config.sensor now).toNat / 2 ^ 16

/-- The averaged power or the junction temperature that the sensors give exceeds its limit (R390; assumption entry 5). -/
def overLimits (now : Nat) : Bool :=
  decide (3200 < (Config.sensor now).toNat % 2 ^ 16 ∨ 105 < junction now)

/-- CLOCK_THROTTLE (R390): a step of 100 MHz down, to no less than 1.8 GHz, while a limit is exceeded. -/
def execClockThrottle (s : State) : Res :=
  if !overLimits s.free then .next s
  else .next (s.mapDev fun d => { d with mhz := BitVec.ofNat 16 (max 1800 (d.mhz.toNat - 100)) })

/-- CLOCK_RESTORE (R390): a step up, to no more than 3.6 GHz, once the limits have held for 10 ms. -/
def execClockRestore (s : State) : Res :=
  if s.dev.withinNs < Config.restoreAfter then .next s
  else .next (s.mapDev fun d => { d with mhz := BitVec.ofNat 16 (min 3600 (d.mhz.toNat + 100)) })

/-- The source field of management's events (R331). -/
def mgmtSource : Half := 0x0704FFFF

/-- JUNCTION_TEMPERATURE_MACHINE_CHECK (R390): at 115 °C, MACHINE_CHECK to management, and every core stops. -/
def execJunctionTemperatureMachineCheck (s : State) : Res :=
  let stop (k : Core) : Core := if k.ctx.isSome then { k with phase := .machineStop } else k
  let s1 : State := { s with cores := tmap stop s.cores, dev := { s.dev with stopped := true } }
  if junction s.free < 115 then .next s else .next (s1.sendEvent ⟨0, mgmtSource, .machineCheck, 7, noPolder⟩)

/-! ### Time (R394) -/

/-- An offset as TOFF holds it: signed, saturating (R396). -/
def toffOf (offset : Int) : Half := BitVec.ofInt 32 (max (-2 ^ 31) (min (2 ^ 31 - 1) offset))

/-- The WAITT of a cluster that waits, with its syllable. -/
def ClusterState.waitsTime (k : ClusterState) : Option Word :=
  match k.status with
  | .waiting (.time _ w) => some w
  | _ => none

/-- The time unit has lost lock: a WAITT that waits faults with TIME_UNLOCKED (R227). -/
def State.failWaitt (s : State) : List (CoreId × Cluster) → Res
  | [] => .next s
  | (c, x) :: l =>
    let k := s.core c
    match if k.phase == .running then (k.cl x).waitsTime else none with
    | none => s.failWaitt l
    | some w =>
      match s.raise c ⟨.timeUnlocked, 0, x, none, 0, w, (k.cl x).useq.isSome⟩ with
      | .next t => t.failWaitt l
      | r => r

/-- Every cluster of the device, those of a core in slot order. -/
def allClusters : List (CoreId × Cluster) := allCores.flatMap fun c => clusterOrder.map (c, ·)

/-- Lock is lost (R227, R394). -/
def State.loseLock (s : State) : Res :=
  let s1 := s.mapDev fun d => { d with tlock := false }
  if s.dev.tlock then s1.failWaitt allClusters else .next s1

/-- Nanoseconds without a sync message after which lock is lost (R394). -/
def lockLimit : Nat := 2000000000

/-- TIME_LOCK_LOSS (R394): no sync message for 2 s. -/
def execTimeLockLoss (s : State) : Res := if s.dev.sinceSync < lockLimit then .next s else s.loseLock

/-- Lock that is held is lost when 2 s have passed (R394). -/
def State.lockLapse (s : State) : Res := if s.dev.tlock then execTimeLockLoss s else .next s

/-- The time unit takes a sync message (R394): the estimate is refreshed; within 25 ns the unit is locked. %time is set at the
first lock; once programs run it does not go back (R395; assumption entry 38). -/
def Device.sync (d : Device) (offset : Int) (tai : Word) : Device :=
  let d1 := { d with toff := toffOf offset, sinceSync := 0 }
  if offset.natAbs ≤ 25 then
    { d1 with
      tlock := true
      locked1 := true
      time := if d.locked1 then d.time else if d.ready && decide (tai.toNat < d.time.toNat) then d.time else tai }
  else d1

/-- SYNC_MESSAGE (R394): beyond 1 µs lock is lost; 2 s after the last one it has been. -/
def execSyncMessage (offset : Int) (tai : Word) (s : State) : Res :=
  match s.lockLapse with
  | .next s1 =>
    let s2 := s1.mapDev fun d => d.sync offset tai
    if 1000 < offset.natAbs then s2.loseLock else .next s2
  | r => r

/-! ### Attestation (R393, R396) -/

/-- ATTESTATION_REQUEST (R396): a write of 1 to ACTL.GO. -/
def execAttestationRequest (s : State) : Res := .next (s.mapDev Device.request)

/-- Bytes 127 to 0 of a report (R393). -/
def Device.reportBody (d : Device) : List Byte :=
  [[0x59, 0x46, 0x41, 0x54], leBytes 4 1, leBytes 8 Config.serial.toNat, leBytes 32 d.digest.toNat, leBytes 4 d.svn.toNat,
    leBytes 32 d.nonce.toNat, leBytes 8 d.time.toNat, List.replicate 36 0].flatten

/-- The 512 bytes of a report. -/
def Device.report (d : Device) : List Byte :=
  d.reportBody.append (leBytes 384 (Config.signature (BitVec.ofNat 1024 (leNat d.reportBody))).toNat)

/-- AADDR may take a report: 512-byte aligned, in HBM, outside every secure range. -/
def State.reportPlace (s : State) : Bool :=
  let a := s.dev.aaddr.toNat
  decide (a % 512 = 0 ∧ a + 512 ≤ Config.hbmBytes) && (List.range 512).all fun i => !s.isSecure (a + i)

/-- ATTESTATION_REPORT_WRITTEN (R393, R396). -/
def execAttestationReportWritten (s : State) : Res :=
  if !s.dev.actlGo || !s.dev.ready then .next s
  else if s.reportPlace then
    .next ((s.writePhys unitAgent s.dev.aaddr.toNat s.dev.report).mapDev fun d => { d with actlGo := false, actlStat := 1 })
  else .next (s.mapDev fun d => { d with actlGo := false, actlStat := 2 })

end Sys2Proof.Machine
end

