-- ==== Sys2Proof/Machine/Dispatch.lean ====
section
/-!
DEFINITION. The meaning of every instruction and event: one arm for each constructor of `Instr`.
-/

namespace Sys2Proof.Machine

def exec (i : Instr) (s : State) : Host.Outcome State Fault Refusal :=
  match i with
  | .nop => Sys2Proof.Machine.execNop s
  | .add rd ra rb => Sys2Proof.Machine.execAdd rd ra rb s
  | .sub rd ra rb => Sys2Proof.Machine.execSub rd ra rb s
  | .mul rd ra rb => Sys2Proof.Machine.execMul rd ra rb s
  | .mulh rd ra rb => Sys2Proof.Machine.execMulh rd ra rb s
  | .mulhu rd ra rb => Sys2Proof.Machine.execMulhu rd ra rb s
  | .div rd ra rb => Sys2Proof.Machine.execDiv rd ra rb s
  | .divu rd ra rb => Sys2Proof.Machine.execDivu rd ra rb s
  | .rem rd ra rb => Sys2Proof.Machine.execRem rd ra rb s
  | .remu rd ra rb => Sys2Proof.Machine.execRemu rd ra rb s
  | .and rd ra rb => Sys2Proof.Machine.execAnd rd ra rb s
  | .or rd ra rb => Sys2Proof.Machine.execOr rd ra rb s
  | .xor rd ra rb => Sys2Proof.Machine.execXor rd ra rb s
  | .andn rd ra rb => Sys2Proof.Machine.execAndn rd ra rb s
  | .shl rd ra rb => Sys2Proof.Machine.execShl rd ra rb s
  | .shr rd ra rb => Sys2Proof.Machine.execShr rd ra rb s
  | .sar rd ra rb => Sys2Proof.Machine.execSar rd ra rb s
  | .rotr rd ra rb => Sys2Proof.Machine.execRotr rd ra rb s
  | .min rd ra rb => Sys2Proof.Machine.execMin rd ra rb s
  | .max rd ra rb => Sys2Proof.Machine.execMax rd ra rb s
  | .minu rd ra rb => Sys2Proof.Machine.execMinu rd ra rb s
  | .maxu rd ra rb => Sys2Proof.Machine.execMaxu rd ra rb s
  | .clz rd ra => Sys2Proof.Machine.execClz rd ra s
  | .ctz rd ra => Sys2Proof.Machine.execCtz rd ra s
  | .popc rd ra => Sys2Proof.Machine.execPopc rd ra s
  | .brev rd ra => Sys2Proof.Machine.execBrev rd ra s
  | .bswap rd ra => Sys2Proof.Machine.execBswap rd ra s
  | .extr rd ra len pos => Sys2Proof.Machine.execExtr rd ra len pos s
  | .extru rd ra len pos => Sys2Proof.Machine.execExtru rd ra len pos s
  | .insr rd ra rb len pos => Sys2Proof.Machine.execInsr rd ra rb len pos s
  | .madd rd ra rb rc => Sys2Proof.Machine.execMadd rd ra rb rc s
  | .lea rd ra rb sh => Sys2Proof.Machine.execLea rd ra rb sh s
  | .sext rd ra w => Sys2Proof.Machine.execSext rd ra w s
  | .zext rd ra w => Sys2Proof.Machine.execZext rd ra w s
  | .mov rd ra => Sys2Proof.Machine.execMov rd ra s
  | .addi rd ra imm => Sys2Proof.Machine.execAddi rd ra imm s
  | .andi rd ra imm => Sys2Proof.Machine.execAndi rd ra imm s
  | .ori rd ra imm => Sys2Proof.Machine.execOri rd ra imm s
  | .xori rd ra imm => Sys2Proof.Machine.execXori rd ra imm s
  | .shli rd ra sh => Sys2Proof.Machine.execShli rd ra sh s
  | .shri rd ra sh => Sys2Proof.Machine.execShri rd ra sh s
  | .sari rd ra sh => Sys2Proof.Machine.execSari rd ra sh s
  | .muli rd ra imm => Sys2Proof.Machine.execMuli rd ra imm s
  | .li rd imm => Sys2Proof.Machine.execLi rd imm s
  | .lih rd ra imm => Sys2Proof.Machine.execLih rd ra imm s
  | .cmp pd ra rb cc => Sys2Proof.Machine.execCmp pd ra rb cc s
  | .cmpi pd ra cc imm22 => Sys2Proof.Machine.execCmpi pd ra cc imm22 s
  | .pand pd pa pb => Sys2Proof.Machine.execPand pd pa pb s
  | .por pd pa pb => Sys2Proof.Machine.execPor pd pa pb s
  | .pxor pd pa pb => Sys2Proof.Machine.execPxor pd pa pb s
  | .pnot pd pa => Sys2Proof.Machine.execPnot pd pa s
  | .sel rd ra rb pn => Sys2Proof.Machine.execSel rd ra rb pn s
  | .getp rd => Sys2Proof.Machine.execGetp rd s
  | .setp ra mask16 => Sys2Proof.Machine.execSetp ra mask16 s
  | .tstb pd ra bit => Sys2Proof.Machine.execTstb pd ra bit s
  | .br off32 => Sys2Proof.Machine.execBr off32 s
  | .bri ra => Sys2Proof.Machine.execBri ra s
  | .call off32 => Sys2Proof.Machine.execCall off32 s
  | .calli ra => Sys2Proof.Machine.execCalli ra s
  | .ret ra => Sys2Proof.Machine.execRet ra s
  | .loop ra endOff => Sys2Proof.Machine.execLoop ra endOff s
  | .loopi endOff count => Sys2Proof.Machine.execLoopi endOff count s
  | .loopt level endOff => Sys2Proof.Machine.execLoopt level endOff s
  | .lbreak => Sys2Proof.Machine.execLbreak s
  | .halt => Sys2Proof.Machine.execHalt s
  | .brq q off32 => Sys2Proof.Machine.execBrq q off32 s
  | .yield n4 => Sys2Proof.Machine.execYield n4 s
  | .waitt ra => Sys2Proof.Machine.execWaitt ra s
  | .mfsr rd num => Sys2Proof.Machine.execMfsr rd num s
  | .mtsr ra num => Sys2Proof.Machine.execMtsr ra num s
  | .qpush q ra => Sys2Proof.Machine.execQpush q ra s
  | .qpop q rd => Sys2Proof.Machine.execQpop q rd s
  | .qpeek q rd => Sys2Proof.Machine.execQpeek q rd s
  | .qtry q rd pd => Sys2Proof.Machine.execQtry q rd pd s
  | .qpushp q pn => Sys2Proof.Machine.execQpushp q pn s
  | .vqpush q va => Sys2Proof.Machine.execVqpush q va s
  | .vqpop q vd => Sys2Proof.Machine.execVqpop q vd s
  | .qcount q rd => Sys2Proof.Machine.execQcount q rd s
  | .fwait fl => Sys2Proof.Machine.execFwait fl s
  | .fsig fl => Sys2Proof.Machine.execFsig fl s
  | .fread rd fl => Sys2Proof.Machine.execFread rd fl s
  | .ldb rd base mf off => Sys2Proof.Machine.execLdb rd base mf off s
  | .ldbu rd base mf off => Sys2Proof.Machine.execLdbu rd base mf off s
  | .ldh rd base mf off => Sys2Proof.Machine.execLdh rd base mf off s
  | .ldhu rd base mf off => Sys2Proof.Machine.execLdhu rd base mf off s
  | .ldw rd base mf off => Sys2Proof.Machine.execLdw rd base mf off s
  | .ldwu rd base mf off => Sys2Proof.Machine.execLdwu rd base mf off s
  | .ldd rd base mf off => Sys2Proof.Machine.execLdd rd base mf off s
  | .stb rs base mf off => Sys2Proof.Machine.execStb rs base mf off s
  | .sth rs base mf off => Sys2Proof.Machine.execSth rs base mf off s
  | .stw rs base mf off => Sys2Proof.Machine.execStw rs base mf off s
  | .std rs base mf off => Sys2Proof.Machine.execStd rs base mf off s
  | .vld vd base mf off => Sys2Proof.Machine.execVld vd base mf off s
  | .vldn vd base mf size off21 => Sys2Proof.Machine.execVldn vd base mf size off21 s
  | .vst vs base mf off => Sys2Proof.Machine.execVst vs base mf off s
  | .vstn vs base mf size off21 => Sys2Proof.Machine.execVstn vs base mf size off21 s
  | .vlds vd base stride mf => Sys2Proof.Machine.execVlds vd base stride mf s
  | .vsts vs base stride mf => Sys2Proof.Machine.execVsts vs base stride mf s
  | .vgth vd base vi mf => Sys2Proof.Machine.execVgth vd base vi mf s
  | .vsct vs base vi mf => Sys2Proof.Machine.execVsct vs base vi mf s
  | .pref base sc ev off => Sys2Proof.Machine.execPref base sc ev off s
  | .mark => Sys2Proof.Machine.execMark s
  | .fence od sc => Sys2Proof.Machine.execFence od sc s
  | .cwb base sc off => Sys2Proof.Machine.execCwb base sc off s
  | .cinv base sc off => Sys2Proof.Machine.execCinv base sc off s
  | .retain rd ra rb ways => Sys2Proof.Machine.execRetain rd ra rb ways s
  | .unpin ra => Sys2Proof.Machine.execUnpin ra s
  | .smap ra rb rc => Sys2Proof.Machine.execSmap ra rb rc s
  | .sunmap ra => Sys2Proof.Machine.execSunmap ra s
  | .sflush ra => Sys2Proof.Machine.execSflush ra s
  | .aadd rd base rb sc ev wide off18 => Sys2Proof.Machine.execAadd rd base rb sc ev wide off18 s
  | .aand rd base rb sc ev wide off18 => Sys2Proof.Machine.execAand rd base rb sc ev wide off18 s
  | .aor rd base rb sc ev wide off18 => Sys2Proof.Machine.execAor rd base rb sc ev wide off18 s
  | .axor rd base rb sc ev wide off18 => Sys2Proof.Machine.execAxor rd base rb sc ev wide off18 s
  | .amin rd base rb sc ev wide off18 => Sys2Proof.Machine.execAmin rd base rb sc ev wide off18 s
  | .amax rd base rb sc ev wide off18 => Sys2Proof.Machine.execAmax rd base rb sc ev wide off18 s
  | .aminu rd base rb sc ev wide off18 => Sys2Proof.Machine.execAminu rd base rb sc ev wide off18 s
  | .amaxu rd base rb sc ev wide off18 => Sys2Proof.Machine.execAmaxu rd base rb sc ev wide off18 s
  | .aswp rd base rb sc ev wide off18 => Sys2Proof.Machine.execAswp rd base rb sc ev wide off18 s
  | .acas rd base rb rc sc ev wide off18 => Sys2Proof.Machine.execAcas rd base rb rc sc ev wide off18 s
  | .radd base rb sc ev wide off18 => Sys2Proof.Machine.execRadd base rb sc ev wide off18 s
  | .rfadd base rb sc ev off18 => Sys2Proof.Machine.execRfadd base rb sc ev off18 s
  | .rmin base rb sc ev wide off18 => Sys2Proof.Machine.execRmin base rb sc ev wide off18 s
  | .rmax base rb sc ev wide off18 => Sys2Proof.Machine.execRmax base rb sc ev wide off18 s
  | .rofadd base rb rc sc ev off18 => Sys2Proof.Machine.execRofadd base rb rc sc ev off18 s
  | .vredm vs base vi sc ev => Sys2Proof.Machine.execVredm vs base vi sc ev s
  | .mwait rd base rb sc ev wide off18 => Sys2Proof.Machine.execMwait rd base rb sc ev wide off18 s
  | .barinit base rb sc ev off18 => Sys2Proof.Machine.execBarinit base rb sc ev off18 s
  | .barrive rd base rb sc ev off18 => Sys2Proof.Machine.execBarrive rd base rb sc ev off18 s
  | .barwait base rb sc ev off18 => Sys2Proof.Machine.execBarwait base rb sc ev off18 s
  | .setst ra off64 st => Sys2Proof.Machine.execSetst ra off64 st s
  | .getst rd k3 st => Sys2Proof.Machine.execGetst rd k3 st s
  | .wfill n13 st => Sys2Proof.Machine.execWfill n13 st s
  | .wfree n13 st => Sys2Proof.Machine.execWfree n13 st s
  | .claim rd n13 st => Sys2Proof.Machine.execClaim rd n13 st s
  | .publ n13 st => Sys2Proof.Machine.execPubl n13 st s
  | .popt n13 st => Sys2Proof.Machine.execPopt n13 st s
  | .raddr rd ra st => Sys2Proof.Machine.execRaddr rd ra st s
  | .rstat rd k3 st => Sys2Proof.Machine.execRstat rd k3 st s
  | .enq rd eng rs => Sys2Proof.Machine.execEnq rd eng rs s
  | .mma rd eo stA stB acc z popA popB => Sys2Proof.Machine.execMma rd eo stA stB acc z popA popB s
  | .mret rd eo stD stO acc oe => Sys2Proof.Machine.execMret rd eo stD stO acc oe s
  | .mzero rd eo acc => Sys2Proof.Machine.execMzero rd eo acc s
  | .cpin rd eo stS stC ce n1 => Sys2Proof.Machine.execCpin rd eo stS stC ce n1 s
  | .cpout rd eo stS stC ce n1 => Sys2Proof.Machine.execCpout rd eo stS stC ce n1 s
  | .cpred rd eo stS stC ce n1 rop => Sys2Proof.Machine.execCpred rd eo stS stC ce n1 rop s
  | .cpstr rd eo stS stC ce n1 => Sys2Proof.Machine.execCpstr rd eo stS stC ce n1 s
  | .gath rd eo stS stD stO stC ce => Sys2Proof.Machine.execGath rd eo stS stD stO stC ce s
  | .topk rd eo stI stO k1 pairs pop => Sys2Proof.Machine.execTopk rd eo stI stO k1 pairs pop s
  | .notify rd eng eo mask5 ev3 => Sys2Proof.Machine.execNotify rd eng eo mask5 ev3 s
  | .gfence mask5 => Sys2Proof.Machine.execGfence mask5 s
  | .waitev ev3 => Sys2Proof.Machine.execWaitev ev3 s
  | .ewait eng rs => Sys2Proof.Machine.execEwait eng rs s
  | .eseq rd eng sel2 => Sys2Proof.Machine.execEseq rd eng sel2 s
  | .bstat rd eng rs => Sys2Proof.Machine.execBstat rd eng rs s
  | .bpref mask5 mode => Sys2Proof.Machine.execBpref mask5 mode s
  | .launch rd ra => Sys2Proof.Machine.execLaunch rd ra s
  | .trigger => Sys2Proof.Machine.execTrigger s
  | .depwait => Sys2Proof.Machine.execDepwait s
  | .dqpush ra => Sys2Proof.Machine.execDqpush ra s
  | .dqpop rd pn => Sys2Proof.Machine.execDqpop rd pn s
  | .dqsteal rd ra pn => Sys2Proof.Machine.execDqsteal rd ra pn s
  | .dqstealRing rd pn => Sys2Proof.Machine.execDqstealRing rd pn s
  | .vadd vd va vb mk ty rm => Sys2Proof.Machine.execVadd vd va vb mk ty rm s
  | .vsub vd va vb mk ty rm => Sys2Proof.Machine.execVsub vd va vb mk ty rm s
  | .vmul vd va vb mk ty rm => Sys2Proof.Machine.execVmul vd va vb mk ty rm s
  | .vfma vd va vb vc mk => Sys2Proof.Machine.execVfma vd va vb vc mk s
  | .vfmah vd va vb vc mk => Sys2Proof.Machine.execVfmah vd va vb vc mk s
  | .vfmab vd va vb vc mk => Sys2Proof.Machine.execVfmab vd va vb vc mk s
  | .vmin vd va vb mk ty rm => Sys2Proof.Machine.execVmin vd va vb mk ty rm s
  | .vmax vd va vb mk ty rm => Sys2Proof.Machine.execVmax vd va vb mk ty rm s
  | .vabs vd va mk ty rm => Sys2Proof.Machine.execVabs vd va mk ty rm s
  | .vneg vd va mk ty rm => Sys2Proof.Machine.execVneg vd va mk ty rm s
  | .vand vd va vb mk => Sys2Proof.Machine.execVand vd va vb mk s
  | .vor vd va vb mk => Sys2Proof.Machine.execVor vd va vb mk s
  | .vxor vd va vb mk => Sys2Proof.Machine.execVxor vd va vb mk s
  | .vshl vd va vb mk ty imm1 amt => Sys2Proof.Machine.execVshl vd va vb mk ty imm1 amt s
  | .vshr vd va vb mk ty imm1 amt => Sys2Proof.Machine.execVshr vd va vb mk ty imm1 amt s
  | .vsar vd va vb mk ty imm1 amt => Sys2Proof.Machine.execVsar vd va vb mk ty imm1 amt s
  | .vcmp md va vb mk ty cc => Sys2Proof.Machine.execVcmp md va vb mk ty cc s
  | .vsel vd va vb mk => Sys2Proof.Machine.execVsel vd va vb mk s
  | .vmov vd va mk => Sys2Proof.Machine.execVmov vd va mk s
  | .vbcast vd ra mk ty => Sys2Proof.Machine.execVbcast vd ra mk ty s
  | .vext va rd ty j => Sys2Proof.Machine.execVext va rd ty j s
  | .vins vd ra ty j => Sys2Proof.Machine.execVins vd ra ty j s
  | .vperm vd va vb mk => Sys2Proof.Machine.execVperm vd va vb mk s
  | .vrot vd va mk n6 => Sys2Proof.Machine.execVrot vd va mk n6 s
  | .viota vd mk ty => Sys2Proof.Machine.execViota vd mk ty s
  | .vrsum vd va mk ty rm => Sys2Proof.Machine.execVrsum vd va mk ty rm s
  | .vrmax vd va mk ty rm => Sys2Proof.Machine.execVrmax vd va mk ty rm s
  | .vrmin vd va mk ty rm => Sys2Proof.Machine.execVrmin vd va mk ty rm s
  | .vscan vd va mk ty rm => Sys2Proof.Machine.execVscan vd va mk ty rm s
  | .vdiv vd va vb mk ty rm => Sys2Proof.Machine.execVdiv vd va vb mk ty rm s
  | .vsqrt vd va mk ty rm => Sys2Proof.Machine.execVsqrt vd va mk ty rm s
  | .vrcp vd va mk ty rm => Sys2Proof.Machine.execVrcp vd va mk ty rm s
  | .vrsqrt vd va mk ty rm => Sys2Proof.Machine.execVrsqrt vd va mk ty rm s
  | .vexp2 vd va mk ty rm => Sys2Proof.Machine.execVexp2 vd va mk ty rm s
  | .vlog2 vd va mk ty rm => Sys2Proof.Machine.execVlog2 vd va mk ty rm s
  | .vtanh vd va mk ty rm => Sys2Proof.Machine.execVtanh vd va mk ty rm s
  | .vrnd vd va mk ty rm => Sys2Proof.Machine.execVrnd vd va mk ty rm s
  | .mand md ma mb => Sys2Proof.Machine.execMand md ma mb s
  | .mor md ma mb => Sys2Proof.Machine.execMor md ma mb s
  | .mnot md ma => Sys2Proof.Machine.execMnot md ma s
  | .mpop rd mk first => Sys2Proof.Machine.execMpop rd mk first s
  | .vadds vd va ra mk ty => Sys2Proof.Machine.execVadds vd va ra mk ty s
  | .vmuls vd va ra mk ty => Sys2Proof.Machine.execVmuls vd va ra mk ty s
  | .vcvt vd va mk ty rm src => Sys2Proof.Machine.execVcvt vd va mk ty rm src s
  | .vpack vd va vb mk ty rm src => Sys2Proof.Machine.execVpack vd va vb mk ty rm src s
  | .vunpk vd va mk ty rm h src => Sys2Proof.Machine.execVunpk vd va mk ty rm h src s
  | .vzenc vd va mk ty p2 => Sys2Proof.Machine.execVzenc vd va mk ty p2 s
  | .vzdec vd va mk ty rm k6 => Sys2Proof.Machine.execVzdec vd va mk ty rm k6 s
  | .vzmac vd va vb mk => Sys2Proof.Machine.execVzmac vd va vb mk s
  | .vzmul vd va vb mk => Sys2Proof.Machine.execVzmul vd va vb mk s
  | .vzadd vd va vb mk => Sys2Proof.Machine.execVzadd vd va vb mk s
  | .vscale vd va vb mk ty rm => Sys2Proof.Machine.execVscale vd va vb mk ty rm s
  | .vquant vd va vb mk rm rn4 p3 => Sys2Proof.Machine.execVquant vd va vb mk rm rn4 p3 s
  | .vochk md va vb mk rn4 => Sys2Proof.Machine.execVochk md va vb mk rn4 s
  | .vcomp vd va mk => Sys2Proof.Machine.execVcomp vd va mk s
  | .mop n vd va vb mk ra imm6 => Sys2Proof.Machine.execMop n vd va vb mk ra imm6 s
  | .csload ra slot => Sys2Proof.Machine.execCsload ra slot s
  | .csunbind slot => Sys2Proof.Machine.execCsunbind slot s
  | .trap n16 => Sys2Proof.Machine.execTrap n16 s
  | .eret => Sys2Proof.Machine.execEret s
  | .bkpt n16 => Sys2Proof.Machine.execBkpt n16 s
  | .rdcyc rd => Sys2Proof.Machine.execRdcyc rd s
  | .rdtime rd => Sys2Proof.Machine.execRdtime rd s
  | .tlbinv ra rb kind => Sys2Proof.Machine.execTlbinv ra rb kind s
  | .dharv rd ra => Sys2Proof.Machine.execDharv rd ra s
  | .ctxsave rd ra rb rc smode => Sys2Proof.Machine.execCtxsave rd ra rb rc smode s
  | .ctxload rd ra => Sys2Proof.Machine.execCtxload rd ra s
  | .yieldPauseEnd core cl => Sys2Proof.Machine.execYieldPauseEnd core cl s
  | .loadCompletion core cl => Sys2Proof.Machine.execLoadCompletion core cl s
  | .rofaddArrival place => Sys2Proof.Machine.execRofaddArrival place s
  | .rofaddResend place => Sys2Proof.Machine.execRofaddResend place s
  | .orderedGapTimeout pair => Sys2Proof.Machine.execOrderedGapTimeout pair s
  | .monitorFire core cl => Sys2Proof.Machine.execMonitorFire core cl s
  | .mmaCommand core => Sys2Proof.Machine.execMmaCommand core s
  | .mretCommand core => Sys2Proof.Machine.execMretCommand core s
  | .mzeroCommand core => Sys2Proof.Machine.execMzeroCommand core s
  | .cpinCommand core => Sys2Proof.Machine.execCpinCommand core s
  | .cpstrCommand core => Sys2Proof.Machine.execCpstrCommand core s
  | .cpoutCommand core => Sys2Proof.Machine.execCpoutCommand core s
  | .cpredCommand core => Sys2Proof.Machine.execCpredCommand core s
  | .gathCommand core => Sys2Proof.Machine.execGathCommand core s
  | .topkCommand core => Sys2Proof.Machine.execTopkCommand core s
  | .gfenceCommand core eng => Sys2Proof.Machine.execGfenceCommand core eng s
  | .notifyCommand core eng => Sys2Proof.Machine.execNotifyCommand core eng s
  | .commandRetirement core eng => Sys2Proof.Machine.execCommandRetirement core eng s
  | .leaseRearbitration quad => Sys2Proof.Machine.execLeaseRearbitration quad s
  | .rendezvous core => Sys2Proof.Machine.execRendezvous core s
  | .blockedWaitResume core cl => Sys2Proof.Machine.execBlockedWaitResume core cl s
  | .stallWatchdog core => Sys2Proof.Machine.execStallWatchdog core s
  | .frameTaken core => Sys2Proof.Machine.execFrameTaken core s
  | .doubleFaultRestart core => Sys2Proof.Machine.execDoubleFaultRestart core s
  | .correctedError site => Sys2Proof.Machine.execCorrectedError site s
  | .selfTestComplete site result => Sys2Proof.Machine.execSelfTestComplete site result s
  | .uncorrectableError site => Sys2Proof.Machine.execUncorrectableError site s
  | .eventRecordWrite place => Sys2Proof.Machine.execEventRecordWrite place s
  | .fenceModeBoundary core => Sys2Proof.Machine.execFenceModeBoundary core s
  | .fenceModeTimeout core => Sys2Proof.Machine.execFenceModeTimeout core s
  | .imageSaveComplete core => Sys2Proof.Machine.execImageSaveComplete core s
  | .immediateSave polder by_ => Sys2Proof.Machine.execImmediateSave polder by_ s
  | .fenceSave polder by_ => Sys2Proof.Machine.execFenceSave polder by_ s
  | .resume polder by_ => Sys2Proof.Machine.execResume polder by_ s
  | .kill polder by_ => Sys2Proof.Machine.execKill polder by_ s
  | .contextRemoval core why => Sys2Proof.Machine.execContextRemoval core why s
  | .lqctlWrite vf value => Sys2Proof.Machine.execLqctlWrite vf value s
  | .doorbell vf value => Sys2Proof.Machine.execDoorbell vf value s
  | .launcherRecordRead polder => Sys2Proof.Machine.execLauncherRecordRead polder s
  | .iterationStart core => Sys2Proof.Machine.execIterationStart core s
  | .iterationEnd core => Sys2Proof.Machine.execIterationEnd core s
  | .pureLookup uid => Sys2Proof.Machine.execPureLookup uid s
  | .hitCopyComplete uid => Sys2Proof.Machine.execHitCopyComplete uid s
  | .basinInsertion uid => Sys2Proof.Machine.execBasinInsertion uid s
  | .keyInstall polder by_ value => Sys2Proof.Machine.execKeyInstall polder by_ value s
  | .basinClear polder by_ => Sys2Proof.Machine.execBasinClear polder by_ s
  | .basinEnable polder by_ enable => Sys2Proof.Machine.execBasinEnable polder by_ enable s
  | .codeRemapWrite polder by_ off value => Sys2Proof.Machine.execCodeRemapWrite polder by_ off value s
  | .functionLevelReset polder => Sys2Proof.Machine.execFunctionLevelReset polder s
  | .flrDrainTimeout polder => Sys2Proof.Machine.execFlrDrainTimeout polder s
  | .flrComplete polder => Sys2Proof.Machine.execFlrComplete polder s
  | .hostBar2Access vf off bytes write => Sys2Proof.Machine.execHostBar2Access vf off bytes write s
  | .hostFetchadd vf off wide value => Sys2Proof.Machine.execHostFetchadd vf off wide value s
  | .hostSwap vf off wide value => Sys2Proof.Machine.execHostSwap vf off wide value s
  | .hostCas vf off wide compare value => Sys2Proof.Machine.execHostCas vf off wide compare value s
  | .evctlWrite vf value => Sys2Proof.Machine.execEvctlWrite vf value s
  | .peerRequest request => Sys2Proof.Machine.execPeerRequest request s
  | .peerResponse place answer => Sys2Proof.Machine.execPeerResponse place answer s
  | .peerTimeout place => Sys2Proof.Machine.execPeerTimeout place s
  | .flitReplay port => Sys2Proof.Machine.execFlitReplay port s
  | .tokenRefill => Sys2Proof.Machine.execTokenRefill s
  | .powerOn => Sys2Proof.Machine.execPowerOn s
  | .deviceReset => Sys2Proof.Machine.execDeviceReset s
  | .firmwareFetchRetry result => Sys2Proof.Machine.execFirmwareFetchRetry result s
  | .clockThrottle => Sys2Proof.Machine.execClockThrottle s
  | .clockRestore => Sys2Proof.Machine.execClockRestore s
  | .syncMessage offset tai => Sys2Proof.Machine.execSyncMessage offset tai s
  | .timeLockLoss => Sys2Proof.Machine.execTimeLockLoss s
  | .attestationRequest => Sys2Proof.Machine.execAttestationRequest s
  | .attestationReportWritten => Sys2Proof.Machine.execAttestationReportWritten s
  | .registerWrite by_ block off value => Sys2Proof.Machine.execRegisterWrite by_ block off value s
  | .eviction core line => Sys2Proof.Machine.execEviction core line s
  | .imageLoadComplete core => Sys2Proof.Machine.execImageLoadComplete core s
  | .junctionTemperatureMachineCheck => Sys2Proof.Machine.execJunctionTemperatureMachineCheck s
  | .bootComplete config => Sys2Proof.Machine.execBootComplete config s
  | .pcoreWrite polder by_ k value => Sys2Proof.Machine.execPcoreWrite polder by_ k value s

end Sys2Proof.Machine
end

