-- ==== Sys2Proof/Machine/Issue.lean ====
section
/-!
DEFINITION. One cluster issues one syllable: fetch, the checks before and at decode, the interlock, the guard, the
instruction's own meaning, and the traps after its bundle.
-/

namespace Sys2Proof.Machine

/-- A cluster may issue (R211, R316, R320): it runs, and its core runs its context, in the handler only S. While clusters of
the core have still to execute a synced bundle that has been met, no other issues (R213). -/
def State.canIssue (s : State) (c : CoreId) (x : Cluster) : Bool :=
  let k := s.core c
  (k.cl x).status == .running && !s.dev.stopped && s.mayRun c && k.phase == .running &&
    if k.inHandler then x == .S else (k.cl x).released || !clusterOrder.any fun y => (k.cl y).owes

/-- The instruction makes an access of its cluster, or issues an engine command, which counts as a store (R183). -/
def makesAccess (i : Instr) : Bool :=
  match i with
  | .ldb .. | .ldbu .. | .ldh .. | .ldhu .. | .ldw .. | .ldwu .. | .ldd .. | .stb .. | .sth .. | .stw .. | .std .. => true
  | .vld .. | .vldn .. | .vst .. | .vstn .. | .vlds .. | .vsts .. | .vgth .. | .vsct .. => true
  | .cwb .. | .cinv .. | .sunmap .. | .sflush .. | .setst .. | .csload .. | .mop .. => true
  | .aadd .. | .aand .. | .aor .. | .axor .. | .amin .. | .amax .. | .aminu .. | .amaxu .. | .aswp .. | .acas .. => true
  | .radd .. | .rfadd .. | .rmin .. | .rmax .. | .rofadd .. | .vredm .. => true
  | .mwait .. | .barinit .. | .barrive .. | .barwait .. | .dharv .. => true
  | .enq .. | .mma .. | .mret .. | .mzero .. | .cpin .. | .cpout .. | .cpred .. | .cpstr .. | .gath .. | .topk .. => true
  | .notify .. | .gfence .. => true
  | _ => false

/-- In revision 1 an access waits until the cluster's earlier reductions have been applied (R200). -/
def State.marked (s : State) (i : Instr) : Bool := s.here.revisionOne && makesAccess i && s.reductionsOut

/-- The syllable executes when its guard is true, and otherwise only its bundle completes (R15). -/
def State.runGuarded (s : State) (h : Header) (i : Instr) : Res :=
  if !s.me.guard h.pred h.neg then .next s.complete
  else if s.marked i then .next (s.block .reductions)
  else exec i s

/-- The executing cluster's own syllable: the checks at decode, the interlock, the guard and its meaning (R27, R98). -/
def State.runSyllable (s : State) : Res :=
  match decode s.actor.cl s.here.isUser s.actor.syl with
  | .error f => s.faultHere (decodeCause f) 0
  | .ok (h, i) =>
    if s.me.loops.any (·.last = s.me.pc) && badLoopEnd i then s.faultHere .loopStructure s.me.pc
    else if s.me.interlocked i then .next (s.block .load)
    else s.runGuarded h i

/-! ### A synced bundle that has been met (R213) -/

/-- The wait in which the syllable just executed has blocked its cluster. -/
def State.stalledIn (s : State) : Option Wait :=
  match s.actor.done, s.me.status with
  | false, .waiting .stood => none
  | false, .waiting w => some w
  | _, _ => none

/-- The clusters of a core that have still to execute a synced bundle that has been met, in slot order. -/
def Core.owing (k : Core) : List Cluster := clusterOrder.filter fun y => (k.cl y).owes

/-- A cluster executes its own syllable of a bundle, in the cycle in which its mates execute theirs. -/
def State.asMate (s : State) (b : BitVec 256) (y : Cluster) (late : Bool) : State :=
  { s with actor := ⟨s.actor.core, y, slotOf b y, false, late⟩, free := s.free + 1 }

/-- The clusters execute their syllables of a bundle, one after another: which of them are blocked in it, and the machine
after the others have executed theirs. -/
def State.runMates (b : BitVec 256) (late : Cluster → Bool) : List Cluster → State → List (Cluster × Wait) × Res
  | [], s => ([], .next s)
  | y :: ys, s =>
    let s0 := s.asMate b y (late y)
    match s0.runSyllable with
    | .next t =>
      match t.stalledIn with
      | some w => let r := State.runMates b late ys s; ((y, w) :: r.1, r.2)
      | none =>
        match t.afterBundle s0.here with
        | .next u => State.runMates b late ys u
        | q => ((State.runMates b late ys s).1, q)
    | q => ((State.runMates b late ys s).1, q)

/-- The flag for which a cluster's syllable of a bundle begins to wait (R226). -/
def State.fwaitOf (s : State) (b : BitVec 256) (y : Cluster) : Option FlagReg :=
  let s0 := s.asMate b y false
  match decode y s.here.isUser (slotOf b y) with
  | .ok (h, .fwait f) => if !s0.me.interlocked (.fwait f) && s0.me.guard h.pred h.neg then some f else none
  | _ => none

/-- The FWAITs of a synced bundle begin to wait in one cycle: they are served in the order of the slots (R225). -/
def State.beginFwaits (s : State) (b : BitVec 256) : State :=
  s.here.owing.foldl (fun st y =>
    match s.fwaitOf b y with
    | none => st
    | some f =>
      let x := st.here.flag f
      if x.waiters.contains (.cluster y) then st
      else st.setHere (st.here.setFlag f { x with waiters := x.waiters ++ [.cluster y] })) s

/-- The clusters that are blocked in a synced bundle wait, and hold all four (R213). -/
def State.holdMates (s : State) (b : BitVec 256) (l : List (Cluster × Wait)) : State :=
  l.foldl (fun st y =>
    let stay := st.setCl st.actor.core y.1 { st.cl st.actor.core y.1 with status := .waiting y.2 }
    match (st.asMate b y.1 false).runSyllable with
    | .next t => if t.stalledIn.isSome then t else stay
    | _ => stay) s

/-- A list in the order that a number names, of all its orders. -/
def shuffle {α : Type} : Nat → List α → List α
  | _, [] => []
  | n, a :: as =>
    let r := shuffle (n / (as.length + 1)) as
    r.take (n % (as.length + 1)) ++ a :: r.drop (n % (as.length + 1))

/-- The clusters execute the synced bundle that all have met, each its own syllable, in one cycle: one that is blocked holds
the others (R213). No rule orders the syllables of one bundle: with `late`, their order, and what of each may come later, are
a free choice (assumption entry 7). -/
def State.runMet (s : State) (b : BitVec 256) : Res :=
  let l := s.here.owing
  if l.any fun y => (s.here.cl y).status != .running then .next s
  else
    let n := Config.mates s.free
    let late (y : Cluster) : Bool := s.actor.late && (n / 24).testBit y.code
    let s1 := if s.actor.late then s.beginFwaits b else s
    match s1.runMates b late (if s.actor.late then shuffle (n % 24) l else l) with
    | ([], r) => r
    | (held, _) => .next ((s.beginFwaits b).holdMates b held)

/-- A syllable that has been fetched (R12, R213, R327). The syllables of a synced bundle execute together (R213). -/
def State.runBundle (s : State) (b : BitVec 256) : Res :=
  let k := s.here
  if k.breaks s.actor.cl then s.faultHere .breakpoint s.me.pc
  else if !syncAgrees b then s.faultHere .bundleSyncMismatch s.me.pc
  else if isSynced b && !s.me.released && s.me.useq.isNone then
    if s.me.pending.isEmpty then s.arrive else .next (s.block .load)
  else if isSynced b && s.me.owes && !k.inHandler then s.runMet b
  else match s.runSyllable with
    | .next t => t.afterBundle k
    | q => q

/-- The next micro-op of a sequence in progress issues: no other syllable does, and nothing is fetched (R35, R385). -/
def State.issueMicro (s : State) : Res :=
  match s.runSyllable with
  | .next t => t.afterBundle s.here
  | q => q

/-- A cluster issues the syllable at its program counter. With `late`, what may be performed or written later is (R183,
R217; assumption entry 3). -/
def State.issue (s : State) (c : CoreId) (x : Cluster) (late : Bool) : Res :=
  if !s.canIssue c x then .next s
  else
    let s0 := { s with actor := ⟨c, x, 0, false, late⟩ }
    match s0.me.useq.bind (·.syl) with
    | some w => State.issueMicro { s0 with actor := ⟨c, x, w, false, late⟩ }
    | none =>
    match s0.fetch c x s0.me.pc with
    | .err e => s0.accessErr e
    | .wait w => .next (s0.block w)
    | .peer a =>
      let pc := s0.me.pc
      let got := (vaBytes pc 32).map fun v => sget none s0.me.fetched v.toNat
      match s0.me.failed.find? fun f => decide ((f.1 - pc).toNat < 32) with
      | some f => s0.clearSent.faultHere f.2 pc
      | none =>
        if got.all (·.isSome) then
          let b : BitVec 256 := BitVec.ofNat 256 (leNat (got.map (·.getD 0)))
          State.runBundle { s0 with actor := ⟨c, x, slotOf b x, false, late⟩ } b
        else if s0.fetching then .next (s0.block .answer)
        else
          let ask : PeerWait := ⟨s0.free, .fetch c x, a, pc, 32, [], 0⟩
          .next (State.block { s0 with peers := s0.peers ++ [ask] } .answer)
    | .bundle s1 b => State.runBundle { s1 with actor := ⟨c, x, slotOf b x, false, late⟩ } b

end Sys2Proof.Machine
end

