-- ==== Sys2Proof/Machine/Agenda.lean ====
section
/-!
DEFINITION. What happens next: time passes, and the agenda or a free choice names the next action (R3, R4).
-/

namespace Sys2Proof.Machine

/-! ### Time -/

/-- Cycles pass on a core (R215, R326, R335): %cycle counts while its context is resident, not stopped and not in its
handler; the watchdog counts while the core is stalled; a fence save's time-out runs down. -/
def Core.elapse (k : Core) (n : Nat) : Core :=
  let counts := k.phase = .running ∧ k.inHandler = false
  { k with
    trap := { k.trap with
      cycle := if counts then k.trap.cycle + BitVec.ofNat 64 n else k.trap.cycle
      watchdog := if k.stalled then k.trap.watchdog + n else 0 }
    xfer := k.xfer.map fun x => { x with timeout := x.timeout - n } }

/-- The units of a polder that come to a controller as time passes: a free number of those that accesses have touched (R359;
assumption entry 18). -/
def State.comes (s : State) (n c : Nat) : Nat := min (Config.traffic s.free n c) (sget 0 s.touched (8 * n + c))

/-- The units that have been touched and have not come to their controllers. -/
def State.stillTouched (s : State) : Sparse Nat :=
  s.touched.filterMap fun e => match e.2 - s.comes (e.1 / 8) (e.1 % 8) with
    | 0 => none
    | n + 1 => some (e.1, n + 1)

/-- Time passes in a polder: in its reset (R360), and at the memory controllers, where units arrive (R359). -/
def Polder.elapse (p : Polder) (ns : Nat) (arrive : Nat → Nat) : Polder :=
  { p with part := (({ p.part with flrTime := if p.part.flrGo then p.part.flrTime + ns else p.part.flrTime } : PolderRegs).serve
      arrive fun c => tget 0 p.part.tokens c) }

/-- The gap timers of the pairs that have buffered entries run (R176). -/
def State.gapsAfter (s : State) (ns : Nat) : Sparse Nat :=
  (s.rofHeld.map (·.pair)).dedup.foldl (fun m p => sset 0 m p (sget 0 s.gaps p + ns)) []

/-- %time after some nanoseconds: it never decreases, and once it has been locked it is slewed by at most 200 parts per
million (R394; assumption entry 5). -/
def Device.timeAfter (d : Device) (ns slew : Nat) : Word :=
  let most := ns / 5000
  let n := if d.locked1 then ns - most + slew % (2 * most + 1) else ns
  BitVec.ofNat 64 (min (2 ^ 64 - 1) (d.time.toNat + n))

/-- A step takes free amounts of time: %time, every running %cycle and every timer advance (R326, R394; assumption entry
5). -/
def State.elapse (s : State) : State :=
  let ns := Config.elapsedNs s.free
  { s with
    cores := tmap (fun k : Core => k.elapse (Config.elapsedCycles s.free)) s.cores
    polders := ⟨⟨(List.range 64).map fun n => (s.polder n).elapse ns (s.comes n)⟩, by simp⟩
    touched := s.stillTouched
    dev := { s.dev with
      time := s.dev.timeAfter ns (Config.slew s.free)
      sinceSync := s.dev.sinceSync + ns
      withinNs := if overLimits (s.free + 1) then 0 else s.dev.withinNs + ns }
    peers := s.peers.map fun w => { w with age := w.age + ns }
    gaps := s.gapsAfter ns
    free := s.free + 1 }

/-! ### What the machine's own parts may do next -/

/-- A move of one of the machine's own parts. -/
inductive Move where
  | issue (c : CoreId) (x : Cluster)
  | issueLate (c : CoreId) (x : Cluster)
  /-- piece `j` of load `i` is performed (R183) -/
  | read (c : CoreId) (x : Cluster) (i j : Nat)
  /-- a held write is performed with respect to the core (R184) -/
  | perform (c : CoreId) (x : Cluster) (i : Nat)
  /-- a piece that the core's agents see is performed with respect to the others (R184) -/
  | land (c : CoreId) (i : Nat)
  | load (c : CoreId) (x : Cluster)
  | resume (c : CoreId) (x : Cluster)
  | pauseEnd (c : CoreId) (x : Cluster)
  | monitor (c : CoreId) (x : Cluster)
  | rendezvous (c : CoreId)
  | frame (c : CoreId)
  | watchdog (c : CoreId)
  | boundary (c : CoreId)
  | fenceEnd (c : CoreId)
  | saved (c : CoreId)
  | loaded (c : CoreId)
  | start (c : CoreId) (e : Engine) (kind : Nat)
  | retire (c : CoreId) (e : Engine)
  /-- a sector of the tiles of a CPIN or CPSTR is read, what a GATH reads next, or a sector of a command's slots (R195) -/
  | sample (c : CoreId) (i : Nat)
  | gathSample (c : CoreId)
  | slotSample (c : CoreId) (e : Engine) (i : Nat)
  /-- a command computes what it writes next, and a piece of that is written (R195) -/
  | openNext (c : CoreId) (e : Engine)
  | landPiece (c : CoreId) (e : Engine) (i : Nat)
  | iterEnd (c : CoreId)
  | iterStart (c : CoreId)
  | remove (c : CoreId) (why : RemovalCause)
  | evict (c : CoreId) (line : Nat)
  /-- an L2 copy of host memory leaves its slice (R169, R197) -/
  | evictL2 (line : Nat)
  /-- a poisoned L2 copy of device memory leaves its slice (R330) -/
  | evictL2Poison (sector : Nat)
  /-- an entry of a core's TLB, of a die's, or of a die's walk caches is no longer held (R357) -/
  | dropTlb (c : CoreId) (i : Nat)
  | dropDieTlb (d i : Nat)
  | dropWalk (d i : Nat)
  | record (n : Nat)
  | continueOp (n : Nat)
  | drainEnd (n : Nat)
  | resetEnd (n : Nat)
  | lookup (uid : Nat)
  | hitCopy (uid : Nat)
  | insertion (uid : Nat)
  | arrive (place : Nat)
  | resend (place : Nat)
  | gap (pair : Nat)
  | event (place : Nat)
  | peerLate (place : Nat)
  | hostRead (r : HostRead)
  | report
  deriving DecidableEq, Repr

/-- The start of a command by its engine and the kind of the command. -/
def State.startMove (s : State) (c : CoreId) (e : Engine) (kind : Nat) : Res :=
  match e, kind with
  | .mtx, 0 => execMmaCommand c.val s
  | .mtx, 1 => execMretCommand c.val s
  | .mtx, 2 => execMzeroCommand c.val s
  | .cin, 0 => execCpinCommand c.val s
  | .cin, 1 => execCpstrCommand c.val s
  | .cout, 0 => execCpoutCommand c.val s
  | .cout, 1 => execCpredCommand c.val s
  | .gth, 0 => execGathCommand c.val s
  | .topk, 0 => execTopkCommand c.val s
  | _, 3 => execGfenceCommand c.val e s
  | _, 4 => execNotifyCommand c.val e s
  | _, _ => .next s

/-- The sectors that the oldest CPIN or CPSTR of a core has not read, each with its bytes. -/
def Core.samples (k : Core) : List (Cmd × List Word) :=
  match k.headRun .cin [1, 2] with
  | none => []
  | some (x, w, st) => (k.unsampled x w st).map fun r => (x, r)

/-- A sector of the tiles of a CPIN or CPSTR is read before the command writes it (R195). -/
def State.sampleAt (s : State) (c : CoreId) (i : Nat) : State :=
  match (s.core c).samples[i]? with
  | none => s
  | some (x, l) => s.sample c .cin x l

/-- An entry leaves a core's TLB (R357). -/
def State.dropTlb (s : State) (c : CoreId) (i : Nat) : State :=
  let k := s.core c
  s.setCore c { k with loc := { k.loc with tlb := k.loc.tlb.eraseIdx i } }

/-- A die replaced by its number. -/
def State.mapDie (s : State) (d : Nat) (f : Die → Die) : State :=
  { s with dies := tset s.dies d (f (tget Die.reset s.dies d)) }

/-- A move takes place. -/
def State.move (s : State) : Move → Res
  | .issue c x => s.issue c x false
  | .issueLate c x => s.issue c x true
  | .read c x i j => .next (s.readAt c x i j)
  | .perform c x i => .next (s.performAt c x i)
  | .land c i => .next (s.landAt c i)
  | .load c x => execLoadCompletion c.val x s
  | .resume c x => execBlockedWaitResume c.val x s
  | .pauseEnd c x => execYieldPauseEnd c.val x s
  | .monitor c x => execMonitorFire c.val x s
  | .rendezvous c => execRendezvous c.val s
  | .frame c => execFrameTaken c.val s
  | .watchdog c => execStallWatchdog c.val s
  | .boundary c => execFenceModeBoundary c.val s
  | .fenceEnd c => execFenceModeTimeout c.val s
  | .saved c => execImageSaveComplete c.val s
  | .loaded c => execImageLoadComplete c.val s
  | .start c e kind => s.startMove c e kind
  | .retire c e => execCommandRetirement c.val e s
  | .sample c i => .next (s.sampleAt c i)
  | .gathSample c => .next (s.gathSample c)
  | .slotSample c e i => .next (s.slotSample c e i)
  | .openNext c e => .next (s.openNext c e)
  | .landPiece c e i => .next (s.landPiece c e i)
  | .iterEnd c => execIterationEnd c.val s
  | .iterStart c => execIterationStart c.val s
  | .remove c why => execContextRemoval c.val why s
  | .evict c line => execEviction c.val line s
  | .evictL2 line => .next (s.evictL2 line)
  | .evictL2Poison sector => .next (s.evictL2Poison sector)
  | .dropTlb c i => .next (s.dropTlb c i)
  | .dropDieTlb d i => .next (s.mapDie d fun x => { x with tlb := x.tlb.eraseIdx i })
  | .dropWalk d i => .next (s.mapDie d fun x => { x with walks := x.walks.eraseIdx i })
  | .record n => execLauncherRecordRead n s
  | .continueOp n => execResume n .management s
  | .drainEnd n => execFlrDrainTimeout n s
  | .resetEnd n => execFlrComplete n s
  | .lookup uid => execPureLookup uid s
  | .hitCopy uid => execHitCopyComplete uid s
  | .insertion uid => execBasinInsertion uid s
  | .arrive place => execRofaddArrival place s
  | .resend place => execRofaddResend place s
  | .gap pair => execOrderedGapTimeout pair s
  | .event place => execEventRecordWrite place s
  | .peerLate place => execPeerTimeout place s
  | .hostRead r => hostAgain r s
  | .report => execAttestationReportWritten s

/-- The accesses of a cluster that may be performed next (R183). -/
def State.accessMoves (s : State) (c : CoreId) (x : Cluster) : List Move :=
  let k := s.core c
  ((k.performable x).map (Move.perform c x)).append ((k.readable x).map fun r => Move.read c x r.1 r.2)

/-- The pieces of commands that may be read or written next, at moments of their own (R195). -/
def State.pieceMoves (s : State) (c : CoreId) : List Move :=
  let k := s.core c
  if !k.retires || s.dev.stopped then []
  else
    let perEngine (e : Engine) : List Move :=
      if (k.queue e).entries.isEmpty then []
      else [(List.range (k.slotSectors e).length).map (Move.slotSample c e), [.openNext c e],
        (k.outReady e).map (Move.landPiece c e)].flatten
    [(List.range k.samples.length).map (Move.sample c), [.gathSample c], engineOrder.flatMap perEngine].flatten

/-- The moves of a core that has a context. -/
def State.contextMoves (s : State) (c : CoreId) : List Move :=
  let perCluster (x : Cluster) : List Move :=
    [.issue c x, .issueLate c x, .load c x, .resume c x, .pauseEnd c x, .monitor c x].append (s.accessMoves c x)
  let perEngine (e : Engine) : List Move :=
    if ((s.core c).queue e).entries.isEmpty then [] else .retire c e :: (List.range 5).map (Move.start c e)
  [clusterOrder.flatMap perCluster, engineOrder.flatMap perEngine,
    s.pieceMoves c, (s.core c).landable.map (Move.land c),
    [.rendezvous c, .frame c, .watchdog c, .boundary c, .fenceEnd c, .saved c, .loaded c, .iterEnd c],
    [RemovalCause.machineCheck, .kill].map (Move.remove c)].flatten

/-- The moves of a core. -/
def State.coreMoves (s : State) (c : CoreId) : List Move :=
  let k := s.core c
  [if k.ctx.isSome then s.contextMoves c else [.iterStart c], k.loc.l1.map fun l => .evict c l.1,
    (List.range k.loc.tlb.length).map (Move.dropTlb c)].flatten

/-- The moves of a polder's units. -/
def State.polderMoves (s : State) (n : Nat) : List Move :=
  let p := s.polder n
  [if p.launch.next.isSome then [Move.record n] else [], if p.preempt.go then [.continueOp n] else [],
    if p.part.flrGo then [.drainEnd n, .resetEnd n] else []].flatten

/-- The moves of what the cores of a die share. -/
def State.dieMoves (s : State) (d : Nat) : List Move :=
  let x := tget Die.reset s.dies d
  ((List.range x.tlb.length).map (Move.dropDieTlb d)).append ((List.range x.walks.length).map (Move.dropWalk d))

/-- A resumption that awaits a peer's bytes. -/
def State.awaitsBytes (s : State) (n : Nat) : Bool :=
  let r := (s.polder n).preempt
  r.go && r.op == 2 && r.uid.isNone && s.dev.ready

/-- The moves that may be made next; one that finds nothing to do leaves the machine as it is. -/
def State.moves (s : State) : List Move :=
  let places {α : Type} (l : List α) (f : Nat → Move) : List Move := (List.range l.length).map f
  [allCores.flatMap s.coreMoves, (List.range 4).flatMap s.dieMoves, s.l2.map fun l => .evictL2 l.1,
    s.l2Poison.map fun l => .evictL2Poison l.1,
    (List.range 64).flatMap fun n => (s.polderMoves n).filter fun
      | .continueOp m => s.awaitsBytes m
      | _ => true,
    s.tasks.flatMap fun t => [.lookup t.uid, .hitCopy t.uid, .insertion t.uid],
    places s.rofSent .arrive, places s.rofSent .resend, s.rofHeld.map fun m => .gap m.pair,
    places s.dev.events .event, places s.peers .peerLate, s.dev.hostWait.map .hostRead,
    if s.dev.actlGo then [.report] else []].flatten

/-! ### One step -/

/-- An action of the agenda takes place. -/
def State.act (s : State) : Action → Res
  | .issue c x => s.issue c x false
  | .issueLate c x => s.issue c x true
  | .event i => exec i s

/-- With nothing on the agenda, a free choice of the moves, or nothing (R4; assumption entry 4). -/
def State.choose (s : State) : Res :=
  match s.moves with
  | [] => .next s
  | a :: as =>
    match Config.choice s.free with
    | 0 => .next s
    | n + 1 => s.move ((a :: as).getD (n % (as.length + 1)) a)

/-- An operation of a polder's pre-emption registers ends when nothing of it is left to do (R344, R345). -/
def State.reviewOp (s : State) (n : Nat) : Res :=
  let r := (s.polder n).preempt
  if !r.go then .next s
  else if r.op.toNat < 2 then s.reviewSave n
  else .next ((s.reviewResume n).reviewKill n)

/-- The operations of several polders. -/
def State.reviewOps (s : State) : List Nat → Res
  | [] => .next s
  | n :: l => match s.reviewOp n with
    | .next t => t.reviewOps l
    | r => r

/-- What the units do of themselves after an action: lock is lost when 2 s have passed without a sync message, operations of
PRCTL end, tasks that are over end, and every quad is arbitrated (R257, R277, R344, R394). -/
def State.tidy (s : State) : Res :=
  match s.lockLapse with
  | .next s0 => match s0.reviewOps (List.range 64) with
    | .next s1 => match s1.settle with
      | .next s2 => .next s2.arbitrate
      | r => r
    | r => r
  | r => r

/-- One step: time passes; the first action of the agenda takes place, or with none a free choice; the units tidy up. -/
def State.advance (s : State) : Res :=
  let s1 := s.elapse
  let r := match s1.agenda with
    | a :: as => State.act { s1 with agenda := as } a
    | [] => s1.choose
  match r with
  | .next t => t.tidy
  | q => q

end Sys2Proof.Machine
end

