-- ==== Sys2Proof/Machine/Step.lean ====
section
/-!
DEFINITION. The step of the machine, and a machine that is about to run one given instruction.
-/

namespace Sys2Proof.Machine

/-- One step of the machine. -/
def step (s : State) : Host.Outcome State Fault Refusal := s.advance

/-- The bundle whose slot of a cluster holds a syllable, its other slots NOPs with the same Y bit (R10, R12). -/
def probeBundle (x : Cluster) (w : Word) : Nat :=
  let y := w.toNat / 2 ^ 63 * 2 ^ 63
  (clusterOrder.map fun c => (if c = x then w.toNat else y) * 2 ^ (64 * c.code)).sum

/-- Translation tables at physical 0x0000 to 0x3FFF that map virtual page 1 to physical page 1, readable and
executable (R354, R355), and a bundle there. -/
def probeMemory (m : Memory) (b : Nat) : Memory :=
  let m1 := wrBytes m 0x0000 (leBytes 8 0x1001)
  let m2 := wrBytes m1 0x1000 (leBytes 8 0x2001)
  let m3 := wrBytes m2 0x2000 (leBytes 8 0x3001)
  let m4 := wrBytes m3 0x3008 (leBytes 8 0x10037)
  wrBytes m4 0x10000 (leBytes 32 b)

/-- The machine about to run one instruction (assumption entry 15): polder 0 holds core 0 and the first 256 KiB of
memory, core 0 runs a supervisor context whose clusters stand at a bundle that holds the syllable in its first
legal slot, and the agenda lets that cluster issue. -/
def State.withFetchWord (s : State) (nbits w : Nat) : State :=
  let word : Word := BitVec.ofNat 64 (w % 2 ^ nbits)
  let x := (firstLegal word).getD .S
  let p := s.polder 0
  let part := { p.part with en := true, pcore := tset p.part.pcore 0 1, pmemB := tset p.part.pmemB 0 0, pmemS := tset p.part.pmemS 0 4, ptroot0 := 0 }
  let k := s.core 0
  let run (c : ClusterState) : ClusterState :=
    { c with pc := 0x10000, status := .running, pending := [], held := [], loops := [], useq := none, released := true }
  let k1 := { k with
    phase := .running
    posted := []
    ctx := some ⟨0, none, 1, 0, 0, false, [], [], 0, 0⟩
    cls := ⟨run k.cls.cS, run k.cls.cA, run k.cls.cX0, run k.cls.cX1⟩ }
  let s1 := ({ s with mem := probeMemory s.mem (probeBundle x word), agenda := [.issue 0 x] }.setPolder 0
    { p with part := part })
  s1.setCore 0 k1

end Sys2Proof.Machine
end

