-- ==== Sys2Proof/Safety.lean ====
section
/-!
DEFINITION. What a safe run is: a number of steps none of which stops the machine.
-/

namespace Sys2Proof

open Sys2Proof.Machine

/-- The machine takes `n` steps from a state and stops at none of them. -/
def SafeFor (n : Nat) (s : State) : Prop := ∃ t, core.run n s = .next t

end Sys2Proof
end

