-- ==== Sys2Proof/Certificates/Slice0/Obligations.lean ====
section
/-!
DEFINITION. The statements for the provers. `Obligations.<Name>` are the statements; `Says.…` are the words they are
written in: what a step leaves as it was, and what the rules give each instruction.
-/

open Sys2Proof Sys2Proof.Machine

namespace Says

/-! ### What a step leaves as it was -/

/-- Every byte of device memory, of host memory and of every scratchpad reads as it did. -/
def SameBytes (s t : State) : Prop := ∀ pl : Place, t.peek pl = s.peek pl

/-- Nothing of the machine has changed but the executing core, and the mark that its bundle has completed. -/
structure OnlyCore (s t : State) : Prop where
  actor  : t.actor = { s.actor with done := true }
  others : ∀ c, c ≠ s.actor.core → t.core c = s.core c
  rest   : { t with cores := s.cores, actor := s.actor } = s

/-- Nothing of the machine has changed but the executing cluster: memory, the registers that the clusters share, the
special registers, the engines and the other clusters are as they were. -/
structure OnlyCluster (s t : State) : Prop extends OnlyCore s t where
  clusters : ∀ x, x ≠ s.actor.cl → t.here.cl x = s.here.cl x
  core     : { t.here with cls := s.here.cls } = s.here
  bytes    : SameBytes s t

/-- The executing cluster goes on at `pc` with the loop stack `loops`; the loads that have not written, the writes that no
other agent sees, its weir counts and its temporaries are as they were. -/
structure GoesOn (s t : State) (pc : Word) (loops : List LoopEntry) : Prop where
  pc       : t.me.pc = pc
  loops    : t.me.loops = loops
  status   : t.me.status = .running
  useq     : t.me.useq = none
  pending  : t.me.pending = s.me.pending
  held     : t.me.held = s.me.held
  consumed : t.me.consumed = s.me.consumed
  temps    : t.me.temps = s.me.temps
  joined   : t.me.joined = s.me.joined

/-- Nothing of the executing cluster's accesses, and no piece that its core's agents see before others, stands between
memory and what it reads (R183, R184), and no access of another core that it would have to follow is put off. -/
structure Settled (s : State) : Prop where
  calm  : s.here.calm = true
  held  : s.me.held = []
  alone : s.entangled = false

/-- Settled, and the executing syllable's accesses and vector results are performed in its own step: the model lets a free
choice put them off (assumption entry 3). -/
structure Prompt (s : State) : Prop extends Settled s where
  now : s.actor.late = false

/-- A result of the executing cluster that is written later: not a load's (R217; assumption entry 3). -/
def lateResult (s : State) (dest : LoadDest) (x : Vec) : PendingLoad := 
  ⟨dest, x, [], s.free, .cluster, .relaxed, .normal, .cluster, .vector⟩

/-- `t` is `s` with a syllable's results in the executing cluster's registers, and the cluster at `pc`: `rd` holds `v`
(s0 discards it, R85), `pd` holds `b` (p0 discards it), and every other register of the cluster, every other cluster and
core, and all of memory are as in `s`. -/
structure Went (s t : State) (rd : SReg) (v : Word) (pd : PReg) (b : Bool) (pc : Word) (loops : List LoopEntry) : Prop where
  scalars : ∀ r, t.getS r = if r = rd ∧ rd ≠ 0 then v else s.getS r
  preds   : ∀ n, t.getP n = if n = pd ∧ pd ≠ 0 then b else s.getP n
  next    : GoesOn s t pc loops
  frame   : OnlyCluster s t

/-- The same, where the bundle completes and the cluster goes on after it: at the next bundle, or where its loops end, at
the loop's first (R11, R98). -/
def Done (s t : State) (rd : SReg) (v : Word) (pd : PReg) (b : Bool) : Prop :=
  Went s t rd v pd b (loopEnd s.me.pc s.me.loops).1 (loopEnd s.me.pc s.me.loops).2

/-- A scalar result and nothing else. -/
def WroteScalar (s t : State) (rd : SReg) (v : Word) : Prop := Done s t rd v 0 true

/-- A predicate result and nothing else. -/
def WrotePred (s t : State) (pd : PReg) (b : Bool) : Prop := Done s t 0 0 pd b

/-- The bundle completes and no register changes. -/
def Completed (s t : State) : Prop := Done s t 0 0 0 true

/-- A taken branch and no register changes. -/
def WentTo (s t : State) (pc : Word) (loops : List LoopEntry) : Prop := Went s t 0 0 0 true pc loops

/-! ### Scalar results -/

/-- The signed integer of a word. -/
def sx (a : Word) : Int := a.toInt

/-- The word whose bit `i` is `f i`. -/
def ofBits (f : Nat → Bool) : Word := BitVec.ofNat 64 ((List.range 64).map fun i => if f i then 2 ^ i else 0).sum

/-- What the table of R86, and R87, give a two-operand instruction. -/
def binary : Instr → Option (SReg × SReg × SReg × (Word → Word → Word))
  | .add rd ra rb => some (rd, ra, rb, fun a b => a + b)
  | .sub rd ra rb => some (rd, ra, rb, fun a b => a - b)
  | .mul rd ra rb => some (rd, ra, rb, fun a b => a * b)
  | .mulh rd ra rb => some (rd, ra, rb, fun a b => BitVec.ofInt 64 (sx a * sx b / 2 ^ 64))
  | .mulhu rd ra rb => some (rd, ra, rb, fun a b => BitVec.ofNat 64 (a.toNat * b.toNat / 2 ^ 64))
  | .div rd ra rb => some (rd, ra, rb, fun a b => if b = 0 then 0 else BitVec.ofInt 64 ((sx a).tdiv (sx b)))
  | .divu rd ra rb => some (rd, ra, rb, fun a b => if b = 0 then 0 else BitVec.ofNat 64 (a.toNat / b.toNat))
  | .rem rd ra rb => some (rd, ra, rb, fun a b => if b = 0 then a else BitVec.ofInt 64 ((sx a).tmod (sx b)))
  | .remu rd ra rb => some (rd, ra, rb, fun a b => if b = 0 then a else BitVec.ofNat 64 (a.toNat % b.toNat))
  | .and rd ra rb => some (rd, ra, rb, fun a b => a &&& b)
  | .or rd ra rb => some (rd, ra, rb, fun a b => a ||| b)
  | .xor rd ra rb => some (rd, ra, rb, fun a b => a ^^^ b)
  | .andn rd ra rb => some (rd, ra, rb, fun a b => a &&& ~~~b)
  | .shl rd ra rb => some (rd, ra, rb, fun a b => BitVec.ofNat 64 (a.toNat * 2 ^ (b.toNat % 64)))
  | .shr rd ra rb => some (rd, ra, rb, fun a b => BitVec.ofNat 64 (a.toNat / 2 ^ (b.toNat % 64)))
  | .sar rd ra rb => some (rd, ra, rb, fun a b => BitVec.ofInt 64 (sx a / 2 ^ (b.toNat % 64)))
  | .rotr rd ra rb => some (rd, ra, rb, fun a b => a.rotateRight (b.toNat % 64))
  | .min rd ra rb => some (rd, ra, rb, fun a b => if sx b < sx a then b else a)
  | .max rd ra rb => some (rd, ra, rb, fun a b => if sx a < sx b then b else a)
  | .minu rd ra rb => some (rd, ra, rb, fun a b => if b.toNat < a.toNat then b else a)
  | .maxu rd ra rb => some (rd, ra, rb, fun a b => if a.toNat < b.toNat then b else a)
  | .lea rd ra rb sh => some (rd, ra, rb, fun a b => a + b * BitVec.ofNat 64 (2 ^ sh.toNat))
  | .insr rd ra rb len pos => some (rd, ra, rb, fun a b => ofBits fun i =>
      if pos.toNat ≤ i ∧ i < pos.toNat + len.toNat then a.getLsbD (i - pos.toNat) else b.getLsbD i)
  | _ => none

/-- The low `n` bits of a number read as a signed integer. -/
def signedLow (n x : Nat) : Int := if x % 2 ^ n < 2 ^ (n - 1) then (x % 2 ^ n : Nat) else ((x % 2 ^ n : Nat) : Int) - 2 ^ n

/-- What R86 and R88 give an instruction of one register operand, with its immediates. -/
def unary : Instr → Option (SReg × SReg × (Word → Word))
  | .clz rd ra => some (rd, ra, fun a => BitVec.ofNat 64 (if a = 0 then 64 else 63 - a.toNat.log2))
  | .ctz rd ra => some (rd, ra, fun a => BitVec.ofNat 64 (((List.range 64).find? a.getLsbD).getD 64))
  | .popc rd ra => some (rd, ra, fun a => BitVec.ofNat 64 ((List.range 64).countP a.getLsbD))
  | .brev rd ra => some (rd, ra, fun a => ofBits fun i => a.getLsbD (63 - i))
  | .bswap rd ra => some (rd, ra, fun a => ofBits fun i => a.getLsbD (8 * (7 - i / 8) + i % 8))
  | .extr rd ra len pos => some (rd, ra, fun a => BitVec.ofInt 64 (signedLow len.toNat (a.toNat / 2 ^ pos.toNat)))
  | .extru rd ra len pos => some (rd, ra, fun a => BitVec.ofNat 64 (a.toNat / 2 ^ pos.toNat % 2 ^ len.toNat))
  | .sext rd ra .w8 => some (rd, ra, fun a => BitVec.ofInt 64 (signedLow 8 a.toNat))
  | .sext rd ra .w16 => some (rd, ra, fun a => BitVec.ofInt 64 (signedLow 16 a.toNat))
  | .sext rd ra .w32 => some (rd, ra, fun a => BitVec.ofInt 64 (signedLow 32 a.toNat))
  | .zext rd ra .w8 => some (rd, ra, fun a => BitVec.ofNat 64 (a.toNat % 2 ^ 8))
  | .zext rd ra .w16 => some (rd, ra, fun a => BitVec.ofNat 64 (a.toNat % 2 ^ 16))
  | .zext rd ra .w32 => some (rd, ra, fun a => BitVec.ofNat 64 (a.toNat % 2 ^ 32))
  | .mov rd ra => some (rd, ra, fun a => a)
  | .addi rd ra imm => some (rd, ra, fun a => a + imm.signExtend 64)
  | .andi rd ra imm => some (rd, ra, fun a => a &&& imm.signExtend 64)
  | .ori rd ra imm => some (rd, ra, fun a => a ||| imm.signExtend 64)
  | .xori rd ra imm => some (rd, ra, fun a => a ^^^ imm.signExtend 64)
  | .muli rd ra imm => some (rd, ra, fun a => a * imm.signExtend 64)
  | .shli rd ra n => some (rd, ra, fun a => BitVec.ofNat 64 (a.toNat * 2 ^ n.toNat))
  | .shri rd ra n => some (rd, ra, fun a => BitVec.ofNat 64 (a.toNat / 2 ^ n.toNat))
  | .sari rd ra n => some (rd, ra, fun a => BitVec.ofInt 64 (sx a / 2 ^ n.toNat))
  | .lih rd ra imm => some (rd, ra, fun a => BitVec.ofNat 64 (a.toNat % 2 ^ 32 + imm.toNat * 2 ^ 32))
  | _ => none

/-- The registers of R103 that a pure task may read: %core, %die, %quad, %lidxj, %ltripj, %fpstat and %fpctl. -/
def pureReads (n : Nat) : Prop := (0x030 ≤ n ∧ n ≤ 0x03A) ∨ n = 0x040 ∨ n = 0x041

/-- What an instruction that reads registers into a scalar gives, and when it may execute: by R86, R88, R91 and R118 in
every state, by R101 to R103 and R323 outside pure tasks or on the registers that they may read, and %tvec and %tstack by
a supervisor only; by R226 and R320 outside the handler. -/
def reads (s : State) : Instr → Option (Prop × SReg × Word)
  | .li rd imm => some (True, rd, imm.signExtend 64)
  | .madd rd ra rb rc => some (True, rd, s.getS ra * s.getS rb + s.getS rc)
  | .sel rd ra rb pn => some (True, rd, if s.getP pn then s.getS ra else s.getS rb)
  | .getp rd => some (True, rd, ofBits fun i => decide (i < 16) && s.getP (BitVec.ofNat 4 i))
  | .mpop rd mk false => some (True, rd, BitVec.ofNat 64 ((List.range 64).countP (s.getM mk).getLsbD))
  | .mpop rd mk true => some (True, rd, BitVec.ofNat 64 (((List.range 64).find? (s.getM mk).getLsbD).getD 64))
  | .mfsr rd num => some
      ((s.here.isPure = true → pureReads num.toNat) ∧ (s.here.isUser = true → num ≠ 0x011 ∧ num ≠ 0x012), rd,
        if num = 0x050 then s.here.trap.cycle else if num = 0x051 then s.dev.time
        else if srAssigned num.toNat then s.here.getSr num.toNat else 0)
  | .rdcyc rd => some (s.here.isPure = false, rd, s.here.trap.cycle)
  | .rdtime rd => some (s.here.isPure = false, rd, s.dev.time)
  | .fread rd fl => some (s.here.inHandler = false, rd,
      BitVec.ofNat 64 (((s.here.flag fl).count - (s.here.flag fl).waiters.length) % 256))
  | _ => none

/-- Whether a condition of R90 holds of two words. -/
def holds : Cond → Word → Word → Bool
  | .eq, a, b => decide (a = b)
  | .ne, a, b => decide (a ≠ b)
  | .lt, a, b => decide (sx a < sx b)
  | .le, a, b => decide (sx a ≤ sx b)
  | .gt, a, b => decide (sx b < sx a)
  | .ge, a, b => decide (sx b ≤ sx a)
  | .ltu, a, b => decide (a.toNat < b.toNat)
  | .leu, a, b => decide (a.toNat ≤ b.toNat)

/-- What R90 and R91 give an instruction that writes one predicate. -/
def predicate (s : State) : Instr → Option (PReg × Bool)
  | .cmp pd ra rb cc => some (pd, holds cc (s.getS ra) (s.getS rb))
  | .cmpi pd ra cc imm => some (pd, holds cc (s.getS ra) (imm.signExtend 64))
  | .pand pd pa pb => some (pd, s.getP pa && s.getP pb)
  | .por pd pa pb => some (pd, s.getP pa || s.getP pb)
  | .pxor pd pa pb => some (pd, s.getP pa != s.getP pb)
  | .pnot pd pa => some (pd, !s.getP pa)
  | .tstb pd ra bit => some (pd, (s.getS ra).getLsbD bit.toNat)
  | _ => none

end Says

/-- R86 and R87: a two-operand scalar instruction completes in every state, writes s[rd] and nothing else. -/
def Says.TwoOperandScalarResults : Prop :=
  ∀ i rd ra rb f s, Says.binary i = some (rd, ra, rb, f) →
    ∃ t, exec i s = .next t ∧ Says.WroteScalar s t rd (f (s.getS ra) (s.getS rb))

/-- R86 and R88: a scalar instruction of one register operand completes in every state, writes s[rd] and nothing else. -/
def Says.OneOperandScalarResults : Prop :=
  ∀ i rd ra f s, Says.unary i = some (rd, ra, f) → ∃ t, exec i s = .next t ∧ Says.WroteScalar s t rd (f (s.getS ra))

/-- R86 to R88: the scalar instructions of one and of two register operands. -/
def Obligations.ScalarResults : Prop := Says.TwoOperandScalarResults ∧ Says.OneOperandScalarResults

/-- R86, R88, R91, R101, R103, R118, R226, R323: an instruction that reads registers into a scalar completes wherever it
may execute, writes s[rd] and nothing else. -/
def Says.ScalarReads : Prop :=
  ∀ i ok rd v s, Says.reads s i = some (ok, rd, v) → ok → ∃ t, exec i s = .next t ∧ Says.WroteScalar s t rd v

/-- R90, R91: an instruction that computes a predicate completes in every state, writes p[pd] and nothing else. -/
def Says.PredicateWrites : Prop :=
  ∀ i pd b s, Says.predicate s i = some (pd, b) → ∃ t, exec i s = .next t ∧ Says.WrotePred s t pd b

/-- R91: SETP completes in every state; each predicate that its mask names, but p0, holds the bit of s[ra] with its
number, and no other register changes. -/
def Says.SetpWritesNamedPredicates : Prop :=
  ∀ ra mask s, ∃ t, exec (.setp ra mask) s = .next t ∧
    (∀ n : PReg, t.getP n = if n ≠ 0 ∧ mask.getLsbD n.toNat then (s.getS ra).getLsbD n.toNat else s.getP n) ∧
    (∀ r, t.getS r = s.getS r) ∧ Says.GoesOn s t (loopEnd s.me.pc s.me.loops).1 (loopEnd s.me.pc s.me.loops).2 ∧
    Says.OnlyCluster s t

/-- R90, R91: the instructions that write predicates. -/
def Obligations.PredicateResults : Prop := Says.PredicateWrites ∧ Says.SetpWritesNamedPredicates

namespace Says

/-- The target of a relative branch: PC + sx(off32) × 32 (R13). -/
def target (s : State) (off : BitVec 32) : Word := s.me.pc + off.signExtend 64 * 32

/-- The body of a loop holds an address: it lies from start to end, both included (R96). -/
def inBody (t : Word) (l : LoopEntry) : Bool := decide (l.start.toNat ≤ t.toNat ∧ t.toNat ≤ l.last.toNat)

/-- The stack after a taken branch: the entries on top whose body the target lies outside are gone (R99). -/
def kept (t : Word) (ls : List LoopEntry) : List LoopEntry := ls.dropWhile fun l => !inBody t l

/-- A scalar queue's reader may pop it here: outside the handler (R320), the cluster is the queue's reader, and a vector
queue does not name S (R223). -/
def mayRead (s : State) (q : QReg) : Prop := s.here.inHandler = false ∧ s.here.isReader q s.actor.cl = true

/-- The same of its writer. -/
def mayWrite (s : State) (q : QReg) : Prop := s.here.inHandler = false ∧ s.here.isWriter q s.actor.cl = true

/-- The machine with a scalar queue holding `l`, and the mark of R103 that a queue instruction has completed. -/
def withS (s : State) (q : QReg) (l : List Word) : State := s.setHere (s.here.setSqueue q l)

/-- The machine with a vector queue holding `l`, and that mark. -/
def withV (s : State) (q : QReg) (l : List Vec) : State := s.setHere (s.here.setVqueue q l)

/-- The count and the end offset of a loop start (R97). -/
def loopStart (s : State) : Instr → Option (Word × BitVec 16)
  | .loop ra e => some (s.getS ra, e)
  | .loopi e count => some (BitVec.ofNat 64 count.toNat, e)
  | .loopt level e => some (s.here.getSr (0x037 + level.toNat), e)
  | _ => none

end Says

/-- R13, R92: BR, BRI, CALL, CALLI and RET complete, a register target being aligned. BR and BRI leave the loops that the
target leaves (R99); CALL and CALLI write s63, and with RET leave the loop stack as it is. -/
def Says.BranchTargetsAndLinks : Prop :=
  ∀ (s : State) (ra : SReg) (off : BitVec 32),
    (∃ t, exec (.br off) s = .next t ∧ Says.WentTo s t (Says.target s off) (Says.kept (Says.target s off) s.me.loops)) ∧
    (∃ t, exec (.call off) s = .next t ∧
      Says.Went s t 63 (s.me.pc + 32) 0 true (Says.target s off) s.me.loops) ∧
    ((s.getS ra).toNat % 32 = 0 →
      (∃ t, exec (.bri ra) s = .next t ∧ Says.WentTo s t (s.getS ra) (Says.kept (s.getS ra) s.me.loops)) ∧
      (∃ t, exec (.calli ra) s = .next t ∧ Says.Went s t 63 (s.me.pc + 32) 0 true (s.getS ra) s.me.loops) ∧
      (∃ t, exec (.ret ra) s = .next t ∧ Says.WentTo s t (s.getS ra) s.me.loops))

/-- R99: a taken BR, BRI or BRQ pops the loop-stack entries on top whose body its target lies outside, one after another,
and keeps the stack from the first whose body holds the target; CALL, CALLI and RET never change the stack. -/
def Obligations.TakenBranchesPopLoops : Prop :=
  ∀ s t : State,
    (∀ off, exec (.br off) s = .next t → t.me.loops = Says.kept t.me.pc s.me.loops) ∧
    (∀ ra, (s.getS ra).toNat % 32 = 0 → exec (.bri ra) s = .next t → t.me.loops = Says.kept t.me.pc s.me.loops) ∧
    (∀ q off v rest, Says.mayRead s q → s.here.squeue q = v :: rest → v.getLsbD 0 = true →
      exec (.brq q off) s = .next t → t.me.loops = Says.kept t.me.pc s.me.loops) ∧
    (∀ off, exec (.call off) s = .next t → t.me.loops = s.me.loops) ∧
    (∀ ra, (s.getS ra).toNat % 32 = 0 → exec (.calli ra) s = .next t ∨ exec (.ret ra) s = .next t →
      t.me.loops = s.me.loops)

/-- R93: BRQ takes the oldest entry of its queue and branches on the entry's bit 0. -/
def Says.BrqPopsAndBranches : Prop :=
  ∀ (s : State) (q : QReg) (off : BitVec 32) (v : Word) (rest : List Word),
    Says.mayRead s q → s.here.squeue q = v :: rest →
    ∃ t, exec (.brq q off) s = .next t ∧ Says.SameBytes s t ∧
      if v.getLsbD 0 then
        Says.WentTo (Says.withS s q rest) t (Says.target s off) (Says.kept (Says.target s off) s.me.loops)
      else Says.Completed (Says.withS s q rest) t

/-- R13, R92, R93, R99: branches, calls and returns, and the branch on a queue. -/
def Obligations.BranchesAndCalls : Prop := Says.BranchTargetsAndLinks ∧ Says.BrqPopsAndBranches

/-- R97: a loop start of count zero continues after the loop's last bundle; with another count and fewer than four
entries, it pushes an entry whose body starts at the next bundle. It faults with LOOP_STRUCTURE when its end lies past the
end of the top entry, and, its count not zero, when the stack holds four entries. -/
def Says.LoopStarts : Prop :=
  ∀ (i : Instr) (s : State) (n : Word) (e : BitVec 16), Says.loopStart s i = some (n, e) →
    let last := s.me.pc + BitVec.ofNat 64 (32 * e.toNat)
    let past := ∃ l ls, s.me.loops = l :: ls ∧ l.last.toNat < last.toNat
    (past → exec i s = s.faultHere .loopStructure s.me.pc) ∧
    (¬ past → n = 0 → ∃ t, exec i s = .next t ∧ Says.WentTo s t (last + 32) s.me.loops) ∧
    (¬ past → n ≠ 0 → s.me.loops.length < 4 → ∃ t, exec i s = .next t ∧
      Says.WentTo s t (s.me.pc + 32) (⟨s.me.pc + 32, last, n⟩ :: s.me.loops)) ∧
    (¬ past → n ≠ 0 → 4 ≤ s.me.loops.length → exec i s = s.faultHere .loopStructure s.me.pc)

/-- R98, R100: LBREAK pops the top entry and continues as if the bundle at the entry's end had completed, the loops that
remain being evaluated for that address; with an empty stack it faults with LOOP_STRUCTURE. -/
def Obligations.LbreakLeavesTheInnermostLoop : Prop :=
  ∀ s : State,
    (∀ l ls, s.me.loops = l :: ls →
      ∃ t, exec .lbreak s = .next t ∧ Says.WentTo s t (loopEnd l.last ls).1 (loopEnd l.last ls).2) ∧
    (s.me.loops = [] → exec .lbreak s = s.faultHere .loopStructure s.me.pc)

/-- R98: after the syllable of the bundle at e completes, the top entry with end e counts one iteration: with iterations
left the cluster goes to the entry's start, and with none left the entry is popped and the next is evaluated in the same
way; with no entry of end e on top the cluster goes to e + 32. -/
def Says.LoopEndEvaluation : Prop :=
  ∀ (e : Word) (l : LoopEntry) (ls : List LoopEntry),
    loopEnd e [] = (e + 32, []) ∧
    (l.last ≠ e → loopEnd e (l :: ls) = (e + 32, l :: ls)) ∧
    (l.last = e → l.remaining = 1 → loopEnd e (l :: ls) = loopEnd e ls) ∧
    (l.last = e → l.remaining ≠ 1 → loopEnd e (l :: ls) = (l.start, { l with remaining := l.remaining - 1 } :: ls))

/-- R97, R98: the starts and the ends of loops. -/
def Obligations.LoopInstructions : Prop := Says.LoopStarts ∧ Says.LoopEndEvaluation

/-- R27, R94, R95, R167, R168, R187, R188: NOP and PREF complete and change no register and no memory; with nothing of the
cluster standing before them, so do an acquire fence, MARK once the cluster's reductions are applied, and any other fence once
its core's stores at peers have been answered too. -/
def Says.CompletionsWithoutResult : Prop :=
  ∀ (i : Instr) (s : State),
    (i = .nop ∨ ∃ b sc ev off, i = .pref b sc ev off) ∨
      (Says.Settled s ∧ ((∃ od sc, i = .fence od sc ∧
          (od = .acquire ∨ (s.reductionsOut = false ∧ s.storesOut s.actor.core = false))) ∨
        (i = .mark ∧ s.reductionsOut = false))) →
    ∃ t, exec i s = .next t ∧ Says.Completed s t

/-- R94: HALT, with no other cluster of the core waiting at a synced bundle, stops its cluster at the next bundle: it is
halted, its registers keep their values, and nothing else changes. R95: YIELD completes its bundle and the cluster is in
its pause. -/
def Says.HaltAndYield : Prop :=
  ∀ (s : State) (n : BitVec 4),
    ((∀ x b w, x ≠ s.actor.cl → (s.here.cl x).status ≠ .waiting (.rendezvous b w)) →
      ∃ t, exec .halt s = .next t ∧ Says.OnlyCluster s t ∧ t.me.status = .halted ∧ t.me.pc = s.me.pc + 32 ∧
        (∀ r, t.getS r = s.getS r) ∧ (∀ p, t.getP p = s.getP p) ∧ t.me.loops = s.me.loops ∧
        t.me.pending = s.me.pending) ∧
    (∃ t u, exec (.yield n) s = .next t ∧ Says.Completed s u ∧ t = u.block .pause)

/-- R227: WAITT, outside a pure task and with the time locked, completes when %time is at least s[ra] as an unsigned
number, and otherwise waits for it, with no other effect; with the time unlocked it faults with TIME_UNLOCKED. -/
def Says.WaittWaitsForTime : Prop :=
  ∀ (s : State) (ra : SReg), s.here.isPure = false →
    (s.dev.tlock = true → (s.getS ra).toNat ≤ s.dev.time.toNat →
      ∃ t, exec (.waitt ra) s = .next t ∧ Says.Completed s t) ∧
    (s.dev.tlock = true → s.dev.time.toNat < (s.getS ra).toNat →
      exec (.waitt ra) s = .next (s.block (.time (s.getS ra) s.actor.syl))) ∧
    (s.dev.tlock = false → exec (.waitt ra) s = s.faultHere .timeUnlocked 0)

/-- R94, R95, R227: what completes and changes nothing else, and what ends or pauses a cluster. -/
def Obligations.CompletionsAndPauses : Prop := Says.CompletionsWithoutResult ∧ Says.HaltAndYield ∧ Says.WaittWaitsForTime

namespace Says

/-- The fields of a special register that software writes: a supervisor's, or both privileges' (R69, R70, R102, R222,
R255, R319, R327, R328, R373). -/
def writable (n : Nat) : Option (Bool × Word) :=
  if n = 0x011 ∨ n = 0x012 then some (true, BitVec.allOnes 64)
  else if 0x003 ≤ n ∧ n ≤ 0x006 then some (true, ~~~31)
  else if n = 0x022 then some (true, 7)
  else if n = 0x040 then some (false, 0x1F)
  else if n = 0x041 then some (false, 3)
  else if 0x070 ≤ n ∧ n ≤ 0x077 then some (true, ~~~16)
  else if n = 0x078 then some (true, 0x3FFF)
  else if 0x080 ≤ n ∧ n ≤ 0x083 then some (true, BitVec.allOnes 64)
  else if n = 0x084 then some (true, 0xFFFFFFFF)
  else if n = 0x0A0 then some (true, 0x1FFFF0000)
  else if n = 0x0B0 then some (false, BitVec.allOnes 64)
  else none

end Says

/-- R101 to R103: MTSR, outside a pure task. A register that the privilege may write takes s[ra] in its fields and keeps
its other bits, but for %qroute of a user once a queue instruction has completed, which faults with QUEUE_ROUTE. A write
to a register that only hardware writes, or to an unassigned number, is discarded from a supervisor, and faults with
PRIVILEGED from a user, as does a user's write to a supervisor's register. In the handler a write to %fpcn also ends the
cluster's stopped sequence (R388), and, which is the model's choice (assumption entry 31), its release at a synced bundle. No
general register changes. -/
def Says.SpecialRegisterWrites : Prop :=
  ∀ (s : State) (ra : SReg) (num : BitVec 12), s.here.isPure = false →
    let n := num.toNat
    match Says.writable n with
    | some (sup, mask) =>
      (s.here.isUser = true → sup = true → exec (.mtsr ra num) s = s.faultHere .privileged 0) ∧
      (s.here.isUser = true → n = 0x0B0 → s.here.regs.qUsed = true →
        exec (.mtsr ra num) s = s.faultHere .queueRoute 0) ∧
      ((s.here.isUser = true → sup = false ∧ (n = 0x0B0 → s.here.regs.qUsed = false)) →
        (s.here.inHandler = true → n < 0x003 ∨ 0x006 < n) →
        ∃ t, exec (.mtsr ra num) s = .next t ∧ Says.SameBytes s t ∧
          Says.Completed (s.setHere (s.here.setSr n ((s.here.getSr n &&& ~~~mask) ||| (s.getS ra &&& mask)))) t) ∧
      (s.here.inHandler = true → 0x003 ≤ n → n ≤ 0x006 →
        ∃ t, exec (.mtsr ra num) s = .next t ∧ Says.SameBytes s t ∧ (∀ r, t.getS r = s.getS r) ∧
          (∀ p, t.getP p = s.getP p) ∧ Says.OnlyCore s t ∧
          Says.GoesOn s t (loopEnd s.me.pc s.me.loops).1 (loopEnd s.me.pc s.me.loops).2 ∧
          { t.here with cls := s.here.cls, trap := s.here.trap } = s.here ∧
          { t.here.trap with heldReleased := s.here.trap.heldReleased } =
            (s.here.setSr n ((s.here.getSr n &&& ~~~31) ||| (s.getS ra &&& ~~~31))).trap ∧
          ∀ x, x ≠ s.actor.cl → t.here.cl x =
            if x.code = n - 3 then { s.here.cl x with useq := none, released := false } else s.here.cl x)
    | none =>
      (s.here.isUser = true → exec (.mtsr ra num) s = s.faultHere .privileged 0) ∧
      (s.here.isUser = false → ∃ t, exec (.mtsr ra num) s = .next t ∧ Says.Completed s t)

/-- R103, R295: where a special register may not be read, MFSR faults and changes nothing: in a pure task with
PURE_INSTRUCTION, and, of a user that reads %tvec or %tstack, with PRIVILEGED. -/
def Says.SpecialRegisterReadsRefused : Prop :=
  ∀ (s : State) (rd : SReg) (num : BitVec 12),
    (s.here.isPure = true → ¬ Says.pureReads num.toNat → exec (.mfsr rd num) s = s.faultHere .pureInstruction 0) ∧
    (s.here.isPure = false → s.here.isUser = true → num = 0x011 ∨ num = 0x012 →
      exec (.mfsr rd num) s = s.faultHere .privileged 0)

namespace Says

/-- The instructions of R320's table: the handler may not execute them. -/
def handlerRefuses : Instr → Bool
  | .enq .. | .mma .. | .mret .. | .mzero .. | .cpin .. | .cpstr .. | .cpout .. | .cpred .. | .gath .. | .topk .. => true
  | .notify .. | .gfence .. | .ewait .. | .waitev .. => true
  | .qpush .. | .qpop .. | .qpeek .. | .qtry .. | .qpushp .. | .qcount .. | .brq .. | .fwait .. | .fsig .. | .fread .. => true
  | .setst .. | .wfill .. | .wfree .. | .claim .. | .publ .. | .popt .. => true
  | .depwait .. | .dqpush .. | .dqpop .. | .dqsteal .. | .dqstealRing .. | .barinit .. | .barrive .. | .barwait .. => true
  | _ => false

/-- The instructions of R295's table, MFSR apart: a pure task may not execute them. -/
def pureRefuses : Instr → Bool
  | .aadd .. | .aand .. | .aor .. | .axor .. | .amin .. | .amax .. | .aminu .. | .amaxu .. | .aswp .. | .acas .. => true
  | .radd .. | .rfadd .. | .rmin .. | .rmax .. | .rofadd .. | .vredm .. | .mwait .. => true
  | .barinit .. | .barrive .. | .barwait .. | .dqpush .. | .dqpop .. | .dqsteal .. | .dqstealRing .. | .launch .. => true
  | .rdcyc .. | .rdtime .. | .waitt .. | .bstat .. | .trap .. | .csload .. | .mtsr .. | .cpred .. => true
  | _ => false

end Says

/-- R295, R320: in the handler each instruction of R320's table faults with PRIVILEGED, and in a pure task each of R295's with
PURE_INSTRUCTION; it has no other effect. -/
def Says.InstructionsRefused : Prop :=
  ∀ (i : Instr) (s : State),
    (Says.handlerRefuses i = true → s.here.inHandler = true → exec i s = s.faultHere .privileged 0) ∧
    (Says.pureRefuses i = true → s.here.isPure = true → exec i s = s.faultHere .pureInstruction 0)

/-- R101 to R103, R295, R319, R320, R323: writes of special registers, the reads that are refused, and the instructions that
the handler and a pure task may not execute. -/
def Obligations.SpecialRegisters : Prop :=
  Says.SpecialRegisterWrites ∧ Says.SpecialRegisterReadsRefused ∧ Says.InstructionsRefused

/-- R221 to R224: QPUSH and QPUSHP by the queue's writer with room append at the queue's end, VQPUSH likewise. QPOP,
QPEEK, QTRY and VQPOP by its reader with an entry give the oldest and, but for QPEEK, take it; QTRY of an empty queue
gives a false predicate. QCOUNT by either gives the number of entries. Each changes nothing else, a push in a cluster that
has no access put off; where VQPOP's register is written late, its entry stands among the pending results
(R217; assumption entry 3). -/
def Says.QueueTransfers : Prop :=
  ∀ (s : State) (q : QReg) (ra rd : SReg) (pn pd : PReg) (va vd : VReg), Says.Settled s →
    (Says.mayWrite s q → (s.here.squeue q).length < 32 →
      (∃ t, exec (.qpush q ra) s = .next t ∧ Says.SameBytes s t ∧
        Says.Completed (Says.withS s q (s.here.squeue q ++ [s.getS ra])) t) ∧
      (∃ t, exec (.qpushp q pn) s = .next t ∧ Says.SameBytes s t ∧
        Says.Completed (Says.withS s q (s.here.squeue q ++ [if s.getP pn then 1 else 0])) t)) ∧
    (Says.mayWrite s q → (s.here.vqueue q).length < 8 →
      ∃ t, exec (.vqpush q va) s = .next t ∧ Says.SameBytes s t ∧
        Says.Completed (Says.withV s q (s.here.vqueue q ++ [s.getV va])) t) ∧
    (Says.mayRead s q → ∀ v rest, s.here.squeue q = v :: rest →
      (∃ t, exec (.qpop q rd) s = .next t ∧ Says.SameBytes s t ∧ Says.WroteScalar (Says.withS s q rest) t rd v) ∧
      (∃ t, exec (.qpeek q rd) s = .next t ∧ Says.SameBytes s t ∧ Says.WroteScalar s.useQueue t rd v) ∧
      (∃ t, exec (.qtry q rd pd) s = .next t ∧ Says.SameBytes s t ∧ Says.Done (Says.withS s q rest) t rd v pd true)) ∧
    (Says.mayRead s q → s.here.squeue q = [] →
      ∃ t, exec (.qtry q rd pd) s = .next t ∧ Says.SameBytes s t ∧ Says.WrotePred s.useQueue t pd false) ∧
    (Says.mayRead s q → ∀ v rest, s.here.vqueue q = v :: rest →
      ∃ t, exec (.vqpop q vd) s = .next t ∧ Says.SameBytes s t ∧
        Says.Completed (if s.actor.late then
          (Says.withV s q rest).pendHere (Says.lateResult s (.vector vd (BitVec.allOnes 64)) v)
          else (Says.withV s q rest).setV vd v) t) ∧
    (Says.mayRead s q ∨ Says.mayWrite s q →
      ∃ t, exec (.qcount q rd) s = .next t ∧ Says.SameBytes s t ∧
        Says.WroteScalar s.useQueue t rd
          (BitVec.ofNat 64 (if q.toNat < 12 then (s.here.vqueue q).length else (s.here.squeue q).length)))

/-- R211, R223, R224: where a queue instruction may not proceed. A cluster that is not the queue's writer (reader) faults
with QUEUE_ROUTE; with no space (no entry) it blocks, with no effect, and QTRY and QCOUNT never block. -/
def Says.QueueWaitsAndRoutes : Prop :=
  ∀ (s : State) (q : QReg) (ra rd : SReg) (pn pd : PReg) (va vd : VReg), s.here.inHandler = false →
    (s.here.isWriter q s.actor.cl = false →
      exec (.qpush q ra) s = s.faultHere .queueRoute 0 ∧ exec (.qpushp q pn) s = s.faultHere .queueRoute 0 ∧
      exec (.vqpush q va) s = s.faultHere .queueRoute 0) ∧
    (s.here.isReader q s.actor.cl = false →
      exec (.qpop q rd) s = s.faultHere .queueRoute 0 ∧ exec (.qpeek q rd) s = s.faultHere .queueRoute 0 ∧
      exec (.qtry q rd pd) s = s.faultHere .queueRoute 0 ∧ exec (.vqpop q vd) s = s.faultHere .queueRoute 0) ∧
    (s.here.isWriter q s.actor.cl = true → 32 ≤ (s.here.squeue q).length →
      exec (.qpush q ra) s = .next (s.block (.queueSpace q)) ∧
      exec (.qpushp q pn) s = .next (s.block (.queueSpace q))) ∧
    (s.here.isWriter q s.actor.cl = true → 8 ≤ (s.here.vqueue q).length →
      exec (.vqpush q va) s = .next (s.block (.queueSpace q))) ∧
    (s.here.isReader q s.actor.cl = true → s.here.squeue q = [] →
      exec (.qpop q rd) s = .next (s.block (.queueData q)) ∧ exec (.qpeek q rd) s = .next (s.block (.queueData q))) ∧
    (s.here.isReader q s.actor.cl = true → s.here.vqueue q = [] →
      exec (.vqpop q vd) s = .next (s.block (.queueData q)))

/-- R221 to R224, R320: the queues between clusters. -/
def Obligations.QueueInstructions : Prop := Says.QueueTransfers ∧ Says.QueueWaitsAndRoutes

namespace Says

/-- The command waits for an increment of the flag: its word's WAIT byte names it, it has not started, and no increment has been
granted to it (R30, R225, R240). -/
def waitsFor (k : Core) (e : Engine) (fl : FlagReg) (x : Cmd) : Bool :=
  x.started.isNone && !x.granted && waitFlag (wordWait (k.cmdWord e x.seq)) == some fl

/-- The commands of a queue, the oldest that waits for the flag being granted its increment (R225, R240). -/
def grantFirst (k : Core) (e : Engine) (fl : FlagReg) : List Cmd :=
  let l := (k.queue e).entries
  l.takeWhile (!waitsFor k e fl ·) ++ match l.dropWhile (!waitsFor k e fl ·) with
    | [] => []
    | x :: r => { x with granted := true } :: r

/-- A flag's count after an increment (R225): one more, unless 255 increments stand that no waiter is granted. -/
def incremented (x : Flag) : Nat := if 255 ≤ x.count - x.waiters.length then x.count else x.count + 1

/-- The engines whose waiting commands are granted an increment: fewer waiters stand before them than there are increments
(R225; assumption entry 36). -/
def grants (x : Flag) (n : Nat) : List Engine :=
  engineOrder.filter fun e => x.waiters.contains (.engine e) && decide (x.waiters.idxOf (.engine e) < n)

end Says

/-- R193, R225, R226: outside the handler, FSIG by a cluster with no access put off completes: the flag holds one increment more,
saturating at 255 beyond what its waiters are granted; each command that is granted one consumes it, is marked granted and
waits no more; no other flag, no other part of the core and no register changes. FWAIT, when fewer waiters stand before it
than there are increments, consumes one, joins the commands whose increments took effect, and completes; and otherwise it
blocks behind the waiters that stand before it. The order of grants among the commands is the model's (assumption entry
36). -/
def Obligations.FlagSignalsAndWaits : Prop :=
  ∀ (s : State) (fl : FlagReg), s.here.inHandler = false →
    let x := s.here.flag fl
    let w : Party := .cluster s.actor.cl
    let y : Flag := if w ∈ x.waiters then x else { x with waiters := x.waiters ++ [w] }
    let n := Says.incremented x
    let won := Says.grants x n
    (Says.Settled s →
      ∃ t, exec (.fsig fl) s = .next t ∧ Says.SameBytes s t ∧ (∀ r, t.getS r = s.getS r) ∧ (∀ p, t.getP p = s.getP p) ∧
        Says.OnlyCore s t ∧ Says.GoesOn s t (loopEnd s.me.pc s.me.loops).1 (loopEnd s.me.pc s.me.loops).2 ∧
        t.here.flag fl = { x with
          count := n - won.length, waiters := won.foldl (fun l e => l.erase (.engine e)) x.waiters } ∧
        (∀ g, g ≠ fl → t.here.flag g = s.here.flag g) ∧
        (∀ e, t.here.queue e = if e ∈ won then
          { s.here.queue e with entries := Says.grantFirst s.here e fl } else s.here.queue e) ∧
        (∀ c, c ≠ s.actor.cl → t.here.cl c = s.here.cl c) ∧
        { t.here with cls := s.here.cls, regs := s.here.regs, eng := s.here.eng } = s.here ∧
        { t.here.regs with flags := s.here.regs.flags } = s.here.regs ∧
        { t.here.eng with queues := s.here.eng.queues } = s.here.eng) ∧
    (y.waiters.idxOf w < y.count →
      ∃ t, exec (.fwait fl) s = .next t ∧ Says.SameBytes s t ∧ (∀ r, t.getS r = s.getS r) ∧ (∀ p, t.getP p = s.getP p) ∧
        Says.OnlyCore s t ∧ t.here.flag fl = { y with count := y.count - 1, waiters := y.waiters.erase w } ∧
        t.me.joined = s.me.joined.join x.front ∧ t.me.status = .running ∧
        t.me.pc = (loopEnd s.me.pc s.me.loops).1 ∧ t.me.loops = (loopEnd s.me.pc s.me.loops).2) ∧
    (y.count ≤ y.waiters.idxOf w →
      exec (.fwait fl) s = .next ((s.setHere (s.here.setFlag fl y)).block (.flag fl)))

namespace Says

/-! ### Number formats -/

/-- The floating-point formats with the fields of R62's table: widths of exponent and fraction, the bias, +∞ and the canonical
NaN. -/
def formats : List (Fmt × Nat × Nat × Int × Nat × Nat) :=
  [(fmtF32, 8, 23, 127, 0x7F800000, 0x7FC00000), (fmtF16, 5, 10, 15, 0x7C00, 0x7E00), (fmtBF16, 8, 7, 127, 0x7F80, 0x7FC0)]

/-- The magnitude that a pattern without sign stands for; the patterns from +∞ on continue the scale with larger exponents, as
the candidates of R66 do. -/
def magnitude (f : Fmt) (m : Nat) : ℚ :=
  let e := m / 2 ^ f.frac
  let t := m % 2 ^ f.frac
  if e = 0 then (t : ℚ) * 2 ^ (1 - f.bias - f.frac) else ((2 ^ f.frac + t : Nat) : ℚ) * 2 ^ ((e : Int) - f.bias - f.frac)

/-- The sign of a pattern. -/
def negative (f : Fmt) (x : Nat) : Bool := x.testBit (f.ebits + f.frac)

/-- The pattern without its sign. -/
def unsigned (f : Fmt) (x : Nat) : Nat := x % 2 ^ (f.ebits + f.frac)

/-- The value of a finite pattern (R62, R63). -/
def real (f : Fmt) (x : Nat) : ℚ := (if negative f x then -1 else 1) * magnitude f (unsigned f x)

/-- A pattern is finite, zero, infinite, a NaN, a signalling NaN (R62). -/
def isFinite (f : Fmt) (x : Nat) : Prop := unsigned f x < f.inf
/-- Zero, of either sign. -/
def isZero (f : Fmt) (x : Nat) : Prop := unsigned f x = 0
/-- Infinite, of either sign. -/
def isInf (f : Fmt) (x : Nat) : Prop := unsigned f x = f.inf
/-- A NaN. -/
def isNan (f : Fmt) (x : Nat) : Prop := f.inf < unsigned f x
/-- A signalling NaN: the fraction's top bit is 0. -/
def isSnan (f : Fmt) (x : Nat) : Prop := isNan f x ∧ x.testBit (f.frac - 1) = false

/-- The nearest magnitude, ties to the even pattern. -/
def NearestTo (f : Fmt) (x : ℝ) (m : Nat) : Prop :=
  (∀ k, |(|x| - (magnitude f m : ℝ))| ≤ |(|x| - (magnitude f k : ℝ))|) ∧
    ∀ k, |(|x| - (magnitude f m : ℝ))| = |(|x| - (magnitude f k : ℝ))| → k = m ∨ m % 2 = 0

/-- The greatest magnitude that does not exceed `x`'s. -/
def Toward (f : Fmt) (x : ℝ) (m : Nat) : Prop := (magnitude f m : ℝ) ≤ |x| ∧ ∀ k, m < k → |x| < magnitude f k

/-- The least magnitude that `x`'s does not exceed. -/
def Away (f : Fmt) (x : ℝ) (m : Nat) : Prop := |x| ≤ magnitude f m ∧ ∀ k, k < m → (magnitude f k : ℝ) < |x|

/-- The candidate of R66 for a real, as a magnitude. -/
def Candidate (f : Fmt) (mode : Rounding) (x : ℝ) (m : Nat) : Prop :=
  match mode with
  | .rne => NearestTo f x m
  | .rtz => Toward f x m
  | .rup => (x < 0 → Toward f x m) ∧ (0 ≤ x → Away f x m)
  | .rdn => (x < 0 → Away f x m) ∧ (0 ≤ x → Toward f x m)

/-- A nonzero real rounded once, with its flags (R66, R68). -/
def Rounds (f : Fmt) (mode : Rounding) (x : ℝ) (r : FRes) : Prop :=
  ∃ (m : Nat) (neg : Bool), (neg = true ↔ x < 0) ∧ Candidate f mode x m ∧
    (f.inf ≤ m → r.flags = 0b10100 ∧ r.bits = (if neg then 2 ^ (f.ebits + f.frac) else 0) +
      (if mode = .rne ∨ mode = (if neg then .rdn else .rup) then f.inf else f.inf - 1)) ∧
    (m < f.inf → r.bits = (if neg then 2 ^ (f.ebits + f.frac) else 0) + m ∧
      ((magnitude f m : ℝ) = |x| → r.flags = 0) ∧
      ((magnitude f m : ℝ) ≠ |x| → r.flags = if 0 < m ∧ m < 2 ^ f.frac then 0b11000 else 0b10000))

/-- A zero or an infinity with a sign and no flag. -/
def signedZero (f : Fmt) (neg : Bool) : FRes := ⟨if neg then 2 ^ (f.ebits + f.frac) else 0, 0⟩
/-- An infinity with a sign. -/
def signedInf (f : Fmt) (neg : Bool) (flags : FpFlags) : FRes :=
  ⟨(if neg then 2 ^ (f.ebits + f.frac) else 0) + f.inf, flags⟩

/-- A sum, exact and then rounded once, of two finite values with the signs of their zeros (R66, R67). -/
def Sums (f : Fmt) (mode : Rounding) (x y : ℚ) (negX negY : Bool) (r : FRes) : Prop :=
  (x + y ≠ 0 → Rounds f mode ((x + y : ℚ) : ℝ) r) ∧
    (x + y = 0 → r = signedZero f (if x = 0 ∧ negX = negY then negX else decide (mode = .rdn)))

/-- The canonical NaN, with invalid where a signalling NaN was read (R64, R68). -/
def NanFrom (f : Fmt) (signalling : Prop) (r : FRes) : Prop :=
  r.bits = f.nan ∧ (signalling → r.flags = 1) ∧ (¬ signalling → r.flags = 0)

/-- The canonical NaN of an invalid operation. -/
def invalid (f : Fmt) : FRes := ⟨f.nan, 1⟩

/-- The integer that a mode chooses for a real (R66, R80). -/
def Integer (mode : Rounding) (x : ℝ) (i : Int) : Prop :=
  match mode with
  | .rne => (∀ k : Int, |x - i| ≤ |x - k|) ∧ ∀ k : Int, |x - i| = |x - k| → k = i ∨ i % 2 = 0
  | .rtz => |(i : ℝ)| ≤ |x| ∧ |x| < |(i : ℝ)| + 1 ∧ 0 ≤ (i : ℝ) * x
  | .rup => x ≤ i ∧ (i : ℝ) < x + 1
  | .rdn => (i : ℝ) ≤ x ∧ x < i + 1

/-- The bounds of an integer type, and of RW30 (R61, R72). -/
def bounds : ElemType → Int × Int
  | .i8 => (-2 ^ 7, 2 ^ 7 - 1)
  | .i16 => (-2 ^ 15, 2 ^ 15 - 1)
  | .i32 => (-2 ^ 31, 2 ^ 31 - 1)
  | .i64 => (-2 ^ 63, 2 ^ 63 - 1)
  | .n8 => (0, 2 ^ 8 - 1)
  | .n16 => (0, 2 ^ 16 - 1)
  | .n32 => (0, 2 ^ 32 - 1)
  | .n64 => (0, 2 ^ 64 - 1)
  | _ => (-534775296, 534775295)

/-- An integer as an element of an integer type, or of RW30 (R61, R80). -/
def stored (t : ElemType) (i : Int) : Nat := if t = .rw30 then rwEnc i else (BitVec.ofInt t.width i).toNat

/-- The value of an element of an integer type, or of RW30. -/
def readAs (t : ElemType) (x : Nat) : Int :=
  if t = .rw30 then rwDec x else if (bounds t).2 < x then (x : Int) - 2 ^ t.width else x

/-- R62, R64, R66 to R68, R110, R112: sums, differences, products, quotients and fused products of two or three patterns of a
format are the exact value rounded once, with the signs of zeros that R67 gives; a NaN operand and an invalid operation give
the canonical NaN, a product of zero and infinity even beside a quiet NaN, and infinities their limits, with the flags of
R68. -/
def Arithmetic : Prop :=
  ∀ e ∈ formats, ∀ (mode : Rounding) (a b c : Nat),
    let f := e.1
    let x := real f a
    let y := real f b
    let z := real f c
    let na := negative f a
    let nb := negative f b
    let nc := negative f c
    f.ebits = e.2.1 ∧ f.frac = e.2.2.1 ∧ f.bias = e.2.2.2.1 ∧ f.inf = e.2.2.2.2.1 ∧ f.nan = e.2.2.2.2.2 ∧
    (isFinite f a → isFinite f b → Sums f mode x y na nb (fpAdd f mode a b) ∧ Sums f mode x (-y) na (!nb) (fpSub f mode a b) ∧
      (x * y ≠ 0 → Rounds f mode ((x * y : ℚ) : ℝ) (fpMul f mode a b)) ∧
      (x * y = 0 → fpMul f mode a b = signedZero f (na ^^ nb)) ∧
      (x ≠ 0 → y ≠ 0 → Rounds f mode ((x / y : ℚ) : ℝ) (fpDiv f mode a b)) ∧
      (x = 0 → y ≠ 0 → fpDiv f mode a b = signedZero f (na ^^ nb)) ∧
      (x ≠ 0 → y = 0 → fpDiv f mode a b = signedInf f (na ^^ nb) 2) ∧ (x = 0 → y = 0 → fpDiv f mode a b = invalid f) ∧
      (isFinite f c → Sums f mode (x * y) z (na ^^ nb) nc (fpFma f mode a b c))) ∧
    (isNan f a ∨ isNan f b → NanFrom f (isSnan f a ∨ isSnan f b) (fpAdd f mode a b) ∧
      NanFrom f (isSnan f a ∨ isSnan f b) (fpSub f mode a b) ∧ NanFrom f (isSnan f a ∨ isSnan f b) (fpMul f mode a b) ∧
      NanFrom f (isSnan f a ∨ isSnan f b) (fpDiv f mode a b) ∧
      NanFrom f (isSnan f a ∨ isSnan f b ∨ isSnan f c) (fpFma f mode a b c)) ∧
    (¬ isNan f a → ¬ isNan f b →
      let undefined := (isInf f a ∧ isZero f b) ∨ (isZero f a ∧ isInf f b)
      (undefined → fpFma f mode a b c = invalid f) ∧
      (¬ undefined → isNan f c → NanFrom f (isSnan f c) (fpFma f mode a b c)) ∧
      (¬ undefined → isInf f a ∨ isInf f b → ¬ isNan f c →
        fpFma f mode a b c = if unsigned f c = f.inf ∧ nc ≠ (na ^^ nb) then invalid f else signedInf f (na ^^ nb) 0) ∧
      (isFinite f a → isFinite f b → isInf f c → fpFma f mode a b c = signedInf f nc 0)) ∧
    (isInf f a → isFinite f b → fpAdd f mode a b = signedInf f na 0 ∧ fpAdd f mode b a = signedInf f na 0 ∧
      fpSub f mode a b = signedInf f na 0 ∧ fpSub f mode b a = signedInf f (!na) 0 ∧
      fpMul f mode a b = (if y = 0 then invalid f else signedInf f (na ^^ nb) 0) ∧
      fpMul f mode b a = (if y = 0 then invalid f else signedInf f (na ^^ nb) 0) ∧
      fpDiv f mode a b = signedInf f (na ^^ nb) 0 ∧ fpDiv f mode b a = signedZero f (na ^^ nb)) ∧
    (isInf f a → isInf f b → fpAdd f mode a b = (if na = nb then signedInf f na 0 else invalid f) ∧
      fpSub f mode a b = (if na = nb then invalid f else signedInf f na 0) ∧
      fpMul f mode a b = signedInf f (na ^^ nb) 0 ∧ fpDiv f mode a b = invalid f)

/-- Of two patterns that are no NaNs, one of them infinite, the first is below the second. -/
def infBelow (f : Fmt) (p q : Nat) : Bool :=
  let low (x : Nat) : Bool := unsigned f x == f.inf && negative f x
  let high (x : Nat) : Bool := unsigned f x == f.inf && !negative f x
  (low p && !low q) || (high q && !high p)

/-- R66 to R68, R111, R116, R124, R125, R129: the square root, the reciprocal and its square root of a pattern are their exact
values rounded once, and so are a pattern scaled by a power of two and 2 to an integer; EXP2, LOG2 and TANH of special operands
are what R124's table gives; VRND gives the integer that the mode chooses; minimum, maximum and comparison go by value, with
infinities at the ends. -/
def Functions : Prop :=
  ∀ e ∈ formats, ∀ (mode : Rounding) (a b : Nat) (n : Int),
    let f := e.1
    let x := real f a
    let y := real f b
    let na := negative f a
    let one := f.bias.toNat * 2 ^ f.frac
    (isNan f a → NanFrom f (isSnan f a) (exp2Bits f mode a) ∧ NanFrom f (isSnan f a) (log2Bits f mode a) ∧
      NanFrom f (isSnan f a) (tanhBits f mode a)) ∧
    (isZero f a → exp2Bits f mode a = ⟨one, 0⟩ ∧ log2Bits f mode a = signedInf f true 2 ∧ tanhBits f mode a = signedZero f na) ∧
    (isInf f a → exp2Bits f mode a = (if na then signedZero f false else signedInf f false 0) ∧
      log2Bits f mode a = (if na then invalid f else signedInf f false 0) ∧
      tanhBits f mode a = ⟨(signedZero f na).bits + one, 0⟩) ∧
    (isFinite f a → (x < 0 → log2Bits f mode a = invalid f) ∧ (x = 1 → log2Bits f mode a = signedZero f false) ∧
      ∀ i : Int, x = i → Rounds f mode ((2 : ℝ) ^ i) (exp2Bits f mode a)) ∧
    (isNan f a → NanFrom f (isSnan f a) (sqrtBits f mode a) ∧ NanFrom f (isSnan f a) (rcpBits f mode a) ∧
      NanFrom f (isSnan f a) (rsqrtBits f mode a) ∧ NanFrom f (isSnan f a) (rndBits f mode a) ∧
      NanFrom f (isSnan f a) (scaleBits f mode a n)) ∧
    (isFinite f a → 0 < x → Rounds f mode (Real.sqrt x) (sqrtBits f mode a) ∧
      Rounds f mode (1 / Real.sqrt x) (rsqrtBits f mode a)) ∧
    (isFinite f a → x < 0 → sqrtBits f mode a = invalid f ∧ rsqrtBits f mode a = invalid f) ∧
    (isFinite f a → x ≠ 0 → Rounds f mode (1 / (x : ℝ)) (rcpBits f mode a) ∧
      Rounds f mode ((x : ℝ) * 2 ^ n) (scaleBits f mode a n) ∧
      ∃ i : Int, Integer mode x i ∧ (rndBits f mode a).flags = (if (i : ℚ) = x then 0 else 0b10000) ∧
        isFinite f (rndBits f mode a).bits ∧ real f (rndBits f mode a).bits = i ∧
        negative f (rndBits f mode a).bits = na) ∧
    (isZero f a → sqrtBits f mode a = signedZero f na ∧ rcpBits f mode a = signedInf f na 2 ∧
      rsqrtBits f mode a = signedInf f na 2) ∧
    (isInf f a → rcpBits f mode a = signedZero f na ∧
      sqrtBits f mode a = (if na then invalid f else signedInf f false 0) ∧
      rsqrtBits f mode a = if na then invalid f else signedZero f false) ∧
    (isZero f a ∨ isInf f a → rndBits f mode a = ⟨a, 0⟩ ∧ scaleBits f mode a n = ⟨a, 0⟩) ∧
    (isNan f a ∨ isNan f b → ∀ max, NanFrom f (isSnan f a ∨ isSnan f b) (minMaxBits f max a b)) ∧
    (isFinite f a → isFinite f b → ∀ max, minMaxBits f max a b =
      ⟨if (if max then x < y ∨ (x = 0 ∧ y = 0 ∧ na = true ∧ negative f b = false)
        else y < x ∨ (x = 0 ∧ y = 0 ∧ na = false ∧ negative f b = true)) then b else a, 0⟩) ∧
    (¬ isNan f a → ¬ isNan f b → isInf f a ∨ isInf f b → ∀ max, minMaxBits f max a b =
      ⟨if (if max then infBelow f a b else infBelow f b a) then b else a, 0⟩) ∧
    ∀ cc, let r := compareValues cc (f.value a) (f.value b)
      (isFinite f a → isFinite f b → r = (match cc with
        | .eq => decide (x = y)
        | .ne => decide (x ≠ y)
        | .lt | .ltu => decide (x < y)
        | .le | .leu => decide (x ≤ y)
        | .gt => decide (y < x)
        | .ge => decide (y ≤ x), 0)) ∧
      (¬ isNan f a → ¬ isNan f b → isInf f a ∨ isInf f b → r = (match cc with
        | .eq => !infBelow f a b && !infBelow f b a
        | .ne => infBelow f a b || infBelow f b a
        | .lt | .ltu => infBelow f a b
        | .le | .leu => !infBelow f b a
        | .gt => infBelow f b a
        | .ge => !infBelow f a b, 0)) ∧
      (isNan f a ∨ isNan f b → r.1 = decide (cc = .ne ∨ cc = .ltu ∨ cc = .leu) ∧
        (cc = .lt ∨ cc = .le ∨ cc = .gt ∨ cc = .ge ∨ isSnan f a ∨ isSnan f b → r.2 = 1) ∧
        (¬ (cc = .lt ∨ cc = .le ∨ cc = .gt ∨ cc = .ge) → ¬ isSnan f a → ¬ isSnan f b → r.2 = 0))

/-- R80, R126, R130: conversions between floating-point formats, integer types and RW30; and the quantisation of an F32 pattern
under an E8 scale. -/
def Conversions : Prop :=
  ∀ (mode : Rounding) (p : Nat) (src dst : ElemType),
    let r := convert dst src mode p
    (∀ f g, src.fmt = some f → dst.fmt = some g →
      (isFinite f p → real f p ≠ 0 → Rounds g mode ((real f p : ℚ) : ℝ) r) ∧
      (isZero f p → r = signedZero g (negative f p)) ∧ (isInf f p → r = signedInf g (negative f p) 0) ∧
      (isNan f p → NanFrom g (isSnan f p) r)) ∧
    (∀ f, src.fmt = some f → dst.fmt = none →
      let b := bounds dst
      (isFinite f p → ∀ i, Integer mode ((real f p : ℚ) : ℝ) i → r =
        if i < b.1 then ⟨stored dst b.1, 1⟩ else if b.2 < i then ⟨stored dst b.2, 1⟩
        else ⟨stored dst i, if (i : ℚ) = real f p then 0 else 0b10000⟩) ∧
      (isInf f p → r = ⟨stored dst (if negative f p then b.1 else b.2), 1⟩) ∧ (isNan f p → r = ⟨stored dst 0, 1⟩)) ∧
    (∀ g, src.fmt = none → dst.fmt = some g → p < 2 ^ src.width →
      (readAs src p ≠ 0 → Rounds g mode ((readAs src p : Int) : ℝ) r) ∧ (readAs src p = 0 → r = ⟨0, 0⟩)) ∧
    (src.fmt = none → dst.fmt = none → p < 2 ^ src.width →
      r = ⟨stored dst (max (bounds dst).1 (min (bounds dst).2 (readAs src p))), 0⟩) ∧
    ∀ (rn4 : Bool) (e : Nat),
      let lim : Int := if rn4 then 7 else 127
      let q := quantise mode rn4 p e
      (e % 256 = 255 ∨ isNan fmtF32 p → q = (0, true, false)) ∧
      (e % 256 ≠ 255 → isInf fmtF32 p → q = (if negative fmtF32 p then -lim else lim, true, false)) ∧
      (e % 256 ≠ 255 → isFinite fmtF32 p → ∀ i, Integer mode ((real fmtF32 p : ℚ) * 2 ^ (127 - (e % 256 : Int)) : ℝ) i →
        q = if lim < |i| then (if negative fmtF32 p then -lim else lim, true, false)
          else (i, false, decide ((i : ℚ) ≠ real fmtF32 p * 2 ^ (127 - (e % 256 : Int)))))

/-- R72 to R74: the residue word. Encoding puts the three residues in place; decoding lies in the signed range and undoes it,
modulo M; sums and products of words stand, modulo M, for those of their values, and every result is canonical. -/
def Residues : Prop :=
  let M : Int := 1069550592
  let canonicalWord (w : Nat) : Prop := w < 2 ^ 30 ∧ w % 1024 < 1021 ∧ w / 1024 % 1024 < 1023
  rwEnc (-1) = 0x3FFFFBFC ∧ rwEnc 1000000 = 0x240845B9 ∧
  (∀ x : Int, canonicalWord (rwEnc x) ∧ M ∣ rwDec (rwEnc x) - x ∧ (rwEnc x % 1024 : Int) = x % M % 1021 ∧
    (rwEnc x / 1024 % 1024 : Int) = x % M % 1023 ∧ (rwEnc x / 2 ^ 20 : Int) = x % M % 1024) ∧
  ∀ a b : Nat, -534775296 ≤ rwDec a ∧ rwDec a ≤ 534775295 ∧ canonicalWord (rwAdd a b) ∧ canonicalWord (rwMul a b) ∧
    M ∣ rwDec (rwAdd a b) - (rwDec a + rwDec b) ∧ M ∣ rwDec (rwMul a b) - rwDec a * rwDec b

end Says

/-- R60 to R68, R72 to R74, R80, R110 to R112, R116, R124, R125, R129, R130: the arithmetic of the floating-point formats and of
the residue word, and the conversions. Of operands that R124's table and its rule on integers do not name, EXP2, LOG2 and TANH
are correctly rounded as far as assumption entry 13 says, and nothing is stated. -/
def Obligations.NumberFormats : Prop := Says.Arithmetic ∧ Says.Functions ∧ Says.Conversions ∧ Says.Residues

namespace Says

/-- The flags of the elements that an instruction computes (R71). -/
def flagsOf (w : Nat) (f : Nat → Option FRes) : FpFlags :=
  (List.range (2048 / w)).foldl (fun a j => a ||| ((f j).map (·.flags)).getD 0) 0

/-- The lane that element `j` of a width lies in is enabled (R105, R106). -/
def laneOn (m : Mask) (w j : Nat) : Bool := m.getLsbD (j / (32 / w))

/-- The elements of the enabled lanes. -/
def onLanes (m : Mask) (w : Nat) (f : Nat → FRes) (j : Nat) : Option FRes := if laneOn m w j then some (f j) else none

/-- A result without flags. -/
def exact (x : Nat) : FRes := ⟨x, 0⟩

/-- The value of an element of an integer type. -/
def intOf (t : ElemType) (x : Nat) : Int :=
  if t.signed = true ∧ 2 ^ (t.width - 1) ≤ x then (x : Int) - 2 ^ t.width else x

/-- An integer in the low bits of an element (R61). -/
def wrap (w : Nat) (x : Int) : Nat := (BitVec.ofInt w x).toNat

/-- An element-wise operation by type: integers wrap (R61), and FP types round as the format's operation. -/
def arith (t : ElemType) (i : Int → Int → Int) (f : Fmt → Nat → Nat → FRes) (a b : Nat) : FRes :=
  match t with
  | .f32 => f fmtF32 a b
  | .f16 => f fmtF16 a b
  | .bf16 => f fmtBF16 a b
  | _ => exact (wrap t.width (i (intOf t a) (intOf t b)))

/-- A function of an FP type. -/
def function (t : ElemType) (f : Fmt → Nat → FRes) (a : Nat) : FRes :=
  match t with
  | .f32 => f fmtF32 a
  | .f16 => f fmtF16 a
  | .bf16 => f fmtBF16 a
  | _ => exact a

/-- An F32 pattern, a NaN made canonical as R64 has it (assumption entry 60). -/
def canonical (x : Nat) : FRes :=
  match fmtF32.value x with
  | .nan signalling => nanRes fmtF32 signalling
  | _ => exact x

/-- A lane of a register. -/
def ln (v : Vec) (i : Nat) : Nat := (v.extractLsb' (32 * i) 32).toNat

/-- What R110 to R130 give a vector instruction: its destination, the width of its elements, and the elements that it
computes. The arithmetic of a format and of RW30, the roots and the conversions are those that `Obligations.NumberFormats`
states; EXP2, LOG2 and TANH are the model's (assumption entry 13). -/
def vector (s : State) : Instr → Option (VReg × Nat × (Nat → Option FRes))
  | .vadd vd va vb mk ty rm => two vd va vb mk ty.width (arith ty (fun x y => x + y) fun f => fpAdd f rm)
  | .vsub vd va vb mk ty rm => two vd va vb mk ty.width (arith ty (fun x y => x - y) fun f => fpSub f rm)
  | .vmul vd va vb mk ty rm => two vd va vb mk ty.width (arith ty (fun x y => x * y) fun f => fpMul f rm)
  | .vdiv vd va vb mk ty rm =>
    two vd va vb mk ty.width (arith ty (fun x y => if y = 0 then 0 else x.tdiv y) fun f => fpDiv f rm)
  | .vmin vd va vb mk ty _ =>
    two vd va vb mk ty.width (arith ty (fun x y => if x ≤ y then x else y) fun f => minMaxBits f false)
  | .vmax vd va vb mk ty _ =>
    two vd va vb mk ty.width (arith ty (fun x y => if x ≤ y then y else x) fun f => minMaxBits f true)
  | .vabs vd va mk ty _ =>
    one vd va mk ty.width fun a => arith ty (fun x _ => |x|) (fun f x _ => signOp f Fp.abs x) a a
  | .vneg vd va mk ty _ => one vd va mk ty.width fun a => arith ty (fun x _ => -x) (fun f x _ => signOp f Fp.flip x) a a
  | .vfma vd va vb vc mk => some (vd, 32, onLanes (s.getM mk) 32 fun j =>
      fpFma fmtF32 s.here.fpMode (elem (s.getV va) 32 j) (elem (s.getV vb) 32 j) (elem (s.getV vc) 32 j))
  | .vfmah vd va vb vc mk => some (vd, 16, onLanes (s.getM mk) 16 fun j =>
      fpFma fmtF16 s.here.fpMode (elem (s.getV va) 16 j) (elem (s.getV vb) 16 j) (elem (s.getV vc) 16 j))
  | .vfmab vd va vb vc mk => some (vd, 16, onLanes (s.getM mk) 16 fun j =>
      fpFma fmtBF16 s.here.fpMode (elem (s.getV va) 16 j) (elem (s.getV vb) 16 j) (elem (s.getV vc) 16 j))
  | .vadds vd va ra mk ty => one vd va mk ty.width fun a =>
      arith ty (fun x y => x + y) (fun f => fpAdd f s.here.fpMode) a ((s.getS ra).toNat % 2 ^ ty.width)
  | .vmuls vd va ra mk ty => one vd va mk ty.width fun a =>
      arith ty (fun x y => x * y) (fun f => fpMul f s.here.fpMode) a ((s.getS ra).toNat % 2 ^ ty.width)
  | .vand vd va vb mk => two vd va vb mk 32 fun a b => exact (a &&& b)
  | .vor vd va vb mk => two vd va vb mk 32 fun a b => exact (a ||| b)
  | .vxor vd va vb mk => two vd va vb mk 32 fun a b => exact (a ^^^ b)
  | .vshl vd va vb mk ty imm amt => two vd va vb mk ty.width fun a b =>
      exact (a * 2 ^ (if imm then amt.toNat else b % ty.width) % 2 ^ ty.width)
  | .vshr vd va vb mk ty imm amt => two vd va vb mk ty.width fun a b =>
      exact (a / 2 ^ (if imm then amt.toNat else b % ty.width))
  | .vsar vd va vb mk ty imm amt => two vd va vb mk ty.width fun a b =>
      exact (wrap ty.width (signedLow ty.width a / 2 ^ (if imm then amt.toNat else b % ty.width)))
  | .vsel vd va vb mk => some (vd, 32, fun i => some (exact (ln (s.getV (if (s.getM mk).getLsbD i then va else vb)) i)))
  | .vmov vd va mk => one vd va mk 32 exact
  | .vbcast vd ra mk ty => some (vd, ty.width, onLanes (s.getM mk) ty.width fun _ => exact ((s.getS ra).toNat % 2 ^ ty.width))
  | .vins vd ra ty j => some (vd, ty.width, fun i =>
      if i = j.toNat then some (exact ((s.getS ra).toNat % 2 ^ ty.width)) else none)
  | .vperm vd va vb mk => some (vd, 32, onLanes (s.getM mk) 32 fun i => exact (ln (s.getV va) (ln (s.getV vb) i % 64)))
  | .vrot vd va mk n => some (vd, 32, onLanes (s.getM mk) 32 fun i => exact (ln (s.getV va) ((i + n.toNat) % 64)))
  | .viota vd mk ty => some (vd, ty.width, onLanes (s.getM mk) ty.width fun j => exact (j % 2 ^ ty.width))
  | .vcomp vd va mk => some (vd, 32, fun k =>
      (((List.range 64).filter (s.getM mk).getLsbD)[k]?).map fun i => exact (ln (s.getV va) i))
  | .vsqrt vd va mk ty rm => one vd va mk ty.width (function ty fun f => sqrtBits f rm)
  | .vrcp vd va mk ty rm => one vd va mk ty.width (function ty fun f => rcpBits f rm)
  | .vrsqrt vd va mk ty rm => one vd va mk ty.width (function ty fun f => rsqrtBits f rm)
  | .vexp2 vd va mk ty rm => one vd va mk ty.width (function ty fun f => exp2Bits f rm)
  | .vlog2 vd va mk ty rm => one vd va mk ty.width (function ty fun f => log2Bits f rm)
  | .vtanh vd va mk ty rm => one vd va mk ty.width (function ty fun f => tanhBits f rm)
  | .vrnd vd va mk ty rm => one vd va mk ty.width (function ty fun f => rndBits f rm)
  | .vcvt vd va mk ty rm src => one vd va mk ty.width (convert ty src rm)
  | .vpack vd va vb mk ty rm src => some (vd, ty.width, fun j =>
      let es := 2048 / src.width
      if laneOn (s.getM mk) src.width (j % es) then
        some (convert ty src rm (elem (s.getV (if j < es then va else vb)) src.width (j % es))) else none)
  | .vunpk vd va mk ty rm h src => some (vd, ty.width, fun j =>
      let i := if h then j + 2048 / ty.width else j
      if laneOn (s.getM mk) src.width i then some (convert ty src rm (elem (s.getV va) src.width i)) else none)
  | .vzenc vd va mk ty p => some (vd, 32, fun i =>
      let j := 64 * p.toNat + i
      if laneOn (s.getM mk) ty.width j then some (exact (rwEnc (intOf ty (elem (s.getV va) ty.width j)))) else none)
  | .vzdec vd va mk ty rm k => one vd va mk 32 fun x =>
      match ty.fmt with
      | some f => if k.toInt < 0 then roundInt f rm false (rwDec x) (2 ^ k.toInt.natAbs)
          else roundInt f rm false (rwDec x * 2 ^ k.toInt.natAbs) 1
      | none => exact (wrap 32 (rwDec x))
  | .vzmac vd va vb mk => some (vd, 32, onLanes (s.getM mk) 32 fun i =>
      exact (rwAdd (ln (s.getV vd) i) (rwMul (ln (s.getV va) i) (ln (s.getV vb) i))))
  | .vzmul vd va vb mk => two vd va vb mk 32 fun a b => exact (rwMul a b)
  | .vzadd vd va vb mk => two vd va vb mk 32 fun a b => exact (rwAdd a b)
  | .vscale vd va vb mk ty rm => two vd va vb mk ty.width fun a b =>
      function ty (fun f x => scaleBits f rm x (signedLow ty.width b)) a
  | .vquant vd va vb mk rm rn4 p => some (vd, (if rn4 then 4 else 8), fun j =>
      let i := j - 64 * p.toNat
      if 64 * p.toNat ≤ j ∧ i < 64 ∧ (s.getM mk).getLsbD i then
        let q := quantise rm rn4 (ln (s.getV va) i) (ln (s.getV vb) i)
        some ⟨wrap (if rn4 then 4 else 8) q.1, (if q.2.1 then flagNV else 0) ||| (if q.2.2 && !q.2.1 then flagNX else 0)⟩
      else none)
  | .vrsum vd va mk ty rm => some (vd, ty.width, fun j => if j = 0 then
      some (treeOf va mk ty.width (if ty = .rw30 then fun a b => exact (rwAdd a b) else
        arith ty (fun x y => x + y) fun f => fpAdd f rm) (sumIdentity ty)) else none)
  | .vrmax vd va mk ty _ => some (vd, ty.width, fun j => if j = 0 then
      some (treeOf va mk ty.width (arith ty (fun x y => if x ≤ y then y else x) fun f => minMaxBits f true)
        (extremeIdentity ty true)) else none)
  | .vrmin vd va mk ty _ => some (vd, ty.width, fun j => if j = 0 then
      some (treeOf va mk ty.width (arith ty (fun x y => if x ≤ y then x else y) fun f => minMaxBits f false)
        (extremeIdentity ty false)) else none)
  | .vscan vd va mk ty rm => some (vd, 32, fun i =>
      ([1, 2, 4, 8, 16, 32].foldl (scanStep (arith ty (fun x y => x + y) fun f => fpAdd f rm))
        ((List.range 64).map fun i =>
          let x := if (s.getM mk).getLsbD i then ln (s.getV va) i else sumIdentity ty
          if i = 0 ∧ ty = .f32 then canonical x else exact x))[i]?.map fun r =>
            if (s.getM mk).getLsbD i then r else exact r.bits)
  | _ => none
where
  /-- A function of the same elements of two registers. -/
  two (vd va vb : VReg) (mk : MReg) (w : Nat) (f : Nat → Nat → FRes) : Option (VReg × Nat × (Nat → Option FRes)) :=
    some (vd, w, onLanes (s.getM mk) w fun j => f (elem (s.getV va) w j) (elem (s.getV vb) w j))
  /-- A function of the elements of one register. -/
  one (vd va : VReg) (mk : MReg) (w : Nat) (f : Nat → FRes) : Option (VReg × Nat × (Nat → Option FRes)) :=
    some (vd, w, onLanes (s.getM mk) w fun j => f (elem (s.getV va) w j))
  /-- The tree of R81 over a register's elements, disabled ones an identity. -/
  treeOf (va : VReg) (mk : MReg) (w : Nat) (f : Nat → Nat → FRes) (identity : Nat) : FRes :=
    tree f (2048 / w).log2 ((List.range (2048 / w)).map fun j =>
      exact (if laneOn (s.getM mk) w j then elem (s.getV va) w j else identity))

/-- What R116, R117 and R130 give an instruction that writes a mask: the bits it computes, with their flags, and the
others keep their values. -/
def mask (s : State) : Instr → Option (MReg × (Nat → Option (Bool × FpFlags)))
  | .vcmp md va vb mk ty cc => some (md, fun i => if (s.getM mk).getLsbD i then
      some (match ty.fmt with
        | some f => compareValues cc (f.value (ln (s.getV va) i)) (f.value (ln (s.getV vb) i))
        | none => (match cc with
          | .eq => decide (ln (s.getV va) i = ln (s.getV vb) i)
          | .ne => decide (ln (s.getV va) i ≠ ln (s.getV vb) i)
          | .lt => decide (intOf ty (ln (s.getV va) i) < intOf ty (ln (s.getV vb) i))
          | .le => decide (intOf ty (ln (s.getV va) i) ≤ intOf ty (ln (s.getV vb) i))
          | .gt => decide (intOf ty (ln (s.getV vb) i) < intOf ty (ln (s.getV va) i))
          | .ge => decide (intOf ty (ln (s.getV vb) i) ≤ intOf ty (ln (s.getV va) i))
          | .ltu => decide (ln (s.getV va) i < ln (s.getV vb) i)
          | .leu => decide (ln (s.getV va) i ≤ ln (s.getV vb) i), 0)) else none)
  | .vochk md va vb mk rn4 => some (md, fun i => if (s.getM mk).getLsbD i then
      some ((quantise .rne rn4 (ln (s.getV va) i) (ln (s.getV vb) i)).2.1, 0) else none)
  | _ => none

end Says

/-- The lanes of a set of elements. -/
def Says.lanesWritten (w : Nat) (f : Nat → Option FRes) (lanes : BitVec 64) : Prop :=
  ∀ k, k < 64 → (lanes.getLsbD k = true ↔ ∃ j, j < 2048 / w ∧ j / (32 / w) = k ∧ (f j).isSome = true)

/-- R71, R105, R106, R110 to R115, R119 to R130: a vector instruction completes in every state. The elements that it
computes take their values, the destination's others keep theirs, %fpstat gains the flags of the elements computed, and no
other register and no memory changes. Where its result is written late, it stands among the cluster's pending results with the
lanes that it will write (R217; assumption entry 3). What VSCAN makes of a NaN in lane 0 and of the flags of disabled lanes is
the model's choice (assumption entry 60). -/
def Obligations.VectorResults : Prop :=
  ∀ i vd w f s, Says.vector s i = some (vd, w, f) →
    ∃ (t : State) (x : Vec) (lanes : BitVec 64), exec i s = .next t ∧ Says.SameBytes s t ∧ Says.lanesWritten w f lanes ∧
      (∀ j, j < 2048 / w → elem x w j = match f j with
        | some r => r.bits % 2 ^ w
        | none => elem (s.getV vd) w j) ∧
      Says.Completed ((if s.actor.late = true ∧ lanes ≠ 0 then s.pendHere (Says.lateResult s (.vector vd lanes) x)
        else s.setV vd x).raiseFp (Says.flagsOf w f)) t

/-- The machine with a mask result given: in its register, or, written late, among the pending results; m0 takes none. -/
def Says.gaveM (s : State) (md : MReg) (bits x : Mask) : State :=
  if s.actor.late = true ∧ bits ≠ 0 ∧ md ≠ 0 then s.pendHere (Says.lateResult s (.mask md bits) (x.setWidth 2048))
  else s.setM md x

/-- The mask whose bits an instruction writes, and those of MAND, MOR and MNOT. -/
def Says.maskOf (s : State) : Instr → Mask
  | .vcmp _ _ _ mk _ _ => s.getM mk
  | .vochk _ _ _ mk _ => s.getM mk
  | _ => BitVec.allOnes 64

/-- R71, R106, R116, R117, R130: a compare and VOCHK complete in every state; the mask's bits of enabled lanes take their
values, the others keep theirs, and %fpstat gains the compares' flags. MAND, MOR and MNOT write the mask whole. Nothing
else changes; a result may be written late (R217; assumption entry 3). -/
def Obligations.MaskResults : Prop :=
  (∀ i md f s, Says.mask s i = some (md, f) →
    ∃ (t : State) (x : Mask), exec i s = .next t ∧ Says.SameBytes s t ∧
      (∀ k, k < 64 → x.getLsbD k = match f k with
        | some r => r.1
        | none => (s.getM md).getLsbD k) ∧
      Says.Completed ((Says.gaveM s md (Says.maskOf s i) x).raiseFp
        ((List.range 64).foldl (fun a k => a ||| ((f k).map (·.2)).getD 0) 0)) t) ∧
  ∀ md ma mb s,
    (∃ t, exec (.mand md ma mb) s = .next t ∧ Says.SameBytes s t ∧ Says.Completed (Says.gaveM s md (BitVec.allOnes 64) (s.getM ma &&& s.getM mb)) t) ∧
    (∃ t, exec (.mor md ma mb) s = .next t ∧ Says.SameBytes s t ∧ Says.Completed (Says.gaveM s md (BitVec.allOnes 64) (s.getM ma ||| s.getM mb)) t) ∧
    (∃ t, exec (.mnot md ma) s = .next t ∧ Says.SameBytes s t ∧ Says.Completed (Says.gaveM s md (BitVec.allOnes 64) (~~~(s.getM ma))) t)

/-- R105, R120: VEXT completes in every state; s[rd] receives element j, sign-extended for a signed integer type and
zero-extended for another, and nothing else changes. -/
def Says.VextReadsAnElement : Prop :=
  ∀ va rd ty j s, ∃ t, exec (.vext va rd ty j) s = .next t ∧
    Says.WroteScalar s t rd (BitVec.ofInt 64 (Says.intOf ty (elem (s.getV va) ty.width j.toNat)))

/-- R86, R88, R91, R101 to R103, R105, R118, R120, R226, R323: the instructions that read registers into a scalar. -/
def Obligations.RegisterReads : Prop := Says.ScalarReads ∧ Says.VextReadsAnElement

namespace Says

/-- Memory is in its canonical form: device memory, host memory and every scratchpad. -/
structure Canonical (s : State) : Prop where
  mem  : Memory.wf s.mem = true
  host : Memory.wf s.hostMem = true
  pads : ∀ c, Memory.wf (s.core c).loc.scratch = true

/-- An access has been counted as late (R220): in fixed-latency mode, LATE has risen by 1 below its bound. -/
def CountedLate (v w : Word) : Prop := v.getLsbD 0 = true ∧ v.toNat / 2 ^ 16 % 2 ^ 16 < 0xFFFF ∧ w = v + 0x10000

/-- What a memory instruction leaves as it was, whatever it does to memory and to what stands beside memory: every
cluster but the executing one, the registers that clusters share, the engines, each core's context, and every special
register but %purectl, whose NOINS another task's write may set (R298), and the executing core's %flmode, in which the
access may count as late (R220; that it may is assumption entry 16). -/
structure KeepsRegisters (s t : State) : Prop where
  clusters : ∀ c x, ¬ (c = s.actor.core ∧ x = s.actor.cl) → t.cl c x = s.cl c x
  shared   : ∀ c, (t.core c).regs = (s.core c).regs
  engines  : ∀ c, (t.core c).eng = (s.core c).eng
  special  : ∀ c n, n ≠ srPurectl → ¬ (c = s.actor.core ∧ n = srFlmode) → (t.core c).getSr n = (s.core c).getSr n
  late     : (t.core s.actor.core).getSr srFlmode = s.here.getSr srFlmode ∨
    CountedLate (s.here.getSr srFlmode) ((t.core s.actor.core).getSr srFlmode)
  cores    : ∀ c, (t.core c).phase = (s.core c).phase ∧ (t.core c).ctx = (s.core c).ctx ∧
    (t.core c).deque = (s.core c).deque ∧ (t.core c).posted = (s.core c).posted
  machine  : t.polders = s.polders ∧ t.quads = s.quads

/-- The executing cluster's registers after a memory instruction: `rd` holds `v`, the others are as they were, the loads
that have not written are `pending`, the writes that no other agent sees are `held`, and the bundle has completed. -/
structure MemResult (s t : State) (rd : SReg) (v : Word) (pending : List PendingLoad) (held : List Held) : Prop where
  scalars : ∀ r, t.getS r = if r = rd ∧ rd ≠ 0 then v else s.getS r
  preds   : ∀ n, t.getP n = s.getP n
  pending : t.me.pending = pending
  held    : t.me.held = held
  status  : t.me.status = .running
  pc      : t.me.pc = (loopEnd s.me.pc s.me.loops).1
  loops   : t.me.loops = (loopEnd s.me.pc s.me.loops).2
  temps   : t.me.temps = s.me.temps
  rest    : KeepsRegisters s t

/-- A memory instruction that is performed in its own step writes no register. -/
abbrev MemDone (s t : State) : Prop := MemResult s t 0 0 s.me.pending s.me.held

/-- A byte lives in memory itself: its page is not software-coherent, no stash mapping covers it, and it is not a peer's
(R157, R196, R197). -/
def InPlace (l : Loc) : Prop := l.stash = none ∧ l.mode ≠ .sc ∧ ∀ a, l.place ≠ .peer a

/-- Addresses of `n` consecutive bytes. -/
def span (va : Word) (n : Nat) : List Word := (List.range n).map fun i => va + BitVec.ofNat 64 i

/-- The address of an MM or MN operand (R164, R165). -/
def ea {w : Nat} (s : State) (base : SReg) (off : BitVec w) : Word := s.getS base + off.signExtend 64

/-- The bytes of a size code (R17, R165). -/
def sizeOf : VecSize → Nat
  | .b16 => 16
  | .b32 => 32
  | .b64 => 64
  | .b128 => 128

/-- The lanes of a strided access with their addresses (R166). -/
def strided (base stride : Word) : List (Nat × Word) := (List.range 64).map fun i => (i, base + BitVec.ofNat 64 i * stride)

/-- The active lanes of an indexed access with their addresses (R166). -/
def indexed (base : Word) (vi : Vec) : List (Nat × Word) :=
  ((List.range 64).filter fun i => vi.extractLsb' (32 * i) 32 ≠ 0x80000000).map fun i =>
    (i, base + (vi.extractLsb' (32 * i) 32).signExtend 64)

/-- The bytes of lanes in their registers' places with their addresses. -/
def laneBytes (l : List (Nat × Word)) : List (Nat × Word) :=
  l.flatMap fun x => (List.range 4).map fun b => (4 * x.1 + b, x.2 + BitVec.ofNat 64 b)

/-- The bits of a set of lanes. -/
def lanesOf (l : List Nat) : BitVec 64 := ofBits fun i => l.contains i

/-- A load (R164 to R166): its destination, its order, scope and hint, the alignment of its addresses, the addresses that
must have it, and the bytes of the register that it reads with their addresses. -/
structure LoadForm where
  dest  : LoadDest
  mf    : MemFields
  align : Nat
  heads : List Word
  slots : List (Nat × Word)

/-- What R164 to R166 give a load. -/
def loadForm (s : State) : Instr → Option LoadForm
  | .ldb rd base mf off => scalar rd mf (ea s base off) 1 true
  | .ldbu rd base mf off => scalar rd mf (ea s base off) 1 false
  | .ldh rd base mf off => scalar rd mf (ea s base off) 2 true
  | .ldhu rd base mf off => scalar rd mf (ea s base off) 2 false
  | .ldw rd base mf off => scalar rd mf (ea s base off) 4 true
  | .ldwu rd base mf off => scalar rd mf (ea s base off) 4 false
  | .ldd rd base mf off => scalar rd mf (ea s base off) 8 false
  | .vld vd base mf off => wide vd mf (ea s base off) 256
  | .vldn vd base mf size off => wide vd mf (ea s base off) (sizeOf size)
  | .vlds vd base stride mf => lanes vd mf (strided (s.getS base) (s.getS stride))
  | .vgth vd base vi mf => lanes vd mf (indexed (s.getS base) (s.getV vi))
  | _ => none
where
  /-- A scalar load of `n` bytes. -/
  scalar (rd : SReg) (mf : MemFields) (va : Word) (n : Nat) (signed : Bool) : Option LoadForm :=
    some ⟨.scalar rd n signed, mf, n, [va], (List.range n).zip (span va n)⟩
  /-- A load of the low `n` bytes of a vector register. -/
  wide (vd : VReg) (mf : MemFields) (va : Word) (n : Nat) : Option LoadForm :=
    some ⟨.vector vd (lanesOf (List.range (n / 4))), mf, 4, [va], (List.range n).zip (span va n)⟩
  /-- A load of 4-byte lanes. -/
  lanes (vd : VReg) (mf : MemFields) (l : List (Nat × Word)) : Option LoadForm :=
    some ⟨.vector vd (lanesOf (l.map (·.1))), mf, 4, l.map (·.2), laneBytes l⟩

/-- A store: its order, scope and hint, the alignment of its addresses, the addresses that must have it, and the
addresses that it writes with their bytes, in the order in which they land. -/
structure StoreForm where
  mf    : MemFields
  align : Nat
  heads : List Word
  bytes : List (Word × Byte)

/-- What R164 to R166 give a store. -/
def storeForm (s : State) : Instr → Option StoreForm
  | .stb rs base mf off => scalar rs mf (ea s base off) 1
  | .sth rs base mf off => scalar rs mf (ea s base off) 2
  | .stw rs base mf off => scalar rs mf (ea s base off) 4
  | .std rs base mf off => scalar rs mf (ea s base off) 8
  | .vst vs base mf off => wide vs mf (ea s base off) 256
  | .vstn vs base mf size off => wide vs mf (ea s base off) (sizeOf size)
  | .vsts vs base stride mf => lanes vs mf (strided (s.getS base) (s.getS stride))
  | .vsct vs base vi mf => lanes vs mf (indexed (s.getS base) (s.getV vi))
  | _ => none
where
  /-- A scalar store of `n` bytes. -/
  scalar (rs : SReg) (mf : MemFields) (va : Word) (n : Nat) : Option StoreForm :=
    some ⟨mf, n, [va], (List.range n).map fun i => (va + BitVec.ofNat 64 i, (s.getS rs).extractLsb' (8 * i) 8)⟩
  /-- A store of the low `n` bytes of a vector register. -/
  wide (vs : VReg) (mf : MemFields) (va : Word) (n : Nat) : Option StoreForm :=
    some ⟨mf, 4, [va], (List.range n).map fun i => (va + BitVec.ofNat 64 i, (s.getV vs).extractLsb' (8 * i) 8)⟩
  /-- A store of 4-byte lanes. -/
  lanes (vs : VReg) (mf : MemFields) (l : List (Nat × Word)) : Option StoreForm :=
    some ⟨mf, 4, l.map (·.2), (laneBytes l).map fun x => (x.2, (s.getV vs).extractLsb' (8 * x.1) 8)⟩

/-- Every address is a multiple of `n`. -/
def Aligned (n : Nat) (vas : List Word) : Prop := ∀ a ∈ vas, a.toNat % n = 0

/-- The last byte that a list of places and bytes puts at a place. -/
def newest (ws : List (Place × Byte)) (pl : Place) : Option Byte := (ws.reverse.find? fun w => w.1 == pl).map (·.2)

/-- The same, of bytes as an access finds them. -/
def lastAt (ws : List (Loc × Byte)) (pl : Place) : Option Byte := newest (ws.map fun w => (w.1.place, w.2)) pl

/-- What an atomic does (R171, R172): its address, its scope and hint, whether it is 8 bytes wide, the scalar that receives the old value, and
the new value of the old. -/
structure AtomForm where
  va   : Word
  sc   : Scope
  ev   : Evict
  wide : Bool
  dest : Option SReg
  new  : Nat → Nat

/-- The low bits of an operand. -/
def opnd (wide : Bool) (x : Word) : Nat := if wide then x.toNat else x.toNat % 2 ^ 32

/-- The signed integer of the low bits. -/
def opInt (wide : Bool) (x : Nat) : Int := if wide then signedLow 64 x else signedLow 32 x

/-- What R171 and R172 give an atomic or a reduction. -/
def atomForm (s : State) : Instr → Option AtomForm
  | .aadd rd base rb sc ev wide off => ret rd base sc ev wide off fun o => o + opnd wide (s.getS rb)
  | .aand rd base rb sc ev wide off => ret rd base sc ev wide off fun o => o &&& opnd wide (s.getS rb)
  | .aor rd base rb sc ev wide off => ret rd base sc ev wide off fun o => o ||| opnd wide (s.getS rb)
  | .axor rd base rb sc ev wide off => ret rd base sc ev wide off fun o => o ^^^ opnd wide (s.getS rb)
  | .amin rd base rb sc ev wide off => ret rd base sc ev wide off fun o =>
      if opInt wide o ≤ opInt wide (opnd wide (s.getS rb)) then o else opnd wide (s.getS rb)
  | .amax rd base rb sc ev wide off => ret rd base sc ev wide off fun o =>
      if opInt wide (opnd wide (s.getS rb)) ≤ opInt wide o then o else opnd wide (s.getS rb)
  | .aminu rd base rb sc ev wide off => ret rd base sc ev wide off fun o => Nat.min o (opnd wide (s.getS rb))
  | .amaxu rd base rb sc ev wide off => ret rd base sc ev wide off fun o => Nat.max o (opnd wide (s.getS rb))
  | .aswp rd base rb sc ev wide off => ret rd base sc ev wide off fun _ => opnd wide (s.getS rb)
  | .acas rd base rb rc sc ev wide off => ret rd base sc ev wide off fun o =>
      if o = opnd wide (s.getS rc) then opnd wide (s.getS rb) else o
  | .radd base rb sc ev wide off => some ⟨ea s base off, sc, ev, wide, none, fun o => o + opnd wide (s.getS rb)⟩
  | .rfadd base rb sc ev off => some ⟨ea s base off, sc, ev, false, none, fun o => addF32 o (opnd false (s.getS rb))⟩
  | .rmin base rb sc ev wide off => some ⟨ea s base off, sc, ev, wide, none, fun o =>
      if opInt wide o ≤ opInt wide (opnd wide (s.getS rb)) then o else opnd wide (s.getS rb)⟩
  | .rmax base rb sc ev wide off => some ⟨ea s base off, sc, ev, wide, none, fun o =>
      if opInt wide (opnd wide (s.getS rb)) ≤ opInt wide o then o else opnd wide (s.getS rb)⟩
  | _ => none
where
  /-- A returning atomic. -/
  ret (rd base : SReg) (sc : Scope) (ev : Evict) (wide : Bool) (off : BitVec 18) (f : Nat → Nat) : Option AtomForm :=
    some ⟨ea s base off, sc, ev, wide, some rd, f⟩

end Says

namespace Says

/-- The executing cluster may put an access off (R183; assumption entry 3): a free choice has the syllable's accesses late, the
bytes lie in device memory, host memory or a scratchpad, in no stash entry of an SC page, in sectors that are sound in every
copy, and no copy or gather command, no row under self-test holds them; and no piece of another core has to be seen by a
read. -/
structure PutOff (s : State) (kind : AccKind) (acc : Accept) (vas : List Word) (ls : List Loc) : Prop where
  late    : s.actor.late = true
  passes  : s.checkAccess s.agentHere kind acc vas = .ok ls
  place   : ∀ l ∈ ls, (l.stash = none ∨ l.mode ≠ .sc) ∧ ∀ a, l.place ≠ .peer a
  sound   : ∀ l ∈ ls, s.poisonAt s.agentHere l = none ∧ s.soundCopies l.place = true
  free    : s.stall s.agentHere ls = none
  unmet   : kind.writes = false → s.reached ls = false

/-- A byte as an agent of a core sees it in memory itself (R181, R184): through the writes of its own that no other agent sees,
the newest first, and then through the pieces that the core's agents see before others. -/
def seen (s : State) (core : Option CoreId) (own : List Held) (pl : Place) : Byte :=
  (newest ((core.map fun c => (s.core c).posted.flatMap (·.bytes)).getD [] ++
    own.flatMap fun h => match h.write with
      | .store l => l.map fun w => (w.1.place, w.2)
      | .reduce .. => []) pl).getD (s.peek pl)

/-- The L2 has room for `n` more copies (R6). -/
def L2RoomFor (s : State) (n : Nat) : Prop :=
  swf none s.l2 = true ∧ s.l2.length + s.l2Poison.length + n ≤ Config.sliceBytes / 32

/-- The core's L1, and the L2, have room for copies of `n` blocks of up to eight granules (R6, R153). -/
structure RoomFor (s : State) (c : CoreId) (n : Nat) : Prop where
  wf : swf none (s.core c).loc.l1 = true
  l1 : (s.core c).loc.l1.length + (s.poisonedAlone c).length + 8 * n ≤ Config.l1Granules
  l2 : L2RoomFor s (8 * n)

/-- R161, R163 to R166, R216: a load with aligned addresses whose bytes can be read, none of them a peer's or sent by one,
nothing of its cluster standing before it, completes its bundle with one more pending load that holds the bytes read in
their places; no register is written yet. Where no stash mapping covers a byte, and each lives in memory itself or the caches
have room for copies of the blocks read, no special register and no byte of memory changes. A load whose bundle has been counted
as late is not counted again (R220). That the bytes are kept until the later step that writes the register is assumption entry
6. -/
def LoadsBecomePending : Prop :=
  ∀ i s f s1 bytes, Prompt s → loadForm s i = some f → Aligned f.align f.heads →
    s.load s.agentHere .any f.mf.ev (f.slots.map (·.2)) = .ok s1 bytes [] →
    (∀ x ∈ f.slots, sget none s.me.fetched x.2.toNat = none) →
    ∃ (t : State) (l : PendingLoad), exec i s = .next t ∧
      MemResult s t 0 0 (s.me.pending ++ [l]) [] ∧ l.dest = f.dest ∧ l.unread = [] ∧
      l.kind = (if s.me.counted then .resumed else .load) ∧
      (∀ k, k < f.slots.length → (l.raw.extractLsb' (8 * (f.slots.getD k (0, 0)).1) 8 : Byte) = bytes.getD k 0) ∧
      ((∀ ls, s.checkAccess s.agentHere .read .any (f.slots.map (·.2)) = .ok ls →
          (∀ l ∈ ls, l.stash = none) ∧ ((∀ l ∈ ls, l.mode ≠ .sc) ∨ RoomFor s s.actor.core ls.length)) →
        SameBytes s t ∧ ∀ c, (t.core c).getSr srPurectl = (s.core c).getSr srPurectl)

/-- R183: a load that is put off, no write of its core standing before it, becomes pending with its pieces unread, each byte with
its place in the register; no byte of memory changes. A scalar load is one piece, and a piece of a vector load is 4 to 16 bytes
in whole words (R160). Sequentially consistent loads are not put off. -/
def LoadsMayBePutOff : Prop :=
  ∀ i s f ls, loadForm s i = some f → Aligned f.align f.heads → f.mf.od ≠ .sc → s.me.held = [] → s.here.posted = [] →
    PutOff s .read .any (f.slots.map (·.2)) ls →
    ∃ (t : State) (l : PendingLoad), exec i s = .next t ∧
      MemResult s t 0 0 (s.me.pending ++ [l]) s.me.held ∧ SameBytes s t ∧ l.dest = f.dest ∧ l.scope = f.mf.sc ∧
      l.od = f.mf.od ∧ l.ord = s.free ∧ l.kind = (if s.me.counted then .resumed else .load) ∧
      l.unread.flatMap (·.2) = (f.slots.map (·.1)).zip ls ∧
      (∀ rd n sg, f.dest = .scalar rd n sg → l.unread.length = 1) ∧
      ∀ vd lanes, f.dest = .vector vd lanes → ∀ u ∈ l.unread, u.2.length % 4 = 0 ∧ 4 ≤ u.2.length ∧ u.2.length ≤ 16

/-- R153, R161, R181, R184: a read whose bytes pass the checks and live in memory itself, none of them poisoned, none that it
has to wait for, gives memory's bytes, but those that the reading cluster has written and no other agent sees, and those that
an agent of its core has written and only its core sees. -/
def ReadsGiveMemory : Prop :=
  ∀ (s : State) (ag : Agent) (acc : Accept) (ev : Evict) (vas : List Word) (ls : List Loc),
    s.checkAccess ag .read acc vas = .ok ls → (∀ l ∈ ls, InPlace l) →
    (∀ l ∈ ls, s.poisonAt ag l = none) → s.stall ag ls = none → s.entangled = false →
    ∃ s1, s.load ag acc ev vas = .ok s1 (ls.map fun l => seen s ag.core (s.ownHeld ag) l.place) [] ∧ SameBytes s s1

end Says

/-- R153, R160, R161, R163 to R166, R181 to R184, R216: loads, performed at once or put off, and what a read returns. -/
def Obligations.Loads : Prop := Says.LoadsBecomePending ∧ Says.LoadsMayBePutOff ∧ Says.ReadsGiveMemory

namespace Says

/-- Byte `k` of a vector register. -/
def byteOf (v : Vec) (k : Nat) : Byte := v.extractLsb' (8 * k) 8

/-- The vector register whose byte `k` is `g k`. -/
def ofBytes (g : Nat → Byte) : Vec := BitVec.ofNat 2048 (leNat ((List.range 256).map g))

/-- A pending load of a cluster with its unread pieces read now, in memory itself: each byte as the cluster sees it through its
stores before the load in program order (R181, R183). -/
def readNow (s : State) (c : CoreId) (x : Cluster) (l : PendingLoad) : PendingLoad :=
  { l with
    raw := ofBytes fun k => (((l.unread.flatMap (·.2)).find? (·.1 == k)).map fun y =>
      seen s (some c) ((s.cl c x).held.filter (·.ord < l.ord)) y.2.place).getD (byteOf l.raw k)
    unread := [] }

/-- A result that has been written in part: the lanes or bits that `land` leaves (R217). -/
def leftOf (land : BitVec 64) (l : PendingLoad) : Option PendingLoad :=
  match l.dest with
  | .vector vd ls => if ls &&& ~~~land = 0 then none else some { l with dest := .vector vd (ls &&& ~~~land) }
  | .mask md bs => if bs &&& ~~~land = 0 then none else some { l with dest := .mask md (bs &&& ~~~land) }
  | _ => none

/-- The bits of `l` where it covers them, of `old` elsewhere. -/
def mixed (lanes new old : BitVec 64) : BitVec 64 := ofBits fun i => if lanes.getLsbD i then new.getLsbD i else old.getLsbD i

/-- What the completion of a result leaves as it was: the cluster's predicates, pc, loops and sequence; every other cluster
and core; memory; the core's engines, local memory and context; and every special register but %flmode, where a load of
fixed-latency mode may count as late (R220; assumption entry 16). A cluster that waited for a register goes on, unless its core
has stopped. `touched` counts what accesses bring to the memory controllers (R359). -/
structure Landed (s t : State) (c : CoreId) (x : Cluster) (l : PendingLoad) : Prop where
  cluster  : { t.cl c x with
    s := (s.cl c x).s, pending := (s.cl c x).pending, temps := (s.cl c x).temps, status := (s.cl c x).status } = s.cl c x
  status   : (t.cl c x).status = if (s.core c).movable x = true ∧ (s.cl c x).status = .waiting .load then .running
    else (s.cl c x).status
  clusters : ∀ y, y ≠ x → t.cl c y = s.cl c y
  cores    : ∀ d, d ≠ c → t.core d = s.core d
  special  : ∀ n, n ≠ srFlmode → (t.core c).getSr n = (s.core c).getSr n
  late     : (t.core c).getSr srFlmode = (s.core c).getSr srFlmode ∨
    l.kind = .load ∧ CountedLate ((s.core c).getSr srFlmode) ((t.core c).getSr srFlmode)
  others   : (t.core c).eng = (s.core c).eng ∧ (t.core c).loc = (s.core c).loc ∧ (t.core c).ctx = (s.core c).ctx ∧
    (t.core c).phase = (s.core c).phase
  rest     : { t with cores := s.cores, touched := s.touched } = s

end Says

/-- R106, R164, R165, R216, R217: when a result is written, the older loads of its cluster have been read, and it too, all from
memory itself. A
scalar holds the bytes extended as the instruction does; a vector register, a temporary or a mask holds the result in those
lanes or bits that it names and that are written now, and the others stay pending. No other register, lane or byte of memory
changes. Which result is written, that a load's register is written at a later step, and which lanes are written together
are free choices (assumption entries 3, 4 and 6). -/
def Obligations.LoadCompletionWritesTheDestination : Prop :=
  ∀ (s : State) (n : Nat) (c : CoreId) (x : Cluster) (i : Nat) (l : PendingLoad), n = c.val →
    (s.core c).completes = true → i = Config.choice s.free % (s.cl c x).pending.length →
    (s.cl c x).pending[i]? = some l →
    (∀ p ∈ (s.cl c x).pending, ((p.unread.flatMap (·.2)).map (·.1)).Nodup) →
    (∀ p ∈ (s.cl c x).pending, ∀ u ∈ p.unread, ∀ y ∈ u.2, y.2.mode ≠ .sc) →
    let land := Config.landing s.free
    let r := Says.readNow s c x l
    ∃ t, exec (.loadCompletion n x) s = .next t ∧ Says.SameBytes s t ∧ Says.Landed s t c x l ∧
      (let after := (s.cl c x).pending.map fun p => if p.ord ≤ l.ord then Says.readNow s c x p else p
       (t.cl c x).pending = match Says.leftOf land r with
        | none => after.eraseIdx i
        | some q => after.set i q) ∧
      (∀ rd bytes signed, l.dest = .scalar rd bytes signed → 1 ≤ bytes → bytes ≤ 8 →
        (∀ y, (t.cl c x).getS y = if y = rd ∧ rd ≠ 0 then
          (if signed then BitVec.ofInt 64 (Says.signedLow (8 * bytes) r.raw.toNat)
            else BitVec.ofNat 64 (r.raw.toNat % 2 ^ (8 * bytes))) else (s.cl c x).getS y) ∧
        (t.cl c x).temps = (s.cl c x).temps ∧ (t.core c).regs = (s.core c).regs) ∧
      (∀ vd lanes, l.dest = .vector vd lanes → vd.toNat < 1536 →
        (∀ k, k < 64 → elem ((t.core c).getV vd) 32 k =
          if (lanes &&& land).getLsbD k then elem r.raw 32 k else elem ((s.core c).getV vd) 32 k) ∧
        (∀ v, v ≠ vd → (t.core c).getV v = (s.core c).getV v) ∧ (∀ m, (t.core c).getM m = (s.core c).getM m) ∧
        (∀ y, (t.cl c x).getS y = (s.cl c x).getS y) ∧ (t.cl c x).temps = (s.cl c x).temps) ∧
      (∀ h lanes, l.dest = .temp h lanes →
        (∀ k, k < 64 → elem (tget 0 (t.cl c x).temps h.toNat) 32 k =
          if lanes.getLsbD k then elem r.raw 32 k else elem (tget 0 (s.cl c x).temps h.toNat) 32 k) ∧
        (∀ g : BitVec 4, g ≠ h → tget 0 (t.cl c x).temps g.toNat = tget 0 (s.cl c x).temps g.toNat) ∧
        (∀ y, (t.cl c x).getS y = (s.cl c x).getS y) ∧ (t.core c).regs = (s.core c).regs) ∧
      (∀ md bits, l.dest = .mask md bits → md ≠ 0 →
        (t.core c).getM md = Says.mixed (bits &&& land) (r.raw.setWidth 64) ((s.core c).getM md) ∧
        (∀ m, m ≠ md → (t.core c).getM m = (s.core c).getM m) ∧ (∀ v, (t.core c).getV v = (s.core c).getV v) ∧
        (∀ y, (t.cl c x).getS y = (s.cl c x).getS y) ∧ (t.cl c x).temps = (s.cl c x).temps)

namespace Says

/-- R161 to R166: a store with aligned addresses that pass the checks, its bytes in memory itself and none that it has to wait
for, nothing of its cluster standing before it, and, of a release, no store of its core at a peer, completes. Each place stored
to holds the last byte that the instruction puts there (the low bytes of the register, lane by lane); every other byte of memory
reads as before, and no register changes. -/
def StoresWriteTheirBytes : Prop :=
  ∀ i s f ls, Canonical s → Prompt s → storeForm s i = some f → Aligned f.align f.heads →
    s.checkAccess s.agentHere .write .any (f.bytes.map (·.1)) = .ok ls → (∀ l ∈ ls, InPlace l) →
    s.stall s.agentHere ls = none → (f.mf.od ≠ .relaxed → s.storesOut s.actor.core = false) →
    ∃ t, exec i s = .next t ∧ MemDone s t ∧
      ∀ pl, t.peek pl = (lastAt (ls.zip (f.bytes.map (·.2))) pl).getD (s.peek pl)

/-- Of several writes at one address the last alone (R166). -/
def lasts : List (Word × Loc × Byte) → List (Word × Loc × Byte)
  | [] => []
  | w :: r => if r.any (·.1 == w.1) then lasts r else w :: lasts r

/-- R160, R166, R183, R184: a store that is put off, of a release no store of its core being at a peer, changes no byte of
memory; the cluster holds its pieces, which between them hold its bytes at their places in order, of several at one address the
last; a sequentially consistent store is one piece. -/
def StoresMayBeHeld : Prop :=
  ∀ i s f ls, storeForm s i = some f → Aligned f.align f.heads → (f.mf.od ≠ .relaxed → s.storesOut s.actor.core = false) →
    PutOff s .write .any (f.bytes.map (·.1)) ls →
    ∃ (t : State) (hs : List Held), exec i s = .next t ∧ MemResult s t 0 0 s.me.pending (s.me.held ++ hs) ∧
      SameBytes s t ∧ (hs.flatMap fun h => match h.write with
        | .store l => l
        | .reduce .. => []) = (lasts ((f.bytes.map (·.1)).zip (ls.zip (f.bytes.map (·.2))))).map (·.2) ∧
      (∀ h ∈ hs, h.scope = f.mf.sc ∧ h.od = f.mf.od ∧ h.ev = f.mf.ev ∧ h.ord = s.free ∧ ∃ l, h.write = .store l) ∧
      (f.mf.od = .sc → hs.length ≤ 1)

/-- Bytes that a cluster has written are in its core's L1, dirty (R153, R197). -/
def KeptInL1 (t : State) (ag : Agent) (c : CoreId) (ws : List (Loc × Byte)) : Prop :=
  ∀ w ∈ ws, ∃ key k x, lineOf ag w.1 = some (c, key, k) ∧ t.line c key = some x ∧ x.dirty.getLsbD k = true ∧
    some (x.data.extractLsb' (8 * k) 8 : Byte) = lastAt ws w.1.place

/-- A byte of a software-coherent page of this device or the host, which no stash mapping covers. -/
def OnScPage (l : Loc) : Prop := l.stash = none ∧ l.mode = .sc ∧ ∃ a, a < 2 ^ 53 ∧ (l.place = .hbm a ∨ l.place = .host a)

/-- R153, R197: a store by a cluster to software-coherent pages of this device or the host, without the no-allocate hint,
changes no byte of memory: each granule that it touches is held by the core's L1, with the bytes stored dirty in it. The caches
have room for them (R153). -/
def SoftwareCoherentStoresStayInTheL1 : Prop :=
  ∀ i s f ls, Prompt s → RoomFor s s.actor.core ls.length → storeForm s i = some f → Aligned f.align f.heads →
    f.mf.ev ≠ .noAlloc → s.checkAccess s.agentHere .write .any (f.bytes.map (·.1)) = .ok ls →
    s.stall s.agentHere ls = none → (f.mf.od ≠ .relaxed → s.storesOut s.actor.core = false) → (∀ l ∈ ls, OnScPage l) →
    ∃ t, exec i s = .next t ∧ MemDone s t ∧ SameBytes s t ∧
      KeptInL1 t s.agentHere s.actor.core (ls.zip (f.bytes.map (·.2)))

end Says

/-- R153, R160 to R166, R183, R184, R197: stores, performed at once, held, or kept in the L1. -/
def Obligations.Stores : Prop :=
  Says.StoresWriteTheirBytes ∧ Says.StoresMayBeHeld ∧ Says.SoftwareCoherentStoresStayInTheL1

namespace Says

/-- R161, R162, R170 to R172: an atomic or reduction outside a pure task, aligned to its width, its bytes at places that
it accepts and in memory itself, nothing of its cluster standing before it, completes. The new value of the table of R171
or R172, of the old value in memory and the operands, is written in one piece; a returning atomic's s[rd] receives the old
value, zero-extended; every other byte and register is as before. Before a returning atomic its core's stores at peers have been
answered (R188). -/
def AtomicsReadAndWrite : Prop :=
  ∀ i s f ls, Canonical s → Prompt s → s.here.isPure = false → atomForm s i = some f →
    let n := if f.wide then 8 else 4
    Aligned n [f.va] → s.checkAccess s.agentHere .atomic .atomics (span f.va n) = .ok ls →
    (∀ l ∈ ls, InPlace l) → (∀ l ∈ ls, f.dest.isSome = true → s.poisonAt s.agentHere l = none) →
    s.stall s.agentHere ls = none → (f.dest.isSome = true → s.storesOut s.actor.core = false) →
    let old := leNat (ls.map fun l => s.peek l.place)
    ∃ t, exec i s = .next t ∧ MemResult s t (f.dest.getD 0) (BitVec.ofNat 64 old) s.me.pending [] ∧
      ∀ pl, t.peek pl = (lastAt (ls.zip (leBytes n (f.new old))) pl).getD (s.peek pl)

/-- R172, R190: a reduction that is put off changes no byte of memory; the cluster holds it, with the function of the
old value that its form has. -/
def ReductionsMayBeHeld : Prop :=
  ∀ i s f ls, s.here.isPure = false → atomForm s i = some f → f.dest = none →
    let n := if f.wide then 8 else 4
    Aligned n [f.va] → PutOff s .atomic .atomics (span f.va n) ls →
    ∃ (t : State) (op : Reduction) (b : Nat), exec i s = .next t ∧
      MemResult s t 0 0 s.me.pending
        (s.me.held ++ [⟨s.free, f.sc, .relaxed, f.ev, f.va, .reduce op (ls.map (·.place)) b⟩]) ∧
      SameBytes s t ∧ ∀ old, old < 2 ^ (8 * n) → op.apply f.wide old b = f.new old

/-- R173: VREDM outside a pure task, with aligned lanes that pass the checks and lie in device memory itself, nothing of
its cluster standing before it, completes; each word of memory becomes the sum of its old value and of the lanes that
address it, added in ascending lane order as RFADD does; every byte outside those words is as before, and no register
changes. -/
def VredmAddsItsLanes : Prop :=
  ∀ (s : State) (vs vi : VReg) (base : SReg) (sc : Scope) (ev : Evict) (at_ : Nat → Nat),
    Canonical s → Prompt s → s.here.isPure = false →
    let lanes := indexed (s.getS base) (s.getV vi)
    Aligned 4 (lanes.map (·.2)) →
    (∀ k, at_ k % 4 = 0) →
    s.checkAccess s.agentHere .atomic .atomics ((laneBytes lanes).map (·.2)) =
      .ok (lanes.flatMap fun l => (List.range 4).map fun b => ⟨.hbm (at_ l.1 + b), .hc, none⟩) →
    s.stall s.agentHere (lanes.flatMap fun l => (List.range 4).map fun b => ⟨.hbm (at_ l.1 + b), .hc, none⟩) = none →
    ∃ t, exec (.vredm vs base vi sc ev) s = .next t ∧ MemDone s t ∧
      (∀ a, a % 4 = 0 → leNat (rdBytes t.mem a 4) =
        (lanes.filter fun l => at_ l.1 == a).foldl (fun old l => addF32 old (ln (s.getV vs) l.1) % 2 ^ 32)
          (leNat (rdBytes s.mem a 4))) ∧
      ∀ pl, (∀ a, pl ≠ .hbm a) → t.peek pl = s.peek pl

/-- R173, R190: the lanes of a VREDM that is put off are reductions that the cluster holds, one of each lane. -/
def VredmMayBeHeld : Prop :=
  ∀ (s : State) (vs vi : VReg) (base : SReg) (sc : Scope) (ev : Evict) (at_ : Nat → Nat),
    s.here.isPure = false →
    let lanes := indexed (s.getS base) (s.getV vi)
    Aligned 4 (lanes.map (·.2)) →
    PutOff s .atomic .atomics ((laneBytes lanes).map (·.2))
      (lanes.flatMap fun l => (List.range 4).map fun b => ⟨.hbm (at_ l.1 + b), .hc, none⟩) →
    ∃ t, exec (.vredm vs base vi sc ev) s = .next t ∧ SameBytes s t ∧
      MemResult s t 0 0 s.me.pending (s.me.held ++ lanes.map fun l =>
        ⟨s.free, sc, .relaxed, ev, l.2, .reduce .fadd ((List.range 4).map fun b => .hbm (at_ l.1 + b)) (ln (s.getV vs) l.1)⟩)

/-- R174: ROFADD outside a pure task, aligned to 8 bytes, at a pair in this device's memory that it accepts, nothing of its
cluster standing before it, completes with its message on its way to the pair's home slice; no byte of memory and no register
changes. -/
def RofaddSendsItsMessage : Prop :=
  ∀ (s : State) (base rb rc : SReg) (sc : Scope) (ev : Evict) (off : BitVec 18) (ls : List Loc) (l : Loc) (pa : Nat),
    Settled s → s.here.isPure = false → (ea s base off).toNat % 8 = 0 →
    s.checkAccess s.agentHere .atomic .ordered (span (ea s base off) 8) = .ok (l :: ls) → l.place = .hbm pa → s.stall s.agentHere (l :: ls) = none →
    ∃ (t : State) (m : RofMsg), exec (.rofadd base rb rc sc ev off) s = .next t ∧
      MemDone s t ∧ SameBytes s t ∧ t.rofSent = s.rofSent ++ [m] ∧ m.pair = pa ∧
      m.num = (s.getS rc).setWidth 32 ∧ m.val = (s.getS rb).setWidth 32 ∧ m.core = some s.actor.core ∧
      m.cl = s.actor.cl ∧ m.va = ea s base off ∧ m.refused = false

end Says

/-- R160 to R162, R170 to R174, R190: atomics and reductions, performed at once, held, by lane or in order. -/
def Obligations.AtomicsAndReductions : Prop :=
  Says.AtomicsReadAndWrite ∧ Says.ReductionsMayBeHeld ∧ Says.VredmAddsItsLanes ∧ Says.VredmMayBeHeld ∧
    Says.RofaddSendsItsMessage

namespace Says

/-- No load of the machine waits to be read. -/
def AllRead (s : State) : Prop := ∀ d, (s.core d).unread = false

/-- R181 to R185: when a held piece of a store is performed, no older piece of its core having to come before it, it is seen by
the agents of its core, and memory is as it was; one that is sequentially consistent, or in the core's own scratchpad, lands in
memory for every agent; and one on an SC page goes into the core's L1 copy (R197). -/
def HeldStoresBecomeSeen : Prop :=
  ∀ (s : State) (c : CoreId) (x : Cluster) (i : Nat) (h : Held) (l : List (Loc × Byte)),
    (s.cl c x).held[i]? = some h → h.write = .store l → AllRead s → s.entangled = false →
    (h.od = .relaxed ∨ (s.core c).posted = []) →
    (∀ q ∈ (s.core c).posted, (q.cl ≠ x ∨ h.ord ≤ q.ord) ∧ q.reach = .core ∧
      ∀ b ∈ q.bytes, ∀ w ∈ l, b.1 ≠ w.1.place) →
    let bytes := l.map fun w => (w.1.place, w.2)
    ∃ t, s.move (.perform c x i) = .next t ∧ (t.cl c x).held = (s.cl c x).held.eraseIdx i ∧
      ((∀ w ∈ l, w.1.mode ≠ .sc) →
        (h.od ≠ .sc → (∃ w ∈ l, ∀ a, w.1.place ≠ .pad c a) → SameBytes s t ∧
          (t.core c).posted = (s.core c).posted ++ [⟨x, h.ord, h.scope, h.od, .core, h.va, bytes⟩]) ∧
        (Canonical s → (∀ w ∈ l, ∀ a, w.1.place ≠ .peer a) → h.od = .sc ∨ (∀ w ∈ l, ∃ a, w.1.place = .pad c a) →
          (t.core c).posted = (s.core c).posted ∧ ∀ pl, t.peek pl = (newest bytes pl).getD (s.peek pl))) ∧
      (l ≠ [] → (∀ w ∈ l, OnScPage w.1) → h.ev ≠ .noAlloc → RoomFor s c l.length →
        SameBytes s t ∧ KeptInL1 t ((s.core c).agent c (.cluster x)) c l)

/-- R183 to R185: a piece that a core's agents see, when its move comes, lands in memory for every agent; the others stay, and
may come to be found landed by agents further away. -/
def SeenPiecesLand : Prop :=
  ∀ (s : State) (c : CoreId) (i : Nat) (p : Posted), Canonical s → (s.core c).posted[i]? = some p → Move.land c i ∈ s.moves →
    AllRead s → s.entangled = false → (∀ q ∈ (s.core c).posted, q.reach = .core) → (∀ w ∈ p.bytes, ∀ a, w.1 ≠ .peer a) →
    ∃ t, s.move (.land c i) = .next t ∧
      ((t.core c).posted.map fun q => { q with reach := .core }) = (s.core c).posted.eraseIdx i ∧
      ∀ pl, t.peek pl = (newest p.bytes pl).getD (s.peek pl)

/-- R172, R190: a held reduction, when its move comes, is applied in one piece to the value that its word has then. -/
def HeldReductionsAreApplied : Prop :=
  ∀ (s : State) (c : CoreId) (x : Cluster) (i : Nat) (h : Held) (op : Reduction) (ps : List Place) (b : Nat),
    Canonical s → (s.cl c x).held[i]? = some h → h.write = .reduce op ps b → (∀ p ∈ ps, ∀ a, p ≠ .peer a) →
    (s.core c).posted = [] → AllRead s → s.entangled = false →
    ∃ t, s.move (.perform c x i) = .next t ∧ (t.cl c x).held = (s.cl c x).held.eraseIdx i ∧
      ∀ pl, t.peek pl =
        (newest (ps.zip (leBytes ps.length (op.apply (ps.length == 8) (leNat (ps.map s.peek)) b))) pl).getD (s.peek pl)

/-- R181 to R184: a piece of a pending load in memory itself, when its move comes, is read whole as its cluster sees it; the
other bytes of the result, the other pieces and memory are as they were. -/
def UnreadPiecesAreRead : Prop :=
  ∀ (s : State) (c : CoreId) (x : Cluster) (i j : Nat) (l : PendingLoad) (u : Word × List (Nat × Loc)),
    (s.cl c x).pending[i]? = some l → l.unread[j]? = some u → Move.read c x i j ∈ s.moves → (u.2.map (·.1)).Nodup →
    (∀ y ∈ u.2, y.2.mode ≠ .sc) →
    ∃ (t : State) (q : PendingLoad), s.move (.read c x i j) = .next t ∧ (t.cl c x).pending[i]? = some q ∧
      q.unread = l.unread.eraseIdx j ∧ q.dest = l.dest ∧ SameBytes s t ∧
      ∀ k, k < 256 → byteOf q.raw k = ((u.2.find? (·.1 == k)).map fun y =>
        seen s (some c) ((s.cl c x).held.filter (·.ord < l.ord)) y.2.place).getD (byteOf l.raw k)

/-- Two lists of places have a byte in common. -/
def Meet (a b : List Place) : Prop := ∃ p, p ∈ a ∧ p ∈ b

/-- The scope reaches beyond one cluster. -/
def wide (sc : Scope) : Prop := sc ≠ .cluster

/-- R181, R183, R190: what of a cluster's accesses a move may not take before older ones: no write before one to a byte of
it, but a reduction before another syllable's; no store before one of an earlier syllable, both wider than the cluster, and
no release wider than it before any; no read before one of a byte of it, and of system scope before an older one or an acquire
of it; and no piece lands outside the core before an older one with its byte, or, both of system scope, of the same
cluster. -/
def OrderIsKept : Prop :=
  ∀ (s : State) (c : CoreId) (x : Cluster) (i j : Nat), j < i →
    (∀ h e, Move.perform c x i ∈ s.moves → (s.cl c x).held[i]? = some h → (s.cl c x).held[j]? = some e → e.ord ≤ h.ord →
      (Meet e.write.places h.write.places → e.write.isStore = false ∧ h.write.isStore = false ∧ e.ord ≠ h.ord) ∧
      (e.write.isStore = true → h.write.isStore = true → e.ord ≠ h.ord →
        ¬ (wide e.scope ∧ wide h.scope) ∧ (h.od = .release ∨ h.od = .sc → ¬ wide h.scope))) ∧
    (∀ k l o v, Move.read c x i k ∈ s.moves → (s.cl c x).pending[i]? = some l → (s.cl c x).pending[j]? = some o →
      l.unread[k]? = some v → ∀ u ∈ o.unread,
      (o.ord ≤ l.ord → ¬ Meet (u.2.map (·.2.place)) (v.2.map (·.2.place))) ∧
      (o.ord < l.ord → o.scope = .system → l.scope ≠ .system ∧ o.od ≠ .acquire ∧ o.od ≠ .sc)) ∧
    ∀ p q, Move.land c i ∈ s.moves → (s.core c).posted[i]? = some p → (s.core c).posted[j]? = some q →
      (q.cl ≠ p.cl ∨ q.ord ≤ p.ord → ¬ Meet (q.bytes.map (·.1)) (p.bytes.map (·.1))) ∧
      (q.cl = p.cl → q.ord < p.ord → ¬ (q.scope = .system ∧ p.scope = .system))

/-- R180, R183, R185: toward the agents within narrower scopes the order is kept as well. Before an agent writes bytes, every
load of another cluster that a later access has passed toward it has read them; and before it accesses bytes, every piece of
another core that it has to find landed is in memory. -/
def PassedAccessesAreFound : Prop :=
  ∀ (s : State) (ag : Agent) (ps : List Place) (d : CoreId),
    (∀ y, ¬ (ag.core = some d ∧ ag.cl = some y) → ∀ l ∈ ((s.beforeWrite ag ps).cl d y).pending, l.passed ≠ .cluster →
      ag.within d l.passed = true → ∀ u ∈ l.unread, ¬ Meet (u.2.map (·.2.place)) ps) ∧
    ∀ p ∈ ((s.landReaching ag ps).core d).posted, p.reachesTo d ag = true → ¬ Meet (p.bytes.map (·.1)) ps

/-- R187, R188: after a MARK or a fence its cluster has no read that is not performed, and but after an acquire fence it
holds no write; its stores that others have still to see are found landed within their own scopes after a MARK, and those
of its core within the fence's scope after a release or sequentially consistent fence. -/
def FencesLeaveNothingBehind : Prop :=
  ∀ (s t : State),
    (exec .mark s = .next t → t.actor.done = true → t.me.held = [] ∧ (∀ p ∈ t.me.pending, p.unread = []) ∧
      ∀ p ∈ t.here.posted, p.cl = s.actor.cl → p.scope.code ≤ p.reach.code) ∧
    ∀ od sc, exec (.fence od sc) s = .next t → t.actor.done = true →
      (∀ p ∈ t.me.pending, p.unread = []) ∧
      (od ≠ .acquire → t.me.held = [] ∧ ∀ p ∈ t.here.posted, sc.code ≤ p.reach.code)

end Says

/-- R181 to R190: accesses that have been put off, when and in what order they may be performed, and what a fence leaves of
them. The moments are free choices (assumption entry 3). -/
def Obligations.LateAccesses : Prop :=
  Says.HeldStoresBecomeSeen ∧ Says.SeenPiecesLand ∧ Says.PassedAccessesAreFound ∧ Says.HeldReductionsAreApplied ∧
    Says.UnreadPiecesAreRead ∧ Says.OrderIsKept ∧ Says.FencesLeaveNothingBehind

/-- R161, R162: the alignment of loads, stores, atomics, reductions and MWAIT: at the first address, the lowest lane's, that
is not a multiple of the width, the instruction faults with MISALIGNED, an atomic outside a pure task with ATOMIC_PAGE, and
MWAIT with MONITOR_PAGE. -/
def Says.AlignmentFaults : Prop :=
  ∀ i s a,
    (∀ f, Says.loadForm s i = some f → (f.heads.find? fun b => b.toNat % f.align ≠ 0) = some a →
      exec i s = s.faultHere .misaligned a) ∧
    (∀ f, Says.storeForm s i = some f → (f.heads.find? fun b => b.toNat % f.align ≠ 0) = some a →
      exec i s = s.faultHere .misaligned a) ∧
    (∀ f, Says.atomForm s i = some f → s.here.isPure = false → f.va.toNat % (if f.wide then 8 else 4) ≠ 0 →
      exec i s = s.faultHere .atomicPage f.va) ∧
    (∀ vs base vi sc ev, i = .vredm vs base vi sc ev → s.here.isPure = false →
      ((Says.indexed (s.getS base) (s.getV vi)).find? fun l => l.2.toNat % 4 ≠ 0).map (·.2) = some a →
      exec i s = s.faultHere .atomicPage a) ∧
    (∀ base rb rc sc ev off, i = .rofadd base rb rc sc ev off → s.here.isPure = false →
      (Says.ea s base off).toNat % 8 ≠ 0 → exec i s = s.faultHere .atomicPage (Says.ea s base off)) ∧
    ∀ rd base rb sc ev wide off, i = .mwait rd base rb sc ev wide off → s.here.isPure = false →
      (Says.ea s base off).toNat % (if wide then 8 else 4) ≠ 0 →
      exec i s = s.faultHere .monitorPage (Says.ea s base off)

/-- R161: the checks of an access over its bytes, in their order: the first check that fails is reported, at its lowest
byte. Steps 2 to 4 come before the pure task's of step 5, those before translation, and that before the stash rules. -/
def Says.AccessCheckOrder : Prop :=
  ∀ (s : State) (ag : Agent) (kind : AccKind) (acc : Accept) (pre : List Word) (va : Word) (post : List Word),
    let vas := pre ++ va :: post
    (regionOf va = .nonCanonical → (∀ b ∈ pre, regionOf b ≠ .nonCanonical) →
      s.checkAccess ag kind acc vas = .error (.fault kind.xlate va)) ∧
    ((∀ b ∈ vas, regionOf b ≠ .nonCanonical) → ag.user = true → regionOf va = .supervisor →
      (∀ b ∈ pre, regionOf b ≠ .supervisor) → s.checkAccess ag kind acc vas = .error (.fault .permission va)) ∧
    ((∀ b ∈ vas, regionOf b ≠ .nonCanonical) → (∀ b ∈ vas, ag.user = true → regionOf b ≠ .supervisor) →
      regionOf va = .noWindow → (∀ b ∈ pre, s.checkWindow ag kind b = none) →
      s.checkAccess ag kind acc vas = .error (.fault .scratchpadBounds va)) ∧
    (∀ e, (∀ b ∈ vas, checkCanonical kind b = none ∧ checkHalf ag b = none ∧ s.checkWindow ag kind b = none) →
      s.checkPure ag kind va = some e → (∀ b ∈ pre, s.checkPure ag kind b = none) →
      s.checkAccess ag kind acc vas = .error e) ∧
    (∀ e, (∀ b ∈ vas, checkCanonical kind b = none ∧ checkHalf ag b = none ∧ s.checkWindow ag kind b = none ∧
        s.checkPure ag kind b = none) →
      s.locate ag kind acc va = .error e → (∀ b ∈ pre, ∃ l, s.locate ag kind acc b = .ok l) →
      s.checkAccess ag kind acc vas = .error e) ∧
    ∀ pls l pols e, (∀ b ∈ vas, checkCanonical kind b = none ∧ checkHalf ag b = none ∧ s.checkWindow ag kind b = none ∧
        s.checkPure ag kind b = none) →
      s.locateAll ag kind acc vas = .ok (pls ++ l :: pols) → pls.length = pre.length →
      s.stashErr ag (va, l) = some e → (∀ x ∈ pre.zip pls, s.stashErr ag x = none) →
      s.checkAccess ag kind acc vas = .error e

/-- R161 step 5, R294: what a pure task's access to one byte of translated memory must meet: a write its write ranges, and a
read its read ranges. -/
def Says.PureStep : Prop :=
  ∀ (s : State) (ag : Agent) (kind : AccKind) (va : Word) (rs ws : List VRange), ag.pure = some (rs, ws) →
    (regionOf va = .translated ∨ regionOf va = .supervisor) →
    let covers (l : List VRange) : Prop := ∃ r ∈ l, (va - r.base).toNat < r.size
    (kind.writes = true → ¬ covers ws → s.checkPure ag kind va = some (.fault .pureWrite va)) ∧
    ((kind.writes = true → covers ws) → kind.reads = true → ¬ covers rs →
      s.checkPure ag kind va = some (.fault .pureRead va)) ∧
    ((kind.writes = true → covers ws) → (kind.reads = true → covers rs) → s.checkPure ag kind va = none)

/-- The fault of a target that an instruction does not accept (R161 step 6, R170, R288). -/
def Says.refusal : Accept → Cause
  | .monitor => .monitorPage
  | .barrier => .barrierObject
  | .any => .permission
  | _ => .atomicPage

/-- R161 step 6, R170, R355, R356: what translation makes of one byte of translated memory, in order: no valid
translation; a denied permission of the leaf entry; a non-secure access to a secure byte; a core-private page of another
core; and a page that the instruction does not accept. -/
def Says.TranslationStep : Prop :=
  ∀ (s : State) (ag : Agent) (kind : AccKind) (acc : Accept) (va : Word),
    (regionOf va = .translated ∨ regionOf va = .supervisor) →
    (∀ e, s.leaf ag kind va = .error e → s.locate ag kind acc va = .error e) ∧
    ∀ (e : Word) (level : Nat), s.leaf ag kind va = .ok (e, level) →
      let p := s.polder ag.polder
      let size := if level = 1 then 2 ^ 30 else if level = 2 then 2 ^ 21 else 2 ^ 16
      let a := e.toNat / 2 ^ 16 % 2 ^ 36 * 2 ^ 16 + va.toNat % size
      let device : Prop := e.toNat / 2 ^ 8 % 4 = 0
      let bad (c : Cause) : Prop := s.locate ag kind acc va = .error (.fault c va)
      let denied : Prop := (ag.user = true ∧ e.getLsbD 5 = false) ∨ (kind.reads = true ∧ e.getLsbD 2 = false) ∨
        (kind.writes = true ∧ (e.getLsbD 3 = false ∨ e.getLsbD 4 = true)) ∨ (kind = .fetch ∧ e.getLsbD 4 = false) ∨
        (device ∧ p.inRange a = false)
      let alien : Prop := device ∧ s.isSecure a = true ∧ ag.secure = false
      let others : Prop := e.toNat / 2 ^ 6 % 4 = 2 ∧ (ag.core.map fun c => p.numberOf c) ≠ some (e.toNat / 2 ^ 56)
      (denied → bad .permission) ∧ (¬ denied → alien → bad .worldViolation) ∧
      (¬ denied → ¬ alien → others → bad .coherenceMode) ∧
      (¬ denied → ¬ alien → ¬ others → (device → a < Config.hbmBytes) → e.toNat / 2 ^ 6 % 4 ≤ 2 →
        e.toNat / 2 ^ 8 % 4 ≤ 2 →
        (e.toNat / 2 ^ 8 % 4 = 1 ∨ e.toNat / 2 ^ 6 % 4 = 1 → acc ≠ .any → bad (Says.refusal acc)) ∧
        (acc = .any → ∃ l, s.locate ag kind acc va = .ok l ∧ l.stash = none ∧
          (device → l.place = .hbm a) ∧ (e.toNat / 2 ^ 8 % 4 = 1 → l.place = .host a) ∧
          (e.toNat / 2 ^ 6 % 4 = 0 → l.mode = .hc) ∧ (e.toNat / 2 ^ 6 % 4 = 1 → l.mode = .sc) ∧
          (e.toNat / 2 ^ 6 % 4 = 2 → l.mode = .cp)))

/-- R157, R161 step 7: a stash access to a host- or peer-backed page faults with PERMISSION at its mapped address, and an
access to a mapped region through another core's window with SCRATCHPAD_BOUNDS. -/
def Says.StashStep : Prop :=
  ∀ (s : State) (ag : Agent) (va : Word) (l : Loc),
    (∀ g m, s.stashOf ag va = some (g, m) → l.stash = some m → (∃ a, l.place = .host a ∨ l.place = .peer a) →
      s.stashErr ag (va, l) = some (.fault .permission g)) ∧
    ∀ c off m, l.stash = none → l.place = .pad c off → ag.core ≠ some c → (s.core c).stashAt off = some m →
      s.stashErr ag (va, l) = some (.fault .scratchpadBounds va)

/-- R161 step 8, R330: a read whose checks pass and of which a byte's sector is poisoned fails there, at the lowest byte; the
answers of a peer to bytes below it, which may fail first, are awaited before that. -/
def Says.DeliveryStep : Prop :=
  ∀ (s : State) (ag : Agent) (acc : Accept) (ev : Evict) (pre : List Word) (va : Word) (post : List Word)
    (pls : List Loc) (l : Loc) (pols : List Loc) (cause : Cause),
    s.checkAccess ag .read acc (pre ++ va :: post) = .ok (pls ++ l :: pols) → pls.length = pre.length →
    (∀ k ∈ pls ++ [l], k.stash = none) → (∀ k ∈ pls, s.poisonAt ag k = none) → s.poisonAt ag l = some cause →
    ((∀ k ∈ pls, ∀ a, k.place ≠ .peer a) → s.load ag acc ev (pre ++ va :: post) = .err (.fault cause va)) ∧
    ((∃ k ∈ pls, ∃ a, k.place = .peer a) →
      ∃ run runs, s.load ag acc ev (pre ++ va :: post) = .behind (run :: runs) (.fault cause va))

/-- R161, R163: a load, store, atomic, reduction or MWAIT with aligned addresses whose check fails, nothing of its cluster standing
before it, is that fault and nothing else: the exception is taken in the state before it. A release or returning atomic makes
its checks once its core's stores at peers are answered. -/
def Says.FailedChecksAreFaults : Prop :=
  ∀ i s cause va, Says.Settled s →
    (∀ f, Says.loadForm s i = some f → Says.Aligned f.align f.heads →
      s.load s.agentHere .any f.mf.ev (f.slots.map (·.2)) = .err (.fault cause va) → exec i s = s.faultHere cause va) ∧
    (∀ f, Says.storeForm s i = some f → Says.Aligned f.align f.heads →
      (f.mf.od ≠ .relaxed → s.storesOut s.actor.core = false) →
      s.checkAccess s.agentHere .write .any (f.bytes.map (·.1)) = .error (.fault cause va) →
      exec i s = s.faultHere cause va) ∧
    (∀ f, Says.atomForm s i = some f → s.here.isPure = false →
      Says.Aligned (if f.wide then 8 else 4) [f.va] → (f.dest.isSome = true → s.storesOut s.actor.core = false) →
      s.checkAccess s.agentHere .atomic .atomics (Says.span f.va (if f.wide then 8 else 4)) = .error (.fault cause va) →
      exec i s = s.faultHere cause va) ∧
    (s.here.isPure = false →
      (∀ vs base vi sc ev, i = .vredm vs base vi sc ev →
        let lanes := Says.indexed (s.getS base) (s.getV vi)
        Says.Aligned 4 (lanes.map (·.2)) →
        s.checkAccess s.agentHere .atomic .atomics ((Says.laneBytes lanes).map (·.2)) = .error (.fault cause va) →
        exec i s = s.faultHere cause va) ∧
      (∀ base rb rc sc ev off, i = .rofadd base rb rc sc ev off → (Says.ea s base off).toNat % 8 = 0 →
        s.checkAccess s.agentHere .atomic .ordered (Says.span (Says.ea s base off) 8) = .error (.fault cause va) →
        exec i s = s.faultHere cause va) ∧
      ∀ rd base rb sc ev wide off, i = .mwait rd base rb sc ev wide off →
        let n := if wide then 8 else 4
        (Says.ea s base off).toNat % n = 0 →
        s.load s.agentHere .monitor ev (Says.span (Says.ea s base off) n) = .err (.fault cause va) →
        exec i s = s.faultHere cause va)

/-- R161 to R163: what an access must pass before it has any effect, in order, and that one that does not pass is its fault
alone. -/
def Obligations.AccessChecks : Prop :=
  Says.AlignmentFaults ∧ Says.AccessCheckOrder ∧ Says.PureStep ∧ Says.TranslationStep ∧ Says.StashStep ∧
    Says.DeliveryStep ∧ Says.FailedChecksAreFaults

namespace Says

/-- A byte that the L1 copy of a granule holds dirty. -/
def DirtyInL1 (s : State) (key k : Nat) (b : Byte) : Prop :=
  ∃ x, s.line s.actor.core key = some x ∧ x.dirty.getLsbD k = true ∧ b = x.data.extractLsb' (8 * k) 8

/-- A byte that the L2 copy of a granule holds dirty. -/
def DirtyInL2 (s : State) (key k : Nat) (b : Byte) : Prop :=
  ∃ x, s.l2Line key = some x ∧ x.dirty.getLsbD k = true ∧ b = x.data.extractLsb' (8 * k) 8

/-- Where the dirty bytes of a block's copies are after its maintenance: of device memory, or with system scope, in memory; of
host memory otherwise, in the L2. No other byte of memory has changed. -/
structure WrittenBack (s t : State) (keys : List Nat) (far : Bool) : Prop where
  device : ∀ key ∈ keys, ∀ k b, k < 32 → keyOfDevice key = true → DirtyInL1 s key k b → t.peek (linePlace key k) = b
  host   : ∀ key ∈ keys, ∀ k b, k < 32 → keyOfDevice key = false → DirtyInL1 s key k b →
    if far then t.peek (linePlace key k) = b else DirtyInL2 t key k b
  l2     : far = true → ∀ key ∈ keys, ∀ k b, k < 32 → DirtyInL2 s key k b → (∀ c, ¬ DirtyInL1 s key k c) →
    t.peek (linePlace key k) = b
  others : ∀ pl, (∀ key ∈ keys, ∀ k b, k < 32 → pl = linePlace key k →
    (DirtyInL1 s key k b → keyOfDevice key = false ∧ far = false) ∧ (DirtyInL2 s key k b → far = false)) → t.peek pl = s.peek pl

end Says

/-- R169, R197, R198: CWB and CINV, the block passing steps 2 to 4 of R161 and nothing of the cluster standing before it,
complete: of each copy that the context's L1 holds of the block, the dirty bytes reach the point of coherence, which is memory,
or of host memory the L2, and with system scope the host. CWB leaves the copy clean, and CINV leaves no copy. No register
changes. That bytes of device memory reach it whatever the scope is the model's choice (assumption entry 45). -/
def Obligations.CacheMaintenance : Prop :=
  ∀ (s : State) (base : SReg) (sc : Scope) (off : BitVec 24), Says.Canonical s → Says.Settled s →
    swf none (s.here.loc.l1) = true → Says.L2RoomFor s 128 →
    let block := Says.ea s base off &&& ~~~4095
    let keys := s.blockKeys block
    s.checkEarly s.agentHere .write [block] = none →
    ∃ t u, exec (.cwb base sc off) s = .next t ∧ exec (.cinv base sc off) s = .next u ∧
      Says.MemDone s t ∧ Says.MemDone s u ∧
      (∀ key ∈ keys, (∀ x, s.line s.actor.core key = some x → t.line s.actor.core key = some ⟨x.data, 0⟩) ∧
        u.line s.actor.core key = none ∧ (sc = .system → u.l2Line key = none)) ∧
      Says.WrittenBack s t keys (decide (sc = .system)) ∧ Says.WrittenBack s u keys (decide (sc = .system))

namespace Says

/-- The executing core's retention registers on its die. -/
def retained (s : State) : List Retention := (tget Die.reset s.dies (s.actor.core.val / 64)).retention

/-- The machine with other retention registers on that die. -/
def withRetained (s : State) (l : List Retention) : State :=
  { s with dies := tset s.dies (s.actor.core.val / 64) { tget Die.reset s.dies (s.actor.core.val / 64) with retention := l } }

/-- The machine with other stash mappings on the executing core. -/
def withStash (s : State) (l : List StashMap) : State :=
  s.setHere { s.here with loc := { s.here.loc with stash := l } }

/-- The executing cluster's bytes from peers cover none of an access. -/
def Unsent (s : State) (vas : List Word) : Prop := ∀ a ∈ vas, sget none s.me.fetched a.toNat = none

/-- The engines' state but for one stream register, and everything else of the core that clusters share, is as it was. -/
structure OnlyStream (s t : State) (st : StReg) : Prop where
  others  : ∀ n, n ≠ st → t.here.stream n = s.here.stream n
  queues  : t.here.eng.queues = s.here.eng.queues
  accs    : t.here.eng.accs = s.here.eng.accs
  regs    : t.here.regs = s.here.regs
  scalars : ∀ r, t.getS r = s.getS r
  preds   : ∀ p, t.getP p = s.getP p
  pc      : t.me.pc = (loopEnd s.me.pc s.me.loops).1
  loops   : t.me.loops = (loopEnd s.me.pc s.me.loops).2
  running : t.me.status = .running

end Says

/-- R155: RETAIN, its base and size multiples of 64 KiB and its size not zero, completes. With a register of the polder
free on the die and the polder's ways there at most 16 in all, it takes one that is free, and s[rd] receives its number;
otherwise s[rd] receives all ones and nothing else changes. UNPIN completes and frees the polder's register of that
number, if it is live. Neither touches memory. -/
def Says.RetentionRegisters : Prop :=
  ∀ (s : State) (rd ra rb : SReg) (ways : BitVec 5),
    let mine := (Says.retained s).filter fun r => r.polder = s.here.polderNo
    let room := (∃ i, i < 8 ∧ ∀ r ∈ mine, r.index ≠ i) ∧ (mine.map (·.ways)).sum + ways.toNat ≤ 16
    ((s.getS ra).toNat % 65536 = 0 → (s.getS rb).toNat % 65536 = 0 → s.getS rb ≠ 0 →
      (room → ∃ t i, exec (.retain rd ra rb ways) s = .next t ∧ i < 8 ∧ (∀ r ∈ mine, r.index ≠ i) ∧ Says.SameBytes s t ∧
        Says.WroteScalar (Says.withRetained s
          (Says.retained s ++ [⟨s.here.polderNo, i, s.getS ra, s.getS rb, ways.toNat⟩])) t rd (BitVec.ofNat 64 i)) ∧
      (¬ room → ∃ t, exec (.retain rd ra rb ways) s = .next t ∧ Says.WroteScalar s t rd (BitVec.allOnes 64))) ∧
    ((s.getS ra).toNat % 65536 ≠ 0 → exec (.retain rd ra rb ways) s = s.faultHere .misaligned (s.getS ra)) ∧
    (∃ t, exec (.unpin ra) s = .next t ∧ Says.SameBytes s t ∧ Says.Completed (Says.withRetained s
      ((Says.retained s).filter fun r => !(r.polder == s.here.polderNo && r.index == (s.getS ra).toNat))) t)

/-- R156, R157: SMAP that passes its checks adds a mapping with every entry unfilled and clean, and moves no byte. SUNMAP
and SFLUSH with no mapping at the offset have no effect; with one whose dirty entries can be stored at their global
addresses, those stores are made, nothing of the cluster standing before them, and then SUNMAP removes the mapping and SFLUSH makes its entries unfilled. -/
def Says.StashMappings : Prop :=
  ∀ (s : State) (ra rb rc : SReg),
    let off := (s.getS ra).toNat
    let n := (s.getS rc).toNat
    (off % 64 = 0 → (s.getS rb).toNat % 64 = 0 → 1 ≤ n → n ≤ 16384 → off + 64 * n ≤ 0x1FF000 →
      s.here.smapConflict off (s.getS rb) n = none →
      ∃ t, exec (.smap ra rb rc) s = .next t ∧ Says.SameBytes s t ∧
        Says.Completed (Says.withStash s (s.here.loc.stash ++ [⟨off, s.getS rb, n, [], []⟩])) t) ∧
    ((∀ m ∈ s.here.loc.stash, m.off ≠ off) →
      ∃ t u, exec (.sunmap ra) s = .next t ∧ exec (.sflush ra) s = .next u ∧ Says.Completed s t ∧ Says.Completed s u) ∧
    (∀ m s1 b, Says.Prompt s → (s.here.loc.stash.find? fun x => x.off == off) = some m →
      s.store s.agentHere .any .normal (s.here.dirtyBytes m) = .ok s1 b [] →
      ∃ t u, exec (.sunmap ra) s = .next t ∧ exec (.sflush ra) s = .next u ∧ Says.SameBytes s1 t ∧ Says.SameBytes s1 u ∧
        Says.MemDone s t ∧ Says.MemDone s u ∧
        (∀ x ∈ t.here.loc.stash, x.off ≠ off) ∧
        (∀ x ∈ u.here.loc.stash, x.off = off → x.filled = [] ∧ x.dirty = []) ∧
        ∃ x ∈ u.here.loc.stash, x.off = off ∧ x.addr = m.addr ∧ x.count = m.count)

/-- R155 to R157: retention registers and stash mappings. -/
def Obligations.RetentionAndStash : Prop := Says.RetentionRegisters ∧ Says.StashMappings

/-- R177: MWAIT outside a pure task, aligned and at a page that it accepts, nothing of its cluster standing before it. With another value than s[rb]'s low bits, or
its monitor having fired, it completes: s[rd] receives the value, zero-extended, and the cluster's monitor is disarmed.
Otherwise it sleeps, its monitor armed on the 32-byte granule, with no other effect. -/
def Obligations.MwaitReadsArmsAndSleeps : Prop :=
  ∀ (s : State) (rd base rb : SReg) (sc : Scope) (ev : Evict) (wide : Bool) (off : BitVec 18) (ls : List Loc) (s1 : State)
    (bytes : List Byte) (runs : List PeerRun),
    let n := if wide then 8 else 4
    let va := Says.ea s base off
    let done := s.fired s.actor.core s.actor.cl = true ∨ leNat bytes ≠ Says.opnd wide (s.getS rb)
    Says.Settled s → s.here.isPure = false → va.toNat % n = 0 →
    s.checkAccess s.agentHere .read .monitor (Says.span va n) = .ok ls →
    s.load s.agentHere .monitor ev (Says.span va n) = .ok s1 bytes runs → (∀ l ∈ ls, Says.InPlace l) →
    (done → ∃ t, exec (.mwait rd base rb sc ev wide off) s = .next t ∧
      Says.MemResult s t rd (BitVec.ofNat 64 (leNat bytes)) s.me.pending s.me.held ∧ Says.SameBytes s t ∧
      t.monitorOf s.actor.core s.actor.cl = none) ∧
    (¬ done → ∃ t, exec (.mwait rd base rb sc ev wide off) s = .next t ∧ Says.KeepsRegisters s t ∧ Says.SameBytes s t ∧
      t.me = { s.me with status := .waiting .monitor } ∧
      t.monitorOf s.actor.core s.actor.cl = some ⟨s.actor.core, s.actor.cl, granuleOf ls, false⟩)

/-- R287, R288, R289: outside the handler and pure tasks, at an aligned object in memory itself that passes the checks, nothing
of the cluster standing before it, and for BARINIT and BARRIVE no store of its core at a peer. BARINIT
with a count not zero writes the object: the count expected, phase 0, no arrivals. BARRIVE on a valid object that admits
the arrival writes the object that the arrival gives and s[rd] receives its result. BARWAIT on a valid object completes
when the phase is not s[rb]'s bit 0, and otherwise arms the cluster's monitor and sleeps. No other byte of memory
changes. -/
def Says.BarrierObjects : Prop :=
  ∀ (s : State) (rd base rb : SReg) (sc : Scope) (ev : Evict) (off : BitVec 18) (ls : List Loc),
    let va := Says.ea s base off
    let o := barrierOf (ls.map fun l => s.peek l.place)
    let wrote (t : State) (x : BarrierObj) : Prop :=
      ∀ pl, t.peek pl = (Says.lastAt (ls.zip (leBytes 32 x.bytes)) pl).getD (s.peek pl)
    Says.Canonical s → Says.Settled s → s.here.inHandler = false → s.here.isPure = false → va.toNat % 32 = 0 → (∀ l ∈ ls, Says.InPlace l) →
    (∀ l ∈ ls, s.poisonAt s.agentHere l = none) → s.stall s.agentHere ls = none →
    (s.checkAccess s.agentHere .atomic .barrier (Says.span va 32) = .ok ls → s.storesOut s.actor.core = false →
      ((s.getS rb).toNat % 2 ^ 32 ≠ 0 →
        ∃ t, exec (.barinit base rb sc ev off) s = .next t ∧ Says.MemDone s t ∧
          wrote t ⟨(s.getS rb).toNat % 2 ^ 32, 0, 0, 0, 0⟩) ∧
      (∀ o1 r, o.valid = true → o.arrive ((s.getS rb).toNat % 2) = some (o1, r) →
        ∃ t, exec (.barrive rd base rb sc ev off) s = .next t ∧
          Says.MemResult s t rd (BitVec.ofNat 64 r) s.me.pending s.me.held ∧ wrote t o1) ∧
      (o.valid = true → o.arrive ((s.getS rb).toNat % 2) = none →
        exec (.barrive rd base rb sc ev off) s = s.faultHere .barrierOverArrival va) ∧
      (o.valid = false → exec (.barrive rd base rb sc ev off) s = s.faultHere .barrierObject va)) ∧
    (s.checkAccess s.agentHere .read .barrier (Says.span va 32) = .ok ls → o.valid = true →
      (o.phase ≠ (s.getS rb).toNat % 2 →
        ∃ t, exec (.barwait base rb sc ev off) s = .next t ∧ Says.MemDone s t ∧ Says.SameBytes s t ∧
          t.monitorOf s.actor.core s.actor.cl = none) ∧
      (o.phase = (s.getS rb).toNat % 2 →
        ∃ t, exec (.barwait base rb sc ev off) s = .next t ∧ Says.KeepsRegisters s t ∧ Says.SameBytes s t ∧
          t.me = { s.me with status := .waiting .monitor } ∧
          t.monitorOf s.actor.core s.actor.cl = some ⟨s.actor.core, s.actor.cl, granuleOf ls, false⟩))

/-- R287, R288: what an arrival makes of a valid object. In the object's phase it counts one more arrival; when that
reaches the count expected, the phase flips and the early arrivals become its arrivals (and a phase that they fill
completes too). For the other phase it counts as early, unless the early arrivals are already those expected. -/
def Says.BarrierArrivals : Prop :=
  ∀ (o : BarrierObj) (phi : Nat), o.valid = true →
    (phi = o.phase → o.current + 1 < o.expected →
      o.arrive phi = some ({ o with current := o.current + 1 }, o.phase)) ∧
    (phi = o.phase → o.current + 1 = o.expected → o.early < o.expected →
      o.arrive phi = some ({ o with phase := 1 - o.phase, current := o.early, early := 0 }, 1 - o.phase + 2)) ∧
    (phi = o.phase → o.current + 1 = o.expected → o.early = o.expected →
      o.arrive phi = some ({ o with current := 0, early := 0 }, o.phase + 2)) ∧
    (phi ≠ o.phase → o.early < o.expected → o.arrive phi = some ({ o with early := o.early + 1 }, o.phase + 4)) ∧
    (phi ≠ o.phase → o.early = o.expected → o.arrive phi = none)

/-- R286 to R290: barrier objects, arrivals and waits. -/
def Obligations.Barriers : Prop := Says.BarrierObjects ∧ Says.BarrierArrivals

/-- R134, R136, R230: outside the handler, SETST at an aligned address whose 64 bytes can be read, no peer's among them,
nothing of its cluster standing before it, with no unretired command naming the stream of those enqueued when it began to
wait, a descriptor that passes the checks of R134 and no stash mapping over its ring or table, sets the stream with its
counts at zero and completes. With such a command it waits. A descriptor that fails is reported, and a misaligned address
with MISALIGNED. -/
def Obligations.SetstSetsTheStream : Prop :=
  ∀ (s : State) (ra : SReg) (off : BitVec 20) (st : StReg) (s1 : State) (bytes : List Byte),
    let va := s.getS ra + BitVec.ofNat 64 (off.toNat * 64)
    let d : Desc := BitVec.ofNat 512 (leNat bytes)
    let before := s.me.setst.getD (engineOrder.map fun e => (s.here.queue e).last)
    let named := s.here.namesStream st before
    s.here.inHandler = false → Says.Settled s →
    (va.toNat % 64 ≠ 0 → exec (.setst ra off st) s = s.faultHere .misaligned va) ∧
    (va.toNat % 64 = 0 → s.load s.agentHere .any .normal (Says.span va 64) = .ok s1 bytes [] → Says.Unsent s (Says.span va 64) →
      (named = false → Desc.invalid d = none → s.here.stashConflict (Desc.areas d) = none →
        ∃ t, exec (.setst ra off st) s = .next t ∧ t.here.stream st = ⟨some d, 0, 0, [], [], 0, 0⟩ ∧
          Says.OnlyStream s t st ∧ Says.SameBytes s1 t) ∧
      (named = true → exec (.setst ra off st) s =
        .next ((s1.setMe { s1.me with setst := some before }).block (.streamFree st))) ∧
      (∀ cause, named = false → Desc.invalid d = some cause →
        exec (.setst ra off st) s = s1.faultHere cause 0))

namespace Says

/-- The machine with another stream register. -/
def withStream (s : State) (st : StReg) (x : Stream) : State := s.setHere (s.here.setStream st x)

/-- The machine with the executing cluster having joined commands (R193). -/
def joining (s : State) (f : Front) : State := s.setMe (s.me.join f)

/-- Claims of the clusters that PUBL has not marked ready (R234). -/
def unmarked (l : List SlotClaim) : List SlotClaim := l.filter fun c => c.owner.isNone && !c.ready

/-- The claims of a ring, oldest first, once PUBL has marked the clusters' oldest `n` that are unmarked as ready (R235). -/
def marked (l : List SlotClaim) (n : Nat) : List SlotClaim :=
  l.zipIdx.map fun y => if y.1.owner = none ∧ (unmarked (l.take (y.2 + 1))).length ≤ n then { y.1 with ready := true } else y.1

end Says

/-- R193, R228, R229, R234, R235: the ring instructions on a set stream, outside the handler where R320 says. WFILL and
WFREE complete with n slots filled, or free; CLAIM takes n free slots behind the tail, and s[rd] receives the tail's count;
PUBL marks the clusters' oldest n unmarked claims ready, and of the claims the ready ones that no unready one stands before
are published: the filled count rises by their number; POPT moves the head past n filled slots. With fewer, WFILL, WFREE and
CLAIM wait. Nothing else changes, a PUBL or POPT in a cluster that has no access put off (R236). The publishers that WFILL joins are recorded as assumption entry 43 says, and that a
claim marked ready counts no more toward PUBL's limit is entry 63. -/
def Says.RingInstructions : Prop :=
  ∀ (s : State) (rd : SReg) (n : BitVec 13) (st : StReg) (d : Desc),
    let x := s.here.stream st
    s.here.inHandler = false → x.desc = some d → n.toNat ≤ Desc.slots d →
    (n.toNat ≤ s.here.available st → ∃ t, exec (.wfill n st) s = .next t ∧ Says.SameBytes s t ∧
      Says.Completed (Says.joining s (x.publishers (s.here.headCount st) n.toNat)) t) ∧
    (s.here.available st < n.toNat → exec (.wfill n st) s = .next (s.block (.ringFill st n.toNat))) ∧
    (n.toNat ≤ x.free d → ∃ t, exec (.wfree n st) s = .next t ∧ Says.Completed s t) ∧
    (x.free d < n.toNat → exec (.wfree n st) s = .next (s.block (.ringFree st n.toNat))) ∧
    (Desc.isOut d = false → n.toNat ≤ x.free d → ∃ t, exec (.claim rd n st) s = .next t ∧ Says.SameBytes s t ∧
      Says.WroteScalar (Says.withStream s st { x with
        t := x.t + BitVec.ofNat 32 n.toNat
        claims := x.claims ++ List.replicate n.toNat ⟨none, false, .none⟩ }) t rd (x.t.setWidth 64)) ∧
    (Desc.isOut d = false → x.free d < n.toNat → exec (.claim rd n st) s = .next (s.block (.ringFree st n.toNat))) ∧
    (Says.Settled s → Desc.isOut d = false → n.toNat ≤ (Says.unmarked x.claims).length →
      let l := Says.marked x.claims n.toNat
      let ready := l.takeWhile (·.ready)
      ∃ t, exec (.publ n st) s = .next t ∧ Says.SameBytes s t ∧
        Says.Completed (Says.withStream s st { x with
          claims := l.dropWhile (·.ready)
          filledBy := x.filledBy ++ ready.map (·.front) }) t ∧
        (x.claims.length ≤ (x.t - x.h).toNat → (t.here.stream st).filled = x.filled + ready.length)) ∧
    (Says.Settled s → n.toNat ≤ s.here.available st → ∃ t, exec (.popt n st) s = .next t ∧ Says.SameBytes s t ∧
      Says.Completed (Says.withStream s st { x with
        h := x.h + BitVec.ofNat 32 n.toNat
        filledBy := x.filledBy.drop n.toNat }) t)

/-- R233, R234: the faults of the ring instructions, outside the handler: an unset stream, and an outlier list in CLAIM and
PUBL, RING_DESCRIPTOR; more slots than the ring has, RING_UNDERRUN in WFILL and POPT and RING_OVERRUN in WFREE and CLAIM;
more than are claimed in PUBL, RING_OVERRUN; more than are filled in POPT, RING_UNDERRUN. -/
def Says.RingFaults : Prop :=
  ∀ (s : State) (rd : SReg) (n : BitVec 13) (st : StReg), s.here.inHandler = false →
    let x := s.here.stream st
    (x.desc = none →
      ∀ i ∈ [Instr.wfill n st, .wfree n st, .claim rd n st, .publ n st, .popt n st, .raddr rd rd st, .rstat rd 0 st],
        exec i s = s.faultHere .ringDescriptor 0) ∧
    (∀ d, x.desc = some d → Desc.isOut d = true →
      exec (.claim rd n st) s = s.faultHere .ringDescriptor 0 ∧ exec (.publ n st) s = s.faultHere .ringDescriptor 0) ∧
    (∀ d, x.desc = some d → Desc.slots d < n.toNat →
      exec (.wfill n st) s = s.faultHere .ringUnderrun 0 ∧ exec (.popt n st) s = s.faultHere .ringUnderrun 0 ∧
      exec (.wfree n st) s = s.faultHere .ringOverrun 0 ∧
      (Desc.isOut d = false → exec (.claim rd n st) s = s.faultHere .ringOverrun 0)) ∧
    (∀ d, x.desc = some d → s.here.available st < n.toNat → exec (.popt n st) s = s.faultHere .ringUnderrun 0) ∧
    (∀ d, x.desc = some d → Desc.isOut d = false → (Says.unmarked x.claims).length < n.toNat →
      exec (.publ n st) s = s.faultHere .ringOverrun 0)

/-- R228 to R236: the ring instructions, and where they fault. -/
def Obligations.Rings : Prop := Says.RingInstructions ∧ Says.RingFaults

/-- R231, R234, R242, R267: GETST and ESEQ complete in every state, RADDR and RSTAT with a set stream, BSTAT outside a pure
task with a sequence number not beyond the last; s[rd] receives the doubleword of the descriptor, the sequence number, the
own-window address of the slot, the count, or the command's binding status (7 when it is not among the last 256, and not
known), and nothing else changes. -/
def Obligations.EngineReadings : Prop :=
  ∀ (s : State) (rd ra : SReg) (k : BitVec 3) (st : StReg) (e : Engine) (sel : BitVec 2),
    (∃ t, exec (.getst rd k st) s = .next t ∧
      Says.WroteScalar s t rd ((((s.here.stream st).desc.getD 0).extractLsb' (64 * k.toNat) 64))) ∧
    (∃ t, exec (.eseq rd e sel) s = .next t ∧
      Says.WroteScalar s t rd ((if sel = 0 then (s.here.queue e).last else if sel = 1 then (s.here.queue e).started
        else (s.here.queue e).retired).setWidth 64)) ∧
    (∀ d, (s.here.stream st).desc = some d →
      (∃ t, exec (.raddr rd ra st) s = .next t ∧ Says.WroteScalar s t rd (BitVec.ofNat 64 (0x7F0000000000 + Desc.ring d +
        (s.getS ra).toNat % Desc.slots d * Desc.slotBytes d))) ∧
      (∃ t, exec (.rstat rd k st) s = .next t ∧ Says.WroteScalar s t rd (BitVec.ofNat 64
        ([(s.here.stream st).filled, s.here.available st, (s.here.stream st).free d, (s.here.stream st).claims.length,
          (s.here.stream st).h.toNat, (s.here.stream st).t.toNat, (s.here.stream st).records.toNat,
          (s.here.stream st).clamps.toNat].getD k.toNat 0)))) ∧
    (s.here.isPure = false → beyondLast ((s.getS ra).setWidth 32) (s.here.queue e).last = false →
      ∃ t, exec (.bstat rd e ra) s = .next t ∧ Says.WroteScalar s t rd
        (if 256 ≤ ((s.here.queue e).last - (s.getS ra).setWidth 32).toNat then 7
          else match (s.here.queue e).hist.find? fun h => h.seq = (s.getS ra).setWidth 32 with
            | none => 7
            | some h => BitVec.ofNat 64 (bindCode h)))

namespace Says

/-- A command word (R29 to R32): the WAIT byte in bits 63:56, the SIGNAL byte in 55:48, the opcode in 47:44 and the
operands below. -/
def word (eo : EngOpts) (eop operands : Nat) : Word := eo.wait ++ eo.signal ++ BitVec.ofNat 4 eop ++ BitVec.ofNat 44 operands

/-- A bit at a place. -/
def bitIf (b : Bool) (i : Nat) : Nat := if b then 2 ^ i else 0

/-- The operands of a copy command (R247). -/
def copyBits (stS stC : StReg) (ce : Bool) (n1 : BitVec 4) : Nat :=
  stS.toNat * 2 ^ 19 + stC.toNat * 2 ^ 14 + bitIf ce 13 + n1.toNat * 2 ^ 9

/-- What R139, R145, R147, R241, R244 and R247 give an engine-issue instruction: whether a pure task may execute it, the
queue, the scalar that receives the sequence number, and the command word. -/
def issue (s : State) : Instr → Option (Bool × Engine × SReg × Word)
  | .enq rd e rs => some (true, e, rd, s.getS rs)
  | .mma rd eo a b acc z pa pb => some (true, .mtx, rd, word eo 1
      (a.toNat * 2 ^ 19 + b.toNat * 2 ^ 14 + acc.toNat * 2 ^ 11 + bitIf z 10 + bitIf pa 9 + bitIf pb 8))
  | .mret rd eo d o acc oe => some (true, .mtx, rd, word eo 2
      (d.toNat * 2 ^ 19 + o.toNat * 2 ^ 14 + acc.toNat * 2 ^ 11 + bitIf oe 10))
  | .mzero rd eo acc => some (true, .mtx, rd, word eo 3 (acc.toNat * 2 ^ 11))
  | .cpin rd eo stS stC ce n1 => some (true, .cin, rd, word eo 1 (copyBits stS stC ce n1))
  | .cpstr rd eo stS stC ce n1 => some (true, .cin, rd, word eo 2 (copyBits stS stC ce n1))
  | .cpout rd eo stS stC ce n1 => some (true, .cout, rd, word eo 1 (copyBits stS stC ce n1))
  | .cpred rd eo stS stC ce n1 rop => some (false, .cout, rd, word eo 2 (copyBits stS stC ce n1 + rop.code * 2 ^ 6))
  | .gath rd eo stS stD stO stC ce => some (true, .gth, rd, word eo 1
      (stS.toNat * 2 ^ 19 + stD.toNat * 2 ^ 14 + stO.toNat * 2 ^ 9 + stC.toNat * 2 ^ 4 + bitIf ce 3))
  | .topk rd eo i o k pairs pop => some (true, .topk, rd, word eo 1
      (i.toNat * 2 ^ 19 + o.toNat * 2 ^ 14 + k.toNat * 2 ^ 6 + bitIf pairs 5 + bitIf pop 4))
  | .notify rd e eo m ev => some (true, e, rd, word eo 15 (m.toNat * 2 ^ 3 + ev.toNat))
  | _ => none

end Says

/-- R29 to R32, R238, R241: outside the handler (and outside a pure task for CPRED), an engine-issue instruction with legal
WAIT and SIGNAL bytes and a free entry in the queue, in a cluster that has no access put off, appends its command word and
completes; s[rd] receives the command's sequence number, and no other register changes. With the queue full it waits; with a WAIT byte that R30 makes illegal it
faults with PREDECESSOR. -/
def Says.EngineIssue : Prop :=
  ∀ i s ok e rd w, Says.issue s i = some (ok, e, rd, w) → s.here.inHandler = false → (ok = false → s.here.isPure = false) →
    (Says.Settled s → badWait (wordWait w) = false → signalOk (wordSignal w) = true →
      (s.here.queue e).entries.length < queueDepth e →
      ∃ t, exec i s = .next t ∧
        Says.WroteScalar (s.setHere (s.here.enqueue e w s.me.joined)) t rd (((s.here.queue e).last + 1).setWidth 64)) ∧
    (badWait (wordWait w) = false → signalOk (wordSignal w) = true → queueDepth e ≤ (s.here.queue e).entries.length →
      exec i s = .next (s.block (.engineSpace e))) ∧
    (badWait (wordWait w) = true → exec i s = s.faultHere .predecessor 0)

/-- R237, R238, R243: a command enqueued is the queue's last, with the next sequence number, unstarted, stamped with %gen
and with its queue's preference; its word stands in the queue's entry in the scratchpad, and every other byte of the
scratchpad, every other queue's commands, every vector register, mask and queue of the clusters, and every special register
are as they were. -/
def Says.EnqueueAppends : Prop :=
  ∀ (k : Core) (e : Engine) (w : Word) (f : Front), Memory.wf k.loc.scratch = true →
    let u := k.enqueue e w f
    let n := (k.queue e).last + 1
    (u.queue e).last = n ∧ (u.queue e).entries.map (·.seq) = (k.queue e).entries.map (·.seq) ++ [n] ∧
    ((u.queue e).entries.getLast?.map fun c => (c.gen, c.pref, c.started.isNone, c.prog)) =
      some (k.gen, tget .normal k.eng.prefs e.code, true, 0) ∧
    u.cmdWord e n = w ∧
    (∀ a, (a < entryOff e n ∨ entryOff e n + 8 ≤ a) → rdByte u.loc.scratch a = rdByte k.loc.scratch a) ∧
    (∀ d, d ≠ e → (u.queue d).entries.map (·.seq) = (k.queue d).entries.map (·.seq) ∧ (u.queue d).last = (k.queue d).last) ∧
    u.regs.v = k.regs.v ∧ u.regs.m = k.regs.m ∧ u.regs.vq = k.regs.vq ∧ u.regs.sq = k.regs.sq ∧ u.trap = k.trap ∧
    u.cls = k.cls

/-- R29 to R32, R237 to R241: what an engine-issue syllable and ENQ append to a queue. -/
def Obligations.EngineIssueAndEnqueue : Prop := Says.EngineIssue ∧ Says.EnqueueAppends

/-- R168, R187, R188: with nothing of the cluster standing before it, a FENCE completes and changes nothing else, but that a
release or sequentially consistent one waits while a reduction of the cluster has not been applied, and, toward agents beyond
the core, while a store of the core at a peer has not been answered; so does MARK for the reductions. -/
def Says.Fences : Prop :=
  ∀ (s : State) (od : MemOrd) (sc : Scope), Says.Settled s →
    let far := Scope.core.code < sc.code
    ((od = .acquire ∨ (s.reductionsOut = false ∧ (far → s.storesOut s.actor.core = false))) →
      ∃ t, exec (.fence od sc) s = .next t ∧ Says.Completed s t) ∧
    (od ≠ .acquire → s.reductionsOut = true → exec (.fence od sc) s = .next (s.block .reductions)) ∧
    (od ≠ .acquire → s.reductionsOut = false → far → s.storesOut s.actor.core = true →
      exec (.fence od sc) s = .next (s.block .stores)) ∧
    (s.reductionsOut = true → exec .mark s = .next (s.block .reductions))

/-- R243: outside the handler, GFENCE, no queue of its mask full and no unretired command stamped with the generation nine
on, in a cluster that has no access put off, completes: each queue of the mask receives one GFENCE command, its number the next, its stamp the generation before, its
word the mask under opcode 0xE; the other queues are as they were; %gen advances by one modulo 16, and no other special
register, scalar or predicate changes, the registers being in their canonical form; outside the entries of those
commands, so does no byte. Otherwise it waits. -/
def Says.GfenceAppends : Prop :=
  ∀ (s : State) (m : BitVec 5), s.here.inHandler = false →
    (Says.Settled s → s.here.gfenceBlocked m = false → ∃ t, exec (.gfence m) s = .next t ∧
      Says.Completed (s.setHere (s.here.gfence m s.me.joined)) t ∧
      (swf 0 s.here.trap.sr = true →
        t.here.gen = s.here.gen + 1 ∧ ∀ n, n ≠ 0x060 → t.here.getSr n = s.here.getSr n) ∧ (∀ r, t.getS r = s.getS r) ∧ (∀ p, t.getP p = s.getP p) ∧
      (∀ e : Engine, m.getLsbD e.code = true → let n := (s.here.queue e).last + 1
        (t.here.queue e).last = n ∧
        (t.here.queue e).entries.map (fun c => (c.seq, c.gen)) =
          (s.here.queue e).entries.map (fun c => (c.seq, c.gen)) ++ [(n, s.here.gen)] ∧
        (Says.Canonical s → t.here.cmdWord e n = Says.word ⟨0, 0⟩ 14 m.toNat)) ∧
      (∀ e : Engine, m.getLsbD e.code = false → (t.here.queue e).last = (s.here.queue e).last ∧
        (t.here.queue e).entries.map (fun c => (c.seq, c.gen)) = (s.here.queue e).entries.map fun c => (c.seq, c.gen)) ∧
      ∀ pl, Says.Canonical s → (∀ (e : Engine) (k : Nat), m.getLsbD e.code = true → k < 8 →
        pl ≠ .pad s.actor.core (entryOff e ((s.here.queue e).last + 1) + k)) → t.peek pl = s.peek pl) ∧
    ((∃ e : Engine, m.getLsbD e.code = true ∧ queueDepth e ≤ (s.here.queue e).entries.length) ∨
      (∃ e : Engine, ∃ c ∈ (s.here.queue e).entries, c.gen = s.here.gen + 9) →
      exec (.gfence m) s = .next (s.block (.generation m)))

/-- R193, R242, R244, R245, R266: outside the handler, WAITEV completes when the event has fired more often than the cluster
has consumed, and consumes one; EWAIT when the command has retired; both join. BPREF, in every state, sets the preferences
of the engines in its mask. What a firing and a command's record hold to be joined is assumption entry 43. -/
def Says.WaitsAndPreferences : Prop :=
  ∀ (s : State) (m : BitVec 5) (ev : BitVec 3) (e : Engine) (rs : SReg) (mode : BindMode),
    let n : Half := (s.getS rs).setWidth 32
    let q := s.here.queue e
    (s.here.inHandler = false →
      ((tget 0 s.me.consumed ev.toNat).toNat < (tget 0 s.here.eng.weirF ev.toNat).toNat →
        ∃ t, exec (.waitev ev) s = .next t ∧ Says.SameBytes s t ∧
          Says.Completed (s.setMe { s.me.join (sget .none s.here.eng.weirFront
            (8 * (tget 0 s.me.consumed ev.toNat + 1).toNat + ev.toNat)) with
            consumed := tset s.me.consumed ev.toNat (tget 0 s.me.consumed ev.toNat + 1) }) t) ∧
      ((tget 0 s.here.eng.weirF ev.toNat).toNat ≤ (tget 0 s.me.consumed ev.toNat).toNat →
        exec (.waitev ev) s = .next (s.block (.event ev))) ∧
      (¬ (1 ≤ (n - q.last).toNat ∧ (n - q.last).toNat < 2 ^ 31) → (∀ c ∈ q.entries, c.seq ≠ n) →
        ∃ t, exec (.ewait e rs) s = .next t ∧ Says.SameBytes s t ∧
          Says.Completed (Says.joining s (((q.hist.find? fun h => h.seq = n).map (·.front)).getD Front.none)) t) ∧
      (¬ (1 ≤ (n - q.last).toNat ∧ (n - q.last).toNat < 2 ^ 31) → (∃ c ∈ q.entries, c.seq = n) →
        exec (.ewait e rs) s = .next (s.block (.retired e n))) ∧
      (1 ≤ (n - q.last).toNat ∧ (n - q.last).toNat < 2 ^ 31 → exec (.ewait e rs) s = s.faultHere .predecessor 0)) ∧
    ∃ t p, exec (.bpref m mode) s = .next t ∧ Says.SameBytes s t ∧
      Says.Completed (s.setHere { s.here with eng := { s.here.eng with prefs := p } }) t ∧
      ∀ d : Engine, tget .normal p d.code = if m.getLsbD d.code then mode else tget .normal s.here.eng.prefs d.code

/-- R168, R187, R188, R193, R242 to R245, R266: fences, the waits of the engines, and preferences. -/
def Obligations.FencesWaitsAndPreferences : Prop := Says.Fences ∧ Says.GfenceAppends ∧ Says.WaitsAndPreferences

/-- R281, R283: LAUNCH outside a pure task, at a 128-byte boundary, appends the record's address with the context's rank to
the polder's device launch queue and gives 1, and with 256 pointers in it gives 0 and changes nothing else. TRIGGER marks
the context's iteration. Both are releases: here nothing of the cluster stands before them, and no store of the core is at a
peer. DEPWAIT outside the handler completes when every dependence of the task is satisfied, and
otherwise waits. -/
def Says.LaunchTriggerAndDepwait : Prop :=
  ∀ (s : State) (rd ra : SReg),
    let p := s.polder s.here.polderNo
    (s.here.isPure = false → (s.getS ra).toNat % 128 = 0 →
      (Says.Settled s → s.storesOut s.actor.core = false → p.launch.devq.length < 256 → ∃ t, exec (.launch rd ra) s = .next t ∧ Says.SameBytes s t ∧
        Says.WroteScalar (s.setPolder s.here.polderNo { p with launch :=
          { p.launch with devq := p.launch.devq ++ [(s.getS ra, s.here.rank)] } }) t rd 1) ∧
      (256 ≤ p.launch.devq.length → ∃ t, exec (.launch rd ra) s = .next t ∧ Says.WroteScalar s t rd 0)) ∧
    (s.here.isPure = false → (s.getS ra).toNat % 128 ≠ 0 → exec (.launch rd ra) s = s.faultHere .misaligned (s.getS ra)) ∧
    (s.here.ctx.bind (·.task) = none → ∃ t, exec .trigger s = .next t ∧ Says.Completed s t) ∧
    (∀ x uid, Says.Settled s → s.storesOut s.actor.core = false → s.here.ctx = some x → x.task = some uid →
      ∃ t, exec .trigger s = .next t ∧ Says.SameBytes s t ∧
        Says.Completed { s with tasks := s.tasks.map fun y => if y.uid = uid then { y with iters := y.iters.map fun i =>
          if i.id = x.id ∧ i.ic = x.ic then { i with triggered := true } else i } else y } t) ∧
    (s.here.inHandler = false → s.depsMetAt s.actor.core = true →
      ∃ t, exec .depwait s = .next t ∧ Says.Completed s t) ∧
    (s.here.inHandler = false → s.depsMetAt s.actor.core = false → exec .depwait s = .next (s.block .dependence))

namespace Says

/-- The machine with another deque on a core. -/
def withDeque (s : State) (c : CoreId) (l : List Word) : State := s.setCore c { s.core c with deque := l }

/-- A thief may take from a core: its deque holds an item, of the same task (R284, R285). -/
def stealable (s : State) (v : CoreId) : Bool := !(s.core v).deque.isEmpty && s.sameTask v s.actor.core

end Says

/-- R284, R285: outside the handler and pure tasks. DQPUSH, a release with nothing of the cluster standing before it and no
store of the core at a peer, adds at the bottom with fewer than 1,024 items, and faults with
DEQUE_OVERFLOW with as many. DQPOP takes from the bottom, DQSTEAL the top of the named core's deque, or in ring order of the
first sibling that has an item for the thief: s[rd] receives the item and p[pn] is true; with none, p[pn] is false and
nothing else changes. A victim that is not a core of the polder on the die faults with STEAL_TARGET. -/
def Says.Deques : Prop :=
  ∀ (s : State) (rd ra : SReg) (pn : PReg), s.here.inHandler = false → s.here.isPure = false →
    (Says.Settled s → s.storesOut s.actor.core = false → s.here.deque.length < 1024 → ∃ t, exec (.dqpush ra) s = .next t ∧ Says.SameBytes s t ∧
      Says.Completed (Says.withDeque s s.actor.core (s.here.deque ++ [s.getS ra])) t) ∧
    (1024 ≤ s.here.deque.length → exec (.dqpush ra) s = s.faultHere .dequeOverflow 0) ∧
    (∀ l v, s.here.deque = l ++ [v] → ∃ t, exec (.dqpop rd pn) s = .next t ∧ Says.SameBytes s t ∧
      Says.Done (Says.withDeque s s.actor.core l) t rd v pn true) ∧
    (s.here.deque = [] → ∃ t, exec (.dqpop rd pn) s = .next t ∧ Says.WrotePred s t pn false) ∧
    (∀ v, s.siblings[(s.getS ra).toNat]? = some v →
      (∀ x l, (s.core v).deque = x :: l → s.sameTask v s.actor.core = true →
        ∃ t, exec (.dqsteal rd ra pn) s = .next t ∧ Says.SameBytes s t ∧
          Says.Done (Says.withDeque s v l) t rd x pn true) ∧
      (Says.stealable s v = false → ∃ t, exec (.dqsteal rd ra pn) s = .next t ∧ Says.WrotePred s t pn false)) ∧
    (s.siblings[(s.getS ra).toNat]? = none → exec (.dqsteal rd ra pn) s = s.faultHere .stealTarget 0) ∧
    (let c := (s.here.getSr 0x030).toNat
      let ring := s.siblings.drop (c + 1) ++ s.siblings.take c
      match ring.find? (Says.stealable s) with
      | some v => ∀ x l, (s.core v).deque = x :: l →
        ∃ t, exec (.dqstealRing rd pn) s = .next t ∧ Says.SameBytes s t ∧ Says.Done (Says.withDeque s v l) t rd x pn true
      | none => ∃ t, exec (.dqstealRing rd pn) s = .next t ∧ Says.WrotePred s t pn false)

/-- R281 to R285: LAUNCH, TRIGGER, DEPWAIT and the deques. -/
def Obligations.LaunchesAndDeques : Prop := Says.LaunchTriggerAndDepwait ∧ Says.Deques

namespace Says

/-- No address of a block of 2^`bits` bytes lies in a range. -/
def Outside (span : Word × Nat) (block bits : Nat) : Prop :=
  ∀ k, k < 2 ^ bits → inSpan span.1 span.2 ((BitVec.ofNat 48 (block * 2 ^ bits)).signExtend 64 + BitVec.ofNat 64 k) = false

/-- The handler record of a core lies in its own scratchpad window at `off`, aligned, with no stash mapping on the core, none of
its bytes in a range that a copy or gather command holds, no row under self-test, and no access of another core that one to it
would have to follow (R152, R157, R183, R253, R320, R329). -/
structure RecordAt (s : State) (c : CoreId) (off : Nat) : Prop where
  addr    : (s.core c).getSr 0x012 - 128 = BitVec.ofNat 64 (0x7F0000000000 + off)
  aligned : off % 128 = 0
  bounds  : off + 128 ≤ 0x1FF000
  stash   : (s.core c).loc.stash = []
  board   : (s.core c).scoreboard = []
  rows    : s.fenced = []
  alone   : s.entangled = false

/-- A core's handler can be entered here: its context runs outside the handler, its record is in place, its handler's
address is aligned, and its special registers are in their canonical form. -/
structure Enterable (s : State) (c : CoreId) (off : Nat) : Prop where
  running : (s.core c).phase = .running
  outside : (s.core c).inHandler = false
  record  : RecordAt s c off
  vector  : ((s.core c).getSr 0x011).toNat % 32 = 0
  srs     : swf 0 (s.core c).trap.sr = true
  bytes   : Memory.wf (s.core c).loc.scratch = true

/-- The registers that a frame writes, and %purectl, whose NOINS the causes of R294 and R295 set (R297, R319). -/
def frameRegs (n : Nat) : Prop := n ≤ 0x00E ∨ n = 0x090

/-- What taking the frame of a report and entering the handler make of a core (R317 to R320): the cause, the address and
the syllable are saved, and each cluster's next bundle, with bit 0 for one that is halted; each queue's cut; the flags, with
INH set. The record holds s1 to s15 and the predicates of S. S is at %tvec with its loop stack held and s1 the record's
address; every other register is as it was. -/
structure Entered (s t : State) (c : CoreId) (r : Report) (off : Nat) : Prop where
  phase    : (t.core c).phase = .running
  inside   : (t.core c).inHandler = true
  cause    : (t.core c).getSr 0x000 =
    BitVec.ofNat 64 (r.cls * 256 + (if r.eng.isSome then 0 else r.clus.code * 64) + r.cause.code)
  address  : (t.core c).getSr 0x001 = r.addr
  syllable : (t.core c).getSr 0x002 = r.syl
  pcs      : ∀ x : Cluster, (t.core c).getSr (0x003 + x.code) =
    ((s.cl c x).pc &&& ~~~31) ||| (if (s.cl c x).status = .halted then 1 else 0)
  cuts     : ∀ e : Engine, (t.core c).getSr (0x008 + e.code) = cutWord ((s.core c).queue e)
  others   : ∀ n, ¬ frameRegs n → (t.core c).getSr n = (s.core c).getSr n
  record   : rdBytes (t.core c).loc.scratch off 128 =
    ((List.range 15).flatMap fun n => leBytes 8 ((s.cl c .S).getS (BitVec.ofNat 6 (n + 1))).toNat) ++
      leBytes 8 ((s.cl c .S).p ||| 1).toNat
  elsewhere : ∀ a, (a < off ∨ off + 128 ≤ a) → rdByte (t.core c).loc.scratch a = rdByte (s.core c).loc.scratch a
  handler  : (t.cl c .S).pc = (s.core c).getSr 0x011 ∧ (t.cl c .S).status = .running ∧ (t.cl c .S).loops = [] ∧
    (t.core c).trap.heldLoops = (s.cl c .S).loops
  scalars  : ∀ n, (t.cl c .S).getS n = if n = 1 then (s.core c).getSr 0x012 - 128 else (s.cl c .S).getS n
  clusters : ∀ x, x ≠ .S → (∀ n, (t.cl c x).getS n = (s.cl c x).getS n) ∧ (t.cl c x).pc = (s.cl c x).pc ∧
    (t.cl c x).loops = (s.cl c x).loops
  preds    : ∀ x n, (t.cl c x).getP n = (s.cl c x).getP n
  shared   : (t.core c).regs.v = (s.core c).regs.v ∧ (t.core c).regs.m = (s.core c).regs.m ∧
    (t.core c).regs.vq = (s.core c).regs.vq ∧ (t.core c).regs.sq = (s.core c).regs.sq
  engines  : (t.core c).eng.streams = (s.core c).eng.streams ∧ (t.core c).eng.accs = (s.core c).eng.accs ∧
    ∀ e : Engine, ((t.core c).queue e).last = ((s.core c).queue e).last ∧
      ((t.core c).queue e).entries.map (fun x => { x with granted := false }) =
        ((s.core c).queue e).entries.map fun x => { x with granted := false }
  memory   : t.mem = s.mem ∧ t.hostMem = s.hostMem

end Says

/-- R313, R315 to R320: a fault or trap of a core that runs its context outside the handler, with nothing outstanding and no
other cluster still executing the synced bundle of the one that raises it, is taken at once: the frame is saved, the record
written and the handler entered, as `Says.Entered` says. With something outstanding the core stops first; the cluster that raises
the fault stands where it is. That the frame is taken in the step of the fault where nothing is outstanding is assumption
entry 8. -/
def Says.ExceptionEntry : Prop :=
  ∀ (s : State) (c : CoreId) (r : Report) (off : Nat), Says.Enterable s c off →
    (s.quiet c = true → (∀ x, (s.cl c x).due = true → x = r.clus ∧ r.cls = 0 ∧ r.eng = none) →
      ∃ t, s.raise c r = .next t ∧ Says.Entered s t c r off) ∧
    ((∀ x, (s.cl c x).due = false) → (r.eng = none ∨ ∃ x, (s.cl c x).owes = false) → s.quiet c = false →
      ∃ t, s.raise c r = .next t ∧ (t.core c).phase = .stopping r ∧ Says.SameBytes s t ∧
        (∀ x, x ≠ r.clus → t.cl c x = s.cl c x) ∧
        { t.cl c r.clus with status := (s.cl c r.clus).status } = s.cl c r.clus)

/-- R322: a fault while the handler runs is a double fault: the frame, every register and memory stay as they are but
%dfcause and %dfaddr, which record it; the core is stopped, and an event of kind 5 goes to management. -/
def Says.DoubleFaults : Prop :=
  ∀ (s : State) (c : CoreId) (r : Report), (s.core c).phase = .running → (s.core c).inHandler = true → r.cls ≠ 2 →
    r.cause.spoilsPure = false → swf 0 (s.core c).trap.sr = true →
    ∃ t, s.raise c r = .next t ∧ (t.core c).phase = .doubleFault ∧ Says.SameBytes s t ∧ (∀ x, t.cl c x = s.cl c x) ∧
      (t.core c).getSr 0x00F =
        BitVec.ofNat 64 (r.cls * 256 + (if r.eng.isSome then 0 else r.clus.code * 64) + r.cause.code) ∧
      (t.core c).getSr 0x010 = r.addr ∧ (∀ n, n ≠ 0x00F → n ≠ 0x010 → (t.core c).getSr n = (s.core c).getSr n) ∧
      t.dev.events = s.dev.events ++ [⟨0, coreSource c none, .doubleFault, 5, (s.core c).polderNo⟩] ∧
      ∀ d, d ≠ c → t.core d = s.core d

/-- R313 to R322: what taking a fault or a trap saves and where it goes, and when it is a double fault. -/
def Obligations.ExceptionsAreTaken : Prop := Says.ExceptionEntry ∧ Says.DoubleFaults

/-- R313, R323: TRAP outside a pure task completes its bundle and raises the trap SYSTEM_CALL with its number as the
address; BKPT raises the fault BREAKPOINT at its own bundle. Where the handler can be entered, nothing is outstanding and no
other cluster still executes the same synced bundle, they do enter it: the saved address of TRAP's cluster is the bundle after it, and of BKPT's its own. That they enter it in
their own step is assumption entry 8. -/
def Says.TrapAndBkpt : Prop :=
  ∀ (s : State) (n : BitVec 16) (off : Nat),
    let c := s.actor.core
    let trap : Report := ⟨.systemCall, 1, s.actor.cl, none, n.setWidth 64, s.actor.syl, false⟩
    let bkpt : Report := ⟨.breakpoint, 0, s.actor.cl, none, s.me.pc, s.actor.syl, s.me.useq.isSome⟩
    (s.here.isPure = false → exec (.trap n) s = s.complete.raise c trap) ∧ exec (.bkpt n) s = s.raise c bkpt ∧
    (Says.Enterable s c off → (∀ x, x ≠ s.actor.cl → (s.cl c x).due = false) →
      (s.complete.quiet c = true → s.here.isPure = false →
        ∃ t, exec (.trap n) s = .next t ∧ Says.Entered s.complete t c trap off) ∧
      (s.quiet c = true → ∃ t, exec (.bkpt n) s = .next t ∧ Says.Entered s t c bkpt off))

/-- R321, R327: ERET outside the handler faults with PRIVILEGED. In the handler, its record in place and readable, no
trap held and no access of the handler standing before it, it returns: each cluster is at the bundle of its %fpc, halted where
bit 0 says so; S has s1 to s15, p1 to p15 and its loop stack back; INH and breakpoint suppression are clear; every other register and all memory are as they were. -/
def Says.EretReturns : Prop :=
  ∀ (s : State) (off : Nat),
    let c := s.actor.core
    (s.here.inHandler = false → exec .eret s = s.faultHere .privileged 0) ∧
    (s.here.inHandler = true → s.here.calm = true → (s.cl c .S).held = [] → Says.RecordAt s c off → s.here.trap.held = [] → swf 0 s.here.trap.sr = true →
      (∀ i, i < 4 → sget false s.padPoison (65536 * c.val + (off / 32 + i)) = false) →
      (∀ i, i < 128 → sget none s.me.fetched (0x7F0000000000 + off + i) = none) →
      ∃ t, exec .eret s = .next t ∧ Says.SameBytes s t ∧
        (∀ x : Cluster, (t.cl c x).pc = s.here.getSr (0x003 + x.code) &&& ~~~31 ∧
          (t.cl c x).status = if (s.here.getSr (0x003 + x.code)).getLsbD 0 then .halted else .running) ∧
        (∀ n : SReg, (t.cl c .S).getS n = if 1 ≤ n.toNat ∧ n.toNat ≤ 15 then
          BitVec.ofNat 64 (leNat (rdBytes s.here.loc.scratch (off + 8 * (n.toNat - 1)) 8)) else (s.cl c .S).getS n) ∧
        (∀ n : PReg, n ≠ 0 → (t.cl c .S).getP n =
          (BitVec.ofNat 16 (leNat (rdBytes s.here.loc.scratch (off + 0x78) 2))).getLsbD n.toNat) ∧
        (t.cl c .S).loops = s.here.trap.heldLoops ∧ (t.core c).inHandler = false ∧
        (∀ x, x ≠ .S → (∀ n, (t.cl c x).getS n = (s.cl c x).getS n) ∧ (∀ n, (t.cl c x).getP n = (s.cl c x).getP n) ∧
          (t.cl c x).loops = (s.cl c x).loops) ∧
        (t.core c).regs = s.here.regs ∧ (t.core c).getSr 0x078 = s.here.getSr 0x078 &&& ~~~(0x100 : Word) ∧
        (∀ n, n ≠ 0x00E → n ≠ 0x078 → (t.core c).getSr n = s.here.getSr n) ∧ ∀ d, d ≠ c → t.core d = s.core d)

/-- R318, R321, R323: TRAP and BKPT, and the return from the handler. -/
def Obligations.TrapsAndTheReturn : Prop := Says.TrapAndBkpt ∧ Says.EretReturns

/-- R324, R341, R357: nothing of its cluster standing before it, TLBINV completes once no image write of a save and no access
that is not performed uses a translation of its range and its cluster's reductions are applied: the translations of pages that
the range meets leave the TLB of every core of the polder, and those of the polder's contexts the TLBs and walk caches of the
dies, and no register and no memory changes. Kind 1 faults with MISALIGNED on a base or size that is no multiple of 64 KiB, or a zero size. -/
def Says.TlbinvRemovesTranslations : Prop :=
  ∀ (s : State) (ra rb : SReg) (kind : InvKind), Says.Settled s →
    let p := s.here.polderNo
    let span : Word × Nat := match kind with
      | .page => s.pageSpan (s.polder p) (s.getS ra)
      | .range => (s.getS ra, (s.getS rb).toNat)
      | .all => (0, 2 ^ 64)
    let legal := kind = .range → (s.getS ra).toNat % 65536 = 0 ∧ (s.getS rb).toNat % 65536 = 0 ∧ s.getS rb ≠ 0
    (legal → s.pinned p span.1 span.2 = false → s.reductionsOut = false →
      ∃ t, exec (.tlbinv ra rb kind) s = .next t ∧ Says.SameBytes s t ∧ Says.Completed (s.invalidate p span.1 span.2) t ∧
        (∀ c, (s.core c).polderNo = p → ∀ e ∈ (t.core c).loc.tlb, Says.Outside span e.page (leafBits e.level)) ∧
        (∀ i, i < 4 → (∀ e ∈ (tget Die.reset t.dies i).tlb, (s.tagsOf p).contains e.ctx = true →
            Says.Outside span e.page (leafBits e.level)) ∧
          ∀ e ∈ (tget Die.reset t.dies i).walks, (s.tagsOf p).contains e.ctx = true →
            Says.Outside span e.block (tableBits e.level)) ∧
        ∀ c, c ≠ s.actor.core → (t.core c).cls = (s.core c).cls) ∧
    (legal → s.pinned p span.1 span.2 = true →
      exec (.tlbinv ra rb kind) s = .next (s.block (.pinned span.1 span.2))) ∧
    (¬ legal → ∃ a, exec (.tlbinv ra rb kind) s = s.faultHere .misaligned a)

/-- R208, R209, R325: DHARV at a 2 MiB boundary whose 64 blocks of 32 KiB all translate to HBM, nothing of its cluster
standing before it, completes: bit i of s[rd] says whether block i has been written since a harvest through its translation
reported it, and each block is now clean through it. No other register and no memory changes. Elsewhere it faults with
MISALIGNED; a block without a translation faults with XLATE_READ, and with all translated one that is not HBM with
PERMISSION, at the first such block. That a block is clean by the entries that translate it is assumption entry 53. -/
def Says.DharvHarvests : Prop :=
  ∀ (s : State) (rd ra : SReg), Says.Settled s →
    let va := s.getS ra
    let blocks := s.harvestBlocks (s.polder s.here.polderNo) va
    (va.toNat % 2 ^ 21 ≠ 0 → exec (.dharv rd ra) s = s.faultHere .misaligned va) ∧
    (va.toNat % 2 ^ 21 = 0 → (∀ b ∈ blocks, ∃ h, b.2 = some h ∧ h.isHbm = true) →
      ∃ t m, exec (.dharv rd ra) s = .next t ∧ Says.SameBytes s t ∧
        Says.WroteScalar { s with clean := t.clean } t rd m ∧
        ∀ i b h, blocks[i]? = some (b, some h) →
          m.getLsbD i = !((sget [] s.clean h.block).contains h.path) ∧ h.path ∈ sget [] t.clean h.block) ∧
    (∀ pre b post, va.toNat % 2 ^ 21 = 0 → blocks = pre ++ (b, none) :: post → (∀ x ∈ pre, x.2 ≠ none) →
      exec (.dharv rd ra) s = s.faultHere .xlateRead b) ∧
    (∀ pre b h post, va.toNat % 2 ^ 21 = 0 → (∀ x ∈ blocks, x.2 ≠ none) → blocks = pre ++ (b, some h) :: post →
      h.isHbm = false → (∀ x ∈ pre, ∀ g, x.2 = some g → g.isHbm = true) →
      exec (.dharv rd ra) s = s.faultHere .permission b)

/-- R324, R325: TLBINV and DHARV. -/
def Obligations.TranslationMaintenance : Prop := Says.TlbinvRemovesTranslations ∧ Says.DharvHarvests

namespace Says

/-- Words read one after another, each by a load of 8 bytes of its own, and the machine after them; none where one fails, waits,
or is a peer's. -/
def wordsAt : List Word → State → Option (List Word × State)
  | [], s => some ([], s)
  | va :: vas, s =>
    match s.load s.agentHere .any .normal (span va 8) with
    | .ok s1 bytes [] => (wordsAt vas s1).map fun r => (BitVec.ofNat 64 (leNat bytes) :: r.1, r.2)
    | _ => none

end Says

/-- R371 to R377: CSLOAD outside a pure task, its slot not locked to it, nothing of its cluster standing before it, at an
aligned image of legal words that can be read, none of it a peer's, and no sequence of the slot in progress: the slot is bound,
and its region of the context's partition holds the image's micro-words. Each word is a load of its own: the first that fails is
reported. CSUNBIND, likewise allowed, unbinds the slot and zeroes its region. Neither changes a general register or a byte of
memory, and where the slot is locked each faults with CONTROL_STORE_PRIVILEGE. -/
def Obligations.ControlStoreSlots : Prop :=
  ∀ (s : State) (ra : SReg) (slot : BitVec 4) (s1 : State) (head : List Byte) (i : Nat),
    let va := s.getS ra
    let h : Word := BitVec.ofNat 64 (leNat head)
    let n := h.toNat % 256
    let image := (List.range n).map fun k => va + BitVec.ofNat 64 (8 + 8 * k)
    (s.here.isPure = false → s.here.storeLocked slot = true →
      exec (.csload ra slot) s = s.faultHere .controlStorePrivilege 0) ∧
    (s.here.storeLocked slot = true → exec (.csunbind slot) s = s.faultHere .controlStorePrivilege 0) ∧
    (s.here.storeLocked slot = false → swf 0 s.here.trap.sr = true → s.here.partIx = some i →
      swf 0 (tget Partition.reset s.here.loc.parts i).words = true → s.here.inSequence slot = false →
      ∃ t, exec (.csunbind slot) s = .next t ∧ Says.SameBytes s t ∧
        (∀ r, t.getS r = s.getS r) ∧ t.here.bound slot = false ∧ ∀ k, k < 64 → t.here.microAt slot k = 0) ∧
    (s.here.storeLocked slot = false → Says.Settled s → s.here.isPure = false → va.toNat % 8 = 0 → s.me.fetched = [] →
      s.load s.agentHere .any .normal (Says.span va 8) = .ok s1 head [] → headerFault h = none →
      (∀ ws s2, Says.wordsAt image s1 = some (ws, s2) → sequenceFault ws = none → s2.here.inSequence slot = false →
        swf 0 s2.here.trap.sr = true → s2.here.partIx = some i →
        swf 0 (tget Partition.reset s2.here.loc.parts i).words = true →
        ∃ t, exec (.csload ra slot) s = .next t ∧ Says.SameBytes s2 t ∧ (∀ r, t.getS r = s.getS r) ∧
          (∀ p, t.getP p = s.getP p) ∧ t.here.bound slot = true ∧
          ∀ k, k < 64 → t.here.microAt slot k = ws.getD k 0) ∧
      ∀ pre a post ws s2 cause b, image = pre ++ a :: post → Says.wordsAt pre s1 = some (ws, s2) →
        s2.load s2.agentHere .any .normal (Says.span a 8) = .err (.fault cause b) →
        exec (.csload ra slot) s = s2.faultHere cause b)

namespace Says

/-- The syllable MOPn with its operands (R384). -/
def mop (n : BitVec 4) (a : MopArgs) : Instr := .mop n a.vd a.va a.vb a.mask a.ra a.imm6

/-- A vector register of elements of width `w`, element `j` being `f j`. -/
def elements (w : Nat) (f : Nat → Nat) : Vec :=
  BitVec.ofNat 2048 ((List.range (2048 / w)).map fun j => f j % 2 ^ w * 2 ^ (w * j)).sum

/-- What a selector names as a source, at element width `w`, under the micro-word's mask (R379). -/
def source (s : State) (a : MopArgs) (mask : Mask) (w sel : Nat) : Vec :=
  if sel = 0 then s.getV a.vd else if sel = 1 then s.getV a.va else if sel = 2 then s.getV a.vb
  else if sel = 3 then elements w fun j => if laneOn mask w j then a.imm6.toNat else 0
  else if sel = 4 then elements w fun _ => (s.getS a.ra).toNat
  else if sel = 5 then elements w fun _ => a.imm6.toNat
  else tget 0 s.me.temps (sel - 16)

/-- A destination's register given, whole or, in a vector register, late (R217, R379). -/
def given (s : State) (a : MopArgs) (sel : Nat) (lanes : BitVec 64) (v : Vec) : State :=
  let reg (d : VReg) : State :=
    if s.actor.late = true ∧ lanes ≠ 0 then s.pendHere (lateResult s (.vector d lanes) v) else s.setV d v
  if sel = 0 then reg a.vd else if sel = 1 then reg a.va else if sel = 2 then reg a.vb
  else s.setMe { s.me with temps := tset s.me.temps (sel - 16) v }

/-- The sequence after a micro-op: at its next, with the syllable that started it, or, after the last, at the end of the bundle
(R35, R384). -/
def wentOn (s : State) (u : USeq) (last : Bool) : State :=
  if last then s.complete else s.setMe { s.me with useq := some ⟨u.slot, u.upc + 1, some s.actor.syl⟩, fetched := [], failed := [] }

/-- The machine in which a vector micro-op's sources stand in the registers that its selectors number, its scalars in s4 and
s5, and its enable in m1 (R379 to R381). -/
def staged (s : State) (a : MopArgs) (m : Micro) (mask m1 : Mask) (w : Nat) : State :=
  let s1 := [m.d, m.a, m.b, m.c].foldl (fun st sel => st.setV (BitVec.ofNat 11 sel) (source s a mask w sel)) s
  ((s1.setS 4 (s.getS a.ra)).setS 5 (a.imm6.setWidth 64)).setM 1 m1

/-- The element width of a micro-op (R105, R380). -/
def microWidth (m : Micro) : Nat :=
  if m.op = 0x164 ∨ m.op = 0x165 then 16
  else if m.op ∈ [0x163, 0x16A, 0x16B, 0x16C, 0x171, 0x172, 0x176, 0x177, 0x1CB] then 32
  else ((ElemType.ofCode m.ty).map ElemType.width).getD 32

/-- The lanes of an access of a micro-op with their addresses (R382): consecutive words, or those that an index names. -/
def microSpan (base : Word) (enable : Mask) : List (Nat × Word) :=
  ((List.range 64).filter enable.getLsbD).map fun i => (i, base + BitVec.ofNat 64 (4 * i))

/-- The lanes of MGTH. -/
def microGather (base : Word) (enable : Mask) (x : Vec) : List (Nat × Word) :=
  ((List.range 64).filter fun i => enable.getLsbD i && x.extractLsb' (32 * i) 32 != (0x80000000 : BitVec 32)).map fun i =>
    (i, base + 4 * (x.extractLsb' (32 * i) 32).signExtend 64)

/-- A memory micro-op has gone on: the sequence is at its next, or its bundle has completed; no register has changed but the
results that are pending. -/
structure MicroDone (s t : State) (u : USeq) (last : Bool) (pending : List PendingLoad) : Prop where
  scalars : ∀ r, t.getS r = s.getS r
  preds   : ∀ n, t.getP n = s.getP n
  temps   : t.me.temps = s.me.temps
  pending : t.me.pending = pending
  useq    : t.me.useq = if last then none else some ⟨u.slot, u.upc + 1, some s.actor.syl⟩
  pc      : t.me.pc = if last then (loopEnd s.me.pc s.me.loops).1 else s.me.pc
  rest    : KeepsRegisters s t

end Says

/-- R377, R382 to R387: MOPn with its slot unbound faults with MOP_UNBOUND; bound, it begins its sequence with the
temporaries zero and executes the first micro-op. MLIT writes its immediate, shifted by 12, to the enabled lanes of its
destination; MSKIP skips when every enabled lane of its source is zero. After the last micro-op the bundle completes, and
after another the sequence goes on. -/
def Says.MopBeginsAndGoesOn : Prop :=
  ∀ (s : State) (n : BitVec 4) (a : MopArgs) (u : USeq),
    let m := microOf (s.here.microAt u.slot u.upc)
    let mask := s.getM (BitVec.ofNat 4 m.mask)
    let enable := s.getM a.mask &&& mask
    (s.me.useq = none → s.here.bound n = false → exec (Says.mop n a) s = s.faultHere .mopUnbound 0) ∧
    (s.me.useq = none → s.here.bound n = true →
      exec (Says.mop n a) s =
        exec (Says.mop n a) (s.setMe { s.me with useq := some ⟨n, 0, some s.actor.syl⟩, temps := Vector.replicate 16 0 })) ∧
    (s.me.useq = some u →
      (m.op = 0x1F4 → ∃ (t : State) (v : Vec), exec (Says.mop n a) s = .next t ∧ Says.SameBytes s t ∧
        (∀ k, k < 64 → elem v 32 k = if enable.getLsbD k then m.imm * 4096 else elem (Says.source s a mask 32 m.d) 32 k) ∧
        t = Says.wentOn (Says.given s a m.d enable v) u m.last) ∧
      (m.op = 0x1F3 → ∃ t, exec (Says.mop n a) s = .next t ∧ Says.SameBytes s t ∧
        ((∀ i, i < 64 → enable.getLsbD i = true → elem (Says.source s a mask 32 m.a) 32 i = 0) →
          t = s.setMe { s.me with
            useq := some ⟨u.slot, u.upc + 1 + m.imm % 64, some s.actor.syl⟩, fetched := [], failed := [] }) ∧
        ((∃ i, i < 64 ∧ enable.getLsbD i = true ∧ elem (Says.source s a mask 32 m.a) 32 i ≠ 0) →
          t = Says.wentOn s u m.last)) ∧
      (m.last = true → ∀ t : State, t.me.useq = some u → (Says.wentOn t u m.last).me.useq = none ∧
        (Says.wentOn t u m.last).actor.done = true))

/-- R379 to R381: a vector micro-op computes what its syllable does with its operands in the places that its selectors
name, and writes its destination's enabled lanes and %fpstat: a lane is written where the syllable computes an element of
it, by VINS only where it is enabled, and by VSEL where the syllable's mask has it. Every other lane keeps its value. The
width at which a selector that is no register is taken is assumption entry 54. -/
def Says.VectorMicroOps : Prop :=
  ∀ (s : State) (n : BitVec 4) (a : MopArgs) (u : USeq) (i : Instr) (vd : VReg) (w : Nat) (g : Nat → Option FRes),
    let m := microOf (s.here.microAt u.slot u.upc)
    let mask := s.getM (BitVec.ofNat 4 m.mask)
    let enable := s.getM a.mask &&& mask
    s.me.useq = some u → m.isVector = true → m.formOk = true → m.syllable (if m.op = 0x175 then 0 else 1) = some i →
    Says.vector (Says.staged s a m mask (if m.op = 0x171 then mask else enable) (Says.microWidth m)) i = some (vd, w, g) →
    let computed (k : Nat) : Prop := ∃ j, j < 2048 / w ∧ j / (32 / w) = k ∧ (g j).isSome = true
    let written (k : Nat) : Prop :=
      if m.op = 0x175 then computed k ∧ enable.getLsbD k = true else if m.op = 0x171 then (s.getM a.mask).getLsbD k = true
      else computed k
    ∃ (t : State) (v : Vec) (lanes : BitVec 64), exec (Says.mop n a) s = .next t ∧ Says.SameBytes s t ∧
      (∀ k, k < 64 → (lanes.getLsbD k = true ↔ written k)) ∧
      (∀ j, j < 2048 / w → elem v w j = match g j, lanes.getLsbD (j / (32 / w)) with
        | some r, true => r.bits % 2 ^ w
        | _, _ => elem (Says.source s a mask (Says.microWidth m) m.d) w j) ∧
      t = Says.wentOn ((Says.given s a m.d lanes v).raiseFp (Says.flagsOf w g)) u m.last

/-- R382, R383: MLD, MST and MGTH, nothing of their cluster standing before them. A lane whose address is no multiple of 4
faults with MISALIGNED, the lowest first. MLD and MGTH, their bytes readable and none a peer's, become a pending load of the
enabled lanes of the destination; MST stores the enabled lanes of its source; and the sequence goes on. -/
def Says.MemoryMicroOps : Prop :=
  ∀ (s : State) (n : BitVec 4) (a : MopArgs) (u : USeq),
    let m := microOf (s.here.microAt u.slot u.upc)
    let mask := s.getM (BitVec.ofNat 4 m.mask)
    let enable := s.getM a.mask &&& mask
    let base := s.getS a.ra + (BitVec.ofNat 20 m.imm).signExtend 64
    let lanes := if m.op = 0x1F2 then Says.microGather base enable (Says.source s a mask 32 m.a) else Says.microSpan base enable
    s.me.useq = some u → Says.Prompt s →
    (∀ v, m.op ∈ [0x1F0, 0x1F1, 0x1F2] → (lanes.map (·.2)).find? (fun b => b.toNat % 4 ≠ 0) = some v →
      exec (Says.mop n a) s = s.faultHere .misaligned v) ∧
    (∀ s1 bytes, m.op = 0x1F0 ∨ m.op = 0x1F2 → Says.Aligned 4 (lanes.map (·.2)) →
      s.load s.agentHere .any .normal ((Says.laneBytes lanes).map (·.2)) = .ok s1 bytes [] →
      Says.Unsent s ((Says.laneBytes lanes).map (·.2)) →
      ∃ (t : State) (l : PendingLoad), exec (Says.mop n a) s = .next t ∧ Says.SameBytes s1 t ∧
        Says.MicroDone s t u m.last (s.me.pending ++ [l]) ∧
        l.dest = (if m.d = 0 then .vector a.vd (Says.lanesOf (lanes.map (·.1)))
          else if m.d = 1 then .vector a.va (Says.lanesOf (lanes.map (·.1)))
          else if m.d = 2 then .vector a.vb (Says.lanesOf (lanes.map (·.1)))
          else .temp (BitVec.ofNat 4 (m.d - 16)) (Says.lanesOf (lanes.map (·.1)))) ∧ l.unread = [] ∧
        ∀ k, k < (Says.laneBytes lanes).length →
          (l.raw.extractLsb' (8 * ((Says.laneBytes lanes).getD k (0, 0)).1) 8 : Byte) = bytes.getD k 0) ∧
    (∀ ls, m.op = 0x1F1 → Says.Canonical s → Says.Aligned 4 (lanes.map (·.2)) →
      s.checkAccess s.agentHere .write .any ((Says.laneBytes lanes).map (·.2)) = .ok ls → (∀ l ∈ ls, Says.InPlace l) →
      s.stall s.agentHere ls = none →
      ∃ t, exec (Says.mop n a) s = .next t ∧ Says.MicroDone s t u m.last s.me.pending ∧
        ∀ pl, t.peek pl = (Says.lastAt (ls.zip ((Says.laneBytes lanes).map fun x =>
          ((Says.source s a mask 32 m.a).extractLsb' (8 * x.1) 8))) pl).getD (s.peek pl))

/-- R377, R379 to R387: sequences and their micro-ops. -/
def Obligations.MicroSequences : Prop := Says.MopBeginsAndGoesOn ∧ Says.VectorMicroOps ∧ Says.MemoryMicroOps

namespace Says

/-- A save or load of a core is in progress (R341): status 3. -/
def Busy (s : State) (c : CoreId) : Prop :=
  (s.core c).xfer.isSome = true ∨ (s.core c).phase = .saving ∨ (s.core c).phase = .saved ∨ (s.core c).phase = .loading

/-- No context is running on a core, or its context is being removed (R341): status 1. It is stopped for good, a kill of
its task is in progress, or its polder is being reset. -/
def Contextless (s : State) (c : CoreId) : Prop :=
  (s.core c).ctx = none ∨ (s.core c).phase = .free ∨ (s.core c).phase = .doubleFault ∨ (s.core c).phase = .machineStop ∨
    s.removalDue c .kill = true ∨ (s.polder (s.core c).polderNo).part.flrGo = true

end Says

namespace Says

/-- The transfer that the executing syllable, with its operands, has begun (R341, R342). -/
def mine (s : State) (ops : List Word) : Option Asked :=
  (s.here.askedAt s.actor.cl).filter fun a => a.syl = s.actor.syl ∧ a.ops = ops

/-- The executing syllable has begun none that is in progress or answered. -/
def Unasked (s : State) (ops : List Word) : Prop :=
  ∀ a, mine s ops = some a → a.answer = none ∧ s.transferring s.actor.core s.actor.cl a = false

/-- The executing cluster waits for the answer of the transfer that its syllable has begun on core `c`; its registers are as
they were. -/
def Awaits (s t : State) (ops : List Word) (c : CoreId) (base : Word) : Prop :=
  t.me = { s.me with status := .waiting .answer, asked := t.me.asked } ∧ ∃ a, mine t ops = some a ∧ a.answer = none ∧
    ((t.core c).xfer.map fun x => (x.base, x.by_)) = some (base, .cluster s.actor.core s.actor.cl a.token)

end Says

/-- R341, R343: CTXSAVE at a 4 KiB boundary whose image range passes its checks, nothing of its cluster standing before it,
its syllable having begun no transfer with these operands that is in progress or answered. A number that is no core of the
polder completes with 4, the core's own with 2, a core that is saving or loading with 3, one that runs no context or whose
context is being removed with 1, and nothing else changes. Otherwise the save begins on the named core, at once or, in fence
mode, at a generation boundary, and the cluster waits for its answer; it completes when the answer is there and its
reductions are applied, with the answer in s[rd]. -/
def Says.CtxsaveAnswers : Prop :=
  ∀ (s : State) (rd ra rb rc : SReg) (mode : SaveMode) (blocks : List (Nat × Nat)), Says.Settled s →
    let base := s.getS rb
    let p := s.polder s.here.polderNo
    let i := (s.getS ra).toNat
    let ops := [s.getS ra, base, s.getS rc]
    let run := exec (.ctxsave rd ra rb rc mode) s
    (∀ a w, Says.mine s ops = some a → a.answer = some w → s.reductionsOut = false →
      ∃ t, run = .next t ∧ Says.WroteScalar s t rd w) ∧
    (Says.Unasked s ops → base.toNat % 4096 ≠ 0 → run = s.faultHere .misaligned base) ∧
    (Says.Unasked s ops → base.toNat % 4096 = 0 → s.checkBlocks s.agentHere .write base 832 = .ok blocks →
      (p.coreList.length ≤ i → ∃ t, run = .next t ∧ Says.WroteScalar s t rd 4) ∧
      (i < p.coreList.length → p.coreAt i = some s.actor.core → ∃ t, run = .next t ∧ Says.WroteScalar s t rd 2) ∧
      ∀ c, i < p.coreList.length → p.coreAt i = some c → c ≠ s.actor.core →
        (Says.Busy s c → ∃ t, run = .next t ∧ Says.WroteScalar s t rd 3) ∧
        (¬ Says.Busy s c → Says.Contextless s c → ∃ t, run = .next t ∧ Says.WroteScalar s t rd 1) ∧
        (¬ Says.Busy s c → ¬ Says.Contextless s c →
          (mode = .fence → ∃ t, run = .next t ∧ Says.Awaits s t ops c base ∧ Says.SameBytes s t ∧
            (t.core c).phase = (s.core c).phase) ∧
          (mode = .immediate → ((s.core c).queue .cin).running = [] → ((s.core c).queue .gth).running = [] →
            ∃ t, run = .next t ∧ Says.Awaits s t ops c base ∧ Says.SameBytes s t ∧ (t.core c).phase = .saving)))

/-- A core holds the registers of an image (R338 to R340, R342, R346): the scalars, the predicates, the next bundle, the
vector registers and the masks. -/
structure Says.Restored (t : State) (c : CoreId) (m : Memory) : Prop where
  scalars : ∀ (y : Cluster) (r : SReg), (t.cl c y).getS r =
    if r = 0 then 0 else BitVec.ofNat 64 (leNat (rdBytes m (0x260000 + 0x200 * y.code + 8 * r.toNat) 8))
  preds   : ∀ (y : Cluster) (n : PReg), (t.cl c y).getP n =
    (decide (n = 0) || (leNat (rdBytes m (0x260808 + 0x100 * y.code) 2)).testBit n.toNat)
  pcs     : ∀ y : Cluster, (t.cl c y).pc = BitVec.ofNat 64 (leNat (rdBytes m (0x260800 + 0x100 * y.code) 8)) &&& ~~~31
  vectors : ∀ n, n < 1536 → tget 0 (t.core c).regs.v n = BitVec.ofNat 2048 (leNat (rdBytes m (0x200000 + 0x100 * n) 256))
  masks   : ∀ n : MReg, n ≠ 0 → (t.core c).getM n = BitVec.ofNat 64 (leNat (rdBytes m (0x260C00 + 8 * n.toNat) 8))

/-- R342, R343: CTXLOAD at a 4 KiB boundary, its reductions applied, nothing of its cluster standing before it, its syllable
having begun no transfer that is in progress or answered. An image whose header is not one completes with 5; one that is, and
is legal, fits its polder and names a core that is free, is restored onto that core, which loads it, and the cluster waits
for its answer; it completes with the answer in s[rd]. Its reads are not charged to the polder's shares (R337). -/
def Says.CtxloadAnswers : Prop :=
  ∀ (s : State) (rd ra : SReg) (s1 s2 : State) (head bytes : List Byte) (c : CoreId),
    Says.Settled s →
    let base := s.getS ra
    let run := exec (.ctxload rd ra) s
    let u := s1.uncharged s
    let v := s2.uncharged s
    (∀ a w, Says.mine s [base] = some a → a.answer = some w → s.reductionsOut = false →
      ∃ t, run = .next t ∧ Says.WroteScalar s t rd w) ∧
    (Says.Unasked s [base] → base.toNat % 4096 ≠ 0 → run = s.faultHere .misaligned base) ∧
    (Says.Unasked s [base] → base.toNat % 4096 = 0 → s.reductionsOut = false → s.me.fetched = [] →
      s.load s.agentHere .any .normal (Says.span base 4096) = .ok s1 head [] →
      (headerOk (imageOf head) = false → ∃ t, run = .next t ∧ Says.WroteScalar u t rd 5) ∧
      (headerOk (imageOf head) = true →
        u.load u.agentHere .any .normal (Says.span base (imageSize (imageOf head))) = .ok s2 bytes [] →
        imageOk (imageOf bytes) = true → (v.polder v.here.polderNo).fits (imageOf bytes) = true →
        (v.polder v.here.polderNo).place (imgGet (imageOf bytes) 0x10 1) (imgGet (imageOf bytes) 0x11 1) = some c →
        c ≠ s.actor.core → (v.core c).loadable = true →
        ∃ t, run = .next t ∧ Says.Awaits v t [base] c base ∧ (t.core c).phase = .loading ∧
          Says.Restored t c (imageOf bytes)))

/-- R341, R342: CTXSAVE and CTXLOAD. -/
def Obligations.ContextTransfers : Prop := Says.CtxsaveAnswers ∧ Says.CtxloadAnswers

namespace Says

/-- The event that starts a command: its core, its queue and the command's opcode (R139, R145, R147, R239, R243, R244,
R247). -/
def commandStart : Instr → Option (Nat × Engine × Nat)
  | .mmaCommand n => some (n, .mtx, 1)
  | .mretCommand n => some (n, .mtx, 2)
  | .mzeroCommand n => some (n, .mtx, 3)
  | .cpinCommand n => some (n, .cin, 1)
  | .cpstrCommand n => some (n, .cin, 2)
  | .cpoutCommand n => some (n, .cout, 1)
  | .cpredCommand n => some (n, .cout, 2)
  | .gathCommand n => some (n, .gth, 1)
  | .topkCommand n => some (n, .topk, 1)
  | .gfenceCommand n e => some (n, e, 14)
  | .notifyCommand n e => some (n, e, 15)
  | _ => none

/-- A command is ready: its rings hold what it takes and have room for what it gives (R140, R141, R144, R146 to R148, R246,
R248, R253); NOTIFY and GFENCE always are. -/
def ready (s : State) (c : CoreId) (e : Engine) (x : Cmd) (w : Word) : Bool :=
  match e, wordEop w with
  | .mtx, 1 => (s.core c).mmaReady w
  | .mtx, 2 => (s.core c).mretReady w
  | .cin, 1 => (s.core c).copyReady .cin x w
  | .cin, 2 => (s.core c).copyReady .cin x w
  | .cout, 1 => (s.core c).copyReady .cout x w
  | .cout, 2 => (s.core c).copyReady .cout x w
  | .gth, 1 => (s.core c).gathReady x w
  | .topk, 1 => (s.core c).topkReady w
  | _, _ => true

/-- What a command checks, claims and reads at its start (R140, R141, R144, R146 to R149, R248, R249). -/
def launch (s : State) (c : CoreId) (e : Engine) (x : Cmd) (w : Word) : Launch :=
  match e, wordEop w with
  | .mtx, 1 => s.mmaLaunch c x w
  | .mtx, 2 => s.mretLaunch c w
  | .cin, 1 => s.copyLaunch c .cin w
  | .cin, 2 => s.copyLaunch c .cin w
  | .cout, 1 => s.copyLaunch c .cout w
  | .cout, 2 => s.copyLaunch c .cout w
  | .gth, 1 => s.gathLaunch c w
  | .topk, 1 => s.topkLaunch c x w
  | _, _ => ⟨none, [], [], [], 0, [], [], [], decide (wordEop w ≠ 14 ∧ wordEop w ≠ 15)⟩

/-- How a command that is ready is bound (R256, R260, R263). -/
def bound (s : State) (c : CoreId) (e : Engine) (x : Cmd) (w : Word) : Binding :=
  if wordEop w = 14 ∨ wordEop w = 15 then .dedicated
  else match e with
    | .mtx => s.bindArray c x
    | .topk => s.bindTopk c x
    | _ => bindUnit x

/-- The command next in its queue may start: its polder is enabled, its core starts commands, its WAIT condition holds, it
is ready, and it has its binding (R239, R240, R260, R316, R349); no access of another core is put off that one of it would
have to follow (assumption entry 3). -/
structure Starts (s : State) (c : CoreId) (e : Engine) (eop : Nat) (x : Cmd) (w : Word) : Prop where
  next    : ((s.core c).queue e).nextCmd e = some x
  word    : w = (s.core c).cmdWord e x.seq
  legal   : wordOk e w = true
  opcode  : wordEop w = eop
  runs    : s.dev.stopped = false
  enabled : s.mayRun c = true
  whole   : x.faulted = false
  may     : (s.core c).mayStart e x = true
  waited  : (s.core c).cmdReady x w = true
  ready   : Says.ready s c e x w = true
  bound   : Says.bound s c e x w ≠ .waits
  alone   : s.entangled = false

/-- No access of any cluster is put off. -/
def AllPrompt (s : State) : Prop := ∀ d, (s.core d).calm = true ∧ ∀ y, (s.cl d y).held = []

/-- Why a command does not start, the first reason of the order of its checks (R248, R254): a check of its entry, a slot, a raw
range or an outlier ring in a mapped region (R157), or a byte that an unordered command works on. -/
def failure (s : State) (c : CoreId) (e : Engine) (x : Cmd) (w : Word) : Option (Cause × Word) :=
  let k := s.core c
  let l := launch s c e x w
  match l.check, k.stashCheck e x w l, k.overlap x (k.rawRanges e w) (k.startFront e x w l.heads) with
  | some f, _, _ => some f
  | none, some f, _ => some f
  | none, none, some o => some (.unorderedOverlap, 0x7F0000000000 + BitVec.ofNat 64 o)
  | none, none, none => none

/-- The machine with a command of a queue faulted (R267, R317). -/
def faulting (s : State) (c : CoreId) (e : Engine) (n : Half) : State :=
  s.setCore c ((s.core c).setQueue e
    { (s.core c).queue e with
      entries := ((s.core c).queue e).entries.map fun x => if x.seq = n then { x with faulted := true } else x
      hist := ((s.core c).queue e).hist.map fun h => if h.seq = n then { h with status := .faulted } else h })

/-- Slots that a list of claims takes on a stream. -/
def claimed (l : List (StReg × Nat)) (st : StReg) : Nat := ((l.filter fun p => p.1 = st).map (·.2)).sum

/-- What a core holds beside its engines' queues and streams, its flags and its save in progress is as it was. -/
structure OnlyQueues (s t : State) (c : CoreId) : Prop where
  clusters : (t.core c).cls = (s.core c).cls
  memories : (t.core c).loc = (s.core c).loc
  special  : (t.core c).trap = (s.core c).trap
  accs     : (t.core c).eng.accs = (s.core c).eng.accs
  vectors  : (t.core c).regs.v = (s.core c).regs.v ∧ (t.core c).regs.m = (s.core c).regs.m
  others   : ∀ d, d ≠ c → t.core d = s.core d

end Says

/-- R136, R139 to R148, R157, R229, R239, R240, R248, R254: the command next in its queue starts when it is ready, bound,
passes its checks and overlaps no unordered command: the queue's started number is its own, and it keeps its binding, the walk
position and the descriptors that it read. Each ring that it writes has its tail moved past the slots claimed, unless the
command holds its claims already; no head moves; and where no cluster's access is put off no data moves yet. One that fails a
check, on a core that can enter its handler with nothing outstanding, faults: the handler is entered with the check's cause,
the engine's number and the command word. These are the model's choices: that data move at the retirement but for what free
choices have moved before (assumption entry 32); that accesses put off at a range that a command records are performed first
(entry 3); the handler is entered in the same step (entry 8); the order of two checks that an entry leaves open (entries 35
and 64); an MMA whose other ring is empty waits (entry 61); which bound command ran before it (entry 55). -/
def Obligations.CommandStarts : Prop :=
  ∀ (i : Instr) (s : State) (c : CoreId) (e : Engine) (eop : Nat) (x : Cmd) (w : Word),
    Says.commandStart i = some (c.val, e, eop) → Says.Starts s c e eop x w →
    let k := s.core c
    let l := Says.launch s c e x w
    (Says.failure s c e x w = none →
      ∃ t, exec i s = .next t ∧ (Says.AllPrompt s → Says.SameBytes s t ∧ Says.OnlyQueues s t c) ∧
        ((t.core c).queue e).started = x.seq ∧
        (∃ y ∈ ((t.core c).queue e).entries, y.seq = x.seq ∧ ∃ st, y.started = some st ∧
          st.dedicated = decide (Says.bound s c e x w = .dedicated) ∧ st.walk = l.walk ∧
          ∀ n ∈ streamsOf e w, ∀ d, (k.stream n).desc = some d → (n, d) ∈ st.descs) ∧
        ∀ st, ((t.core c).stream st).h = (k.stream st).h ∧ ((t.core c).stream st).desc = (k.stream st).desc ∧
          ((t.core c).stream st).t = (k.stream st).t + BitVec.ofNat 32 (if x.held then 0 else Says.claimed l.claims st)) ∧
    (∀ cause va off, Says.failure s c e x w = some (cause, va) → k.phase = .running → (∀ y, (s.cl c y).due = false) →
      Says.Enterable (Says.faulting s c e x.seq) c off → (Says.faulting s c e x.seq).quiet c = true →
      ∃ t, exec i s = .next t ∧
        Says.Entered (Says.faulting s c e x.seq) t c ⟨cause, 0, .S, some e, va, w, false⟩ off)

namespace Says

/-- The oldest command of a queue has started, and its core's commands run to retirement (R239, R316); no row is under
self-test (R329), and no access of another core is put off that one of the command would have to follow (assumption entry
3). -/
structure Retires (s : State) (c : CoreId) (e : Engine) (x : Cmd) (st : Started) (w : Word) : Prop where
  head    : ((s.core c).queue e).entries.head? = some x
  started : x.started = some st
  word    : w = (s.core c).cmdWord e x.seq
  may     : (s.core c).retires = true
  runs    : s.dev.stopped = false
  rows    : s.fenced = []
  alone   : s.entangled = false

/-- The command has left its queue. -/
def Left (t : State) (c : CoreId) (e : Engine) (x : Cmd) : Prop :=
  ((t.core c).queue e).retired = x.seq ∧ ∀ y ∈ ((t.core c).queue e).entries, y.seq ≠ x.seq

/-- What a retirement does to a ring: a command's claims are published, slots are popped, the walk position advances, the
logical index base rises (R136, R235, R239). -/
inductive RingMove where
  | publish (st : StReg)
  | pop (st : StReg) (n : Nat)
  | advance (st : StReg) (n : Nat)
  | index (st : StReg) (n : Nat)

/-- A field of five bits of a command word. -/
def stAt (w : Word) (lo : Nat) : StReg := w.extractLsb' lo 5

/-- The tiles that a copy command moves (R247). -/
def tilesOf (w : Word) : Nat := w.toNat / 2 ^ 9 % 16 + 1

/-- What the retirement of a command does to its rings, in order: an MMA's popped operands, an MRET's published destination, a
copy's position, claims and slots, a GATH's two tiles and its row pointers, a TOPK's output and input; then the completion
record's slot (R136, R139, R141, R145 to R147, R239, R246, R249). -/
def ringMoves (e : Engine) (w : Word) (elems : Nat) : List RingMove :=
  let completion (enable lo : Nat) : List RingMove := if w.getLsbD enable then [.publish (stAt w lo)] else []
  match e, wordEop w with
  | .mtx, 1 => (if w.getLsbD 9 then [.pop (stAt w 19) 1] else []) ++ (if w.getLsbD 8 then [.pop (stAt w 14) 1] else [])
  | .mtx, 2 => [.publish (stAt w 19)]
  | .cin, 1 => [.advance (stAt w 19) (tilesOf w), .publish (stAt w 19)] ++ completion 13 14
  | .cin, 2 => [.advance (stAt w 19) (tilesOf w)] ++ completion 13 14
  | .cout, 1 | .cout, 2 => [.advance (stAt w 19) (tilesOf w), .pop (stAt w 19) (tilesOf w)] ++ completion 13 14
  | .gth, 1 => [.publish (stAt w 9), .publish (stAt w 9 + 1), .pop (stAt w 19) 1] ++ completion 3 4
  | .topk, 1 => .publish (stAt w 14) ::
      (if w.getLsbD 4 then .pop (stAt w 19) 1 :: (if w.getLsbD 5 then [] else [.index (stAt w 19) elems]) else [])
  | _, _ => []

/-- A ring after one of those: of the claims, oldest first, the command's own are ready, and those up to the first that is not
are published (R235). -/
def ringAfter (id : CmdId) (r : StReg → Stream) : RingMove → StReg → Stream
  | .publish st, n => if n ≠ st then r n else
      let l := (r n).claims.map fun c => if c.owner = some id then { c with ready := true } else c
      { r n with claims := l.dropWhile (·.ready), filledBy := (r n).filledBy ++ (l.takeWhile (·.ready)).map (·.front) }
  | .pop st k, n => if n ≠ st then r n else
      { r n with h := (r n).h + BitVec.ofNat 32 k, filledBy := (r n).filledBy.drop k }
  | .advance st k, n => if n ≠ st then r n else
      { r n with desc := (r n).desc.map fun d => Desc.setField d 0x1C 4 ((Desc.pos d + k) % Desc.tiles d) }
  | .index st k, n => if n ≠ st then r n else
      { r n with desc := (r n).desc.map fun d => Desc.setField d 0x34 4 ((Desc.ibase d).toNat + k) }

/-- The slots that an MMA pops are those that it has reserved (R229). -/
def MmaReserves (x : Cmd) (w : Word) : Prop :=
  x.reserves.map (fun r => (r.st, r.n)) = if wordEop w = 1 then
    (if w.getLsbD 9 then [(stAt w 19, 1)] else []) ++ (if w.getLsbD 8 then [(stAt w 14, 1)] else []) else []

/-- The flag that a command's SIGNAL byte names: its low seven bits where bit 7 is set, 0 for none (R31). -/
def signalOf (w : Word) : FlagReg := if w.getLsbD 55 then w.extractLsb' 48 7 else 0

end Says

/-- R239, R244, R246: the oldest command of a queue, when it has started, retires: it leaves its queue, whose retired number
is its own. NOTIFY and GFENCE move no byte, and NOTIFY's queue counts one more on its event. Of another command, whose
work ends without a fault and without a watched byte, the bytes are as its work leaves them (what that is,
`Obligations.EngineCommandsWrite` and `Obligations.MatrixCommandsAccumulate` say); with a completion stream and no
watchpoint enabled, the 16-byte record of its number, its queue, the status 1 and the bytes moved stands in the slot that
it claimed. Its rings publish, pop and advance as its entry says. Its SIGNAL, the queue being empty behind it, increments
its flag, and the commands that are granted an increment consume it (in the order of assumption entry 36). An event of the
weir has fired as often as the least of its queues' counts, and no less often than before. No cluster register changes.
That its bytes move in this step, but for what free choices have moved before, is entry 32; what a publication is ordered
after, entry 43. -/
def Obligations.CommandRetirements : Prop :=
  ∀ (s : State) (c : CoreId) (e : Engine) (x : Cmd) (st : Started) (w : Word), Says.Retires s c e x st w →
    let run := exec (.commandRetirement c.val e) s
    (wordEop w = 14 ∨ wordEop w = 15 → ∃ t, run = .next t ∧ Says.Left t c e x ∧ Says.SameBytes s t ∧
      (t.core c).cls = (s.core c).cls) ∧
    (wordEop w = 15 → ∃ t, run = .next t ∧ ∀ ev : BitVec 3, ev = w.extractLsb' 0 3 →
      tget 0 (tget (Vector.replicate 8 0) (t.core c).eng.weirN e.code) ev.toNat =
        tget 0 (tget (Vector.replicate 8 0) (s.core c).eng.weirN e.code) ev.toNat + 1 ∧
      let n (q : Engine) : Nat := (tget 0 (tget (Vector.replicate 8 0) (t.core c).eng.weirN q.code) ev.toNat).toNat
      let old := (tget 0 (s.core c).eng.weirF ev.toNat).toNat
      let new := (tget 0 (t.core c).eng.weirF ev.toNat).toNat
      old ≤ new ∧ (∀ q : Engine, w.getLsbD (3 + q.code) = true → old < new → new ≤ n q) ∧
        (w.getLsbD (3 + e.code) = true → ∃ q : Engine, w.getLsbD (3 + q.code) = true ∧ n q ≤ new)) ∧
    (∀ s1 bytes, s.cmdWork c e x w st = .done s1 bytes none → completionOf e w = none →
      ∃ t, run = .next t ∧ Says.Left t c e x ∧ Says.SameBytes s1 t ∧ (t.core c).cls = (s1.core c).cls) ∧
    (∀ s1 bytes to_, s.cmdWork c e x w st = .done s1 bytes none → completionOf e w = some to_ →
      (s1.core c).getSr 0x084 = 0 → (s1.core c).calm = true → s1.entangled = false →
      Memory.wf (s1.core c).loc.scratch = true →
      ∃ t o, run = .next t ∧ Says.Left t c e x ∧ (t.core c).cls = (s1.core c).cls ∧ t.mem = s1.mem ∧
        o = Desc.slotOff (st.desc to_) (((x.claims.find? fun r => r.st = to_).map (·.first)).getD 0) ∧
        rdBytes (t.core c).loc.scratch o 16 =
          leBytes 8 (x.seq.toNat * 2 ^ 32 + e.code * 2 ^ 16 + 1) ++ leBytes 8 bytes ∧
        ∀ a, (a < o ∨ o + 16 ≤ a) → rdByte (t.core c).loc.scratch a = rdByte (s1.core c).loc.scratch a) ∧
    (∀ s1 bytes, s.cmdWork c e x w st = .done s1 bytes none → wordOk e w = true → (s1.core c).getSr 0x084 = 0 →
      (e = .mtx → Says.MmaReserves x w) → (∀ n ∈ streamsOf e w, ((s1.core c).stream n).desc.isSome = true) →
      let d := ((s1.core c).stream (Says.stAt w 19)).desc.getD 0
      ∃ t, run = .next t ∧ ∀ n, (t.core c).stream n =
        (Says.ringMoves e w (Desc.rows d * Desc.cols d)).foldl (Says.ringAfter ⟨e, x.seq⟩) (s1.core c).stream n) ∧
    (∀ s1 bytes, s.cmdWork c e x w st = .done s1 bytes none → (s1.core c).getSr 0x084 = 0 → Says.signalOf w ≠ 0 →
      ((s1.core c).queue e).entries = [x] →
      let g := (s1.core c).flag (Says.signalOf w)
      let won := Says.grants g (Says.incremented g)
      ∃ t, run = .next t ∧ ((t.core c).flag (Says.signalOf w)).count = Says.incremented g - won.length ∧
        ((t.core c).flag (Says.signalOf w)).waiters = won.foldl (fun l q => l.erase (.engine q)) g.waiters ∧
        ∀ h, h ≠ Says.signalOf w → (t.core c).flag h = (s1.core c).flag h)

namespace Says

/-! ### What commands write -/

/-- The rows of tile `i` of a copy command on a stream, with its walk position at the start and the slot of the tile: global
address and scratchpad offset of each (R133, R249). -/
def tileRows (d : Desc) (walk i slot : Nat) : List (Word × Nat) :=
  let p := (walk + i) % Desc.tiles d
  let g := Desc.base d + BitVec.ofNat 64 (p / Desc.across d * Desc.rows d * Desc.rowStride d +
    p % Desc.across d * Desc.tileStride d)
  (List.range (Desc.rows d)).map fun r =>
    (g + BitVec.ofNat 64 (r * Desc.rowStride d), slot + r * (Desc.cols d * halfBytes (Desc.format d) / 2))

/-- The first slot count of a list of runs on a stream. -/
def firstOf (l : List SlotRun) (st : StReg) : Half := ((l.find? fun r => r.st = st).map (·.first)).getD 0

/-- The slot of tile `i`: a CPIN's claimed one, the raw area of a CPSTR, a reserved one of CPOUT and CPRED (R249). -/
def slotOfTile (e : Engine) (x : Cmd) (w : Word) (d : Desc) (i : Nat) : Nat :=
  if e = .cin ∧ wordEop w = 2 then Desc.ring d + i * Desc.slotBytes d
  else Desc.slotOff d (firstOf (if e = .cin then x.claims else x.reserves) (stAt w 19) + BitVec.ofNat 32 i)

/-- No watchpoint is enabled on a core, no row is under self-test, and nothing of its accesses, or of another core's that one
of its commands would have to follow, is put off. -/
structure Plain (s : State) (c : CoreId) : Prop where
  watch : (s.core c).getSr 0x084 = 0
  rows  : s.fenced = []
  calm  : (s.core c).calm = true
  alone : s.entangled = false

/-- A command works afresh: nothing of it is done, read early or failed. -/
structure Fresh (s : State) (c : CoreId) (x : Cmd) : Prop where
  progress : x.prog = 0
  out      : x.out = []
  hit      : x.hit = none
  early    : x.fetched = []
  failed   : x.failed = []
  plain    : Plain s c

/-- Rows of `n` bytes read one after another, none from a peer; their bytes in order. -/
inductive ReadsRows (c : CoreId) (n : Nat) : State → List (Word × Nat) → State → List Byte → Prop
  | nil (s : State) : ReadsRows c n s [] s []
  | row (s s1 t : State) (va : Word) (off : Nat) (bytes bs : List Byte) (l : List (Word × Nat)) :
      s.load (s.engineAgent c .cin) .any .normal (span va n) = .ok s1 bytes [] → ReadsRows c n s1 l t bs →
      ReadsRows c n s ((va, off) :: l) t (bytes ++ bs)

/-- Tiles copied in one after another, each with its scratchpad offset: a tile's rows are read, and its bytes are put into the
scratchpad; the bytes put, in order. -/
inductive CopiesIn (c : CoreId) (n : Nat) : State → List (Nat × List (Word × Nat)) → State → List (Nat × Byte) → Prop
  | nil (s : State) : CopiesIn c n s [] s []
  | tile (s s1 t : State) (o : Nat) (rows : List (Word × Nat)) (bytes : List Byte) (l : List (Nat × List (Word × Nat)))
      (ws : List (Nat × Byte)) :
      ReadsRows c n s rows s1 bytes → Plain s1 c → CopiesIn c n (s1.padWrite c .cin o bytes) l t ws →
      CopiesIn c n s ((o, rows) :: l) t (((List.range bytes.length).map (o + ·)).zip bytes ++ ws)

/-- The last byte that a list puts at an offset. -/
def lastPut (ws : List (Nat × Byte)) (a : Nat) : Option Byte := (ws.reverse.find? fun w => w.1 == a).map (·.2)

/-- R249: CPIN and CPSTR. The rows of its tiles being read in order, none from a peer, the command's work is done with the bytes
of its tiles moved: each byte of the scratchpad that a tile covers holds the byte that the last tile to cover it has read, and
every other byte is as it was. -/
def CopiesPutTheirRows : Prop :=
  ∀ (s t : State) (c : CoreId) (x : Cmd) (st : Started) (w : Word) (ws : List (Nat × Byte)),
    Fresh s c x → wordEop w = 1 ∨ wordEop w = 2 → (wordEop w = 1 → ∃ r ∈ x.claims, r.st = stAt w 19) →
    Memory.wf (s.core c).loc.scratch = true →
    let d := st.desc (stAt w 19)
    let n := Desc.cols d * halfBytes (Desc.format d) / 2
    let slot (i : Nat) : Nat := slotOfTile .cin x w d i
    CopiesIn c n s ((List.range (tilesOf w)).map fun i => (slot i, tileRows d st.walk i (slot i))) t ws →
    s.cmdWork c .cin x w st =
      .done t (tilesOf w * (Desc.rows d * Desc.cols d * halfBytes (Desc.format d) / 2)) none ∧
    ∀ a, rdByte (t.core c).loc.scratch a = (lastPut ws a).getD (rdByte (s.core c).loc.scratch a)

/-- The new value of an element that a CPRED reduces (R250): sums wrap, or are rounded once to nearest; the greater and the
lesser go by value. -/
def reduced (op : RedOp) (old v : Nat) : Nat :=
  match op with
  | .addI32 => (old + v) % 2 ^ 32
  | .addF32 => (fpAdd fmtF32 .rne old v).bits
  | .addBf16 => (fpAdd fmtBF16 .rne old v).bits
  | .maxF32 => (minMaxBits fmtF32 true old v).bits
  | .minF32 => (minMaxBits fmtF32 false old v).bits

/-- The operation of a CPRED (R247). -/
def operationOf (w : Word) : RedOp :=
  match w.toNat / 2 ^ 6 % 8 with
  | 1 => .addF32
  | 2 => .addBf16
  | 3 => .maxF32
  | 4 => .minF32
  | _ => .addI32

/-- Memory with one element of `ls` reduced by `v`. -/
def reducedAt (op : RedOp) (m : Place → Byte) (ls : List Loc) (v : Nat) (pl : Place) : Byte :=
  (lastAt (ls.zip (leBytes ls.length (reduced op (leNat (ls.map fun l => m l.place)) v))) pl).getD (m pl)

/-- Memory with a row of elements of `eb` bytes reduced in ascending order (R250). -/
def reducedRow (op : RedOp) (eb : Nat) : Nat → (Place → Byte) → List Loc → List Byte → Place → Byte
  | 0, m, _, _ => m
  | k + 1, m, ls, bs => reducedRow op eb k (reducedAt op m (ls.take eb) (leNat (bs.take eb))) (ls.drop eb) (bs.drop eb)

/-- The rows of one tile on the copy-out side are checked in a state, each with its places, in memory itself; a reduced row is
aligned to its elements; no byte read is poisoned (R161, R250, R251). -/
def Passes (s : State) (c : CoreId) (red : Bool) (n eb : Nat) (rows : List (Word × Nat)) (ls : List (List Loc)) : Prop :=
  rows.length = ls.length ∧ ∀ y ∈ rows.zip ls,
    s.checkAccess (s.engineAgent c .cout) (if red then .atomic else .write) (if red then .atomics else .any) (span y.1.1 n) =
      .ok y.2 ∧ (∀ l ∈ y.2, InPlace l) ∧ (red = true → y.1.1.toNat % eb = 0) ∧ s.poisonIn c [(y.1.2, n)] = none

/-- No two addresses of a tile's rows name one byte. -/
def Unaliased (n : Nat) (rows : List (Word × Nat)) (ls : List (List Loc)) : Prop :=
  let l := (rows.zip ls).flatMap fun y => (span y.1.1 n).zip y.2
  ∀ a ∈ l, ∀ b ∈ l, a.2.place = b.2.place → a.1 = b.1

/-- R249, R250: CPOUT and CPRED move their tiles in order, each checked as a whole before any byte of it is written. With no
tile to move nothing changes; and after the work of the tiles before tile `i` has led to `t`, the work up to tile `i` is done
with that tile's rows in memory, row after row: of a CPOUT each byte is the slot's; of a CPRED each element is reduced by the
slot's, in ascending order. The command's own work ends with the last of its tiles, and so says the bytes of every tile. -/
def EveryTileIsCopiedOut : Prop :=
  ∀ (s t : State) (c : CoreId) (x : Cmd) (st : Started) (w : Word) (i : Nat) (ls : List (List Loc)),
    Fresh s c x → wordEop w = 1 ∨ wordEop w = 2 → (∃ r ∈ x.reserves, r.st = stAt w 19) →
    let d := st.desc (stAt w 19)
    let eb := halfBytes (Desc.format d) / 2
    let n := Desc.cols d * halfBytes (Desc.format d) / 2
    let rows := tileRows d st.walk i (slotOfTile .cout x w d i)
    let red := decide (wordEop w = 2)
    let work (m : Nat) : Finish := s.copyWork c .cout x w st m
    let whole := tilesOf w * (Desc.rows d * Desc.cols d * halfBytes (Desc.format d) / 2)
    s.cmdWork c .cout x w st = work (tilesOf w) ∧ work 0 = .done s whole none ∧
    (i < tilesOf w → work i = .done t whole none → Canonical t → Plain t c → (red = true → eb ≠ 0) →
      Passes t c red n eb rows ls → Unaliased n rows ls →
      ∃ u, work (i + 1) = .done u whole none ∧
        ∀ pl, u.peek pl = (rows.zip ls).foldl (fun m y =>
          let bs := rdBytes (t.core c).loc.scratch y.1.2 n
          if red then reducedRow (operationOf w) eb (Desc.cols d) m y.2 bs
          else fun pl => (lastAt (y.2.zip bs) pl).getD (m pl)) t.peek pl)

/-- The row pointers of a GATH and what its streams name (R145, R146): the number of entries before each row's, the column of
each entry and its address, the value's address, and the address of a byte of a row of the dense operand. -/
structure GathIn where
  ptr   : Nat → Nat
  index : Nat → Word
  value : Nat → Word
  dense : Nat → Nat → Word

/-- What the streams of a GATH give it. -/
def gathIn (s : State) (c : CoreId) (w : Word) (st : Started) : GathIn :=
  let k := s.core c
  let d (n : StReg) : Desc := st.desc n
  let o := Desc.slotOff (d (stAt w 19)) (firstOf st.heads (stAt w 19))
  ⟨fun r => leNat (rdBytes k.loc.scratch (o + 4 * r) 4),
    fun j => Desc.base (d (stAt w 19 + 1)) + BitVec.ofNat 64 (4 * j),
    fun j => Desc.base (d (stAt w 19 + 2)) + BitVec.ofNat 64 j,
    fun i b => Desc.base (d (stAt w 14)) +
      BitVec.ofNat 64 (i * Desc.rowStride (d (stAt w 14)) + st.walk * Desc.tileStride (d (stAt w 14))) + BitVec.ofNat 64 b⟩

/-- R146: what a GATH that starts afresh writes, its reads answered by the bytes of `val`, none of them watched. Its row pointers rise, the columns of each row
differ and lie below the dense operand's rows, and `u` lists them all in ascending order, at most 128. The A tile holds each
entry's value at its row and at the place of its column in `u`, and zeros; the B tile holds the rows of the dense operand that
`u` names, and zeros. No other byte of the scratchpad changes. -/
def GathersPackTheirTiles : Prop :=
  ∀ (s : State) (c : CoreId) (x : Cmd) (st : Started) (w : Word) (rd : Reader) (val : Word → Byte) (u : List Nat),
    (∀ s' vas, rd s' vas = .bytes s' (vas.map val) none) → Fresh s c x →
    Memory.wf (s.core c).loc.scratch = true →
    let k := s.core c
    let d (n : StReg) : Desc := st.desc n
    let g := gathIn s c w st
    let col (j : Nat) : Nat := leNat ((span (g.index j) 4).map val)
    let slot (n : StReg) : Nat := Desc.slotOff (d n) (firstOf x.claims n)
    let a := slot (stAt w 9)
    let b := slot (stAt w 9 + 1)
    s.poisonIn c [(Desc.slotOff (d (stAt w 19)) (firstOf st.heads (stAt w 19)), 516)] = none →
    (a + 16384 ≤ b ∨ b + 32768 ≤ a) →
    (∀ r, r < 128 → g.ptr r ≤ g.ptr (r + 1) ∧ ∀ i j, g.ptr r ≤ i → i < j → j < g.ptr (r + 1) → col i ≠ col j) →
    (∀ j, g.ptr 0 ≤ j → j < g.ptr 128 → col j < Desc.tiles (d (stAt w 14))) →
    u.Pairwise (· < ·) → u.length ≤ 128 → (∀ n, n ∈ u ↔ ∃ j, g.ptr 0 ≤ j ∧ j < g.ptr 128 ∧ col j = n) →
    ∃ t ws, s.gathPlan c rd x w st = .ok (s, ws, none) ∧ t = s.padWrites c .gth ws ∧
      (∀ r i, r < 128 → i < 128 →
        (∀ j, g.ptr r ≤ j → j < g.ptr (r + 1) → u[i]? = some (col j) →
          rdByte (t.core c).loc.scratch (a + 128 * r + i) = val (g.value j)) ∧
        ((∀ j, g.ptr r ≤ j → j < g.ptr (r + 1) → u[i]? ≠ some (col j)) →
          rdByte (t.core c).loc.scratch (a + 128 * r + i) = 0)) ∧
      (∀ i n, i < 128 → n < 256 → rdByte (t.core c).loc.scratch (b + 256 * i + n) =
        ((u[i]?).map fun m => val (g.dense m n)).getD 0) ∧
      ∀ y, (y < a ∨ a + 16384 ≤ y) → (y < b ∨ b + 32768 ≤ y) →
        rdByte (t.core c).loc.scratch y = rdByte k.loc.scratch y

/-- The work of a started GATH is what its plan writes, and the plan's reads are by the command's own agent: what it has read
early, and what peers have sent, stands in their places (R146, R195). -/
def GathersReadAsTheirCommand : Prop :=
  ∀ (s s1 : State) (c : CoreId) (x : Cmd) (st : Started) (w : Word) (vas : List Word) (bytes : List Byte)
    (ws : List (Nat × List Byte)),
    (wordEop w = 1 → x.prog = 0 → s.gathPlan c (fun s vas => s.engineRead c .gth x vas) x w st = .ok (s1, ws, none) →
      s.cmdWork c .gth x w st = .done (s1.padWrites c .gth ws) 49152 none) ∧
    (x.fetched = [] → x.failed = [] → (s.core c).getSr 0x084 = 0 →
      s.load (s.engineAgent c .gth) .any .normal vas = .ok s1 bytes [] → s.engineRead c .gth x vas = .bytes s1 bytes none)

/-- Where a value stands among candidates: larger first; for F32 −0 equals +0, and every NaN lies below −∞ (R148). -/
def rankOf (format v : Nat) : Int :=
  if format = 4 then (BitVec.ofNat 32 v).toInt
  else if 0x7F800000 < v % 2 ^ 31 then -2 ^ 32
  else if v.testBit 31 then -((v % 2 ^ 31 : Nat) : Int) else (v % 2 ^ 31 : Nat)

/-- R147, R148: TOPK. Of the candidates of its input slot, values with logical indices or pairs, `order` lists the positions by
value, larger first, then by logical index and then by place; the first k stand in the output slot as pairs, in order, and no
other byte of the scratchpad changes. -/
def SelectionsWriteTheFirst : Prop :=
  ∀ (s : State) (c : CoreId) (x : Cmd) (st : Started) (w : Word), Fresh s c x → wordEop w = 1 →
    Memory.wf (s.core c).loc.scratch = true →
    let k := s.core c
    let d := st.desc (stAt w 19)
    let i := Desc.slotOff d (firstOf st.heads (stAt w 19))
    let o := Desc.slotOff (st.desc (stAt w 14)) (firstOf x.claims (stAt w 14))
    let n := Desc.rows d * Desc.cols d
    let m := w.toNat / 2 ^ 6 % 256 + 1
    let pairs := w.getLsbD 5
    let value (j : Nat) : Nat := leNat (rdBytes k.loc.scratch (i + (if pairs then 8 else 4) * j) 4)
    let index (j : Nat) : Nat := if pairs then leNat (rdBytes k.loc.scratch (i + 8 * j + 4) 4) else (st.walk + j) % 2 ^ 32
    let rank (j : Nat) : Int := rankOf (Desc.format d) (value j)
    m ≤ n → Desc.format d = 4 ∨ Desc.format d = 8 →
    ∃ (t : State) (order : List Nat), s.cmdWork c .topk x w st = .done t 0 none ∧ order.Perm (List.range n) ∧
      order.Pairwise (fun a b => rank b < rank a ∨
        (rank a = rank b ∧ (index a < index b ∨ (index a = index b ∧ a < b)))) ∧
      (∀ p, p < m → ∀ j, order[p]? = some j → leNat (rdBytes (t.core c).loc.scratch (o + 8 * p) 4) = value j ∧
        leNat (rdBytes (t.core c).loc.scratch (o + 8 * p + 4) 4) = index j) ∧
      ∀ y, (y < o ∨ o + 8 * m ≤ y) → rdByte (t.core c).loc.scratch y = rdByte k.loc.scratch y

end Says

/-- R133, R145 to R148, R246, R249, R250: what copy, gather and top-k commands write. With `Obligations.CommandRetirements` it
says what memory and the scratchpad hold after they retire. That a command's bytes move in the step of its retirement, but for
those that a free choice has moved earlier, is assumption entry 32. -/
def Obligations.EngineCommandsWrite : Prop :=
  Says.CopiesPutTheirRows ∧ Says.EveryTileIsCopiedOut ∧ Says.GathersPackTheirTiles ∧ Says.GathersReadAsTheirCommand ∧
    Says.SelectionsWriteTheFirst

namespace Says

/-- The exact value of an element that an MRET retires, and its integer under an output scale (R77). -/
def retired (v : Int) (ea eb xs : Nat) : ℚ := (v : ℚ) * 2 ^ ((ea : Int) + eb - 254) * real fmtF32 xs

/-- The result of an element before outliers are replaced, and whether it is one (R77). -/
def Retirement (format : Nat) (v : Int) (x : ℚ) (eo : Nat) (result : Nat) (out : Bool) : Prop :=
  let rounded (f : Fmt) : Prop := (x = 0 → result = 0) ∧ (x ≠ 0 → ∃ r, Rounds f .rne x r ∧ r.bits = result)
  let whole (lim : Int) (bits : Nat) : Prop := ∃ q : Int, Integer .rne ((x * 2 ^ (127 - (eo : Int)) : ℚ) : ℝ) q ∧
    result = (q % 2 ^ bits).toNat ∧ (out = true ↔ lim < |q|)
  (format = 4 → result = (v % 2 ^ 32).toNat ∧ out = false) ∧ (format = 8 → rounded fmtF32 ∧ out = false) ∧
    (format = 9 → rounded fmtF16 ∧ (out = true ↔ isInf fmtF16 result)) ∧
    (format = 10 → rounded fmtBF16 ∧ (out = true ↔ isInf fmtBF16 result)) ∧ (format = 12 → whole 127 8) ∧ (format = 13 → whole 7 4)

/-- What the clamp path writes (R78). -/
def clamped (format b : Nat) (x : ℚ) (y : Nat) : Prop :=
  let whole (bits : Nat) : Prop := (0 < x → y = b % 2 ^ bits) ∧ (x < 0 → y = (-(b : Int) % 2 ^ bits).toNat)
  (format = 12 → whole 8) ∧ (format = 13 → whole 4) ∧
    (format = 9 ∨ format = 10 → (0 < x → y = b % 2 ^ 15) ∧ (x < 0 → y = b % 2 ^ 15 + 2 ^ 15))

/-- Element `i` of a tile: a half of a byte for RN4, the first the low one (R75). -/
def elementAt (m : Memory) (o format i : Nat) : Nat :=
  if format = 13 then (rdByte m (o + i / 2)).toNat / (if i % 2 = 1 then 16 else 1) % 16
  else leNat (rdBytes m (o + halfBytes format / 2 * i) (halfBytes format / 2))

/-- Element `i` of an RN8 or RN4 tile as a signed integer (R75). -/
def rnAt (m : Memory) (o format i : Nat) : Int := signedLow (4 * halfBytes format) (elementAt m o format i)

/-- An MRET about to retire: its stream's format is one of a destination, its scale is finite, its tile and its outlier ring,
which holds what its capacity says, lie apart, its list's records end a slot, and nothing of it is done or read early. -/
structure Retiring (s : State) (c : CoreId) (x : Cmd) (w : Word) (st : Started) : Prop where
  opcode  : wordEop w = 2
  acc     : w.toNat / 2 ^ 11 % 8 < 6
  fresh   : Fresh s c x
  tables  : Memory.wf (s.core c).loc.scratch = true ∧ swf 0 st.colScale = true ∧
    let a := tget Acc.reset (s.core c).eng.accs (w.toNat / 2 ^ 11 % 8)
    swf 0 a.words = true ∧ swf 0 a.rowScale = true ∧ swf 0 a.colScale = true
  format  : Desc.format (st.desc (stAt w 19)) ∈ [4, 8, 9, 10, 12, 13]
  scale   : isFinite fmtF32 (Desc.xscale (st.desc (stAt w 19)))
  list    : w.getLsbD 10 = true →
    let d := st.desc (stAt w 19)
    let y := (s.core c).stream (stAt w 14)
    let o := st.desc (stAt w 14)
    let t := Desc.slotOff d (firstOf x.claims (stAt w 19))
    stAt w 14 ≠ stAt w 19 ∧ 0 < Desc.units o ∧ y.records.toNat % (Desc.units o * 16) = 0 ∧ Desc.outcap o ≤ Desc.slots o ∧
      (t + 16384 * halfBytes (Desc.format d) ≤ Desc.ring o ∨ Desc.ring o + Desc.slots o * Desc.slotBytes o ≤ t)

/-- The words, scales and streams that an MRET reads: the value of an element, its exact value, and its output scale. -/
def retiredAt (s : State) (c : CoreId) (w : Word) (st : Started) (i : Nat) : Int × ℚ :=
  let a := tget Acc.reset (s.core c).eng.accs (w.toNat / 2 ^ 11 % 8)
  let v := rwDec (sget 0 a.words i).toNat
  (v, retired v (sget 0 a.rowScale (i / 256)).toNat (sget 0 a.colScale (i % 256)).toNat
    (Desc.xscale (st.desc (stAt w 19))))

/-- R77 to R79, R141 to R143: what an MRET writes. Each element of its tile is the result of its value; one that is an outlier
is 0 where a record of it is appended, and the clamp bound with the sign of its value otherwise, which counts one clamp.
Records are appended while the list's count lies below its capacity; each names its row, its column, its value as F32 and the
command, and stands at its entry; the rest of the last slot begun is filled with 0xFF, and the slots begun are published. No
other byte of the scratchpad changes. -/
def MretWritesItsTile : Prop :=
  ∀ (s : State) (c : CoreId) (x : Cmd) (st : Started) (w : Word), Retiring s c x w st →
    let k := s.core c
    let d := st.desc (stAt w 19)
    let y := k.stream (stAt w 14)
    let o := st.desc (stAt w 14)
    let q := firstOf x.claims (stAt w 19)
    let tile := Desc.slotOff d q
    let per := Desc.units o * 16
    let first := y.records.toNat
    let limit := if w.getLsbD 10 then Desc.outcap o * per else 0
    ∃ (t : State) (res : Nat → Nat) (out : Nat → Bool), s.cmdWork c .mtx x w st = .done t 0 none ∧
      let earlier (i : Nat) : Nat := ((List.range i).filter fun j => out j).length
      let rank (i : Nat) : Nat := first + earlier i
      let recorded (i : Nat) : Prop := out i = true ∧ rank i < limit
      let m := (t.core c).loc.scratch
      let last := if first < limit then min (rank 32768) limit else first
      let up := (last + per - 1) / per * per
      let entry (e : Nat) : Nat := Desc.ring o + e / per % Desc.slots o * Desc.slotBytes o + e % per * 16
      (∀ i, i < 32768 → let v := retiredAt s c w st i
        Retirement (Desc.format d) v.1 v.2 (sget 0 st.colScale (i % 256)).toNat (res i) (out i) ∧
        (out i = false → elementAt m tile (Desc.format d) i = res i) ∧
        (recorded i → elementAt m tile (Desc.format d) i = 0 ∧
          leNat (rdBytes m (entry (rank i)) 4) = (q.toNat / Desc.across d * 128 + i / 256) % 2 ^ 32 ∧
          leNat (rdBytes m (entry (rank i) + 4) 4) = (q.toNat % Desc.across d * 256 + i % 256) % 2 ^ 32 ∧
          (∃ r, Rounds fmtF32 .rne v.2 r ∧ leNat (rdBytes m (entry (rank i) + 8) 4) = r.bits) ∧
          leNat (rdBytes m (entry (rank i) + 12) 4) = w.toNat / 2 ^ 11 % 8 * 2 ^ 29 + x.seq.toNat % 2 ^ 29) ∧
        (out i = true → ¬ recorded i → clamped (Desc.format d) (Desc.clamp d) v.2 (elementAt m tile (Desc.format d) i))) ∧
      (∀ e, last ≤ e → e < up → last ≠ first → rdBytes m (entry e) 16 = List.replicate 16 255) ∧
      (∀ a, (a < tile ∨ tile + 16384 * halfBytes (Desc.format d) ≤ a) →
        (last = first ∨ ∀ e, first ≤ e → e < up → a < entry e ∨ entry e + 16 ≤ a) → rdByte m a = rdByte k.loc.scratch a) ∧
      ((t.core c).stream (stAt w 19)).clamps.toNat =
        min ((k.stream (stAt w 19)).clamps.toNat + (rank 32768 - last)) (2 ^ 32 - 1) ∧
      (last ≠ first → ((t.core c).stream (stAt w 14)).records = BitVec.ofNat 32 up ∧
        ((t.core c).stream (stAt w 14)).t = y.t + BitVec.ofNat 32 (up / per - first / per) ∧
        (y.claims = [] → ((t.core c).stream (stAt w 14)).claims = []))

end Says

/-- R72 to R75, R77 to R79, R140 to R144: the arithmetic of the accumulator. When an MMA retires, each word of its accumulator
stands for the sum, modulo M, of the value that it stood for (0 with Z) and of the 128 products of its row of A and its
column of B; the accumulator is open and counts one more step. When an MRET or MZERO retires, its accumulator is closed
and every word is 0; an MRET has written its tile and its outliers. A float result of an exact 0 is +0: assumption entry
40. That the words change in the step of the retirement is entry 32. -/
def Obligations.MatrixCommandsAccumulate : Prop :=
  Says.MretWritesItsTile ∧
  ∀ (s : State) (c : CoreId) (x : Cmd) (st : Started) (w : Word), Says.Retires s c .mtx x st w →
    let k := s.core c
    let old := tget Acc.reset k.eng.accs (w.toNat / 2 ^ 11 % 8)
    let da := st.desc (w.extractLsb' 19 5)
    let db := st.desc (w.extractLsb' 14 5)
    let a (i : Nat) : Int :=
      Says.rnAt k.loc.scratch (Desc.slotOff da (Says.firstOf st.heads (w.extractLsb' 19 5))) (Desc.format da) i
    let b (i : Nat) : Int :=
      Says.rnAt k.loc.scratch (Desc.slotOff db (Says.firstOf st.heads (w.extractLsb' 14 5))) (Desc.format db) i
    let z := w.getLsbD 10
    w.toNat / 2 ^ 11 % 8 < 6 → x.fetched = [] →
    (∀ s1, wordEop w = 1 → s.cmdWork c .mtx x w st = .done s1 0 none → swf 0 old.words = true →
      Desc.format da ∈ [12, 13] → Desc.format db ∈ [12, 13] →
      ∃ t, exec (.commandRetirement c.val .mtx) s = .next t ∧
        let new := tget Acc.reset (t.core c).eng.accs (w.toNat / 2 ^ 11 % 8)
        new.isOpen = true ∧ new.steps = (if z then 1 else old.steps + 1) ∧
        ∀ r n, r < 128 → n < 256 →
          (rwM : Int) ∣ rwDec (sget 0 new.words (256 * r + n)).toNat -
            ((if z then 0 else rwDec (sget 0 old.words (256 * r + n)).toNat) +
              ((List.range 128).map fun j => a (128 * r + j) * b (256 * j + n)).sum)) ∧
    (∀ s1, wordEop w = 2 ∨ wordEop w = 3 → s.cmdWork c .mtx x w st = .done s1 0 none →
      ∃ t, exec (.commandRetirement c.val .mtx) s = .next t ∧
      let new := tget Acc.reset (t.core c).eng.accs (w.toNat / 2 ^ 11 % 8)
      new.isOpen = false ∧ new.steps = 0 ∧ ∀ i, sget 0 new.words i = 0)

namespace Says

/-- A command of the matrix queue that is MMA, MRET or MZERO (R256). -/
def Bound (k : Core) (x : Cmd) : Prop := x ∈ (k.queue .mtx).entries ∧ wordEop (k.cmdWord .mtx x.seq) ∈ [1, 2, 3]

/-- A bound command runs on the array; one has not started. -/
def OnArray (k : Core) : Prop := ∃ x st, Bound k x ∧ x.started = some st ∧ st.dedicated = true
/-- A bound command of the core has not started. -/
def Unstarted (k : Core) : Prop := ∃ x, Bound k x ∧ x.started = none

/-- A core's first unstarted bound command prefers the dedicated unit (R266). -/
def Prefers (k : Core) : Prop := (k.firstBound.map (·.pref)) = some .dpref

/-- The requesting core that wins (R257): by rank, then by preference, then in turn after the last winner. -/
def Wins (s : State) (q : Fin 64) (h p : Fin 4) : Prop :=
  let k (i : Fin 4) : Core := s.core (quadCore q i)
  let turn (i : Fin 4) : Nat := (i.val + 3 - (s.quad q).last.val) % 4
  (k p).arrayRank < (k h).arrayRank ∨ ((k p).arrayRank = (k h).arrayRank ∧
    ((Prefers (k h) ∧ ¬ Prefers (k p)) ∨ ((Prefers (k h) ↔ Prefers (k p)) ∧ turn h ≤ turn p)))

/-- No lease is held, or the holder's ends: with nothing of it on the array, a core that requests outranks it, or a cut is
asked for, or it has no bound command to start, or it has stopped or is in its handler and is not being drained (R258,
R259). -/
def Vacant (s : State) (q : Fin 64) : Prop :=
  ∀ h, (s.quad q).holder = some h → let k := s.core (quadCore q h)
    ¬ OnArray k ∧ ((s.quad q).cut ≠ [] ∨
      (∃ p, p ≠ h ∧ (s.core (quadCore q p)).requests = true ∧ k.arrayRank < (s.core (quadCore q p)).arrayRank) ∨
      ¬ Unstarted k ∨ (k.draining = false ∧ (k.phase ≠ .running ∨ k.inHandler = true)))

end Says

/-- R256 to R259: an arbitration of a quad's array changes nothing but the quad. While the array is free, or its lease ends,
and a core of the quad requests it, it goes to the one that wins, with no command counted; with no request it is free.
Otherwise its holder keeps it, with its commands counted, and the cores that outrank it are recorded. The retirement of an
MRET, of an MZERO or of the sixteenth command that has started under the lease ends it, and no other retirement. That a
holder keeps its lease while its unstarted bound command is substitute-only is entry 55; that one being saved with no run to
drain loses it, entry 70. -/
def Obligations.LeaseArbitration : Prop :=
  (∀ (s : State) (q : Fin 64), ∃ t, exec (.leaseRearbitration q.val) s = .next t ∧ { t with quads := s.quads } = s ∧
    (∀ r, r ≠ q → t.quad r = s.quad r) ∧
    (Says.Vacant s q →
      (∀ p, (s.core (quadCore q p)).requests = true → ∃ h, (t.quad q).holder = some h ∧ (t.quad q).started = 0 ∧
        (t.quad q).last = h ∧ (s.core (quadCore q h)).requests = true ∧ Says.Wins s q h p) ∧
      ((∀ p, (s.core (quadCore q p)).requests = false) → (t.quad q).holder = none)) ∧
    (¬ Says.Vacant s q → (t.quad q).holder = (s.quad q).holder ∧ (t.quad q).started = (s.quad q).started ∧
      (t.quad q).last = (s.quad q).last ∧ ∀ h p, (s.quad q).holder = some h → (p ∈ (t.quad q).cut ↔ p ∈ (s.quad q).cut ∨
        (p ≠ h ∧ (s.core (quadCore q p)).requests = true ∧
          (s.core (quadCore q h)).arrayRank < (s.core (quadCore q p)).arrayRank)))) ∧
  ∀ (s s1 : State) (c : CoreId) (x : Cmd) (st : Started) (w : Word), Says.Retires s c .mtx x st w →
    wordEop w ∈ [1, 2, 3] → s.cmdWork c .mtx x w st = .done s1 0 none →
    ∃ t, exec (.commandRetirement c.val .mtx) s = .next t ∧ (t.quad (quadOf c)).holder =
      let q := s.quad (quadOf c)
      if st.dedicated = true ∧ q.holder = some (posOf c) ∧ (wordEop w ≠ 1 ∨ 16 ≤ q.started) then none else q.holder

/-- R95, R177, R211, R213: the ends of waits. A cluster that may move and whose condition has come runs again, and one whose
pause ends; a monitor fires, and its cluster, if asleep, runs again; nothing else changes. A cluster whose condition has
not come goes on waiting. Four clusters that wait at one synced bundle, outside the handler, may all execute it: they run
again, released at it. That a waiter finds its condition at its own resumption is assumption entry 4; that an end of a
wait whose condition has not come changes nothing, entry 7. -/
def Obligations.EndsOfWaits : Prop :=
  ∀ (s : State) (c : CoreId) (x : Cluster),
    let awake := s.setCl c x { s.cl c x with status := .running }
    let fired : State :=
      { s with monitors := s.monitors.map fun m => if m.core = c ∧ m.cl = x then { m with fired := true } else m }
    (∀ w, (s.cl c x).status = .waiting w → (s.core c).movable x = true →
      exec (.blockedWaitResume c.val x) s = .next (if s.waitHolds c x w then awake else s)) ∧
    ((s.cl c x).status = .waiting .pause → (s.core c).movable x = true → exec (.yieldPauseEnd c.val x) s = .next awake) ∧
    ((s.cl c x).status ≠ .waiting .monitor → exec (.monitorFire c.val x) s = .next fired) ∧
    ((s.cl c x).status = .waiting .monitor → (s.core c).movable x = true →
      exec (.monitorFire c.val x) s = .next (fired.setCl c x { s.cl c x with status := .running })) ∧
    (∀ b, (s.core c).phase = .running → (s.core c).inHandler = false →
      (∀ y, ∃ w, (s.cl c y).status = .waiting (.rendezvous b w)) →
      ∃ t, exec (.rendezvous c.val) s = .next t ∧ Says.SameBytes s t ∧
        (∀ y, t.cl c y = { s.cl c y with status := .running, released := true }) ∧
        (t.core c).regs = (s.core c).regs ∧ (t.core c).trap = (s.core c).trap ∧ (t.core c).eng = (s.core c).eng ∧
        ∀ d, d ≠ c → t.core d = s.core d)

/-- R215, R316 to R320, R322: the watchdog of a stalled core whose count has reached 2^26 cycles raises WATCHDOG, and before
that nothing; that it names cluster S, a syllable and an address of 0 is assumption entry 24. A core whose drain is over
takes the frame of the report that stopped it, its accesses performed, its loads having written (in fixed-latency mode
those that have not written are kept back, R318); each enters the handler, where it can be entered. Management restarts a
core that a double fault has stopped: what the stopped handler has loaded is in its registers, S runs at %tvec with s1 the
record's address and no loops, and every other register is as it was; with %tvec unaligned its fetch would fault, and it is a double fault again. That late accesses are performed
by then, as a settled core, is entry 3. -/
def Obligations.StopsAndRestarts : Prop :=
  ∀ (s : State) (c : CoreId) (off : Nat),
    ((s.core c).stalled = true → (s.core c).trap.watchdog < 2 ^ 26 → exec (.stallWatchdog c.val) s = .next s) ∧
    ((s.core c).stalled = true → 2 ^ 26 ≤ (s.core c).trap.watchdog → Says.Enterable s c off → s.quiet c = true →
      (∀ x, (s.cl c x).due = false) →
      ∃ t, exec (.stallWatchdog c.val) s = .next t ∧ Says.Entered s t c ⟨.watchdog, 0, .S, none, 0, 0, false⟩ off) ∧
    (∀ r, (s.core c).phase = .stopping r →
      let u := s.settleCore c
      let s1 := (if (u.core c).fixedLatency then u.setCore c (u.core c).keepLoads else u).completeAllLoads c
      (s1.quiet c = false → exec (.frameTaken c.val) s = .next s) ∧
      (s1.quiet c = true → (s1.core c).inHandler = false → Says.RecordAt s1 c off →
        ((s1.core c).getSr 0x011).toNat % 32 = 0 → swf 0 (s1.core c).trap.sr = true →
        Memory.wf (s1.core c).loc.scratch = true →
        ∃ t, exec (.frameTaken c.val) s = .next t ∧ Says.Entered s1 t c r off)) ∧
    ((s.core c).phase = .doubleFault → ((s.core c).getSr 0x011).toNat % 32 = 0 →
      let u := s.completeAllLoads c
      ((∀ x, (s.cl c x).pending = []) → u = s) ∧ (∀ x, (u.cl c x).pending = []) ∧
      ∃ t, exec (.doubleFaultRestart c.val) s = .next t ∧ Says.SameBytes u t ∧ (t.core c).phase = .running ∧
        (t.cl c .S).pc = (s.core c).getSr 0x011 ∧ (t.cl c .S).status = .running ∧ (t.cl c .S).loops = [] ∧
        (∀ r, (t.cl c .S).getS r = if r = 1 then (s.core c).getSr 0x012 - 128 else (u.cl c .S).getS r) ∧
        (∀ x, x ≠ .S → t.cl c x = u.cl c x) ∧ (t.core c).regs = (u.core c).regs ∧ (t.core c).trap = (u.core c).trap ∧
        ∀ d, d ≠ c → t.core d = u.core d) ∧
    ((s.core c).phase = .doubleFault → ((s.core c).getSr 0x011).toNat % 32 ≠ 0 →
      ∃ t, exec (.doubleFaultRestart c.val) s = .next t ∧ (t.core c).phase = .doubleFault ∧ Says.SameBytes s t ∧
        ∀ x, t.cl c x = s.cl c x)

/-- R174 to R176: an ordered reduction at its home slice. The awaited number, none of its pair being held, is applied in one
piece: the pair's sum gains the value and its number advances, no other byte of memory changes, and the message is gone. A
later number, with room in the slice, is held, and without room refused; a refused message leaves again. When the gap
timer of a pair has run out, every held reduction of the pair is discarded: with an event of kind 6 where its issuer has left
its core; where its issuer is still resident with the deferred fault ORDERED_GAP, which its core takes, or holds while it is
in its handler; and with a failure where a peer sent it. Before, nothing happens. Which slice is an address's home is a free function (assumption entry 20);
that a message not yet due is a stutter, entry 7. -/
def Obligations.OrderedReductions : Prop :=
  ∀ (s : State) (place : Nat) (m : RofMsg), s.rofSent[place]? = some m →
    let next := leNat (rdBytes s.mem (m.pair + 4) 4)
    let ahead := (m.num - BitVec.ofNat 32 next).toNat
    let full := 64 ≤ (s.rofHeld.filter fun h => homeOf h.pair == homeOf m.pair).length + 1
    (m.refused = false → ahead = 0 → Memory.wf s.mem = true → (∀ h ∈ s.rofHeld, h.pair ≠ m.pair) →
      (∀ d, m.core = some d → (s.core d).posted = []) → s.entangled = false →
      ∃ t, exec (.rofaddArrival place) s = .next t ∧ t.rofSent = s.rofSent.eraseIdx place ∧ t.rofHeld = s.rofHeld ∧
        leNat (rdBytes t.mem m.pair 4) = addF32 (leNat (rdBytes s.mem m.pair 4)) m.val.toNat % 2 ^ 32 ∧
        leNat (rdBytes t.mem (m.pair + 4) 4) = (next + 1) % 2 ^ 32 ∧
        (∀ a, (a < m.pair ∨ m.pair + 8 ≤ a) → rdByte t.mem a = rdByte s.mem a) ∧ t.hostMem = s.hostMem ∧
        ∀ c x, t.cl c x = s.cl c x) ∧
    (m.refused = false → 0 < ahead → ahead < 2 ^ 31 → ¬ full → exec (.rofaddArrival place) s =
      .next { s with rofSent := s.rofSent.eraseIdx place, rofHeld := s.rofHeld ++ [m] }) ∧
    (m.refused = false → 0 < ahead → ahead < 2 ^ 31 → full → exec (.rofaddArrival place) s =
      .next { s with rofSent := s.rofSent.set place { m with refused := true } }) ∧
    exec (.rofaddResend place) s = .next { s with rofSent := s.rofSent.set place { m with refused := false } } ∧
    (∀ pair, (sget 0 s.gaps pair < 1000000 → exec (.orderedGapTimeout pair) s = .next s) ∧
      (1000000 ≤ sget 0 s.gaps pair → ∀ h, s.rofHeld.filter (fun h => h.pair = pair) = [h] →
        let u : State := { s with rofHeld := s.rofHeld.filter (fun h => h.pair ≠ pair), gaps := sset 0 s.gaps pair 0 }
        (h.core = none → exec (.orderedGapTimeout pair) s =
          .next { u with dev := { s.dev with peerReply := some (.failed (BitVec.ofNat 6 Cause.orderedGap.code) 0) } }) ∧
        ∀ d off, h.core = some d → (s.core d).ctx.isSome = true → ((s.core d).getSr 0x020).toNat = h.ctx →
          let r : Report := ⟨.orderedGap, 2, h.cl, none, h.va, h.syl, false⟩
          (Says.Enterable s d off → s.quiet d = true → (∀ x, (s.cl d x).due = false) →
            ∃ t, exec (.orderedGapTimeout pair) s = .next t ∧ Says.Entered u t d r off) ∧
          ((s.core d).phase = .running → (s.core d).inHandler = true → exec (.orderedGapTimeout pair) s =
            .next (u.setCore d { s.core d with trap := { (s.core d).trap with held := (s.core d).trap.held ++ [r] } }))) ∧
      (1000000 ≤ sget 0 s.gaps pair → (∀ h ∈ s.rofHeld, h.pair = pair → ∃ d, h.core = some d ∧
          ((s.core d).ctx = none ∨ ((s.core d).getSr 0x020).toNat ≠ h.ctx)) →
        ∃ t, exec (.orderedGapTimeout pair) s = .next t ∧ t.rofHeld = s.rofHeld.filter (fun h => h.pair ≠ pair) ∧
          t.cores = s.cores ∧ Says.SameBytes s t ∧
          t.dev.events = s.dev.events ++ (s.rofHeld.filter fun h => h.pair = pair).map fun h =>
            ⟨h.va, sliceSource (homeOf h.pair), .orderedGap, 6, h.polder⟩))

namespace Says

/-- An event has been sent, and nothing else of the machine's device registers has changed. -/
def Sent (s t : State) (e : EventRec) : Prop := t.dev = { s.dev with events := s.dev.events ++ [e] }

/-- Every register of every cluster and core is as it was, but for %purectl, whose NOINS a write of memory may set. -/
def SameRegisters (s t : State) : Prop :=
  ∀ c, (t.core c).cls = (s.core c).cls ∧ (t.core c).regs = (s.core c).regs ∧ (t.core c).eng = (s.core c).eng ∧
    (t.core c).ctx = (s.core c).ctx ∧ ∀ n, n ≠ 0x090 → (t.core c).getSr n = (s.core c).getSr n

end Says

/-- R329, R330: a corrected error sends an event of kind 0 and fences its row; the row's self-test ends with an event of kind
1, 2 or 3 and the row is fenced no more, and where its bank is retired every context that uses it stops for good. An
uncorrectable error in HBM, in a scratchpad, in an L1 or in an L2 slice poisons its sector and sends an event of kind 4 with its
address (in an L1 or a slice that has room for a copy of it, no load of the machine waiting to be read); in a context's own
state it stops the context. Until then no byte of memory and no register changes. -/
def Says.SoftErrors : Prop :=
  ∀ (s : State) (site : ErrorSite) (result : SelfTest), siteExists site = true →
    (∃ t e, exec (.correctedError site) s = .next t ∧ Says.Sent s t e ∧ e.kind = 0 ∧ site ∈ t.fenced ∧
      t.cores = s.cores ∧ Says.SameBytes s t) ∧
    (site ∈ s.fenced → result ≠ .retired → ∃ t e, exec (.selfTestComplete site result) s = .next t ∧ Says.Sent s t e ∧
      e.kind = (if result = .transient then 1 else 2) ∧ t.fenced = s.fenced.erase site ∧ t.cores = s.cores ∧
      Says.SameBytes s t) ∧
    (site ∈ s.fenced → ∃ t, exec (.selfTestComplete site .retired) s = .next t ∧ t.fenced = s.fenced.erase site ∧
      Says.SameBytes s t ∧ (∃ e l, t.dev.events = s.dev.events ++ e :: l ∧ e.kind = 3) ∧
      ∀ c, t.core c = if c ∈ s.siteUsers site then { s.core c with phase := .machineStop } else s.core c) ∧
    (∃ t, exec (.uncorrectableError site) s = .next t ∧
      (∀ n, site = .hbm n → swf false s.poison = true → Says.AllRead s → sget false t.poison n = true ∧
        t.cores = s.cores ∧ Says.SameBytes s t ∧
        ∃ e, Says.Sent s t e ∧ e.kind = 4 ∧ e.cause = .hbmUncorrectable ∧ e.addr = BitVec.ofNat 64 (32 * n)) ∧
      (∀ c n, site = .scratchpad c n → swf false s.padPoison = true → Says.AllRead s →
        sget false t.padPoison (65536 * c + n) = true ∧ t.cores = s.cores ∧ Says.SameBytes s t ∧
        ∃ e, Says.Sent s t e ∧ e.kind = 4 ∧ e.cause = .sramUncorrectable ∧
          e.addr = BitVec.ofNat 64 (0x7F0000000000 + 32 * n)) ∧
      (∀ (c : CoreId) n, site = .cache c.val n → swf false s.l1Poison = true → Says.AllRead s →
        (s.core c).loc.l1.length + (s.poisonedAlone c).length < Config.l1Granules →
        sget false t.l1Poison (2 ^ 40 * c.val + n) = true ∧ t.cores = s.cores ∧ Says.SameBytes s t ∧
        ∃ e, Says.Sent s t e ∧ e.kind = 4 ∧ e.cause = .sramUncorrectable ∧ e.addr = BitVec.ofNat 64 (32 * n)) ∧
      (∀ n, site = .slice n → swf false s.l2Poison = true → Says.AllRead s → Says.L2RoomFor s 1 →
        sget false t.l2Poison n = true ∧ t.cores = s.cores ∧ Says.SameBytes s t ∧
        ∃ e, Says.Sent s t e ∧ e.kind = 4 ∧ e.cause = .sramUncorrectable ∧ e.addr = BitVec.ofNat 64 (32 * n)) ∧
      ∀ c : CoreId, site = .contextState c.val → (s.core c).ctx.isSome = true → Says.SameBytes s t ∧
        (t.core c) = { s.core c with phase := .machineStop } ∧ ∀ d, d ≠ c → t.core d = s.core d)

/-- R331, R366: an event, none of its source before it, reaches the arbiter, which numbers it. One that is device-wide, a
double fault or a machine check goes to management with the time and its number. Another goes to its polder's event ring:
with the ring enabled, not full and its slot in memory that the polder may use, the 32-byte record stands in the slot, WR
advances and no other byte of memory changes; a full ring counts a lost record, saturating; and a disabled one takes none. -/
def Says.EventRecords : Prop :=
  ∀ (s : State) (place : Nat) (e : EventRec), s.dev.events[place]? = some e →
    (∀ f ∈ s.dev.events.take place, f.source ≠ e.source) →
    let p := s.polder e.polder
    let r := p.events
    let d : Device := { s.dev with events := s.dev.events.eraseIdx place, arbNum := s.dev.arbNum + 1 }
    let pa := r.base.toNat + r.wr.toNat % 2 ^ r.log2n.toNat * 32
    (e.toMgmt = true → exec (.eventRecordWrite place) s =
      .next { s with dev := { d with mgmt := s.dev.mgmt ++ [⟨s.dev.time, s.dev.arbNum, e⟩] } }) ∧
    (e.toMgmt = false → r.en = false → exec (.eventRecordWrite place) s = .next { s with dev := d }) ∧
    (e.toMgmt = false → r.en = true → (r.wr - r.rd).toNat = 2 ^ r.log2n.toNat →
      exec (.eventRecordWrite place) s = .next (State.setPolder { s with dev := d } e.polder
        { p with events := { r with lost := if r.lost = 0xFFFFFFFF then r.lost else r.lost + 1 } })) ∧
    (e.toMgmt = false → r.en = true → (r.wr - r.rd).toNat ≠ 2 ^ r.log2n.toNat → s.entangled = false → s.ringMay e.polder pa = true →
      s.ringMay e.polder (pa + 31) = true → pa + 32 ≤ Config.hbmBytes → Memory.wf s.mem = true →
      ∃ t, exec (.eventRecordWrite place) s = .next t ∧
        rdBytes t.mem pa 32 = leBytes 32 (s.dev.time.toNat + e.addr.toNat * 2 ^ 64 + e.source.toNat * 2 ^ 128 +
          e.cause.code * 2 ^ 160 + e.kind.toNat * 2 ^ 168 + e.polder % 2 ^ 16 * 2 ^ 176 + s.dev.arbNum.toNat * 2 ^ 192) ∧
        (∀ a, (a < pa ∨ pa + 32 ≤ a) → rdByte t.mem a = rdByte s.mem a) ∧ t.dev.arbNum = s.dev.arbNum + 1 ∧
        (t.polder e.polder).events = { r with wr := r.wr + 1 } ∧ Says.SameRegisters s t)

/-- The dirty bytes of a copy are in memory, and every other byte is as it was. -/
def Says.CameHome (s t : State) (key : Nat) (x : L1Line) : Prop :=
  (∀ k, k < 32 → x.dirty.getLsbD k = true → t.peek (linePlace key k) = x.data.extractLsb' (8 * k) 8) ∧
    ∀ pl, (∀ k, k < 32 → x.dirty.getLsbD k = true → pl ≠ linePlace key k) → t.peek pl = s.peek pl

/-- R169, R197: of a copy that leaves a core's L1 the dirty bytes reach memory, or of host memory the L2, where they are dirty;
of one that leaves the L2 they reach memory. No other byte and no register changes. -/
def Says.Evictions : Prop :=
  (∀ (s : State) (c : CoreId) (key : Nat) (x : L1Line), Says.Canonical s → swf none ((s.core c).loc.l1) = true →
    Says.L2RoomFor s 2 → s.line c key = some x →
    ∃ t, exec (.eviction c.val key) s = .next t ∧ t.line c key = none ∧ Says.SameRegisters s t ∧
      (keyOfDevice key = true → Says.CameHome s t key x) ∧
      (keyOfDevice key = false → Says.SameBytes s t ∧
        ∀ k, k < 32 → x.dirty.getLsbD k = true → Says.DirtyInL2 t key k (x.data.extractLsb' (8 * k) 8))) ∧
  ∀ (s : State) (key : Nat) (x : L1Line), Says.Canonical s → swf none s.l2 = true → s.l2Line key = some x →
    ∃ t, s.move (.evictL2 key) = .next t ∧ t.l2Line key = none ∧ t.cores = s.cores ∧ Says.CameHome s t key x

/-- R169, R197, R329 to R331, R366: soft errors and their self-tests, the records of events, and the eviction of L1 and L2 copies. These
are the model's choices: what an L1 and an L2 hold and where its bytes go (assumption entries 12 and 45), fields of records that
R331 leaves open (46), a ring outside the polder's memory (25), and whom an error stops (57). -/
def Obligations.ErrorsEventsAndEvictions : Prop := Says.SoftErrors ∧ Says.EventRecords ∧ Says.Evictions

namespace Says

/-- A core stops toward the image of a transfer (R333 to R336): its clusters keep their registers and their bundles; with no
copy-in or gather command running no byte of memory changes. -/
structure Stopped (s t : State) (c : CoreId) (x : Xfer) : Prop where
  phase   : (t.core c).phase = .saving
  target  : (t.core c).xfer.map (fun y => (y.base, y.polder, y.by_, y.blocks)) = some (x.base, x.polder, x.by_, x.blocks)
  scalars : ∀ y r, (t.cl c y).getS r = (s.cl c y).getS r
  preds   : ∀ y n, (t.cl c y).getP n = (s.cl c y).getP n
  pcs     : ∀ y, (t.cl c y).pc = (s.cl c y).pc ∧ (t.cl c y).loops = (s.cl c y).loops
  vectors : (t.core c).regs.v = (s.core c).regs.v ∧ (t.core c).regs.m = (s.core c).regs.m
  accs    : (t.core c).eng.accs = (s.core c).eng.accs
  others  : ∀ d, d ≠ c → (t.core d).cls = (s.core d).cls ∧ (t.core d).phase = (s.core d).phase
  memory  : ((s.core c).queue .cin).running = [] → ((s.core c).queue .gth).running = [] → SameBytes s t

end Says

namespace Says

/-- The special registers of an image's table, in its order; %cycle stands third (R340). -/
def savedSrs : List Nat :=
  [0x040, 0x041, 0x050, 0x060, 0x022, 0x024, 0x025, 0x0B0, 0x090, 0x0A0, 0x070, 0x071, 0x072, 0x073, 0x074, 0x075, 0x076,
    0x077, 0x078, 0x080, 0x081, 0x082, 0x083, 0x084, 0x030, 0x031, 0x032, 0x033, 0x034, 0x035, 0x036, 0x037, 0x038, 0x039,
    0x03A]

/-- A special register that an image holds. -/
def savedSr (k : Core) (n : Nat) : Nat := if n = 0x050 then k.trap.cycle.toNat else (k.getSr n).toNat

/-- Fields of the image of a core (R338 to R340): offset, bytes, value. -/
def savedFields (k : Core) : List (Nat × Nat × Nat) :=
  let acc (i : Nat) : Acc := tget Acc.reset k.eng.accs i
  let opened := (List.range 6).filter fun i => (acc i).isOpen
  [(0x000, 4, 0x58434659), (0x004, 2, 1), (0x006, 1, (opened.map fun i => 2 ^ i).sum),
    (0x008, 4, 0x280000 + 0x20000 * opened.length)] ++
  ([Cluster.S, .A, .X0, .X1].flatMap fun x =>
    let y := k.cl x
    ((List.range 63).map fun n =>
      (0x260000 + 0x200 * x.code + 8 * (n + 1), 8, (y.getS (BitVec.ofNat 6 (n + 1))).toNat)) ++
    [(0x260800 + 0x100 * x.code, 8, ((y.pc &&& ~~~31) ||| (if y.status = .halted then 1 else 0)).toNat),
      (0x260808 + 0x100 * x.code, 2, (y.p ||| 1).toNat), (0x26080A + 0x100 * x.code, 2, y.loops.length)]) ++
  ((List.range 1536).map fun n => (0x200000 + 0x100 * n, 256, (tget 0 k.regs.v n).toNat)) ++
  ((List.range 16).map fun n => (0x260C00 + 8 * n, 8, (k.getM (BitVec.ofNat 4 n)).toNat)) ++
  ((List.range 35).map fun i => (0x260E00 + 8 * i, 8, savedSr k (savedSrs.getD i 0))) ++
  ((List.range opened.length).flatMap fun j => (List.range 32768).map fun i =>
    (0x280000 + 0x20000 * j + 4 * i, 4, (sget 0 (acc (opened.getD j 0)).words i).toNat))

/-- Byte `o` of the image that a transfer has placed in device memory. -/
def imageByte (t : State) (x : Xfer) (o : Nat) : Byte := rdByte t.mem ((x.blocks.getD (o / 4096) (0, 0)).2 + o % 4096)

/-- A core's save can end here: nothing is left to write before the image, the image's blocks lie apart in device memory, and
no access of another core is put off that its writes would have to follow. -/
structure Imaged (s : State) (c : CoreId) (x : Xfer) : Prop where
  quiet  : s.quiet c = true
  stash  : (s.core c).loc.stash = []
  held   : (s.core c).trap.heldLoads = []
  copies : ∀ e ∈ (s.core c).loc.l1, ∀ y, e.2 = some y → y.dirty = 0
  srs    : swf 0 (s.core c).trap.sr = true
  bytes  : Canonical s
  words  : ∀ i, ∀ w ∈ (tget Acc.reset (s.core c).eng.accs i).words, w.1 < 32768
  sorted : ∀ i, swf 0 (tget Acc.reset (s.core c).eng.accs i).words = true
  whole  : 832 ≤ x.blocks.length
  blocks : ∀ b ∈ x.blocks, b.1 = 0 ∧ b.2 % 4096 = 0
  apart  : x.blocks.Nodup
  alone  : s.entangled = false

/-- A cluster whose transfer of a number has been answered. -/
def answered (k : ClusterState) (token : Nat) (w : Word) : ClusterState :=
  { k with asked := k.asked.map fun a => if a.token = token then { a with answer := some w } else a }

/-- The core of a save is free, and the image stands in memory: the fields of its registers, and the scratchpad below the
engine queues (R338 to R340). -/
structure Saved (s t : State) (c : CoreId) (x : Xfer) : Prop where
  free   : (t.core c).phase = .free ∧ (t.core c).ctx = none ∧ (t.core c).xfer = none
  fields : ∀ f ∈ savedFields (s.core c), ∀ j, j < f.2.1 → imageByte t x (f.1 + j) = BitVec.ofNat 8 (f.2.2 / 256 ^ j)
  pad    : ∀ o, o < 0x1FF000 → imageByte t x (0x1000 + o) = rdByte (s.core c).loc.scratch o

end Says

/-- R333 to R335, R338 to R343, R346: a fence save stops its core when every command of its generation or an older one has
retired, or when its time-out has passed, and not before; that it also ends where no GFENCE has been executed since the
request is assumption entry 30. A save whose core has nothing outstanding and drains no run is complete: the image stands
in memory, the core is free, and the cluster that asked is answered the image's size in bits 63 to 32; of a save that a
polder's registers asked for, another of whose cores is still saving, the registers count one more. A load that is
complete lets its context run, its registers as restored, and answers 0. The layout of an image where R340 and R397 leave
it open is entry 26; what an immediate save stops, entry 34. -/
def Obligations.SavesAndLoads : Prop :=
  ∀ (s : State) (c : CoreId) (x : Xfer),
    ((s.core c).fencing = some x →
      ((s.core c).boundaryReached x.gen = false → exec (.fenceModeBoundary c.val) s = .next s) ∧
      ((s.core c).boundaryReached x.gen = true →
        ∃ t, exec (.fenceModeBoundary c.val) s = .next t ∧ Says.Stopped s t c x) ∧
      (x.timeout ≠ 0 → exec (.fenceModeTimeout c.val) s = .next s) ∧
      (x.timeout = 0 → ∃ t, exec (.fenceModeTimeout c.val) s = .next t ∧ Says.Stopped s t c x)) ∧
    ((s.core c).phase = .saving → (s.core c).xfer = some x →
      let s1 := (s.settleCore c).completeAllLoads c
      let n := ((List.range 6).filter fun i => (tget Acc.reset (s.core c).eng.accs i).isOpen).length
      (s1.quiet c = false ∨ (s1.core c).drainReady = true → exec (.imageSaveComplete c.val) s = .next s) ∧
      (∀ d y token, x.by_ = .cluster d y token → d ≠ c → Says.Imaged s1 c x →
        (s1.core c).drainReady = false →
        ∃ t, exec (.imageSaveComplete c.val) s = .next t ∧ Says.Saved s1 t c x ∧
          t.cl d y = Says.answered (s1.cl d y) token (BitVec.ofNat 64 ((0x280000 + 0x20000 * n) * 2 ^ 32))) ∧
      (∀ m d, x.by_ = .registers m → d ≠ c → (s.core d).xfer.map (·.by_) = some (.registers m) → Says.Imaged s1 c x →
        (s1.core c).drainReady = false →
        ∃ t, exec (.imageSaveComplete c.val) s = .next t ∧ Says.Saved s1 t c x ∧
          (m < 64 → (t.polder m).preempt.count = (s.polder m).preempt.count + 1))) ∧
    ((s.core c).phase = .loading → (s.core c).xfer = some x → (s.core c).trap.held = [] →
      ∀ d y token, x.by_ = .cluster d y token → d ≠ c →
        ∃ t, exec (.imageLoadComplete c.val) s = .next t ∧ Says.SameBytes s t ∧
          t.core c = { s.core c with phase := .running, xfer := none } ∧ t.cl d y = Says.answered (s.cl d y) token 0)

namespace Says

/-- A write of 1 to PRCTL.GO that begins an operation: by one who may write the polder's block, with no reset of the polder
and no operation in progress (R344, R349, R361). -/
structure Asks (s : State) (n : Nat) (by_ : Writer) : Prop where
  may   : s.mayWrite n by_ = true
  reset : (s.polder n).part.flrGo = false
  idle  : (s.polder n).preempt.go = false

/-- A task of which no further iteration starts, and that is never inserted. -/
def Halted (t : State) (uid : Nat) : Prop := ∀ x ∈ t.tasks, x.uid = uid → x.stopped = true ∧ x.noInsert = true

end Says

/-- R333, R335, R344, R345: a save of the task that PRTASK names, its image's ranges passing their checks and none of its
cores in another transfer, begins on every core that runs it, at once or, in fence mode, for the boundary: each saves into
its own slot of the image, and no further iteration starts. -/
def Says.TaskSaves : Prop :=
  ∀ (s : State) (n : Nat) (by_ : Writer) (t0 : Task) (fence : Bool), Says.Asks s n by_ →
    let u := s.openOp n (if fence then 1 else 0)
    let base := (s.polder n).preempt.base
    let cores := s.savable t0.uid
    s.namedTask n (s.polder n).preempt.task = some t0 → (∀ h b a w, t0.lookup ≠ .copying h b a w) →
    base.toNat % 65536 = 0 → cores ≠ [] → (∀ c ∈ cores, (s.core c).xfer = none) →
    ∀ l, u.imageSlots n base cores = .ok l →
      ∃ t, exec (if fence then .fenceSave n by_ else .immediateSave n by_) s = .next t ∧
        (t.polder n).preempt.go = true ∧ Says.Halted t t0.uid ∧
        ∀ c ∈ cores, ((t.core c).xfer.map fun x => (x.by_, x.base, x.fence)) =
            some (.registers n, base + BitVec.ofNat 64 (0x2000 + 0x340000 * (s.polder n).numberOf c), fence) ∧
          (t.core c).phase = if fence then (s.core c).phase else .saving

/-- R345, R347: a kill of the task that PRTASK names stops its further iterations; with none of its contexts resident the
operation ends with status 1, and otherwise goes on until they are removed. The removal of a context that a kill, a double
fault or a machine check makes due frees its core: its clusters are halted, no command is left in a queue, its iteration has
ended, and its task has a cause of removal. -/
def Says.KillsAndRemovals : Prop :=
  (∀ (s : State) (n : Nat) (by_ : Writer) (t0 : Task), Says.Asks s n by_ →
    s.namedTask n (s.polder n).preempt.task = some t0 →
    ∃ t, exec (.kill n by_) s = .next t ∧ t.cores = s.cores ∧ Says.SameBytes s t ∧ Says.Halted t t0.uid ∧
      (∀ x ∈ t.tasks, x.uid = t0.uid → x.removal.isSome = true) ∧
      (s.taskCoresNow t0.uid = [] → (t.polder n).preempt.go = false ∧ (t.polder n).preempt.status = 1) ∧
      (s.taskCoresNow t0.uid ≠ [] → (t.polder n).preempt.go = true)) ∧
  ∀ (s : State) (c : CoreId) (why : RemovalCause),
    (s.removalDue c why = false → exec (.contextRemoval c.val why) s = .next s) ∧
    (s.removalDue c why = true →
      ∃ t, exec (.contextRemoval c.val why) s = .next t ∧ (t.core c).phase = .free ∧ (t.core c).ctx = none ∧
        (t.core c).deque = [] ∧ (∀ e, ((t.core c).queue e).entries = []) ∧
        (∀ x, (t.cl c x).status = .halted ∧ (t.cl c x).pending = []) ∧
        ∀ y uid, (s.core c).ctx = some y → y.task = some uid → ∀ x ∈ t.tasks, x.uid = uid → x.removal.isSome = true ∧
          ∀ i ∈ x.iters, i.id = y.id → i.ic = y.ic → i.state = .ended)

/-- R344: an operation that names no task ends with status 2, and one asked for while another is in progress is refused with
status 6; neither changes anything else. -/
def Says.TaskOperationsRefused : Prop :=
  ∀ (s : State) (n : Nat) (by_ : Writer) (op : BitVec 2) (i : Instr),
    (op, i) ∈ [((0 : BitVec 2), Instr.immediateSave n by_), (1, .fenceSave n by_), (3, .kill n by_)] →
    let p := s.polder n
    (Says.Asks s n by_ → s.namedTask n p.preempt.task = none → ∃ t, exec i s = .next t ∧ { t with polders := s.polders } = s ∧
      (t.polder n).preempt = { p.preempt with op := op, go := false, status := 2, count := 0, uid := none } ∧
      ∀ m, m ≠ n → t.polder m = s.polder m) ∧
    (s.mayWrite n by_ = true → p.part.flrGo = false → p.preempt.go = true →
      exec i s = .next (s.setPolder n { p with preempt := { p.preempt with status := 6 } }))

/-- R345: a resumption whose image passes every check, its task not already there and its cores free, registers the task of
the saved record, never to be looked up or inserted, and loads each saved slot onto its core. -/
def Says.TaskResumptions : Prop :=
  ∀ (s : State) (n : Nat) (by_ : Writer) (s1 s2 s3 : State) (bytes : List Byte) (d : Option PureDesc)
    (l : List (Nat × Memory)), Says.Asks s n by_ →
    let u := s.openOp n 2
    let base := (s.polder n).preempt.base
    let h := imageOf bytes
    let r : Record := BitVec.ofNat 1024 (imgGet h 0 128)
    let p := s2.polder n
    let slots := headerSlots h p.coreList.length
    base.toNat % 65536 = 0 → u.unitRead n (u.launcherAgent n) (vaBytes base 0x2000) = .bytes s1 bytes →
    s1.judgePure n r = .ok s2 d → s2.namedTask n (Record.id r) = none → s2.readSlots n base slots = .ok s3 l →
    (∀ x ∈ l, imageOk x.2 = true ∧ p.fitsSlot x = true) → s3.recordBad n r = false → countsOk p r h slots = true →
    (∀ k ∈ slots, ∃ c, p.coreAt k = some c ∧ (s3.core c).loadable = true) →
    ∃ t, exec (.resume n by_) s = .next t ∧
      (∃ x ∈ t.tasks, x.record = r ∧ x.polder = n ∧ x.ended = false ∧ x.lookup = .none ∧ x.noInsert = true) ∧
      ∀ k ∈ slots, ∀ c, p.coreAt k = some c → (t.core c).phase = .loading ∧
        ((t.core c).xfer.map fun f => (f.by_, f.base)) =
          some (.registers n, base + BitVec.ofNat 64 (0x2000 + 0x340000 * k))

/-- R333, R335, R344, R345, R347: the operations of a polder's pre-emption registers, and the removal of contexts. The order
in which a request and an image are judged, and what a save marks, are assumption entry 48; what a removal drops, entry
47. -/
def Obligations.TaskOperations : Prop :=
  Says.TaskSaves ∧ Says.KillsAndRemovals ∧ Says.TaskOperationsRefused ∧ Says.TaskResumptions

namespace Says

/-- The registers of one polder have changed, and nothing else. -/
def OnlyPolder (s t : State) (n : Nat) (p : Polder) : Prop :=
  { t with polders := s.polders } = s ∧ t.polder n = p ∧ ∀ m, m ≠ n → t.polder m = s.polder m

end Says

/-- R279, R280, R363: a virtual function that serves a polder writes LQCTL and EVCTL: EN is bit 31, LOG2N the low four bits
where they are 4 or more (LQCTL's only while EN is 0), and RD and WR become 0 when EN rises. Its doorbell moves WR with EN
set and the new value in range, sends an event with it out of range, and is ignored with EN clear. -/
def Says.QueueRegisters : Prop :=
  ∀ (s : State) (vf n : Nat) (v : Word) (d : Half), s.served vf = some n →
    let p := s.polder n
    let l := p.launch
    let e := p.events
    let on := v.getLsbD 31
    let k : BitVec 4 := v.setWidth 4
    (∃ t, exec (.lqctlWrite vf v) s = .next t ∧ Says.OnlyPolder s t n { p with launch := { l with
      en := on
      log2n := if l.en = true ∨ k.toNat < 4 then l.log2n else k
      rd := if on = true ∧ l.en = false then 0 else l.rd
      wr := if on = true ∧ l.en = false then 0 else l.wr } }) ∧
    (∃ t, exec (.evctlWrite vf v) s = .next t ∧ Says.OnlyPolder s t n { p with events := { e with
      en := on
      log2n := if k.toNat < 4 then e.log2n else k
      rd := if on = true ∧ e.en = false then 0 else e.rd
      wr := if on = true ∧ e.en = false then 0 else e.wr } }) ∧
    (l.en = false → exec (.doorbell vf d) s = .next s) ∧
    (l.en = true → (d - l.wr).toNat < 2 ^ 31 → (d - l.rd).toNat ≤ 2 ^ l.log2n.toNat →
      ∃ t, exec (.doorbell vf d) s = .next t ∧ Says.OnlyPolder s t n { p with launch := { l with wr := d } }) ∧
    (l.en = true → d ≠ l.wr → 2 ^ 31 ≤ (d - l.wr).toNat ∨ 2 ^ l.log2n.toNat < (d - l.rd).toNat →
      ∃ t x, exec (.doorbell vf d) s = .next t ∧ { t with dev := s.dev } = s ∧ Says.Sent s t x ∧
        x.cause = .launchRecord ∧ x.kind = 6 ∧ x.polder = n)

/-- R302, R303: the registers of a polder's basin, written by one who may: the fourth key register installs the key of the
four, and clears the polder's entries, as BCTL's CLEAR does and EN when it falls. -/
def Says.BasinRegisters : Prop :=
  ∀ (s : State) (n : Nat) (by_ : Writer) (v : Word), s.mayWrite n by_ = true →
    let b := (s.polder n).basin
    let cleared (t : State) : Prop := (∀ e ∈ t.basin, e.polder ≠ n) ∧ ∀ e ∈ s.basin, e.polder ≠ n → e ∈ t.basin
    let still (t : State) : Prop := t.cores = s.cores ∧ t.mem = s.mem ∧ ∀ m, m ≠ n → t.polder m = s.polder m
    (∃ t, exec (.keyInstall n by_ v) s = .next t ∧ still t ∧ cleared t ∧ (t.polder n).basin.key.toNat =
      (tget 0 b.bkey 0).toNat + (tget 0 b.bkey 1).toNat * 2 ^ 64 + (tget 0 b.bkey 2).toNat * 2 ^ 128 + v.toNat * 2 ^ 192) ∧
    (∃ t, exec (.basinClear n by_) s = .next t ∧ still t ∧ cleared t ∧ t.polder n = s.polder n) ∧
    (∃ t, exec (.basinEnable n by_ true) s = .next t ∧ still t ∧ (t.polder n).basin.en = true ∧ t.basin = s.basin) ∧
    (∃ t, exec (.basinEnable n by_ false) s = .next t ∧ still t ∧ (t.polder n).basin.en = false ∧
      (b.en = true → cleared t) ∧ (b.en = false → t.basin = s.basin))

/-- R349, R350, R370, R396: a polder's cores change only while it is disabled and only to cores that no other polder holds, and
a core that comes to it and runs no context is cleared; a code
remap entry keeps its enable, context and page, and its physical page. A register of a polder's block, of management's and
of a virtual function's own reads back what was written, its low bits cleared as its alignment requires. Nobody else's write
has any effect. -/
def Says.PartitionRegisters : Prop :=
  ∀ (s : State) (n k : Nat) (by_ : Writer) (v : Word),
    let p := s.polder n
    (s.mayWrite n by_ = false → exec (.pcoreWrite n by_ k v) s = .next s ∧ exec (.codeRemapWrite n by_ (16 * k) v) s = .next s ∧
      exec (.keyInstall n by_ v) s = .next s ∧ exec (.registerWrite by_ (.polder n) (8 * k) v) s = .next s) ∧
    (s.mayWrite n by_ = true →
      (p.part.en = true → exec (.pcoreWrite n by_ k v) s = .next s) ∧
      (s.takenElsewhere n k v = true → exec (.pcoreWrite n by_ k v) s = .next s) ∧
      (p.part.en = false → k < 4 → s.takenElsewhere n k v = false → ∃ t, exec (.pcoreWrite n by_ k v) s = .next t ∧
        t.mem = s.mem ∧ (∀ j, tget 0 (t.polder n).part.pcore j = if j = k then v else tget 0 p.part.pcore j) ∧
        ∀ c : CoreId,
          let new := c.val / 64 = k ∧ v.getLsbD (c.val % 64) = true ∧ (tget 0 p.part.pcore k).getLsbD (c.val % 64) = false
          (¬ new → t.core c = s.core c) ∧ (new → (t.core c).cls = (s.core c).cls ∧ (t.core c).ctx = (s.core c).ctx ∧
            ((s.core c).ctx = none → (t.core c).loc.scratch = [] ∧ (t.core c).regs = SharedRegs.reset ∧
              (t.core c).eng = EngineState.reset))) ∧
      (k < 8 →
        (∃ t, exec (.codeRemapWrite n by_ (16 * k) v) s = .next t ∧ t.cores = s.cores ∧ t.mem = s.mem ∧
          tget ⟨0, 0⟩ (t.polder n).part.crem k = ⟨v &&& 0x8FFFFFFFFFFF0000, (tget ⟨0, 0⟩ p.part.crem k).pa⟩) ∧
        (∃ t, exec (.codeRemapWrite n by_ (16 * k + 8) v) s = .next t ∧ t.cores = s.cores ∧ t.mem = s.mem ∧
          tget ⟨0, 0⟩ (t.polder n).part.crem k = ⟨(tget ⟨0, 0⟩ p.part.crem k).ctl, v &&& ~~~0xFFFF⟩) ∧
        (∃ t, exec (.registerWrite by_ (.polder n) (0x100 + 8 * k) v) s = .next t ∧
          (t.readRegister by_ (.polder n) (0x100 + 8 * k)).toNat = v.toNat / 2 ^ 32 % 2 ^ 17 * 2 ^ 32 + v.toNat % 2 ^ 17)) ∧
      (p.part.en = false →
        (∃ t, exec (.registerWrite by_ (.polder n) 0xC0 v) s = .next t ∧
          t.readRegister by_ (.polder n) 0xC0 = v &&& ~~~0xFFF) ∧
        (k < 8 → ∃ t, exec (.registerWrite by_ (.polder n) (0x40 + 16 * k) v) s = .next t ∧
          t.readRegister by_ (.polder n) (0x40 + 16 * k) = v &&& ~~~0xFFFF))) ∧
    ((∀ vf, by_ ≠ .virtualFunction vf) → s.dev.actlGo = false →
      ∃ t, exec (.registerWrite by_ .management 0x120 v) s = .next t ∧ t.readRegister by_ .management 0x120 = v) ∧
    (∀ vf, by_ = .virtualFunction vf → exec (.registerWrite by_ .management (8 * k) v) s = .next s ∧
      (s.served vf = some n → ∃ t, exec (.registerWrite by_ (.virtualFunction vf) 0x2000 v) s = .next t ∧
        t.readRegister by_ (.virtualFunction vf) 0x2000 = v &&& ~~~0xFFFFFFFFF))

/-- R279, R280, R302, R303, R349, R350, R363, R370, R396: what drivers and management write. Reserved bits, bits below an alignment
and writes before READY are assumption entry 49. -/
def Obligations.RegisterWrites : Prop := Says.QueueRegisters ∧ Says.BasinRegisters ∧ Says.PartitionRegisters

namespace Says

/-- A task has been registered from a record (R269, R275, R281, R282): the record's fields, its rank bounded by the rank of
the context that launched it, and the tasks that its producers name. -/
def Registered (u t : State) (n : Nat) (r : Record) (va : Word) (rank : Nat) : Prop :=
  ∃ x ∈ t.tasks, x.uid = u.dev.taskNum ∧ x.polder = n ∧ x.record = r ∧ x.address = va ∧ x.rank = rank ∧ x.iters = [] ∧
    x.ended = false ∧ x.lookup = .none ∧ x.deps = u.producersOf n r

/-- A record that is read passes its checks and names no pure task (R269, R270). -/
structure GoodRecord (s u : State) (n : Nat) (ag : Agent) (va : Word) (r : Record) : Prop where
  aligned : va.toNat % 128 = 0
  read    : ∃ bytes, s.unitRead n ag (vaBytes va 128) = .bytes u bytes ∧ r = BitVec.ofNat 1024 (leNat bytes)
  fields  : u.recordBad n r = false
  deps    : Record.depsBad r = false
  impure  : Record.isPure r = false

end Says

/-- R269, R270, R275, R279 to R282: an enabled polder's launcher, not being reset, takes the next pointer, of the device
queue or the host's, reads the record that it names, and registers its task: from the device queue the pointer leaves the
queue, and the rank is at most the launching context's; from the host's RD advances. -/
def Says.LauncherReads : Prop :=
  ∀ (s u : State) (n : Nat) (va : Word) (r : Record), (s.polder n).launches = true →
    let l := (s.polder n).launch
    (∀ b rest, l.next = some false → l.devq = (va, b) :: rest → Says.GoodRecord s u n (s.launcherAgent n) va r →
      ∃ t, exec (.launcherRecordRead n) s = .next t ∧ t.cores = u.cores ∧ Says.SameBytes u t ∧
        Says.Registered u t n r va (min b (Record.rank r)) ∧
        (t.polder n).launch.devq = rest ∧ (t.polder n).launch.devLast = true) ∧
    (∀ s1 ptr, l.next = some true →
      s.unitRead n (s.launcherAgent n) (vaBytes (l.base + BitVec.ofNat 64 (l.rd.toNat % 2 ^ l.log2n.toNat * 8)) 8) =
        .bytes s1 ptr →
      va = BitVec.ofNat 64 (leNat ptr) → Says.GoodRecord s1 u n (s1.launcherAgent n) va r →
      ∃ t, exec (.launcherRecordRead n) s = .next t ∧ t.cores = u.cores ∧ Says.SameBytes u t ∧
        Says.Registered u t n r va (Record.rank r) ∧
        (t.polder n).launch.rd = l.rd + 1 ∧ (t.polder n).launch.devLast = false)

namespace Says

/-- A core runs a new iteration of a task (R271 to R274): every cluster at the task's entry with the argument block's address
in s1, every other register zero and every queue, flag and stream empty. -/
structure Began (t : State) (c : CoreId) (x : Task) (id ic : Nat) : Prop where
  phase   : (t.core c).phase = .running
  context : (t.core c).ctx.map (fun y => (y.polder, y.task, y.id, y.ic)) = some (x.polder, some x.uid, id, ic)
  pcs     : ∀ y, (t.cl c y).pc = Record.code x.record + BitVec.ofNat 64 (Record.entry x.record) ∧
    (t.cl c y).status = .running ∧ (t.cl c y).loops = []
  scalars : ∀ y r, (t.cl c y).getS r = if r = 1 then Record.args x.record else 0
  preds   : ∀ y n, (t.cl c y).getP n = decide (n = 0)
  shared  : (t.core c).regs = SharedRegs.reset ∧ (t.core c).eng = EngineState.reset ∧ (t.core c).deque = []
  special : (∀ n, n ≤ 0x012 → (t.core c).getSr n = 0) ∧ (t.core c).getSr 0x022 = BitVec.ofNat 64 x.rank ∧
    (t.core c).getSr 0x021 = BitVec.ofNat 64 x.polder ∧ (t.core c).trap.cycle = 0

/-- A core may take a context now (R275, R349). -/
def MayStart (s : State) (c : CoreId) : Prop :=
  s.dev.stopped = false ∧ (∃ n, s.ownerOf c = some n ∧ (s.polder n).launches = true) ∧ (s.core c).isFree = true

end Says

/-- R271 to R277: a free core of an enabled polder starts the eligible iteration that comes first, the next of those placed
on it; of a persistent task all iterations start together, or none. An iteration whose clusters have halted, whose queues
are empty and whose accesses have been performed ends: its core is free, and its task counts it as ended. -/
def Says.Iterations : Prop :=
  ∀ (s : State) (c : CoreId),
    (∀ x, Says.MayStart s c → s.bestFor c = some x → Record.persistent x.record = false →
      let i := Record.iterAt x.record (s.polder x.polder) c (x.startedOn (s.polder x.polder) c)
      ∃ t, exec (.iterationStart c.val) s = .next t ∧ Says.Began t c x i.1 i.2 ∧ t.mem = s.mem ∧
        (∀ d, d ≠ c → t.core d = s.core d) ∧
        ∀ y ∈ t.tasks, y.uid = x.uid → ∃ z ∈ s.tasks, y.iters = z.iters ++ [⟨i.1, i.2, c, .running, false⟩]) ∧
    (∀ x, Says.MayStart s c → s.bestFor c = some x → Record.persistent x.record = true →
      (∀ d ∈ s.persistentCores x, (s.core d).isFree = true ∧ (s.bestFor d).map (·.uid) = some x.uid) →
      ∃ t, exec (.iterationStart c.val) s = .next t ∧ t.mem = s.mem ∧
        ∀ d ∈ s.persistentCores x, (t.core d).phase = .running ∧ (t.core d).ctx.bind (·.task) = some x.uid) ∧
    (s.iterationOver c = false → exec (.iterationEnd c.val) s = .next s) ∧
    (∀ x, (s.core c).ctx = some x → s.iterationOver c = true →
      ∃ t, exec (.iterationEnd c.val) s = .next t ∧ (t.core c).phase = .free ∧ (t.core c).ctx = none ∧
        (t.core c).deque = [] ∧ (t.core c).loc.stash = [] ∧
        (s.ownerOf c = none ∨ s.ownerOf c = (s.core c).lastPolder → (t.core c).regs = (s.core c).regs ∧
          ((s.core c).loc.l1 = [] → s.l2 = [] → Says.SameBytes s t)) ∧
        ∀ uid, x.task = some uid → ∀ y ∈ t.tasks, y.uid = uid → ∀ i ∈ y.iters, i.id = x.id → i.ic = x.ic →
          i.state = .ended)

/-- R269 to R282: the launcher's reads, and the start and the end of iterations. The order of the launcher's checks and of
iterations is assumption entry 50; the context's identifier is a free choice (entry 14); that %tvec and %tstack start at zero
like every field of the exception registers is entry 10. -/
def Obligations.LauncherAndIterations : Prop := Says.LauncherReads ∧ Says.Iterations

namespace Says

/-- Writing the completion word of a task of a polder at `va` names no byte beyond the package's memory, whatever the
word. -/
def WordInMemory (s : State) (n : Nat) (va : Word) : Prop :=
  ∀ word pa, s.unitWrite n (s.launcherAgent n) va (leBytes 8 word) ≠ .hole pa

/-- An address lies in no scratchpad window (R151). -/
def Windowless (va : Word) : Prop := va.toNat < 0x7E0000000000 ∨ 0x7F0000200000 ≤ va.toNat

/-- How the lookup of a task stands. -/
def LookedUp (t : State) (uid : Nat) (l : Lookup) : Prop := ∀ x ∈ t.tasks, x.uid = uid → x.lookup = l

end Says

/-- R299 to R309, R399: a pure task whose dependences are satisfied is looked up: with the basin disabled not at all; an entry of
the same address key that is still eligible is an address hit; otherwise, the code's digest agreeing, an entry of the same
content key is a content hit, and with none the task is missed; code in a scratchpad window is not read, and ends the task. A hit whose tiles have been written is counted and ends
its task; a missed task that has ended in order is inserted, where it may be, its results stored under its content key,
and ends. Where R303 to R309 leave a step open the model follows assumption entry 51; the stored results stand in the
entry (entry 28). -/
def Obligations.BasinReuse : Prop :=
  ∀ (s : State) (uid : Nat) (x : Task) (d : PureDesc), s.task uid = some x → x.pure = some d → x.ended = false →
    let n := x.polder
    (x.lookup = .due → x.stopped = false → s.depsMet x = true → (s.polder n).launches = true →
      ((s.polder n).basin.en = false → ∃ t, exec (.pureLookup uid) s = .next t ∧ Says.LookedUp t uid .none ∧
        { t with tasks := s.tasks } = s) ∧
      (∀ e, (s.polder n).basin.en = true → s.addressHit x d = some e →
        ∃ t, exec (.pureLookup uid) s = .next t ∧ Says.LookedUp t uid (.copying e.hash e.data true false) ∧
          t.cores = s.cores ∧ t.basin = s.basin ∧ Says.SameBytes s t) ∧
      (∀ s1 s2 code bytes, (s.polder n).basin.en = true → s.addressHit x d = none →
        let u := s.armSlots x d
        let h := contentKey (s2.polder n).basin.key x.record d bytes
        (∀ va ∈ tileVas (PureDesc.code d, PureDesc.codeBytes d) ++ hashedVas x.record d, Says.Windowless va) →
        u.unitRead n (u.basinAgent n) (tileVas (PureDesc.code d, PureDesc.codeBytes d)) = .bytes s1 code →
        sha256 code = leBytes 32 (PureDesc.field d 0x20 32) →
        s1.unitRead n (u.basinAgent n) (hashedVas x.record d) = .bytes s2 bytes →
        ∃ t, exec (.pureLookup uid) s = .next t ∧ t.cores = s2.cores ∧ t.basin = s2.basin ∧ Says.SameBytes s2 t ∧
          match s2.basin.find? fun e => e.polder == n && e.hash == h && e.formats == resultFormats d with
          | some e => Says.LookedUp t uid (.copying e.hash e.data false false)
          | none => Says.LookedUp t uid .missed ∧ ∀ y ∈ t.tasks, y.uid = uid → y.key = some h) ∧
      ((s.polder n).basin.en = true → s.addressHit x d = none →
        (∃ va ∈ tileVas (PureDesc.code d, PureDesc.codeBytes d), ¬ Says.Windowless va) →
        Says.WordInMemory ((s.armSlots x d).clearFetched n) n (Record.done x.record) →
        ∃ t, exec (.pureLookup uid) s = .next t ∧ ∀ y ∈ t.tasks, y.uid = uid → y.ended = true)) ∧
    (∀ h data byAddress s1, x.lookup = .copying h data byAddress false → n < 64 → (s.polder n).part.flrGo = false →
      (∀ e ∈ s.basin, e.polder = n → e.hash = h → e.poisoned = false) →
      s.writeTiles n (PureDesc.results d) data = .ok s1 → s1.unitWritesOut n = false →
      Says.WordInMemory s1 n (Record.done x.record) →
      ∃ t, exec (.hitCopyComplete uid) s = .next t ∧ (∀ y ∈ t.tasks, y.uid = uid → y.ended = true) ∧
        tget 0 (t.polder n).basin.counts (if byAddress then 0 else 1) =
          tget 0 (s1.polder n).basin.counts (if byAddress then 0 else 1) + 1) ∧
    (x.insertable = true → s.allEnded x = true →
      (s.insertionOk x d = false → Says.WordInMemory s n (Record.done x.record) →
        ∃ t, exec (.basinInsertion uid) s = .next t ∧ ∀ y ∈ t.tasks, y.uid = uid → y.ended = true) ∧
      (∀ s1 bytes, s.insertionOk x d = true →
        s.unitRead n (s.basinAgent n) ((PureDesc.results d).flatMap tileVas) = .bytes s1 bytes →
        Says.WordInMemory s1 n (Record.done x.record) →
        ∃ t, exec (.basinInsertion uid) s = .next t ∧ (∀ y ∈ t.tasks, y.uid = uid → y.ended = true) ∧
          ∃ e ∈ t.basin, e.polder = n ∧ some e.hash = x.key ∧ e.data = bytes ∧ e.formats = resultFormats d))

namespace Says

/-- The reset of a polder has ended: GO reads 0 and the status says whether the drain was late; no context of the polder, no
basin entry and no retention register is left. -/
structure WasReset (s t : State) (n : Nat) : Prop where
  go       : (t.polder n).part.flrGo = false
  status   : (t.polder n).part.flrStat = (if (s.polder n).part.flrLate then 2 else 1)
  contexts : ∀ c ∈ s.contextCores n, (t.core c).phase = .free ∧ (t.core c).ctx = none
  basin    : ∀ e ∈ t.basin, e.polder ≠ n
  retained : ∀ k, k < 4 → ∀ r ∈ (tget Die.reset t.dies k).retention, r.polder ≠ n

/-- The machine with a polder's contexts removed, and with the responses that it awaits given up (R347, R360 step 3). -/
def withoutContexts (s : State) (n : Nat) : State :=
  let u := s.abandonPeers n
  (u.contextCores n).foldl (fun st c => st.removeContext c .kill) u

/-- One task of a polder has not ended, and nothing has removed a context of it. -/
structure LastTask (s : State) (n : Nat) (x : Task) : Prop where
  mine    : x ∈ s.tasks ∧ x.polder = n ∧ x.ended = false
  alone   : ∀ y ∈ s.tasks, y.polder = n → y.uid ≠ x.uid → y.ended = true
  unique  : ∀ y ∈ s.tasks, y.uid = x.uid → y = x
  removal : x.removal = none

end Says

/-- R347, R360, R361: a function-level reset of a polder begins: GO reads 1, the launcher reads no more, the event ring is
off, and every context of the polder that has not stopped for good drains, its registers as they are; a second request is
ignored. After 50 us its drain is late, and not before. Once every context has drained, or it is late, it ends: no context
of the polder, no basin entry and no retention register is left, GO reads 0 and the status says whether it was late. It ends
so where every task of the polder had ended; a task that had not ends with it, and its completion word, at an aligned address
that passes its checks, reports KILLED with cause KILL and the cores on which it ran (R278). That
a core stopped for good counts as drained, and what its tasks end with, is assumption entry 47; the time between is free
(entry 5). -/
def Obligations.FunctionLevelResets : Prop :=
  ∀ (s : State) (n : Nat), n < 64 →
    let p := s.polder n
    (p.part.flrGo = true → exec (.functionLevelReset n) s = .next s) ∧
    (p.part.flrGo = false → ∃ t, exec (.functionLevelReset n) s = .next t ∧ Says.SameBytes s t ∧
      (t.polder n).part.flrGo = true ∧ (t.polder n).launch.en = false ∧ (t.polder n).launch.devq = [] ∧
      (t.polder n).events.en = false ∧
      ∀ c, (t.core c).regs.v = (s.core c).regs.v ∧ (∀ x r, (t.cl c x).getS r = (s.cl c x).getS r) ∧
        (t.core c).phase = if c ∈ s.contextCores n ∧ (s.core c).phase ≠ .doubleFault ∧ (s.core c).phase ≠ .machineStop
          then .saving else (s.core c).phase) ∧
    (p.part.flrGo = true → p.part.flrTime < 50000 ∨ s.drained n = true → exec (.flrDrainTimeout n) s = .next s) ∧
    (p.part.flrGo = true → 50000 ≤ p.part.flrTime → s.drained n = false → ∃ t, exec (.flrDrainTimeout n) s = .next t ∧
      Says.OnlyPolder s t n { p with part := { p.part with flrLate := true } }) ∧
    (p.part.flrGo = true → p.part.flrLate = false → s.drained n = false → exec (.flrComplete n) s = .next s) ∧
    (p.part.flrGo = true → p.part.flrLate = true ∨ s.drained n = true →
      ((∀ x ∈ s.tasks, x.polder = n → x.ended = true) →
        ∃ t, exec (.flrComplete n) s = .next t ∧ Says.WasReset s t n) ∧
      ∀ x, Says.LastTask s n x →
        let u := Says.withoutContexts s n
        let va := Record.done x.record
        let word := s.taskCores x * 2 ^ 16 + Cause.kill.code * 2 ^ 8 + 5
        Says.WordInMemory u n va →
        ∃ t, exec (.flrComplete n) s = .next t ∧ Says.WasReset s t n ∧ (∀ y ∈ t.tasks, y.polder = n → y.ended = true) ∧
          ∀ u1, va ≠ 0 → va.toNat % 8 = 0 → u.unitWrite n (u.launcherAgent n) va (leBytes 8 word) = .ok u1 →
            (∀ e ∈ u1.l2, e.1 / 2 ^ 49 ≠ 4096 + n) → Says.SameBytes u1 t)

namespace Says

/-- The place of a byte is not a peer's. -/
def Ours (ls : List Loc) : Prop := ∀ l ∈ ls, ∀ a, l.place ≠ .peer a

/-- A failed access of the host has no effect but an event of kind 6 of its polder. -/
structure HostFailed (s t : State) (n : Nat) (cause : Cause) (va : Word) : Prop where
  cores : t.cores = s.cores
  bytes : SameBytes s t
  event : ∃ e, t.dev.events = s.dev.events ++ [e] ∧ e.addr = va ∧ e.cause = cause ∧ e.kind = 6 ∧ e.polder = n

/-- An atomic of the host: its virtual function, its offset, its width and the new value of the old (R364). -/
def hostAtom : Instr → Option (Nat × Nat × Bool × (Nat → Nat))
  | .hostFetchadd vf off wide v => some (vf, off, wide, fun old => old + opnd wide v)
  | .hostSwap vf off wide v => some (vf, off, wide, fun _ => opnd wide v)
  | .hostCas vf off wide cmp v => some (vf, off, wide, fun old => if old = opnd wide cmp then opnd wide v else old)
  | _ => none

end Says

/-- R362, R364: accesses of the host through a virtual function's aperture, its bytes passing the checks of a user outside
every secure range, none a peer's. A read is answered with memory's bytes and changes none; a write puts its bytes where
they belong and no other; an aligned atomic is answered with the old value, and writes the new one in one piece. An access
that fails its checks is an event of kind 6 with the cause and has no other effect: a write is dropped, and a read or an atomic
is answered as unsupported; so is an atomic that is not aligned. A read waits for the host's earlier posted writes. A virtual
function that serves no polder reads as 0. No register of a cluster changes. Causes and repeated reads where R364 gives none
are assumption entry 52. -/
def Obligations.HostAccesses : Prop :=
  ∀ (s : State) (vf off n : Nat), s.apertureOf vf = some n → (s.polder n).fetched = [] → s.entangled = false →
    let posted := ∃ p ∈ s.peers, p.use = .hostWrite n
    let va := (s.polder n).events.hwbase + BitVec.ofNat 64 off
    let ag := hostAgent n
    (∀ size, 0 < size → off + size ≤ 2 ^ 36 → posted → exec (.hostBar2Access vf off size none) s =
      .next { s with dev := { s.dev with hostWait := s.dev.hostWait ++ [⟨vf, off, size, none⟩] } }) ∧
    (∀ size ls, 0 < size → off + size ≤ 2 ^ 36 → s.checkAccess ag .read .any (Says.span va size) = .ok ls → Says.Ours ls →
      ¬ posted → (∀ l ∈ ls, s.poisonAt ag l = none) →
      ∃ t, exec (.hostBar2Access vf off size none) s = .next t ∧ t.cores = s.cores ∧ Says.SameBytes s t ∧
        t.dev.hostReply = .data (ls.map fun l => s.peek l.place)) ∧
    (∀ size cause a, 0 < size → off + size ≤ 2 ^ 36 → ¬ posted →
      s.checkAccess ag .read .any (Says.span va size) = .error (.fault cause a) →
      ∃ t, exec (.hostBar2Access vf off size none) s = .next t ∧ Says.HostFailed s t n cause a ∧
        t.dev.hostReply = .unsupported) ∧
    (∀ data cause a, data ≠ [] → off + data.length ≤ 2 ^ 36 →
      s.checkAccess ag .write .any (Says.span va data.length) = .error (.fault cause a) →
      ∃ t, exec (.hostBar2Access vf off 0 (some data)) s = .next t ∧ Says.HostFailed s t n cause a ∧
        t.dev.hostReply = s.dev.hostReply) ∧
    (∀ i wide f cause a, Says.hostAtom i = some (vf, off, wide, f) →
      let k := if wide then 8 else 4
      off + k ≤ 2 ^ 36 →
      (va.toNat % k = 0 → ¬ posted → s.checkAccess ag .atomic .ordered (Says.span va k) = .error (.fault cause a) →
        ∃ t, exec i s = .next t ∧ Says.HostFailed s t n cause a ∧ t.dev.hostReply = .unsupported) ∧
      (va.toNat % k ≠ 0 →
        ∃ t why, exec i s = .next t ∧ Says.HostFailed s t n why va ∧ t.dev.hostReply = .unsupported)) ∧
    (∀ data ls, data ≠ [] → off + data.length ≤ 2 ^ 36 → Says.Canonical s →
      s.checkAccess ag .write .any (Says.span va data.length) = .ok ls → Says.Ours ls →
      ∃ t, exec (.hostBar2Access vf off 0 (some data)) s = .next t ∧ Says.SameRegisters s t ∧
        ∀ pl, t.peek pl = (Says.lastAt (ls.zip data) pl).getD (s.peek pl)) ∧
    (∀ i wide f ls, Says.hostAtom i = some (vf, off, wide, f) →
      let k := if wide then 8 else 4
      off + k ≤ 2 ^ 36 → va.toNat % k = 0 → ¬ posted → Says.Canonical s →
      s.checkAccess ag .atomic .ordered (Says.span va k) = .ok ls → Says.Ours ls →
      (∀ l ∈ ls, s.poisonAt ag l = none) →
      ∃ t, exec i s = .next t ∧ Says.SameRegisters s t ∧ t.dev.hostReply = .data (ls.map fun l => s.peek l.place) ∧
        ∀ pl, t.peek pl =
          (Says.lastAt (ls.zip (leBytes k (f (leNat (ls.map fun l => s.peek l.place))))) pl).getD (s.peek pl)) ∧
    ∀ size none_, s.apertureOf none_ = none → 0 < size → off + size ≤ 2 ^ 36 →
      ∃ t, exec (.hostBar2Access none_ off size none) s = .next t ∧ Says.SameBytes s t ∧
        t.dev.hostReply = .data (List.replicate size 0)

namespace Says

/-- The bytes that a peer's request touches (R170, R174). -/
def peerBytes : PeerOp → Nat
  | .read n => n
  | .write l => l.length
  | .rmw _ wide _ => if wide then 8 else 4
  | .ordered _ _ => 8

/-- What a peer's atomic or reduction makes of the old value (R171, R172). -/
def peerValue (op : PeerRmw) (wide : Bool) (v : Word) (old : Nat) : Nat :=
  let n := if wide then 64 else 32
  let b := v.toNat % 2 ^ n
  match op with
  | .add => (old + b) % 2 ^ n
  | .and => old &&& b
  | .or => old ||| b
  | .xor => old ^^^ b
  | .min => if signedLow n old ≤ signedLow n b then old else b
  | .max => if signedLow n b ≤ signedLow n old then old else b
  | .minu => if old ≤ b then old else b
  | .maxu => if b ≤ old then old else b
  | .swap => b
  | .addF32 => (fpAdd fmtF32 .rne old b).bits
  | .cas expected => if old = expected.toNat % 2 ^ n then b else old

/-- A polder that is not being reset, and whose memory holds the request's bytes, has an enabled export entry that names the
requester's device and polder, allows what the request does, and covers its bytes (R361, R367). -/
def Exported (s : State) (r : PeerRequest) : Prop :=
  let k := peerBytes r.op
  ∃ n, n < 64 ∧ (s.polder n).part.flrGo = false ∧ (∀ i, i < k → (s.polder n).inRange (r.address + i) = true) ∧
    ∃ e ∈ (s.polder n).part.exps.toList, e.control.getLsbD 63 = true ∧
      ((∀ l, r.op ≠ .write l) → e.control.getLsbD 61 = true) ∧ ((∀ m, r.op ≠ .read m) → e.control.getLsbD 62 = true) ∧
      e.control.toNat / 2 ^ 48 % 2 ^ 9 = r.device ∧ e.control.toNat / 2 ^ 40 % 2 ^ 6 = r.polder ∧
      e.base.toNat ≤ r.address ∧ r.address + k ≤ e.base.toNat + e.size.toNat * 2 ^ 16

end Says

/-- R367: a request of a peer that no export entry grants is refused with PERMISSION, and one of another world to a secure
range with WORLD_VIOLATION. A granted read is answered with memory's bytes, a write writes its bytes and no other, an atomic
is answered with the old bytes and writes the new, and an ordered reduction is on its way to its home slice. -/
def Says.PeerRequests : Prop :=
  ∀ (s : State) (r : PeerRequest),
    let k := Says.peerBytes r.op
    let pas := (List.range k).map (r.address + ·)
    (¬ Says.Exported s r → ∃ t, exec (.peerRequest r) s = .next t ∧ { t with dev := s.dev } = s ∧
      t.dev.peerReply = some (.failed (BitVec.ofNat 6 Cause.permission.code) 0)) ∧
    (Says.Exported s r → r.secure = false → (∃ a ∈ pas, s.isSecure a = true) →
      ∃ t, exec (.peerRequest r) s = .next t ∧ { t with dev := s.dev } = s ∧
        t.dev.peerReply = some (.failed (BitVec.ofNat 6 Cause.worldViolation.code) 0)) ∧
    (Says.Exported s r → (r.secure = true ∨ ∀ a ∈ pas, s.isSecure a = false) → r.address + k ≤ Config.hbmBytes →
      Memory.wf s.mem = true → s.entangled = false → (∀ a ∈ pas, s.homePoison (a / 32) = none) →
      ∃ t, exec (.peerRequest r) s = .next t ∧ Says.SameRegisters s t ∧ t.hostMem = s.hostMem ∧
        (∀ m, r.op = .read m → t.mem = s.mem ∧ t.dev.peerReply = some (.data (rdBytes s.mem r.address m))) ∧
        (∀ l, r.op = .write l → rdBytes t.mem r.address l.length = l ∧ t.dev.peerReply = some (.data []) ∧
          ∀ a, (a < r.address ∨ r.address + l.length ≤ a) → rdByte t.mem a = rdByte s.mem a) ∧
        (∀ op wide v, r.op = .rmw op wide v → t.dev.peerReply = some (.data (rdBytes s.mem r.address k)) ∧
          rdBytes t.mem r.address k = leBytes k (Says.peerValue op wide v (leNat (rdBytes s.mem r.address k))) ∧
          ∀ a, (a < r.address ∨ r.address + k ≤ a) → rdByte t.mem a = rdByte s.mem a) ∧
        (∀ v num, r.op = .ordered v num → t.mem = s.mem ∧ ∃ m, t.rofSent = s.rofSent ++ [m] ∧ m.pair = r.address ∧
          m.num = num ∧ m.val = v ∧ m.core = none))

/-- R163, R368: the response of a peer. The bytes of a read stand for the syllable that awaits them; a returning atomic's
register takes them, zero-extended, and its bundle completes, no trap of it being enabled; a store's ends its wait. A failure
fails the syllable that awaits it at the byte that failed, and an access that has waited 1 ms with PEER_TIMEOUT; before that
nothing happens. Of a store, of a reduction without a result or of a command's write, either is an event of kind 8 of its
polder, with the cause and the byte's address, and no more. -/
def Says.PeerResponses : Prop :=
  ∀ (s : State) (place : Nat) (w : PeerWait) (data : List Byte), s.peers[place]? = some w →
    let u : State := { s with peers := s.peers.eraseIdx place }
    (w.age < 1000000 → exec (.peerTimeout place) s = .next s) ∧
    (∀ c who, w.use = .store c who →
      let event (i : Instr) (cause : Cause) (va : Word) : Prop := ∃ t e, exec i s = .next t ∧ { t with dev := u.dev } = u ∧
        Says.Sent u t e ∧ e.kind = 8 ∧ e.cause = cause ∧ e.addr = va ∧ e.polder = (s.core c).polderNo
      exec (.peerResponse place (.data data)) s = .next u ∧
      (∀ code k, event (.peerResponse place (.failed code k)) (causeOfCode code.toNat) (w.va + BitVec.ofNat 64 k)) ∧
      (1000000 ≤ w.age → event (.peerTimeout place) .peerTimeout w.va)) ∧
    (∀ c x, w.use = .fetch c x →
      ∃ t, exec (.peerResponse place (.data data)) s = .next t ∧ t.peers = u.peers ∧
        { t.cl c x with fetched := [] } = { s.cl c x with fetched := [] } ∧ (∀ y, y ≠ x → t.cl c y = s.cl c y) ∧
        (swf none (s.cl c x).fetched = true → data.length ≤ 2 ^ 32 → ∀ i b, data[i]? = some b →
          sget none (t.cl c x).fetched (w.va + BitVec.ofNat 64 i).toNat = some b)) ∧
    (∀ c x, (w.use = .fetch c x ∨ ∃ rd syl, w.use = .atomic c x rd syl) →
      let failing (va : Word) (cause : Cause) : State :=
        u.setCl c x { s.cl c x with failed := (s.cl c x).failed ++ [(va, cause)] }
      (∀ code k, exec (.peerResponse place (.failed code k)) s =
        .next (failing (w.va + BitVec.ofNat 64 k) (causeOfCode code.toNat))) ∧
      (1000000 ≤ w.age → exec (.peerTimeout place) s = .next (failing w.va .peerTimeout))) ∧
    (∀ c x rd syl, w.use = .atomic c x rd syl → (s.core c).getSr 0x078 = 0 →
      sget 0 (s.core c).trap.watchHit x.code = 0 →
      ∃ t, exec (.peerResponse place (.data data)) s = .next t ∧ t.peers = u.peers ∧ Says.SameBytes s t ∧
        (∀ r, (t.cl c x).getS r = if r = rd ∧ rd ≠ 0 then BitVec.ofNat 64 (leNat data) else (s.cl c x).getS r) ∧
        (t.cl c x).status = .running ∧ (t.cl c x).pc = (loopEnd (s.cl c x).pc (s.cl c x).loops).1 ∧
        (t.cl c x).loops = (loopEnd (s.cl c x).pc (s.cl c x).loops).2 ∧ ∀ y, y ≠ x → t.cl c y = s.cl c y)

/-- R367, R368: requests of peers to this device, and their responses to it. That an access awaits its bytes and is then made
again is assumption entry 56; an unstated cause or order, entry 52; that answers arrive as events, entry 17. -/
def Obligations.PeerTraffic : Prop := Says.PeerRequests ∧ Says.PeerResponses

/-- R392, R393, R396: power on, and a device reset once no unended task is left, give the machine as it is at reset; what lies
outside it stays. While booting, a rejected image and a missing one are reported in BOOT; the end of the boot sets READY,
the device number, the measurements and the secure ranges, where the image's signature verifies, its key is the fused one and
its security version is not below the rollback counter; another image is rejected. A request for a report sets GO, and while one is in progress is
busy; the report, its place being legal, is 512 bytes that begin with its magic number, its version and the serial number,
and no other byte of memory changes; with an illegal place the status is 2. What a report's signature and the fused
numbers are is free (assumption entry 21); the zeros of a reset are entries 1 and 2. -/
def Obligations.DeviceLifecycle : Prop :=
  ∀ (s : State) (result : FirmwareFetch) (config : BootConfig),
    (∃ t, exec .powerOn s = .next t ∧ t =
      { State.reset with hostMem := s.hostMem, saves := s.saves, agenda := s.agenda, free := s.free }) ∧
    (∀ t, exec .deviceReset s = .next t →
      { t with hostMem := [], saves := [], agenda := [], free := 0 } = State.reset) ∧
    ((∀ x ∈ s.tasks, x.ended = true) → ∃ t, exec .deviceReset s = .next t) ∧
    (s.dev.ready = false →
      exec (.firmwareFetchRetry result) s =
        .next { s with dev := { s.dev with boot := if result = .rejected then 2 else 3 } } ∧
      exec (.bootComplete config) s = .next { s with dev :=
        if config.signed = true ∧ config.key = Config.fusedKey ∧ Config.rollback.toNat ≤ config.svn.toNat then
          { s.dev with ready := true, boot := 1, digest := config.digest, svn := config.svn, dnum := config.device,
                       secure := config.secure.take 16 }
        else { s.dev with boot := 2 } }) ∧
    (s.dev.ready = true → exec (.firmwareFetchRetry result) s = .next s ∧ exec (.bootComplete config) s = .next s) ∧
    exec .attestationRequest s = .next { s with dev :=
      if s.dev.actlGo then { s.dev with actlStat := 3 } else { s.dev with actlGo := true, actlStat := 0 } } ∧
    (s.dev.actlGo = true → s.dev.ready = true →
      (s.reportPlace = false →
        exec .attestationReportWritten s = .next { s with dev := { s.dev with actlGo := false, actlStat := 2 } }) ∧
      (s.reportPlace = true → Memory.wf s.mem = true → s.entangled = false → ∃ t, exec .attestationReportWritten s = .next t ∧
        t.dev.actlGo = false ∧ t.dev.actlStat = 1 ∧ Says.SameRegisters s t ∧
        rdBytes t.mem s.dev.aaddr.toNat 16 = [0x59, 0x46, 0x41, 0x54, 1, 0, 0, 0] ++ leBytes 8 Config.serial.toNat ∧
        rdBytes t.mem (s.dev.aaddr.toNat + 16) 32 = leBytes 32 s.dev.digest.toNat ∧
        ∀ a, (a < s.dev.aaddr.toNat ∨ s.dev.aaddr.toNat + 512 ≤ a) → rdByte t.mem a = rdByte s.mem a))

/-- R359, R369, R390, R394: the clock goes down by 100 MHz, to no less than 1.8 GHz, while power or temperature exceeds its
limit, and up, to no more than 3.6 GHz, once the limits have held for 10 ms. A sync message within 25 ns locks %time, which it
sets at the first lock, but not backwards once programs run; beyond 1 us, and after 2 s without one, lock is lost. A WAITT
that waits when lock is lost faults with TIME_UNLOCKED (R227). At 115 degrees the junction machine check stops the device and
every context, and tells management; below it nothing happens. At the start of a window each count gains its rate, up to the larger of burst and rate,
and the units that wait take from it. After sixteen failed replays of one flit a port goes down with an event. Nothing else
changes. The sensor's values and the time between steps are free (assumption entry 5), and so is whether a replay is of the
same flit (entry 17); what a lock and a waiter do is entry 58; fields of the events, entry 46; how many tokens are asked for,
entry 18; that %time is not set backwards at a first lock after READY, entry 38. -/
def Obligations.ClockTimeAndLinks : Prop :=
  let NoTimedWait (t : State) : Prop := ∀ c x, (t.core c).phase = .running → (t.cl c x).waitsTime = none
  ∀ (s : State) (offset : Int) (tai : Word),
    let sensed := (Config.sensor s.free).toNat
    exec .clockThrottle s = .next (if 3200 < sensed % 2 ^ 16 ∨ 105 < sensed / 2 ^ 16 then
      { s with dev := { s.dev with mhz := BitVec.ofNat 16 (max 1800 (s.dev.mhz.toNat - 100)) } } else s) ∧
    exec .clockRestore s = .next (if s.dev.withinNs < 10000000 then s else
      { s with dev := { s.dev with mhz := BitVec.ofNat 16 (min 3600 (s.dev.mhz.toNat + 100)) } }) ∧
    ((s.dev.tlock = false ∨ s.dev.sinceSync < 2000000000) → (|offset| ≤ 1000 ∨ s.dev.tlock = false ∨ NoTimedWait s) →
      ∃ t, exec (.syncMessage offset tai) s = .next t ∧ { t with dev := s.dev } = s ∧ t.dev.sinceSync = 0 ∧
      (-2 ^ 31 ≤ offset → offset < 2 ^ 31 → t.dev.toff.toInt = offset) ∧
      (|offset| ≤ 25 → t.dev.tlock = true ∧ t.dev.time = if s.dev.locked1 then s.dev.time
        else if s.dev.ready = true ∧ tai.toNat < s.dev.time.toNat then s.dev.time else tai) ∧
      (25 < |offset| → |offset| ≤ 1000 → t.dev.tlock = s.dev.tlock ∧ t.dev.time = s.dev.time) ∧
      (1000 < |offset| → t.dev.tlock = false ∧ t.dev.time = s.dev.time)) ∧
    (s.dev.sinceSync < 2000000000 → exec .timeLockLoss s = .next s) ∧
    (2000000000 ≤ s.dev.sinceSync → s.dev.tlock = false ∨ NoTimedWait s →
      exec .timeLockLoss s = .next { s with dev := { s.dev with tlock := false } }) ∧
    (∀ c x w t, 2000000000 ≤ s.dev.sinceSync → s.dev.tlock = true →
      (s.core c).phase = .running → (s.cl c x).waitsTime = some w →
      (∀ d y, (s.cl d y).waitsTime ≠ none → d = c ∧ y = x) →
      State.raise { s with dev := { s.dev with tlock := false } } c
        ⟨.timeUnlocked, 0, x, none, 0, w, (s.cl c x).useq.isSome⟩ = .next t → NoTimedWait t →
      exec .timeLockLoss s = .next t) ∧
    (sensed / 2 ^ 16 < 115 → exec .junctionTemperatureMachineCheck s = .next s) ∧
    (115 ≤ sensed / 2 ^ 16 → ∃ t e, exec .junctionTemperatureMachineCheck s = .next t ∧ Says.SameBytes s t ∧ t.dev.stopped = true ∧
      t.dev.events = s.dev.events ++ [e] ∧ e.cause = .machineCheck ∧ e.toMgmt = true ∧
      ∀ c, t.core c = if (s.core c).ctx.isSome then { s.core c with phase := .machineStop } else s.core c) ∧
    (∃ t, exec .tokenRefill s = .next t ∧ { t with polders := s.polders } = s ∧ ∀ n k, n < 64 → k < 8 →
      let p := (s.polder n).part
      let count := min (tget 0 p.tokens k + (tget 0 p.rate k).toNat) (max (tget 0 p.burst k).toNat (tget 0 p.rate k).toNat)
      let due := if tget 0 p.rate k = 0 then 0 else tget 0 p.owed k
      tget 0 (t.polder n).part.tokens k = count - due ∧ tget 0 (t.polder n).part.owed k = due - count) ∧
    (∀ port r, port < 16 → tget ⟨false, 0⟩ s.ports port = ⟨true, r⟩ →
      let n := if Config.sameFlit s.free then r + 1 else 1
      (n < 16 → exec (.flitReplay port) s = .next { s with ports := tset s.ports port ⟨true, n⟩ }) ∧
      (16 ≤ n → ∃ t e, exec (.flitReplay port) s = .next t ∧ t.ports = tset s.ports port ⟨false, 0⟩ ∧ Says.Sent s t e ∧
        e.cause = .linkError ∧ e.kind = 4 ∧ t.cores = s.cores ∧ Says.SameBytes s t)) ∧
    ∀ port r, tget ⟨false, 0⟩ s.ports port = ⟨false, r⟩ → exec (.flitReplay port) s = .next s

namespace Says

/-- Words that the spec writes out, with the slot, the header and the instruction that it gives each. -/
def examples : List (Cluster × Word × Header × Instr) :=
  [(.S, 0x0040182100000000, .always, .add 3 1 2),
   (.S, 0x804E182100000000, ⟨true, 3, true⟩, .add 3 1 2),
   (.X1, 0x8000000000000000, ⟨true, 0, false⟩, .nop),
   (.A, 0x2D80010548000040, .always, .ldd 4 5 ⟨.acquire, .core, .normal⟩ 0x40),
   (.X0, 0x58000280580C0800, .always, .vadd 10 11 12 0 .f32 .rne),
   (.X0, 0x1800200106800000, .always, .cmp 1 2 3 .lt),
   (.S, 0x2180000018000003, .always, .loopi 3 3),
   (.A, 0x2F004B0608400040, .always, .vldn 300 6 ⟨.relaxed, .core, .normal⟩ .b64 0x40),
   (.A, 0x3800084181040008, .always, .aadd 1 2 3 .device .normal true 8),
   (.S, 0x4C40280083088700, .always, .mma 5 ⟨0, 0x83⟩ 1 2 0 true true true),
   (.A, 0x4DC0010081280000, .always, .cpstr 0 ⟨0, 0x81⟩ 5 0 false 0),
   (.S, 0x5340180000000012, .always, .dqstealRing 3 2),
   (.S, 0x7AC028C390000001, .always, .ctxsave 5 6 7 8 .fence)]

end Says

/-- R14, R17, R25 to R27: the words that the spec writes out decode to their instructions in a slot where they are legal;
an unassigned opcode, a slot where the opcode is not legal, a privileged opcode in a user context and a set bit that must be
zero are refused, each with its own cause. -/
def Obligations.DecodedWords : Prop :=
  (∀ e ∈ Says.examples, decode e.1 false e.2.1 = .ok e.2.2) ∧
  ∀ user, decode .S user 0x08C0000000000000 = .error .illegalOpcode ∧
    decode .X0 user 0x4C40280083088700 = .error .slotMismatch ∧
    decode .S true 0x7AC028C390000001 = .error .privileged ∧
    decode .S user 0x0040182100000001 = .error .reservedField

/-- R14, R17 to R31: every well-formed instruction that has an encoding is read back from it, under every header, in every
slot where its opcode is legal, by a context that may execute it; and every such instruction's opcode is assigned. -/
def Obligations.EncodingRoundTrip : Prop :=
  ∀ (h : Header) (i : Instr) (op : Nat) (fields : List (Nat × Nat)),
    i.wellFormed = true → i.layout = some (op, fields) → ∃ slots, slotsOf op = some slots ∧
      ∀ cl user, slots.legal cl = true → (user = true → privilegedOp op = false) →
        ∃ w, encodeWith h i = some w ∧ decode cl user w = .ok (h, i)

namespace Says

/-- A cluster's syllable, in state `v` that names it, passes the checks at decode and the interlock (R27, R98, R216). -/
structure Decodes (v : State) (h : Header) (i : Instr) : Prop where
  decoded : decode v.actor.cl v.here.isUser v.actor.syl = .ok (h, i)
  inLoop  : (∃ l ∈ v.me.loops, l.last = v.me.pc) → badLoopEnd i = false
  ready   : v.me.interlocked i = false

/-- The syllable's own effect: its instruction where the guard is true, and only the completion of its bundle where it is
false; in revision 1 an access waits for its cluster's reductions first (R200). Then come the traps of the completed
bundle. -/
def Runs (v : State) (h : Header) (i : Instr) : Res :=
  match (if (v.me.getP h.pred != h.neg) = true then (if v.marked i then .next (v.block .reductions) else exec i v)
    else .next v.complete) with
  | .next t => t.afterBundle v.here
  | r => r

/-- A cluster issues its syllable of bundle `b`, fetched in state `s` with the answer `u`, which is not one that its mates
execute with it: what R12, R213 and R327 ask before it executes; with `late` its accesses may be put off (assumption
entry 3). -/
structure Issues (s u : State) (c : CoreId) (x : Cluster) (late : Bool) (b : BitVec 256) : Prop where
  may     : s.canIssue c x = true
  between : (s.cl c x).useq.bind (·.syl) = none
  fetched : State.fetch { s with actor := ⟨c, x, 0, false, late⟩ } c x (s.cl c x).pc = .bundle u b
  noBreak : (u.core c).breaks x = false
  agrees  : syncAgrees b = true
  alone   : isSynced b = false ∨ (u.cl c x).useq.isSome = true ∨ ((u.cl c x).released = true ∧ (u.core c).inHandler = true)

/-- The clusters of a list execute their syllables of a met synced bundle, each from its own place, one after another, and
all of them complete it. -/
inductive RunsEach (b : BitVec 256) (c : CoreId) : List Cluster → State → State → Prop where
  | done (s : State) : RunsEach b c [] s s
  | next (y : Cluster) (ys : List Cluster) (s v t u z : State) (h : Header) (i : Instr)
      (mate : v = { s with actor := ⟨c, y, slotOf b y, false, false⟩, free := s.free + 1 })
      (passes : Decodes v h i) (runs : Runs v h i = .next u)
      (own : (if (v.me.getP h.pred != h.neg) = true then (if v.marked i then .next (v.block .reductions) else exec i v)
        else .next v.complete) = .next t)
      (completes : t.actor.done = true) (rest : RunsEach b c ys u z) : RunsEach b c (y :: ys) s z

/-- A fetch that reads device memory: no code remap entry names the page, the translation gives the address of the bytes,
and none of them is poisoned. -/
structure FetchesAt (s : State) (c : CoreId) (ag : Agent) (va : Word) (pa : Nat) (leaf : Word) (level : Nat) : Prop where
  early  : s.checkEarly ag .fetch [va] = none
  plain  : (s.polder ag.polder).remap ag.ctx va = none
  leafOk : s.leaf ag .fetch va = .ok (leaf, level)
  place  : ∃ m, s.useLeaf ag .fetch va leaf level = .ok (.hbm pa, m)
  whole  : pa + 32 ≤ Config.hbmBytes
  clean  : s.homePoison (pa / 32) = none

end Says

/-- A fetch gives the 32 bytes of memory at the address that the program counter translates to. When the bundle that a cluster
fetches holds a syllable that decodes to `i`, a step in which that cluster issues is `exec i` where the guard is true, and
the completion of the bundle where it is false; in revision 1 an access waits for its cluster's reductions first (R200).
The next micro-op of a sequence runs from the syllable that began it, with no fetch (R35, R385). The clusters of a synced
bundle that has been met execute their syllables in one step (R213). After it come the traps of the completed bundle, and
what the units do of themselves. When the next action is an event, the step is `exec` of the event. Time has passed before
either. Which agent moves next is the agenda's or a free choice, and how much time passes is free (assumption entries 4 and
5); that a redirected fetch is checked first is entry 42; a loop of late accesses is settled as entry 3 says; where the
rendezvous and the interlock stand among a syllable's checks is entry 38; the order of the mates of one bundle is entry 7. -/
def Obligations.StepRunsTheDecodedInstruction : Prop :=
  let tidied (r : Res) : Res := match r with
    | .next w => w.tidy
    | q => q
  (∀ s c x va pa leaf level,
    let ag := (s.core c).agent c (.cluster x)
    Says.FetchesAt s c ag va pa leaf level →
    s.fetch c x va = .bundle (s.fillTlb ag .fetch va) (BitVec.ofNat 256 (leNat (rdBytes s.mem pa 32)))) ∧
  (∀ (s u : State) c x late rest b h i, s.agenda = (if late then .issueLate c x else .issue c x) :: rest →
    Says.Issues { s.elapse with agenda := rest } u c x late b →
    let v : State := { u with actor := ⟨c, x, slotOf b x, false, late⟩ }
    Says.Decodes v h i → step s = tidied (Says.Runs v h i)) ∧
  (∀ (s : State) c x late rest w h i, s.agenda = (if late then .issueLate c x else .issue c x) :: rest →
    s.elapse.canIssue c x = true → ((s.elapse.cl c x).useq.bind (·.syl)) = some w →
    let v : State := { s.elapse with agenda := rest, actor := ⟨c, x, w, false, late⟩ }
    Says.Decodes v h i → step s = tidied (Says.Runs v h i)) ∧
  (∀ (s u z : State) c x rest b, s.agenda = .issue c x :: rest →
    let s1 : State := { s.elapse with agenda := rest }
    s1.canIssue c x = true → (s1.cl c x).useq.bind (·.syl) = none →
    State.fetch { s1 with actor := ⟨c, x, 0, false, false⟩ } c x (s1.cl c x).pc = .bundle u b →
    (u.core c).breaks x = false → syncAgrees b = true → isSynced b = true → (u.cl c x).owes = true →
    (u.core c).inHandler = false → (∀ y, (u.cl c y).owes = true → (u.cl c y).status = .running) →
    Says.RunsEach b c (u.core c).owing { u with actor := ⟨c, x, slotOf b x, false, false⟩ } z → step s = z.tidy) ∧
  ∀ (s : State) i rest, s.agenda = .event i :: rest → step s = tidied (exec i { s.elapse with agenda := rest })

/-- The memories of the machine keep their canonical form: of device memory, of host memory and of every scratchpad, the
addresses rise strictly and no listed byte is what an unlisted address reads as. That an unlisted byte reads as 0 is the
model's choice (assumption entry 2). -/
def Obligations.StepKeepsMemoryCanonical : Prop :=
  ∀ s t, Says.Canonical s → step s = .next t → Says.Canonical t

/-- R85, R106, R279, R302, R344, R349, R363, R392, R394, R396: the machine at reset: every core free, nothing registered, no
polder enabled, the tables' reset values in the registers that drivers and management see, and time at zero; memory is in
its canonical form and reads as zero, which is the model's choice (entry 2), as are the zeros of the registers of a core
that has no context (entry 1). In every state s0 reads as zero, p0 as true and m0 as all ones, and writing them changes
nothing. -/
def Obligations.ResetState : Prop :=
  let s := State.reset
  Says.Canonical s ∧ (∀ a, rdByte s.mem a = 0) ∧
  (∀ c, (s.core c).phase = .free ∧ (s.core c).ctx = none ∧ ∀ x, (s.cl c x).status = .halted ∧ ∀ r, (s.cl c x).getS r = 0) ∧
  (∀ n, (s.polder n).part.en = false ∧ (s.polder n).part.sec = false ∧ (s.polder n).launch.en = false ∧
    (s.polder n).launch.log2n = 4 ∧ (s.polder n).events.log2n = 4 ∧ (s.polder n).basin.en = false ∧
    (s.polder n).basin.key = 0 ∧ (s.polder n).preempt.go = false ∧ ∀ k, tget 0 (s.polder n).part.pcore k = 0) ∧
  s.dev.ready = false ∧ s.dev.boot = 0 ∧ s.dev.tlock = false ∧ s.dev.mhz = 3600 ∧ s.dev.time = 0 ∧
  s.tasks = [] ∧ s.basin = [] ∧ s.peers = [] ∧ s.monitors = [] ∧
  (∀ (k : ClusterState) v b, k.getS 0 = 0 ∧ k.setS 0 v = k ∧ k.getP 0 = true ∧ k.setP 0 b = k) ∧
  ∀ (k : Core) v, k.getM 0 = BitVec.allOnes 64 ∧ k.setM 0 v = k
end

