-- ==== Sys2Proof/Laws/State.lean ====
section
/-!
SUPPORT. What each update of the machine, of a core and of a cluster leaves as it was: one lemma per field, true by
unfolding, so that no proof unfolds a record update.
-/

namespace Sys2Proof.Machine

variable (s : State) (k : Core) (q : ClusterState)

/-! ### `State.setCore` -/

@[simp] theorem State.setCore_quads (c : CoreId) (k : Core) : (s.setCore c k).quads = s.quads := rfl
@[simp] theorem State.setCore_dies (c : CoreId) (k : Core) : (s.setCore c k).dies = s.dies := rfl
@[simp] theorem State.setCore_polders (c : CoreId) (k : Core) : (s.setCore c k).polders = s.polders := rfl
@[simp] theorem State.setCore_mem (c : CoreId) (k : Core) : (s.setCore c k).mem = s.mem := rfl
@[simp] theorem State.setCore_hostMem (c : CoreId) (k : Core) : (s.setCore c k).hostMem = s.hostMem := rfl
@[simp] theorem State.setCore_clean (c : CoreId) (k : Core) : (s.setCore c k).clean = s.clean := rfl
@[simp] theorem State.setCore_poison (c : CoreId) (k : Core) : (s.setCore c k).poison = s.poison := rfl
@[simp] theorem State.setCore_l2Poison (c : CoreId) (k : Core) : (s.setCore c k).l2Poison = s.l2Poison := rfl
@[simp] theorem State.setCore_l2 (c : CoreId) (k : Core) : (s.setCore c k).l2 = s.l2 := rfl
@[simp] theorem State.setCore_touched (c : CoreId) (k : Core) : (s.setCore c k).touched = s.touched := rfl
@[simp] theorem State.setCore_saves (c : CoreId) (k : Core) : (s.setCore c k).saves = s.saves := rfl
@[simp] theorem State.setCore_padPoison (c : CoreId) (k : Core) : (s.setCore c k).padPoison = s.padPoison := rfl
@[simp] theorem State.setCore_l1Poison (c : CoreId) (k : Core) : (s.setCore c k).l1Poison = s.l1Poison := rfl
@[simp] theorem State.setCore_fenced (c : CoreId) (k : Core) : (s.setCore c k).fenced = s.fenced := rfl
@[simp] theorem State.setCore_monitors (c : CoreId) (k : Core) : (s.setCore c k).monitors = s.monitors := rfl
@[simp] theorem State.setCore_rofSent (c : CoreId) (k : Core) : (s.setCore c k).rofSent = s.rofSent := rfl
@[simp] theorem State.setCore_rofHeld (c : CoreId) (k : Core) : (s.setCore c k).rofHeld = s.rofHeld := rfl
@[simp] theorem State.setCore_gaps (c : CoreId) (k : Core) : (s.setCore c k).gaps = s.gaps := rfl
@[simp] theorem State.setCore_tasks (c : CoreId) (k : Core) : (s.setCore c k).tasks = s.tasks := rfl
@[simp] theorem State.setCore_basin (c : CoreId) (k : Core) : (s.setCore c k).basin = s.basin := rfl
@[simp] theorem State.setCore_watches (c : CoreId) (k : Core) : (s.setCore c k).watches = s.watches := rfl
@[simp] theorem State.setCore_peers (c : CoreId) (k : Core) : (s.setCore c k).peers = s.peers := rfl
@[simp] theorem State.setCore_ports (c : CoreId) (k : Core) : (s.setCore c k).ports = s.ports := rfl
@[simp] theorem State.setCore_dev (c : CoreId) (k : Core) : (s.setCore c k).dev = s.dev := rfl
@[simp] theorem State.setCore_agenda (c : CoreId) (k : Core) : (s.setCore c k).agenda = s.agenda := rfl
@[simp] theorem State.setCore_actor (c : CoreId) (k : Core) : (s.setCore c k).actor = s.actor := rfl
@[simp] theorem State.setCore_free (c : CoreId) (k : Core) : (s.setCore c k).free = s.free := rfl

/-! ### `State.setCl` -/

@[simp] theorem State.setCl_quads (c : CoreId) (x : Cluster) (q : ClusterState) : (s.setCl c x q).quads = s.quads := rfl
@[simp] theorem State.setCl_dies (c : CoreId) (x : Cluster) (q : ClusterState) : (s.setCl c x q).dies = s.dies := rfl
@[simp] theorem State.setCl_polders (c : CoreId) (x : Cluster) (q : ClusterState) : (s.setCl c x q).polders = s.polders := rfl
@[simp] theorem State.setCl_mem (c : CoreId) (x : Cluster) (q : ClusterState) : (s.setCl c x q).mem = s.mem := rfl
@[simp] theorem State.setCl_hostMem (c : CoreId) (x : Cluster) (q : ClusterState) : (s.setCl c x q).hostMem = s.hostMem := rfl
@[simp] theorem State.setCl_clean (c : CoreId) (x : Cluster) (q : ClusterState) : (s.setCl c x q).clean = s.clean := rfl
@[simp] theorem State.setCl_poison (c : CoreId) (x : Cluster) (q : ClusterState) : (s.setCl c x q).poison = s.poison := rfl
@[simp] theorem State.setCl_l2Poison (c : CoreId) (x : Cluster) (q : ClusterState) : (s.setCl c x q).l2Poison = s.l2Poison := rfl
@[simp] theorem State.setCl_l2 (c : CoreId) (x : Cluster) (q : ClusterState) : (s.setCl c x q).l2 = s.l2 := rfl
@[simp] theorem State.setCl_touched (c : CoreId) (x : Cluster) (q : ClusterState) : (s.setCl c x q).touched = s.touched := rfl
@[simp] theorem State.setCl_saves (c : CoreId) (x : Cluster) (q : ClusterState) : (s.setCl c x q).saves = s.saves := rfl
@[simp] theorem State.setCl_padPoison (c : CoreId) (x : Cluster) (q : ClusterState) : (s.setCl c x q).padPoison = s.padPoison := rfl
@[simp] theorem State.setCl_l1Poison (c : CoreId) (x : Cluster) (q : ClusterState) : (s.setCl c x q).l1Poison = s.l1Poison := rfl
@[simp] theorem State.setCl_fenced (c : CoreId) (x : Cluster) (q : ClusterState) : (s.setCl c x q).fenced = s.fenced := rfl
@[simp] theorem State.setCl_monitors (c : CoreId) (x : Cluster) (q : ClusterState) : (s.setCl c x q).monitors = s.monitors := rfl
@[simp] theorem State.setCl_rofSent (c : CoreId) (x : Cluster) (q : ClusterState) : (s.setCl c x q).rofSent = s.rofSent := rfl
@[simp] theorem State.setCl_rofHeld (c : CoreId) (x : Cluster) (q : ClusterState) : (s.setCl c x q).rofHeld = s.rofHeld := rfl
@[simp] theorem State.setCl_gaps (c : CoreId) (x : Cluster) (q : ClusterState) : (s.setCl c x q).gaps = s.gaps := rfl
@[simp] theorem State.setCl_tasks (c : CoreId) (x : Cluster) (q : ClusterState) : (s.setCl c x q).tasks = s.tasks := rfl
@[simp] theorem State.setCl_basin (c : CoreId) (x : Cluster) (q : ClusterState) : (s.setCl c x q).basin = s.basin := rfl
@[simp] theorem State.setCl_watches (c : CoreId) (x : Cluster) (q : ClusterState) : (s.setCl c x q).watches = s.watches := rfl
@[simp] theorem State.setCl_peers (c : CoreId) (x : Cluster) (q : ClusterState) : (s.setCl c x q).peers = s.peers := rfl
@[simp] theorem State.setCl_ports (c : CoreId) (x : Cluster) (q : ClusterState) : (s.setCl c x q).ports = s.ports := rfl
@[simp] theorem State.setCl_dev (c : CoreId) (x : Cluster) (q : ClusterState) : (s.setCl c x q).dev = s.dev := rfl
@[simp] theorem State.setCl_agenda (c : CoreId) (x : Cluster) (q : ClusterState) : (s.setCl c x q).agenda = s.agenda := rfl
@[simp] theorem State.setCl_actor (c : CoreId) (x : Cluster) (q : ClusterState) : (s.setCl c x q).actor = s.actor := rfl
@[simp] theorem State.setCl_free (c : CoreId) (x : Cluster) (q : ClusterState) : (s.setCl c x q).free = s.free := rfl

/-! ### `State.setHere` -/

@[simp] theorem State.setHere_quads (k : Core) : (s.setHere k).quads = s.quads := rfl
@[simp] theorem State.setHere_dies (k : Core) : (s.setHere k).dies = s.dies := rfl
@[simp] theorem State.setHere_polders (k : Core) : (s.setHere k).polders = s.polders := rfl
@[simp] theorem State.setHere_mem (k : Core) : (s.setHere k).mem = s.mem := rfl
@[simp] theorem State.setHere_hostMem (k : Core) : (s.setHere k).hostMem = s.hostMem := rfl
@[simp] theorem State.setHere_clean (k : Core) : (s.setHere k).clean = s.clean := rfl
@[simp] theorem State.setHere_poison (k : Core) : (s.setHere k).poison = s.poison := rfl
@[simp] theorem State.setHere_l2Poison (k : Core) : (s.setHere k).l2Poison = s.l2Poison := rfl
@[simp] theorem State.setHere_l2 (k : Core) : (s.setHere k).l2 = s.l2 := rfl
@[simp] theorem State.setHere_touched (k : Core) : (s.setHere k).touched = s.touched := rfl
@[simp] theorem State.setHere_saves (k : Core) : (s.setHere k).saves = s.saves := rfl
@[simp] theorem State.setHere_padPoison (k : Core) : (s.setHere k).padPoison = s.padPoison := rfl
@[simp] theorem State.setHere_l1Poison (k : Core) : (s.setHere k).l1Poison = s.l1Poison := rfl
@[simp] theorem State.setHere_fenced (k : Core) : (s.setHere k).fenced = s.fenced := rfl
@[simp] theorem State.setHere_monitors (k : Core) : (s.setHere k).monitors = s.monitors := rfl
@[simp] theorem State.setHere_rofSent (k : Core) : (s.setHere k).rofSent = s.rofSent := rfl
@[simp] theorem State.setHere_rofHeld (k : Core) : (s.setHere k).rofHeld = s.rofHeld := rfl
@[simp] theorem State.setHere_gaps (k : Core) : (s.setHere k).gaps = s.gaps := rfl
@[simp] theorem State.setHere_tasks (k : Core) : (s.setHere k).tasks = s.tasks := rfl
@[simp] theorem State.setHere_basin (k : Core) : (s.setHere k).basin = s.basin := rfl
@[simp] theorem State.setHere_watches (k : Core) : (s.setHere k).watches = s.watches := rfl
@[simp] theorem State.setHere_peers (k : Core) : (s.setHere k).peers = s.peers := rfl
@[simp] theorem State.setHere_ports (k : Core) : (s.setHere k).ports = s.ports := rfl
@[simp] theorem State.setHere_dev (k : Core) : (s.setHere k).dev = s.dev := rfl
@[simp] theorem State.setHere_agenda (k : Core) : (s.setHere k).agenda = s.agenda := rfl
@[simp] theorem State.setHere_actor (k : Core) : (s.setHere k).actor = s.actor := rfl
@[simp] theorem State.setHere_free (k : Core) : (s.setHere k).free = s.free := rfl

/-! ### `State.setMe` -/

@[simp] theorem State.setMe_quads (q : ClusterState) : (s.setMe q).quads = s.quads := rfl
@[simp] theorem State.setMe_dies (q : ClusterState) : (s.setMe q).dies = s.dies := rfl
@[simp] theorem State.setMe_polders (q : ClusterState) : (s.setMe q).polders = s.polders := rfl
@[simp] theorem State.setMe_mem (q : ClusterState) : (s.setMe q).mem = s.mem := rfl
@[simp] theorem State.setMe_hostMem (q : ClusterState) : (s.setMe q).hostMem = s.hostMem := rfl
@[simp] theorem State.setMe_clean (q : ClusterState) : (s.setMe q).clean = s.clean := rfl
@[simp] theorem State.setMe_poison (q : ClusterState) : (s.setMe q).poison = s.poison := rfl
@[simp] theorem State.setMe_l2Poison (q : ClusterState) : (s.setMe q).l2Poison = s.l2Poison := rfl
@[simp] theorem State.setMe_l2 (q : ClusterState) : (s.setMe q).l2 = s.l2 := rfl
@[simp] theorem State.setMe_touched (q : ClusterState) : (s.setMe q).touched = s.touched := rfl
@[simp] theorem State.setMe_saves (q : ClusterState) : (s.setMe q).saves = s.saves := rfl
@[simp] theorem State.setMe_padPoison (q : ClusterState) : (s.setMe q).padPoison = s.padPoison := rfl
@[simp] theorem State.setMe_l1Poison (q : ClusterState) : (s.setMe q).l1Poison = s.l1Poison := rfl
@[simp] theorem State.setMe_fenced (q : ClusterState) : (s.setMe q).fenced = s.fenced := rfl
@[simp] theorem State.setMe_monitors (q : ClusterState) : (s.setMe q).monitors = s.monitors := rfl
@[simp] theorem State.setMe_rofSent (q : ClusterState) : (s.setMe q).rofSent = s.rofSent := rfl
@[simp] theorem State.setMe_rofHeld (q : ClusterState) : (s.setMe q).rofHeld = s.rofHeld := rfl
@[simp] theorem State.setMe_gaps (q : ClusterState) : (s.setMe q).gaps = s.gaps := rfl
@[simp] theorem State.setMe_tasks (q : ClusterState) : (s.setMe q).tasks = s.tasks := rfl
@[simp] theorem State.setMe_basin (q : ClusterState) : (s.setMe q).basin = s.basin := rfl
@[simp] theorem State.setMe_watches (q : ClusterState) : (s.setMe q).watches = s.watches := rfl
@[simp] theorem State.setMe_peers (q : ClusterState) : (s.setMe q).peers = s.peers := rfl
@[simp] theorem State.setMe_ports (q : ClusterState) : (s.setMe q).ports = s.ports := rfl
@[simp] theorem State.setMe_dev (q : ClusterState) : (s.setMe q).dev = s.dev := rfl
@[simp] theorem State.setMe_agenda (q : ClusterState) : (s.setMe q).agenda = s.agenda := rfl
@[simp] theorem State.setMe_actor (q : ClusterState) : (s.setMe q).actor = s.actor := rfl
@[simp] theorem State.setMe_free (q : ClusterState) : (s.setMe q).free = s.free := rfl

/-! ### `State.setS` -/

@[simp] theorem State.setS_quads (r : SReg) (v : Word) : (s.setS r v).quads = s.quads := rfl
@[simp] theorem State.setS_dies (r : SReg) (v : Word) : (s.setS r v).dies = s.dies := rfl
@[simp] theorem State.setS_polders (r : SReg) (v : Word) : (s.setS r v).polders = s.polders := rfl
@[simp] theorem State.setS_mem (r : SReg) (v : Word) : (s.setS r v).mem = s.mem := rfl
@[simp] theorem State.setS_hostMem (r : SReg) (v : Word) : (s.setS r v).hostMem = s.hostMem := rfl
@[simp] theorem State.setS_clean (r : SReg) (v : Word) : (s.setS r v).clean = s.clean := rfl
@[simp] theorem State.setS_poison (r : SReg) (v : Word) : (s.setS r v).poison = s.poison := rfl
@[simp] theorem State.setS_l2Poison (r : SReg) (v : Word) : (s.setS r v).l2Poison = s.l2Poison := rfl
@[simp] theorem State.setS_l2 (r : SReg) (v : Word) : (s.setS r v).l2 = s.l2 := rfl
@[simp] theorem State.setS_touched (r : SReg) (v : Word) : (s.setS r v).touched = s.touched := rfl
@[simp] theorem State.setS_saves (r : SReg) (v : Word) : (s.setS r v).saves = s.saves := rfl
@[simp] theorem State.setS_padPoison (r : SReg) (v : Word) : (s.setS r v).padPoison = s.padPoison := rfl
@[simp] theorem State.setS_l1Poison (r : SReg) (v : Word) : (s.setS r v).l1Poison = s.l1Poison := rfl
@[simp] theorem State.setS_fenced (r : SReg) (v : Word) : (s.setS r v).fenced = s.fenced := rfl
@[simp] theorem State.setS_monitors (r : SReg) (v : Word) : (s.setS r v).monitors = s.monitors := rfl
@[simp] theorem State.setS_rofSent (r : SReg) (v : Word) : (s.setS r v).rofSent = s.rofSent := rfl
@[simp] theorem State.setS_rofHeld (r : SReg) (v : Word) : (s.setS r v).rofHeld = s.rofHeld := rfl
@[simp] theorem State.setS_gaps (r : SReg) (v : Word) : (s.setS r v).gaps = s.gaps := rfl
@[simp] theorem State.setS_tasks (r : SReg) (v : Word) : (s.setS r v).tasks = s.tasks := rfl
@[simp] theorem State.setS_basin (r : SReg) (v : Word) : (s.setS r v).basin = s.basin := rfl
@[simp] theorem State.setS_watches (r : SReg) (v : Word) : (s.setS r v).watches = s.watches := rfl
@[simp] theorem State.setS_peers (r : SReg) (v : Word) : (s.setS r v).peers = s.peers := rfl
@[simp] theorem State.setS_ports (r : SReg) (v : Word) : (s.setS r v).ports = s.ports := rfl
@[simp] theorem State.setS_dev (r : SReg) (v : Word) : (s.setS r v).dev = s.dev := rfl
@[simp] theorem State.setS_agenda (r : SReg) (v : Word) : (s.setS r v).agenda = s.agenda := rfl
@[simp] theorem State.setS_actor (r : SReg) (v : Word) : (s.setS r v).actor = s.actor := rfl
@[simp] theorem State.setS_free (r : SReg) (v : Word) : (s.setS r v).free = s.free := rfl

/-! ### `State.setP` -/

@[simp] theorem State.setP_quads (n : PReg) (b : Bool) : (s.setP n b).quads = s.quads := rfl
@[simp] theorem State.setP_dies (n : PReg) (b : Bool) : (s.setP n b).dies = s.dies := rfl
@[simp] theorem State.setP_polders (n : PReg) (b : Bool) : (s.setP n b).polders = s.polders := rfl
@[simp] theorem State.setP_mem (n : PReg) (b : Bool) : (s.setP n b).mem = s.mem := rfl
@[simp] theorem State.setP_hostMem (n : PReg) (b : Bool) : (s.setP n b).hostMem = s.hostMem := rfl
@[simp] theorem State.setP_clean (n : PReg) (b : Bool) : (s.setP n b).clean = s.clean := rfl
@[simp] theorem State.setP_poison (n : PReg) (b : Bool) : (s.setP n b).poison = s.poison := rfl
@[simp] theorem State.setP_l2Poison (n : PReg) (b : Bool) : (s.setP n b).l2Poison = s.l2Poison := rfl
@[simp] theorem State.setP_l2 (n : PReg) (b : Bool) : (s.setP n b).l2 = s.l2 := rfl
@[simp] theorem State.setP_touched (n : PReg) (b : Bool) : (s.setP n b).touched = s.touched := rfl
@[simp] theorem State.setP_saves (n : PReg) (b : Bool) : (s.setP n b).saves = s.saves := rfl
@[simp] theorem State.setP_padPoison (n : PReg) (b : Bool) : (s.setP n b).padPoison = s.padPoison := rfl
@[simp] theorem State.setP_l1Poison (n : PReg) (b : Bool) : (s.setP n b).l1Poison = s.l1Poison := rfl
@[simp] theorem State.setP_fenced (n : PReg) (b : Bool) : (s.setP n b).fenced = s.fenced := rfl
@[simp] theorem State.setP_monitors (n : PReg) (b : Bool) : (s.setP n b).monitors = s.monitors := rfl
@[simp] theorem State.setP_rofSent (n : PReg) (b : Bool) : (s.setP n b).rofSent = s.rofSent := rfl
@[simp] theorem State.setP_rofHeld (n : PReg) (b : Bool) : (s.setP n b).rofHeld = s.rofHeld := rfl
@[simp] theorem State.setP_gaps (n : PReg) (b : Bool) : (s.setP n b).gaps = s.gaps := rfl
@[simp] theorem State.setP_tasks (n : PReg) (b : Bool) : (s.setP n b).tasks = s.tasks := rfl
@[simp] theorem State.setP_basin (n : PReg) (b : Bool) : (s.setP n b).basin = s.basin := rfl
@[simp] theorem State.setP_watches (n : PReg) (b : Bool) : (s.setP n b).watches = s.watches := rfl
@[simp] theorem State.setP_peers (n : PReg) (b : Bool) : (s.setP n b).peers = s.peers := rfl
@[simp] theorem State.setP_ports (n : PReg) (b : Bool) : (s.setP n b).ports = s.ports := rfl
@[simp] theorem State.setP_dev (n : PReg) (b : Bool) : (s.setP n b).dev = s.dev := rfl
@[simp] theorem State.setP_agenda (n : PReg) (b : Bool) : (s.setP n b).agenda = s.agenda := rfl
@[simp] theorem State.setP_actor (n : PReg) (b : Bool) : (s.setP n b).actor = s.actor := rfl
@[simp] theorem State.setP_free (n : PReg) (b : Bool) : (s.setP n b).free = s.free := rfl

/-! ### `State.setM` -/

@[simp] theorem State.setM_quads (n : MReg) (v : Mask) : (s.setM n v).quads = s.quads := rfl
@[simp] theorem State.setM_dies (n : MReg) (v : Mask) : (s.setM n v).dies = s.dies := rfl
@[simp] theorem State.setM_polders (n : MReg) (v : Mask) : (s.setM n v).polders = s.polders := rfl
@[simp] theorem State.setM_mem (n : MReg) (v : Mask) : (s.setM n v).mem = s.mem := rfl
@[simp] theorem State.setM_hostMem (n : MReg) (v : Mask) : (s.setM n v).hostMem = s.hostMem := rfl
@[simp] theorem State.setM_clean (n : MReg) (v : Mask) : (s.setM n v).clean = s.clean := rfl
@[simp] theorem State.setM_poison (n : MReg) (v : Mask) : (s.setM n v).poison = s.poison := rfl
@[simp] theorem State.setM_l2Poison (n : MReg) (v : Mask) : (s.setM n v).l2Poison = s.l2Poison := rfl
@[simp] theorem State.setM_l2 (n : MReg) (v : Mask) : (s.setM n v).l2 = s.l2 := rfl
@[simp] theorem State.setM_touched (n : MReg) (v : Mask) : (s.setM n v).touched = s.touched := rfl
@[simp] theorem State.setM_saves (n : MReg) (v : Mask) : (s.setM n v).saves = s.saves := rfl
@[simp] theorem State.setM_padPoison (n : MReg) (v : Mask) : (s.setM n v).padPoison = s.padPoison := rfl
@[simp] theorem State.setM_l1Poison (n : MReg) (v : Mask) : (s.setM n v).l1Poison = s.l1Poison := rfl
@[simp] theorem State.setM_fenced (n : MReg) (v : Mask) : (s.setM n v).fenced = s.fenced := rfl
@[simp] theorem State.setM_monitors (n : MReg) (v : Mask) : (s.setM n v).monitors = s.monitors := rfl
@[simp] theorem State.setM_rofSent (n : MReg) (v : Mask) : (s.setM n v).rofSent = s.rofSent := rfl
@[simp] theorem State.setM_rofHeld (n : MReg) (v : Mask) : (s.setM n v).rofHeld = s.rofHeld := rfl
@[simp] theorem State.setM_gaps (n : MReg) (v : Mask) : (s.setM n v).gaps = s.gaps := rfl
@[simp] theorem State.setM_tasks (n : MReg) (v : Mask) : (s.setM n v).tasks = s.tasks := rfl
@[simp] theorem State.setM_basin (n : MReg) (v : Mask) : (s.setM n v).basin = s.basin := rfl
@[simp] theorem State.setM_watches (n : MReg) (v : Mask) : (s.setM n v).watches = s.watches := rfl
@[simp] theorem State.setM_peers (n : MReg) (v : Mask) : (s.setM n v).peers = s.peers := rfl
@[simp] theorem State.setM_ports (n : MReg) (v : Mask) : (s.setM n v).ports = s.ports := rfl
@[simp] theorem State.setM_dev (n : MReg) (v : Mask) : (s.setM n v).dev = s.dev := rfl
@[simp] theorem State.setM_agenda (n : MReg) (v : Mask) : (s.setM n v).agenda = s.agenda := rfl
@[simp] theorem State.setM_actor (n : MReg) (v : Mask) : (s.setM n v).actor = s.actor := rfl
@[simp] theorem State.setM_free (n : MReg) (v : Mask) : (s.setM n v).free = s.free := rfl

/-! ### `State.setV` -/

@[simp] theorem State.setV_quads (n : VReg) (v : Vec) : (s.setV n v).quads = s.quads := rfl
@[simp] theorem State.setV_dies (n : VReg) (v : Vec) : (s.setV n v).dies = s.dies := rfl
@[simp] theorem State.setV_polders (n : VReg) (v : Vec) : (s.setV n v).polders = s.polders := rfl
@[simp] theorem State.setV_mem (n : VReg) (v : Vec) : (s.setV n v).mem = s.mem := rfl
@[simp] theorem State.setV_hostMem (n : VReg) (v : Vec) : (s.setV n v).hostMem = s.hostMem := rfl
@[simp] theorem State.setV_clean (n : VReg) (v : Vec) : (s.setV n v).clean = s.clean := rfl
@[simp] theorem State.setV_poison (n : VReg) (v : Vec) : (s.setV n v).poison = s.poison := rfl
@[simp] theorem State.setV_l2Poison (n : VReg) (v : Vec) : (s.setV n v).l2Poison = s.l2Poison := rfl
@[simp] theorem State.setV_l2 (n : VReg) (v : Vec) : (s.setV n v).l2 = s.l2 := rfl
@[simp] theorem State.setV_touched (n : VReg) (v : Vec) : (s.setV n v).touched = s.touched := rfl
@[simp] theorem State.setV_saves (n : VReg) (v : Vec) : (s.setV n v).saves = s.saves := rfl
@[simp] theorem State.setV_padPoison (n : VReg) (v : Vec) : (s.setV n v).padPoison = s.padPoison := rfl
@[simp] theorem State.setV_l1Poison (n : VReg) (v : Vec) : (s.setV n v).l1Poison = s.l1Poison := rfl
@[simp] theorem State.setV_fenced (n : VReg) (v : Vec) : (s.setV n v).fenced = s.fenced := rfl
@[simp] theorem State.setV_monitors (n : VReg) (v : Vec) : (s.setV n v).monitors = s.monitors := rfl
@[simp] theorem State.setV_rofSent (n : VReg) (v : Vec) : (s.setV n v).rofSent = s.rofSent := rfl
@[simp] theorem State.setV_rofHeld (n : VReg) (v : Vec) : (s.setV n v).rofHeld = s.rofHeld := rfl
@[simp] theorem State.setV_gaps (n : VReg) (v : Vec) : (s.setV n v).gaps = s.gaps := rfl
@[simp] theorem State.setV_tasks (n : VReg) (v : Vec) : (s.setV n v).tasks = s.tasks := rfl
@[simp] theorem State.setV_basin (n : VReg) (v : Vec) : (s.setV n v).basin = s.basin := rfl
@[simp] theorem State.setV_watches (n : VReg) (v : Vec) : (s.setV n v).watches = s.watches := rfl
@[simp] theorem State.setV_peers (n : VReg) (v : Vec) : (s.setV n v).peers = s.peers := rfl
@[simp] theorem State.setV_ports (n : VReg) (v : Vec) : (s.setV n v).ports = s.ports := rfl
@[simp] theorem State.setV_dev (n : VReg) (v : Vec) : (s.setV n v).dev = s.dev := rfl
@[simp] theorem State.setV_agenda (n : VReg) (v : Vec) : (s.setV n v).agenda = s.agenda := rfl
@[simp] theorem State.setV_actor (n : VReg) (v : Vec) : (s.setV n v).actor = s.actor := rfl
@[simp] theorem State.setV_free (n : VReg) (v : Vec) : (s.setV n v).free = s.free := rfl

/-! ### `State.raiseFp` -/

@[simp] theorem State.raiseFp_quads (f : FpFlags) : (s.raiseFp f).quads = s.quads := rfl
@[simp] theorem State.raiseFp_dies (f : FpFlags) : (s.raiseFp f).dies = s.dies := rfl
@[simp] theorem State.raiseFp_polders (f : FpFlags) : (s.raiseFp f).polders = s.polders := rfl
@[simp] theorem State.raiseFp_mem (f : FpFlags) : (s.raiseFp f).mem = s.mem := rfl
@[simp] theorem State.raiseFp_hostMem (f : FpFlags) : (s.raiseFp f).hostMem = s.hostMem := rfl
@[simp] theorem State.raiseFp_clean (f : FpFlags) : (s.raiseFp f).clean = s.clean := rfl
@[simp] theorem State.raiseFp_poison (f : FpFlags) : (s.raiseFp f).poison = s.poison := rfl
@[simp] theorem State.raiseFp_l2Poison (f : FpFlags) : (s.raiseFp f).l2Poison = s.l2Poison := rfl
@[simp] theorem State.raiseFp_l2 (f : FpFlags) : (s.raiseFp f).l2 = s.l2 := rfl
@[simp] theorem State.raiseFp_touched (f : FpFlags) : (s.raiseFp f).touched = s.touched := rfl
@[simp] theorem State.raiseFp_saves (f : FpFlags) : (s.raiseFp f).saves = s.saves := rfl
@[simp] theorem State.raiseFp_padPoison (f : FpFlags) : (s.raiseFp f).padPoison = s.padPoison := rfl
@[simp] theorem State.raiseFp_l1Poison (f : FpFlags) : (s.raiseFp f).l1Poison = s.l1Poison := rfl
@[simp] theorem State.raiseFp_fenced (f : FpFlags) : (s.raiseFp f).fenced = s.fenced := rfl
@[simp] theorem State.raiseFp_monitors (f : FpFlags) : (s.raiseFp f).monitors = s.monitors := rfl
@[simp] theorem State.raiseFp_rofSent (f : FpFlags) : (s.raiseFp f).rofSent = s.rofSent := rfl
@[simp] theorem State.raiseFp_rofHeld (f : FpFlags) : (s.raiseFp f).rofHeld = s.rofHeld := rfl
@[simp] theorem State.raiseFp_gaps (f : FpFlags) : (s.raiseFp f).gaps = s.gaps := rfl
@[simp] theorem State.raiseFp_tasks (f : FpFlags) : (s.raiseFp f).tasks = s.tasks := rfl
@[simp] theorem State.raiseFp_basin (f : FpFlags) : (s.raiseFp f).basin = s.basin := rfl
@[simp] theorem State.raiseFp_watches (f : FpFlags) : (s.raiseFp f).watches = s.watches := rfl
@[simp] theorem State.raiseFp_peers (f : FpFlags) : (s.raiseFp f).peers = s.peers := rfl
@[simp] theorem State.raiseFp_ports (f : FpFlags) : (s.raiseFp f).ports = s.ports := rfl
@[simp] theorem State.raiseFp_dev (f : FpFlags) : (s.raiseFp f).dev = s.dev := rfl
@[simp] theorem State.raiseFp_agenda (f : FpFlags) : (s.raiseFp f).agenda = s.agenda := rfl
@[simp] theorem State.raiseFp_actor (f : FpFlags) : (s.raiseFp f).actor = s.actor := rfl
@[simp] theorem State.raiseFp_free (f : FpFlags) : (s.raiseFp f).free = s.free := rfl

/-! ### `State.markDone` -/

@[simp] theorem State.markDone_cores : (s.markDone).cores = s.cores := rfl
@[simp] theorem State.markDone_quads : (s.markDone).quads = s.quads := rfl
@[simp] theorem State.markDone_dies : (s.markDone).dies = s.dies := rfl
@[simp] theorem State.markDone_polders : (s.markDone).polders = s.polders := rfl
@[simp] theorem State.markDone_mem : (s.markDone).mem = s.mem := rfl
@[simp] theorem State.markDone_hostMem : (s.markDone).hostMem = s.hostMem := rfl
@[simp] theorem State.markDone_clean : (s.markDone).clean = s.clean := rfl
@[simp] theorem State.markDone_poison : (s.markDone).poison = s.poison := rfl
@[simp] theorem State.markDone_l2Poison : (s.markDone).l2Poison = s.l2Poison := rfl
@[simp] theorem State.markDone_l2 : (s.markDone).l2 = s.l2 := rfl
@[simp] theorem State.markDone_touched : (s.markDone).touched = s.touched := rfl
@[simp] theorem State.markDone_saves : (s.markDone).saves = s.saves := rfl
@[simp] theorem State.markDone_padPoison : (s.markDone).padPoison = s.padPoison := rfl
@[simp] theorem State.markDone_l1Poison : (s.markDone).l1Poison = s.l1Poison := rfl
@[simp] theorem State.markDone_fenced : (s.markDone).fenced = s.fenced := rfl
@[simp] theorem State.markDone_monitors : (s.markDone).monitors = s.monitors := rfl
@[simp] theorem State.markDone_rofSent : (s.markDone).rofSent = s.rofSent := rfl
@[simp] theorem State.markDone_rofHeld : (s.markDone).rofHeld = s.rofHeld := rfl
@[simp] theorem State.markDone_gaps : (s.markDone).gaps = s.gaps := rfl
@[simp] theorem State.markDone_tasks : (s.markDone).tasks = s.tasks := rfl
@[simp] theorem State.markDone_basin : (s.markDone).basin = s.basin := rfl
@[simp] theorem State.markDone_watches : (s.markDone).watches = s.watches := rfl
@[simp] theorem State.markDone_peers : (s.markDone).peers = s.peers := rfl
@[simp] theorem State.markDone_ports : (s.markDone).ports = s.ports := rfl
@[simp] theorem State.markDone_dev : (s.markDone).dev = s.dev := rfl
@[simp] theorem State.markDone_agenda : (s.markDone).agenda = s.agenda := rfl
@[simp] theorem State.markDone_free : (s.markDone).free = s.free := rfl

/-! ### `State.complete` -/

@[simp] theorem State.complete_quads : (s.complete).quads = s.quads := rfl
@[simp] theorem State.complete_dies : (s.complete).dies = s.dies := rfl
@[simp] theorem State.complete_polders : (s.complete).polders = s.polders := rfl
@[simp] theorem State.complete_mem : (s.complete).mem = s.mem := rfl
@[simp] theorem State.complete_hostMem : (s.complete).hostMem = s.hostMem := rfl
@[simp] theorem State.complete_clean : (s.complete).clean = s.clean := rfl
@[simp] theorem State.complete_poison : (s.complete).poison = s.poison := rfl
@[simp] theorem State.complete_l2Poison : (s.complete).l2Poison = s.l2Poison := rfl
@[simp] theorem State.complete_l2 : (s.complete).l2 = s.l2 := rfl
@[simp] theorem State.complete_touched : (s.complete).touched = s.touched := rfl
@[simp] theorem State.complete_saves : (s.complete).saves = s.saves := rfl
@[simp] theorem State.complete_padPoison : (s.complete).padPoison = s.padPoison := rfl
@[simp] theorem State.complete_l1Poison : (s.complete).l1Poison = s.l1Poison := rfl
@[simp] theorem State.complete_fenced : (s.complete).fenced = s.fenced := rfl
@[simp] theorem State.complete_monitors : (s.complete).monitors = s.monitors := rfl
@[simp] theorem State.complete_rofSent : (s.complete).rofSent = s.rofSent := rfl
@[simp] theorem State.complete_rofHeld : (s.complete).rofHeld = s.rofHeld := rfl
@[simp] theorem State.complete_gaps : (s.complete).gaps = s.gaps := rfl
@[simp] theorem State.complete_tasks : (s.complete).tasks = s.tasks := rfl
@[simp] theorem State.complete_basin : (s.complete).basin = s.basin := rfl
@[simp] theorem State.complete_watches : (s.complete).watches = s.watches := rfl
@[simp] theorem State.complete_peers : (s.complete).peers = s.peers := rfl
@[simp] theorem State.complete_ports : (s.complete).ports = s.ports := rfl
@[simp] theorem State.complete_dev : (s.complete).dev = s.dev := rfl
@[simp] theorem State.complete_agenda : (s.complete).agenda = s.agenda := rfl
@[simp] theorem State.complete_free : (s.complete).free = s.free := rfl

/-! ### `State.completeTo` -/

@[simp] theorem State.completeTo_quads (pc : Word) (l : List LoopEntry) : (s.completeTo pc l).quads = s.quads := rfl
@[simp] theorem State.completeTo_dies (pc : Word) (l : List LoopEntry) : (s.completeTo pc l).dies = s.dies := rfl
@[simp] theorem State.completeTo_polders (pc : Word) (l : List LoopEntry) : (s.completeTo pc l).polders = s.polders := rfl
@[simp] theorem State.completeTo_mem (pc : Word) (l : List LoopEntry) : (s.completeTo pc l).mem = s.mem := rfl
@[simp] theorem State.completeTo_hostMem (pc : Word) (l : List LoopEntry) : (s.completeTo pc l).hostMem = s.hostMem := rfl
@[simp] theorem State.completeTo_clean (pc : Word) (l : List LoopEntry) : (s.completeTo pc l).clean = s.clean := rfl
@[simp] theorem State.completeTo_poison (pc : Word) (l : List LoopEntry) : (s.completeTo pc l).poison = s.poison := rfl
@[simp] theorem State.completeTo_l2Poison (pc : Word) (l : List LoopEntry) : (s.completeTo pc l).l2Poison = s.l2Poison := rfl
@[simp] theorem State.completeTo_l2 (pc : Word) (l : List LoopEntry) : (s.completeTo pc l).l2 = s.l2 := rfl
@[simp] theorem State.completeTo_touched (pc : Word) (l : List LoopEntry) : (s.completeTo pc l).touched = s.touched := rfl
@[simp] theorem State.completeTo_saves (pc : Word) (l : List LoopEntry) : (s.completeTo pc l).saves = s.saves := rfl
@[simp] theorem State.completeTo_padPoison (pc : Word) (l : List LoopEntry) : (s.completeTo pc l).padPoison = s.padPoison := rfl
@[simp] theorem State.completeTo_l1Poison (pc : Word) (l : List LoopEntry) : (s.completeTo pc l).l1Poison = s.l1Poison := rfl
@[simp] theorem State.completeTo_fenced (pc : Word) (l : List LoopEntry) : (s.completeTo pc l).fenced = s.fenced := rfl
@[simp] theorem State.completeTo_monitors (pc : Word) (l : List LoopEntry) : (s.completeTo pc l).monitors = s.monitors := rfl
@[simp] theorem State.completeTo_rofSent (pc : Word) (l : List LoopEntry) : (s.completeTo pc l).rofSent = s.rofSent := rfl
@[simp] theorem State.completeTo_rofHeld (pc : Word) (l : List LoopEntry) : (s.completeTo pc l).rofHeld = s.rofHeld := rfl
@[simp] theorem State.completeTo_gaps (pc : Word) (l : List LoopEntry) : (s.completeTo pc l).gaps = s.gaps := rfl
@[simp] theorem State.completeTo_tasks (pc : Word) (l : List LoopEntry) : (s.completeTo pc l).tasks = s.tasks := rfl
@[simp] theorem State.completeTo_basin (pc : Word) (l : List LoopEntry) : (s.completeTo pc l).basin = s.basin := rfl
@[simp] theorem State.completeTo_watches (pc : Word) (l : List LoopEntry) : (s.completeTo pc l).watches = s.watches := rfl
@[simp] theorem State.completeTo_peers (pc : Word) (l : List LoopEntry) : (s.completeTo pc l).peers = s.peers := rfl
@[simp] theorem State.completeTo_ports (pc : Word) (l : List LoopEntry) : (s.completeTo pc l).ports = s.ports := rfl
@[simp] theorem State.completeTo_dev (pc : Word) (l : List LoopEntry) : (s.completeTo pc l).dev = s.dev := rfl
@[simp] theorem State.completeTo_agenda (pc : Word) (l : List LoopEntry) : (s.completeTo pc l).agenda = s.agenda := rfl
@[simp] theorem State.completeTo_free (pc : Word) (l : List LoopEntry) : (s.completeTo pc l).free = s.free := rfl

/-! ### `State.waitIn` -/

@[simp] theorem State.waitIn_quads (w : Wait) : (s.waitIn w).quads = s.quads := rfl
@[simp] theorem State.waitIn_dies (w : Wait) : (s.waitIn w).dies = s.dies := rfl
@[simp] theorem State.waitIn_polders (w : Wait) : (s.waitIn w).polders = s.polders := rfl
@[simp] theorem State.waitIn_mem (w : Wait) : (s.waitIn w).mem = s.mem := rfl
@[simp] theorem State.waitIn_hostMem (w : Wait) : (s.waitIn w).hostMem = s.hostMem := rfl
@[simp] theorem State.waitIn_clean (w : Wait) : (s.waitIn w).clean = s.clean := rfl
@[simp] theorem State.waitIn_poison (w : Wait) : (s.waitIn w).poison = s.poison := rfl
@[simp] theorem State.waitIn_l2Poison (w : Wait) : (s.waitIn w).l2Poison = s.l2Poison := rfl
@[simp] theorem State.waitIn_l2 (w : Wait) : (s.waitIn w).l2 = s.l2 := rfl
@[simp] theorem State.waitIn_touched (w : Wait) : (s.waitIn w).touched = s.touched := rfl
@[simp] theorem State.waitIn_saves (w : Wait) : (s.waitIn w).saves = s.saves := rfl
@[simp] theorem State.waitIn_padPoison (w : Wait) : (s.waitIn w).padPoison = s.padPoison := rfl
@[simp] theorem State.waitIn_l1Poison (w : Wait) : (s.waitIn w).l1Poison = s.l1Poison := rfl
@[simp] theorem State.waitIn_fenced (w : Wait) : (s.waitIn w).fenced = s.fenced := rfl
@[simp] theorem State.waitIn_monitors (w : Wait) : (s.waitIn w).monitors = s.monitors := rfl
@[simp] theorem State.waitIn_rofSent (w : Wait) : (s.waitIn w).rofSent = s.rofSent := rfl
@[simp] theorem State.waitIn_rofHeld (w : Wait) : (s.waitIn w).rofHeld = s.rofHeld := rfl
@[simp] theorem State.waitIn_gaps (w : Wait) : (s.waitIn w).gaps = s.gaps := rfl
@[simp] theorem State.waitIn_tasks (w : Wait) : (s.waitIn w).tasks = s.tasks := rfl
@[simp] theorem State.waitIn_basin (w : Wait) : (s.waitIn w).basin = s.basin := rfl
@[simp] theorem State.waitIn_watches (w : Wait) : (s.waitIn w).watches = s.watches := rfl
@[simp] theorem State.waitIn_peers (w : Wait) : (s.waitIn w).peers = s.peers := rfl
@[simp] theorem State.waitIn_ports (w : Wait) : (s.waitIn w).ports = s.ports := rfl
@[simp] theorem State.waitIn_dev (w : Wait) : (s.waitIn w).dev = s.dev := rfl
@[simp] theorem State.waitIn_agenda (w : Wait) : (s.waitIn w).agenda = s.agenda := rfl
@[simp] theorem State.waitIn_actor (w : Wait) : (s.waitIn w).actor = s.actor := rfl
@[simp] theorem State.waitIn_free (w : Wait) : (s.waitIn w).free = s.free := rfl

/-! ### `State.countFence` -/

@[simp] theorem State.countFence_quads : s.countFence.quads = s.quads := by unfold State.countFence; split <;> rfl
@[simp] theorem State.countFence_dies : s.countFence.dies = s.dies := by unfold State.countFence; split <;> rfl
@[simp] theorem State.countFence_polders : s.countFence.polders = s.polders := by unfold State.countFence; split <;> rfl
@[simp] theorem State.countFence_mem : s.countFence.mem = s.mem := by unfold State.countFence; split <;> rfl
@[simp] theorem State.countFence_hostMem : s.countFence.hostMem = s.hostMem := by unfold State.countFence; split <;> rfl
@[simp] theorem State.countFence_clean : s.countFence.clean = s.clean := by unfold State.countFence; split <;> rfl
@[simp] theorem State.countFence_poison : s.countFence.poison = s.poison := by unfold State.countFence; split <;> rfl
@[simp] theorem State.countFence_l2Poison : s.countFence.l2Poison = s.l2Poison := by unfold State.countFence; split <;> rfl
@[simp] theorem State.countFence_l2 : s.countFence.l2 = s.l2 := by unfold State.countFence; split <;> rfl
@[simp] theorem State.countFence_touched : s.countFence.touched = s.touched := by unfold State.countFence; split <;> rfl
@[simp] theorem State.countFence_saves : s.countFence.saves = s.saves := by unfold State.countFence; split <;> rfl
@[simp] theorem State.countFence_padPoison : s.countFence.padPoison = s.padPoison := by unfold State.countFence; split <;> rfl
@[simp] theorem State.countFence_l1Poison : s.countFence.l1Poison = s.l1Poison := by unfold State.countFence; split <;> rfl
@[simp] theorem State.countFence_fenced : s.countFence.fenced = s.fenced := by unfold State.countFence; split <;> rfl
@[simp] theorem State.countFence_monitors : s.countFence.monitors = s.monitors := by unfold State.countFence; split <;> rfl
@[simp] theorem State.countFence_rofSent : s.countFence.rofSent = s.rofSent := by unfold State.countFence; split <;> rfl
@[simp] theorem State.countFence_rofHeld : s.countFence.rofHeld = s.rofHeld := by unfold State.countFence; split <;> rfl
@[simp] theorem State.countFence_gaps : s.countFence.gaps = s.gaps := by unfold State.countFence; split <;> rfl
@[simp] theorem State.countFence_tasks : s.countFence.tasks = s.tasks := by unfold State.countFence; split <;> rfl
@[simp] theorem State.countFence_basin : s.countFence.basin = s.basin := by unfold State.countFence; split <;> rfl
@[simp] theorem State.countFence_watches : s.countFence.watches = s.watches := by unfold State.countFence; split <;> rfl
@[simp] theorem State.countFence_peers : s.countFence.peers = s.peers := by unfold State.countFence; split <;> rfl
@[simp] theorem State.countFence_ports : s.countFence.ports = s.ports := by unfold State.countFence; split <;> rfl
@[simp] theorem State.countFence_dev : s.countFence.dev = s.dev := by unfold State.countFence; split <;> rfl
@[simp] theorem State.countFence_agenda : s.countFence.agenda = s.agenda := by unfold State.countFence; split <;> rfl
@[simp] theorem State.countFence_actor : s.countFence.actor = s.actor := by unfold State.countFence; split <;> rfl
@[simp] theorem State.countFence_free : s.countFence.free = s.free := by unfold State.countFence; split <;> rfl

/-! ### `State.block` -/

/-- A block that no row under self-test causes is a wait. -/
theorem State.block_eq (w : Wait) (h : ∀ site, w ≠ .fenced site) : s.block w = s.waitIn w := by
  cases w <;> first | rfl | exact absurd rfl (h _)

@[simp] theorem State.block_quads (w : Wait) : (s.block w).quads = s.quads := by cases w <;> simp [State.block]
@[simp] theorem State.block_dies (w : Wait) : (s.block w).dies = s.dies := by cases w <;> simp [State.block]
@[simp] theorem State.block_polders (w : Wait) : (s.block w).polders = s.polders := by cases w <;> simp [State.block]
@[simp] theorem State.block_mem (w : Wait) : (s.block w).mem = s.mem := by cases w <;> simp [State.block]
@[simp] theorem State.block_hostMem (w : Wait) : (s.block w).hostMem = s.hostMem := by cases w <;> simp [State.block]
@[simp] theorem State.block_clean (w : Wait) : (s.block w).clean = s.clean := by cases w <;> simp [State.block]
@[simp] theorem State.block_poison (w : Wait) : (s.block w).poison = s.poison := by cases w <;> simp [State.block]
@[simp] theorem State.block_l2Poison (w : Wait) : (s.block w).l2Poison = s.l2Poison := by cases w <;> simp [State.block]
@[simp] theorem State.block_l2 (w : Wait) : (s.block w).l2 = s.l2 := by cases w <;> simp [State.block]
@[simp] theorem State.block_touched (w : Wait) : (s.block w).touched = s.touched := by cases w <;> simp [State.block]
@[simp] theorem State.block_saves (w : Wait) : (s.block w).saves = s.saves := by cases w <;> simp [State.block]
@[simp] theorem State.block_padPoison (w : Wait) : (s.block w).padPoison = s.padPoison := by cases w <;> simp [State.block]
@[simp] theorem State.block_l1Poison (w : Wait) : (s.block w).l1Poison = s.l1Poison := by cases w <;> simp [State.block]
@[simp] theorem State.block_fenced (w : Wait) : (s.block w).fenced = s.fenced := by cases w <;> simp [State.block]
@[simp] theorem State.block_monitors (w : Wait) : (s.block w).monitors = s.monitors := by cases w <;> simp [State.block]
@[simp] theorem State.block_rofSent (w : Wait) : (s.block w).rofSent = s.rofSent := by cases w <;> simp [State.block]
@[simp] theorem State.block_rofHeld (w : Wait) : (s.block w).rofHeld = s.rofHeld := by cases w <;> simp [State.block]
@[simp] theorem State.block_gaps (w : Wait) : (s.block w).gaps = s.gaps := by cases w <;> simp [State.block]
@[simp] theorem State.block_tasks (w : Wait) : (s.block w).tasks = s.tasks := by cases w <;> simp [State.block]
@[simp] theorem State.block_basin (w : Wait) : (s.block w).basin = s.basin := by cases w <;> simp [State.block]
@[simp] theorem State.block_watches (w : Wait) : (s.block w).watches = s.watches := by cases w <;> simp [State.block]
@[simp] theorem State.block_peers (w : Wait) : (s.block w).peers = s.peers := by cases w <;> simp [State.block]
@[simp] theorem State.block_ports (w : Wait) : (s.block w).ports = s.ports := by cases w <;> simp [State.block]
@[simp] theorem State.block_dev (w : Wait) : (s.block w).dev = s.dev := by cases w <;> simp [State.block]
@[simp] theorem State.block_agenda (w : Wait) : (s.block w).agenda = s.agenda := by cases w <;> simp [State.block]
@[simp] theorem State.block_actor (w : Wait) : (s.block w).actor = s.actor := by cases w <;> simp [State.block]
@[simp] theorem State.block_free (w : Wait) : (s.block w).free = s.free := by cases w <;> simp [State.block]
/-! ### `State.setPolder` -/

@[simp] theorem State.setPolder_cores (n : Nat) (p : Polder) : (s.setPolder n p).cores = s.cores := rfl
@[simp] theorem State.setPolder_quads (n : Nat) (p : Polder) : (s.setPolder n p).quads = s.quads := rfl
@[simp] theorem State.setPolder_dies (n : Nat) (p : Polder) : (s.setPolder n p).dies = s.dies := rfl
@[simp] theorem State.setPolder_mem (n : Nat) (p : Polder) : (s.setPolder n p).mem = s.mem := rfl
@[simp] theorem State.setPolder_hostMem (n : Nat) (p : Polder) : (s.setPolder n p).hostMem = s.hostMem := rfl
@[simp] theorem State.setPolder_clean (n : Nat) (p : Polder) : (s.setPolder n p).clean = s.clean := rfl
@[simp] theorem State.setPolder_poison (n : Nat) (p : Polder) : (s.setPolder n p).poison = s.poison := rfl
@[simp] theorem State.setPolder_l2Poison (n : Nat) (p : Polder) : (s.setPolder n p).l2Poison = s.l2Poison := rfl
@[simp] theorem State.setPolder_l2 (n : Nat) (p : Polder) : (s.setPolder n p).l2 = s.l2 := rfl
@[simp] theorem State.setPolder_touched (n : Nat) (p : Polder) : (s.setPolder n p).touched = s.touched := rfl
@[simp] theorem State.setPolder_saves (n : Nat) (p : Polder) : (s.setPolder n p).saves = s.saves := rfl
@[simp] theorem State.setPolder_padPoison (n : Nat) (p : Polder) : (s.setPolder n p).padPoison = s.padPoison := rfl
@[simp] theorem State.setPolder_l1Poison (n : Nat) (p : Polder) : (s.setPolder n p).l1Poison = s.l1Poison := rfl
@[simp] theorem State.setPolder_fenced (n : Nat) (p : Polder) : (s.setPolder n p).fenced = s.fenced := rfl
@[simp] theorem State.setPolder_monitors (n : Nat) (p : Polder) : (s.setPolder n p).monitors = s.monitors := rfl
@[simp] theorem State.setPolder_rofSent (n : Nat) (p : Polder) : (s.setPolder n p).rofSent = s.rofSent := rfl
@[simp] theorem State.setPolder_rofHeld (n : Nat) (p : Polder) : (s.setPolder n p).rofHeld = s.rofHeld := rfl
@[simp] theorem State.setPolder_gaps (n : Nat) (p : Polder) : (s.setPolder n p).gaps = s.gaps := rfl
@[simp] theorem State.setPolder_tasks (n : Nat) (p : Polder) : (s.setPolder n p).tasks = s.tasks := rfl
@[simp] theorem State.setPolder_basin (n : Nat) (p : Polder) : (s.setPolder n p).basin = s.basin := rfl
@[simp] theorem State.setPolder_watches (n : Nat) (p : Polder) : (s.setPolder n p).watches = s.watches := rfl
@[simp] theorem State.setPolder_peers (n : Nat) (p : Polder) : (s.setPolder n p).peers = s.peers := rfl
@[simp] theorem State.setPolder_ports (n : Nat) (p : Polder) : (s.setPolder n p).ports = s.ports := rfl
@[simp] theorem State.setPolder_dev (n : Nat) (p : Polder) : (s.setPolder n p).dev = s.dev := rfl
@[simp] theorem State.setPolder_agenda (n : Nat) (p : Polder) : (s.setPolder n p).agenda = s.agenda := rfl
@[simp] theorem State.setPolder_actor (n : Nat) (p : Polder) : (s.setPolder n p).actor = s.actor := rfl
@[simp] theorem State.setPolder_free (n : Nat) (p : Polder) : (s.setPolder n p).free = s.free := rfl

/-! ### `State.setQuad` -/

@[simp] theorem State.setQuad_cores (n : Fin 64) (x : Quad) : (s.setQuad n x).cores = s.cores := rfl
@[simp] theorem State.setQuad_dies (n : Fin 64) (x : Quad) : (s.setQuad n x).dies = s.dies := rfl
@[simp] theorem State.setQuad_polders (n : Fin 64) (x : Quad) : (s.setQuad n x).polders = s.polders := rfl
@[simp] theorem State.setQuad_mem (n : Fin 64) (x : Quad) : (s.setQuad n x).mem = s.mem := rfl
@[simp] theorem State.setQuad_hostMem (n : Fin 64) (x : Quad) : (s.setQuad n x).hostMem = s.hostMem := rfl
@[simp] theorem State.setQuad_clean (n : Fin 64) (x : Quad) : (s.setQuad n x).clean = s.clean := rfl
@[simp] theorem State.setQuad_poison (n : Fin 64) (x : Quad) : (s.setQuad n x).poison = s.poison := rfl
@[simp] theorem State.setQuad_l2Poison (n : Fin 64) (x : Quad) : (s.setQuad n x).l2Poison = s.l2Poison := rfl
@[simp] theorem State.setQuad_l2 (n : Fin 64) (x : Quad) : (s.setQuad n x).l2 = s.l2 := rfl
@[simp] theorem State.setQuad_touched (n : Fin 64) (x : Quad) : (s.setQuad n x).touched = s.touched := rfl
@[simp] theorem State.setQuad_saves (n : Fin 64) (x : Quad) : (s.setQuad n x).saves = s.saves := rfl
@[simp] theorem State.setQuad_padPoison (n : Fin 64) (x : Quad) : (s.setQuad n x).padPoison = s.padPoison := rfl
@[simp] theorem State.setQuad_l1Poison (n : Fin 64) (x : Quad) : (s.setQuad n x).l1Poison = s.l1Poison := rfl
@[simp] theorem State.setQuad_fenced (n : Fin 64) (x : Quad) : (s.setQuad n x).fenced = s.fenced := rfl
@[simp] theorem State.setQuad_monitors (n : Fin 64) (x : Quad) : (s.setQuad n x).monitors = s.monitors := rfl
@[simp] theorem State.setQuad_rofSent (n : Fin 64) (x : Quad) : (s.setQuad n x).rofSent = s.rofSent := rfl
@[simp] theorem State.setQuad_rofHeld (n : Fin 64) (x : Quad) : (s.setQuad n x).rofHeld = s.rofHeld := rfl
@[simp] theorem State.setQuad_gaps (n : Fin 64) (x : Quad) : (s.setQuad n x).gaps = s.gaps := rfl
@[simp] theorem State.setQuad_tasks (n : Fin 64) (x : Quad) : (s.setQuad n x).tasks = s.tasks := rfl
@[simp] theorem State.setQuad_basin (n : Fin 64) (x : Quad) : (s.setQuad n x).basin = s.basin := rfl
@[simp] theorem State.setQuad_watches (n : Fin 64) (x : Quad) : (s.setQuad n x).watches = s.watches := rfl
@[simp] theorem State.setQuad_peers (n : Fin 64) (x : Quad) : (s.setQuad n x).peers = s.peers := rfl
@[simp] theorem State.setQuad_ports (n : Fin 64) (x : Quad) : (s.setQuad n x).ports = s.ports := rfl
@[simp] theorem State.setQuad_dev (n : Fin 64) (x : Quad) : (s.setQuad n x).dev = s.dev := rfl
@[simp] theorem State.setQuad_agenda (n : Fin 64) (x : Quad) : (s.setQuad n x).agenda = s.agenda := rfl
@[simp] theorem State.setQuad_actor (n : Fin 64) (x : Quad) : (s.setQuad n x).actor = s.actor := rfl
@[simp] theorem State.setQuad_free (n : Fin 64) (x : Quad) : (s.setQuad n x).free = s.free := rfl

/-! ### `State.mapTask` -/

@[simp] theorem State.mapTask_cores (u : Nat) (f : Task → Task) : (s.mapTask u f).cores = s.cores := rfl
@[simp] theorem State.mapTask_quads (u : Nat) (f : Task → Task) : (s.mapTask u f).quads = s.quads := rfl
@[simp] theorem State.mapTask_dies (u : Nat) (f : Task → Task) : (s.mapTask u f).dies = s.dies := rfl
@[simp] theorem State.mapTask_polders (u : Nat) (f : Task → Task) : (s.mapTask u f).polders = s.polders := rfl
@[simp] theorem State.mapTask_mem (u : Nat) (f : Task → Task) : (s.mapTask u f).mem = s.mem := rfl
@[simp] theorem State.mapTask_hostMem (u : Nat) (f : Task → Task) : (s.mapTask u f).hostMem = s.hostMem := rfl
@[simp] theorem State.mapTask_clean (u : Nat) (f : Task → Task) : (s.mapTask u f).clean = s.clean := rfl
@[simp] theorem State.mapTask_poison (u : Nat) (f : Task → Task) : (s.mapTask u f).poison = s.poison := rfl
@[simp] theorem State.mapTask_l2Poison (u : Nat) (f : Task → Task) : (s.mapTask u f).l2Poison = s.l2Poison := rfl
@[simp] theorem State.mapTask_l2 (u : Nat) (f : Task → Task) : (s.mapTask u f).l2 = s.l2 := rfl
@[simp] theorem State.mapTask_touched (u : Nat) (f : Task → Task) : (s.mapTask u f).touched = s.touched := rfl
@[simp] theorem State.mapTask_saves (u : Nat) (f : Task → Task) : (s.mapTask u f).saves = s.saves := rfl
@[simp] theorem State.mapTask_padPoison (u : Nat) (f : Task → Task) : (s.mapTask u f).padPoison = s.padPoison := rfl
@[simp] theorem State.mapTask_l1Poison (u : Nat) (f : Task → Task) : (s.mapTask u f).l1Poison = s.l1Poison := rfl
@[simp] theorem State.mapTask_fenced (u : Nat) (f : Task → Task) : (s.mapTask u f).fenced = s.fenced := rfl
@[simp] theorem State.mapTask_monitors (u : Nat) (f : Task → Task) : (s.mapTask u f).monitors = s.monitors := rfl
@[simp] theorem State.mapTask_rofSent (u : Nat) (f : Task → Task) : (s.mapTask u f).rofSent = s.rofSent := rfl
@[simp] theorem State.mapTask_rofHeld (u : Nat) (f : Task → Task) : (s.mapTask u f).rofHeld = s.rofHeld := rfl
@[simp] theorem State.mapTask_gaps (u : Nat) (f : Task → Task) : (s.mapTask u f).gaps = s.gaps := rfl
@[simp] theorem State.mapTask_basin (u : Nat) (f : Task → Task) : (s.mapTask u f).basin = s.basin := rfl
@[simp] theorem State.mapTask_watches (u : Nat) (f : Task → Task) : (s.mapTask u f).watches = s.watches := rfl
@[simp] theorem State.mapTask_peers (u : Nat) (f : Task → Task) : (s.mapTask u f).peers = s.peers := rfl
@[simp] theorem State.mapTask_ports (u : Nat) (f : Task → Task) : (s.mapTask u f).ports = s.ports := rfl
@[simp] theorem State.mapTask_dev (u : Nat) (f : Task → Task) : (s.mapTask u f).dev = s.dev := rfl
@[simp] theorem State.mapTask_agenda (u : Nat) (f : Task → Task) : (s.mapTask u f).agenda = s.agenda := rfl
@[simp] theorem State.mapTask_actor (u : Nat) (f : Task → Task) : (s.mapTask u f).actor = s.actor := rfl
@[simp] theorem State.mapTask_free (u : Nat) (f : Task → Task) : (s.mapTask u f).free = s.free := rfl

/-! ### `State.mapDev` -/

@[simp] theorem State.mapDev_cores (f : Device → Device) : (s.mapDev f).cores = s.cores := rfl
@[simp] theorem State.mapDev_quads (f : Device → Device) : (s.mapDev f).quads = s.quads := rfl
@[simp] theorem State.mapDev_dies (f : Device → Device) : (s.mapDev f).dies = s.dies := rfl
@[simp] theorem State.mapDev_polders (f : Device → Device) : (s.mapDev f).polders = s.polders := rfl
@[simp] theorem State.mapDev_mem (f : Device → Device) : (s.mapDev f).mem = s.mem := rfl
@[simp] theorem State.mapDev_hostMem (f : Device → Device) : (s.mapDev f).hostMem = s.hostMem := rfl
@[simp] theorem State.mapDev_clean (f : Device → Device) : (s.mapDev f).clean = s.clean := rfl
@[simp] theorem State.mapDev_poison (f : Device → Device) : (s.mapDev f).poison = s.poison := rfl
@[simp] theorem State.mapDev_l2Poison (f : Device → Device) : (s.mapDev f).l2Poison = s.l2Poison := rfl
@[simp] theorem State.mapDev_l2 (f : Device → Device) : (s.mapDev f).l2 = s.l2 := rfl
@[simp] theorem State.mapDev_touched (f : Device → Device) : (s.mapDev f).touched = s.touched := rfl
@[simp] theorem State.mapDev_saves (f : Device → Device) : (s.mapDev f).saves = s.saves := rfl
@[simp] theorem State.mapDev_padPoison (f : Device → Device) : (s.mapDev f).padPoison = s.padPoison := rfl
@[simp] theorem State.mapDev_l1Poison (f : Device → Device) : (s.mapDev f).l1Poison = s.l1Poison := rfl
@[simp] theorem State.mapDev_fenced (f : Device → Device) : (s.mapDev f).fenced = s.fenced := rfl
@[simp] theorem State.mapDev_monitors (f : Device → Device) : (s.mapDev f).monitors = s.monitors := rfl
@[simp] theorem State.mapDev_rofSent (f : Device → Device) : (s.mapDev f).rofSent = s.rofSent := rfl
@[simp] theorem State.mapDev_rofHeld (f : Device → Device) : (s.mapDev f).rofHeld = s.rofHeld := rfl
@[simp] theorem State.mapDev_gaps (f : Device → Device) : (s.mapDev f).gaps = s.gaps := rfl
@[simp] theorem State.mapDev_tasks (f : Device → Device) : (s.mapDev f).tasks = s.tasks := rfl
@[simp] theorem State.mapDev_basin (f : Device → Device) : (s.mapDev f).basin = s.basin := rfl
@[simp] theorem State.mapDev_watches (f : Device → Device) : (s.mapDev f).watches = s.watches := rfl
@[simp] theorem State.mapDev_peers (f : Device → Device) : (s.mapDev f).peers = s.peers := rfl
@[simp] theorem State.mapDev_ports (f : Device → Device) : (s.mapDev f).ports = s.ports := rfl
@[simp] theorem State.mapDev_agenda (f : Device → Device) : (s.mapDev f).agenda = s.agenda := rfl
@[simp] theorem State.mapDev_actor (f : Device → Device) : (s.mapDev f).actor = s.actor := rfl
@[simp] theorem State.mapDev_free (f : Device → Device) : (s.mapDev f).free = s.free := rfl

/-! ### `State.sendEvent` -/

@[simp] theorem State.sendEvent_cores (e : EventRec) : (s.sendEvent e).cores = s.cores := rfl
@[simp] theorem State.sendEvent_quads (e : EventRec) : (s.sendEvent e).quads = s.quads := rfl
@[simp] theorem State.sendEvent_dies (e : EventRec) : (s.sendEvent e).dies = s.dies := rfl
@[simp] theorem State.sendEvent_polders (e : EventRec) : (s.sendEvent e).polders = s.polders := rfl
@[simp] theorem State.sendEvent_mem (e : EventRec) : (s.sendEvent e).mem = s.mem := rfl
@[simp] theorem State.sendEvent_hostMem (e : EventRec) : (s.sendEvent e).hostMem = s.hostMem := rfl
@[simp] theorem State.sendEvent_clean (e : EventRec) : (s.sendEvent e).clean = s.clean := rfl
@[simp] theorem State.sendEvent_poison (e : EventRec) : (s.sendEvent e).poison = s.poison := rfl
@[simp] theorem State.sendEvent_l2Poison (e : EventRec) : (s.sendEvent e).l2Poison = s.l2Poison := rfl
@[simp] theorem State.sendEvent_l2 (e : EventRec) : (s.sendEvent e).l2 = s.l2 := rfl
@[simp] theorem State.sendEvent_touched (e : EventRec) : (s.sendEvent e).touched = s.touched := rfl
@[simp] theorem State.sendEvent_saves (e : EventRec) : (s.sendEvent e).saves = s.saves := rfl
@[simp] theorem State.sendEvent_padPoison (e : EventRec) : (s.sendEvent e).padPoison = s.padPoison := rfl
@[simp] theorem State.sendEvent_l1Poison (e : EventRec) : (s.sendEvent e).l1Poison = s.l1Poison := rfl
@[simp] theorem State.sendEvent_fenced (e : EventRec) : (s.sendEvent e).fenced = s.fenced := rfl
@[simp] theorem State.sendEvent_monitors (e : EventRec) : (s.sendEvent e).monitors = s.monitors := rfl
@[simp] theorem State.sendEvent_rofSent (e : EventRec) : (s.sendEvent e).rofSent = s.rofSent := rfl
@[simp] theorem State.sendEvent_rofHeld (e : EventRec) : (s.sendEvent e).rofHeld = s.rofHeld := rfl
@[simp] theorem State.sendEvent_gaps (e : EventRec) : (s.sendEvent e).gaps = s.gaps := rfl
@[simp] theorem State.sendEvent_tasks (e : EventRec) : (s.sendEvent e).tasks = s.tasks := rfl
@[simp] theorem State.sendEvent_basin (e : EventRec) : (s.sendEvent e).basin = s.basin := rfl
@[simp] theorem State.sendEvent_watches (e : EventRec) : (s.sendEvent e).watches = s.watches := rfl
@[simp] theorem State.sendEvent_peers (e : EventRec) : (s.sendEvent e).peers = s.peers := rfl
@[simp] theorem State.sendEvent_ports (e : EventRec) : (s.sendEvent e).ports = s.ports := rfl
@[simp] theorem State.sendEvent_agenda (e : EventRec) : (s.sendEvent e).agenda = s.agenda := rfl
@[simp] theorem State.sendEvent_actor (e : EventRec) : (s.sendEvent e).actor = s.actor := rfl
@[simp] theorem State.sendEvent_free (e : EventRec) : (s.sendEvent e).free = s.free := rfl

/-! ### `State.answerHost` -/

@[simp] theorem State.answerHost_cores (r : HostReply) : (s.answerHost r).cores = s.cores := rfl
@[simp] theorem State.answerHost_quads (r : HostReply) : (s.answerHost r).quads = s.quads := rfl
@[simp] theorem State.answerHost_dies (r : HostReply) : (s.answerHost r).dies = s.dies := rfl
@[simp] theorem State.answerHost_polders (r : HostReply) : (s.answerHost r).polders = s.polders := rfl
@[simp] theorem State.answerHost_mem (r : HostReply) : (s.answerHost r).mem = s.mem := rfl
@[simp] theorem State.answerHost_hostMem (r : HostReply) : (s.answerHost r).hostMem = s.hostMem := rfl
@[simp] theorem State.answerHost_clean (r : HostReply) : (s.answerHost r).clean = s.clean := rfl
@[simp] theorem State.answerHost_poison (r : HostReply) : (s.answerHost r).poison = s.poison := rfl
@[simp] theorem State.answerHost_l2Poison (r : HostReply) : (s.answerHost r).l2Poison = s.l2Poison := rfl
@[simp] theorem State.answerHost_l2 (r : HostReply) : (s.answerHost r).l2 = s.l2 := rfl
@[simp] theorem State.answerHost_touched (r : HostReply) : (s.answerHost r).touched = s.touched := rfl
@[simp] theorem State.answerHost_saves (r : HostReply) : (s.answerHost r).saves = s.saves := rfl
@[simp] theorem State.answerHost_padPoison (r : HostReply) : (s.answerHost r).padPoison = s.padPoison := rfl
@[simp] theorem State.answerHost_l1Poison (r : HostReply) : (s.answerHost r).l1Poison = s.l1Poison := rfl
@[simp] theorem State.answerHost_fenced (r : HostReply) : (s.answerHost r).fenced = s.fenced := rfl
@[simp] theorem State.answerHost_monitors (r : HostReply) : (s.answerHost r).monitors = s.monitors := rfl
@[simp] theorem State.answerHost_rofSent (r : HostReply) : (s.answerHost r).rofSent = s.rofSent := rfl
@[simp] theorem State.answerHost_rofHeld (r : HostReply) : (s.answerHost r).rofHeld = s.rofHeld := rfl
@[simp] theorem State.answerHost_gaps (r : HostReply) : (s.answerHost r).gaps = s.gaps := rfl
@[simp] theorem State.answerHost_tasks (r : HostReply) : (s.answerHost r).tasks = s.tasks := rfl
@[simp] theorem State.answerHost_basin (r : HostReply) : (s.answerHost r).basin = s.basin := rfl
@[simp] theorem State.answerHost_watches (r : HostReply) : (s.answerHost r).watches = s.watches := rfl
@[simp] theorem State.answerHost_peers (r : HostReply) : (s.answerHost r).peers = s.peers := rfl
@[simp] theorem State.answerHost_ports (r : HostReply) : (s.answerHost r).ports = s.ports := rfl
@[simp] theorem State.answerHost_agenda (r : HostReply) : (s.answerHost r).agenda = s.agenda := rfl
@[simp] theorem State.answerHost_actor (r : HostReply) : (s.answerHost r).actor = s.actor := rfl
@[simp] theorem State.answerHost_free (r : HostReply) : (s.answerHost r).free = s.free := rfl

/-! ### `Core.setCl` -/

@[simp] theorem Core.setCl_phase (x : Cluster) (q : ClusterState) : (k.setCl x q).phase = k.phase := rfl
@[simp] theorem Core.setCl_ctx (x : Cluster) (q : ClusterState) : (k.setCl x q).ctx = k.ctx := rfl
@[simp] theorem Core.setCl_regs (x : Cluster) (q : ClusterState) : (k.setCl x q).regs = k.regs := rfl
@[simp] theorem Core.setCl_eng (x : Cluster) (q : ClusterState) : (k.setCl x q).eng = k.eng := rfl
@[simp] theorem Core.setCl_loc (x : Cluster) (q : ClusterState) : (k.setCl x q).loc = k.loc := rfl
@[simp] theorem Core.setCl_trap (x : Cluster) (q : ClusterState) : (k.setCl x q).trap = k.trap := rfl
@[simp] theorem Core.setCl_deque (x : Cluster) (q : ClusterState) : (k.setCl x q).deque = k.deque := rfl
@[simp] theorem Core.setCl_posted (x : Cluster) (q : ClusterState) : (k.setCl x q).posted = k.posted := rfl
@[simp] theorem Core.setCl_xfer (x : Cluster) (q : ClusterState) : (k.setCl x q).xfer = k.xfer := rfl
@[simp] theorem Core.setCl_lastPolder (x : Cluster) (q : ClusterState) : (k.setCl x q).lastPolder = k.lastPolder := rfl

/-! ### `Core.setV` -/

@[simp] theorem Core.setV_phase (n : VReg) (v : Vec) : (k.setV n v).phase = k.phase := rfl
@[simp] theorem Core.setV_ctx (n : VReg) (v : Vec) : (k.setV n v).ctx = k.ctx := rfl
@[simp] theorem Core.setV_cls (n : VReg) (v : Vec) : (k.setV n v).cls = k.cls := rfl
@[simp] theorem Core.setV_eng (n : VReg) (v : Vec) : (k.setV n v).eng = k.eng := rfl
@[simp] theorem Core.setV_loc (n : VReg) (v : Vec) : (k.setV n v).loc = k.loc := rfl
@[simp] theorem Core.setV_trap (n : VReg) (v : Vec) : (k.setV n v).trap = k.trap := rfl
@[simp] theorem Core.setV_deque (n : VReg) (v : Vec) : (k.setV n v).deque = k.deque := rfl
@[simp] theorem Core.setV_posted (n : VReg) (v : Vec) : (k.setV n v).posted = k.posted := rfl
@[simp] theorem Core.setV_xfer (n : VReg) (v : Vec) : (k.setV n v).xfer = k.xfer := rfl
@[simp] theorem Core.setV_lastPolder (n : VReg) (v : Vec) : (k.setV n v).lastPolder = k.lastPolder := rfl

/-! ### `Core.setSr` -/

@[simp] theorem Core.setSr_phase (n : Nat) (v : Word) : (k.setSr n v).phase = k.phase := rfl
@[simp] theorem Core.setSr_ctx (n : Nat) (v : Word) : (k.setSr n v).ctx = k.ctx := rfl
@[simp] theorem Core.setSr_cls (n : Nat) (v : Word) : (k.setSr n v).cls = k.cls := rfl
@[simp] theorem Core.setSr_regs (n : Nat) (v : Word) : (k.setSr n v).regs = k.regs := rfl
@[simp] theorem Core.setSr_eng (n : Nat) (v : Word) : (k.setSr n v).eng = k.eng := rfl
@[simp] theorem Core.setSr_loc (n : Nat) (v : Word) : (k.setSr n v).loc = k.loc := rfl
@[simp] theorem Core.setSr_deque (n : Nat) (v : Word) : (k.setSr n v).deque = k.deque := rfl
@[simp] theorem Core.setSr_posted (n : Nat) (v : Word) : (k.setSr n v).posted = k.posted := rfl
@[simp] theorem Core.setSr_xfer (n : Nat) (v : Word) : (k.setSr n v).xfer = k.xfer := rfl
@[simp] theorem Core.setSr_lastPolder (n : Nat) (v : Word) : (k.setSr n v).lastPolder = k.lastPolder := rfl

/-! ### `Core.setQueue` -/

@[simp] theorem Core.setQueue_phase (e : Engine) (x : EngineQueue) : (k.setQueue e x).phase = k.phase := rfl
@[simp] theorem Core.setQueue_ctx (e : Engine) (x : EngineQueue) : (k.setQueue e x).ctx = k.ctx := rfl
@[simp] theorem Core.setQueue_cls (e : Engine) (x : EngineQueue) : (k.setQueue e x).cls = k.cls := rfl
@[simp] theorem Core.setQueue_regs (e : Engine) (x : EngineQueue) : (k.setQueue e x).regs = k.regs := rfl
@[simp] theorem Core.setQueue_loc (e : Engine) (x : EngineQueue) : (k.setQueue e x).loc = k.loc := rfl
@[simp] theorem Core.setQueue_trap (e : Engine) (x : EngineQueue) : (k.setQueue e x).trap = k.trap := rfl
@[simp] theorem Core.setQueue_deque (e : Engine) (x : EngineQueue) : (k.setQueue e x).deque = k.deque := rfl
@[simp] theorem Core.setQueue_posted (e : Engine) (x : EngineQueue) : (k.setQueue e x).posted = k.posted := rfl
@[simp] theorem Core.setQueue_xfer (e : Engine) (x : EngineQueue) : (k.setQueue e x).xfer = k.xfer := rfl
@[simp] theorem Core.setQueue_lastPolder (e : Engine) (x : EngineQueue) : (k.setQueue e x).lastPolder = k.lastPolder := rfl

/-! ### `Core.setStream` -/

@[simp] theorem Core.setStream_phase (t : StReg) (x : Stream) : (k.setStream t x).phase = k.phase := rfl
@[simp] theorem Core.setStream_ctx (t : StReg) (x : Stream) : (k.setStream t x).ctx = k.ctx := rfl
@[simp] theorem Core.setStream_cls (t : StReg) (x : Stream) : (k.setStream t x).cls = k.cls := rfl
@[simp] theorem Core.setStream_regs (t : StReg) (x : Stream) : (k.setStream t x).regs = k.regs := rfl
@[simp] theorem Core.setStream_loc (t : StReg) (x : Stream) : (k.setStream t x).loc = k.loc := rfl
@[simp] theorem Core.setStream_trap (t : StReg) (x : Stream) : (k.setStream t x).trap = k.trap := rfl
@[simp] theorem Core.setStream_deque (t : StReg) (x : Stream) : (k.setStream t x).deque = k.deque := rfl
@[simp] theorem Core.setStream_posted (t : StReg) (x : Stream) : (k.setStream t x).posted = k.posted := rfl
@[simp] theorem Core.setStream_xfer (t : StReg) (x : Stream) : (k.setStream t x).xfer = k.xfer := rfl
@[simp] theorem Core.setStream_lastPolder (t : StReg) (x : Stream) : (k.setStream t x).lastPolder = k.lastPolder := rfl

/-! ### `Core.setFlag` -/

@[simp] theorem Core.setFlag_phase (f : FlagReg) (x : Flag) : (k.setFlag f x).phase = k.phase := rfl
@[simp] theorem Core.setFlag_ctx (f : FlagReg) (x : Flag) : (k.setFlag f x).ctx = k.ctx := rfl
@[simp] theorem Core.setFlag_cls (f : FlagReg) (x : Flag) : (k.setFlag f x).cls = k.cls := rfl
@[simp] theorem Core.setFlag_eng (f : FlagReg) (x : Flag) : (k.setFlag f x).eng = k.eng := rfl
@[simp] theorem Core.setFlag_loc (f : FlagReg) (x : Flag) : (k.setFlag f x).loc = k.loc := rfl
@[simp] theorem Core.setFlag_trap (f : FlagReg) (x : Flag) : (k.setFlag f x).trap = k.trap := rfl
@[simp] theorem Core.setFlag_deque (f : FlagReg) (x : Flag) : (k.setFlag f x).deque = k.deque := rfl
@[simp] theorem Core.setFlag_posted (f : FlagReg) (x : Flag) : (k.setFlag f x).posted = k.posted := rfl
@[simp] theorem Core.setFlag_xfer (f : FlagReg) (x : Flag) : (k.setFlag f x).xfer = k.xfer := rfl
@[simp] theorem Core.setFlag_lastPolder (f : FlagReg) (x : Flag) : (k.setFlag f x).lastPolder = k.lastPolder := rfl

/-! ### `Core.setVqueue` -/

@[simp] theorem Core.setVqueue_phase (n : QReg) (l : List Vec) : (k.setVqueue n l).phase = k.phase := rfl
@[simp] theorem Core.setVqueue_ctx (n : QReg) (l : List Vec) : (k.setVqueue n l).ctx = k.ctx := rfl
@[simp] theorem Core.setVqueue_cls (n : QReg) (l : List Vec) : (k.setVqueue n l).cls = k.cls := rfl
@[simp] theorem Core.setVqueue_eng (n : QReg) (l : List Vec) : (k.setVqueue n l).eng = k.eng := rfl
@[simp] theorem Core.setVqueue_loc (n : QReg) (l : List Vec) : (k.setVqueue n l).loc = k.loc := rfl
@[simp] theorem Core.setVqueue_trap (n : QReg) (l : List Vec) : (k.setVqueue n l).trap = k.trap := rfl
@[simp] theorem Core.setVqueue_deque (n : QReg) (l : List Vec) : (k.setVqueue n l).deque = k.deque := rfl
@[simp] theorem Core.setVqueue_posted (n : QReg) (l : List Vec) : (k.setVqueue n l).posted = k.posted := rfl
@[simp] theorem Core.setVqueue_xfer (n : QReg) (l : List Vec) : (k.setVqueue n l).xfer = k.xfer := rfl
@[simp] theorem Core.setVqueue_lastPolder (n : QReg) (l : List Vec) : (k.setVqueue n l).lastPolder = k.lastPolder := rfl

/-! ### `Core.setSqueue` -/

@[simp] theorem Core.setSqueue_phase (n : QReg) (l : List Word) : (k.setSqueue n l).phase = k.phase := rfl
@[simp] theorem Core.setSqueue_ctx (n : QReg) (l : List Word) : (k.setSqueue n l).ctx = k.ctx := rfl
@[simp] theorem Core.setSqueue_cls (n : QReg) (l : List Word) : (k.setSqueue n l).cls = k.cls := rfl
@[simp] theorem Core.setSqueue_eng (n : QReg) (l : List Word) : (k.setSqueue n l).eng = k.eng := rfl
@[simp] theorem Core.setSqueue_loc (n : QReg) (l : List Word) : (k.setSqueue n l).loc = k.loc := rfl
@[simp] theorem Core.setSqueue_trap (n : QReg) (l : List Word) : (k.setSqueue n l).trap = k.trap := rfl
@[simp] theorem Core.setSqueue_deque (n : QReg) (l : List Word) : (k.setSqueue n l).deque = k.deque := rfl
@[simp] theorem Core.setSqueue_posted (n : QReg) (l : List Word) : (k.setSqueue n l).posted = k.posted := rfl
@[simp] theorem Core.setSqueue_xfer (n : QReg) (l : List Word) : (k.setSqueue n l).xfer = k.xfer := rfl
@[simp] theorem Core.setSqueue_lastPolder (n : QReg) (l : List Word) : (k.setSqueue n l).lastPolder = k.lastPolder := rfl

/-! ### Masks, predicates and scalar registers: nothing else of the core or the cluster changes -/

@[simp] theorem Core.setM_phase (n : MReg) (v : Mask) : (k.setM n v).phase = k.phase := by
  unfold Core.setM; split <;> rfl
@[simp] theorem Core.setM_ctx (n : MReg) (v : Mask) : (k.setM n v).ctx = k.ctx := by
  unfold Core.setM; split <;> rfl
@[simp] theorem Core.setM_cls (n : MReg) (v : Mask) : (k.setM n v).cls = k.cls := by
  unfold Core.setM; split <;> rfl
@[simp] theorem Core.setM_eng (n : MReg) (v : Mask) : (k.setM n v).eng = k.eng := by
  unfold Core.setM; split <;> rfl
@[simp] theorem Core.setM_loc (n : MReg) (v : Mask) : (k.setM n v).loc = k.loc := by
  unfold Core.setM; split <;> rfl
@[simp] theorem Core.setM_trap (n : MReg) (v : Mask) : (k.setM n v).trap = k.trap := by
  unfold Core.setM; split <;> rfl
@[simp] theorem Core.setM_deque (n : MReg) (v : Mask) : (k.setM n v).deque = k.deque := by
  unfold Core.setM; split <;> rfl
@[simp] theorem Core.setM_posted (n : MReg) (v : Mask) : (k.setM n v).posted = k.posted := by
  unfold Core.setM; split <;> rfl
@[simp] theorem Core.setM_xfer (n : MReg) (v : Mask) : (k.setM n v).xfer = k.xfer := by
  unfold Core.setM; split <;> rfl
@[simp] theorem Core.setM_lastPolder (n : MReg) (v : Mask) : (k.setM n v).lastPolder = k.lastPolder := by
  unfold Core.setM; split <;> rfl
@[simp] theorem ClusterState.setS_p (r : SReg) (v : Word) : (q.setS r v).p = q.p := by
  unfold ClusterState.setS; split <;> rfl
@[simp] theorem ClusterState.setS_pc (r : SReg) (v : Word) : (q.setS r v).pc = q.pc := by
  unfold ClusterState.setS; split <;> rfl
@[simp] theorem ClusterState.setS_status (r : SReg) (v : Word) : (q.setS r v).status = q.status := by
  unfold ClusterState.setS; split <;> rfl
@[simp] theorem ClusterState.setS_loops (r : SReg) (v : Word) : (q.setS r v).loops = q.loops := by
  unfold ClusterState.setS; split <;> rfl
@[simp] theorem ClusterState.setS_consumed (r : SReg) (v : Word) : (q.setS r v).consumed = q.consumed := by
  unfold ClusterState.setS; split <;> rfl
@[simp] theorem ClusterState.setS_pending (r : SReg) (v : Word) : (q.setS r v).pending = q.pending := by
  unfold ClusterState.setS; split <;> rfl
@[simp] theorem ClusterState.setS_held (r : SReg) (v : Word) : (q.setS r v).held = q.held := by
  unfold ClusterState.setS; split <;> rfl
@[simp] theorem ClusterState.setS_useq (r : SReg) (v : Word) : (q.setS r v).useq = q.useq := by
  unfold ClusterState.setS; split <;> rfl
@[simp] theorem ClusterState.setS_temps (r : SReg) (v : Word) : (q.setS r v).temps = q.temps := by
  unfold ClusterState.setS; split <;> rfl
@[simp] theorem ClusterState.setS_joined (r : SReg) (v : Word) : (q.setS r v).joined = q.joined := by
  unfold ClusterState.setS; split <;> rfl
@[simp] theorem ClusterState.setS_released (r : SReg) (v : Word) : (q.setS r v).released = q.released := by
  unfold ClusterState.setS; split <;> rfl
@[simp] theorem ClusterState.setS_skipBk (r : SReg) (v : Word) : (q.setS r v).skipBk = q.skipBk := by
  unfold ClusterState.setS; split <;> rfl
@[simp] theorem ClusterState.setS_setst (r : SReg) (v : Word) : (q.setS r v).setst = q.setst := by
  unfold ClusterState.setS; split <;> rfl
@[simp] theorem ClusterState.setS_asked (r : SReg) (v : Word) : (q.setS r v).asked = q.asked := by
  unfold ClusterState.setS; split <;> rfl
@[simp] theorem ClusterState.setS_counted (r : SReg) (v : Word) : (q.setS r v).counted = q.counted := by
  unfold ClusterState.setS; split <;> rfl
@[simp] theorem ClusterState.setS_fetched (r : SReg) (v : Word) : (q.setS r v).fetched = q.fetched := by
  unfold ClusterState.setS; split <;> rfl
@[simp] theorem ClusterState.setS_failed (r : SReg) (v : Word) : (q.setS r v).failed = q.failed := by
  unfold ClusterState.setS; split <;> rfl
@[simp] theorem ClusterState.setP_s (n : PReg) (b : Bool) : (q.setP n b).s = q.s := by
  unfold ClusterState.setP; split <;> rfl
@[simp] theorem ClusterState.setP_pc (n : PReg) (b : Bool) : (q.setP n b).pc = q.pc := by
  unfold ClusterState.setP; split <;> rfl
@[simp] theorem ClusterState.setP_status (n : PReg) (b : Bool) : (q.setP n b).status = q.status := by
  unfold ClusterState.setP; split <;> rfl
@[simp] theorem ClusterState.setP_loops (n : PReg) (b : Bool) : (q.setP n b).loops = q.loops := by
  unfold ClusterState.setP; split <;> rfl
@[simp] theorem ClusterState.setP_consumed (n : PReg) (b : Bool) : (q.setP n b).consumed = q.consumed := by
  unfold ClusterState.setP; split <;> rfl
@[simp] theorem ClusterState.setP_pending (n : PReg) (b : Bool) : (q.setP n b).pending = q.pending := by
  unfold ClusterState.setP; split <;> rfl
@[simp] theorem ClusterState.setP_held (n : PReg) (b : Bool) : (q.setP n b).held = q.held := by
  unfold ClusterState.setP; split <;> rfl
@[simp] theorem ClusterState.setP_useq (n : PReg) (b : Bool) : (q.setP n b).useq = q.useq := by
  unfold ClusterState.setP; split <;> rfl
@[simp] theorem ClusterState.setP_temps (n : PReg) (b : Bool) : (q.setP n b).temps = q.temps := by
  unfold ClusterState.setP; split <;> rfl
@[simp] theorem ClusterState.setP_joined (n : PReg) (b : Bool) : (q.setP n b).joined = q.joined := by
  unfold ClusterState.setP; split <;> rfl
@[simp] theorem ClusterState.setP_released (n : PReg) (b : Bool) : (q.setP n b).released = q.released := by
  unfold ClusterState.setP; split <;> rfl
@[simp] theorem ClusterState.setP_skipBk (n : PReg) (b : Bool) : (q.setP n b).skipBk = q.skipBk := by
  unfold ClusterState.setP; split <;> rfl
@[simp] theorem ClusterState.setP_setst (n : PReg) (b : Bool) : (q.setP n b).setst = q.setst := by
  unfold ClusterState.setP; split <;> rfl
@[simp] theorem ClusterState.setP_asked (n : PReg) (b : Bool) : (q.setP n b).asked = q.asked := by
  unfold ClusterState.setP; split <;> rfl
@[simp] theorem ClusterState.setP_counted (n : PReg) (b : Bool) : (q.setP n b).counted = q.counted := by
  unfold ClusterState.setP; split <;> rfl
@[simp] theorem ClusterState.setP_fetched (n : PReg) (b : Bool) : (q.setP n b).fetched = q.fetched := by
  unfold ClusterState.setP; split <;> rfl
@[simp] theorem ClusterState.setP_failed (n : PReg) (b : Bool) : (q.setP n b).failed = q.failed := by
  unfold ClusterState.setP; split <;> rfl

/-! ### `ClusterState.goTo` -/

@[simp] theorem ClusterState.goTo_s (pc : Word) (l : List LoopEntry) : (q.goTo pc l).s = q.s := rfl
@[simp] theorem ClusterState.goTo_p (pc : Word) (l : List LoopEntry) : (q.goTo pc l).p = q.p := rfl
@[simp] theorem ClusterState.goTo_pc (pc : Word) (l : List LoopEntry) : (q.goTo pc l).pc = pc := rfl
@[simp] theorem ClusterState.goTo_status (pc : Word) (l : List LoopEntry) : (q.goTo pc l).status = .running := rfl
@[simp] theorem ClusterState.goTo_loops (pc : Word) (l : List LoopEntry) : (q.goTo pc l).loops = l := rfl
@[simp] theorem ClusterState.goTo_consumed (pc : Word) (l : List LoopEntry) : (q.goTo pc l).consumed = q.consumed := rfl
@[simp] theorem ClusterState.goTo_pending (pc : Word) (l : List LoopEntry) : (q.goTo pc l).pending = q.pending := rfl
@[simp] theorem ClusterState.goTo_held (pc : Word) (l : List LoopEntry) : (q.goTo pc l).held = q.held := rfl
@[simp] theorem ClusterState.goTo_useq (pc : Word) (l : List LoopEntry) : (q.goTo pc l).useq = none := rfl
@[simp] theorem ClusterState.goTo_temps (pc : Word) (l : List LoopEntry) : (q.goTo pc l).temps = q.temps := rfl
@[simp] theorem ClusterState.goTo_joined (pc : Word) (l : List LoopEntry) : (q.goTo pc l).joined = q.joined := rfl
@[simp] theorem ClusterState.goTo_released (pc : Word) (l : List LoopEntry) : (q.goTo pc l).released = false := rfl
@[simp] theorem ClusterState.goTo_skipBk (pc : Word) (l : List LoopEntry) : (q.goTo pc l).skipBk = false := rfl
@[simp] theorem ClusterState.goTo_counted (pc : Word) (l : List LoopEntry) : (q.goTo pc l).counted = false := rfl
@[simp] theorem ClusterState.goTo_asked (pc : Word) (l : List LoopEntry) :
    (q.goTo pc l).asked = q.asked.filter (·.pc ≠ q.pc) := rfl
@[simp] theorem ClusterState.goTo_setst (pc : Word) (l : List LoopEntry) : (q.goTo pc l).setst = none := rfl
@[simp] theorem ClusterState.goTo_fetched (pc : Word) (l : List LoopEntry) : (q.goTo pc l).fetched = [] := rfl
@[simp] theorem ClusterState.goTo_failed (pc : Word) (l : List LoopEntry) : (q.goTo pc l).failed = [] := rfl

end Sys2Proof.Machine
end

