-- ==== Sys2Proof/Laws/Tables.lean ====
section
/-!
SUPPORT. Reading after writing in fixed and sparse tables and in memory, and the canonical form: every operation on a
table keeps it.
-/

namespace Sys2Proof.Machine

/-! ### Fixed tables -/

theorem tget_tset_same {α : Type} {n : Nat} (d : α) (t : Vector α n) (i : Nat) (v : α) (h : i < n) :
    tget d (tset t i v) i = v := by
  simp [tget, tset, h]

theorem tget_tset_other {α : Type} {n : Nat} (d : α) (t : Vector α n) (i j : Nat) (v : α) (h : i ≠ j) :
    tget d (tset t i v) j = tget d t j := by
  simp [tget, tset, h]

/-! ### Sparse tables -/

theorem sget_sput {α : Type} (d : α) (m : Sparse α) (n : Nat) (v : α) (j : Nat) :
    sget d (sput m n v) j = if j = n then v else sget d m j := by
  induction m with
  | nil => by_cases h : j = n <;> simp [sput, sget, h]
  | cons e m ih =>
    obtain ⟨k, w⟩ := e
    simp only [sput]
    split
    · subst_vars; by_cases h : j = k <;> simp [sget, h]
    · split
      · by_cases h : j = n
        · simp [sget, h]
        · by_cases h2 : j < n
          · have : j ≠ k := by omega
            have : j < k := by omega
            simp [sget, *]
          · simp [sget, h, h2]
      · simp only [sget, ih]
        by_cases h : j = n
        · have : j ≠ k := by omega
          have : ¬ j < k := by omega
          simp [*] at *
        · simp [h]

/-- Keys rise strictly from a bound. -/
def srising {α : Type} (lo : Nat) : Sparse α → Prop
  | [] => True
  | (k, _) :: m => lo ≤ k ∧ srising (k + 1) m

theorem srising_mono {α : Type} {lo lo' : Nat} (h : lo' ≤ lo) : ∀ {m : Sparse α}, srising lo m → srising lo' m
  | [], _ => trivial
  | (_, _) :: _, ⟨a, b⟩ => ⟨Nat.le_trans h a, b⟩

theorem swfFrom_rising {α : Type} [DecidableEq α] (d : α) : ∀ (lo : Nat) (m : Sparse α), swfFrom d lo m = true → srising lo m
  | _, [], _ => trivial
  | lo, (k, v) :: m, h => by
    simp only [swfFrom, Bool.and_eq_true, decide_eq_true_eq] at h
    exact ⟨h.1.1, swfFrom_rising d (k + 1) m h.2⟩

theorem sget_below {α : Type} (d : α) : ∀ (lo : Nat) (m : Sparse α) (j : Nat), srising lo m → j < lo → sget d m j = d
  | _, [], _, _, _ => rfl
  | lo, (k, v) :: m, j, ⟨a, _⟩, h => by
    have : j ≠ k := by omega
    have : j < k := by omega
    simp [sget, *]

theorem sget_sdel {α : Type} (d : α) (lo : Nat) (m : Sparse α) (n j : Nat) (h : srising lo m) :
    sget d (sdel m n) j = if j = n then d else sget d m j := by
  induction m generalizing lo with
  | nil => simp [sdel, sget]
  | cons e m ih =>
    obtain ⟨k, w⟩ := e
    obtain ⟨a, b⟩ := h
    simp only [sdel]
    split
    · subst_vars
      by_cases hj : j = k
      · simp [hj, sget_below d (k + 1) m k b (by omega)]
      · by_cases hl : j < k
        · simp [sget, hj, hl, sget_below d (k + 1) m j b (by omega)]
        · simp [sget, hj, hl]
    · split
      · by_cases hj : j = n
        · have : j ≠ k := by omega
          have : j < k := by omega
          simp [sget, *]
        · simp [hj]
      · by_cases hj : j = k
        · have : k ≠ n := by omega
          simp [sget, *]
        · by_cases hl : j < k
          · have : j ≠ n := by omega
            simp [sget, *]
          · simp [sget, hj, hl, ih (k + 1) b]

theorem sget_sset {α : Type} [DecidableEq α] (d : α) (m : Sparse α) (n : Nat) (v : α) (j : Nat) (h : swf d m = true) :
    sget d (sset d m n v) j = if j = n then v else sget d m j := by
  unfold sset
  split
  · next hv => subst hv; exact sget_sdel _ 0 m n j (swfFrom_rising _ 0 m h)
  · exact sget_sput d m n v j

/-! ### The canonical form -/

theorem swfFrom_mono {α : Type} [DecidableEq α] {d : α} {lo lo' : Nat} (h : lo' ≤ lo) :
    ∀ {m : Sparse α}, swfFrom d lo m = true → swfFrom d lo' m = true
  | [], _ => rfl
  | (k, v) :: m, e => by
    simp only [swfFrom, Bool.and_eq_true, decide_eq_true_eq] at e ⊢
    exact ⟨⟨Nat.le_trans h e.1.1, e.1.2⟩, e.2⟩

theorem swfFrom_sput {α : Type} [DecidableEq α] (d : α) (n : Nat) (v : α) (hv : v ≠ d) :
    ∀ (lo : Nat) (m : Sparse α), lo ≤ n → swfFrom d lo m = true → swfFrom d lo (sput m n v) = true
  | lo, [], hl, _ => by simp [sput, swfFrom, hl, hv]
  | lo, (k, w) :: m, hl, h => by
    simp only [swfFrom, Bool.and_eq_true, decide_eq_true_eq] at h
    obtain ⟨⟨a, b⟩, c⟩ := h
    simp only [sput]
    split
    · subst_vars; simp [swfFrom, hl, hv, c]
    · split
      · simp only [swfFrom, Bool.and_eq_true, decide_eq_true_eq]
        exact ⟨⟨hl, hv⟩, ⟨by omega, b⟩, c⟩
      · simp only [swfFrom, Bool.and_eq_true, decide_eq_true_eq]
        exact ⟨⟨a, b⟩, swfFrom_sput d n v hv (k + 1) m (by omega) c⟩

theorem swfFrom_sdel {α : Type} [DecidableEq α] (d : α) (n : Nat) :
    ∀ (lo : Nat) (m : Sparse α), swfFrom d lo m = true → swfFrom d lo (sdel m n) = true
  | _, [], _ => rfl
  | lo, (k, w) :: m, h => by
    have h' := h
    simp only [swfFrom, Bool.and_eq_true, decide_eq_true_eq] at h
    obtain ⟨⟨a, b⟩, c⟩ := h
    simp only [sdel]
    split
    · exact swfFrom_mono (by omega) c
    · split
      · exact h'
      · simp only [swfFrom, Bool.and_eq_true, decide_eq_true_eq]
        exact ⟨⟨a, b⟩, swfFrom_sdel d n (k + 1) m c⟩

/-- Setting a value keeps the canonical form. -/
theorem swf_sset {α : Type} [DecidableEq α] (d : α) (m : Sparse α) (n : Nat) (v : α) (h : swf d m = true) :
    swf d (sset d m n v) = true := by
  unfold sset
  split
  · exact swfFrom_sdel d n 0 m h
  · next hv => exact swfFrom_sput d n v hv 0 m (Nat.zero_le n) h

/-- Dropping entries keeps the canonical form. -/
theorem swfFrom_filter {α : Type} [DecidableEq α] (d : α) (p : Nat × α → Bool) :
    ∀ (lo : Nat) (m : Sparse α), swfFrom d lo m = true → swfFrom d lo (m.filter p) = true
  | _, [], _ => rfl
  | lo, (k, w) :: m, h => by
    simp only [swfFrom, Bool.and_eq_true, decide_eq_true_eq] at h
    obtain ⟨⟨a, b⟩, c⟩ := h
    have ih := swfFrom_filter d p (k + 1) m c
    simp only [List.filter_cons]
    split
    · simp only [swfFrom, Bool.and_eq_true, decide_eq_true_eq]
      exact ⟨⟨a, b⟩, ih⟩
    · exact swfFrom_mono (by omega) ih

/-! ### Memory -/

/-- A byte read after a byte written. -/
theorem rdByte_wrByte (m : Memory) (a : Nat) (b : Byte) (j : Nat) (h : Memory.wf m = true) :
    rdByte (wrByte m a b) j = if j = a then b else rdByte m j := sget_sset _ m a b j h

/-- Writing a byte keeps the canonical form. -/
theorem wrByte_wf (m : Memory) (a : Nat) (b : Byte) (h : Memory.wf m = true) : Memory.wf (wrByte m a b) = true :=
  swf_sset _ m a b h

/-- Writing bytes keeps the canonical form. -/
theorem wrBytes_wf (m : Memory) (a : Nat) (l : List Byte) (h : Memory.wf m = true) : Memory.wf (wrBytes m a l) = true := by
  induction l generalizing m a with
  | nil => exact h
  | cons b l ih => exact ih _ _ (wrByte_wf m a b h)

/-- Dropping cells keeps the canonical form. -/
theorem filter_wf (m : Memory) (p : Nat × Byte → Bool) (h : Memory.wf m = true) : Memory.wf (m.filter p) = true :=
  swfFrom_filter _ p 0 m h

/-- A byte read after bytes written. -/
theorem rdByte_wrBytes (l : List Byte) (m : Memory) (a j : Nat) (h : Memory.wf m = true) :
    rdByte (wrBytes m a l) j = if a ≤ j ∧ j < a + l.length then l.getD (j - a) 0 else rdByte m j := by
  induction l generalizing m a with
  | nil => simp [wrBytes]
  | cons b l ih =>
    rw [wrBytes, ih _ _ (wrByte_wf m a b h), rdByte_wrByte m a b j h]
    simp only [List.length_cons]
    by_cases h1 : j = a
    · have : ¬ (a + 1 ≤ j ∧ j < a + 1 + l.length) := by omega
      simp [h1]
    · by_cases h2 : a + 1 ≤ j ∧ j < a + 1 + l.length
      · have h3 : a ≤ j ∧ j < a + (l.length + 1) := by omega
        have h4 : j - a = (j - (a + 1)) + 1 := by omega
        rw [if_pos h2, if_pos h3, h4, List.getD_cons_succ]
      · have h3 : ¬ (a ≤ j ∧ j < a + (l.length + 1)) := by omega
        rw [if_neg h2, if_neg h3, if_neg h1]

end Sys2Proof.Machine
end

