-- ==== Sys2Proof/Laws/Registers.lean ====
section
/-!
SUPPORT. Reading registers after writing them: cores, clusters, scalar registers, predicates, masks, vector registers and
special registers.
-/

namespace Sys2Proof.Machine

/-! ### Cores and clusters -/

@[simp] theorem core_setCore_same (s : State) (c : CoreId) (k : Core) : (s.setCore c k).core c = k := by
  show (s.cores.set c.val k c.isLt)[c.val] = k
  simp

theorem core_setCore_other (s : State) (c d : CoreId) (k : Core) (h : d ≠ c) : (s.setCore c k).core d = s.core d := by
  have h' : c.val ≠ d.val := fun e => h (Fin.ext e.symm)
  show (s.cores.set c.val k c.isLt)[d.val] = s.cores[d.val]
  simp [h']

theorem core_setCore (s : State) (c d : CoreId) (k : Core) :
    (s.setCore c k).core d = if d = c then k else s.core d := by
  split
  · next h => subst h; exact core_setCore_same s d k
  · next h => exact core_setCore_other s c d k h

@[simp] theorem cl_setCl_same (k : Core) (x : Cluster) (q : ClusterState) : (k.setCl x q).cl x = q := by
  cases x <;> rfl

theorem cl_setCl_other (k : Core) (x y : Cluster) (q : ClusterState) (h : y ≠ x) : (k.setCl x q).cl y = k.cl y := by
  cases x <;> cases y <;> first | rfl | exact absurd rfl h

theorem setCl_cl (k : Core) (x : Cluster) : k.setCl x (k.cl x) = k := by
  cases x <;> rfl

theorem setCl_setCl (k : Core) (x : Cluster) (p q : ClusterState) : (k.setCl x p).setCl x q = k.setCl x q := by
  cases x <;> rfl

theorem setCore_setCore (s : State) (c : CoreId) (j k : Core) : (s.setCore c j).setCore c k = s.setCore c k := by
  simp [State.setCore]

theorem setCore_core (s : State) (c : CoreId) : s.setCore c (s.core c) = s := by
  show { s with cores := s.cores.set c.val s.cores[c.val] c.isLt } = s
  simp

@[simp] theorem here_setHere (s : State) (k : Core) : (s.setHere k).here = k := core_setCore_same s _ k

@[simp] theorem me_setMe (s : State) (q : ClusterState) : (s.setMe q).me = q := by
  simp [State.setMe, State.me, State.cl, State.setCl]

@[simp] theorem here_setMe (s : State) (q : ClusterState) : (s.setMe q).here = s.here.setCl s.actor.cl q := by
  simp [State.setMe, State.setCl, State.here]

@[simp] theorem me_setHere (s : State) (k : Core) : (s.setHere k).me = k.cl s.actor.cl := by
  simp [State.me, State.cl, State.setHere]

theorem setMe_setMe (s : State) (p q : ClusterState) : (s.setMe p).setMe q = s.setMe q := by
  simp [State.setMe, State.setCl, setCore_setCore, setCl_setCl]

theorem setHere_setHere (s : State) (j k : Core) : (s.setHere j).setHere k = s.setHere k := by
  simp [State.setHere, setCore_setCore]

theorem me_eq (s : State) : s.me = s.here.cl s.actor.cl := rfl

theorem setMe_eq (s : State) (q : ClusterState) : s.setMe q = s.setHere (s.here.setCl s.actor.cl q) := rfl

theorem core_setHere_other (s : State) (k : Core) (c : CoreId) (h : c ≠ s.actor.core) : (s.setHere k).core c = s.core c :=
  core_setCore_other s _ c k h

@[simp] theorem here_markDone (s : State) : s.markDone.here = s.here := rfl
@[simp] theorem me_markDone (s : State) : s.markDone.me = s.me := rfl
@[simp] theorem core_markDone (s : State) (c : CoreId) : s.markDone.core c = s.core c := rfl

/-! ### Scalar registers -/

/-- s0 reads as zero (R85). -/
@[simp] theorem getS_zero (q : ClusterState) : q.getS 0 = 0 := rfl

/-- A scalar register read after one was written: a write to s0 is discarded (R85). -/
theorem getS_setS (q : ClusterState) (r r' : SReg) (v : Word) :
    (q.setS r v).getS r' = if r' = r ∧ r ≠ 0 then v else q.getS r' := by
  unfold ClusterState.setS ClusterState.getS
  by_cases h0 : r = 0
  · simp [h0]
  · by_cases h1 : r' = 0
    · have h2 : r' ≠ r := fun e => h0 (e ▸ h1)
      rw [if_pos h1, if_pos h1, if_neg (fun h => h2 h.1)]
    · rw [if_neg h0, if_neg h1, if_neg h1]
      by_cases h2 : r' = r
      · subst h2
        rw [if_pos ⟨rfl, h0⟩]
        exact tget_tset_same _ _ _ _ r'.isLt
      · have : r.toNat ≠ r'.toNat := fun e => h2 (BitVec.eq_of_toNat_eq e.symm)
        rw [if_neg (fun h => h2 h.1)]
        exact tget_tset_other _ _ _ _ _ this

/-! ### Predicates -/

theorem getLsbD_setBit {w : Nat} (x : BitVec w) (i j : Nat) (b : Bool) :
    (setBit x i b).getLsbD j = if i = j ∧ j < w then b else x.getLsbD j := by
  unfold setBit
  by_cases hj : j < w
  · cases b
    · by_cases h : i = j
      · subst h
        simp [hj]
      · simp [hj, h]
        omega
    · by_cases h : i = j
      · subst h
        simp [hj]
      · simp [hj, h]
        omega
  · simp [hj, BitVec.getLsbD_of_ge _ _ (Nat.le_of_not_lt hj)]

/-- p0 reads as true (R85). -/
@[simp] theorem getP_zero (q : ClusterState) : q.getP 0 = true := rfl

/-- A predicate read after one was written: a write to p0 is discarded (R85). -/
theorem getP_setP (q : ClusterState) (n n' : PReg) (b : Bool) :
    (q.setP n b).getP n' = if n' = n ∧ n ≠ 0 then b else q.getP n' := by
  unfold ClusterState.setP ClusterState.getP
  by_cases h0 : n = 0
  · simp [h0]
  · by_cases h1 : n' = 0
    · have h2 : n' ≠ n := fun e => h0 (e ▸ h1)
      rw [if_pos h1, if_pos h1, if_neg (fun h => h2 h.1)]
    · rw [if_neg h0, if_neg h1, if_neg h1]
      simp only [getLsbD_setBit]
      by_cases h2 : n' = n
      · subst h2
        rw [if_pos ⟨rfl, n'.isLt⟩, if_pos ⟨rfl, h0⟩]
      · have : ¬ (n.toNat = n'.toNat) := fun e => h2 (BitVec.eq_of_toNat_eq e.symm)
        rw [if_neg (fun h => this h.1), if_neg (fun h => h2 h.1)]

/-! ### Masks and vector registers -/

/-- m0 reads as all ones (R106). -/
@[simp] theorem getM_zero (k : Core) : k.getM 0 = BitVec.allOnes 64 := rfl

/-- A mask read after one was written: a write to m0 is discarded (R19). -/
theorem getM_setM (k : Core) (n n' : MReg) (v : Mask) :
    (k.setM n v).getM n' = if n' = n ∧ n ≠ 0 then v else k.getM n' := by
  unfold Core.setM Core.getM
  by_cases h0 : n = 0
  · simp [h0]
  · by_cases h1 : n' = 0
    · have h2 : n' ≠ n := fun e => h0 (e ▸ h1)
      rw [if_pos h1, if_pos h1, if_neg (fun h => h2 h.1)]
    · rw [if_neg h0, if_neg h1, if_neg h1]
      by_cases h2 : n' = n
      · subst h2
        rw [if_pos ⟨rfl, h0⟩]
        exact tget_tset_same _ _ _ _ n'.isLt
      · have : n.toNat ≠ n'.toNat := fun e => h2 (BitVec.eq_of_toNat_eq e.symm)
        rw [if_neg (fun h => h2 h.1)]
        exact tget_tset_other _ _ _ _ _ this

/-- A vector register below v1536 read after one was written. -/
theorem getV_setV (k : Core) (n n' : VReg) (v : Vec) (h : n.toNat < 1536) :
    (k.setV n v).getV n' = if n' = n then v else k.getV n' := by
  unfold Core.setV Core.getV
  by_cases h2 : n' = n
  · subst h2
    rw [if_pos rfl]
    exact tget_tset_same _ _ _ _ h
  · have : n.toNat ≠ n'.toNat := fun e => h2 (BitVec.eq_of_toNat_eq e.symm)
    rw [if_neg h2]
    exact tget_tset_other _ _ _ _ _ this

/-! ### Special registers -/

/-- A special register read after one was stored. -/
theorem getSr_setSr (k : Core) (n n' : Nat) (v : Word) (h : swf 0 k.trap.sr = true) :
    (k.setSr n v).getSr n' = if n' = n then v else k.getSr n' := sget_sset 0 _ n v n' h

/-- Storing a special register keeps the table's canonical form. -/
theorem setSr_wf (k : Core) (n : Nat) (v : Word) (h : swf 0 k.trap.sr = true) : swf 0 (k.setSr n v).trap.sr = true :=
  swf_sset 0 _ n v h

/-! ### Polders -/

theorem polder_setPolder_same (s : State) (n : Nat) (p : Polder) (h : n < 64) : (s.setPolder n p).polder n = p :=
  tget_tset_same _ _ _ _ h

theorem polder_setPolder_other (s : State) (n m : Nat) (p : Polder) (h : n ≠ m) : (s.setPolder n p).polder m = s.polder m :=
  tget_tset_other _ _ _ _ _ h

end Sys2Proof.Machine
end

