-- ==== Sys2Proof/Laws/Memory.lean ====
section
/-!
SUPPORT. Every operation over memory keeps the canonical form (`Says.Canonical`): bytes put where they live, L1 copies,
the stash, poison, and accesses whole. One lemma an operation; the reset memory has the form.
-/

namespace Sys2Proof.Machine

open Says

/-! ### Where only the memories matter -/

/-- The form speaks of the three memories only. -/
theorem canonical_of_same {s t : State} (h : Canonical s) (hm : t.mem = s.mem) (hh : t.hostMem = s.hostMem)
    (hc : ∀ c, (t.core c).loc.scratch = (s.core c).loc.scratch) : Canonical t where
  mem := hm ▸ h.mem
  host := hh ▸ h.host
  pads := fun c => hc c ▸ h.pads c

/-- A core replaced by one whose scratchpad has the form. -/
theorem canonical_setCore {s : State} (h : Canonical s) (c : CoreId) (k : Core) (hk : Memory.wf k.loc.scratch = true) :
    Canonical (s.setCore c k) where
  mem := h.mem
  host := h.host
  pads := fun d => by
    rw [core_setCore]
    split
    · exact hk
    · exact h.pads d

theorem canonical_setDie {s : State} (h : Canonical s) (c : CoreId) (d : Die) : Canonical (s.setDie c d) :=
  canonical_of_same h rfl rfl fun _ => rfl

theorem canonical_setCl {s : State} (h : Canonical s) (c : CoreId) (x : Cluster) (q : ClusterState) :
    Canonical (s.setCl c x q) :=
  canonical_setCore h c _ (by cases x <;> exact h.pads c)

theorem canonical_setMe {s : State} (h : Canonical s) (q : ClusterState) : Canonical (s.setMe q) := canonical_setCl h _ _ q

theorem canonical_sendEvent {s : State} (h : Canonical s) (e : EventRec) : Canonical (s.sendEvent e) :=
  canonical_of_same h rfl rfl fun _ => rfl

theorem canonical_storeError {s : State} (h : Canonical s) (c : CoreId) (e : Option Engine) (cause : Cause) (va : Word) :
    Canonical (s.storeError c e cause va) := canonical_sendEvent h _

theorem canonical_mapTask {s : State} (h : Canonical s) (uid : Nat) (f : Task → Task) : Canonical (s.mapTask uid f) :=
  canonical_of_same h rfl rfl fun _ => rfl

theorem canonical_setPolder {s : State} (h : Canonical s) (n : Nat) (p : Polder) : Canonical (s.setPolder n p) :=
  canonical_of_same h rfl rfl fun _ => rfl

theorem canonical_postPeers {s : State} (h : Canonical s) (id : Nat) (use : List Nat → PeerUse) (send : Bool)
    (runs : List PeerRun) : Canonical (s.postPeers id use send runs) :=
  canonical_of_same h rfl rfl fun _ => rfl

theorem canonical_touch {s : State} (h : Canonical s) (pas : List Nat) : Canonical (s.touch pas) :=
  canonical_of_same h rfl rfl fun _ => rfl

theorem canonical_l1Poison {s : State} (h : Canonical s) (m : Sparse Bool) : Canonical { s with l1Poison := m } :=
  canonical_of_same h rfl rfl fun _ => rfl

theorem canonical_homePoison {s : State} (h : Canonical s) (m n : Sparse Bool) :
    Canonical { s with poison := m, l2Poison := n } := canonical_of_same h rfl rfl fun _ => rfl

theorem canonical_setL2Line {s : State} (h : Canonical s) (key : Nat) (x : Option L1Line) : Canonical (s.setL2Line key x) := by
  unfold State.setL2Line
  split
  · exact h
  · exact canonical_of_same h rfl rfl fun _ => rfl

/-- An operation repeated over a list. -/
theorem canonical_foldl {α : Type} (f : State → α → State) (hf : ∀ s a, Canonical s → Canonical (f s a)) :
    ∀ (l : List α) (s : State), Canonical s → Canonical (l.foldl f s)
  | [], _, h => h
  | a :: l, s, h => canonical_foldl f hf l (f s a) (hf s a h)

/-! ### What notices a write -/

theorem canonical_setNoins {s : State} (h : Canonical s) (c : CoreId) : Canonical (s.setNoins c) :=
  canonical_setCore h c _ (h.pads c)

theorem canonical_markNoInsert {s : State} (h : Canonical s) (uid : Nat) : Canonical (s.markNoInsert uid) :=
  canonical_foldl _ (fun _ c h => canonical_setNoins h c) _ _ (canonical_mapTask h _ _)

theorem canonical_fireSlots {s : State} (h : Canonical s) (p : WatchSlot → Bool) : Canonical (s.fireSlots p) := by
  unfold State.fireSlots
  dsimp only
  split
  · exact h
  · exact canonical_of_same h rfl rfl fun _ => rfl

theorem canonical_noteWrite {s : State} (h : Canonical s) (w : Option Nat) (pas : List Nat) :
    Canonical (s.noteWrite w pas) := by
  unfold State.noteWrite
  split
  · exact h
  · refine canonical_foldl _ (fun _ u h => canonical_markNoInsert h u) _ _ (canonical_fireSlots ?_ _)
    exact canonical_of_same h rfl rfl fun _ => rfl

theorem canonical_clearPoison {s : State} (h : Canonical s) (pl : Place) : Canonical (s.clearPoison pl) := by
  cases pl <;> exact canonical_of_same h rfl rfl fun _ => rfl

theorem canonical_clearPoisonAt {s : State} (h : Canonical s) (ag : Agent) (l : Loc) : Canonical (s.clearPoisonAt ag l) := by
  unfold State.clearPoisonAt
  split
  · split
    · exact canonical_l1Poison h _
    · exact canonical_clearPoison h _
  · exact canonical_clearPoison h _

theorem canonical_poisonEvent {s : State} (h : Canonical s) (ag : Agent) (cause : Cause) (va : Word) (pl : Place) :
    Canonical (s.poisonEvent ag cause va pl) := by
  unfold State.poisonEvent
  split
  · exact canonical_storeError h _ _ _ _
  · exact canonical_sendEvent h _

theorem canonical_poisonEvents {s : State} (h : Canonical s) (ag : Agent) (ws : List (Word × Loc)) :
    Canonical (s.poisonEvents ag ws) := by
  unfold State.poisonEvents
  split
  · exact h
  · exact canonical_poisonEvent h _ _ _ _

theorem canonical_clearWhole {s : State} (h : Canonical s) (ag : Agent) (ls : List Loc) : Canonical (s.clearWhole ag ls) :=
  canonical_foldl _ (fun _ _ h => canonical_clearPoisonAt h _ _) _ _ h

theorem canonical_writePoison {s : State} (h : Canonical s) (ag : Agent) (ws : List (Word × Loc)) :
    Canonical (s.writePoison ag ws) := canonical_clearWhole (canonical_poisonEvents h _ _) _ _

/-! ### Bytes put where they live -/

theorem canonical_poke {s : State} (h : Canonical s) (pl : Place) (b : Byte) : Canonical (s.poke pl b) := by
  cases pl with
  | hbm pa => exact ⟨wrByte_wf _ _ _ h.mem, h.host, h.pads⟩
  | host ba => exact ⟨h.mem, wrByte_wf _ _ _ h.host, h.pads⟩
  | peer a => exact h
  | pad c off => exact canonical_setCore h c _ (wrByte_wf _ _ _ (h.pads c))

theorem canonical_pokeAll {s : State} (h : Canonical s) (l : List (Place × Byte)) : Canonical (s.pokeAll l) := by
  induction l generalizing s with
  | nil => exact h
  | cons e l ih => exact ih (canonical_poke h e.1 e.2)

/-- Place by place: a byte put at a place is what a read of the place gives, and every other place reads as before. -/
theorem peek_poke {s : State} (h : Canonical s) (p q : Place) (b : Byte) (hp : ∀ a, p ≠ .peer a) :
    (s.poke p b).peek q = if q = p then b else s.peek q := by
  cases p with
  | peer a => exact absurd rfl (hp a)
  | hbm a =>
    cases q with
    | hbm a' =>
      show rdByte (wrByte s.mem a b) a' = _
      rw [rdByte_wrByte _ _ _ _ h.mem]
      simp [Place.hbm.injEq, State.peek]
    | pad c off => exact (if_neg (by simp)).symm
    | _ => simp [State.peek, State.poke]
  | host a =>
    cases q with
    | host a' =>
      show rdByte (wrByte s.hostMem a b) a' = _
      rw [rdByte_wrByte _ _ _ _ h.host]
      simp [Place.host.injEq, State.peek]
    | pad c off => exact (if_neg (by simp)).symm
    | _ => simp [State.peek, State.poke]
  | pad c off =>
    cases q with
    | pad c' off' =>
      show rdByte (((s.setCore c _).core c').loc.scratch) off' = _
      rw [core_setCore]
      by_cases hc : c' = c
      · subst hc
        rw [if_pos rfl]
        show rdByte (wrByte _ off b) off' = _
        rw [rdByte_wrByte _ _ _ _ (h.pads c')]
        simp [Place.pad.injEq, State.peek]
      · rw [if_neg hc]
        simp [Place.pad.injEq, State.peek, hc]
    | _ => simp [State.peek, State.poke]

/-! ### L1 copies and the stash -/

theorem canonical_setLine {s : State} (h : Canonical s) (c : CoreId) (key : Nat) (x : Option L1Line) :
    Canonical (s.setLine c key x) := canonical_setCore h c _ (h.pads c)

theorem canonical_refresh {s : State} (h : Canonical s) (c : CoreId) (l : List (Place × Byte)) : Canonical (s.refresh c l) := by
  unfold State.refresh
  dsimp only
  split
  · exact h
  · exact canonical_setCore h c _ (h.pads c)

theorem canonical_writeBackL2 {s : State} (h : Canonical s) (key : Nat) : Canonical (s.writeBackL2 key) := by
  unfold State.writeBackL2
  split
  · exact h
  · exact canonical_setL2Line (canonical_pokeAll h _) _ _

theorem canonical_evictL2 {s : State} (h : Canonical s) (key : Nat) : Canonical (s.evictL2 key) :=
  canonical_setL2Line (canonical_writeBackL2 h key) _ _

theorem canonical_evictL2Poison {s : State} (h : Canonical s) (sector : Nat) : Canonical (s.evictL2Poison sector) := by
  unfold State.evictL2Poison
  split
  · exact canonical_homePoison h _ _
  · exact h

theorem canonical_makeL2Room {s : State} (h : Canonical s) (key : Nat) : Canonical (s.makeL2Room key) := by
  unfold State.makeL2Room
  dsimp only
  split
  · exact h
  · split
    · exact h
    · split
      · exact canonical_evictL2 h _
      · exact canonical_evictL2Poison h _

theorem canonical_poisonL2 {s : State} (h : Canonical s) (sector : Nat) : Canonical (s.poisonL2 sector) := by
  have room : Canonical (if sget false s.l2Poison sector then s else s.makeL2Room sector) := by
    split
    · exact h
    · exact canonical_makeL2Room h _
  exact canonical_of_same room rfl rfl fun _ => rfl

theorem canonical_fillL2 {s : State} (h : Canonical s) (key : Nat) : Canonical (s.fillL2 key) := by
  unfold State.fillL2
  split
  · exact h
  · exact canonical_setL2Line (canonical_makeL2Room h key) _ _

theorem canonical_pokeL2 {s : State} (h : Canonical s) (key : Nat) (l : List (Nat × Byte)) : Canonical (s.pokeL2 key l) := by
  unfold State.pokeL2
  dsimp only
  split
  · exact canonical_fillL2 h key
  · exact canonical_setL2Line (canonical_fillL2 h key) _ _

theorem canonical_carryPoison {s : State} (h : Canonical s) (c : CoreId) (key : Nat) (whole : Bool) :
    Canonical (s.carryPoison c key whole) := by
  unfold State.carryPoison
  dsimp only
  split
  · exact canonical_storeError (canonical_poisonL2 h _) _ _ _ _
  · split
    · exact h
    · split
      · exact h
      · split
        · exact canonical_homePoison h _ _
        · exact canonical_storeError h _ _ _ _

theorem canonical_dropLinePoison {s : State} (h : Canonical s) (c : CoreId) (key : Nat) :
    Canonical (s.dropLinePoison c key) := by
  unfold State.dropLinePoison
  split
  · exact canonical_l1Poison h _
  · exact h

theorem canonical_writeBackLine {s : State} (h : Canonical s) (c : CoreId) (key : Nat) :
    Canonical (s.writeBackLine c key) := by
  unfold State.writeBackLine
  split
  · exact h
  · next x _ =>
    have home : Canonical (if keyOfDevice key then
        (s.pokeAll (dirtyOf key x)).noteWrite ((s.core c).ctx.bind (·.task)) (hbmOf ((dirtyOf key x).map (·.1)))
      else if (dirtyOf key x).isEmpty then s
      else s.pokeL2 key (((List.range 32).filter x.dirty.getLsbD).map fun i => (i, x.data.extractLsb' (8 * i) 8))) := by
      split
      · exact canonical_noteWrite (canonical_pokeAll h _) _ _
      · split
        · exact h
        · exact canonical_pokeL2 h _ _
    have sent : Canonical (if (dirtyOf key x).isEmpty then (if keyOfDevice key then
        (s.pokeAll (dirtyOf key x)).noteWrite ((s.core c).ctx.bind (·.task)) (hbmOf ((dirtyOf key x).map (·.1)))
      else if (dirtyOf key x).isEmpty then s
      else s.pokeL2 key (((List.range 32).filter x.dirty.getLsbD).map fun i => (i, x.data.extractLsb' (8 * i) 8)))
      else State.carryPoison (if keyOfDevice key then
        (s.pokeAll (dirtyOf key x)).noteWrite ((s.core c).ctx.bind (·.task)) (hbmOf ((dirtyOf key x).map (·.1)))
      else if (dirtyOf key x).isEmpty then s
      else s.pokeL2 key (((List.range 32).filter x.dirty.getLsbD).map fun i => (i, x.data.extractLsb' (8 * i) 8)))
        c key ((dirtyOf key x).length == 32)) := by
      generalize (if keyOfDevice key then _ else _) = s1 at home
      split
      · exact home
      · exact canonical_carryPoison home _ _ _
    exact canonical_setLine sent _ _ _

theorem canonical_evictLine {s : State} (h : Canonical s) (c : CoreId) (key : Nat) : Canonical (s.evictLine c key) :=
  canonical_dropLinePoison (canonical_setLine (canonical_writeBackLine h c key) _ _ _) _ _

theorem canonical_evictPoison {s : State} (h : Canonical s) (c : CoreId) (sector : Nat) : Canonical (s.evictPoison c sector) :=
  canonical_poisonL2 (canonical_l1Poison h _) _

theorem canonical_makeLineRoom {s : State} (h : Canonical s) (c : CoreId) : Canonical (s.makeLineRoom c) := by
  unfold State.makeLineRoom
  dsimp only
  split
  · exact h
  · split
    · exact canonical_evictLine h _ _
    · exact canonical_evictPoison h _ _

theorem canonical_fillGranule {s : State} (h : Canonical s) (c : CoreId) (key : Nat) : Canonical (s.fillGranule c key) := by
  have home : Canonical (if keyOfDevice key then s else s.fillL2 key) := by
    split
    · exact h
    · exact canonical_fillL2 h key
  unfold State.fillGranule
  split
  · exact h
  · generalize (if keyOfDevice key then s else s.fillL2 key) = s0 at home
    dsimp only
    split
    · exact canonical_l1Poison (canonical_setLine (canonical_makeLineRoom home c) c key _) _
    · exact canonical_setLine (canonical_makeLineRoom home c) c key _

theorem canonical_fillLine {s : State} (h : Canonical s) (c : CoreId) (key : Nat) : Canonical (s.fillLine c key) := by
  unfold State.fillLine
  split
  · exact h
  · exact canonical_fillGranule (canonical_foldl _ (fun _ _ h => canonical_fillGranule h _ _) _ _ h) _ _

theorem canonical_allocLines {s : State} (h : Canonical s) (ag : Agent) (noAlloc : Bool) (l : List Loc) :
    Canonical (s.allocLines ag noAlloc l) := by
  unfold State.allocLines
  split
  · exact h
  · refine canonical_foldl _ (fun t x h => ?_) _ _ h
    split
    · exact canonical_fillLine h _ _
    · exact h

/-! ### Accesses that are performed later (R183 to R185) -/

theorem canonical_readPiece {s : State} (h : Canonical s) (c : CoreId) (x : Cluster) (i : Nat) : Canonical (s.readPiece c x i) := by
  unfold State.readPiece
  split
  · exact h
  · split
    · exact h
    · exact canonical_touch (canonical_allocLines (canonical_setCl h _ _ _) _ _ _) _

theorem canonical_readPieces (c : CoreId) (x : Cluster) (i : Nat) :
    ∀ (n : Nat) (s : State), Canonical s → Canonical (s.readPieces c x i n)
  | 0, _, h => h
  | n + 1, _, h => canonical_readPieces c x i n _ (canonical_readPiece h c x i)

theorem canonical_readDue {s : State} (h : Canonical s) (c : CoreId) (x : Cluster) (due : PendingLoad → List Place → Bool)
    (later : List Act) : Canonical (s.readDue c x due later) := by
  unfold State.readDue
  dsimp only
  split
  · exact h
  · exact canonical_foldl _ (fun _ _ h => canonical_readPieces _ _ _ _ _ h) _ _ (canonical_setCl h _ _ _)

theorem canonical_readWhere {s : State} (h : Canonical s) (due : CoreId → Cluster → PendingLoad → List Place → Bool) :
    Canonical (s.readWhere due) :=
  canonical_foldl _ (fun _ _ h => canonical_foldl _ (fun _ _ h => canonical_readDue h _ _ _ _) _ _ h) _ _ h

theorem canonical_readPassed {s : State} (h : Canonical s) (ag : Agent) (ps : List Place) : Canonical (s.readPassed ag ps) := by
  unfold State.readPassed
  split
  · exact canonical_readWhere h _
  · exact h

theorem canonical_readSector {s : State} (h : Canonical s) (pl : Place) : Canonical (s.readSector pl) := by
  unfold State.readSector
  split
  · exact canonical_readWhere h _
  · exact h

theorem canonical_land {s : State} (h : Canonical s) (c : CoreId) (x : Cluster) (va : Word) (l : List (Place × Byte)) :
    Canonical (s.land c x va l) := by
  apply canonical_touch
  apply canonical_noteWrite
  apply canonical_refresh
  apply canonical_pokeAll
  apply canonical_writePoison
  exact canonical_readPassed h _ _

theorem canonical_landAll (c : CoreId) : ∀ (l : List Posted) (s : State), Canonical s → Canonical (landAll c l s)
  | [], _, h => h
  | _ :: l, _, h => canonical_landAll c l _ (canonical_land h _ _ _ _)

theorem canonical_settlePosted {s : State} (h : Canonical s) (c : CoreId) (due : Posted → Bool) (raise : Posted → Scope)
    (later : List Act) : Canonical (s.settlePosted c due raise later) := by
  have left : ∀ l, Canonical (s.setCore c { s.core c with posted := l }) := fun l => canonical_setCore h c _ (h.pads c)
  unfold State.settlePosted
  simp only
  split
  · exact h
  · refine canonical_landAll _ _ _ ?_
    split
    · exact left _
    · exact canonical_readWhere (left _) _

theorem canonical_landReaching {s : State} (h : Canonical s) (ag : Agent) (ps : List Place) :
    Canonical (s.landReaching ag ps) := by
  unfold State.landReaching
  split
  · exact canonical_foldl _ (fun _ _ h => canonical_settlePosted h _ _ _ _) _ _ h
  · exact h

theorem canonical_carry {s : State} (h : Canonical s) (c : CoreId) (sc : Scope) : Canonical (s.carry c sc) := by
  unfold State.carry
  split
  · exact canonical_foldl _ (fun _ _ h => canonical_settlePosted h _ _ _ _) _ _ h
  · exact h

theorem canonical_beforeWrite {s : State} (h : Canonical s) (ag : Agent) (ps : List Place) : Canonical (s.beforeWrite ag ps) := by
  unfold State.beforeWrite
  refine canonical_readPassed (canonical_landReaching ?_ _ _) _ _
  split
  · exact h
  · exact canonical_settlePosted h _ _ _ _

/-! ### The stash -/

theorem canonical_mapStash {s : State} (h : Canonical s) (c : CoreId) (off : Nat) (f : StashMap → StashMap) :
    Canonical (s.mapStash c off f) := canonical_setCore h c _ (h.pads c)

theorem canonical_fillPoison {s : State} (h : Canonical s) (ag : Agent) (l : List (Place × Loc)) : Canonical (s.fillPoison ag l) :=
  canonical_of_same h rfl rfl fun _ => rfl

theorem canonical_fillStash {s : State} (h : Canonical s) (ag : Agent) (l : Loc) : Canonical (s.fillStash ag l) := by
  unfold State.fillStash
  split
  · split
    · exact h
    · split
      · exact h
      · exact canonical_mapStash (canonical_pokeAll (canonical_fillPoison h _ _) _) _ _ _
  · exact h

theorem canonical_dirtyStash {s : State} (h : Canonical s) (ag : Agent) (l : Loc) : Canonical (s.dirtyStash ag l) := by
  unfold State.dirtyStash
  split
  · exact canonical_mapStash h _ _ _
  · exact h

/-! ### Accesses whole -/

theorem canonical_pokeFor {s : State} (h : Canonical s) (ag : Agent) (l : Loc) (b : Byte) : Canonical (s.pokeFor ag l b) := by
  unfold State.pokeFor
  split
  · split
    · exact canonical_poke h _ _
    · exact canonical_refresh (canonical_poke h _ _) _ _
  · exact canonical_poke h _ _

theorem canonical_writeLoc {s : State} (h : Canonical s) (ag : Agent) (noAlloc : Bool) (l : Loc) (b : Byte) :
    Canonical (s.writeLoc ag noAlloc l b).1 := by
  unfold State.writeLoc
  split
  · split
    · split
      · exact canonical_pokeL2 h _ _
      · exact canonical_poke h _ _
    · dsimp only
      split
      · exact canonical_setLine (canonical_fillLine h _ _) _ _ _
      · exact canonical_fillLine h _ _
  · split
    · exact canonical_pokeL2 h _ _
    · exact canonical_pokeFor h _ _ _

theorem canonical_writeLocs {s : State} (h : Canonical s) (ag : Agent) (noAlloc : Bool) (l : List (Loc × Byte)) :
    Canonical (s.writeLocs ag noAlloc l).1 := by
  induction l generalizing s with
  | nil => exact h
  | cons e l ih => exact ih (canonical_writeLoc h ag noAlloc e.1 e.2)

theorem canonical_fillTlb {s : State} (h : Canonical s) (ag : Agent) (kind : AccKind) (va : Word) :
    Canonical (s.fillTlb ag kind va) := by
  unfold State.fillTlb
  split <;> try exact h
  all_goals
    split
    · next c _ _ _ _ _ _ =>
      dsimp only
      refine canonical_touch (canonical_setDie (canonical_setCore h c _ ?_) _ _) _
      exact h.pads c
    · exact h

theorem canonical_fillTlbs {s : State} (h : Canonical s) (ag : Agent) (kind : AccKind) (l : List Word) :
    Canonical (s.fillTlbs ag kind l) := by
  induction l generalizing s with
  | nil => exact h
  | cons va l ih => exact ih (canonical_fillTlb h ag kind _)

theorem canonical_commit {s : State} (h : Canonical s) (ag : Agent) (ev : Evict) (kind : AccKind)
    (ws : List (Word × Loc × Byte)) : Canonical (s.commit ag ev kind ws) := by
  refine canonical_touch (canonical_fillTlbs (canonical_noteWrite (canonical_clearWhole (canonical_writeLocs
    (canonical_poisonEvents ?_ _ _) _ _ _) _ _) _ _) _ _ _) _
  exact canonical_foldl _ (fun t w h => canonical_dirtyStash (canonical_fillStash h _ _) _ _) _ _ (canonical_beforeWrite h _ _)

/-- What a read and write of one piece at places already checked leaves. -/
theorem canonical_rmwAt {s : State} (h : Canonical s) (ag : Agent) (ev : Evict) (vas : List Word) (ls : List Loc)
    (f : Nat → Nat) : Canonical (s.rmwAt ag ev vas ls f).1 := canonical_commit (canonical_landReaching h _ _) _ _ _ _

/-- What a read leaves: if it answers, the form is kept. -/
theorem canonical_load {s t : State} {ag : Agent} {acc : Accept} {ev : Evict} {vas : List Word} {bytes : List Byte}
    {runs : List PeerRun} (h : Canonical s) (e : s.load ag acc ev vas = .ok t bytes runs) : Canonical t := by
  unfold State.load at e
  split at e
  · cases e
  · split at e
    · split at e <;> cases e
    · split at e
      · cases e
      · injection e with e1
        subst e1
        exact canonical_touch (canonical_fillTlbs (canonical_allocLines (canonical_foldl _
          (fun t l h => canonical_fillStash h _ _) _ _ (canonical_landReaching h _ _)) _ _ _) _ _ _) _

/-- What a write leaves: if it answers, the form is kept. -/
theorem canonical_store {s t : State} {ag : Agent} {acc : Accept} {ev : Evict} {ws : List (Word × Byte)}
    {bytes : List Byte} {runs : List PeerRun} (h : Canonical s) (e : s.store ag acc ev ws = .ok t bytes runs) :
    Canonical t := by
  unfold State.store at e
  dsimp only at e
  split at e
  · cases e
  · split at e
    · cases e
    · injection e with e1
      subst e1
      exact canonical_commit h _ _ _ _

/-- What a read and write of one piece leaves: if it answers, the form is kept. -/
theorem canonical_rmw {s t : State} {ag : Agent} {acc : Accept} {ev : Evict} {returning : Bool} {vas : List Word}
    {f : Nat → Nat} {bytes : List Byte} {runs : List PeerRun} (h : Canonical s)
    (e : s.rmw ag acc ev returning vas f = .ok t bytes runs) : Canonical t := by
  unfold State.rmw at e
  split at e
  · cases e
  · split at e
    · cases e
    · split at e
      · cases e
      · injection e with e1
        subst e1
        exact canonical_rmwAt h _ _ _ _ _

/-- A write that waits for nothing: if it answers, the form is kept. -/
theorem canonical_storeNow {s t : State} {ag : Agent} {ws : List (Word × Byte)} (h : Canonical s)
    (e : s.storeNow ag ws = .ok t) : Canonical t := by
  unfold State.storeNow at e
  cases hc : s.checkAccess ag .write .any (ws.map (·.1)) with
  | error _ => simp [hc, Except.map] at e
  | ok ls =>
    simp only [hc, Except.map] at e
    injection e with e1
    exact e1 ▸ canonical_commit h _ _ _ _

/-- Bytes written to device memory by no core. -/
theorem canonical_writePhys {s : State} (h : Canonical s) (ag : Agent) (pa : Nat) (bytes : List Byte) :
    Canonical (s.writePhys ag pa bytes) :=
  canonical_touch (canonical_noteWrite (canonical_pokeAll (canonical_writePoison (canonical_beforeWrite h _ _) _ _) _) _ _) _

/-- A write of a unit: if it answers, the form is kept. -/
theorem canonical_unitPut {s t : State} {ag : Agent} {use : PeerUse} {va : Word} {bytes : List Byte} (h : Canonical s)
    (e : s.unitPut ag use va bytes = .ok t) : Canonical t := by
  unfold State.unitPut at e
  dsimp only at e
  split at e
  · cases e
  · cases e
  · injection e with e1
    exact e1 ▸ canonical_postPeers (canonical_commit h _ _ _ _) _ _ _ _

/-- A write of a polder's unit: if it answers, the form is kept. -/
theorem canonical_unitWrite {s t : State} {n : Nat} {ag : Agent} {va : Word} {bytes : List Byte} (h : Canonical s)
    (e : s.unitWrite n ag va bytes = .ok t) : Canonical t := canonical_unitPut h e

/-- What a unit's read that goes on with peers' answers leaves is what it would give, or the machine with requests posted. -/
theorem unitAwait_cases {s : State} {n : Nat} {runs : List PeerRun} {got r : UnitGot} (e : s.unitAwait n runs got = r) :
    r = got ∨ (∃ cause va, r = .failed cause va) ∨ (∃ a, r = .hole a) ∨ r = .later s ∨
      ∃ l, r = .later (s.postPeers s.free (fun _ => .unit n true) false l) := by
  subst e
  unfold State.unitAwait
  split
  · exact .inr (.inl ⟨_, _, rfl⟩)
  · exact .inr (.inr (.inl ⟨_, rfl⟩))
  · exact .inl rfl
  · split
    · exact .inr (.inr (.inr (.inl rfl)))
    · exact .inr (.inr (.inr (.inr ⟨_, rfl⟩)))

/-- A read of a polder's unit: if it answers, or awaits a peer, the form is kept. -/
theorem canonical_unitRead {s t : State} {n : Nat} {ag : Agent} {vas : List Word} {bytes : List Byte} (h : Canonical s)
    (e : s.unitRead n ag vas = .bytes t bytes ∨ s.unitRead n ag vas = .later t) : Canonical t := by
  unfold State.unitRead at e
  split at e
  · next x _ => cases x <;> rcases e with e | e <;> cases e
  · rcases e with e | e
    · cases e
    · injection e with e1
      exact e1 ▸ h
  · next x _ =>
    rcases e with e | e <;> rcases unitAwait_cases e with e | ⟨_, _, e⟩ | ⟨_, e⟩ | e | ⟨_, e⟩
    all_goals first
      | (cases x <;> cases e)
      | (injection e with e1; subst e1; first | exact h | exact canonical_postPeers h _ _ _ _)
      | cases e
  · next hl =>
    rcases e with e | e <;> rcases unitAwait_cases e with e | ⟨_, _, e⟩ | ⟨_, e⟩ | e | ⟨_, e⟩
    all_goals first
      | (cases e; done)
      | (injection e with e1; subst e1; first
          | exact h
          | exact canonical_postPeers h _ _ _ _
          | exact canonical_load h hl)

/-! ### Completing, waiting and taking an exception -/

theorem canonical_complete {s : State} (h : Canonical s) : Canonical s.complete :=
  canonical_of_same (canonical_setMe h s.me.complete) rfl rfl fun _ => rfl

theorem canonical_completeTo {s : State} (h : Canonical s) (pc : Word) (l : List LoopEntry) :
    Canonical (s.completeTo pc l) :=
  canonical_of_same (canonical_setMe h (s.me.goTo pc l)) rfl rfl fun _ => rfl

theorem canonical_countFence {s : State} (h : Canonical s) : Canonical s.countFence := by
  unfold State.countFence
  split
  · exact h
  · have late : (s.here.countLate).loc = s.here.loc := by
      unfold Core.countLate
      dsimp only
      split <;> simp [Core.setSr]
    have core : Canonical (s.setHere s.here.countLate) := canonical_setCore h _ _ (by rw [late]; exact h.pads _)
    exact canonical_setMe core _

theorem canonical_block {s : State} (h : Canonical s) (w : Wait) : Canonical (s.block w) := by
  unfold State.block
  split
  · exact canonical_setMe (canonical_countFence h) _
  · exact canonical_setMe h _

theorem canonical_setS {s : State} (h : Canonical s) (r : SReg) (v : Word) : Canonical (s.setS r v) := canonical_setMe h _

/-- Reset memory has the form. -/
theorem reset_wf : Memory.wf State.reset.mem = true := rfl

end Sys2Proof.Machine
end

