-- ==== Sys2Proof/Laws/Order.lean ====
section
/-!
SUPPORT. Where none of the pieces of a core's accesses has to be performed first, what performs those that have to leaves the
machine as it is (R181 to R185).
-/

namespace Sys2Proof.Machine

/-- The plan of a cluster's loads performs none of their pieces and marks none. -/
def planned (s : State) (c : CoreId) (x : Cluster) (due : PendingLoad → List Place → Bool) : Prop :=
  (planLoads (s.core c).revisionOne x due [] (s.cl c x).pending).1 = (s.cl c x).pending.map (·, 0)

theorem readPieces_none {s : State} {c : CoreId} {x : Cluster} :
    ∀ l : List (Nat × Nat), (∀ y ∈ l, y.1 = 0) → l.foldl (fun st y => st.readPieces c x y.2 y.1) s = s
  | [], _ => rfl
  | y :: l, h => by
    rw [List.foldl_cons, h y (List.mem_cons_self ..), State.readPieces]
    exact readPieces_none l fun z hz => h z (List.mem_cons_of_mem _ hz)

theorem readDue_none {s : State} {c : CoreId} {x : Cluster} {due : PendingLoad → List Place → Bool} (h : planned s c x due) :
    s.readDue c x due [] = s := by
  unfold State.readDue
  dsimp only
  split
  · rfl
  · have e : s.setCl c x { s.cl c x with pending := ((s.cl c x).pending.map (·, 0)).map (·.1) } = s := by
      rw [List.map_map]
      simp only [Function.comp_def, List.map_id']
      show s.setCore c ((s.core c).setCl x ((s.core c).cl x)) = s
      rw [setCl_cl, setCore_core]
    rw [h, e]
    refine readPieces_none _ fun y hy => ?_
    obtain ⟨n, i⟩ := y
    obtain ⟨-, e1⟩ := List.mem_zipIdx' hy
    simp [e1]

theorem foldl_id {α β : Type} {f : β → α → β} {s : β} : ∀ {l : List α}, (∀ a ∈ l, f s a = s) → l.foldl f s = s
  | [], _ => rfl
  | a :: l, h => by
    rw [List.foldl_cons, h a (List.mem_cons_self ..)]
    exact foldl_id fun b hb => h b (List.mem_cons_of_mem _ hb)

theorem readWhere_none {s : State} {due : CoreId → Cluster → PendingLoad → List Place → Bool}
    (h : ∀ c x, planned s c x (due c x)) : s.readWhere due = s :=
  foldl_id fun c _ => foldl_id fun x _ => readDue_none (h c x)

/-- The plan of a core's pieces lands none and changes none, and no other core's load has to be read. -/
theorem settlePosted_none {s : State} {c : CoreId} {due : Posted → Bool} {raise : Posted → Scope} {later : List Act}
    (h : (planPosted (s.core c).revisionOne due raise later (s.core c).posted).1 = [] ∧
      (planPosted (s.core c).revisionOne due raise later (s.core c).posted).2.1 = (s.core c).posted)
    (hr : ∀ d x ps, planned s d x fun _ u => d != c && bytesMeet u ps) : s.settlePosted c due raise later = s := by
  have e : s.setCore c { s.core c with posted := (s.core c).posted } = s := setCore_core s c
  unfold State.settlePosted
  dsimp only
  split
  · rfl
  · rw [h.1, h.2, e]
    split
    · rfl
    · exact readWhere_none fun d x => hr d x _

theorem settlePosted_nil {s : State} {c : CoreId} (due : Posted → Bool) (raise : Posted → Scope) (later : List Act)
    (h : (s.core c).posted = []) : s.settlePosted c due raise later = s := by simp [State.settlePosted, h]

/-- With no load unread, nothing is planned. -/
theorem planned_nil {s : State} {c : CoreId} {x : Cluster} {due : PendingLoad → List Place → Bool} (h : (s.cl c x).pending = []) :
    planned s c x due := by simp [planned, h, planLoads]

end Sys2Proof.Machine
end

