-- ==== Sys2Proof/Laws/PerInstr.lean ====
section
/-!
SUPPORT. One lemma for each constructor: the encoding of an instruction fills its syllable exactly (R14, R17). The opcode
has nine bits, the fields of the body fill its 49 bits, and every value fits in its field, so that packing loses nothing;
an event has no encoding.
-/

namespace Sys2Proof.Laws.Fits

open Sys2Proof

/-- An instruction's encoding, where it has one, fills the syllable: nine bits of opcode and 49 of fields, each value
within its field. -/
def Statement (i : Instr) : Prop :=
  ∀ op fields, i.layout = some (op, fields) →
    op < 2 ^ 9 ∧ (fields.map (·.1)).sum = 49 ∧ ∀ f ∈ fields, f.2 < 2 ^ f.1

theorem of_layout {i : Instr} (op : Nat) (fields : List (Nat × Nat)) (h : i.layout = some (op, fields))
    (h1 : op < 2 ^ 9) (h2 : (fields.map (·.1)).sum = 49) (h3 : ∀ f ∈ fields, f.2 < 2 ^ f.1) : Statement i := by
  intro op' fields' h'
  rw [h] at h'
  cases h'
  exact ⟨h1, h2, h3⟩

theorem of_none {i : Instr} (h : i.layout = none) : Statement i := by
  intro op fields h'
  rw [h] at h'
  cases h'

/-- The values of a list of fields fit, from the first of them on. -/
theorem cons {w v : Nat} {fs : List (Nat × Nat)} (h : v < 2 ^ w) (hs : ∀ f ∈ fs, f.2 < 2 ^ f.1) :
    ∀ f ∈ (w, v) :: fs, f.2 < 2 ^ f.1 := by
  intro f hf
  rcases List.mem_cons.mp hf with rfl | hf
  · exact h
  · exact hs f hf

theorem nil : ∀ f ∈ ([] : List (Nat × Nat)), f.2 < 2 ^ f.1 := by
  intro f hf
  cases hf

/-- A flag fits in one bit. -/
theorem flag (b : Bool) : b.toNat < 2 ^ 1 := by cases b <;> decide

/-- A zero fits. -/
theorem zero (w : Nat) : 0 < 2 ^ w := Nat.two_pow_pos w

theorem elem_type_code (x : ElemType) : x.code < 2 ^ 4 := by cases x <;> decide
theorem rounding_code (x : Rounding) : x.code < 2 ^ 2 := by cases x <;> decide
theorem cond_code (x : Cond) : x.code < 2 ^ 3 := by cases x <;> decide
theorem scope_code (x : Scope) : x.code < 2 ^ 3 := by cases x <;> decide
theorem evict_code (x : Evict) : x.code < 2 ^ 3 := by cases x <;> decide
theorem mem_ord_code (x : MemOrd) : x.code < 2 ^ 2 := by cases x <;> decide
theorem vec_size_code (x : VecSize) : x.code < 2 ^ 3 := by cases x <;> decide
theorem ext_width_code (x : ExtWidth) : x.code < 2 ^ 2 := by cases x <;> decide
theorem red_op_code (x : RedOp) : x.code < 2 ^ 3 := by cases x <;> decide
theorem bind_mode_code (x : BindMode) : x.code < 2 ^ 2 := by cases x <;> decide
theorem inv_kind_code (x : InvKind) : x.code < 2 ^ 2 := by cases x <;> decide
theorem save_mode_code (x : SaveMode) : x.code < 2 ^ 2 := by cases x <;> decide
theorem engine_code (x : Engine) : x.code < 2 ^ 3 := by cases x <;> decide

/-! ### Syllables -/

theorem nop : Statement .nop :=
  of_layout _ _ rfl (by decide) rfl <| cons (zero 49) nil
theorem add (rd ra rb : SReg) : Statement (.add rd ra rb) :=
  of_layout _ _ rfl (by decide) rfl <| cons (zero 25) (cons (zero 6) (cons (rb.isLt) (cons (ra.isLt) (cons (rd.isLt) nil))))
theorem sub (rd ra rb : SReg) : Statement (.sub rd ra rb) :=
  of_layout _ _ rfl (by decide) rfl <| cons (zero 25) (cons (zero 6) (cons (rb.isLt) (cons (ra.isLt) (cons (rd.isLt) nil))))
theorem mul (rd ra rb : SReg) : Statement (.mul rd ra rb) :=
  of_layout _ _ rfl (by decide) rfl <| cons (zero 25) (cons (zero 6) (cons (rb.isLt) (cons (ra.isLt) (cons (rd.isLt) nil))))
theorem mulh (rd ra rb : SReg) : Statement (.mulh rd ra rb) :=
  of_layout _ _ rfl (by decide) rfl <| cons (zero 25) (cons (zero 6) (cons (rb.isLt) (cons (ra.isLt) (cons (rd.isLt) nil))))
theorem mulhu (rd ra rb : SReg) : Statement (.mulhu rd ra rb) :=
  of_layout _ _ rfl (by decide) rfl <| cons (zero 25) (cons (zero 6) (cons (rb.isLt) (cons (ra.isLt) (cons (rd.isLt) nil))))
theorem div (rd ra rb : SReg) : Statement (.div rd ra rb) :=
  of_layout _ _ rfl (by decide) rfl <| cons (zero 25) (cons (zero 6) (cons (rb.isLt) (cons (ra.isLt) (cons (rd.isLt) nil))))
theorem divu (rd ra rb : SReg) : Statement (.divu rd ra rb) :=
  of_layout _ _ rfl (by decide) rfl <| cons (zero 25) (cons (zero 6) (cons (rb.isLt) (cons (ra.isLt) (cons (rd.isLt) nil))))
theorem rem (rd ra rb : SReg) : Statement (.rem rd ra rb) :=
  of_layout _ _ rfl (by decide) rfl <| cons (zero 25) (cons (zero 6) (cons (rb.isLt) (cons (ra.isLt) (cons (rd.isLt) nil))))
theorem remu (rd ra rb : SReg) : Statement (.remu rd ra rb) :=
  of_layout _ _ rfl (by decide) rfl <| cons (zero 25) (cons (zero 6) (cons (rb.isLt) (cons (ra.isLt) (cons (rd.isLt) nil))))
theorem and (rd ra rb : SReg) : Statement (.and rd ra rb) :=
  of_layout _ _ rfl (by decide) rfl <| cons (zero 25) (cons (zero 6) (cons (rb.isLt) (cons (ra.isLt) (cons (rd.isLt) nil))))
theorem or (rd ra rb : SReg) : Statement (.or rd ra rb) :=
  of_layout _ _ rfl (by decide) rfl <| cons (zero 25) (cons (zero 6) (cons (rb.isLt) (cons (ra.isLt) (cons (rd.isLt) nil))))
theorem xor (rd ra rb : SReg) : Statement (.xor rd ra rb) :=
  of_layout _ _ rfl (by decide) rfl <| cons (zero 25) (cons (zero 6) (cons (rb.isLt) (cons (ra.isLt) (cons (rd.isLt) nil))))
theorem andn (rd ra rb : SReg) : Statement (.andn rd ra rb) :=
  of_layout _ _ rfl (by decide) rfl <| cons (zero 25) (cons (zero 6) (cons (rb.isLt) (cons (ra.isLt) (cons (rd.isLt) nil))))
theorem shl (rd ra rb : SReg) : Statement (.shl rd ra rb) :=
  of_layout _ _ rfl (by decide) rfl <| cons (zero 25) (cons (zero 6) (cons (rb.isLt) (cons (ra.isLt) (cons (rd.isLt) nil))))
theorem shr (rd ra rb : SReg) : Statement (.shr rd ra rb) :=
  of_layout _ _ rfl (by decide) rfl <| cons (zero 25) (cons (zero 6) (cons (rb.isLt) (cons (ra.isLt) (cons (rd.isLt) nil))))
theorem sar (rd ra rb : SReg) : Statement (.sar rd ra rb) :=
  of_layout _ _ rfl (by decide) rfl <| cons (zero 25) (cons (zero 6) (cons (rb.isLt) (cons (ra.isLt) (cons (rd.isLt) nil))))
theorem rotr (rd ra rb : SReg) : Statement (.rotr rd ra rb) :=
  of_layout _ _ rfl (by decide) rfl <| cons (zero 25) (cons (zero 6) (cons (rb.isLt) (cons (ra.isLt) (cons (rd.isLt) nil))))
theorem min (rd ra rb : SReg) : Statement (.min rd ra rb) :=
  of_layout _ _ rfl (by decide) rfl <| cons (zero 25) (cons (zero 6) (cons (rb.isLt) (cons (ra.isLt) (cons (rd.isLt) nil))))
theorem max (rd ra rb : SReg) : Statement (.max rd ra rb) :=
  of_layout _ _ rfl (by decide) rfl <| cons (zero 25) (cons (zero 6) (cons (rb.isLt) (cons (ra.isLt) (cons (rd.isLt) nil))))
theorem minu (rd ra rb : SReg) : Statement (.minu rd ra rb) :=
  of_layout _ _ rfl (by decide) rfl <| cons (zero 25) (cons (zero 6) (cons (rb.isLt) (cons (ra.isLt) (cons (rd.isLt) nil))))
theorem maxu (rd ra rb : SReg) : Statement (.maxu rd ra rb) :=
  of_layout _ _ rfl (by decide) rfl <| cons (zero 25) (cons (zero 6) (cons (rb.isLt) (cons (ra.isLt) (cons (rd.isLt) nil))))
theorem clz (rd ra : SReg) : Statement (.clz rd ra) :=
  of_layout _ _ rfl (by decide) rfl <| cons (zero 25) (cons (zero 6) (cons (zero 6) (cons (ra.isLt) (cons (rd.isLt) nil))))
theorem ctz (rd ra : SReg) : Statement (.ctz rd ra) :=
  of_layout _ _ rfl (by decide) rfl <| cons (zero 25) (cons (zero 6) (cons (zero 6) (cons (ra.isLt) (cons (rd.isLt) nil))))
theorem popc (rd ra : SReg) : Statement (.popc rd ra) :=
  of_layout _ _ rfl (by decide) rfl <| cons (zero 25) (cons (zero 6) (cons (zero 6) (cons (ra.isLt) (cons (rd.isLt) nil))))
theorem brev (rd ra : SReg) : Statement (.brev rd ra) :=
  of_layout _ _ rfl (by decide) rfl <| cons (zero 25) (cons (zero 6) (cons (zero 6) (cons (ra.isLt) (cons (rd.isLt) nil))))
theorem bswap (rd ra : SReg) : Statement (.bswap rd ra) :=
  of_layout _ _ rfl (by decide) rfl <| cons (zero 25) (cons (zero 6) (cons (zero 6) (cons (ra.isLt) (cons (rd.isLt) nil))))
theorem extr (rd ra : SReg) (len : BitVec 7) (pos : BitVec 6) : Statement (.extr rd ra len pos) :=
  of_layout _ _ rfl (by decide) rfl <| cons (pos.isLt) (cons (len.isLt) (cons (zero 12) (cons (zero 6) (cons (zero 6) (cons (ra.isLt) (cons (rd.isLt) nil))))))
theorem extru (rd ra : SReg) (len : BitVec 7) (pos : BitVec 6) : Statement (.extru rd ra len pos) :=
  of_layout _ _ rfl (by decide) rfl <| cons (pos.isLt) (cons (len.isLt) (cons (zero 12) (cons (zero 6) (cons (zero 6) (cons (ra.isLt) (cons (rd.isLt) nil))))))
theorem insr (rd ra rb : SReg) (len : BitVec 7) (pos : BitVec 6) : Statement (.insr rd ra rb len pos) :=
  of_layout _ _ rfl (by decide) rfl <| cons (pos.isLt) (cons (len.isLt) (cons (zero 12) (cons (zero 6) (cons (rb.isLt) (cons (ra.isLt) (cons (rd.isLt) nil))))))
theorem madd (rd ra rb rc : SReg) : Statement (.madd rd ra rb rc) :=
  of_layout _ _ rfl (by decide) rfl <| cons (zero 25) (cons (rc.isLt) (cons (rb.isLt) (cons (ra.isLt) (cons (rd.isLt) nil))))
theorem lea (rd ra rb : SReg) (sh : BitVec 6) : Statement (.lea rd ra rb sh) :=
  of_layout _ _ rfl (by decide) rfl <| cons (sh.isLt) (cons (zero 19) (cons (zero 6) (cons (rb.isLt) (cons (ra.isLt) (cons (rd.isLt) nil)))))
theorem sext (rd ra : SReg) (w : ExtWidth) : Statement (.sext rd ra w) :=
  of_layout _ _ rfl (by decide) rfl <| cons (ext_width_code w) (cons (zero 23) (cons (zero 6) (cons (zero 6) (cons (ra.isLt) (cons (rd.isLt) nil)))))
theorem zext (rd ra : SReg) (w : ExtWidth) : Statement (.zext rd ra w) :=
  of_layout _ _ rfl (by decide) rfl <| cons (ext_width_code w) (cons (zero 23) (cons (zero 6) (cons (zero 6) (cons (ra.isLt) (cons (rd.isLt) nil)))))
theorem mov (rd ra : SReg) : Statement (.mov rd ra) :=
  of_layout _ _ rfl (by decide) rfl <| cons (zero 25) (cons (zero 6) (cons (zero 6) (cons (ra.isLt) (cons (rd.isLt) nil))))
theorem addi (rd ra : SReg) (imm : BitVec 32) : Statement (.addi rd ra imm) :=
  of_layout _ _ rfl (by decide) rfl <| cons (zero 5) (cons (imm.isLt) (cons (ra.isLt) (cons (rd.isLt) nil)))
theorem andi (rd ra : SReg) (imm : BitVec 32) : Statement (.andi rd ra imm) :=
  of_layout _ _ rfl (by decide) rfl <| cons (zero 5) (cons (imm.isLt) (cons (ra.isLt) (cons (rd.isLt) nil)))
theorem ori (rd ra : SReg) (imm : BitVec 32) : Statement (.ori rd ra imm) :=
  of_layout _ _ rfl (by decide) rfl <| cons (zero 5) (cons (imm.isLt) (cons (ra.isLt) (cons (rd.isLt) nil)))
theorem xori (rd ra : SReg) (imm : BitVec 32) : Statement (.xori rd ra imm) :=
  of_layout _ _ rfl (by decide) rfl <| cons (zero 5) (cons (imm.isLt) (cons (ra.isLt) (cons (rd.isLt) nil)))
theorem shli (rd ra : SReg) (sh : BitVec 6) : Statement (.shli rd ra sh) :=
  of_layout _ _ rfl (by decide) rfl <| cons (sh.isLt) (cons (zero 19) (cons (zero 6) (cons (zero 6) (cons (ra.isLt) (cons (rd.isLt) nil)))))
theorem shri (rd ra : SReg) (sh : BitVec 6) : Statement (.shri rd ra sh) :=
  of_layout _ _ rfl (by decide) rfl <| cons (sh.isLt) (cons (zero 19) (cons (zero 6) (cons (zero 6) (cons (ra.isLt) (cons (rd.isLt) nil)))))
theorem sari (rd ra : SReg) (sh : BitVec 6) : Statement (.sari rd ra sh) :=
  of_layout _ _ rfl (by decide) rfl <| cons (sh.isLt) (cons (zero 19) (cons (zero 6) (cons (zero 6) (cons (ra.isLt) (cons (rd.isLt) nil)))))
theorem muli (rd ra : SReg) (imm : BitVec 32) : Statement (.muli rd ra imm) :=
  of_layout _ _ rfl (by decide) rfl <| cons (zero 5) (cons (imm.isLt) (cons (ra.isLt) (cons (rd.isLt) nil)))
theorem li (rd : SReg) (imm : BitVec 32) : Statement (.li rd imm) :=
  of_layout _ _ rfl (by decide) rfl <| cons (zero 5) (cons (imm.isLt) (cons (zero 6) (cons (rd.isLt) nil)))
theorem lih (rd ra : SReg) (imm : BitVec 32) : Statement (.lih rd ra imm) :=
  of_layout _ _ rfl (by decide) rfl <| cons (zero 5) (cons (imm.isLt) (cons (ra.isLt) (cons (rd.isLt) nil)))
theorem cmp (pd : PReg) (ra rb : SReg) (cc : Cond) : Statement (.cmp pd ra rb cc) :=
  of_layout _ _ rfl (by decide) rfl <| cons (zero 22) (cons (cond_code cc) (cons (rb.isLt) (cons (ra.isLt) (cons (zero 4) (cons (zero 4) (cons (pd.isLt) nil))))))
theorem cmpi (pd : PReg) (ra : SReg) (cc : Cond) (imm22 : BitVec 22) : Statement (.cmpi pd ra cc imm22) :=
  of_layout _ _ rfl (by decide) rfl <| cons (imm22.isLt) (cons (cond_code cc) (cons (zero 6) (cons (ra.isLt) (cons (zero 4) (cons (zero 4) (cons (pd.isLt) nil))))))
theorem pand (pd pa pb : PReg) : Statement (.pand pd pa pb) :=
  of_layout _ _ rfl (by decide) rfl <| cons (zero 22) (cons (zero 3) (cons (zero 6) (cons (zero 6) (cons (pb.isLt) (cons (pa.isLt) (cons (pd.isLt) nil))))))
theorem por (pd pa pb : PReg) : Statement (.por pd pa pb) :=
  of_layout _ _ rfl (by decide) rfl <| cons (zero 22) (cons (zero 3) (cons (zero 6) (cons (zero 6) (cons (pb.isLt) (cons (pa.isLt) (cons (pd.isLt) nil))))))
theorem pxor (pd pa pb : PReg) : Statement (.pxor pd pa pb) :=
  of_layout _ _ rfl (by decide) rfl <| cons (zero 22) (cons (zero 3) (cons (zero 6) (cons (zero 6) (cons (pb.isLt) (cons (pa.isLt) (cons (pd.isLt) nil))))))
theorem pnot (pd pa : PReg) : Statement (.pnot pd pa) :=
  of_layout _ _ rfl (by decide) rfl <| cons (zero 22) (cons (zero 3) (cons (zero 6) (cons (zero 6) (cons (zero 4) (cons (pa.isLt) (cons (pd.isLt) nil))))))
theorem sel (rd ra rb : SReg) (pn : PReg) : Statement (.sel rd ra rb pn) :=
  of_layout _ _ rfl (by decide) rfl <| cons (pn.isLt) (cons (zero 21) (cons (zero 6) (cons (rb.isLt) (cons (ra.isLt) (cons (rd.isLt) nil)))))
theorem getp (rd : SReg) : Statement (.getp rd) :=
  of_layout _ _ rfl (by decide) rfl <| cons (zero 25) (cons (zero 6) (cons (zero 6) (cons (zero 6) (cons (rd.isLt) nil))))
theorem setp (ra : SReg) (mask16 : BitVec 16) : Statement (.setp ra mask16) :=
  of_layout _ _ rfl (by decide) rfl <| cons (mask16.isLt) (cons (zero 6) (cons (zero 3) (cons (zero 6) (cons (ra.isLt) (cons (zero 4) (cons (zero 4) (cons (zero 4) nil)))))))
theorem tstb (pd : PReg) (ra : SReg) (bit : BitVec 6) : Statement (.tstb pd ra bit) :=
  of_layout _ _ rfl (by decide) rfl <| cons (bit.isLt) (cons (zero 16) (cons (zero 3) (cons (zero 6) (cons (ra.isLt) (cons (zero 4) (cons (zero 4) (cons (pd.isLt) nil)))))))
theorem br (off32 : BitVec 32) : Statement (.br off32) :=
  of_layout _ _ rfl (by decide) rfl <| cons (zero 7) (cons (zero 6) (cons (off32.isLt) (cons (zero 4) nil)))
theorem bri (ra : SReg) : Statement (.bri ra) :=
  of_layout _ _ rfl (by decide) rfl <| cons (zero 7) (cons (ra.isLt) (cons (zero 32) (cons (zero 4) nil)))
theorem call (off32 : BitVec 32) : Statement (.call off32) :=
  of_layout _ _ rfl (by decide) rfl <| cons (zero 7) (cons (zero 6) (cons (off32.isLt) (cons (zero 4) nil)))
theorem calli (ra : SReg) : Statement (.calli ra) :=
  of_layout _ _ rfl (by decide) rfl <| cons (zero 7) (cons (ra.isLt) (cons (zero 32) (cons (zero 4) nil)))
theorem ret (ra : SReg) : Statement (.ret ra) :=
  of_layout _ _ rfl (by decide) rfl <| cons (zero 7) (cons (ra.isLt) (cons (zero 32) (cons (zero 4) nil)))
theorem loop (ra : SReg) (endOff : BitVec 16) : Statement (.loop ra endOff) :=
  of_layout _ _ rfl (by decide) rfl <| cons (zero 27) (cons (endOff.isLt) (cons (ra.isLt) nil))
theorem loopi (endOff : BitVec 16) (count : BitVec 27) : Statement (.loopi endOff count) :=
  of_layout _ _ rfl (by decide) rfl <| cons (count.isLt) (cons (endOff.isLt) (cons (zero 6) nil))
theorem loopt (level : BitVec 6) (endOff : BitVec 16) : Statement (.loopt level endOff) :=
  of_layout _ _ rfl (by decide) rfl <| cons (zero 27) (cons (endOff.isLt) (cons (level.isLt) nil))
theorem lbreak : Statement .lbreak :=
  of_layout _ _ rfl (by decide) rfl <| cons (zero 49) nil
theorem halt : Statement .halt :=
  of_layout _ _ rfl (by decide) rfl <| cons (zero 49) nil
theorem brq (q : QReg) (off32 : BitVec 32) : Statement (.brq q off32) :=
  of_layout _ _ rfl (by decide) rfl <| cons (zero 7) (cons (zero 6) (cons (off32.isLt) (cons (q.isLt) nil)))
theorem yield (n4 : BitVec 4) : Statement (.yield n4) :=
  of_layout _ _ rfl (by decide) rfl <| cons (zero 7) (cons (zero 6) (cons (zero 32) (cons (n4.isLt) nil)))
theorem waitt (ra : SReg) : Statement (.waitt ra) :=
  of_layout _ _ rfl (by decide) rfl <| cons (zero 25) (cons (zero 6) (cons (zero 6) (cons (ra.isLt) (cons (zero 6) nil))))
theorem mfsr (rd : SReg) (num : BitVec 12) : Statement (.mfsr rd num) :=
  of_layout _ _ rfl (by decide) rfl <| cons (num.isLt) (cons (zero 13) (cons (zero 6) (cons (zero 6) (cons (zero 6) (cons (rd.isLt) nil)))))
theorem mtsr (ra : SReg) (num : BitVec 12) : Statement (.mtsr ra num) :=
  of_layout _ _ rfl (by decide) rfl <| cons (num.isLt) (cons (zero 13) (cons (zero 6) (cons (zero 6) (cons (ra.isLt) (cons (zero 6) nil)))))
theorem qpush (q : QReg) (ra : SReg) : Statement (.qpush q ra) :=
  of_layout _ _ rfl (by decide) rfl <| cons (zero 24) (cons (zero 4) (cons (zero 11) (cons (ra.isLt) (cons (q.isLt) nil))))
theorem qpop (q : QReg) (rd : SReg) : Statement (.qpop q rd) :=
  of_layout _ _ rfl (by decide) rfl <| cons (zero 24) (cons (zero 4) (cons (zero 11) (cons (rd.isLt) (cons (q.isLt) nil))))
theorem qpeek (q : QReg) (rd : SReg) : Statement (.qpeek q rd) :=
  of_layout _ _ rfl (by decide) rfl <| cons (zero 24) (cons (zero 4) (cons (zero 11) (cons (rd.isLt) (cons (q.isLt) nil))))
theorem qtry (q : QReg) (rd : SReg) (pd : PReg) : Statement (.qtry q rd pd) :=
  of_layout _ _ rfl (by decide) rfl <| cons (zero 24) (cons (pd.isLt) (cons (zero 11) (cons (rd.isLt) (cons (q.isLt) nil))))
theorem qpushp (q : QReg) (pn : PReg) : Statement (.qpushp q pn) :=
  of_layout _ _ rfl (by decide) rfl <| cons (zero 24) (cons (pn.isLt) (cons (zero 11) (cons (zero 6) (cons (q.isLt) nil))))
theorem vqpush (q : QReg) (va : VReg) : Statement (.vqpush q va) :=
  of_layout _ _ rfl (by decide) rfl <| cons (zero 24) (cons (zero 4) (cons (va.isLt) (cons (zero 6) (cons (q.isLt) nil))))
theorem vqpop (q : QReg) (vd : VReg) : Statement (.vqpop q vd) :=
  of_layout _ _ rfl (by decide) rfl <| cons (zero 24) (cons (zero 4) (cons (vd.isLt) (cons (zero 6) (cons (q.isLt) nil))))
theorem qcount (q : QReg) (rd : SReg) : Statement (.qcount q rd) :=
  of_layout _ _ rfl (by decide) rfl <| cons (zero 24) (cons (zero 4) (cons (zero 11) (cons (rd.isLt) (cons (q.isLt) nil))))
theorem fwait (fl : FlagReg) : Statement (.fwait fl) :=
  of_layout _ _ rfl (by decide) rfl <| cons (fl.isLt) (cons (zero 18) (cons (zero 6) (cons (zero 6) (cons (zero 6) (cons (zero 6) nil)))))
theorem fsig (fl : FlagReg) : Statement (.fsig fl) :=
  of_layout _ _ rfl (by decide) rfl <| cons (fl.isLt) (cons (zero 18) (cons (zero 6) (cons (zero 6) (cons (zero 6) (cons (zero 6) nil)))))
theorem fread (rd : SReg) (fl : FlagReg) : Statement (.fread rd fl) :=
  of_layout _ _ rfl (by decide) rfl <| cons (fl.isLt) (cons (zero 18) (cons (zero 6) (cons (zero 6) (cons (zero 6) (cons (rd.isLt) nil)))))
theorem ldb (rd base : SReg) (mf : MemFields) (off : BitVec 24) : Statement (.ldb rd base mf off) :=
  of_layout _ _ rfl (by decide) rfl <| cons (off.isLt) (cons (evict_code mf.ev) (cons (scope_code mf.sc) (cons (mem_ord_code mf.od) (cons (base.isLt) (cons (rd.isLt) (cons (zero 5) nil))))))
theorem ldbu (rd base : SReg) (mf : MemFields) (off : BitVec 24) : Statement (.ldbu rd base mf off) :=
  of_layout _ _ rfl (by decide) rfl <| cons (off.isLt) (cons (evict_code mf.ev) (cons (scope_code mf.sc) (cons (mem_ord_code mf.od) (cons (base.isLt) (cons (rd.isLt) (cons (zero 5) nil))))))
theorem ldh (rd base : SReg) (mf : MemFields) (off : BitVec 24) : Statement (.ldh rd base mf off) :=
  of_layout _ _ rfl (by decide) rfl <| cons (off.isLt) (cons (evict_code mf.ev) (cons (scope_code mf.sc) (cons (mem_ord_code mf.od) (cons (base.isLt) (cons (rd.isLt) (cons (zero 5) nil))))))
theorem ldhu (rd base : SReg) (mf : MemFields) (off : BitVec 24) : Statement (.ldhu rd base mf off) :=
  of_layout _ _ rfl (by decide) rfl <| cons (off.isLt) (cons (evict_code mf.ev) (cons (scope_code mf.sc) (cons (mem_ord_code mf.od) (cons (base.isLt) (cons (rd.isLt) (cons (zero 5) nil))))))
theorem ldw (rd base : SReg) (mf : MemFields) (off : BitVec 24) : Statement (.ldw rd base mf off) :=
  of_layout _ _ rfl (by decide) rfl <| cons (off.isLt) (cons (evict_code mf.ev) (cons (scope_code mf.sc) (cons (mem_ord_code mf.od) (cons (base.isLt) (cons (rd.isLt) (cons (zero 5) nil))))))
theorem ldwu (rd base : SReg) (mf : MemFields) (off : BitVec 24) : Statement (.ldwu rd base mf off) :=
  of_layout _ _ rfl (by decide) rfl <| cons (off.isLt) (cons (evict_code mf.ev) (cons (scope_code mf.sc) (cons (mem_ord_code mf.od) (cons (base.isLt) (cons (rd.isLt) (cons (zero 5) nil))))))
theorem ldd (rd base : SReg) (mf : MemFields) (off : BitVec 24) : Statement (.ldd rd base mf off) :=
  of_layout _ _ rfl (by decide) rfl <| cons (off.isLt) (cons (evict_code mf.ev) (cons (scope_code mf.sc) (cons (mem_ord_code mf.od) (cons (base.isLt) (cons (rd.isLt) (cons (zero 5) nil))))))
theorem stb (rs base : SReg) (mf : MemFields) (off : BitVec 24) : Statement (.stb rs base mf off) :=
  of_layout _ _ rfl (by decide) rfl <| cons (off.isLt) (cons (evict_code mf.ev) (cons (scope_code mf.sc) (cons (mem_ord_code mf.od) (cons (base.isLt) (cons (rs.isLt) (cons (zero 5) nil))))))
theorem sth (rs base : SReg) (mf : MemFields) (off : BitVec 24) : Statement (.sth rs base mf off) :=
  of_layout _ _ rfl (by decide) rfl <| cons (off.isLt) (cons (evict_code mf.ev) (cons (scope_code mf.sc) (cons (mem_ord_code mf.od) (cons (base.isLt) (cons (rs.isLt) (cons (zero 5) nil))))))
theorem stw (rs base : SReg) (mf : MemFields) (off : BitVec 24) : Statement (.stw rs base mf off) :=
  of_layout _ _ rfl (by decide) rfl <| cons (off.isLt) (cons (evict_code mf.ev) (cons (scope_code mf.sc) (cons (mem_ord_code mf.od) (cons (base.isLt) (cons (rs.isLt) (cons (zero 5) nil))))))
theorem std (rs base : SReg) (mf : MemFields) (off : BitVec 24) : Statement (.std rs base mf off) :=
  of_layout _ _ rfl (by decide) rfl <| cons (off.isLt) (cons (evict_code mf.ev) (cons (scope_code mf.sc) (cons (mem_ord_code mf.od) (cons (base.isLt) (cons (rs.isLt) (cons (zero 5) nil))))))
theorem vld (vd : VReg) (base : SReg) (mf : MemFields) (off : BitVec 24) : Statement (.vld vd base mf off) :=
  of_layout _ _ rfl (by decide) rfl <| cons (off.isLt) (cons (evict_code mf.ev) (cons (scope_code mf.sc) (cons (mem_ord_code mf.od) (cons (base.isLt) (cons (vd.isLt) nil)))))
theorem vldn (vd : VReg) (base : SReg) (mf : MemFields) (size : VecSize) (off21 : BitVec 21) : Statement (.vldn vd base mf size off21) :=
  of_layout _ _ rfl (by decide) rfl <| cons (off21.isLt) (cons (vec_size_code size) (cons (evict_code mf.ev) (cons (scope_code mf.sc) (cons (mem_ord_code mf.od) (cons (base.isLt) (cons (vd.isLt) nil))))))
theorem vst (vs : VReg) (base : SReg) (mf : MemFields) (off : BitVec 24) : Statement (.vst vs base mf off) :=
  of_layout _ _ rfl (by decide) rfl <| cons (off.isLt) (cons (evict_code mf.ev) (cons (scope_code mf.sc) (cons (mem_ord_code mf.od) (cons (base.isLt) (cons (vs.isLt) nil)))))
theorem vstn (vs : VReg) (base : SReg) (mf : MemFields) (size : VecSize) (off21 : BitVec 21) : Statement (.vstn vs base mf size off21) :=
  of_layout _ _ rfl (by decide) rfl <| cons (off21.isLt) (cons (vec_size_code size) (cons (evict_code mf.ev) (cons (scope_code mf.sc) (cons (mem_ord_code mf.od) (cons (base.isLt) (cons (vs.isLt) nil))))))
theorem vlds (vd : VReg) (base stride : SReg) (mf : MemFields) : Statement (.vlds vd base stride mf) :=
  of_layout _ _ rfl (by decide) rfl <| cons (zero 18) (cons (evict_code mf.ev) (cons (scope_code mf.sc) (cons (mem_ord_code mf.od) (cons (stride.isLt) (cons (base.isLt) (cons (vd.isLt) nil))))))
theorem vsts (vs : VReg) (base stride : SReg) (mf : MemFields) : Statement (.vsts vs base stride mf) :=
  of_layout _ _ rfl (by decide) rfl <| cons (zero 18) (cons (evict_code mf.ev) (cons (scope_code mf.sc) (cons (mem_ord_code mf.od) (cons (stride.isLt) (cons (base.isLt) (cons (vs.isLt) nil))))))
theorem vgth (vd : VReg) (base : SReg) (vi : VReg) (mf : MemFields) : Statement (.vgth vd base vi mf) :=
  of_layout _ _ rfl (by decide) rfl <| cons (zero 13) (cons (evict_code mf.ev) (cons (scope_code mf.sc) (cons (mem_ord_code mf.od) (cons (vi.isLt) (cons (base.isLt) (cons (vd.isLt) nil))))))
theorem vsct (vs : VReg) (base : SReg) (vi : VReg) (mf : MemFields) : Statement (.vsct vs base vi mf) :=
  of_layout _ _ rfl (by decide) rfl <| cons (zero 13) (cons (evict_code mf.ev) (cons (scope_code mf.sc) (cons (mem_ord_code mf.od) (cons (vi.isLt) (cons (base.isLt) (cons (vs.isLt) nil))))))
theorem pref (base : SReg) (sc : Scope) (ev : Evict) (off : BitVec 24) : Statement (.pref base sc ev off) :=
  of_layout _ _ rfl (by decide) rfl <| cons (off.isLt) (cons (evict_code ev) (cons (scope_code sc) (cons (zero 2) (cons (base.isLt) (cons (zero 11) nil)))))
theorem mark : Statement .mark :=
  of_layout _ _ rfl (by decide) rfl <| cons (zero 49) nil
theorem fence (od : MemOrd) (sc : Scope) : Statement (.fence od sc) :=
  of_layout _ _ rfl (by decide) rfl <| cons (zero 24) (cons (zero 3) (cons (scope_code sc) (cons (mem_ord_code od) (cons (zero 6) (cons (zero 11) nil)))))
theorem cwb (base : SReg) (sc : Scope) (off : BitVec 24) : Statement (.cwb base sc off) :=
  of_layout _ _ rfl (by decide) rfl <| cons (off.isLt) (cons (zero 3) (cons (scope_code sc) (cons (zero 2) (cons (base.isLt) (cons (zero 11) nil)))))
theorem cinv (base : SReg) (sc : Scope) (off : BitVec 24) : Statement (.cinv base sc off) :=
  of_layout _ _ rfl (by decide) rfl <| cons (off.isLt) (cons (zero 3) (cons (scope_code sc) (cons (zero 2) (cons (base.isLt) (cons (zero 11) nil)))))
theorem retain (rd ra rb : SReg) (ways : BitVec 5) : Statement (.retain rd ra rb ways) :=
  of_layout _ _ rfl (by decide) rfl <| cons (ways.isLt) (cons (zero 20) (cons (zero 6) (cons (rb.isLt) (cons (ra.isLt) (cons (rd.isLt) nil)))))
theorem unpin (ra : SReg) : Statement (.unpin ra) :=
  of_layout _ _ rfl (by decide) rfl <| cons (zero 25) (cons (zero 6) (cons (zero 6) (cons (ra.isLt) (cons (zero 6) nil))))
theorem smap (ra rb rc : SReg) : Statement (.smap ra rb rc) :=
  of_layout _ _ rfl (by decide) rfl <| cons (zero 25) (cons (rc.isLt) (cons (rb.isLt) (cons (ra.isLt) (cons (zero 6) nil))))
theorem sunmap (ra : SReg) : Statement (.sunmap ra) :=
  of_layout _ _ rfl (by decide) rfl <| cons (zero 25) (cons (zero 6) (cons (zero 6) (cons (ra.isLt) (cons (zero 6) nil))))
theorem sflush (ra : SReg) : Statement (.sflush ra) :=
  of_layout _ _ rfl (by decide) rfl <| cons (zero 25) (cons (zero 6) (cons (zero 6) (cons (ra.isLt) (cons (zero 6) nil))))
theorem aadd (rd base rb : SReg) (sc : Scope) (ev : Evict) (wide : Bool) (off18 : BitVec 18) : Statement (.aadd rd base rb sc ev wide off18) :=
  of_layout _ _ rfl (by decide) rfl <| cons (off18.isLt) (cons (flag wide) (cons (evict_code ev) (cons (scope_code sc) (cons (zero 6) (cons (rb.isLt) (cons (base.isLt) (cons (rd.isLt) nil)))))))
theorem aand (rd base rb : SReg) (sc : Scope) (ev : Evict) (wide : Bool) (off18 : BitVec 18) : Statement (.aand rd base rb sc ev wide off18) :=
  of_layout _ _ rfl (by decide) rfl <| cons (off18.isLt) (cons (flag wide) (cons (evict_code ev) (cons (scope_code sc) (cons (zero 6) (cons (rb.isLt) (cons (base.isLt) (cons (rd.isLt) nil)))))))
theorem aor (rd base rb : SReg) (sc : Scope) (ev : Evict) (wide : Bool) (off18 : BitVec 18) : Statement (.aor rd base rb sc ev wide off18) :=
  of_layout _ _ rfl (by decide) rfl <| cons (off18.isLt) (cons (flag wide) (cons (evict_code ev) (cons (scope_code sc) (cons (zero 6) (cons (rb.isLt) (cons (base.isLt) (cons (rd.isLt) nil)))))))
theorem axor (rd base rb : SReg) (sc : Scope) (ev : Evict) (wide : Bool) (off18 : BitVec 18) : Statement (.axor rd base rb sc ev wide off18) :=
  of_layout _ _ rfl (by decide) rfl <| cons (off18.isLt) (cons (flag wide) (cons (evict_code ev) (cons (scope_code sc) (cons (zero 6) (cons (rb.isLt) (cons (base.isLt) (cons (rd.isLt) nil)))))))
theorem amin (rd base rb : SReg) (sc : Scope) (ev : Evict) (wide : Bool) (off18 : BitVec 18) : Statement (.amin rd base rb sc ev wide off18) :=
  of_layout _ _ rfl (by decide) rfl <| cons (off18.isLt) (cons (flag wide) (cons (evict_code ev) (cons (scope_code sc) (cons (zero 6) (cons (rb.isLt) (cons (base.isLt) (cons (rd.isLt) nil)))))))
theorem amax (rd base rb : SReg) (sc : Scope) (ev : Evict) (wide : Bool) (off18 : BitVec 18) : Statement (.amax rd base rb sc ev wide off18) :=
  of_layout _ _ rfl (by decide) rfl <| cons (off18.isLt) (cons (flag wide) (cons (evict_code ev) (cons (scope_code sc) (cons (zero 6) (cons (rb.isLt) (cons (base.isLt) (cons (rd.isLt) nil)))))))
theorem aminu (rd base rb : SReg) (sc : Scope) (ev : Evict) (wide : Bool) (off18 : BitVec 18) : Statement (.aminu rd base rb sc ev wide off18) :=
  of_layout _ _ rfl (by decide) rfl <| cons (off18.isLt) (cons (flag wide) (cons (evict_code ev) (cons (scope_code sc) (cons (zero 6) (cons (rb.isLt) (cons (base.isLt) (cons (rd.isLt) nil)))))))
theorem amaxu (rd base rb : SReg) (sc : Scope) (ev : Evict) (wide : Bool) (off18 : BitVec 18) : Statement (.amaxu rd base rb sc ev wide off18) :=
  of_layout _ _ rfl (by decide) rfl <| cons (off18.isLt) (cons (flag wide) (cons (evict_code ev) (cons (scope_code sc) (cons (zero 6) (cons (rb.isLt) (cons (base.isLt) (cons (rd.isLt) nil)))))))
theorem aswp (rd base rb : SReg) (sc : Scope) (ev : Evict) (wide : Bool) (off18 : BitVec 18) : Statement (.aswp rd base rb sc ev wide off18) :=
  of_layout _ _ rfl (by decide) rfl <| cons (off18.isLt) (cons (flag wide) (cons (evict_code ev) (cons (scope_code sc) (cons (zero 6) (cons (rb.isLt) (cons (base.isLt) (cons (rd.isLt) nil)))))))
theorem acas (rd base rb rc : SReg) (sc : Scope) (ev : Evict) (wide : Bool) (off18 : BitVec 18) : Statement (.acas rd base rb rc sc ev wide off18) :=
  of_layout _ _ rfl (by decide) rfl <| cons (off18.isLt) (cons (flag wide) (cons (evict_code ev) (cons (scope_code sc) (cons (rc.isLt) (cons (rb.isLt) (cons (base.isLt) (cons (rd.isLt) nil)))))))
theorem radd (base rb : SReg) (sc : Scope) (ev : Evict) (wide : Bool) (off18 : BitVec 18) : Statement (.radd base rb sc ev wide off18) :=
  of_layout _ _ rfl (by decide) rfl <| cons (off18.isLt) (cons (flag wide) (cons (evict_code ev) (cons (scope_code sc) (cons (zero 6) (cons (rb.isLt) (cons (base.isLt) (cons (zero 6) nil)))))))
theorem rfadd (base rb : SReg) (sc : Scope) (ev : Evict) (off18 : BitVec 18) : Statement (.rfadd base rb sc ev off18) :=
  of_layout _ _ rfl (by decide) rfl <| cons (off18.isLt) (cons (zero 1) (cons (evict_code ev) (cons (scope_code sc) (cons (zero 6) (cons (rb.isLt) (cons (base.isLt) (cons (zero 6) nil)))))))
theorem rmin (base rb : SReg) (sc : Scope) (ev : Evict) (wide : Bool) (off18 : BitVec 18) : Statement (.rmin base rb sc ev wide off18) :=
  of_layout _ _ rfl (by decide) rfl <| cons (off18.isLt) (cons (flag wide) (cons (evict_code ev) (cons (scope_code sc) (cons (zero 6) (cons (rb.isLt) (cons (base.isLt) (cons (zero 6) nil)))))))
theorem rmax (base rb : SReg) (sc : Scope) (ev : Evict) (wide : Bool) (off18 : BitVec 18) : Statement (.rmax base rb sc ev wide off18) :=
  of_layout _ _ rfl (by decide) rfl <| cons (off18.isLt) (cons (flag wide) (cons (evict_code ev) (cons (scope_code sc) (cons (zero 6) (cons (rb.isLt) (cons (base.isLt) (cons (zero 6) nil)))))))
theorem rofadd (base rb rc : SReg) (sc : Scope) (ev : Evict) (off18 : BitVec 18) : Statement (.rofadd base rb rc sc ev off18) :=
  of_layout _ _ rfl (by decide) rfl <| cons (off18.isLt) (cons (zero 1) (cons (evict_code ev) (cons (scope_code sc) (cons (rc.isLt) (cons (rb.isLt) (cons (base.isLt) (cons (zero 6) nil)))))))
theorem vredm (vs : VReg) (base : SReg) (vi : VReg) (sc : Scope) (ev : Evict) : Statement (.vredm vs base vi sc ev) :=
  of_layout _ _ rfl (by decide) rfl <| cons (zero 13) (cons (evict_code ev) (cons (scope_code sc) (cons (zero 2) (cons (vi.isLt) (cons (base.isLt) (cons (vs.isLt) nil))))))
theorem mwait (rd base rb : SReg) (sc : Scope) (ev : Evict) (wide : Bool) (off18 : BitVec 18) : Statement (.mwait rd base rb sc ev wide off18) :=
  of_layout _ _ rfl (by decide) rfl <| cons (off18.isLt) (cons (flag wide) (cons (evict_code ev) (cons (scope_code sc) (cons (zero 6) (cons (rb.isLt) (cons (base.isLt) (cons (rd.isLt) nil)))))))
theorem barinit (base rb : SReg) (sc : Scope) (ev : Evict) (off18 : BitVec 18) : Statement (.barinit base rb sc ev off18) :=
  of_layout _ _ rfl (by decide) rfl <| cons (off18.isLt) (cons (zero 1) (cons (evict_code ev) (cons (scope_code sc) (cons (zero 6) (cons (rb.isLt) (cons (base.isLt) (cons (zero 6) nil)))))))
theorem barrive (rd base rb : SReg) (sc : Scope) (ev : Evict) (off18 : BitVec 18) : Statement (.barrive rd base rb sc ev off18) :=
  of_layout _ _ rfl (by decide) rfl <| cons (off18.isLt) (cons (zero 1) (cons (evict_code ev) (cons (scope_code sc) (cons (zero 6) (cons (rb.isLt) (cons (base.isLt) (cons (rd.isLt) nil)))))))
theorem barwait (base rb : SReg) (sc : Scope) (ev : Evict) (off18 : BitVec 18) : Statement (.barwait base rb sc ev off18) :=
  of_layout _ _ rfl (by decide) rfl <| cons (off18.isLt) (cons (zero 1) (cons (evict_code ev) (cons (scope_code sc) (cons (zero 6) (cons (rb.isLt) (cons (base.isLt) (cons (zero 6) nil)))))))
theorem setst (ra : SReg) (off64 : BitVec 20) (st : StReg) : Statement (.setst ra off64 st) :=
  of_layout _ _ rfl (by decide) rfl <| cons (st.isLt) (cons (off64.isLt) (cons (zero 6) (cons (zero 6) (cons (ra.isLt) (cons (zero 6) nil)))))
theorem getst (rd : SReg) (k3 : BitVec 3) (st : StReg) : Statement (.getst rd k3 st) :=
  of_layout _ _ rfl (by decide) rfl <| cons (st.isLt) (cons (k3.isLt) (cons (zero 17) (cons (zero 6) (cons (zero 6) (cons (zero 6) (cons (rd.isLt) nil))))))
theorem wfill (n13 : BitVec 13) (st : StReg) : Statement (.wfill n13 st) :=
  of_layout _ _ rfl (by decide) rfl <| cons (st.isLt) (cons (n13.isLt) (cons (zero 7) (cons (zero 6) (cons (zero 6) (cons (zero 6) (cons (zero 6) nil))))))
theorem wfree (n13 : BitVec 13) (st : StReg) : Statement (.wfree n13 st) :=
  of_layout _ _ rfl (by decide) rfl <| cons (st.isLt) (cons (n13.isLt) (cons (zero 7) (cons (zero 6) (cons (zero 6) (cons (zero 6) (cons (zero 6) nil))))))
theorem claim (rd : SReg) (n13 : BitVec 13) (st : StReg) : Statement (.claim rd n13 st) :=
  of_layout _ _ rfl (by decide) rfl <| cons (st.isLt) (cons (n13.isLt) (cons (zero 7) (cons (zero 6) (cons (zero 6) (cons (zero 6) (cons (rd.isLt) nil))))))
theorem publ (n13 : BitVec 13) (st : StReg) : Statement (.publ n13 st) :=
  of_layout _ _ rfl (by decide) rfl <| cons (st.isLt) (cons (n13.isLt) (cons (zero 7) (cons (zero 6) (cons (zero 6) (cons (zero 6) (cons (zero 6) nil))))))
theorem popt (n13 : BitVec 13) (st : StReg) : Statement (.popt n13 st) :=
  of_layout _ _ rfl (by decide) rfl <| cons (st.isLt) (cons (n13.isLt) (cons (zero 7) (cons (zero 6) (cons (zero 6) (cons (zero 6) (cons (zero 6) nil))))))
theorem raddr (rd ra : SReg) (st : StReg) : Statement (.raddr rd ra st) :=
  of_layout _ _ rfl (by decide) rfl <| cons (st.isLt) (cons (zero 20) (cons (zero 6) (cons (zero 6) (cons (ra.isLt) (cons (rd.isLt) nil)))))
theorem rstat (rd : SReg) (k3 : BitVec 3) (st : StReg) : Statement (.rstat rd k3 st) :=
  of_layout _ _ rfl (by decide) rfl <| cons (st.isLt) (cons (k3.isLt) (cons (zero 17) (cons (zero 6) (cons (zero 6) (cons (zero 6) (cons (rd.isLt) nil))))))
theorem enq (rd : SReg) (eng : Engine) (rs : SReg) : Statement (.enq rd eng rs) :=
  of_layout _ _ rfl (by decide) rfl <| cons (rs.isLt) (cons (zero 18) (cons (zero 8) (cons (zero 8) (cons (engine_code eng) (cons (rd.isLt) nil)))))
theorem mma (rd : SReg) (eo : EngOpts) (stA stB : StReg) (acc : AccReg) (z popA popB : Bool) : Statement (.mma rd eo stA stB acc z popA popB) :=
  of_layout _ _ rfl (by decide) rfl <| cons (zero 8) (cons (flag popB) (cons (flag popA) (cons (flag z) (cons (acc.isLt) (cons (stB.isLt) (cons (stA.isLt) (cons (eo.signal.isLt) (cons (eo.wait.isLt) (cons (zero 3) (cons (rd.isLt) nil))))))))))
theorem mret (rd : SReg) (eo : EngOpts) (stD stO : StReg) (acc : AccReg) (oe : Bool) : Statement (.mret rd eo stD stO acc oe) :=
  of_layout _ _ rfl (by decide) rfl <| cons (zero 10) (cons (flag oe) (cons (acc.isLt) (cons (stO.isLt) (cons (stD.isLt) (cons (eo.signal.isLt) (cons (eo.wait.isLt) (cons (zero 3) (cons (rd.isLt) nil))))))))
theorem mzero (rd : SReg) (eo : EngOpts) (acc : AccReg) : Statement (.mzero rd eo acc) :=
  of_layout _ _ rfl (by decide) rfl <| cons (zero 11) (cons (acc.isLt) (cons (zero 10) (cons (eo.signal.isLt) (cons (eo.wait.isLt) (cons (zero 3) (cons (rd.isLt) nil))))))
theorem cpin (rd : SReg) (eo : EngOpts) (stS stC : StReg) (ce : Bool) (n1 : BitVec 4) : Statement (.cpin rd eo stS stC ce n1) :=
  of_layout _ _ rfl (by decide) rfl <| cons (zero 9) (cons (n1.isLt) (cons (flag ce) (cons (stC.isLt) (cons (stS.isLt) (cons (eo.signal.isLt) (cons (eo.wait.isLt) (cons (by decide) (cons (rd.isLt) nil))))))))
theorem cpout (rd : SReg) (eo : EngOpts) (stS stC : StReg) (ce : Bool) (n1 : BitVec 4) : Statement (.cpout rd eo stS stC ce n1) :=
  of_layout _ _ rfl (by decide) rfl <| cons (zero 9) (cons (n1.isLt) (cons (flag ce) (cons (stC.isLt) (cons (stS.isLt) (cons (eo.signal.isLt) (cons (eo.wait.isLt) (cons (by decide) (cons (rd.isLt) nil))))))))
theorem cpred (rd : SReg) (eo : EngOpts) (stS stC : StReg) (ce : Bool) (n1 : BitVec 4) (rop : RedOp) : Statement (.cpred rd eo stS stC ce n1 rop) :=
  of_layout _ _ rfl (by decide) rfl <| cons (zero 6) (cons (red_op_code rop) (cons (n1.isLt) (cons (flag ce) (cons (stC.isLt) (cons (stS.isLt) (cons (eo.signal.isLt) (cons (eo.wait.isLt) (cons (by decide) (cons (rd.isLt) nil)))))))))
theorem cpstr (rd : SReg) (eo : EngOpts) (stS stC : StReg) (ce : Bool) (n1 : BitVec 4) : Statement (.cpstr rd eo stS stC ce n1) :=
  of_layout _ _ rfl (by decide) rfl <| cons (zero 9) (cons (n1.isLt) (cons (flag ce) (cons (stC.isLt) (cons (stS.isLt) (cons (eo.signal.isLt) (cons (eo.wait.isLt) (cons (by decide) (cons (rd.isLt) nil))))))))
theorem gath (rd : SReg) (eo : EngOpts) (stS stD stO stC : StReg) (ce : Bool) : Statement (.gath rd eo stS stD stO stC ce) :=
  of_layout _ _ rfl (by decide) rfl <| cons (zero 3) (cons (flag ce) (cons (stC.isLt) (cons (stO.isLt) (cons (stD.isLt) (cons (stS.isLt) (cons (eo.signal.isLt) (cons (eo.wait.isLt) (cons (by decide) (cons (rd.isLt) nil)))))))))
theorem topk (rd : SReg) (eo : EngOpts) (stI stO : StReg) (k1 : BitVec 8) (pairs pop : Bool) : Statement (.topk rd eo stI stO k1 pairs pop) :=
  of_layout _ _ rfl (by decide) rfl <| cons (zero 4) (cons (flag pop) (cons (flag pairs) (cons (k1.isLt) (cons (stO.isLt) (cons (stI.isLt) (cons (eo.signal.isLt) (cons (eo.wait.isLt) (cons (by decide) (cons (rd.isLt) nil)))))))))
theorem notify (rd : SReg) (eng : Engine) (eo : EngOpts) (mask5 : BitVec 5) (ev3 : BitVec 3) : Statement (.notify rd eng eo mask5 ev3) :=
  of_layout _ _ rfl (by decide) rfl <| cons (ev3.isLt) (cons (mask5.isLt) (cons (zero 16) (cons (eo.signal.isLt) (cons (eo.wait.isLt) (cons (engine_code eng) (cons (rd.isLt) nil))))))
theorem gfence (mask5 : BitVec 5) : Statement (.gfence mask5) :=
  of_layout _ _ rfl (by decide) rfl <| cons (mask5.isLt) (cons (zero 19) (cons (zero 8) (cons (zero 8) (cons (zero 3) (cons (zero 6) nil)))))
theorem waitev (ev3 : BitVec 3) : Statement (.waitev ev3) :=
  of_layout _ _ rfl (by decide) rfl <| cons (ev3.isLt) (cons (zero 21) (cons (zero 8) (cons (zero 8) (cons (zero 3) (cons (zero 6) nil)))))
theorem ewait (eng : Engine) (rs : SReg) : Statement (.ewait eng rs) :=
  of_layout _ _ rfl (by decide) rfl <| cons (rs.isLt) (cons (zero 18) (cons (zero 8) (cons (zero 8) (cons (engine_code eng) (cons (zero 6) nil)))))
theorem eseq (rd : SReg) (eng : Engine) (sel2 : BitVec 2) : Statement (.eseq rd eng sel2) :=
  of_layout _ _ rfl (by decide) rfl <| cons (sel2.isLt) (cons (zero 22) (cons (zero 8) (cons (zero 8) (cons (engine_code eng) (cons (rd.isLt) nil)))))
theorem bstat (rd : SReg) (eng : Engine) (rs : SReg) : Statement (.bstat rd eng rs) :=
  of_layout _ _ rfl (by decide) rfl <| cons (rs.isLt) (cons (zero 18) (cons (zero 8) (cons (zero 8) (cons (engine_code eng) (cons (rd.isLt) nil)))))
theorem bpref (mask5 : BitVec 5) (mode : BindMode) : Statement (.bpref mask5 mode) :=
  of_layout _ _ rfl (by decide) rfl <| cons (bind_mode_code mode) (cons (mask5.isLt) (cons (zero 18) (cons (zero 6) (cons (zero 6) (cons (zero 6) (cons (zero 6) nil))))))
theorem launch (rd ra : SReg) : Statement (.launch rd ra) :=
  of_layout _ _ rfl (by decide) rfl <| cons (zero 25) (cons (zero 6) (cons (zero 6) (cons (ra.isLt) (cons (rd.isLt) nil))))
theorem trigger : Statement .trigger :=
  of_layout _ _ rfl (by decide) rfl <| cons (zero 25) (cons (zero 6) (cons (zero 6) (cons (zero 6) (cons (zero 6) nil))))
theorem depwait : Statement .depwait :=
  of_layout _ _ rfl (by decide) rfl <| cons (zero 25) (cons (zero 6) (cons (zero 6) (cons (zero 6) (cons (zero 6) nil))))
theorem dqpush (ra : SReg) : Statement (.dqpush ra) :=
  of_layout _ _ rfl (by decide) rfl <| cons (zero 25) (cons (zero 6) (cons (zero 6) (cons (ra.isLt) (cons (zero 6) nil))))
theorem dqpop (rd : SReg) (pn : PReg) : Statement (.dqpop rd pn) :=
  of_layout _ _ rfl (by decide) rfl <| cons (pn.isLt) (cons (zero 21) (cons (zero 6) (cons (zero 6) (cons (zero 6) (cons (rd.isLt) nil)))))
theorem dqsteal (rd ra : SReg) (pn : PReg) : Statement (.dqsteal rd ra pn) :=
  of_layout _ _ rfl (by decide) rfl <| cons (pn.isLt) (cons (zero 1) (cons (zero 20) (cons (zero 6) (cons (zero 6) (cons (ra.isLt) (cons (rd.isLt) nil))))))
theorem dqstealRing (rd : SReg) (pn : PReg) : Statement (.dqstealRing rd pn) :=
  of_layout _ _ rfl (by decide) rfl <| cons (pn.isLt) (cons (by decide) (cons (zero 20) (cons (zero 6) (cons (zero 6) (cons (zero 6) (cons (rd.isLt) nil))))))
theorem vadd (vd va vb : VReg) (mk : MReg) (ty : ElemType) (rm : Rounding) : Statement (.vadd vd va vb mk ty rm) :=
  of_layout _ _ rfl (by decide) rfl <| cons (zero 6) (cons (rounding_code rm) (cons (elem_type_code ty) (cons (mk.isLt) (cons (vb.isLt) (cons (va.isLt) (cons (vd.isLt) nil))))))
theorem vsub (vd va vb : VReg) (mk : MReg) (ty : ElemType) (rm : Rounding) : Statement (.vsub vd va vb mk ty rm) :=
  of_layout _ _ rfl (by decide) rfl <| cons (zero 6) (cons (rounding_code rm) (cons (elem_type_code ty) (cons (mk.isLt) (cons (vb.isLt) (cons (va.isLt) (cons (vd.isLt) nil))))))
theorem vmul (vd va vb : VReg) (mk : MReg) (ty : ElemType) (rm : Rounding) : Statement (.vmul vd va vb mk ty rm) :=
  of_layout _ _ rfl (by decide) rfl <| cons (zero 6) (cons (rounding_code rm) (cons (elem_type_code ty) (cons (mk.isLt) (cons (vb.isLt) (cons (va.isLt) (cons (vd.isLt) nil))))))
theorem vfma (vd va vb vc : VReg) (mk : MReg) : Statement (.vfma vd va vb vc mk) :=
  of_layout _ _ rfl (by decide) rfl <| cons (zero 1) (cons (mk.isLt) (cons (vc.isLt) (cons (vb.isLt) (cons (va.isLt) (cons (vd.isLt) nil)))))
theorem vfmah (vd va vb vc : VReg) (mk : MReg) : Statement (.vfmah vd va vb vc mk) :=
  of_layout _ _ rfl (by decide) rfl <| cons (zero 1) (cons (mk.isLt) (cons (vc.isLt) (cons (vb.isLt) (cons (va.isLt) (cons (vd.isLt) nil)))))
theorem vfmab (vd va vb vc : VReg) (mk : MReg) : Statement (.vfmab vd va vb vc mk) :=
  of_layout _ _ rfl (by decide) rfl <| cons (zero 1) (cons (mk.isLt) (cons (vc.isLt) (cons (vb.isLt) (cons (va.isLt) (cons (vd.isLt) nil)))))
theorem vmin (vd va vb : VReg) (mk : MReg) (ty : ElemType) (rm : Rounding) : Statement (.vmin vd va vb mk ty rm) :=
  of_layout _ _ rfl (by decide) rfl <| cons (zero 6) (cons (rounding_code rm) (cons (elem_type_code ty) (cons (mk.isLt) (cons (vb.isLt) (cons (va.isLt) (cons (vd.isLt) nil))))))
theorem vmax (vd va vb : VReg) (mk : MReg) (ty : ElemType) (rm : Rounding) : Statement (.vmax vd va vb mk ty rm) :=
  of_layout _ _ rfl (by decide) rfl <| cons (zero 6) (cons (rounding_code rm) (cons (elem_type_code ty) (cons (mk.isLt) (cons (vb.isLt) (cons (va.isLt) (cons (vd.isLt) nil))))))
theorem vabs (vd va : VReg) (mk : MReg) (ty : ElemType) (rm : Rounding) : Statement (.vabs vd va mk ty rm) :=
  of_layout _ _ rfl (by decide) rfl <| cons (zero 6) (cons (rounding_code rm) (cons (elem_type_code ty) (cons (mk.isLt) (cons (zero 11) (cons (va.isLt) (cons (vd.isLt) nil))))))
theorem vneg (vd va : VReg) (mk : MReg) (ty : ElemType) (rm : Rounding) : Statement (.vneg vd va mk ty rm) :=
  of_layout _ _ rfl (by decide) rfl <| cons (zero 6) (cons (rounding_code rm) (cons (elem_type_code ty) (cons (mk.isLt) (cons (zero 11) (cons (va.isLt) (cons (vd.isLt) nil))))))
theorem vand (vd va vb : VReg) (mk : MReg) : Statement (.vand vd va vb mk) :=
  of_layout _ _ rfl (by decide) rfl <| cons (zero 6) (cons (zero 2) (cons (zero 4) (cons (mk.isLt) (cons (vb.isLt) (cons (va.isLt) (cons (vd.isLt) nil))))))
theorem vor (vd va vb : VReg) (mk : MReg) : Statement (.vor vd va vb mk) :=
  of_layout _ _ rfl (by decide) rfl <| cons (zero 6) (cons (zero 2) (cons (zero 4) (cons (mk.isLt) (cons (vb.isLt) (cons (va.isLt) (cons (vd.isLt) nil))))))
theorem vxor (vd va vb : VReg) (mk : MReg) : Statement (.vxor vd va vb mk) :=
  of_layout _ _ rfl (by decide) rfl <| cons (zero 6) (cons (zero 2) (cons (zero 4) (cons (mk.isLt) (cons (vb.isLt) (cons (va.isLt) (cons (vd.isLt) nil))))))
theorem vshl (vd va vb : VReg) (mk : MReg) (ty : ElemType) (imm1 : Bool) (amt : BitVec 5) : Statement (.vshl vd va vb mk ty imm1 amt) :=
  of_layout _ _ rfl (by decide) rfl <| cons (amt.isLt) (cons (flag imm1) (cons (zero 2) (cons (elem_type_code ty) (cons (mk.isLt) (cons (vb.isLt) (cons (va.isLt) (cons (vd.isLt) nil)))))))
theorem vshr (vd va vb : VReg) (mk : MReg) (ty : ElemType) (imm1 : Bool) (amt : BitVec 5) : Statement (.vshr vd va vb mk ty imm1 amt) :=
  of_layout _ _ rfl (by decide) rfl <| cons (amt.isLt) (cons (flag imm1) (cons (zero 2) (cons (elem_type_code ty) (cons (mk.isLt) (cons (vb.isLt) (cons (va.isLt) (cons (vd.isLt) nil)))))))
theorem vsar (vd va vb : VReg) (mk : MReg) (ty : ElemType) (imm1 : Bool) (amt : BitVec 5) : Statement (.vsar vd va vb mk ty imm1 amt) :=
  of_layout _ _ rfl (by decide) rfl <| cons (amt.isLt) (cons (flag imm1) (cons (zero 2) (cons (elem_type_code ty) (cons (mk.isLt) (cons (vb.isLt) (cons (va.isLt) (cons (vd.isLt) nil)))))))
theorem vcmp (md : MReg) (va vb : VReg) (mk : MReg) (ty : ElemType) (cc : Cond) : Statement (.vcmp md va vb mk ty cc) :=
  of_layout _ _ rfl (by decide) rfl <| cons (cond_code cc) (cons (zero 3) (cons (zero 2) (cons (elem_type_code ty) (cons (mk.isLt) (cons (vb.isLt) (cons (va.isLt) (cons (md.isLt) (cons (zero 7) nil))))))))
theorem vsel (vd va vb : VReg) (mk : MReg) : Statement (.vsel vd va vb mk) :=
  of_layout _ _ rfl (by decide) rfl <| cons (zero 6) (cons (zero 2) (cons (zero 4) (cons (mk.isLt) (cons (vb.isLt) (cons (va.isLt) (cons (vd.isLt) nil))))))
theorem vmov (vd va : VReg) (mk : MReg) : Statement (.vmov vd va mk) :=
  of_layout _ _ rfl (by decide) rfl <| cons (zero 6) (cons (zero 2) (cons (zero 4) (cons (mk.isLt) (cons (zero 11) (cons (va.isLt) (cons (vd.isLt) nil))))))
theorem vbcast (vd : VReg) (ra : SReg) (mk : MReg) (ty : ElemType) : Statement (.vbcast vd ra mk ty) :=
  of_layout _ _ rfl (by decide) rfl <| cons (zero 13) (cons (elem_type_code ty) (cons (mk.isLt) (cons (ra.isLt) (cons (zero 11) (cons (vd.isLt) nil)))))
theorem vext (va : VReg) (rd : SReg) (ty : ElemType) (j : BitVec 13) : Statement (.vext va rd ty j) :=
  of_layout _ _ rfl (by decide) rfl <| cons (j.isLt) (cons (elem_type_code ty) (cons (zero 4) (cons (rd.isLt) (cons (va.isLt) (cons (zero 11) nil)))))
theorem vins (vd : VReg) (ra : SReg) (ty : ElemType) (j : BitVec 13) : Statement (.vins vd ra ty j) :=
  of_layout _ _ rfl (by decide) rfl <| cons (j.isLt) (cons (elem_type_code ty) (cons (zero 4) (cons (ra.isLt) (cons (zero 11) (cons (vd.isLt) nil)))))
theorem vperm (vd va vb : VReg) (mk : MReg) : Statement (.vperm vd va vb mk) :=
  of_layout _ _ rfl (by decide) rfl <| cons (zero 6) (cons (zero 2) (cons (zero 4) (cons (mk.isLt) (cons (vb.isLt) (cons (va.isLt) (cons (vd.isLt) nil))))))
theorem vrot (vd va : VReg) (mk : MReg) (n6 : BitVec 6) : Statement (.vrot vd va mk n6) :=
  of_layout _ _ rfl (by decide) rfl <| cons (n6.isLt) (cons (zero 2) (cons (zero 4) (cons (mk.isLt) (cons (zero 11) (cons (va.isLt) (cons (vd.isLt) nil))))))
theorem viota (vd : VReg) (mk : MReg) (ty : ElemType) : Statement (.viota vd mk ty) :=
  of_layout _ _ rfl (by decide) rfl <| cons (zero 6) (cons (zero 2) (cons (elem_type_code ty) (cons (mk.isLt) (cons (zero 11) (cons (zero 11) (cons (vd.isLt) nil))))))
theorem vrsum (vd va : VReg) (mk : MReg) (ty : ElemType) (rm : Rounding) : Statement (.vrsum vd va mk ty rm) :=
  of_layout _ _ rfl (by decide) rfl <| cons (zero 6) (cons (rounding_code rm) (cons (elem_type_code ty) (cons (mk.isLt) (cons (zero 11) (cons (va.isLt) (cons (vd.isLt) nil))))))
theorem vrmax (vd va : VReg) (mk : MReg) (ty : ElemType) (rm : Rounding) : Statement (.vrmax vd va mk ty rm) :=
  of_layout _ _ rfl (by decide) rfl <| cons (zero 6) (cons (rounding_code rm) (cons (elem_type_code ty) (cons (mk.isLt) (cons (zero 11) (cons (va.isLt) (cons (vd.isLt) nil))))))
theorem vrmin (vd va : VReg) (mk : MReg) (ty : ElemType) (rm : Rounding) : Statement (.vrmin vd va mk ty rm) :=
  of_layout _ _ rfl (by decide) rfl <| cons (zero 6) (cons (rounding_code rm) (cons (elem_type_code ty) (cons (mk.isLt) (cons (zero 11) (cons (va.isLt) (cons (vd.isLt) nil))))))
theorem vscan (vd va : VReg) (mk : MReg) (ty : ElemType) (rm : Rounding) : Statement (.vscan vd va mk ty rm) :=
  of_layout _ _ rfl (by decide) rfl <| cons (zero 6) (cons (rounding_code rm) (cons (elem_type_code ty) (cons (mk.isLt) (cons (zero 11) (cons (va.isLt) (cons (vd.isLt) nil))))))
theorem vdiv (vd va vb : VReg) (mk : MReg) (ty : ElemType) (rm : Rounding) : Statement (.vdiv vd va vb mk ty rm) :=
  of_layout _ _ rfl (by decide) rfl <| cons (zero 6) (cons (rounding_code rm) (cons (elem_type_code ty) (cons (mk.isLt) (cons (vb.isLt) (cons (va.isLt) (cons (vd.isLt) nil))))))
theorem vsqrt (vd va : VReg) (mk : MReg) (ty : ElemType) (rm : Rounding) : Statement (.vsqrt vd va mk ty rm) :=
  of_layout _ _ rfl (by decide) rfl <| cons (zero 6) (cons (rounding_code rm) (cons (elem_type_code ty) (cons (mk.isLt) (cons (zero 11) (cons (va.isLt) (cons (vd.isLt) nil))))))
theorem vrcp (vd va : VReg) (mk : MReg) (ty : ElemType) (rm : Rounding) : Statement (.vrcp vd va mk ty rm) :=
  of_layout _ _ rfl (by decide) rfl <| cons (zero 6) (cons (rounding_code rm) (cons (elem_type_code ty) (cons (mk.isLt) (cons (zero 11) (cons (va.isLt) (cons (vd.isLt) nil))))))
theorem vrsqrt (vd va : VReg) (mk : MReg) (ty : ElemType) (rm : Rounding) : Statement (.vrsqrt vd va mk ty rm) :=
  of_layout _ _ rfl (by decide) rfl <| cons (zero 6) (cons (rounding_code rm) (cons (elem_type_code ty) (cons (mk.isLt) (cons (zero 11) (cons (va.isLt) (cons (vd.isLt) nil))))))
theorem vexp2 (vd va : VReg) (mk : MReg) (ty : ElemType) (rm : Rounding) : Statement (.vexp2 vd va mk ty rm) :=
  of_layout _ _ rfl (by decide) rfl <| cons (zero 6) (cons (rounding_code rm) (cons (elem_type_code ty) (cons (mk.isLt) (cons (zero 11) (cons (va.isLt) (cons (vd.isLt) nil))))))
theorem vlog2 (vd va : VReg) (mk : MReg) (ty : ElemType) (rm : Rounding) : Statement (.vlog2 vd va mk ty rm) :=
  of_layout _ _ rfl (by decide) rfl <| cons (zero 6) (cons (rounding_code rm) (cons (elem_type_code ty) (cons (mk.isLt) (cons (zero 11) (cons (va.isLt) (cons (vd.isLt) nil))))))
theorem vtanh (vd va : VReg) (mk : MReg) (ty : ElemType) (rm : Rounding) : Statement (.vtanh vd va mk ty rm) :=
  of_layout _ _ rfl (by decide) rfl <| cons (zero 6) (cons (rounding_code rm) (cons (elem_type_code ty) (cons (mk.isLt) (cons (zero 11) (cons (va.isLt) (cons (vd.isLt) nil))))))
theorem vrnd (vd va : VReg) (mk : MReg) (ty : ElemType) (rm : Rounding) : Statement (.vrnd vd va mk ty rm) :=
  of_layout _ _ rfl (by decide) rfl <| cons (zero 6) (cons (rounding_code rm) (cons (elem_type_code ty) (cons (mk.isLt) (cons (zero 11) (cons (va.isLt) (cons (vd.isLt) nil))))))
theorem mand (md ma mb : MReg) : Statement (.mand md ma mb) :=
  of_layout _ _ rfl (by decide) rfl <| cons (zero 6) (cons (zero 2) (cons (zero 4) (cons (zero 4) (cons (mb.isLt) (cons (zero 7) (cons (ma.isLt) (cons (zero 7) (cons (md.isLt) (cons (zero 7) nil)))))))))
theorem mor (md ma mb : MReg) : Statement (.mor md ma mb) :=
  of_layout _ _ rfl (by decide) rfl <| cons (zero 6) (cons (zero 2) (cons (zero 4) (cons (zero 4) (cons (mb.isLt) (cons (zero 7) (cons (ma.isLt) (cons (zero 7) (cons (md.isLt) (cons (zero 7) nil)))))))))
theorem mnot (md ma : MReg) : Statement (.mnot md ma) :=
  of_layout _ _ rfl (by decide) rfl <| cons (zero 6) (cons (zero 2) (cons (zero 4) (cons (zero 4) (cons (zero 11) (cons (ma.isLt) (cons (zero 7) (cons (md.isLt) (cons (zero 7) nil))))))))
theorem mpop (rd : SReg) (mk : MReg) (first : Bool) : Statement (.mpop rd mk first) :=
  of_layout _ _ rfl (by decide) rfl <| cons (flag first) (cons (zero 12) (cons (zero 4) (cons (mk.isLt) (cons (rd.isLt) (cons (zero 11) (cons (zero 11) nil))))))
theorem vadds (vd va : VReg) (ra : SReg) (mk : MReg) (ty : ElemType) : Statement (.vadds vd va ra mk ty) :=
  of_layout _ _ rfl (by decide) rfl <| cons (zero 13) (cons (elem_type_code ty) (cons (mk.isLt) (cons (ra.isLt) (cons (va.isLt) (cons (vd.isLt) nil)))))
theorem vmuls (vd va : VReg) (ra : SReg) (mk : MReg) (ty : ElemType) : Statement (.vmuls vd va ra mk ty) :=
  of_layout _ _ rfl (by decide) rfl <| cons (zero 13) (cons (elem_type_code ty) (cons (mk.isLt) (cons (ra.isLt) (cons (va.isLt) (cons (vd.isLt) nil)))))
theorem vcvt (vd va : VReg) (mk : MReg) (ty : ElemType) (rm : Rounding) (src : ElemType) : Statement (.vcvt vd va mk ty rm src) :=
  of_layout _ _ rfl (by decide) rfl <| cons (elem_type_code src) (cons (zero 2) (cons (rounding_code rm) (cons (elem_type_code ty) (cons (mk.isLt) (cons (zero 11) (cons (va.isLt) (cons (vd.isLt) nil)))))))
theorem vpack (vd va vb : VReg) (mk : MReg) (ty : ElemType) (rm : Rounding) (src : ElemType) : Statement (.vpack vd va vb mk ty rm src) :=
  of_layout _ _ rfl (by decide) rfl <| cons (elem_type_code src) (cons (zero 2) (cons (rounding_code rm) (cons (elem_type_code ty) (cons (mk.isLt) (cons (vb.isLt) (cons (va.isLt) (cons (vd.isLt) nil)))))))
theorem vunpk (vd va : VReg) (mk : MReg) (ty : ElemType) (rm : Rounding) (h : Bool) (src : ElemType) : Statement (.vunpk vd va mk ty rm h src) :=
  of_layout _ _ rfl (by decide) rfl <| cons (elem_type_code src) (cons (flag h) (cons (zero 1) (cons (rounding_code rm) (cons (elem_type_code ty) (cons (mk.isLt) (cons (zero 11) (cons (va.isLt) (cons (vd.isLt) nil))))))))
theorem vzenc (vd va : VReg) (mk : MReg) (ty : ElemType) (p2 : BitVec 2) : Statement (.vzenc vd va mk ty p2) :=
  of_layout _ _ rfl (by decide) rfl <| cons (p2.isLt) (cons (zero 4) (cons (zero 2) (cons (elem_type_code ty) (cons (mk.isLt) (cons (zero 11) (cons (va.isLt) (cons (vd.isLt) nil)))))))
theorem vzdec (vd va : VReg) (mk : MReg) (ty : ElemType) (rm : Rounding) (k6 : BitVec 6) : Statement (.vzdec vd va mk ty rm k6) :=
  of_layout _ _ rfl (by decide) rfl <| cons (k6.isLt) (cons (rounding_code rm) (cons (elem_type_code ty) (cons (mk.isLt) (cons (zero 11) (cons (va.isLt) (cons (vd.isLt) nil))))))
theorem vzmac (vd va vb : VReg) (mk : MReg) : Statement (.vzmac vd va vb mk) :=
  of_layout _ _ rfl (by decide) rfl <| cons (zero 6) (cons (zero 2) (cons (by decide) (cons (mk.isLt) (cons (vb.isLt) (cons (va.isLt) (cons (vd.isLt) nil))))))
theorem vzmul (vd va vb : VReg) (mk : MReg) : Statement (.vzmul vd va vb mk) :=
  of_layout _ _ rfl (by decide) rfl <| cons (zero 6) (cons (zero 2) (cons (by decide) (cons (mk.isLt) (cons (vb.isLt) (cons (va.isLt) (cons (vd.isLt) nil))))))
theorem vzadd (vd va vb : VReg) (mk : MReg) : Statement (.vzadd vd va vb mk) :=
  of_layout _ _ rfl (by decide) rfl <| cons (zero 6) (cons (zero 2) (cons (by decide) (cons (mk.isLt) (cons (vb.isLt) (cons (va.isLt) (cons (vd.isLt) nil))))))
theorem vscale (vd va vb : VReg) (mk : MReg) (ty : ElemType) (rm : Rounding) : Statement (.vscale vd va vb mk ty rm) :=
  of_layout _ _ rfl (by decide) rfl <| cons (zero 6) (cons (rounding_code rm) (cons (elem_type_code ty) (cons (mk.isLt) (cons (vb.isLt) (cons (va.isLt) (cons (vd.isLt) nil))))))
theorem vquant (vd va vb : VReg) (mk : MReg) (rm : Rounding) (rn4 : Bool) (p3 : BitVec 3) : Statement (.vquant vd va vb mk rm rn4 p3) :=
  of_layout _ _ rfl (by decide) rfl <| cons (p3.isLt) (cons (zero 2) (cons (flag rn4) (cons (rounding_code rm) (cons (by decide) (cons (mk.isLt) (cons (vb.isLt) (cons (va.isLt) (cons (vd.isLt) nil))))))))
theorem vochk (md : MReg) (va vb : VReg) (mk : MReg) (rn4 : Bool) : Statement (.vochk md va vb mk rn4) :=
  of_layout _ _ rfl (by decide) rfl <| cons (zero 5) (cons (flag rn4) (cons (zero 2) (cons (by decide) (cons (mk.isLt) (cons (vb.isLt) (cons (va.isLt) (cons (md.isLt) (cons (zero 7) nil))))))))
theorem vcomp (vd va : VReg) (mk : MReg) : Statement (.vcomp vd va mk) :=
  of_layout _ _ rfl (by decide) rfl <| cons (zero 6) (cons (zero 2) (cons (zero 4) (cons (mk.isLt) (cons (zero 11) (cons (va.isLt) (cons (vd.isLt) nil))))))
theorem mop (n : BitVec 4) (vd va vb : VReg) (mk : MReg) (ra : SReg) (imm6 : BitVec 6) : Statement (.mop n vd va vb mk ra imm6) :=
  of_layout _ _ rfl (by have := n.isLt; omega) rfl <| cons (imm6.isLt) (cons (ra.isLt) (cons (mk.isLt) (cons (vb.isLt) (cons (va.isLt) (cons (vd.isLt) nil)))))
theorem csload (ra : SReg) (slot : BitVec 4) : Statement (.csload ra slot) :=
  of_layout _ _ rfl (by decide) rfl <| cons (slot.isLt) (cons (zero 21) (cons (zero 6) (cons (zero 6) (cons (ra.isLt) (cons (zero 6) nil)))))
theorem csunbind (slot : BitVec 4) : Statement (.csunbind slot) :=
  of_layout _ _ rfl (by decide) rfl <| cons (slot.isLt) (cons (zero 21) (cons (zero 6) (cons (zero 6) (cons (zero 6) (cons (zero 6) nil)))))
theorem trap (n16 : BitVec 16) : Statement (.trap n16) :=
  of_layout _ _ rfl (by decide) rfl <| cons (n16.isLt) (cons (zero 9) (cons (zero 6) (cons (zero 6) (cons (zero 6) (cons (zero 6) nil)))))
theorem eret : Statement .eret :=
  of_layout _ _ rfl (by decide) rfl <| cons (zero 25) (cons (zero 6) (cons (zero 6) (cons (zero 6) (cons (zero 6) nil))))
theorem bkpt (n16 : BitVec 16) : Statement (.bkpt n16) :=
  of_layout _ _ rfl (by decide) rfl <| cons (n16.isLt) (cons (zero 9) (cons (zero 6) (cons (zero 6) (cons (zero 6) (cons (zero 6) nil)))))
theorem rdcyc (rd : SReg) : Statement (.rdcyc rd) :=
  of_layout _ _ rfl (by decide) rfl <| cons (zero 25) (cons (zero 6) (cons (zero 6) (cons (zero 6) (cons (rd.isLt) nil))))
theorem rdtime (rd : SReg) : Statement (.rdtime rd) :=
  of_layout _ _ rfl (by decide) rfl <| cons (zero 25) (cons (zero 6) (cons (zero 6) (cons (zero 6) (cons (rd.isLt) nil))))
theorem tlbinv (ra rb : SReg) (kind : InvKind) : Statement (.tlbinv ra rb kind) :=
  of_layout _ _ rfl (by decide) rfl <| cons (inv_kind_code kind) (cons (zero 23) (cons (zero 6) (cons (rb.isLt) (cons (ra.isLt) (cons (zero 6) nil)))))
theorem dharv (rd ra : SReg) : Statement (.dharv rd ra) :=
  of_layout _ _ rfl (by decide) rfl <| cons (zero 25) (cons (zero 6) (cons (zero 6) (cons (ra.isLt) (cons (rd.isLt) nil))))
theorem ctxsave (rd ra rb rc : SReg) (smode : SaveMode) : Statement (.ctxsave rd ra rb rc smode) :=
  of_layout _ _ rfl (by decide) rfl <| cons (save_mode_code smode) (cons (zero 23) (cons (rc.isLt) (cons (rb.isLt) (cons (ra.isLt) (cons (rd.isLt) nil)))))
theorem ctxload (rd ra : SReg) : Statement (.ctxload rd ra) :=
  of_layout _ _ rfl (by decide) rfl <| cons (zero 25) (cons (zero 6) (cons (zero 6) (cons (ra.isLt) (cons (rd.isLt) nil))))

/-! ### Events -/

theorem yieldPauseEnd (core : Nat) (cl : Cluster) : Statement (.yieldPauseEnd core cl) := of_none rfl
theorem loadCompletion (core : Nat) (cl : Cluster) : Statement (.loadCompletion core cl) := of_none rfl
theorem rofaddArrival (place : Nat) : Statement (.rofaddArrival place) := of_none rfl
theorem rofaddResend (place : Nat) : Statement (.rofaddResend place) := of_none rfl
theorem orderedGapTimeout (pair : Nat) : Statement (.orderedGapTimeout pair) := of_none rfl
theorem monitorFire (core : Nat) (cl : Cluster) : Statement (.monitorFire core cl) := of_none rfl
theorem mmaCommand (core : Nat) : Statement (.mmaCommand core) := of_none rfl
theorem mretCommand (core : Nat) : Statement (.mretCommand core) := of_none rfl
theorem mzeroCommand (core : Nat) : Statement (.mzeroCommand core) := of_none rfl
theorem cpinCommand (core : Nat) : Statement (.cpinCommand core) := of_none rfl
theorem cpstrCommand (core : Nat) : Statement (.cpstrCommand core) := of_none rfl
theorem cpoutCommand (core : Nat) : Statement (.cpoutCommand core) := of_none rfl
theorem cpredCommand (core : Nat) : Statement (.cpredCommand core) := of_none rfl
theorem gathCommand (core : Nat) : Statement (.gathCommand core) := of_none rfl
theorem topkCommand (core : Nat) : Statement (.topkCommand core) := of_none rfl
theorem gfenceCommand (core : Nat) (eng : Engine) : Statement (.gfenceCommand core eng) := of_none rfl
theorem notifyCommand (core : Nat) (eng : Engine) : Statement (.notifyCommand core eng) := of_none rfl
theorem commandRetirement (core : Nat) (eng : Engine) : Statement (.commandRetirement core eng) := of_none rfl
theorem leaseRearbitration (quad : Nat) : Statement (.leaseRearbitration quad) := of_none rfl
theorem rendezvous (core : Nat) : Statement (.rendezvous core) := of_none rfl
theorem blockedWaitResume (core : Nat) (cl : Cluster) : Statement (.blockedWaitResume core cl) := of_none rfl
theorem stallWatchdog (core : Nat) : Statement (.stallWatchdog core) := of_none rfl
theorem frameTaken (core : Nat) : Statement (.frameTaken core) := of_none rfl
theorem doubleFaultRestart (core : Nat) : Statement (.doubleFaultRestart core) := of_none rfl
theorem correctedError (site : ErrorSite) : Statement (.correctedError site) := of_none rfl
theorem selfTestComplete (site : ErrorSite) (result : SelfTest) : Statement (.selfTestComplete site result) := of_none rfl
theorem uncorrectableError (site : ErrorSite) : Statement (.uncorrectableError site) := of_none rfl
theorem eventRecordWrite (place : Nat) : Statement (.eventRecordWrite place) := of_none rfl
theorem fenceModeBoundary (core : Nat) : Statement (.fenceModeBoundary core) := of_none rfl
theorem fenceModeTimeout (core : Nat) : Statement (.fenceModeTimeout core) := of_none rfl
theorem imageSaveComplete (core : Nat) : Statement (.imageSaveComplete core) := of_none rfl
theorem immediateSave (polder : Nat) (by_ : Writer) : Statement (.immediateSave polder by_) := of_none rfl
theorem fenceSave (polder : Nat) (by_ : Writer) : Statement (.fenceSave polder by_) := of_none rfl
theorem resume (polder : Nat) (by_ : Writer) : Statement (.resume polder by_) := of_none rfl
theorem kill (polder : Nat) (by_ : Writer) : Statement (.kill polder by_) := of_none rfl
theorem contextRemoval (core : Nat) (why : RemovalCause) : Statement (.contextRemoval core why) := of_none rfl
theorem lqctlWrite (vf : Nat) (value : Word) : Statement (.lqctlWrite vf value) := of_none rfl
theorem doorbell (vf : Nat) (value : Half) : Statement (.doorbell vf value) := of_none rfl
theorem launcherRecordRead (polder : Nat) : Statement (.launcherRecordRead polder) := of_none rfl
theorem iterationStart (core : Nat) : Statement (.iterationStart core) := of_none rfl
theorem iterationEnd (core : Nat) : Statement (.iterationEnd core) := of_none rfl
theorem pureLookup (uid : Nat) : Statement (.pureLookup uid) := of_none rfl
theorem hitCopyComplete (uid : Nat) : Statement (.hitCopyComplete uid) := of_none rfl
theorem basinInsertion (uid : Nat) : Statement (.basinInsertion uid) := of_none rfl
theorem keyInstall (polder : Nat) (by_ : Writer) (value : Word) : Statement (.keyInstall polder by_ value) := of_none rfl
theorem basinClear (polder : Nat) (by_ : Writer) : Statement (.basinClear polder by_) := of_none rfl
theorem basinEnable (polder : Nat) (by_ : Writer) (enable : Bool) : Statement (.basinEnable polder by_ enable) := of_none rfl
theorem codeRemapWrite (polder : Nat) (by_ : Writer) (off : Nat) (value : Word) : Statement (.codeRemapWrite polder by_ off value) := of_none rfl
theorem functionLevelReset (polder : Nat) : Statement (.functionLevelReset polder) := of_none rfl
theorem flrDrainTimeout (polder : Nat) : Statement (.flrDrainTimeout polder) := of_none rfl
theorem flrComplete (polder : Nat) : Statement (.flrComplete polder) := of_none rfl
theorem hostBar2Access (vf off : Nat) (bytes : Nat) (write : Option (List Byte)) : Statement (.hostBar2Access vf off bytes write) := of_none rfl
theorem hostFetchadd (vf off : Nat) (wide : Bool) (value : Word) : Statement (.hostFetchadd vf off wide value) := of_none rfl
theorem hostSwap (vf off : Nat) (wide : Bool) (value : Word) : Statement (.hostSwap vf off wide value) := of_none rfl
theorem hostCas (vf off : Nat) (wide : Bool) (compare value : Word) : Statement (.hostCas vf off wide compare value) := of_none rfl
theorem evctlWrite (vf : Nat) (value : Word) : Statement (.evctlWrite vf value) := of_none rfl
theorem peerRequest (request : PeerRequest) : Statement (.peerRequest request) := of_none rfl
theorem peerResponse (place : Nat) (answer : PeerAnswer) : Statement (.peerResponse place answer) := of_none rfl
theorem peerTimeout (place : Nat) : Statement (.peerTimeout place) := of_none rfl
theorem flitReplay (port : Nat) : Statement (.flitReplay port) := of_none rfl
theorem tokenRefill : Statement .tokenRefill := of_none rfl
theorem powerOn : Statement .powerOn := of_none rfl
theorem deviceReset : Statement .deviceReset := of_none rfl
theorem firmwareFetchRetry (result : FirmwareFetch) : Statement (.firmwareFetchRetry result) := of_none rfl
theorem clockThrottle : Statement .clockThrottle := of_none rfl
theorem clockRestore : Statement .clockRestore := of_none rfl
theorem syncMessage (offset : Int) (tai : Word) : Statement (.syncMessage offset tai) := of_none rfl
theorem timeLockLoss : Statement .timeLockLoss := of_none rfl
theorem attestationRequest : Statement .attestationRequest := of_none rfl
theorem attestationReportWritten : Statement .attestationReportWritten := of_none rfl
theorem registerWrite (by_ : Writer) (block : RegBlock) (off : Nat) (value : Word) : Statement (.registerWrite by_ block off value) := of_none rfl
theorem eviction (core line : Nat) : Statement (.eviction core line) := of_none rfl
theorem imageLoadComplete (core : Nat) : Statement (.imageLoadComplete core) := of_none rfl
theorem junctionTemperatureMachineCheck : Statement .junctionTemperatureMachineCheck := of_none rfl
theorem bootComplete (config : BootConfig) : Statement (.bootComplete config) := of_none rfl
theorem pcoreWrite (polder : Nat) (by_ : Writer) (k : Nat) (value : Word) : Statement (.pcoreWrite polder by_ k value) := of_none rfl

end Sys2Proof.Laws.Fits
end

