-- ==== Sys2Proof/Laws/Reads.lean ====
section
/-!
SUPPORT. What a read of bytes on ordinary pages gives (R161, R354 to R356): every byte where its page places it, and nothing
but the reader's TLB changed. Memories in canonical form that read alike are equal, so the image of such bytes is known.
-/

namespace Sys2Proof.Machine

/-! ### Sparse tables that read alike -/

theorem sget_head {α : Type} [DecidableEq α] {d : α} {lo k : Nat} {v : α} {m : Sparse α}
    (h : swfFrom d lo ((k, v) :: m) = true) : sget d ((k, v) :: m) k ≠ d := by
  simp only [swfFrom, Bool.and_eq_true, decide_eq_true_eq] at h
  simpa [sget] using h.1.2

/-- Two tables in canonical form that hold the same at every key are equal. -/
theorem sparse_ext {α : Type} [DecidableEq α] (d : α) : ∀ (lo : Nat) (m m' : Sparse α), swfFrom d lo m = true → swfFrom d lo m' = true →
    (∀ j, sget d m j = sget d m' j) → m = m'
  | _, [], [], _, _, _ => rfl
  | _, [], (k, v) :: m, _, h', e => absurd (e k).symm (sget_head h')
  | _, (k, v) :: m, [], h, _, e => absurd (e k) (sget_head h)
  | lo, (k, v) :: m, (k', v') :: m', h, h', e => by
    have hk := sget_head h
    have hk' := sget_head h'
    have h0 := h
    have h0' := h'
    simp only [swfFrom, Bool.and_eq_true, decide_eq_true_eq] at h h'
    have key : k = k' := by
      rcases Nat.lt_trichotomy k k' with c | c | c
      · refine absurd ?_ hk
        rw [e k]
        simp [sget, c, Nat.ne_of_lt c]
      · exact c
      · refine absurd ?_ hk'
        rw [← e k']
        simp [sget, c, Nat.ne_of_lt c]
    subst key
    have val : v = v' := by simpa [sget] using e k
    subst val
    congr 1
    refine sparse_ext d (k + 1) m m' h.2 h'.2 fun j => ?_
    rcases Nat.lt_trichotomy j k with c | c | c
    · rw [sget_below d (k + 1) m j (swfFrom_rising _ _ _ h.2) (by omega), sget_below d (k + 1) m' j (swfFrom_rising _ _ _ h'.2) (by omega)]
    · subst c
      rw [sget_below d (j + 1) m j (swfFrom_rising _ _ _ h.2) (by omega), sget_below d (j + 1) m' j (swfFrom_rising _ _ _ h'.2) (by omega)]
    · have := e j
      have n1 : j ≠ k := by omega
      have n2 : ¬ j < k := by omega
      simpa [sget, n1, n2] using this

/-- The image of bytes is a memory in canonical form that reads as they do. -/
theorem imageOf_eq {bytes : List Byte} {m : Memory} (hm : Memory.wf m = true)
    (h : ∀ j, j < bytes.length → bytes.getD j 0 = rdByte m j) (h0 : ∀ j, bytes.length ≤ j → rdByte m j = 0) : imageOf bytes = m := by
  refine sparse_ext (0 : Byte) 0 _ _ (wrBytes_wf [] 0 bytes rfl) hm fun j => ?_
  have e := rdByte_wrBytes bytes [] 0 j rfl
  simp only [Nat.zero_add, Nat.zero_le, true_and, Nat.sub_zero] at e
  refine e.trans ?_
  split
  · next c => exact h j c
  · next c => exact (h0 j (by omega)).symm

/-! ### Addresses of an access -/

theorem vaBytes_length (va : Word) (n : Nat) : (vaBytes va n).length = n := by
  induction n generalizing va with
  | zero => rfl
  | succ n ih => simp [vaBytes, ih]

theorem vaBytes_getElem (va : Word) (n i : Nat) (h : i < (vaBytes va n).length) : (vaBytes va n)[i] = va + BitVec.ofNat 64 i := by
  induction n generalizing va i with
  | zero => simp [vaBytes] at h
  | succ n ih =>
    cases i with
    | zero => simp [vaBytes]
    | succ i =>
      simp only [vaBytes, List.getElem_cons_succ, ih]
      rw [BitVec.add_assoc, Nat.add_comm i 1, BitVec.ofNat_add]
      rfl

/-- The addresses of an access that stays below the end of the address space. -/
theorem mem_vaBytes {va a : Word} {n : Nat} (h : va.toNat + n < 2 ^ 64) (ha : a ∈ vaBytes va n) :
    va.toNat ≤ a.toNat ∧ a.toNat < va.toNat + n := by
  obtain ⟨i, hi, rfl⟩ := List.mem_iff_getElem.mp ha
  rw [vaBytes_length] at hi
  rw [vaBytes_getElem, BitVec.toNat_add, BitVec.toNat_ofNat, Nat.mod_eq_of_lt (by omega : i < 2 ^ 64), Nat.mod_eq_of_lt (by omega)]
  omega

/-! ### Bytes on ordinary pages -/

/-- The byte at an address below the windows is translated to a byte of the device's memory on a hardware-coherent page. -/
structure Reads (s : State) (ag : Agent) (acc : Accept) (va : Word) (pa : Nat) : Prop where
  region : regionOf va = .translated
  place  : s.locTranslated ag .read acc va none = .ok ⟨.hbm pa, .hc, none⟩

/-- What the controllers count is no part of a walk. -/
theorem walkFrom_touched (s : State) (T : Sparse Nat) (p : Polder) (secure : Bool) (kind : AccKind) (va : Word) :
    ∀ (ls : List (Nat × Nat × Nat)) (table : Nat),
      walkFrom { s with touched := T } p secure kind va ls table = walkFrom s p secure kind va ls table
  | [], _ => rfl
  | (level, lo, w) :: ls, table => by
    simp only [walkFrom, walkFrom_touched s T p secure kind va ls]
    rfl

/-- Nor of where a byte lies. -/
theorem Reads.touched {s : State} {ag : Agent} {acc : Accept} {va : Word} {pa : Nat} (h : Reads s ag acc va pa) (T : Sparse Nat) :
    Reads { s with touched := T } ag acc va pa := by
  have e : ({ s with touched := T } : State).locTranslated ag .read acc va none = s.locTranslated ag .read acc va none := by
    simp only [State.locTranslated, State.leaf, State.walkOf, State.walk, walkFrom_touched]
    rfl
  exact ⟨h.region, e.trans h.place⟩

theorem firstErr_none {α : Type} {f : α → Option AccErr} : ∀ {l : List α}, (∀ a ∈ l, f a = none) → firstErr f l = none
  | [], _ => rfl
  | a :: l, h => by
    rw [firstErr, h a (List.mem_cons_self ..)]
    exact firstErr_none fun b hb => h b (List.mem_cons_of_mem _ hb)

theorem zip_map_self {α β : Type} (g : α → β) : ∀ l : List α, l.zip (l.map g) = l.map fun a => (a, g a)
  | [] => rfl
  | a :: l => by simp [zip_map_self g l]

theorem foldl_same {α β : Type} {f : β → α → β} {l : List α} {s : β} (h : ∀ a ∈ l, f s a = s) : l.foldl f s = s := by
  induction l with
  | nil => rfl
  | cons a l ih =>
    rw [List.foldl_cons, h a (List.mem_cons_self ..)]
    exact ih fun b hb => h b (List.mem_cons_of_mem _ hb)

namespace Reads

variable {s : State} {ag : Agent} {acc : Accept} {va : Word} {pa : Nat}

theorem padOf (h : Reads s ag acc va pa) : s.padOf ag va = none := by simp [State.padOf, h.region]
theorem stashOf (h : Reads s ag acc va pa) : s.stashOf ag va = none := by simp [State.stashOf, h.padOf]
theorem locate (h : Reads s ag acc va pa) : s.locate ag .read acc va = .ok ⟨.hbm pa, .hc, none⟩ := by
  simp [State.locate, h.stashOf, h.padOf, h.place]

end Reads

theorem locateAll_reads {s : State} {ag : Agent} {acc : Accept} {f : Word → Nat} :
    ∀ {vas : List Word}, (∀ va ∈ vas, Reads s ag acc va (f va)) →
      s.locateAll ag .read acc vas = .ok (vas.map fun va => ⟨.hbm (f va), .hc, none⟩)
  | [], _ => rfl
  | a :: l, h => by
    simp only [State.locateAll, (h a (List.mem_cons_self ..)).locate, locateAll_reads fun b hb => h b (List.mem_cons_of_mem _ hb),
      List.map_cons]

theorem checkAccess_reads {s : State} {ag : Agent} {acc : Accept} {f : Word → Nat} {vas : List Word} (hp : ag.pure = none)
    (h : ∀ va ∈ vas, Reads s ag acc va (f va)) :
    s.checkAccess ag .read acc vas = .ok (vas.map fun va => ⟨.hbm (f va), .hc, none⟩) := by
  have c1 : firstErr (checkCanonical .read) vas = none := firstErr_none fun a ha => by simp [checkCanonical, (h a ha).region]
  have c2 : firstErr (checkHalf ag) vas = none := firstErr_none fun a ha => by simp [checkHalf, (h a ha).region]
  have c3 : firstErr (s.checkWindow ag .read) vas = none := firstErr_none fun a ha => by simp [State.checkWindow, (h a ha).region]
  have c4 : firstErr (s.checkPure ag .read) vas = none := firstErr_none fun a _ => by simp [State.checkPure, hp]
  have c5 : firstErr (s.stashErr ag) (vas.zip (vas.map fun va => (⟨.hbm (f va), .hc, none⟩ : Loc))) = none := by
    refine firstErr_none fun x hx => ?_
    rw [zip_map_self] at hx
    obtain ⟨a, -, rfl⟩ := List.mem_map.mp hx
    rfl
  simp only [State.checkAccess, State.checkEarly, c1, c2, c3, c4, locateAll_reads h, c5]

/-- A byte of an ordinary page is held in no L1 copy. -/
theorem lineOf_hc (ag : Agent) (pl : Place) : lineOf ag ⟨pl, .hc, none⟩ = none := by
  simp only [lineOf]
  split <;> simp_all

theorem poisonErr_none {s : State} {ag : Agent} {f : Word → Nat} (h1 : s.poison = []) (h2 : s.l1Poison = [])
    (h3 : s.l2Poison = []) :
    ∀ l : List Word, s.poisonErr ag (l.map fun va => (va, (⟨.hbm (f va), .hc, none⟩ : Loc))) = none
  | [] => rfl
  | a :: l => by
    have d : s.deliveryOf ag a ⟨.hbm (f a), .hc, none⟩ = ⟨.hbm (f a), .hc, none⟩ := by
      simp [State.deliveryOf, stashPlace]
    have e : s.poisonAt ag ⟨.hbm (f a), .hc, none⟩ = none := by
      cases hc : ag.core <;> simp [State.poisonAt, State.homePoison, lineOf_hc, h1, h2, h3, hc, sget]
    simp only [List.map_cons, State.poisonErr, d, e, poisonErr_none h1 h2 h3 l]

theorem peerRuns_none {l : List (Nat × Word × Loc × Byte)} (h : ∀ x ∈ l, ∃ pa, x.2.2.1.place = .hbm pa) : peerRuns l = [] := by
  induction l with
  | nil => rfl
  | cons x l ih =>
    obtain ⟨i, va, p, b⟩ := x
    obtain ⟨pa, e⟩ := h _ (List.mem_cons_self ..)
    simp only at e
    simp only [peerRuns, e, ih fun y hy => h y (List.mem_cons_of_mem _ hy)]

/-- A byte of an ordinary page is held in no L2 copy. -/
theorem l2KeyOf_hc (ag : Agent) (pl : Place) : l2KeyOf ag ⟨pl, .hc, none⟩ = none := by
  simp only [l2KeyOf]
  split <;> simp_all

/-- What an agent sees of a byte of an ordinary page where no write of its core is outstanding. -/
theorem see_calm {s : State} {ag : Agent} (h : ∀ c, ag.core = some c → (s.core c).posted = []) (pl : Place) :
    s.see ag [] ⟨pl, .hc, none⟩ = s.peek pl := by
  have hk : s.copyByte ag ⟨pl, .hc, none⟩ = none := by simp [State.copyByte, lineOf_hc, l2KeyOf_hc]
  cases hc : ag.core with
  | none => simp [State.see, lastByte, hk, hc]
  | some c => simp [State.see, lastByte, hk, hc, h c hc]

/-- Where no core's piece reaches beyond it, an access finds none to land. -/
theorem landReaching_none {s : State} (h : s.cores.toList.any Core.reaches = false) (ag : Agent) (ps : List Place) :
    s.landReaching ag ps = s := by simp [State.landReaching, h]

/-- What a read of bytes on ordinary pages asks of the machine: no poison anywhere, no write of the reader's core outstanding, no
piece of another core that reaches it, and no row under self-test that it could meet. -/
structure Quiet (s : State) (ag : Agent) : Prop where
  clean   : s.poison = []
  cleanL1 : s.l1Poison = []
  cleanL2 : s.l2Poison = []
  posted  : ∀ c, ag.core = some c → (s.core c).posted = []
  held    : s.ownHeld ag = []
  near    : s.cores.toList.any Core.reaches = false
  rows    : s.fenced = [] ∨ ag.who = none

/-- What the controllers count does not matter to that. -/
theorem Quiet.touched {s : State} {ag : Agent} (q : Quiet s ag) (T : Sparse Nat) : Quiet { s with touched := T } ag :=
  ⟨q.clean, q.cleanL1, q.cleanL2, q.posted, q.held, q.near, q.rows⟩

/-- A read of bytes on ordinary pages: every byte as memory holds it, and only the TLBs, and what the controllers count, changed. -/
theorem load_reads {s : State} {ag : Agent} {acc : Accept} {ev : Evict} {f : Word → Nat} {vas : List Word} (hp : ag.pure = none)
    (q : Quiet s ag) (h : ∀ va ∈ vas, Reads s ag acc va (f va)) :
    s.load ag acc ev vas = .ok ((s.fillTlbs ag .read vas).touch (vas.map f)) (vas.map fun va => rdByte s.mem (f va)) [] := by
  let L : Word → Loc := fun va => ⟨.hbm (f va), .hc, none⟩
  have hline : ∀ va, lineOf ag (L va) = none := fun va => lineOf_hc ag _
  have hb : s.boarded (vas.map L) = none := by
    rw [State.boarded, List.findSome?_eq_none_iff]
    intro l hl
    obtain ⟨a, -, rfl⟩ := List.mem_map.mp hl
    rfl
  have hfill : ∀ va, s.fillStash ag (L va) = s := fun va => by
    cases hc : ag.core <;> simp [State.fillStash, L, hc]
  have hf : (vas.map L).foldl (fun st l => st.fillStash ag l) s = s := by
    refine foldl_same fun l hl => ?_
    obtain ⟨a, -, rfl⟩ := List.mem_map.mp hl
    exact hfill a
  have hs : ((vas.zip (vas.map L)).map fun x => stashPlace ag x.1 x.2 s) = vas.map L := by
    rw [zip_map_self, List.map_map]
    exact List.map_congr_left fun a _ => rfl
  have hr : (vas.map L).map (s.readLoc ag) = vas.map fun va => rdByte s.mem (f va) := by
    rw [List.map_map]
    refine List.map_congr_left fun a _ => ?_
    simp only [Function.comp, State.readLoc, q.held]
    exact see_calm q.posted _
  have ha : s.allocLines ag (ev == .noAlloc) (vas.map L) = s := by
    unfold State.allocLines
    split
    · rfl
    · refine foldl_same fun l hl => ?_
      obtain ⟨a, -, rfl⟩ := List.mem_map.mp hl
      simp only [hline a]
  have hfence : s.fencedAt ag (vas.map L) = none := by
    unfold State.fencedAt
    rcases q.rows with r | r <;> simp [r]
  have hstall : s.stall ag (vas.map L) = none := by
    have e : (if ag.cl.isSome then s.boarded (vas.map L) else none) = none := by rw [hb]; split <;> rfl
    simp only [State.stall, e, hfence, Option.map_none]
  have hpo : s.poisonErr ag (vas.zip (vas.map L)) = none := by
    rw [zip_map_self]
    exact poisonErr_none q.clean q.cleanL1 q.cleanL2 vas
  have hplaces : hbmOf ((vas.map L).map (·.place)) = vas.map f := by
    simp [hbmOf, L, List.filterMap_map, Function.comp_def]
  have hruns : peerRuns ((enumFrom0 (vas.zip ((vas.map L).zip (vas.map fun va => rdByte s.mem (f va))))).map
      fun x => (x.1, x.2.1, x.2.2.1, x.2.2.2)) = [] := by
    refine peerRuns_none fun x hx => ?_
    obtain ⟨⟨i, v, l, b⟩, hy, rfl⟩ := List.mem_map.mp hx
    obtain ⟨⟨⟨v', l', b'⟩, i'⟩, hz, he⟩ := List.mem_map.mp (show _ ∈ List.map _ _ from hy)
    simp only [Prod.mk.injEq] at he
    obtain ⟨rfl, rfl, rfl, rfl⟩ := he
    have hm := List.mem_zipIdx hz
    have hin : (v', l', b') ∈ vas.zip ((vas.map L).zip (vas.map fun va => rdByte s.mem (f va))) := by
      rw [hm.2.2]; exact List.getElem_mem _
    have hl : l' ∈ vas.map L := (List.of_mem_zip (List.of_mem_zip hin).2).1
    obtain ⟨a, -, rfl⟩ := List.mem_map.mp hl
    exact ⟨_, rfl⟩
  have hc : s.checkAccess ag .read acc vas = .ok (vas.map L) := checkAccess_reads hp h
  simp only [State.load, hc, hpo, hstall, landReaching_none q.near, hf, hs, hr, ha, hplaces, hruns]

theorem fillTlbs_unit {s : State} {ag : Agent} {kind : AccKind} (h : ag.core = none) : ∀ l : List Word, s.fillTlbs ag kind l = s
  | [] => rfl
  | a :: l => by
    have e : ∀ va, s.fillTlb ag kind va = s := fun va => by simp [State.fillTlb, h]
    rw [State.fillTlbs, e, fillTlbs_unit h l]

/-- What a unit that is on no core reads on ordinary pages, nothing of a peer's awaited. -/
theorem unitRead_reads {s : State} {n : Nat} {ag : Agent} {f : Word → Nat} {vas : List Word} (hp : ag.pure = none)
    (hc : ag.core = none) (q : Quiet s ag) (h3 : (s.polder n).fetched = []) (h : ∀ va ∈ vas, Reads s ag .any va (f va)) :
    s.unitRead n ag vas = .bytes (s.touch (vas.map f)) (vas.map fun va => rdByte s.mem (f va)) := by
  have hpatch : patchBytes [] vas (vas.map fun va => rdByte s.mem (f va)) = vas.map fun va => rdByte s.mem (f va) := by
    rw [patchBytes, zip_map_self, List.map_map]
    exact List.map_congr_left fun a _ => rfl
  simp only [State.unitRead, load_reads hp q h, fillTlbs_unit hc, h3, hpatch]
  rfl

/-! ### The walk -/

/-- An address with the indexes of another, down to the leaf that the other finds, finds it too (R354). -/
theorem walkFrom_same {s : State} {p : Polder} {secure : Bool} {kind : AccKind} {va va' : Word}
    {more : List (Nat × Nat × Nat)} : ∀ {ls : List (Nat × Nat × Nat)} {table : Nat} {x : Word × Nat × List Nat}, (∀ l ∈ ls, va'.toNat / 2 ^ l.2.1 % 2 ^ l.2.2 = va.toNat / 2 ^ l.2.1 % 2 ^ l.2.2) →
      walkFrom s p secure kind va ls table = .ok x → walkFrom s p secure kind va' (ls ++ more) table = .ok x
  | [], _, _, _, h => by simp [walkFrom] at h
  | (level, lo, w) :: ls, table, x, hi, h => by
    have e := hi _ (List.mem_cons_self ..)
    simp only at e
    have ih := fun t x => walkFrom_same (s := s) (p := p) (secure := secure) (kind := kind) (more := more) (table := t) (x := x)
      fun l hl => hi l (List.mem_cons_of_mem _ hl)
    simp only [walkFrom, List.cons_append, e] at h ⊢
    split at h
    · cases h
    · next c1 =>
      rw [if_neg c1]
      split at h
      · cases h
      · next c2 =>
        rw [if_neg c2]
        split at h
        · cases h
        · next c3 =>
          rw [if_neg c3]
          split at h
          · cases h
          · next c4 =>
            rw [if_neg c4]
            split at h
            · next c5 =>
              rw [if_pos c5]
              split at h
              · cases h
              · next c6 => rw [if_neg c6]; exact h
            · next c5 =>
              rw [if_neg c5]
              split at h
              · cases h
              · next c6 =>
                rw [if_neg c6]
                revert h
                generalize hw : walkFrom s p secure kind va ls _ = r
                intro h
                cases r with
                | error _ => cases h
                | ok y =>
                  rw [ih _ y hw]
                  exact h

end Sys2Proof.Machine
end

