-- ==== Sys2Proof/Laws/Results.lean ====
section
/-!
SUPPORT. What completing a bundle leaves, after a result in the executing cluster's registers: one lemma a shape of
result, in the words of the statements (`Says.WroteScalar` and its like).
-/

namespace Sys2Proof.Machine

open Says

/-- Bytes read the same where the three memories are the same. -/
theorem peek_congr (s t : State) (hm : t.mem = s.mem) (hh : t.hostMem = s.hostMem)
    (hc : ∀ c, (t.core c).loc.scratch = (s.core c).loc.scratch) : SameBytes s t := by
  intro pl
  cases pl <;> simp [State.peek, hm, hh, hc]

/-- A change of the executing cluster alone. -/
theorem onlyCluster_setMe (s : State) (q : ClusterState) : OnlyCluster s (s.setMe q).markDone where
  actor := rfl
  others := fun c h => core_setHere_other s _ c h
  rest := by simp [State.markDone, State.setMe, State.setCl, State.setCore]
  clusters := fun x h => by
    rw [here_markDone, here_setMe]
    exact cl_setCl_other _ _ _ _ h
  core := by
    rw [here_markDone, here_setMe]
    rfl
  bytes := by
    apply peek_congr <;> try rfl
    intro c
    by_cases h : c = s.actor.core
    · subst h
      show ((s.setMe q).here).loc.scratch = _
      rw [here_setMe]
      rfl
    · show ((s.setMe q).core c).loc.scratch = _
      rw [show (s.setMe q).core c = s.core c from core_setHere_other s _ c h]

theorem setS_complete (s : State) (rd : SReg) (v : Word) :
    (s.setS rd v).complete = (s.setMe ((s.me.setS rd v).complete)).markDone := by
  show ((s.setMe (s.me.setS rd v)).setMe ((s.setMe (s.me.setS rd v)).me.complete)).markDone = _
  rw [setMe_setMe, me_setMe]

theorem setP_complete (s : State) (rd : PReg) (v : Bool) :
    (s.setP rd v).complete = (s.setMe ((s.me.setP rd v).complete)).markDone := by
  show ((s.setMe (s.me.setP rd v)).setMe ((s.setMe (s.me.setP rd v)).me.complete)).markDone = _
  rw [setMe_setMe, me_setMe]

theorem goesOn_complete (s : State) (q : ClusterState) (hp : q.pc = s.me.pc) (hl : q.loops = s.me.loops)
    (h1 : q.pending = s.me.pending) (h2 : q.consumed = s.me.consumed) (h3 : q.temps = s.me.temps)
    (h4 : q.joined = s.me.joined) (h5 : q.held = s.me.held) :
    GoesOn s (s.setMe q.complete).markDone (loopEnd s.me.pc s.me.loops).1 (loopEnd s.me.pc s.me.loops).2 := by
  constructor <;> simp [ClusterState.complete, ClusterState.goTo, *]

/-- A scalar result, and the bundle completes. -/
theorem wroteScalar (s : State) (rd : SReg) (v : Word) : WroteScalar s (s.setS rd v).complete rd v := by
  rw [setS_complete]
  refine ⟨fun r => ?_, fun n => ?_, ?_, onlyCluster_setMe s _⟩
  · simp [State.getS]
    exact getS_setS _ _ _ _
  · unfold State.getP
    simp [ClusterState.getP, ClusterState.complete, ClusterState.goTo]
  · apply goesOn_complete <;> simp

/-- A predicate result, and the bundle completes. -/
theorem wrotePred (s : State) (pd : PReg) (b : Bool) : WrotePred s (s.setP pd b).complete pd b := by
  rw [setP_complete]
  refine ⟨fun r => ?_, fun n => ?_, ?_, onlyCluster_setMe s _⟩
  · simp [State.getS, ClusterState.getS, ClusterState.complete, ClusterState.goTo]
  · unfold State.getP
    simp only [me_markDone, me_setMe]
    exact getP_setP _ _ _ _
  · apply goesOn_complete <;> simp

/-- No result, and the bundle completes. -/
theorem completed (s : State) : Completed s s.complete := by
  show Completed s (s.setMe s.me.complete).markDone
  refine ⟨fun r => ?_, fun n => ?_, ?_, onlyCluster_setMe s _⟩
  · simp [State.getS, ClusterState.getS, ClusterState.complete, ClusterState.goTo]
  · unfold State.getP
    simp [ClusterState.getP, ClusterState.complete, ClusterState.goTo]
  · apply goesOn_complete <;> rfl

/-- A taken branch. -/
theorem wentTo (s : State) (pc : Word) (l : List LoopEntry) : WentTo s (s.completeTo pc l) pc l := by
  show WentTo s (s.setMe (s.me.goTo pc l)).markDone pc l
  refine ⟨fun r => ?_, fun n => ?_, ?_, onlyCluster_setMe s _⟩
  · simp [State.getS, ClusterState.getS, ClusterState.goTo]
  · unfold State.getP
    simp [ClusterState.getP, ClusterState.goTo]
  · constructor <;> simp [ClusterState.goTo]

end Sys2Proof.Machine
end

