-- ==== Sys2Proof/Tests/Slice0.lean ====
section
/-!
SUPPORT. Tests: terms that are not well formed, the decoding of one word for every operation, written out field by field
from the spec's formats, and, for each statement that has hypotheses, a state and operands that meet them.
-/

namespace Sys2Proof.Tests

open Sys2Proof Sys2Proof.Machine Says

-- One theorem after another: the evaluations below need memory.
set_option Elab.async false

/-! ### Well-formedness: each term fails one check -/

/-- Field values just outside their ranges, and types and orderings that an operation does not accept: scalars, control
and memory. -/
def illScalars : List Instr :=
  [.extr 1 2 0 0, .extr 1 2 2 63, .extr 1 2 65 0, .extru 1 2 64 1, .insr 1 2 3 33 32, .loop 1 0, .loopi 0 5, .loopt 0 0, .loopt 4 1,
   .brq 11 0, .qpush 11 1, .qpop 0 1, .qpeek 11 1, .qtry 11 1 1, .qpushp 11 1, .vqpush 12 0, .vqpop 12 0, .fwait 0, .fsig 0,
   .fread 1 0]

/-- The same of loads, stores and what names a number of bytes or slots. -/
def illMemory : List Instr :=
  let r : MemFields := ⟨.release, .core, .normal⟩
  let a : MemFields := ⟨.acquire, .core, .normal⟩
  let x : MemFields := ⟨.relaxed, .core, .normal⟩
  [.ldb 1 2 r 0, .ldbu 1 2 r 0, .ldh 1 2 r 0, .ldhu 1 2 r 0, .ldw 1 2 r 0, .ldwu 1 2 r 0, .ldd 1 2 r 0, .stb 1 2 a 0, .sth 1 2 a 0,
   .stw 1 2 a 0, .std 1 2 a 0, .vld 0 2 r 0, .vldn 0 2 r .b16 0, .vst 0 2 a 0, .vstn 0 2 a .b16 0, .vlds 0 1 2 r, .vsts 0 1 2 a,
   .vgth 0 1 0 r, .vsct 0 1 0 a, .fence .relaxed .core, .retain 1 2 3 0, .retain 1 2 3 17, .wfill 0 1, .wfill 4097 1, .wfree 0 1,
   .claim 1 4097 1, .publ 0 1, .popt 4097 1, .vld 1536 2 x 0, .vst 1536 2 x 0, .vgth 0 1 1536 x, .vsct 1536 1 0 x,
   .vlds 1536 1 2 x, .vsts 2047 1 2 x, .vldn 1536 2 x .b16 0, .vstn 1536 2 x .b16 0, .vredm 0 1 1536 .core .normal]

/-- The same of engine commands. -/
def illEngines : List Instr :=
  let bad : EngOpts := ⟨0, 0x80⟩
  let low : EngOpts := ⟨0, 0x01⟩
  let ok : EngOpts := ⟨0, 0x81⟩
  [.mma 1 bad 1 2 0 false false false, .mma 1 ok 1 2 6 false false false, .mret 1 low 1 0 0 false, .mret 1 ok 1 2 0 false,
   .mret 1 ok 1 2 6 true, .mzero 1 bad 0, .mzero 1 ok 7, .cpin 1 bad 1 0 false 0, .cpin 1 ok 1 2 false 0, .cpout 1 ok 1 2 false 0,
   .cpred 1 ok 1 2 false 0 .addF32, .cpstr 1 low 1 2 true 0, .gath 1 ok 30 1 2 3 true, .gath 1 ok 1 1 31 3 true,
   .gath 1 ok 1 1 2 3 false, .topk 1 bad 1 2 0 false false, .notify 1 .cin ok 1 0, .notify 1 .cin bad 2 0, .gfence 0,
   .eseq 1 .cin 3, .bpref 0 .normal]

/-- The same of vectors. -/
def illVectors : List Instr :=
  [.vadd 0 1 2 0 .i64 .rne, .vadd 0 1 2 0 .i32 .rup, .vadd 1536 1 2 0 .f32 .rne, .vsub 0 1 2 0 .rw30 .rne, .vmul 0 1 1536 0 .f32 .rne,
   .vmin 0 1 2 0 .i8 .rdn, .vmax 0 1 2 0 .n64 .rne, .vabs 0 1 0 .rw30 .rne, .vneg 1536 1 0 .i8 .rne, .vshl 0 1 2 0 .i8 true 7,
   .vshl 0 1 0 0 .i8 true 8, .vshr 0 1 2 0 .n16 false 1, .vsar 0 1 0 0 .f32 true 1, .vcmp 0 1 2 0 .i16 .eq, .vbcast 0 1 0 .i64,
   .vext 0 1 .i8 256, .vins 0 1 .f16 128, .vins 0 1 .rw30 64, .viota 0 0 .f32, .vrsum 0 1 0 .i32 .rtz, .vrmax 0 1 0 .rw30 .rne,
   .vrmin 0 1 0 .i64 .rne, .vscan 0 1 0 .f16 .rne, .vdiv 0 1 2 0 .i32 .rtz, .vsqrt 0 1 0 .i32 .rne, .vrcp 0 1 0 .rw30 .rne,
   .vrsqrt 0 1 0 .n8 .rne, .vexp2 0 1 0 .i32 .rne, .vlog2 0 1 0 .i32 .rne, .vtanh 0 1 0 .i32 .rne, .vrnd 0 1 0 .i32 .rne,
   .vadds 0 1 2 0 .rw30, .vmuls 0 1 2 0 .i64, .vcvt 0 1 0 .i16 .rne .i32, .vcvt 0 1 0 .i32 .rup .n32, .vpack 0 1 2 0 .i8 .rne .i32,
   .vunpk 0 1 0 .i32 .rne false .i8, .vzenc 0 1 0 .i32 1, .vzenc 0 1 0 .f32 0, .vzdec 0 1 0 .i32 .rne 1, .vzdec 0 1 0 .f16 .rne 0,
   .vscale 0 1 2 0 .i32 .rne, .vquant 0 1 2 0 .rne false 4, .vfma 0 1 2 1536 0, .vand 1536 1 2 0, .vsel 0 1536 2 0, .vmov 0 2047 0,
   .vperm 0 1 1536 0, .vrot 1536 1 0 0, .vzmac 0 1536 2 0, .vochk 0 1 1536 0 true, .vcomp 1536 1 0, .mop 0 0 1 1536 0 0 0,
   .vqpush 0 1536, .vqpop 0 1536]

theorem test_ill_formed : (illScalars ++ illMemory ++ illEngines ++ illVectors).all (fun i => !i.wellFormed) = true := by
  decide +kernel

/-- Units that the package does not have. -/
theorem test_ill_formed_events :
    ([.yieldPauseEnd 256 .S, .mmaCommand 256, .gfenceCommand 256 .cin, .commandRetirement 300 .mtx, .leaseRearbitration 64, .rendezvous 256,
      .frameTaken 256, .contextRemoval 256 .kill, .kill 64 .management, .resume 64 .management, .lqctlWrite 0 0, .lqctlWrite 64 0,
      .doorbell 64 0, .hostBar2Access 0 0 1 none, .launcherRecordRead 64, .flrComplete 64, .flitReplay 16, .eviction 256 0,
      .pcoreWrite 0 .management 4 0, .pcoreWrite 64 .management 0 0] : List Instr).all
      (fun i => !i.wellFormed) = true := by
  decide +kernel

/-- The values at the ends of the ranges are accepted. -/
theorem test_well_formed :
    ([.extr 1 2 64 0, .extru 1 2 1 63, .loopt 3 1, .brq 12 0, .vqpop 11 1535, .fwait 127, .ldd 1 2 ⟨.acquire, .core, .normal⟩ 0,
      .std 1 2 ⟨.release, .core, .normal⟩ 0, .retain 1 2 3 16, .wfill 4096 31, .mma 1 ⟨0, 0xFF⟩ 1 2 5 false false false,
      .cpin 1 ⟨0, 0⟩ 1 2 true 15, .gath 1 ⟨0, 0⟩ 29 31 30 31 true, .notify 1 .topk ⟨0, 0⟩ 16 7, .vadd 1535 1535 1535 15 .f32 .rup,
      .vshl 0 1 0 0 .n8 true 7, .vshl 0 1 2 0 .i32 false 0, .vext 0 1 .i8 255, .vins 0 1 .rw30 63, .vzenc 0 1 0 .i8 3,
      .vzdec 0 1 0 .f32 .rup 63, .vquant 0 1 2 0 .rne true 7, .vquant 0 1 2 0 .rne false 3, .lqctlWrite 63 0,
      .pcoreWrite 63 .management 3 0, .frameTaken 255] : List Instr).all Instr.wellFormed = true := by
  decide +kernel

/-! ### Words written out from the formats -/

/-- R86: format SR with three registers. -/
theorem test_words_scalar :
    decodeTableWord 64 0x0000000000000000 = some (.nop) ∧
    decodeTableWord 64 0x0040182100000000 = some (.add 3 1 2) ∧
    decodeTableWord 64 0x00801FC700000000 = some (.sub 3 62 14) ∧
    decodeTableWord 64 0x00C027A980000000 = some (.mul 4 61 19) ∧
    decodeTableWord 64 0x01002F8C00000000 = some (.mulh 5 60 24) ∧
    decodeTableWord 64 0x0140376E80000000 = some (.mulhu 6 59 29) ∧
    decodeTableWord 64 0x01803F5100000000 = some (.div 7 58 34) ∧
    decodeTableWord 64 0x01C0473380000000 = some (.divu 8 57 39) ∧
    decodeTableWord 64 0x02004F1600000000 = some (.rem 9 56 44) ∧
    decodeTableWord 64 0x024056F880000000 = some (.remu 10 55 49) ∧
    decodeTableWord 64 0x02805EDB00000000 = some (.and 11 54 54) ∧
    decodeTableWord 64 0x02C066BD80000000 = some (.or 12 53 59) ∧
    decodeTableWord 64 0x03006E8000000000 = some (.xor 13 52 0) ∧
    decodeTableWord 64 0x0340766280000000 = some (.andn 14 51 5) ∧
    decodeTableWord 64 0x03807E4500000000 = some (.shl 15 50 10) ∧
    decodeTableWord 64 0x03C0862780000000 = some (.shr 16 49 15) ∧
    decodeTableWord 64 0x04008E0A00000000 = some (.sar 17 48 20) ∧
    decodeTableWord 64 0x044095EC80000000 = some (.rotr 18 47 25) ∧
    decodeTableWord 64 0x04809DCF00000000 = some (.min 19 46 30) ∧
    decodeTableWord 64 0x04C0A5B180000000 = some (.max 20 45 35) ∧
    decodeTableWord 64 0x0500AD9400000000 = some (.minu 21 44 40) ∧
    decodeTableWord 64 0x0540B57680000000 = some (.maxu 22 43 45) :=
    by and_intros <;> rfl

/-- R18, R86, R88: one register operand, bit fields and immediates. -/
theorem test_words_scalar_one :
    decodeTableWord 64 0x0581402000000000 = some (.clz 40 1) ∧
    decodeTableWord 64 0x05C1484000000000 = some (.ctz 41 2) ∧
    decodeTableWord 64 0x0601506000000000 = some (.popc 42 3) ∧
    decodeTableWord 64 0x0641588000000000 = some (.brev 43 4) ∧
    decodeTableWord 64 0x068160A000000000 = some (.bswap 44 5) ∧
    decodeTableWord 64 0x06C0188000000E47 = some (.extr 3 4 57 7) ∧
    decodeTableWord 64 0x0701FC2000001000 = some (.extru 63 33 64 0) ∧
    decodeTableWord 64 0x074018828000007F = some (.insr 3 4 5 1 63) ∧
    decodeTableWord 64 0x078049038C000000 = some (.madd 9 8 7 6) ∧
    decodeTableWord 64 0x07C049038000003F = some (.lea 9 8 7 63) ∧
    decodeTableWord 64 0x0800490000000000 = some (.sext 9 8 .w8) ∧
    decodeTableWord 64 0x0840490000000002 = some (.zext 9 8 .w32) ∧
    decodeTableWord 64 0x0880490000000000 = some (.mov 9 8) ∧
    decodeTableWord 64 0x100010BFFFFFFFE0 = some (.addi 2 5 0xFFFFFFFF) ∧
    decodeTableWord 64 0x104010AFFFFFFFE0 = some (.andi 2 5 0x7FFFFFFF) ∧
    decodeTableWord 64 0x108010A000000020 = some (.ori 2 5 1) ∧
    decodeTableWord 64 0x10C010B000000000 = some (.xori 2 5 0x80000000) ∧
    decodeTableWord 64 0x110010A00000003F = some (.shli 2 5 63) ∧
    decodeTableWord 64 0x114010A000000001 = some (.shri 2 5 1) ∧
    decodeTableWord 64 0x118010A000000020 = some (.sari 2 5 32) ∧
    decodeTableWord 64 0x11C010A000000060 = some (.muli 2 5 3) ∧
    decodeTableWord 64 0x12003802468ACF00 = some (.li 7 0x12345678) ∧
    decodeTableWord 64 0x124038D3579BDE00 = some (.lih 7 6 0x9ABCDEF0) :=
    by and_intros <;> rfl

/-- R90, R91: compares and predicates. -/
theorem test_words_predicate :
    decodeTableWord 64 0x1800200107000000 = some (.cmp 1 2 3 .gt) ∧
    decodeTableWord 64 0x1841E00101FFFFFE = some (.cmpi 15 2 .leu 0x3FFFFE) ∧
    decodeTableWord 64 0x1880246000000000 = some (.pand 1 2 3) ∧
    decodeTableWord 64 0x18C08AC000000000 = some (.por 4 5 6) ∧
    decodeTableWord 64 0x1900F12000000000 = some (.pxor 7 8 9) ∧
    decodeTableWord 64 0x1941560000000000 = some (.pnot 10 11) ∧
    decodeTableWord 64 0x198008418000000F = some (.sel 1 2 3 15) ∧
    decodeTableWord 64 0x19C1080000000000 = some (.getp 33) ∧
    decodeTableWord 64 0x1A0000028000FFFF = some (.setp 5 0xFFFF) ∧
    decodeTableWord 64 0x1A4060030000003F = some (.tstb 3 6 63) :=
    by and_intros <;> rfl

/-- R13, R92 to R103, R227: branches, loops, pauses and special registers. -/
theorem test_words_control :
    decodeTableWord 64 0x20001FFFFFFFE000 = some (.br 0xFFFFFFFF) ∧
    decodeTableWord 64 0x2040000000000480 = some (.bri 9) ∧
    decodeTableWord 64 0x2080000002000000 = some (.call 0x1000) ∧
    decodeTableWord 64 0x20C0000000000500 = some (.calli 10) ∧
    decodeTableWord 64 0x2100000000001F80 = some (.ret 63) ∧
    decodeTableWord 64 0x214027FFF8000000 = some (.loop 4 0xFFFF) ∧
    decodeTableWord 64 0x2180000018000003 = some (.loopi 3 3) ∧
    decodeTableWord 64 0x21C0180010000000 = some (.loopt 3 2) ∧
    decodeTableWord 64 0x2200000000000000 = some (.lbreak) ∧
    decodeTableWord 64 0x2240000000000000 = some (.halt) ∧
    decodeTableWord 64 0x2281800000004000 = some (.brq 12 2) ∧
    decodeTableWord 64 0x22C000E000000000 = some (.waitt 7) ∧
    decodeTableWord 64 0x2301E00000000000 = some (.yield 15) ∧
    decodeTableWord 64 0x2340180000000050 = some (.mfsr 3 0x050) ∧
    decodeTableWord 64 0x2380006000000100 = some (.mtsr 3 0x100) :=
    by and_intros <;> rfl

/-- R224, R226: queues and flags. -/
theorem test_words_queue :
    decodeTableWord 64 0x2801810000000000 = some (.qpush 12 2) ∧
    decodeTableWord 64 0x2841818000000000 = some (.qpop 12 3) ∧
    decodeTableWord 64 0x2881C20000000000 = some (.qpeek 14 4) ∧
    decodeTableWord 64 0x28C1A28006000000 = some (.qtry 13 5 6) ∧
    decodeTableWord 64 0x2901E0000F000000 = some (.qpushp 15 15) ∧
    decodeTableWord 64 0x2941005FF0000000 = some (.vqpush 8 1535) ∧
    decodeTableWord 64 0x2981204000000000 = some (.vqpop 9 1024) ∧
    decodeTableWord 64 0x29C1E08000000000 = some (.qcount 15 1) ∧
    decodeTableWord 64 0x2A00000000000005 = some (.fwait 5) ∧
    decodeTableWord 64 0x2A4000000000007F = some (.fsig 127) ∧
    decodeTableWord 64 0x2A80300000000040 = some (.fread 6 64) :=
    by and_intros <;> rfl

/-- R17, R24, R155, R156: loads, stores, prefetch, fences and cache maintenance. -/
theorem test_words_memory :
    decodeTableWord 64 0x2C00029400000008 = some (.ldb 10 20 ⟨.relaxed, .cluster, .normal⟩ 8) ∧
    decodeTableWord 64 0x2C4002D571FFFFF0 = some (.ldbu 11 21 ⟨.acquire, .system, .first⟩ 0xFFFFF0) ∧
    decodeTableWord 64 0x2C800316D2000008 = some (.ldh 12 22 ⟨.sc, .quad, .last⟩ 8) ∧
    decodeTableWord 64 0x2CC003571BFFFFF8 = some (.ldhu 13 23 ⟨.relaxed, .die, .noAlloc⟩ 0xFFFFF8) ∧
    decodeTableWord 64 0x2D0003980C000008 = some (.ldw 14 24 ⟨.relaxed, .core, .retain⟩ 8) ∧
    decodeTableWord 64 0x2D4003D960FFFFE0 = some (.ldwu 15 25 ⟨.acquire, .device, .normal⟩ 0xFFFFE0) ∧
    decodeTableWord 64 0x2D80010548000040 = some (.ldd 4 5 ⟨.acquire, .core, .normal⟩ 0x40) ∧
    decodeTableWord 64 0x2DC0045B00FFFFF0 = some (.stb 17 27 ⟨.relaxed, .cluster, .normal⟩ 0xFFFFF0) ∧
    decodeTableWord 64 0x2E00049CA9000008 = some (.sth 18 28 ⟨.release, .domain, .first⟩ 8) ∧
    decodeTableWord 64 0x2E4004DDF2FFFFF8 = some (.stw 19 29 ⟨.sc, .system, .last⟩ 0xFFFFF8) ∧
    decodeTableWord 64 0x2E80051E88000008 = some (.std 20 30 ⟨.release, .core, .normal⟩ 8) ∧
    decodeTableWord 64 0x2EC17FC100000100 = some (.vld 1535 1 ⟨.relaxed, .cluster, .normal⟩ 0x100) ∧
    decodeTableWord 64 0x2F004B0608400040 = some (.vldn 300 6 ⟨.relaxed, .core, .normal⟩ .b64 0x40) ∧
    decodeTableWord 64 0x2F4001C103FFFF00 = some (.vst 7 1 ⟨.relaxed, .cluster, .noAlloc⟩ 0xFFFF00) ∧
    decodeTableWord 64 0x2F800202117FFF80 = some (.vstn 8 2 ⟨.relaxed, .quad, .first⟩ .b128 0x1FFF80) ∧
    decodeTableWord 64 0x2FC0024310280000 = some (.vlds 9 3 4 ⟨.relaxed, .core, .last⟩) ∧
    decodeTableWord 64 0x300002851AC00000 = some (.vsts 10 5 6 ⟨.release, .system, .normal⟩) ∧
    decodeTableWord 64 0x304002C77D038000 = some (.vgth 11 7 1000 ⟨.relaxed, .die, .retain⟩) ∧
    decodeTableWord 64 0x308003087D340000 = some (.vsct 12 8 1001 ⟨.release, .device, .normal⟩) ∧
    decodeTableWord 64 0x30C0000902000004 = some (.pref 9 .cluster .last 4) ∧
    decodeTableWord 64 0x3100000000000000 = some (.mark) ∧
    decodeTableWord 64 0x31400000F0000000 = some (.fence .sc .system) ∧
    decodeTableWord 64 0x3180000408000020 = some (.cwb 4 .core 32) ∧
    decodeTableWord 64 0x31C0000430FFFFE0 = some (.cinv 4 .system 0xFFFFE0) ∧
    decodeTableWord 64 0x3200084180000010 = some (.retain 1 2 3 16) ∧
    decodeTableWord 64 0x324000A000000000 = some (.unpin 5) ∧
    decodeTableWord 64 0x3280002106000000 = some (.smap 1 2 3) ∧
    decodeTableWord 64 0x32C000C000000000 = some (.sunmap 6) ∧
    decodeTableWord 64 0x330000E000000000 = some (.sflush 7) :=
    by and_intros <;> rfl

/-- R17, R171 to R177, R286: atomics, reductions, monitors and barriers. -/
theorem test_words_atomic :
    decodeTableWord 64 0x38000A9400000000 = some (.aadd 1 20 40 .cluster .normal false 0) ∧
    decodeTableWord 64 0x384012B4804C0008 = some (.aand 2 21 41 .core .first true 8) ∧
    decodeTableWord 64 0x38801AD500900010 = some (.aor 3 22 42 .quad .last false 16) ∧
    decodeTableWord 64 0x38C022F580C7FFF8 = some (.axor 4 23 43 .die .normal true 0x3FFF8) ∧
    decodeTableWord 64 0x39002B1601080020 = some (.amin 5 24 44 .device .first false 32) ∧
    decodeTableWord 64 0x3940333681540028 = some (.amax 6 25 45 .domain .last true 40) ∧
    decodeTableWord 64 0x39803B5701800030 = some (.aminu 7 26 46 .system .normal false 48) ∧
    decodeTableWord 64 0x39C04377800C0038 = some (.amaxu 8 27 47 .cluster .first true 56) ∧
    decodeTableWord 64 0x3A004B9800500040 = some (.aswp 9 28 48 .core .last false 64) ∧
    decodeTableWord 64 0x3A4008418885FFF8 = some (.acas 1 2 3 4 .quad .normal true 0x1FFF8) ∧
    decodeTableWord 64 0x3AC0004180C00004 = some (.radd 2 3 .die .normal false 4) ∧
    decodeTableWord 64 0x3B00008280400008 = some (.rfadd 4 5 .core .normal 8) ∧
    decodeTableWord 64 0x3B4000C380440010 = some (.rmin 6 7 .core .normal true 16) ∧
    decodeTableWord 64 0x3B80010481880000 = some (.rmax 8 9 .system .first false 0) ∧
    decodeTableWord 64 0x3BC0014598400008 = some (.rofadd 10 11 12 .core .normal 8) ∧
    decodeTableWord 64 0x3C00034E01E40000 = some (.vredm 13 14 15 .device .normal) ∧
    decodeTableWord 64 0x3C40822901440008 = some (.mwait 16 17 18 .domain .normal true 8) ∧
    decodeTableWord 64 0x3D00004281000000 = some (.barinit 2 5 .device .normal 0) ∧
    decodeTableWord 64 0x3D40204181000000 = some (.barrive 4 2 3 .device .normal 0) ∧
    decodeTableWord 64 0x3D8000418113FFE0 = some (.barwait 2 3 .device .last 0x3FFE0) :=
    by and_intros <;> rfl

/-- R230 to R233: rings. -/
theorem test_words_ring :
    decodeTableWord 64 0x4000002000000043 = some (.setst 1 2 3) ∧
    decodeTableWord 64 0x40401000000000FF = some (.getst 2 7 31) ∧
    decodeTableWord 64 0x4080000000000024 = some (.wfill 1 4) ∧
    decodeTableWord 64 0x40C0000000020005 = some (.wfree 4096 5) ∧
    decodeTableWord 64 0x4100180000000046 = some (.claim 3 2 6) ∧
    decodeTableWord 64 0x4140000000000046 = some (.publ 2 6) ∧
    decodeTableWord 64 0x4180000000000127 = some (.popt 9 7) ∧
    decodeTableWord 64 0x41C020A000000008 = some (.raddr 4 5 8) ∧
    decodeTableWord 64 0x4200300000000069 = some (.rstat 6 3 9) :=
    by and_intros <;> rfl

/-- R30 to R33, R135, R141, R147, R241 to R248, R266, R267: engine issue. -/
theorem test_words_engine :
    decodeTableWord 64 0x4C000A0000000003 = some (.enq 1 .cout 3) ∧
    decodeTableWord 64 0x4C4008008D08AD00 = some (.mma 1 ⟨0, 0x8D⟩ 1 2 5 true false true) ∧
    decodeTableWord 64 0x4C80000C00215C00 = some (.mret 0 ⟨0x0C, 0⟩ 4 5 3 true) ∧
    decodeTableWord 64 0x4CC0109100002000 = some (.mzero 2 ⟨0x91, 0⟩ 4) ∧
    decodeTableWord 64 0x4D0019000031FE00 = some (.cpin 3 ⟨0, 0⟩ 6 7 true 15) ∧
    decodeTableWord 64 0x4D40220000400200 = some (.cpout 4 ⟨0, 0⟩ 8 0 false 1) ∧
    decodeTableWord 64 0x4D802A00004AA100 = some (.cpred 5 ⟨0, 0⟩ 9 10 true 0 .minF32) ∧
    decodeTableWord 64 0x4DC0318300580400 = some (.cpstr 6 ⟨0x83, 0⟩ 11 0 false 2) ∧
    decodeTableWord 64 0x4E003B0000635CF8 = some (.gath 7 ⟨0, 0⟩ 12 13 14 15 true) ∧
    decodeTableWord 64 0x4E40040000424170 = some (.topk 0 ⟨0, 0⟩ 8 9 5 true true) ∧
    decodeTableWord 64 0x4E804100FF00001F = some (.notify 8 .cin ⟨0, 0xFF⟩ 3 7) ∧
    decodeTableWord 64 0x4EC000000000001F = some (.gfence 31) ∧
    decodeTableWord 64 0x4F00000000000005 = some (.waitev 5) ∧
    decodeTableWord 64 0x4F40040000000021 = some (.ewait .topk 33) ∧
    decodeTableWord 64 0x4F804B0000000002 = some (.eseq 9 .gth 2) ∧
    decodeTableWord 64 0x4FC0A0000000000A = some (.bstat 20 .mtx 10) ∧
    decodeTableWord 64 0x5000000000000006 = some (.bpref 1 .dpref) :=
    by and_intros <;> rfl

/-- R281 to R285: launches and deques. -/
theorem test_words_sched :
    decodeTableWord 64 0x5200108000000000 = some (.launch 2 4) ∧
    decodeTableWord 64 0x5240000000000000 = some (.trigger) ∧
    decodeTableWord 64 0x5280000000000000 = some (.depwait) ∧
    decodeTableWord 64 0x52C000A000000000 = some (.dqpush 5) ∧
    decodeTableWord 64 0x5300180000000002 = some (.dqpop 3 2) ∧
    decodeTableWord 64 0x534018C000000002 = some (.dqsteal 3 6 2) ∧
    decodeTableWord 64 0x5340180000000012 = some (.dqstealRing 3 2) :=
    by and_intros <;> rfl

/-- R110 to R125: element-wise vector instructions. -/
theorem test_words_vector :
    decodeTableWord 64 0x58000280580C0800 = some (.vadd 10 11 12 0 .f32 .rne) ∧
    decodeTableWord 64 0x58400340700F1940 = some (.vsub 13 14 15 1 .f16 .rtz) ∧
    decodeTableWord 64 0x58817FC000102A80 = some (.vmul 1535 0 16 2 .bf16 .rup) ∧
    decodeTableWord 64 0x58C000401003008A = some (.vfma 1 2 3 4 5) ∧
    decodeTableWord 64 0x5900018038080134 = some (.vfmah 6 7 8 9 10) ∧
    decodeTableWord 64 0x594002C0600DBFFE = some (.vfmab 11 12 13 1535 15) ∧
    decodeTableWord 64 0x5980044090133000 = some (.vmin 17 18 19 3 .i8 .rne) ∧
    decodeTableWord 64 0x59C00500A8164100 = some (.vmax 20 21 22 4 .n8 .rne) ∧
    decodeTableWord 64 0x5A0005C0C0005200 = some (.vabs 23 24 5 .i16 .rne) ∧
    decodeTableWord 64 0x5A400640D0006400 = some (.vneg 25 26 6 .i32 .rne) ∧
    decodeTableWord 64 0x5A8006C0F0217000 = some (.vand 27 30 33 7) ∧
    decodeTableWord 64 0x5AC00700F8228000 = some (.vor 28 31 34 8) ∧
    decodeTableWord 64 0x5B00074100239000 = some (.vxor 29 32 35 9) ∧
    decodeTableWord 64 0x5B40004010034300 = some (.vshl 1 2 3 4 .n16 false 0) ∧
    decodeTableWord 64 0x5B8000401000453F = some (.vshr 1 2 0 4 .n32 true 31) ∧
    decodeTableWord 64 0x5BC0004010004027 = some (.vsar 1 2 0 4 .i8 true 7) ∧
    decodeTableWord 64 0x5C00024010034801 = some (.vcmp 9 2 3 4 .f32 .ne) ∧
    decodeTableWord 64 0x5C40014030078000 = some (.vsel 5 6 7 8) ∧
    decodeTableWord 64 0x5C80014030008000 = some (.vmov 5 6 8) ∧
    decodeTableWord 64 0x5CC0014000CE6000 = some (.vbcast 5 6 7 .n16) ∧
    decodeTableWord 64 0x5D00000020410000 = some (.vext 4 2 .f32 0) ∧
    decodeTableWord 64 0x5D4000C0008000FF = some (.vins 3 4 .i8 255) ∧
    decodeTableWord 64 0x5D80004010034000 = some (.vperm 1 2 3 4) ∧
    decodeTableWord 64 0x5DC000401000403F = some (.vrot 1 2 4 63) ∧
    decodeTableWord 64 0x5E00004000004400 = some (.viota 1 4 .i32) ∧
    decodeTableWord 64 0x5E400040100038C0 = some (.vrsum 1 2 3 .f32 .rdn) ∧
    decodeTableWord 64 0x5E80004010003400 = some (.vrmax 1 2 3 .i32 .rne) ∧
    decodeTableWord 64 0x5EC0010028006500 = some (.vrmin 4 5 6 .n32 .rne) ∧
    decodeTableWord 64 0x5F0001C040000840 = some (.vscan 7 8 0 .f32 .rtz) ∧
    decodeTableWord 64 0x5F40004010034880 = some (.vdiv 1 2 3 4 .f32 .rup) ∧
    decodeTableWord 64 0x5F800A0190000800 = some (.vsqrt 40 50 0 .f32 .rne) ∧
    decodeTableWord 64 0x5FC00A4198001940 = some (.vrcp 41 51 1 .f16 .rtz) ∧
    decodeTableWord 64 0x60000A81A0002A80 = some (.vrsqrt 42 52 2 .bf16 .rup) ∧
    decodeTableWord 64 0x60400AC1A80038C0 = some (.vexp2 43 53 3 .f32 .rdn) ∧
    decodeTableWord 64 0x60800B01B0004900 = some (.vlog2 44 54 4 .f16 .rne) ∧
    decodeTableWord 64 0x60C00B41B8005A40 = some (.vtanh 45 55 5 .bf16 .rtz) ∧
    decodeTableWord 64 0x61000B81C0006880 = some (.vrnd 46 56 6 .f32 .rup) ∧
    decodeTableWord 64 0x6140004010030000 = some (.mand 1 2 3) ∧
    decodeTableWord 64 0x618003C0700D0000 = some (.mor 15 14 13) ∧
    decodeTableWord 64 0x61C0010028000000 = some (.mnot 4 5) ∧
    decodeTableWord 64 0x6200000000CE0001 = some (.mpop 6 7 true) ∧
    decodeTableWord 64 0x6240004010688000 = some (.vadds 1 2 3 4 .i32) ∧
    decodeTableWord 64 0x6280014030F10000 = some (.vmuls 5 6 7 8 .f32) :=
    by and_intros <;> rfl

/-- R126 to R130: conversions and residues. -/
theorem test_words_convert :
    decodeTableWord 64 0x7000008008000804 = some (.vcvt 2 1 0 .f32 .rne .i32) ∧
    decodeTableWord 64 0x704000C020056948 = some (.vpack 3 4 5 6 .f16 .rtz .f32) ∧
    decodeTableWord 64 0x708000C020006412 = some (.vunpk 3 4 6 .i32 .rne true .i16) ∧
    decodeTableWord 64 0x70C0004010003103 = some (.vzenc 1 2 3 .n8 3) ∧
    decodeTableWord 64 0x71000040100038BF = some (.vzdec 1 2 3 .f32 .rup 0x3F) ∧
    decodeTableWord 64 0x7140004010034B00 = some (.vzmac 1 2 3 4) ∧
    decodeTableWord 64 0x7180008018045B00 = some (.vzmul 2 3 4 5) ∧
    decodeTableWord 64 0x71C000C020056B00 = some (.vzadd 3 4 5 6) ∧
    decodeTableWord 64 0x7200004010034AC0 = some (.vscale 1 2 3 4 .bf16 .rdn) ∧
    decodeTableWord 64 0x7240004010034867 = some (.vquant 1 2 3 4 .rtz true 7) ∧
    decodeTableWord 64 0x7280018010034820 = some (.vochk 6 2 3 4 true) ∧
    decodeTableWord 64 0x72C0004010009000 = some (.vcomp 1 2 9) :=
    by and_intros <;> rfl

/-- R318, R323, R324, R341, R342, R357, R374, R377, R384: system instructions and micro-operations. -/
theorem test_words_system :
    decodeTableWord 64 0x780000000000FFFF = some (.trap 0xFFFF) ∧
    decodeTableWord 64 0x7840000000000000 = some (.eret) ∧
    decodeTableWord 64 0x790000000000002A = some (.bkpt 0x2A) ∧
    decodeTableWord 64 0x7940180000000000 = some (.rdcyc 3) ∧
    decodeTableWord 64 0x7980200000000000 = some (.rdtime 4) ∧
    decodeTableWord 64 0x79C0004180000001 = some (.tlbinv 2 3 .range) ∧
    decodeTableWord 64 0x7A0028C000000000 = some (.dharv 5 6) ∧
    decodeTableWord 64 0x7A40006000000003 = some (.csload 3 3) ∧
    decodeTableWord 64 0x7A80000000000003 = some (.csunbind 3) ∧
    decodeTableWord 64 0x7AC028C390000001 = some (.ctxsave 5 6 7 8 .fence) ∧
    decodeTableWord 64 0x7B0028E000000000 = some (.ctxload 5 7) ∧
    decodeTableWord 64 0x7CC000C008020080 = some (.mop 3 3 1 2 0 2 0) ∧
    decodeTableWord 64 0x7FC17FC00001FFFF = some (.mop 15 1535 0 1 15 63 63) :=
    by and_intros <;> rfl

/-! ### A small state -/

/-- The leaf entry of a 64 KiB page: readable, writable, of both privileges, in device memory (R355). -/
def leafRw (pa mode : Nat) : Word := BitVec.ofNat 64 (pa + 64 * mode + 0x2F)

/-- Core 0 runs a supervisor context of polder 0, its four clusters at bundle 0x10000 and the named one executing. Its TLB
holds virtual page 1 as a hardware-coherent page at physical 0x10000 and page 2 as a software-coherent one at 0x20000. -/
def base (x : Cluster) : State :=
  let s := State.reset
  let p := s.polder 0
  let run : ClusterState := { ClusterState.reset with pc := 0x10000, status := .running }
  let k : Core := { s.core 0 with
    phase := .running
    ctx := some ⟨0, none, 1, 0, 0, false, [], [], 0, 0⟩
    cls := ⟨run, run, run, run⟩
    loc := { LocalMem.reset with tlb := [⟨0, false, 1, leafRw 0x10000 0, 3⟩, ⟨0, false, 2, leafRw 0x20000 1, 3⟩] } }
  ({ s.setPolder 0 { p with part := { p.part with en := true, pcore := tset p.part.pcore 0 1, pmemS := tset p.part.pmemS 0 4 } }
      with actor := ⟨0, x, 0, false, false⟩ }).setCore 0 k

/-- A change of the executing core. -/
def atCore (s : State) (f : Core → Core) : State := s.setHere (f s.here)

/-- A change of the executing cluster. -/
def onCluster (s : State) (f : ClusterState → ClusterState) : State := s.setMe (f s.me)

/-- Scalar registers with these values. -/
def withScalars (s : State) (l : List (SReg × Word)) : State :=
  onCluster s fun k => l.foldl (fun k x => k.setS x.1 x.2) k

/-- The same core with other special registers. -/
def withSr (s : State) (n : Nat) (v : Word) : State := atCore s fun k => k.setSr n v

/-- The base state with the executing syllable's accesses put off. -/
def lateBase (x : Cluster) : State := { base x with actor := ⟨0, x, 0, false, true⟩ }

theorem settled_base (x : Cluster) : Settled (base x) := by cases x <;> exact ⟨rfl, rfl, by decide +kernel⟩

theorem prompt_base (x : Cluster) : Prompt (base x) := by cases x <;> exact ⟨⟨rfl, rfl, by decide +kernel⟩, rfl⟩

/-- A user's context. -/
def userBase (x : Cluster) : State := atCore (base x) fun k => { k with ctx := k.ctx.map fun c => { c with user := true } }

/-- An outcome is a next state that a test accepts. -/
def next (r : Res) (f : State → Bool := fun _ => true) : Bool :=
  match r with
  | .next t => f t
  | _ => false

/-! ### Scalar instructions, branches and special registers -/

theorem test_scalar_forms : (∃ f, binary (.lea 63 1 2 63) = some (63, 1, 2, f)) ∧ (∃ f, binary (.add 0 0 0) = some (0, 0, 0, f)) ∧
    ∃ f, unary (.extr 1 2 64 0) = some (1, 2, f) := ⟨⟨_, rfl⟩, ⟨_, rfl⟩, _, rfl⟩

theorem test_predicate_forms : predicate (base .S) (.tstb 0 1 63) = some (0, false) := rfl

/-- The reads that hold in every state, outside pure tasks, as a supervisor, and outside the handler. -/
theorem test_reads_forms : (∃ v, reads (base .X1) (.mpop 5 0 true) = some (True, 5, v)) ∧
    (∃ ok v, reads (base .S) (.mfsr 1 0x011) = some (ok, 1, v) ∧ ok) ∧
    (∃ ok v, reads (base .S) (.rdtime 2) = some (ok, 2, v) ∧ ok) ∧ ∃ ok v, reads (base .S) (.fread 3 127) = some (ok, 3, v) ∧ ok :=
  ⟨⟨_, rfl⟩, ⟨_, _, rfl, fun h => absurd h (by decide), fun h => absurd h (by decide)⟩, ⟨_, _, rfl, rfl⟩, _, _, rfl, rfl⟩

/-- A loop whose body holds the target 0x10000, under one whose body does not. -/
def inLoops (x : Cluster) : State :=
  onCluster (base x) fun k => { k with loops := [⟨0x10020, 0x10040, 2⟩, ⟨0x10000, 0x10060, 3⟩] }

theorem test_branch_states :
    let s := withScalars (inLoops .S) [(1, 0x10000)]
    let q := atCore s fun k => k.setSqueue 12 [1]
    (s.getS 1).toNat % 32 = 0 ∧ next (exec (.br 0) s) = true ∧ next (exec (.bri 1) s) = true ∧ next (exec (.call 0) s) = true ∧
      next (exec (.calli 1) s) = true ∧ next (exec (.ret 1) s) = true ∧ mayRead q 12 ∧ q.here.squeue 12 = [1] ∧
      next (exec (.brq 12 0) q) (fun t => t.me.loops == [⟨0x10000, 0x10060, 3⟩]) = true := by
  refine ⟨rfl, rfl, rfl, rfl, rfl, rfl, ⟨rfl, rfl⟩, rfl, rfl⟩

theorem test_brq_not_taken : mayRead (atCore (base .S) fun k => k.setSqueue 15 [2]) 15 ∧ (2 : Word).getLsbD 0 = false := ⟨⟨rfl, rfl⟩, rfl⟩

/-- A full loop stack whose top ends at 0x10040. -/
def fullLoops : State := onCluster (base .A) fun k => { k with loops := List.replicate 4 ⟨0x10020, 0x10040, 2⟩ }

/-- The four cases of a loop start: past the top's end, of count zero, with room, and with the stack full. -/
theorem test_loop_starts :
    (∃ l ls, (inLoops .S).me.loops = l :: ls ∧ l.last.toNat < (0x10000 + 32 * 3 : Nat)) ∧
    loopStart (inLoops .S) (.loopi 3 1) = some (1, 3) ∧ loopStart (base .S) (.loop 0 1) = some (0, 1) ∧
    (base .S).me.loops.length < 4 ∧ loopStart (base .S) (.loopi 1 0x7FFFFFF) = some (0x7FFFFFF, 1) ∧
    4 ≤ fullLoops.me.loops.length ∧ ¬ (∃ l ls, fullLoops.me.loops = l :: ls ∧ l.last.toNat < (0x10000 + 32 * 2 : Nat)) ∧
    loopStart fullLoops (.loopi 2 1) = some (1, 2) := by
  refine ⟨⟨_, _, rfl, by decide⟩, rfl, rfl, by decide, rfl, by decide, ?_, rfl⟩
  rintro ⟨l, ls, h, h'⟩
  cases h
  revert h'
  decide

theorem test_lbreak_states : (∃ l ls, (inLoops .X0).me.loops = l :: ls) ∧ (base .X0).me.loops = [] := ⟨⟨_, _, rfl⟩, rfl⟩

theorem test_halt_states :
    ∀ x b w, x ≠ (base .S).actor.cl → ((base .S).here.cl x).status ≠ .waiting (.rendezvous b w) := by
  intro x b w _
  cases x <;> exact fun h => by cases h

/-- A fence with its cluster's reductions applied. -/
theorem test_completion_states : Settled (base .A) ∧ (base .A).reductionsOut = false := ⟨settled_base _, rfl⟩

/-- The time locked and reached, not reached, and unlocked. -/
theorem test_waitt_states :
    let s : State := { base .S with dev := { Device.reset with tlock := true, time := 5 } }
    s.here.isPure = false ∧ s.dev.tlock = true ∧ ((withScalars s [(1, 5)]).getS 1).toNat ≤ s.dev.time.toNat ∧
      s.dev.time.toNat < ((withScalars s [(1, 6)]).getS 1).toNat ∧ (base .S).dev.tlock = false := by
  refine ⟨rfl, rfl, ?_, ?_, rfl⟩ <;> decide

/-- Supervisors and users, with and without a queue instruction completed; every row of the table. -/
theorem test_special_states :
    (userBase .S).here.isPure = false ∧ (userBase .S).here.isUser = true ∧ (base .S).here.isUser = false ∧
      (userBase .S).here.regs.qUsed = false ∧ (userBase .S).useQueue.here.regs.qUsed = true ∧
      (withSr (base .S) 0x090 1).here.isPure = true ∧ ¬ pureReads 0x050 ∧
      [0x011, 0x003, 0x006, 0x022, 0x040, 0x041, 0x070, 0x077, 0x078, 0x080, 0x084, 0x0A0, 0x0B0, 0x000].map
        (fun n => (writable n).isSome) = [true, true, true, true, true, true, true, true, true, true, true, true, true, false] := by
  refine ⟨rfl, rfl, rfl, rfl, rfl, rfl, by unfold Says.pureReads; decide, rfl⟩

/-- Queues with room, full, with an entry and empty; a cluster that is at neither end. -/
theorem test_queue_states :
    let s := base .S
    mayWrite s 12 ∧ mayRead s 15 ∧ (s.here.squeue 12).length < 32 ∧ s.here.squeue 15 = [] ∧
      (atCore s fun k => k.setSqueue 12 [7]).here.squeue 12 = 7 :: [] ∧ (base .A).here.isWriter 12 .A = false ∧
      (base .A).here.isReader 12 .A = false ∧ 32 ≤ ((atCore s fun k => k.setSqueue 12 (List.replicate 32 0)).here.squeue 12).length := by
  refine ⟨⟨rfl, rfl⟩, ⟨rfl, rfl⟩, by decide, rfl, rfl, rfl, rfl, Nat.le_of_eq rfl⟩

/-- A vector queue from A to A, empty, with an entry and full. -/
theorem test_vector_queue_states :
    let s := withSr (base .A) 0x0B0 5
    mayWrite s 0 ∧ mayRead s 0 ∧ (s.here.vqueue 0).length < 8 ∧ s.here.vqueue 0 = [] ∧
      (atCore s fun k => k.setVqueue 0 [0]).here.vqueue 0 = 0 :: [] ∧
      8 ≤ ((atCore s fun k => k.setVqueue 0 (List.replicate 8 0)).here.vqueue 0).length := by
  refine ⟨⟨rfl, by decide⟩, ⟨rfl, by decide⟩, by decide, rfl, rfl, Nat.le_of_eq rfl⟩

/-- A flag with one increment, and at zero; a full one; and an engine that waits before any increment. -/
theorem test_flag_states : (base .S).here.inHandler = false ∧ (base .S).me.held = [] ∧
    [Party.cluster .S].idxOf (.cluster .S) < ((base .S).here.signal 127 .none |>.flag 127).count ∧
    ((base .S).here.flag 1).count ≤ [Party.cluster .S].idxOf (.cluster .S) ∧ incremented ⟨255, [], .none⟩ = 255 ∧
    grants ⟨0, [.engine .cin], .none⟩ (incremented ⟨0, [.engine .cin], .none⟩) = [.cin] := by
  refine ⟨rfl, rfl, by and_intros <;> decide +kernel⟩

/-- What a handler and a pure task may not execute, and what both may. -/
theorem test_refused_forms : handlerRefuses (.mma 5 ⟨0, 0⟩ 1 2 0 true true true) = true ∧ handlerRefuses (.fsig 1) = true ∧
    handlerRefuses .eret = false ∧ pureRefuses (.csload 1 2) = true ∧ pureRefuses (.vredm 0 1 0 .core .normal) = true ∧
    pureRefuses .nop = false ∧ (withSr (base .S) 0x090 1).here.isPure = true := by
  refine by and_intros <;> rfl

theorem test_vector_forms : (∃ f, vector (base .X0) (.vquant 1535 0 1 15 .rdn true 7) = some (1535, 4, f)) ∧
    (∃ f, vector (base .X1) (.vrsum 0 0 0 .rw30 .rne) = some (0, 32, f)) ∧
    ∃ f, mask (base .X0) (.vcmp 0 1 2 15 .f32 .leu) = some (0, f) := ⟨⟨_, rfl⟩, ⟨_, rfl⟩, _, rfl⟩

/-! ### Memory -/

/-- Bytes of device memory from an address. -/
def hbmAt (a n : Nat) (mode : PageMode) : List Loc := (List.range n).map fun i => ⟨.hbm (a + i), mode, none⟩

theorem inPlace_hbmAt (a n : Nat) : ∀ l ∈ hbmAt a n .hc, InPlace l := by
  intro l h
  simp only [hbmAt, List.mem_map] at h
  obtain ⟨i, -, rfl⟩ := h
  exact ⟨rfl, by simp, by simp⟩

theorem core_reset (c : CoreId) : State.reset.core c = Core.reset := by
  show (Vector.replicate 256 Core.reset)[c.val] = _
  simp

theorem canonical_base (x : Cluster) : Canonical (base x) where
  mem := rfl
  host := rfl
  pads := fun c => by
    unfold base
    dsimp only
    rw [core_setCore]
    split
    · rfl
    · show Memory.wf (State.reset.core c).loc.scratch = true
      rw [core_reset]
      rfl

theorem canonical_lateBase (x : Cluster) : Canonical (lateBase x) := canonical_of_same (canonical_base x) rfl rfl fun _ => rfl

/-- A read that is answered, no peer's byte in it. -/
def loads (s : State) (ag : Agent) (acc : Accept) (ev : Evict) (vas : List Word) : Bool :=
  match s.load ag acc ev vas with
  | .ok _ _ [] => true
  | _ => false

theorem loads_ok {s : State} {ag : Agent} {acc : Accept} {ev : Evict} {vas : List Word} (h : loads s ag acc ev vas = true) :
    ∃ s1 bytes, s.load ag acc ev vas = .ok s1 bytes [] := by
  unfold loads at h
  split at h
  · exact ⟨_, _, by assumption⟩
  · cases h

theorem heads_one {n : Nat} {a : Word} (h : a.toNat % n = 0) : Aligned n [a] := fun _ hb => by
  rw [List.mem_singleton.mp hb]
  exact h

/-- Doublewords at 0x10008 and 0x7F0000000000, and a register of 64 lanes at the end of the context's page. -/
theorem test_load_states :
    let s := withScalars (base .A) [(5, 0x10000), (6, 0x7F0000000000)]
    Prompt s ∧ (∃ f, loadForm s (.ldd 63 5 ⟨.acquire, .core, .normal⟩ 8) = some f ∧ Aligned f.align f.heads ∧
      (∃ s1 bytes, s.load s.agentHere .any f.mf.ev (f.slots.map (·.2)) = .ok s1 bytes []) ∧
      ∀ x ∈ f.slots, sget none s.me.fetched x.2.toNat = none) ∧
    (∃ f, loadForm s (.ldb 0 6 ⟨.relaxed, .cluster, .noAlloc⟩ 0) = some f ∧ Aligned f.align f.heads ∧
      ∃ s1 bytes, s.load s.agentHere .any f.mf.ev (f.slots.map (·.2)) = .ok s1 bytes []) ∧
    ∃ f, loadForm s (.vldn 1535 5 ⟨.sc, .system, .first⟩ .b16 0xFFF0) = some f ∧ Aligned f.align f.heads ∧
      ∃ s1 bytes, s.load s.agentHere .any f.mf.ev (f.slots.map (·.2)) = .ok s1 bytes [] := by
  refine ⟨⟨⟨rfl, rfl, by decide +kernel⟩, rfl⟩, ⟨_, rfl, ?_, loads_ok (by decide +kernel), fun x _ => rfl⟩, ⟨_, rfl, ?_, loads_ok (by decide +kernel)⟩,
    _, rfl, ?_, loads_ok (by decide +kernel)⟩ <;> exact heads_one (by decide +kernel)

theorem place_hbmAt (a n : Nat) (mode : PageMode) :
    ∀ l ∈ hbmAt a n mode, (l.stash = none ∨ l.mode ≠ .sc) ∧ ∀ a, l.place ≠ .peer a := by
  intro l h
  simp only [hbmAt, List.mem_map] at h
  obtain ⟨i, -, rfl⟩ := h
  exact ⟨.inl rfl, by simp⟩

/-- An acquire load, a release store on a software-coherent page and a reduction that are put off. -/
theorem test_put_off_states :
    let s := withScalars (lateBase .A) [(5, 0x10000), (4, 0x1234)]
    s.me.held = [] ∧ s.here.posted = [] ∧ s.storesOut s.actor.core = false ∧
    (∃ f, loadForm s (.ldw 63 5 ⟨.acquire, .device, .normal⟩ 8) = some f ∧ Aligned f.align f.heads ∧ f.mf.od ≠ .sc ∧
      PutOff s .read .any (f.slots.map (·.2)) (hbmAt 0x10008 4 .hc)) ∧
    (∃ f, storeForm s (.std 4 5 ⟨.release, .device, .normal⟩ 0x17FF8) = some f ∧ Aligned f.align f.heads ∧
      PutOff s .write .any (f.bytes.map (·.1)) (hbmAt 0x27FF8 8 .sc)) ∧
    s.here.isPure = false ∧ ∃ f, atomForm s (.radd 5 4 .core .normal true 16) = some f ∧ f.dest = none ∧ Aligned 8 [f.va] ∧
      PutOff s .atomic .atomics (span f.va 8) (hbmAt 0x10010 8 .hc) := by
  refine ⟨rfl, rfl, by decide +kernel, ⟨_, rfl, heads_one (by decide +kernel), by decide, ?_⟩,
    ⟨_, rfl, heads_one (by decide +kernel), ?_⟩, rfl, _, rfl, rfl, heads_one (by decide +kernel), ?_⟩
  all_goals exact ⟨rfl, by decide +kernel, place_hbmAt _ _ _, by decide +kernel, by decide +kernel, by decide +kernel⟩

theorem test_read_states :
    let s := base .A
    s.checkAccess s.agentHere .read .any (span 0x1FFF8 8) = .ok (hbmAt 0x1FFF8 8 .hc) ∧
      (∀ l ∈ hbmAt 0x1FFF8 8 .hc, InPlace l) ∧ (∀ l ∈ hbmAt 0x1FFF8 8 .hc, s.poisonAt s.agentHere l = none) ∧
      s.stall s.agentHere (hbmAt 0x1FFF8 8 .hc) = none ∧ s.entangled = false :=
  ⟨by decide +kernel, inPlace_hbmAt _ _, by decide +kernel, by decide +kernel, by decide +kernel⟩

/-- A pending result. -/
def waitingFor (d : LoadDest) (raw : Vec) : PendingLoad := ⟨d, raw, [], 0, .core, .relaxed, .normal, .cluster, .load⟩

/-- The base state with one pending result. -/
def pendingBase (d : LoadDest) (raw : Vec) : State := onCluster (base .A) fun k => { k with pending := [waitingFor d raw] }

theorem pendingBase_choice (d : LoadDest) (raw : Vec) :
    ((pendingBase d raw).cl 0 .A).pending[Config.choice (pendingBase d raw).free % ((pendingBase d raw).cl 0 .A).pending.length]? =
      some (waitingFor d raw) := by
  show [_][_ % 1]? = _
  rw [Nat.mod_one]
  rfl

/-- A load of two bytes, one of a vector's lanes, a temporary's and a mask's result are pending. -/
theorem test_pending_states :
    (∀ d ∈ [LoadDest.scalar 1 2 true, .vector 1535 1, .temp 3 1, .mask 1 1], ((pendingBase d 0x8000).core 0).completes = true ∧
      ((pendingBase d 0x8000).cl 0 .A).pending[Config.choice (pendingBase d 0x8000).free %
        ((pendingBase d 0x8000).cl 0 .A).pending.length]? = some (waitingFor d 0x8000)) ∧
    ∀ p ∈ [waitingFor (.mask 1 1) 7], ((p.unread.flatMap (·.2)).map (·.1)).Nodup := by
  refine ⟨fun d h => ⟨?_, pendingBase_choice _ _⟩, fun p h => ?_⟩
  · have : d = .scalar 1 2 true ∨ d = .vector 1535 1 ∨ d = .temp 3 1 ∨ d = .mask 1 1 := by simpa using h
    rcases this with rfl | rfl | rfl | rfl <;> rfl
  · rw [List.mem_singleton.mp h]
    exact List.nodup_nil

theorem test_store_states :
    let s := withScalars (base .A) [(5, 0x10000), (4, 0x1234)]
    Prompt s ∧ ∃ f, storeForm s (.std 4 5 ⟨.relaxed, .cluster, .normal⟩ 0xFFF8) = some f ∧ Aligned f.align f.heads ∧
      s.checkAccess s.agentHere .write .any (f.bytes.map (·.1)) = .ok (hbmAt 0x1FFF8 8 .hc) ∧
      s.stall s.agentHere (hbmAt 0x1FFF8 8 .hc) = none :=
  ⟨⟨⟨rfl, rfl, by decide +kernel⟩, rfl⟩, _, rfl, heads_one (by decide +kernel), by decide +kernel, by decide +kernel⟩

theorem test_coherent_store_states :
    let s := withScalars (base .A) [(5, 0x20000), (4, 0x1234)]
    Prompt s ∧ RoomFor s s.actor.core 2 ∧ s.stall s.agentHere (hbmAt 0x2001E 2 .sc) = none ∧
      ∃ f, storeForm s (.sth 4 5 ⟨.relaxed, .cluster, .last⟩ 30) = some f ∧
      Aligned f.align f.heads ∧ f.mf.ev ≠ .noAlloc ∧
      s.checkAccess s.agentHere .write .any (f.bytes.map (·.1)) = .ok (hbmAt 0x2001E 2 .sc) ∧
      ∀ l ∈ hbmAt 0x2001E 2 .sc, OnScPage l := by
  refine ⟨⟨⟨rfl, rfl, by decide +kernel⟩, rfl⟩, ⟨rfl, by decide +kernel, rfl, by decide +kernel⟩, by decide +kernel, _, rfl,
    heads_one (by decide +kernel), by decide, by decide +kernel, ?_⟩
  intro l h
  have : l = ⟨.hbm 0x2001E, .sc, none⟩ ∨ l = ⟨.hbm 0x2001F, .sc, none⟩ := by simpa [hbmAt, List.range_succ] using h
  rcases this with rfl | rfl
  · exact ⟨rfl, rfl, _, by decide, .inl rfl⟩
  · exact ⟨rfl, rfl, _, by decide, .inl rfl⟩

theorem test_atomic_states :
    let s := withScalars (base .A) [(5, 0x10000), (4, 0xFFFFFFFF)]
    Prompt s ∧ s.here.isPure = false ∧
    (∃ f, atomForm s (.acas 1 5 4 0 .device .normal true 0xFFF8) = some f ∧ Aligned 8 [f.va] ∧
      s.checkAccess s.agentHere .atomic .atomics (span f.va 8) = .ok (hbmAt 0x1FFF8 8 .hc) ∧
      s.stall s.agentHere (hbmAt 0x1FFF8 8 .hc) = none ∧ s.storesOut s.actor.core = false ∧
      ∀ l ∈ hbmAt 0x1FFF8 8 .hc, s.poisonAt s.agentHere l = none) ∧
    ∃ f, atomForm s (.rfadd 5 4 .core .normal 4) = some f ∧ Aligned 4 [f.va] ∧
      s.checkAccess s.agentHere .atomic .atomics (span f.va 4) = .ok (hbmAt 0x10004 4 .hc) :=
  ⟨⟨⟨rfl, rfl, by decide +kernel⟩, rfl⟩, rfl, ⟨_, rfl, heads_one (by decide +kernel), by and_intros <;> decide +kernel⟩,
    _, rfl, heads_one (by decide +kernel), by decide +kernel⟩

/-! ### Accesses that are performed later -/

/-- Two stores of cluster A to different words that no other agent sees, and a reduction. -/
def heldBase : State :=
  let st (a : Nat) : Held := ⟨0, .cluster, .relaxed, .normal, 0x10000, .store [(⟨.hbm a, .hc, none⟩, 5)]⟩
  onCluster (base .A) fun k => { k with held := [st 0x10000, st 0x10004,
    ⟨1, .core, .relaxed, .normal, 0x10008, .reduce .add ((List.range 4).map fun i => .hbm (0x10008 + i)) 7⟩] }

/-- A piece of a store that the core's agents see, and an older one. -/
def postedBase : State :=
  atCore (base .A) fun k => { k with posted := [⟨.A, 0, .core, .relaxed, .core, 0x10000, [(.hbm 0x10000, 5)]⟩,
    ⟨.A, 1, .core, .relaxed, .core, 0x10020, [(.hbm 0x10020, 5)]⟩] }

/-- A pending load with a piece that is not read. -/
def unreadBase : State :=
  onCluster (base .A) fun k => { k with pending := [⟨.scalar 1 4 false, 0,
    [(0x10000, (List.range 4).map fun i => (i, ⟨.hbm (0x10000 + i), .hc, none⟩))], 0, .core, .relaxed, .normal, .cluster, .load⟩] }

theorem canonical_heldBase : Canonical heldBase := canonical_setMe (canonical_base .A) _

theorem allRead_of {s : State} (h : s.cores.toList.all (fun k => !k.unread) = true) : AllRead s := by
  intro d
  have m : s.core d ∈ s.cores.toList := by
    show s.cores[d.val] ∈ s.cores.toList
    exact Vector.mem_toList_iff.mpr (Vector.getElem_mem d.isLt)
  simpa using List.all_eq_true.mp h _ m

theorem test_held_states :
    (∃ h l, (heldBase.cl 0 .A).held[1]? = some h ∧ h.write = .store l ∧ h.od = .relaxed ∧ (∀ w ∈ l, w.1.mode ≠ .sc) ∧
      ∃ w ∈ l, ∀ a, w.1.place ≠ .pad 0 a) ∧ AllRead heldBase ∧ heldBase.entangled = false ∧
    (heldBase.core 0).posted = [] ∧ (∃ h op ps b, (heldBase.cl 0 .A).held[2]? = some h ∧ h.write = .reduce op ps b ∧
      ∀ p ∈ ps, ∀ a, p ≠ .peer a) ∧ AllRead postedBase ∧ postedBase.entangled = false ∧
    (∀ q ∈ (postedBase.core 0).posted, q.reach = .core) ∧ (postedBase.core 0).posted.length = 2 := by
  refine ⟨⟨_, _, rfl, rfl, rfl, fun w h => ?_, _, List.mem_singleton.mpr rfl, fun a => by simp⟩, allRead_of (by decide +kernel),
    by decide +kernel, rfl, ⟨_, _, _, _, rfl, rfl, ?_⟩, allRead_of (by decide +kernel), by decide +kernel, by decide +kernel, rfl⟩
  · rw [List.mem_singleton.mp h]
    decide
  · intro p h a
    obtain ⟨i, -, rfl⟩ := List.mem_map.mp h
    simp

theorem test_unread_states : ∃ l u, (unreadBase.cl 0 .A).pending[0]? = some l ∧ l.unread[0]? = some u ∧ (u.2.map (·.1)).Nodup ∧
    ∀ y ∈ u.2, y.2.mode ≠ .sc := ⟨_, _, rfl, rfl, by decide, by decide⟩

/-- A load that a later access has passed toward the device, and a piece that agents of the device find landed. -/
def passedBase : State :=
  let l : PendingLoad := ⟨.scalar 1 4 false, 0, [(0x10000, [(0, ⟨.hbm 0x10000, .hc, none⟩)])], 0, .device, .relaxed, .normal, .device, .load⟩
  atCore (onCluster (base .A) fun k => { k with pending := [l] }) fun k =>
    { k with posted := [⟨.A, 1, .device, .relaxed, .device, 0x10020, [(.hbm 0x10020, 5)]⟩] }

theorem passedBase_other {c : CoreId} (h : c ≠ 0) : passedBase.core c = Core.reset := by
  show ((base .A).setCore 0 _).core c = _
  rw [core_setCore, if_neg h]
  show (State.setCore _ 0 _).core c = _
  rw [core_setCore, if_neg h]
  exact core_reset c

theorem passedBase_planned (due : CoreId → Cluster → PendingLoad → List Place → Bool)
    (h : planned passedBase 0 .A (due 0 .A)) (c : CoreId) (x : Cluster) : planned passedBase c x (due c x) := by
  by_cases hc : c = 0
  · subst hc
    cases x with
    | A => exact h
    | _ => exact planned_nil rfl
  · refine planned_nil ?_
    rw [State.cl, passedBase_other hc]
    cases x <;> rfl

/-- A write by another core to other bytes leaves them. -/
theorem test_passed_states :
    let s := passedBase
    let ag := (s.core 5).agent 5 (.cluster .S)
    ((s.beforeWrite ag [.hbm 0x10040]).cl 0 .A).pending.map (fun l => l.passed != .cluster && ag.within 0 l.passed && !l.unread.isEmpty) =
      [true] ∧ ((s.landReaching ag [.hbm 0x10040]).core 0).posted.map (fun p => p.reachesTo 0 ag) = [true] := by
  have read : ∀ (due : CoreId → Cluster → PendingLoad → List Place → Bool), due 0 .A = noPiece → passedBase.readWhere due = passedBase :=
    fun due hd => readWhere_none (passedBase_planned due (by rw [hd]; unfold planned; decide +kernel))
  have settle : ∀ (d : CoreId) (due : Posted → Bool), due ⟨.A, 1, .device, .relaxed, .device, 0x10020, [(.hbm 0x10020, 5)]⟩ = false →
      passedBase.settlePosted d due noRaise [] = passedBase := by
    intro d due hd
    by_cases h : d = 0
    · subst h
      have plan : ∀ m, planPosted m due noRaise [] [⟨.A, 1, .device, .relaxed, .device, 0x10020, [(.hbm 0x10020, 5)]⟩] =
          ([], [⟨.A, 1, .device, .relaxed, .device, 0x10020, [(.hbm 0x10020, 5)]⟩], []) := by
        intro m
        show (if (due ⟨.A, 1, .device, .relaxed, .device, 0x10020, [(.hbm 0x10020, 5)]⟩ || _ || _) = true then _ else _) = _
        rw [hd]
        rfl
      refine settlePosted_none ?_ fun d x ps => passedBase_planned (fun d _ _ u => d != 0 && bytesMeet u ps) ?_ d x
      · rw [show (passedBase.core 0).posted = [⟨.A, 1, .device, .relaxed, .device, 0x10020, [(.hbm 0x10020, 5)]⟩] from rfl, plan]
        exact ⟨rfl, rfl⟩
      · show planned passedBase 0 .A noPiece
        unfold planned
        decide +kernel
    · exact settlePosted_nil _ _ _ (by rw [passedBase_other h]; rfl)
  have land : ∀ ag, passedBase.landReaching ag [.hbm 0x10040] = passedBase := by
    intro ag
    unfold State.landReaching
    split
    · refine foldl_id fun d _ => settle d _ ?_
      show (_ && false) = false
      simp
    · rfl
  have before : passedBase.beforeWrite ((passedBase.core 5).agent 5 (.cluster .S)) [.hbm 0x10040] = passedBase := by
    unfold State.beforeWrite
    dsimp only
    rw [show ((passedBase.core 5).agent 5 (.cluster .S)).core = some 5 from rfl]
    dsimp only
    rw [settlePosted_nil _ _ _ (by rw [passedBase_other (by decide)]; rfl), land]
    unfold State.readPassed
    split
    · refine readWhere_none (passedBase_planned _ ?_)
      unfold planned
      decide +kernel
    · rfl
  dsimp only
  rw [before, land]
  exact ⟨by decide +kernel, by decide +kernel⟩

/-- The younger store and the younger piece may be performed first. -/
theorem test_younger_store : Move.perform 0 .A 1 ∈ heldBase.moves := by decide +kernel

theorem test_younger_piece : Move.land 0 1 ∈ postedBase.moves := by decide +kernel

theorem test_piece_of_a_load : Move.read 0 .A 0 0 ∈ unreadBase.moves := by decide +kernel

theorem test_fences_complete : next (exec .mark (base .A)) (fun t => t.actor.done) = true ∧
    next (exec (.fence .sc .device) (base .A)) (fun t => t.actor.done) = true := ⟨rfl, rfl⟩

/-! ### Refused accesses -/

/-- Addresses one past alignment; and the first address of each region that R161 refuses. -/
theorem test_refused_accesses :
    let s := withScalars (base .A) [(5, 0x10001)]
    (∃ f, loadForm s (.ldh 1 5 ⟨.relaxed, .cluster, .normal⟩ 0) = some f ∧
      (f.heads.find? fun b => b.toNat % f.align ≠ 0) = some 0x10001) ∧
    (∃ f, storeForm s (.stw 1 5 ⟨.relaxed, .cluster, .normal⟩ 0) = some f ∧
      (f.heads.find? fun b => b.toNat % f.align ≠ 0) = some 0x10001) ∧
    (∃ f, atomForm s (.rmin 5 1 .core .normal false 1) = some f ∧ f.va.toNat % 4 ≠ 0) ∧
    regionOf 0x800000000000 = .nonCanonical ∧ regionOf 0x7FFFFFFFFFFF ≠ .nonCanonical ∧
    (userBase .A).agentHere.user = true ∧ regionOf 0xFFFF800000000000 = .supervisor ∧ regionOf 0x7F0000200000 = .noWindow ∧
    s.checkWindow s.agentHere .read 0x7F00001FEFFF = none := by
  refine ⟨⟨_, rfl, by decide +kernel⟩, ⟨_, rfl, by decide +kernel⟩, ⟨_, rfl, by decide +kernel⟩, by decide +kernel, by decide +kernel, rfl,
    by and_intros <;> decide +kernel⟩

/-- A byte outside the ranges of a pure task. -/
theorem test_pure_access : (atCore (withSr (base .A) 0x090 1) fun k => k).checkPure
    (atCore (withSr (base .A) 0x090 1) fun k => k).agentHere .read 0x10000 ≠ none := by decide +kernel

/-- A pure context that may read the first eight bytes of page 1 and write the next eight. -/
def pureBase : State := atCore (withSr (base .A) 0x090 1) fun k => { k with ctx := k.ctx.map fun c =>
  { c with reads := [⟨0x10000, 8⟩], writes := [⟨0x10008, 8⟩] } }

theorem test_pure_steps : pureBase.agentHere.pure = some ([⟨0x10000, 8⟩], [⟨0x10008, 8⟩]) ∧ regionOf 0x10007 = .translated ∧
    pureBase.checkPure pureBase.agentHere .read 0x10007 = none ∧ pureBase.checkPure pureBase.agentHere .write 0x10008 = none ∧
    pureBase.checkPure pureBase.agentHere .read 0x10008 = some (.fault .pureRead 0x10008) ∧
    pureBase.checkPure pureBase.agentHere .write 0x10007 = some (.fault .pureWrite 0x10007) := by
  and_intros <;> decide +kernel

/-- The leaf entries that a translation gives, its permissions and its page; and no entry. -/
theorem test_translation_steps :
    let s := base .A
    s.leaf s.agentHere .read 0x10000 = .ok (leafRw 0x10000 0, 3) ∧ (s.polder 0).inRange 0x10000 = true ∧
      (s.polder 0).inRange 0x800000 = false ∧ (∃ e, s.leaf s.agentHere .read 0x3000000 = .error e) ∧
      s.isSecure 0x10000 = false ∧ (leafRw 0x10000 0).getLsbD 2 = true ∧
      s.locate s.agentHere .fetch .any 0x10000 = .error (.fault .permission 0x10000) ∧
      s.locate s.agentHere .atomic .atomics 0x20000 = .error (.fault .atomicPage 0x20000) := by
  refine ⟨by decide +kernel, by decide +kernel, by decide +kernel, ⟨.fault .xlateRead 0x3000000, by decide +kernel⟩, by and_intros <;> decide +kernel⟩

/-- A page of host memory mapped at the start of the core's scratchpad. -/
def stashBase : State :=
  let m : StashMap := ⟨0, 0x10000, 1, [], []⟩
  atCore (base .A) fun k => { k with loc := { k.loc with stash := [m], tlb := [⟨0, false, 1, leafRw 0x10100 0, 3⟩] } }

theorem test_stash_steps :
    stashBase.stashOf stashBase.agentHere 0x7F0000000008 = some (0x10008, 0, 0) ∧
      stashBase.stashErr stashBase.agentHere (0x7F0000000008, ⟨.host 0x10008, .hc, some (0, 0)⟩) = some (.fault .permission 0x10008) ∧
      (stashBase.core 0).stashAt 63 = some ⟨0, 0x10000, 1, [], []⟩ ∧ (stashBase.core 0).stashAt 64 = none ∧
      { stashBase.agentHere with core := some 1 }.core ≠ some 0 := by
  and_intros <;> decide +kernel

/-- The second byte of an access lies in a poisoned sector. -/
theorem test_delivery_step :
    let s := { base .A with poison := [(0x800 + 1, true)] }
    s.checkAccess s.agentHere .read .any [0x1001F, 0x10020] = .ok [⟨.hbm 0x1001F, .hc, none⟩, ⟨.hbm 0x10020, .hc, none⟩] ∧
      s.poisonAt s.agentHere ⟨.hbm 0x1001F, .hc, none⟩ = none ∧
      s.poisonAt s.agentHere ⟨.hbm 0x10020, .hc, none⟩ = some .hbmUncorrectable := by
  and_intros <;> decide +kernel

/-- A load, a store and an atomic with aligned addresses that no translation covers. -/
theorem test_failed_checks :
    let s := withScalars (base .A) [(5, 0x3000000)]
    Settled s ∧ (∃ f, loadForm s (.ldd 1 5 ⟨.relaxed, .cluster, .normal⟩ 8) = some f ∧ Aligned f.align f.heads ∧
      (match s.load s.agentHere .any f.mf.ev (f.slots.map (·.2)) with | .err (.fault c va) => c == .xlateRead && va == 0x3000008 | _ => false) = true) ∧
    (∃ f, storeForm s (.std 1 5 ⟨.relaxed, .cluster, .normal⟩ 8) = some f ∧ Aligned f.align f.heads ∧
      s.checkAccess s.agentHere .write .any (f.bytes.map (·.1)) = .error (.fault .xlateWrite 0x3000008)) ∧
    s.here.isPure = false ∧ ∃ f, atomForm s (.radd 5 4 .core .normal true 16) = some f ∧ Aligned (if f.wide then 8 else 4) [f.va] ∧
      s.checkAccess s.agentHere .atomic .atomics (span f.va (if f.wide then 8 else 4)) = .error (.fault .xlateWrite 0x3000010) := by
  refine ⟨⟨rfl, rfl, by decide +kernel⟩, ⟨_, rfl, heads_one (by decide +kernel), by decide +kernel⟩, ⟨_, rfl, heads_one (by decide +kernel), by decide +kernel⟩,
    rfl, _, rfl, heads_one (by decide +kernel), by decide +kernel⟩

/-- A VREDM of one lane, a ROFADD and an MWAIT with aligned addresses that no translation covers. -/
theorem test_failed_checks_more :
    let s := withScalars (base .A) [(5, 0x3000000)]
    let lane : Vec := BitVec.ofNat 2048 ((List.range 63).foldl (fun n _ => n * 0x100000000 + 0x80000000) 0 * 0x100000000 + 4)
    let lanes := indexed 0x3000000 lane
    Settled s ∧ s.here.isPure = false ∧ lanes = [(0, 0x3000004)] ∧
      s.checkAccess s.agentHere .atomic .atomics ((laneBytes [(0, 0x3000004)]).map (·.2)) = .error (.fault .xlateWrite 0x3000004) ∧
      (ea s 5 (0x8 : BitVec 18)).toNat % 8 = 0 ∧
      s.checkAccess s.agentHere .atomic .ordered (span (ea s 5 (0x8 : BitVec 18)) 8) = .error (.fault .xlateWrite 0x3000008) ∧
      (match s.load s.agentHere .monitor .normal (span (ea s 5 (0x8 : BitVec 18)) 8) with
        | .err (.fault c va) => c == .xlateRead && va == 0x3000008 | _ => false) = true := by
  refine ⟨⟨rfl, rfl, by decide +kernel⟩, rfl, by decide +kernel, by and_intros <;> decide +kernel⟩

/-! ### Reductions by lane and in order, caches, retention, stash, monitors and barriers -/

/-- A register whose lane 0 holds 4 and whose lane 1 holds 0, the others inactive. -/
def twoLanes : Vec :=
  BitVec.ofNat 2048 ((List.range 62).foldl (fun n _ => n * 0x100000000 + 0x80000000) 0 * 0x10000000000000000 + 4)

theorem twoLanes_indexed : indexed 0x10000 twoLanes = [(0, 0x10004), (1, 0x10000)] := by decide +kernel

/-- The base state with the two lanes in v15 and their base in s5. -/
def vredmBase : State := (withScalars (base .A) [(5, 0x10000)]).setV 15 twoLanes

theorem vredmBase_lanes : indexed (vredmBase.getS 5) (vredmBase.getV 15) = [(0, 0x10004), (1, 0x10000)] := by
  rw [show vredmBase.getS 5 = 0x10000 from by decide +kernel, show vredmBase.getV 15 = twoLanes from by decide +kernel, twoLanes_indexed]

theorem test_vredm_states :
    let lanes := indexed (vredmBase.getS 5) (vredmBase.getV 15)
    let at_ : Nat → Nat := fun k => if k = 0 then 0x10004 else 0x10000
    Prompt vredmBase ∧ vredmBase.here.isPure = false ∧ Aligned 4 (lanes.map (·.2)) ∧ (∀ k, at_ k % 4 = 0) ∧
      vredmBase.checkAccess vredmBase.agentHere .atomic .atomics ((laneBytes lanes).map (·.2)) =
        .ok (lanes.flatMap fun l => (List.range 4).map fun b => ⟨.hbm (at_ l.1 + b), .hc, none⟩) ∧
      vredmBase.stall vredmBase.agentHere
        (lanes.flatMap fun l => (List.range 4).map fun b => ⟨.hbm (at_ l.1 + b), .hc, none⟩) = none := by
  rw [vredmBase_lanes]
  refine ⟨⟨⟨rfl, rfl, by decide +kernel⟩, rfl⟩, rfl, ?_, ?_, by decide +kernel, by decide +kernel⟩
  · intro a h
    have : a = 0x10004 ∨ a = 0x10000 := by simpa using h
    rcases this with rfl | rfl <;> rfl
  · intro k
    dsimp only
    split <;> rfl

/-- The same lanes in a syllable that is put off. -/
theorem test_vredm_put_off :
    let s := (withScalars (lateBase .A) [(5, 0x10000)]).setV 15 twoLanes
    let lanes := indexed (s.getS 5) (s.getV 15)
    let at_ : Nat → Nat := fun k => if k = 0 then 0x10004 else 0x10000
    PutOff s .atomic .atomics ((laneBytes lanes).map (·.2))
      (lanes.flatMap fun l => (List.range 4).map fun b => ⟨.hbm (at_ l.1 + b), .hc, none⟩) := by
  have h : indexed (((withScalars (lateBase .A) [(5, 0x10000)]).setV 15 twoLanes).getS 5)
      (((withScalars (lateBase .A) [(5, 0x10000)]).setV 15 twoLanes).getV 15) = [(0, 0x10004), (1, 0x10000)] := by
    rw [show ((withScalars (lateBase .A) [(5, 0x10000)]).setV 15 twoLanes).getS 5 = 0x10000 from by decide +kernel,
      show ((withScalars (lateBase .A) [(5, 0x10000)]).setV 15 twoLanes).getV 15 = twoLanes from by decide +kernel, twoLanes_indexed]
  dsimp only
  rw [h]
  refine ⟨rfl, by decide +kernel, fun l hl => ?_, by decide +kernel, by decide +kernel, by decide +kernel⟩
  simp only [List.mem_flatMap, List.mem_map] at hl
  obtain ⟨_, -, _, -, rfl⟩ := hl
  exact ⟨.inl rfl, by simp⟩

theorem test_rofadd_states :
    let s := withScalars (base .A) [(5, 0x10000)]
    Settled s ∧ s.here.isPure = false ∧ (ea s 5 (0x8 : BitVec 18)).toNat % 8 = 0 ∧
      s.checkAccess s.agentHere .atomic .ordered (span (ea s 5 (0x8 : BitVec 18)) 8) =
        .ok (⟨.hbm 0x10008, .hc, none⟩ :: (hbmAt 0x10008 8 .hc).tail) ∧
      s.stall s.agentHere (⟨.hbm 0x10008, .hc, none⟩ :: (hbmAt 0x10008 8 .hc).tail) = none := by
  refine ⟨⟨rfl, rfl, by decide +kernel⟩, rfl, by decide +kernel, by decide +kernel, by decide +kernel⟩

/-- The executing core holds a copy with a dirty byte of the granule at physical 0x20000. -/
def cached (x : Cluster) : State :=
  withScalars ((base x).setLine 0 (lineKey (base x).agentHere.ctx false (0x20000 / 32)) (some ⟨5, 1⟩)) [(5, 0x20000)]

theorem test_maintenance_states :
    let s := cached .A
    Settled s ∧ swf none s.here.loc.l1 = true ∧ L2RoomFor s 128 ∧ s.checkEarly s.agentHere .write [ea s 5 (0x40 : BitVec 24) &&& ~~~4095] = none ∧
      ∃ key ∈ s.blockKeys (ea s 5 (0x40 : BitVec 24) &&& ~~~4095), s.line s.actor.core key = some ⟨5, 1⟩ := by
  refine ⟨⟨rfl, rfl, by decide +kernel⟩, by decide +kernel, ⟨rfl, by decide +kernel⟩, by decide +kernel, lineKey (base .A).agentHere.ctx false (0x20000 / 32), by decide +kernel, by decide +kernel⟩

/-- Room for a retention register, and none: eight live ones, or sixteen ways. -/
theorem test_retention_states :
    let s := withScalars (base .A) [(1, 0x10000), (2, 0x10000), (3, 0x8000)]
    let full := withRetained s [⟨0, 3, 0, 0x10000, 16⟩]
    (s.getS 1).toNat % 65536 = 0 ∧ s.getS 2 ≠ 0 ∧ (s.getS 3).toNat % 65536 ≠ 0 ∧ retained s = [] ∧
      ((retained full).filter fun r => r.polder = full.here.polderNo) = [⟨0, 3, 0, 0x10000, 16⟩] := by
  and_intros <;> decide +kernel

/-- The largest mapping that fits below 0x1FF000, no mapping at an offset, and one with a dirty entry. -/
theorem test_stash_states :
    let s := withScalars (base .A) [(1, 0xFF000), (2, 0x10000), (3, 16384)]
    let m : StashMap := ⟨0xFF000, 0x10000, 1, [(0, true)], [(0, true)]⟩
    let t := withStash s [m]
    Prompt t ∧ (0xFF000 + 64 * 16384 : Nat) = 0x1FF000 ∧ s.here.smapConflict 0xFF000 (s.getS 2) 16384 = none ∧
      (∀ m ∈ s.here.loc.stash, m.off ≠ 0xFF000) ∧ (t.here.loc.stash.find? fun x => x.off == 0xFF000) = some m ∧
      (match t.store t.agentHere .any .normal (t.here.dirtyBytes m) with | .ok _ _ [] => true | _ => false) = true := by
  refine ⟨⟨⟨rfl, rfl, by decide +kernel⟩, rfl⟩, rfl, by and_intros <;> decide +kernel⟩

theorem test_mwait_states :
    let s := withScalars (base .A) [(5, 0x10000), (6, 1)]
    let va := ea s 5 (0x3F8 : BitVec 18)
    Settled s ∧ s.here.isPure = false ∧ va.toNat % 8 = 0 ∧ (∀ l ∈ hbmAt 0x103F8 8 .hc, InPlace l) ∧
      s.checkAccess s.agentHere .read .monitor (span va 8) = .ok (hbmAt 0x103F8 8 .hc) ∧
      loads s s.agentHere .monitor .normal (span va 8) = true ∧ opnd true (s.getS 6) ≠ 0 ∧ opnd true (s.getS 0) = 0 ∧
      s.fired 0 .A = false := by
  refine ⟨⟨rfl, rfl, by decide +kernel⟩, rfl, by decide +kernel, inPlace_hbmAt _ _, by and_intros <;> decide +kernel⟩

/-- A barrier object at 0x10020 that expects one arrival; and objects that are not valid, or admit no arrival. -/
theorem test_barrier_states :
    let s := { withScalars (base .S) [(5, 0x10000), (6, 1)] with mem := [(0x10020, 1)] }
    let va := ea s 5 (0x20 : BitVec 18)
    let o := barrierOf ((hbmAt 0x10020 32 .hc).map fun l => s.peek l.place)
    Settled s ∧ s.here.inHandler = false ∧ s.here.isPure = false ∧ va.toNat % 32 = 0 ∧ (∀ l ∈ hbmAt 0x10020 32 .hc, InPlace l) ∧
      (∀ l ∈ hbmAt 0x10020 32 .hc, s.poisonAt s.agentHere l = none) ∧ s.stall s.agentHere (hbmAt 0x10020 32 .hc) = none ∧
      s.storesOut s.actor.core = false ∧
      s.checkAccess s.agentHere .atomic .barrier (span va 32) = .ok (hbmAt 0x10020 32 .hc) ∧
      s.checkAccess s.agentHere .read .barrier (span va 32) = .ok (hbmAt 0x10020 32 .hc) ∧
      o.valid = true ∧ o.arrive 0 = some (⟨1, 1, 0, 0, 0⟩, 3) ∧ o.arrive 1 = some (⟨1, 0, 0, 1, 0⟩, 4) ∧ o.phase = 0 ∧
      (BarrierObj.mk 1 0 0 1 0).arrive 1 = none ∧ (BarrierObj.mk 0 0 0 0 0).valid = false := by
  refine ⟨⟨rfl, rfl, by decide +kernel⟩, rfl, rfl, by decide +kernel, inPlace_hbmAt _ _, by and_intros <;> decide +kernel⟩

theorem test_arrival_states : (BarrierObj.mk 2 1 0 2 0).valid = true ∧ (BarrierObj.mk 2 1 1 1 0).valid = true ∧
    (BarrierObj.mk 2 1 1 2 0).valid = true := by decide

/-! ### Rings, engine issue, launches and deques -/

/-- A descriptor of four tiles of one F32 element from 0x10000, its ring two slots of 256 bytes at the scratchpad's start
(R133). -/
def ringDesc : Desc := 0x8010001000000000000000000000004000000010001000100000004000000040000000000010000

/-- The same of an outlier list of one slot at 0x200. -/
def outDesc : Desc := Desc.setField (Desc.setField (Desc.setField ringDesc 0x16 2 1) 0x20 4 0x200) 0x38 4 1

theorem test_descriptors : Desc.invalid ringDesc = none ∧ Desc.invalid outDesc = none ∧ Desc.slots ringDesc = 2 ∧
    Desc.invalid (Desc.setField ringDesc 0x24 2 0) = some .ringDescriptor ∧ Desc.isOut ringDesc = false ∧ Desc.isOut outDesc = true := by
  decide +kernel

/-- The descriptor's bytes lie at 0x10040. -/
def withDesc (x : Cluster) (d : Desc) : State :=
  { withScalars (base x) [(5, 0x10000)] with mem := wrBytes [] 0x10040 (leBytes 64 d.toNat) }

/-- An unretired command names stream 31. -/
def named (s : State) : Bool := s.here.namesStream 31 (engineOrder.map fun e => (s.here.queue e).last)

/-- SETST's conditions on a descriptor that has been read. -/
def settable (s : State) (va : Word) (f : State → Desc → Bool) : Bool :=
  match s.load s.agentHere .any .normal (span va 64) with
  | .ok s1 bytes [] => f s1 (BitVec.ofNat 512 (leNat bytes))
  | _ => false

theorem test_setst_states :
    let s := withDesc .S ringDesc
    Settled s ∧ s.here.inHandler = false ∧ (s.getS 5 + BitVec.ofNat 64 (1 * 64)).toNat % 64 = 0 ∧
      settable s 0x10040 (fun t d => !named t && Desc.invalid d == none &&
        t.here.stashConflict (Desc.areas d) == none) = true ∧
      settable (withDesc .S 0) 0x10040 (fun t d => !named t && Desc.invalid d == some .ringDescriptor) = true ∧
      (∀ a ∈ span 0x10040 64, sget none s.me.fetched a.toNat = none) ∧ ((withScalars s [(5, 8)]).getS 5).toNat % 64 ≠ 0 := by
  refine ⟨⟨rfl, rfl, by decide +kernel⟩, rfl, by decide +kernel, by decide +kernel, by decide +kernel, fun a _ => rfl, by decide +kernel⟩

/-- A command that names stream 31 has not retired. -/
theorem test_setst_waits : settable (atCore (withDesc .S ringDesc) fun k => k.enqueue .cin (BitVec.ofNat 64 (2 ^ 44 + 31 * 2 ^ 19)) .none)
    0x10040 (fun t _ => named t) = true := by decide +kernel

/-- A stream with no slot filled, one with both filled, and one with a cluster's claim. -/
def ringState (x : Stream) : State := withStream (base .S) 31 x

theorem test_ring_states :
    let free := ringState ⟨some ringDesc, 0, 0, [], [], 0, 0⟩
    let full := ringState ⟨some ringDesc, 0xFFFFFFFF, 1, [], [.none, .none], 0, 0⟩
    let claimed := ringState ⟨some ringDesc, 0, 2, [⟨none, false, .none⟩, ⟨none, false, .none⟩], [], 0, 0⟩
    free.here.inHandler = false ∧ (2 : BitVec 13).toNat ≤ Desc.slots ringDesc ∧ 2 ≤ full.here.available 31 ∧
      free.here.available 31 < 1 ∧ 2 ≤ (free.here.stream 31).free ringDesc ∧ (full.here.stream 31).free ringDesc < 1 ∧
      2 ≤ (unmarked (claimed.here.stream 31).claims).length ∧ (unmarked (free.here.stream 31).claims).length < 1 ∧
      (claimed.here.stream 31).claims.length ≤ ((claimed.here.stream 31).t - (claimed.here.stream 31).h).toNat ∧
      ((base .S).here.stream 31).desc = none ∧ Desc.slots ringDesc < (3 : BitVec 13).toNat ∧
      ((ringState ⟨some outDesc, 0, 0, [], [], 0, 0⟩).here.stream 31).desc = some outDesc := by
  refine ⟨rfl, by and_intros <;> decide +kernel⟩

/-- A sequence number not beyond the last, at the last and one past it. -/
theorem test_engine_readings : (base .S).here.isPure = false ∧ beyondLast 0xFFFFFFFF ((base .S).here.queue .mtx).last = false ∧
    beyondLast 0 ((base .S).here.queue .mtx).last = true := by decide +kernel

/-- A queue with as many commands as it has entries. -/
def fullQueue (x : Cluster) : State :=
  atCore (base x) fun k => (List.range (queueDepth .topk)).foldl (fun k _ => k.enqueue .topk 0xF000000000000080 .none) k

theorem test_issue_states :
    issue (base .S) (.notify 63 .topk ⟨0, 0xFF⟩ 31 7) = some (true, .topk, 63, 0x00FFF000000000FF) ∧
      issue (base .A) (.cpred 1 ⟨0x7F, 0⟩ 31 31 true 15 .minF32) = some (false, .cout, 1, 0x7F0020000 * 0x10000000 + 0xFFFF00) ∧
      (base .A).here.inHandler = false ∧ (base .A).here.isPure = false ∧ badWait 0x7F = false ∧ badWait 0x80 = true ∧ badWait 0xC1 = false ∧
      signalOk 0xFF = true ∧ signalOk 0 = true ∧ ((base .A).here.queue .cout).entries.length < queueDepth .cout := by
  refine ⟨rfl, rfl, rfl, rfl, by and_intros <;> decide +kernel⟩

theorem test_full_queue : queueDepth .topk ≤ ((fullQueue .S).here.queue .topk).entries.length ∧
    (fullQueue .S).here.gfenceBlocked 16 = true ∧ (base .S).here.gfenceBlocked 31 = false ∧
    Memory.wf (base .S).here.loc.scratch = true := by decide +kernel

/-- An event fired once and not yet consumed; a command that has not retired. -/
theorem test_wait_states :
    let s := atCore (base .S) fun k => { k with eng := { k.eng with weirF := tset k.eng.weirF 7 1 } }
    let c := atCore (base .S) fun k => k.enqueue .gth 0xF000000000000008 .none
    (tget 0 s.me.consumed 7).toNat < (tget 0 s.here.eng.weirF 7).toNat ∧
      (tget 0 (base .S).here.eng.weirF 7).toNat ≤ (tget 0 (base .S).me.consumed 7).toNat ∧
      (c.here.queue .gth).holds 0 = true ∧ beyondLast 0 (c.here.queue .gth).last = false ∧
      ((base .S).here.queue .gth).holds 0xFFFFFFFF = false ∧ swf 0 (base .S).here.trap.sr = true := by
  and_intros <;> decide +kernel

/-- A launch at a record's boundary and off it; 255 and 256 pointers in the queue. -/
def launching (n : Nat) : State :=
  let s := withScalars (base .S) [(4, 0x10080)]
  s.setPolder 0 { s.polder 0 with launch := { (s.polder 0).launch with devq := List.replicate n (0x10000, 7) } }

theorem test_launch_states : (launching 0).here.isPure = false ∧ ((launching 0).getS 4).toNat % 128 = 0 ∧
    ((launching 255).polder 0).launch.devq.length < 256 ∧ 256 ≤ ((launching 256).polder 0).launch.devq.length ∧
    (64 : Word).toNat % 128 ≠ 0 ∧ (base .S).here.ctx.bind (·.task) = none ∧ (base .S).depsMetAt 0 = true := by
  refine ⟨rfl, by decide +kernel, by decide +kernel, by decide +kernel, by decide, rfl, by decide +kernel⟩

/-- Core 0 runs an iteration of task 9, which waits for task 8. -/
def inTask : State :=
  let t : Task := ⟨9, 0, 0, 0x10000, 0, 0, [8], [⟨0, 0, 0, .running, false⟩], false, none, false, false, [], .none, none, none, [],
    false, false, []⟩
  { atCore (base .S) fun k => { k with ctx := k.ctx.map fun c => { c with task := some 9 } } with
    tasks := [{ t with uid := 8, deps := [], iters := [] }, t] }

theorem test_task_states : (∃ x, inTask.here.ctx = some x ∧ x.task = some 9) ∧ inTask.here.inHandler = false ∧
    inTask.depsMetAt 0 = false := ⟨⟨_, rfl, rfl⟩, rfl, by decide +kernel⟩

/-- Deques with an item, empty and full; a victim of the thief's task, one with nothing, and a number that names no core. -/
theorem test_deque_states :
    let s := withDeque (withScalars (base .S) [(6, 0)]) 0 [11, 12]
    s.here.inHandler = false ∧ s.here.isPure = false ∧ s.here.deque = [11] ++ [12] ∧ (base .S).here.deque = [] ∧
      1024 ≤ (withDeque (base .S) 0 (List.replicate 1024 0)).here.deque.length ∧ s.siblings[(s.getS 6).toNat]? = some 0 ∧
      (s.core 0).deque = 11 :: [12] ∧ s.sameTask 0 s.actor.core = true ∧ stealable (base .S) 0 = false ∧
      s.siblings[1]? = none ∧ (s.siblings.drop 1 ++ s.siblings.take 0).find? (stealable s) = none := by
  refine ⟨rfl, rfl, by decide +kernel, rfl, Nat.le_of_eq (by decide +kernel), by and_intros <;> decide +kernel⟩

/-- The polder holds cores 0 and 1, both of task 9, and core 1's deque holds an item: the ring steal takes it. -/
theorem test_ring_steal :
    let s := inTask.setPolder 0 { inTask.polder 0 with part := { (inTask.polder 0).part with pcore := tset (inTask.polder 0).part.pcore 0 3 } }
    let v := s.setCore 1 { s.core 1 with phase := .running, ctx := s.here.ctx, deque := [7] }
    (v.siblings.drop ((v.here.getSr 0x030).toNat + 1) ++ v.siblings.take (v.here.getSr 0x030).toNat).find? (stealable v) = some 1 ∧
      (v.core 1).deque = 7 :: [] := by
  refine ⟨by decide +kernel, by decide +kernel⟩

/-! ### Exceptions, translation maintenance, the control store and context transfers -/

/-- The handler's address is 0x10400 and its record is at the start of the core's own scratchpad window. -/
def trapping (x : Cluster) : State := atCore (base x) fun k => (k.setSr 0x011 0x10400).setSr 0x012 0x7F0000000080

/-- The same machine in its handler. -/
def handling : State := atCore (trapping .S) fun k => k.setSr 0x00E 1

theorem enterable_trapping (x : Cluster) : Enterable (trapping x) 0 0 := by
  cases x <;> exact
    { running := rfl
      outside := by decide +kernel
      record := by constructor <;> decide +kernel
      vector := by decide +kernel
      srs := by decide +kernel
      bytes := by decide +kernel }

/-- Nothing outstanding, and a load of the raising cluster or of another. -/
theorem test_entry_states : (∀ x, ((trapping .A).cl 0 x).due = false) ∧ (trapping .A).quiet 0 = true ∧
    (onCluster (trapping .A) fun k => { k with pending := [waitingFor (.scalar 1 8 false) 0] }).quiet 0 = false ∧
    (trapping .A).here.isPure = false := by
  refine ⟨fun x => by cases x <;> rfl, by decide +kernel, by decide +kernel, rfl⟩

/-- The record at the last place that it can have. -/
theorem test_record_bound : RecordAt (atCore (base .S) fun k => k.setSr 0x012 0x7F00001FF000) 0 0x1FEF80 :=
  by constructor <;> decide +kernel

theorem test_double_fault_states : (handling.core 0).phase = .running ∧ (handling.core 0).inHandler = true ∧
    Cause.permission.spoilsPure = false ∧ swf 0 (handling.core 0).trap.sr = true := by decide +kernel

theorem test_eret_states : (base .S).here.inHandler = false ∧ handling.here.inHandler = true ∧ RecordAt handling 0 0 ∧
    handling.here.calm = true ∧ (handling.cl 0 .S).held = [] ∧ handling.here.trap.held = [] ∧ (∀ i, i < 4 → sget false handling.padPoison (65536 * 0 + (0 / 32 + i)) = false) ∧
    ∀ i, i < 128 → sget none handling.me.fetched (0x7F0000000000 + 0 + i) = none :=
  ⟨by decide +kernel, by decide +kernel, by constructor <;> decide +kernel, rfl, rfl, by decide +kernel,
    fun _ _ => rfl, fun _ _ => rfl⟩

/-- A legal range and one that is not; a save in progress that pins a range. -/
theorem test_tlbinv_states :
    let s := withScalars (base .S) [(1, 0x10000), (2, 0x10000), (3, 0x8000)]
    let t := s.setCore 1 { s.core 1 with xfer := some ⟨0x10000, 0, .registers 0, false, 0, none, 0, [], false⟩ }
    Settled s ∧ (s.getS 1).toNat % 65536 = 0 ∧ (s.getS 2).toNat % 65536 = 0 ∧ s.getS 2 ≠ 0 ∧ (s.getS 3).toNat % 65536 ≠ 0 ∧
      s.pinned 0 (s.getS 1) (s.getS 2).toNat = false ∧ t.pinned 0 (t.getS 1) (t.getS 2).toNat = true ∧ s.reductionsOut = false := by
  refine ⟨⟨rfl, rfl, by decide +kernel⟩, by and_intros <;> decide +kernel⟩

/-- Tables at physical 0 to 0x2FFF, the leaf in the table of the named level. -/
def tables (at_ : Nat) (leaf : Word) : Memory :=
  let t := wrBytes (wrBytes [] 0 (leBytes 8 0x1001)) 0x1000 (leBytes 8 0x2001)
  wrBytes t at_ (leBytes 8 leaf.toNat)

/-- Polder 0 has 4 MiB of memory, mapped by one entry. -/
def mapped (at_ : Nat) : State :=
  let s := { base .S with mem := tables at_ (leafRw 0 0) }
  s.setPolder 0 { s.polder 0 with part := { (s.polder 0).part with pmemS := tset (s.polder 0).part.pmemS 0 64 } }

theorem test_harvest_states :
    let s := withScalars (mapped 0x2000) [(2, 0x10000)]
    Settled s ∧ (s.getS 2).toNat % 2 ^ 21 ≠ 0 ∧ (s.getS 0).toNat % 2 ^ 21 = 0 ∧
      (s.harvestBlocks (s.polder s.here.polderNo) 0).all (fun b => (b.2.map (·.isHbm)).getD false) = true := by
  refine ⟨⟨rfl, rfl, by decide +kernel⟩, by and_intros <;> decide +kernel⟩

/-- The first block of a region without a translation; and a region of a host-backed page. -/
theorem test_harvest_faults :
    (((base .S).harvestBlocks ((base .S).polder 0) 0x400000).head?.map fun b => (b.1, b.2.isNone)) = some (0x400000, true) ∧
      (let s : State := { base .S with mem := tables 0x2000 (leafRw 0x100 0) }
       (s.harvestBlocks (s.polder 0) 0).all (fun b => b.2.isSome)) = true ∧
      (let s : State := { base .S with mem := tables 0x2000 (leafRw 0x100 0) }
       ((s.harvestBlocks (s.polder 0) 0).head?.map fun b => (b.1, b.2.map (·.isHbm)))) = some (0, some false) := by
  and_intros <;> decide +kernel

/-- A partition of the context, and an image of one VADD at 0x10000 in a user's reach. -/
def storeState (user : Bool) : State :=
  let s := withScalars (if user then userBase .S else base .S) [(3, 0x10000)]
  let w : Word := BitVec.ofNat 64 (2 ^ 63 + 0x160 * 2 ^ 54 + 8 * 2 ^ 26)
  { atCore s fun k => { k with loc := { k.loc with parts := tset k.loc.parts 0 ⟨some 0, [], 0⟩ } } with
    mem := wrBytes (wrBytes [] 0x10000 (leBytes 8 0x101)) 0x10008 (leBytes 8 w.toNat) }

/-- CSLOAD's conditions on what its reads give. -/
def loadable (s : State) : Bool :=
  match s.load s.agentHere .any .normal (span 0x10000 8) with
  | .ok s1 head [] =>
    let h : Word := BitVec.ofNat 64 (leNat head)
    headerFault h == none &&
      match wordsAt ((List.range (h.toNat % 256)).map fun k => 0x10000 + BitVec.ofNat 64 (8 + 8 * k)) s1 with
      | some (ws, s2) => (sequenceFault ws).isNone && !s2.here.inSequence 3 && swf 0 s2.here.trap.sr && s2.here.partIx == some 0 &&
          swf 0 (tget Partition.reset s2.here.loc.parts 0).words
      | none => false
  | _ => false

theorem test_store_loads : loadable (storeState false) = true ∧ (storeState false).here.storeLocked 3 = false ∧
    (storeState false).here.partIx = some 0 ∧ (storeState false).here.inSequence 3 = false ∧ (storeState false).me.fetched = [] ∧
    (storeState false).here.isPure = false := by decide +kernel

/-- An image of two words whose second lies beyond the translated page. -/
theorem test_store_load_fails :
    let s := { withScalars (base .S) [(3, 0x2FFF0)] with mem := wrBytes (wrBytes [] 0x2FFF0 (leBytes 8 0x102)) 0x2FFF8 (leBytes 8 1) }
    (match s.load s.agentHere .any .normal (span 0x2FFF0 8) with
      | .ok s1 head [] => headerFault (BitVec.ofNat 64 (leNat head)) == none &&
        (match wordsAt [0x2FFF8] s1 with
          | some (_, s2) => (match s2.load s2.agentHere .any .normal (span 0x30000 8) with
            | .err (.fault .xlateRead a) => a == 0x30000
            | _ => false)
          | none => false)
      | _ => false) = true := by decide +kernel

/-- A slot locked to the user, by its own bit and by the common one. -/
theorem test_store_locked : (atCore (storeState true) fun k => k.setSr 0x0A0 0x80000).here.storeLocked 3 = true ∧
    (atCore (storeState true) fun k => k.setSr 0x0A0 0x100000000).here.storeLocked 3 = true := by decide +kernel

/-- Slot 3 is bound to one micro-word, and the executing cluster is in its sequence. -/
def sequencing (w : Word) : State :=
  let s := atCore (base .X0) fun k => { k.setSr 0x0A0 8 with loc := { k.loc with parts := tset k.loc.parts 0 ⟨some 0, [(768, w)], 0⟩ } }
  onCluster s fun k => { k with useq := some ⟨3, 0, none⟩ }

/-- MLIT, MSKIP and a vector micro-op, the last of their sequences or not. -/
theorem test_micro_states :
    let w (op imm : Nat) (last : Bool) : Word := BitVec.ofNat 64 (op * 2 ^ 54 + imm + if last then 2 ^ 63 else 0)
    (base .X0).here.bound 3 = false ∧ (atCore (base .X0) fun k => k.setSr 0x0A0 8).here.bound 3 = true ∧
      (sequencing (w 0x1F4 5 true)).me.useq = some ⟨3, 0, none⟩ ∧
      (microOf ((sequencing (w 0x1F4 5 true)).here.microAt 3 0)).op = 0x1F4 ∧
      (microOf ((sequencing (w 0x1F3 1 false)).here.microAt 3 0)).op = 0x1F3 ∧
      (microOf ((sequencing (w 0x1F4 5 true)).here.microAt 3 0)).last = true ∧
      (microOf ((sequencing (w 0x1F3 1 false)).here.microAt 3 0)).last = false ∧
      (let s := sequencing (w 0x160 0 true)
       let m := microOf (s.here.microAt 3 0)
       m.op = 0x160 ∧ m.isVector = true ∧ m.formOk = true ∧ (match m.syllable 1 with
         | some i => (vector (staged s ⟨1, 2, 3, 0, 4, 5⟩ m (s.getM 0) (s.getM 0) (microWidth m)) i).isSome
         | none => false) = true) := by
  and_intros <;> decide +kernel

/-- A sequence of MLD alone, its base in s5 and one lane enabled by m1. -/
def mldBase (ra : Word) : State := (withScalars (sequencing (BitVec.ofNat 64 (0x1F0 * 2 ^ 54 + 2 ^ 63))) [(5, ra)]).setM 1 1

theorem mldBase_lanes : microSpan ((mldBase 0x10000).getS 5 + (BitVec.ofNat 20 0).signExtend 64)
    ((mldBase 0x10000).getM 1 &&& (mldBase 0x10000).getM 0) = [(0, 0x10000)] := by
  rw [show (mldBase 0x10000).getM 1 &&& (mldBase 0x10000).getM 0 = 1 from by decide +kernel,
    show (mldBase 0x10000).getS 5 + (BitVec.ofNat 20 0).signExtend 64 = 0x10000 from by decide +kernel]
  decide +kernel

/-- MLD or MST of one lane at the start of the context's page, and off alignment. -/
theorem test_memory_micro_states :
    let s := mldBase 0x10000
    let m := microOf (s.here.microAt 3 0)
    (Prompt s ∧ s.me.useq = some ⟨3, 0, none⟩ ∧ m.op = 0x1F0 ∧ m.mask = 0 ∧ m.imm = 0) ∧
      loads s s.agentHere .any .normal ((laneBytes [(0, 0x10000)]).map (·.2)) = true ∧
      s.checkAccess s.agentHere .write .any ((laneBytes [(0, 0x10000)]).map (·.2)) = .ok (hbmAt 0x10000 4 .hc) ∧
      s.stall s.agentHere (hbmAt 0x10000 4 .hc) = none ∧
      ((mldBase 0x10002).getS 5 = 0x10002 ∧ (microSpan 0x10002 1).map (·.2) = [0x10002]) := by
  refine ⟨⟨⟨⟨by decide +kernel, by decide +kernel, by decide +kernel⟩, by decide +kernel⟩, by and_intros <;> decide +kernel⟩, by and_intros <;> decide +kernel⟩

/-- A cluster whose syllable's transfer has been answered; one that has begun none; one whose transfer, answered or not, was
another's; at a boundary and off it. -/
theorem test_transfer_states :
    let s := withScalars (base .S) [(6, 0x10800)]
    let a (ops : List Word) (w : Option Word) : Asked := ⟨7, s.me.pc, 0, ops, false, w⟩
    Settled s ∧ s.reductionsOut = false ∧ mine s [0, 0x10800, 0] = none ∧ s.me.fetched = [] ∧
      mine (onCluster s fun k => { k with asked := [a [1, 2, 3] (some 4)] }) [1, 2, 3] = some (a [1, 2, 3] (some 4)) ∧
      mine (onCluster s fun k => { k with asked := [a [1, 2, 3] none] }) [1, 2, 3] = some (a [1, 2, 3] none) ∧
      (onCluster s fun k => { k with asked := [a [1, 2, 3] none] }).transferring 0 .S (a [1, 2, 3] none) = false ∧
      (s.getS 6).toNat % 4096 ≠ 0 ∧ (s.getS 0).toNat % 4096 = 0 := by
  refine ⟨⟨rfl, rfl, by decide +kernel⟩, by and_intros <;> decide +kernel⟩

/-- Cores 0 and 1 are the polder's, and core 1 runs a context that can be saved, or none. -/
def saving (run : Bool) : State :=
  let s := mapped 0x1000
  let p := s.polder 0
  let t := s.setPolder 0 { p with part := { p.part with pcore := tset p.part.pcore 0 3 } }
  if run then t.setCore 1 { t.core 1 with phase := .running, ctx := s.here.ctx } else t

theorem test_save_states :
    ((saving true).polder 0).coreList.length = 2 ∧ ((saving true).polder 0).coreAt 0 = some 0 ∧ ((saving true).polder 0).coreAt 1 = some 1 ∧
      (saving true).saveStatus 1 = none ∧ (saving false).saveStatus 1 = some 1 ∧
      (((saving true).core 1).queue .cin).running = [] ∧ (((saving true).core 1).queue .gth).running = [] ∧
      (match (saving true).checkBlocks (saving true).agentHere .write 0 832 with | .ok _ => true | _ => false) = true := by
  and_intros <;> decide +kernel

/-! ### Commands, leases, waits and stops -/

/-- The conditions of `Says.Starts`, evaluated. -/
def startsNow (s : State) (c : CoreId) (e : Engine) (eop : Nat) (f : Cmd → Word → Bool) : Bool :=
  match ((s.core c).queue e).nextCmd e with
  | none => false
  | some x =>
    let w := (s.core c).cmdWord e x.seq
    wordOk e w && wordEop w == eop && !s.dev.stopped && s.mayRun c && !x.faulted && (s.core c).mayStart e x &&
      (s.core c).cmdReady x w && Says.ready s c e x w && decide (Says.bound s c e x w ≠ .waits) && !s.entangled && f x w

theorem starts_now {s : State} {c : CoreId} {e : Engine} {eop : Nat} {f : Cmd → Word → Bool} (h : startsNow s c e eop f = true) :
    ∃ x w, Starts s c e eop x w ∧ f x w = true := by
  unfold startsNow at h
  split at h
  · cases h
  · next x hx =>
    simp only [Bool.and_eq_true, decide_eq_true_eq, beq_iff_eq, Bool.not_eq_true'] at h
    obtain ⟨⟨⟨⟨⟨⟨⟨⟨⟨⟨h1, h2⟩, h3⟩, h4⟩, h5⟩, h6⟩, h7⟩, h8⟩, h9⟩, h0⟩, h10⟩ := h
    exact ⟨x, _, ⟨hx, rfl, h1, h2, h3, h4, h5, h6, h7, h8, h9, h0⟩, h10⟩

/-- A command word: opcode and operands. -/
def word0 (eop operands : Nat) : Word := BitVec.ofNat 64 (eop * 2 ^ 44 + operands)

/-- Core 0 with a stream register set and one command enqueued; its handler can be entered. -/
def queued (e : Engine) (w : Word) : State :=
  atCore (trapping .S) fun k => ((k.setStream 1 ⟨some ringDesc, 0, 0, [], [], 0, 0⟩).setStream 2
    ⟨some (Desc.setField ringDesc 0x20 4 0x200), 0, 0, [], [], 0, 0⟩).enqueue e w .none

/-- CPIN of two tiles with a completion record, and NOTIFY, start; a CPIN whose stream is not set fails its first check. -/
theorem test_start_states :
    (∃ x w, Starts (queued .cin (word0 1 (2 ^ 19 + 2 * 2 ^ 14 + 2 ^ 13 + 2 ^ 9))) 0 .cin 1 x w ∧
      failure (queued .cin (word0 1 (2 ^ 19 + 2 * 2 ^ 14 + 2 ^ 13 + 2 ^ 9))) 0 .cin x w = none) ∧
    (∃ x w, Starts (queued .topk (word0 15 (16 * 8))) 0 .topk 15 x w ∧ failure (queued .topk (word0 15 (16 * 8))) 0 .topk x w = none) ∧
    ∃ x w cause va, Starts (queued .cin (word0 1 (3 * 2 ^ 19))) 0 .cin 1 x w ∧
      failure (queued .cin (word0 1 (3 * 2 ^ 19))) 0 .cin x w = some (cause, va) := by
  refine ⟨?_, ?_, ?_⟩
  · obtain ⟨x, w, h, h'⟩ := starts_now (s := queued .cin (word0 1 (2 ^ 19 + 2 * 2 ^ 14 + 2 ^ 13 + 2 ^ 9))) (c := 0) (e := .cin) (eop := 1)
      (f := fun x w => (failure (queued .cin (word0 1 (2 ^ 19 + 2 * 2 ^ 14 + 2 ^ 13 + 2 ^ 9))) 0 .cin x w).isNone) (by decide +kernel)
    exact ⟨x, w, h, Option.isNone_iff_eq_none.mp h'⟩
  · obtain ⟨x, w, h, h'⟩ := starts_now (s := queued .topk (word0 15 (16 * 8))) (c := 0) (e := .topk) (eop := 15)
      (f := fun x w => (failure (queued .topk (word0 15 (16 * 8))) 0 .topk x w).isNone) (by decide +kernel)
    exact ⟨x, w, h, Option.isNone_iff_eq_none.mp h'⟩
  · obtain ⟨x, w, h, h'⟩ := starts_now (s := queued .cin (word0 1 (3 * 2 ^ 19))) (c := 0) (e := .cin) (eop := 1)
      (f := fun x w => (failure (queued .cin (word0 1 (3 * 2 ^ 19))) 0 .cin x w).isSome) (by decide +kernel)
    obtain ⟨⟨cause, va⟩, h2⟩ := Option.isSome_iff_exists.mp h'
    exact ⟨x, w, cause, va, h, h2⟩

theorem core_queued (e : Engine) (w : Word) {c : CoreId} (h : c ≠ 0) : (queued e w).core c = Core.reset := by
  show (State.setCore _ 0 _).core c = _
  rw [core_setCore, if_neg h]
  show (State.setCore _ 0 _).core c = _
  rw [core_setCore, if_neg h]
  show (State.setCore _ 0 _).core c = _
  rw [core_setCore, if_neg h]
  exact core_reset c

theorem test_all_prompt : AllPrompt (queued .cin (word0 1 (2 ^ 19))) := by
  intro d
  by_cases h : d = 0
  · subst h
    exact ⟨by decide +kernel, fun y => by cases y <;> rfl⟩
  · exact ⟨by rw [core_queued _ _ h]; rfl, fun y => by rw [State.cl, core_queued _ _ h]; cases y <;> rfl⟩

/-- The core on which that check fails can enter its handler. -/
theorem test_fault_states : Enterable (faulting (queued .cin (word0 1 (3 * 2 ^ 19))) 0 .cin 0) 0 0 ∧
    (faulting (queued .cin (word0 1 (3 * 2 ^ 19))) 0 .cin 0).quiet 0 = true ∧
    ((queued .cin (word0 1 (3 * 2 ^ 19))).core 0).phase = .running ∧ ∀ y, ((queued .cin (word0 1 (3 * 2 ^ 19))).cl 0 y).due = false :=
  ⟨{ running := by decide +kernel
     outside := by decide +kernel
     record := by constructor <;> decide +kernel
     vector := by decide +kernel
     srs := by decide +kernel
     bytes := by decide +kernel }, by decide +kernel, by decide +kernel, fun y => by cases y <;> decide +kernel⟩

/-- The descriptors of streams 1 and 2, as a command reads them when it starts. -/
def readDescs : List (StReg × BitVec 512) := [(1, ringDesc), (2, Desc.setField ringDesc 0x20 4 0x200)]

/-- The oldest command of a queue has started. -/
def begun (e : Engine) (w : Word) (claims : List SlotRun) : State :=
  atCore (queued e w) fun k => k.setQueue e ((k.queue e).mapCmd 0 fun x => { x with started := some ⟨true, readDescs, false, 0, [], [], [], []⟩, claims := claims })

/-- The conditions of `Says.Retires`, evaluated. -/
def retiresNow (s : State) (c : CoreId) (e : Engine) (f : Cmd → Started → Word → Bool) : Bool :=
  match ((s.core c).queue e).entries.head? with
  | none => false
  | some x => match x.started with
    | none => false
    | some st => (s.core c).retires && !s.dev.stopped && s.fenced.isEmpty && !s.entangled && f x st ((s.core c).cmdWord e x.seq)

theorem retires_now {s : State} {c : CoreId} {e : Engine} {f : Cmd → Started → Word → Bool} (h : retiresNow s c e f = true) :
    ∃ x st w, Retires s c e x st w ∧ f x st w = true := by
  unfold retiresNow at h
  split at h
  · cases h
  · next x hx =>
    split at h
    · cases h
    · next st hst =>
      simp only [Bool.and_eq_true, Bool.not_eq_true', List.isEmpty_iff] at h
      exact ⟨x, st, _, ⟨hx, hst, rfl, h.1.1.1.1, h.1.1.1.2, h.1.1.2, h.1.2⟩, h.2⟩

/-- NOTIFY, GFENCE, MZERO, MMA and a CPIN of one tile with a completion record retire, their work without a fault. -/
theorem test_retire_states :
    (∃ x st w, Retires (begun .gth (word0 15 8) []) 0 .gth x st w ∧ (wordEop w == 15) = true) ∧
    (∃ x st w, Retires (begun .gth (word0 14 8) []) 0 .gth x st w ∧ (wordEop w == 14) = true) ∧
    (∃ x st w, Retires (begun .mtx (word0 3 (5 * 2 ^ 11)) []) 0 .mtx x st w ∧ (wordEop w == 3) = true) ∧
    (∃ x st w, Retires (begun .mtx (word0 1 (2 ^ 19 + 2 * 2 ^ 14)) []) 0 .mtx x st w ∧
      (match (begun .mtx (word0 1 (2 ^ 19 + 2 * 2 ^ 14)) []).cmdWork 0 .mtx x w st with | .done _ 0 none => true | _ => false) = true) ∧
    ∃ x st w, Retires (begun .cin (word0 1 (2 ^ 19 + 2 * 2 ^ 14 + 2 ^ 13)) [⟨1, 0, 1⟩, ⟨2, 0, 1⟩]) 0 .cin x st w ∧
      (match (begun .cin (word0 1 (2 ^ 19 + 2 * 2 ^ 14 + 2 ^ 13)) [⟨1, 0, 1⟩, ⟨2, 0, 1⟩]).cmdWork 0 .cin x w st with
        | .done t _ none => completionOf .cin w == some 2 && (t.core 0).getSr 0x084 == 0 && (t.core 0).calm && !t.entangled &&
          Memory.wf (t.core 0).loc.scratch && wordOk .cin w && (streamsOf .cin w).all fun n => ((t.core 0).stream n).desc.isSome
        | _ => false) = true :=
  ⟨retires_now (by decide +kernel), retires_now (by decide +kernel), retires_now (by decide +kernel), retires_now (by decide +kernel),
    retires_now (by decide +kernel)⟩

/-- A command that signals flag 3, alone in its queue, and one that pops its operands from reserved slots. -/
theorem test_signal_states :
    (∃ x st w, Retires (begun .mtx (BitVec.ofNat 64 (0x83 * 2 ^ 48 + 3 * 2 ^ 44 + 5 * 2 ^ 11)) []) 0 .mtx x st w ∧
      (signalOf w == 3 && ((begun .mtx (BitVec.ofNat 64 (0x83 * 2 ^ 48 + 3 * 2 ^ 44 + 5 * 2 ^ 11)) []).core 0 |>.queue .mtx).entries == [x]) = true) ∧
    MmaReserves { (⟨0, 0, .normal, 0, none, false, .none, none, false, false, 0, [], [⟨1, 0, 1⟩], [], none, [], []⟩ : Cmd) with seq := 1 }
      (word0 1 (2 ^ 19 + 2 * 2 ^ 14 + 2 ^ 9)) :=
  ⟨retires_now (by decide +kernel), by unfold MmaReserves; decide +kernel⟩

/-! ### What commands write -/

/-- A command that starts afresh. -/
def freshCmd (claims reserves : List SlotRun) : Cmd := ⟨0, 0, .normal, 0, none, false, .none, none, false, false, 0, claims, reserves, [], none, [], []⟩

/-- The descriptor of stream `n`, the streams' rings apart. -/
def descOf (n : Nat) : Desc := Desc.setField ringDesc 0x20 4 (0x10000 * n)

/-- A started command with its heads' slots. -/
def startedAt (heads : List SlotRun) : Started :=
  ⟨true, [1, 2, 3, 4, 5].map fun n => (BitVec.ofNat 5 n, descOf n), false, 0, heads, [], [], []⟩

/-- The base state with streams 1 to 5 set. -/
def streaming : State := atCore (base .S) fun k => [1, 2, 3, 4, 5].foldl (fun k n =>
  k.setStream (BitVec.ofNat 5 n) ⟨some (descOf n), 0, 0, [], [], 0, 0⟩) k

theorem plain_streaming : Plain streaming 0 := ⟨by decide +kernel, rfl, by decide +kernel, by decide +kernel⟩

theorem test_fresh_command : Fresh streaming 0 (freshCmd [⟨1, 0, 1⟩] [⟨1, 0, 1⟩]) := ⟨rfl, rfl, rfl, rfl, rfl, plain_streaming⟩

/-- CPIN of the one row of four bytes of a tile. -/
theorem test_copies_in : ∃ t ws, CopiesIn 0 4 streaming
    ((List.range (tilesOf (word0 1 (2 ^ 19)))).map fun i => (slotOfTile .cin (freshCmd [⟨1, 0, 1⟩] []) (word0 1 (2 ^ 19)) ringDesc i,
      tileRows ringDesc 0 i (slotOfTile .cin (freshCmd [⟨1, 0, 1⟩] []) (word0 1 (2 ^ 19)) ringDesc i))) t ws := by
  rw [show ((List.range (tilesOf (word0 1 (2 ^ 19)))).map fun i => (slotOfTile .cin (freshCmd [⟨1, 0, 1⟩] []) (word0 1 (2 ^ 19)) ringDesc i,
    tileRows ringDesc 0 i (slotOfTile .cin (freshCmd [⟨1, 0, 1⟩] []) (word0 1 (2 ^ 19)) ringDesc i))) = [(0, [(0x10000, 0)])] from
    by decide +kernel]
  obtain ⟨s1, bytes, h, hc⟩ : ∃ s1 bytes, streaming.load (streaming.engineAgent 0 .cin) .any .normal (span 0x10000 4) = .ok s1 bytes [] ∧
      ((s1.core 0).getSr 0x084 == 0 && s1.fenced.isEmpty && (s1.core 0).calm && !s1.entangled) = true := by
    have h : (match streaming.load (streaming.engineAgent 0 .cin) .any .normal (span 0x10000 4) with
      | .ok s1 _ [] => (s1.core 0).getSr 0x084 == 0 && s1.fenced.isEmpty && (s1.core 0).calm && !s1.entangled
      | _ => false) = true := by decide +kernel
    split at h
    · exact ⟨_, _, by assumption, h⟩
    · cases h
  simp only [Bool.and_eq_true, beq_iff_eq, List.isEmpty_iff, Bool.not_eq_true'] at hc
  exact ⟨_, _, .tile _ _ _ _ _ _ _ _ (.row _ _ _ _ _ _ _ _ h (.nil _)) ⟨hc.1.1.1, hc.1.1.2, hc.1.2, hc.2⟩ (.nil _)⟩

/-- CPOUT and CPRED of the same row, the first of their tiles. -/
theorem test_passes : Passes streaming 0 false 4 4 [(0x10000, 0x10000)] [hbmAt 0x10000 4 .hc] ∧
    Passes streaming 0 true 4 4 [(0x10000, 0x10000)] [hbmAt 0x10000 4 .hc] ∧ Canonical streaming ∧
    Unaliased 4 [(0x10000, 0x10000)] [hbmAt 0x10000 4 .hc] ∧
    (let x := freshCmd [] [⟨1, 0, 1⟩]
     let w := word0 2 (2 ^ 19)
     (∃ r ∈ x.reserves, r.st = stAt w 19) ∧ tileRows (descOf 1) 0 0 (slotOfTile .cout x w (descOf 1) 0) = [(0x10000, 0x10000)] ∧
       0 < tilesOf w ∧ ∃ bytes, streaming.copyWork 0 .cout x w (startedAt []) 0 = .done streaming bytes none) := by
  refine ⟨⟨rfl, fun y h => ?_⟩, ⟨rfl, fun y h => ?_⟩, canonical_setCore (canonical_base .S) _ _ rfl, by unfold Unaliased; decide +kernel,
    ⟨⟨1, 0, 1⟩, by decide, by decide⟩, by decide +kernel, by decide, _, rfl⟩ <;>
    (rw [List.mem_singleton.mp h]; exact ⟨by decide +kernel, inPlace_hbmAt _ _, by decide +kernel, by decide +kernel⟩)

/-- GATH of an empty matrix, its tiles apart; TOPK of one candidate. -/
theorem test_gather_states :
    let w := word0 1 (2 ^ 19 + 5 * 2 ^ 14 + 3 * 2 ^ 9)
    let g := gathIn streaming 0 w (startedAt [⟨1, 0, 1⟩])
    (streaming.core 0).getSr 0x084 = 0 ∧ (streaming.core 0).calm = true ∧ Memory.wf (streaming.core 0).loc.scratch = true ∧
      streaming.poisonIn 0 [(Desc.slotOff ((startedAt []).desc (stAt w 19)) (firstOf (startedAt [⟨1, 0, 1⟩]).heads (stAt w 19)), 516)] =
        none ∧
      (∀ r, r < 129 → g.ptr r = 0) ∧ Desc.slotOff ((startedAt []).desc (stAt w 9)) 0 + 16384 ≤
        Desc.slotOff ((startedAt []).desc (stAt w 9 + 1)) 0 := by
  and_intros <;> decide +kernel

theorem test_selection_states :
    let w := word0 1 (2 ^ 19 + 2 * 2 ^ 14)
    let d := (startedAt []).desc (stAt w 19)
    wordEop w = 1 ∧ w.toNat / 2 ^ 6 % 256 + 1 ≤ Desc.rows d * Desc.cols d ∧ Desc.format d = 8 := by decide +kernel

/-- MRET of an idle accumulator to an F32 stream. -/
theorem test_retiring : Retiring streaming 0 (freshCmd [⟨1, 0, 1⟩] []) (word0 2 (2 ^ 19 + 5 * 2 ^ 11)) (startedAt []) :=
  { opcode := by decide +kernel
    acc := by decide +kernel
    fresh := ⟨rfl, rfl, rfl, rfl, rfl, plain_streaming⟩
    tables := by decide +kernel
    format := by decide +kernel
    scale := by unfold isFinite; decide +kernel
    list := fun h => absurd h (by decide +kernel) }

/-- A free array that core 0 requests, and one that no core requests. -/
theorem test_lease_states :
    (((queued .mtx (word0 3 0)).quad 0).holder = none ∧ ((queued .mtx (word0 3 0)).core (quadCore 0 0)).requests = true) ∧
      (∀ p, ((base .S).core (quadCore 0 p)).requests = false) := by
  decide +kernel

/-- Core 0 holds the array, its command not started or on the array; the holder with a command on the array keeps it. -/
def leased (s : State) : State := { s with quads := s.quads.set 0 { s.quad 0 with holder := some 0 } }

theorem test_holder_keeps : ((leased (begun .mtx (word0 3 0) [])).quad 0).holder = some 0 := by decide +kernel

theorem test_not_vacant : ¬ Vacant (leased (begun .mtx (word0 3 0) [])) 0 := by
  intro h
  obtain ⟨x, st, w, hr, hf⟩ := retires_now (s := leased (begun .mtx (word0 3 0) [])) (c := 0) (e := .mtx)
    (f := fun x st w => wordEop w == 3 && st.dedicated) (by decide +kernel)
  simp only [Bool.and_eq_true, beq_iff_eq] at hf
  refine (h 0 (by decide +kernel)).1 ⟨x, st, ⟨List.mem_of_mem_head? hr.head, ?_⟩, hr.started, hf.2⟩
  show wordEop ((leased (begun .mtx (word0 3 0) [])).core 0 |>.cmdWord .mtx x.seq) ∈ _
  rw [← hr.word, hf.1]
  decide

/-- Core 0 with the cluster A waiting. -/
def waiting (w : Wait) : State := (base .S).setCl 0 .A { (base .S).cl 0 .A with status := .waiting w }

theorem test_wait_ends :
    ((waiting (.time 0 0)).cl 0 .A).status = .waiting (.time 0 0) ∧ ((waiting (.time 0 0)).core 0).movable .A = true ∧
      (waiting (.time 0 0)).waitHolds 0 .A (.time 0 0) = true ∧ (waiting (.event 7)).waitHolds 0 .A (.event 7) = false ∧
      ((waiting .pause).core 0).movable .A = true ∧ ((base .S).cl 0 .A).status ≠ .waiting .monitor ∧
      ((waiting .monitor).cl 0 .A).status = .waiting .monitor ∧ ((waiting .monitor).core 0).movable .A = true := by
  and_intros <;> decide +kernel

/-- All four clusters wait at one synced bundle. -/
def meeting : State :=
  atCore (base .S) fun k => [Cluster.S, .A, .X0, .X1].foldl (fun k x => k.setCl x { k.cl x with status := .waiting (.rendezvous 0x10000 0) }) k

theorem test_rendezvous_states : (meeting.core 0).phase = .running ∧ (meeting.core 0).inHandler = false ∧
    ∀ y, ∃ w, (meeting.cl 0 y).status = .waiting (.rendezvous 0x10000 w) :=
  ⟨by decide +kernel, by decide +kernel, fun y => ⟨0, by cases y <;> decide +kernel⟩⟩

/-- A stalled core before and at 2^26 cycles. -/
def stalledAt (n : Nat) : State :=
  atCore (trapping .S) fun k => { [Cluster.S, .A, .X0, .X1].foldl (fun k x => k.setCl x { k.cl x with status := .waiting (.flag 5) }) k with
    trap := { k.trap with watchdog := n } }

theorem test_watchdog_states : ((stalledAt 67108863).core 0).stalled = true ∧ ((stalledAt 67108863).core 0).trap.watchdog < 2 ^ 26 ∧
    2 ^ 26 ≤ ((stalledAt 67108864).core 0).trap.watchdog ∧ (stalledAt 67108864).quiet 0 = true ∧
    ∀ x, ((stalledAt 67108864).cl 0 x).due = false := by
  refine ⟨by decide +kernel, by decide +kernel, by decide +kernel, by decide +kernel, fun x => by cases x <;> decide +kernel⟩

theorem test_stalled_enterable : Enterable (stalledAt 67108864) 0 0 :=
  { running := by decide +kernel
    outside := by decide +kernel
    record := by constructor <;> decide +kernel
    vector := by decide +kernel
    srs := by decide +kernel
    bytes := by decide +kernel }

/-- A core that stops with a load pending, which the end of the drain completes, and one whose command has not retired. -/
def stopping (cmd : Bool) : State :=
  let s := if cmd then begun .cin (word0 1 (2 ^ 19)) [] else onCluster (trapping .S) fun k => { k with pending := [waitingFor (.scalar 1 8 false) 0] }
  atCore s fun k => { k with phase := .stopping ⟨.permission, 0, .S, none, 0, 0, false⟩ }

/-- What a core is when its accesses are performed and its loads have written. -/
def drained (cmd : Bool) : State :=
  let u := (stopping cmd).settleCore 0
  (if (u.core 0).fixedLatency then u.setCore 0 (u.core 0).keepLoads else u).completeAllLoads 0

theorem test_frame_states : ((stopping false).core 0).phase = .stopping ⟨.permission, 0, .S, none, 0, 0, false⟩ ∧
    (drained false).quiet 0 = true ∧ (drained true).quiet 0 = false ∧ RecordAt (drained false) 0 0 ∧
    ((drained false).core 0).inHandler = false ∧ (((drained false).core 0).getSr 0x011).toNat % 32 = 0 ∧
    swf 0 ((drained false).core 0).trap.sr = true ∧ Memory.wf ((drained false).core 0).loc.scratch = true :=
  ⟨by decide +kernel, by decide +kernel, by decide +kernel, by constructor <;> decide +kernel, by and_intros <;> decide +kernel⟩

theorem test_restart_states : ((atCore handling fun k => { k with phase := .doubleFault }).core 0).phase = .doubleFault ∧
    (((atCore handling fun k => { k with phase := .doubleFault }).core 0).getSr 0x011).toNat % 32 = 0 ∧
    (((atCore handling fun k => { k.setSr 0x011 8 with phase := .doubleFault }).core 0).getSr 0x011).toNat % 32 ≠ 0 := by decide +kernel

/-- An ordered reduction with the awaited number, with a later one, and the home slice full. -/
def reduction (num : Half) (held : Nat) : State :=
  { base .S with
    rofSent := [⟨0x10000, num, 0x3F800000, some 0, .S, 0, 0, 0x10000, 0, false⟩]
    rofHeld := List.replicate held ⟨0x10000, 5, 0, some 0, .S, 0, 0, 0x10000, 0, false⟩ }

theorem test_ordered_states :
    (reduction 0 0).rofSent[0]? = some ⟨0x10000, 0, 0x3F800000, some 0, .S, 0, 0, 0x10000, 0, false⟩ ∧
      (0 - BitVec.ofNat 32 (leNat (rdBytes (reduction 0 0).mem 0x10004 4)) : Half).toNat = 0 ∧
      (0x7FFFFFFF - BitVec.ofNat 32 (leNat (rdBytes (reduction 0 0).mem 0x10004 4)) : Half).toNat < 2 ^ 31 ∧
      ¬ 64 ≤ ((reduction 1 62).rofHeld.filter fun h => homeOf h.pair == homeOf 0x10000).length + 1 ∧
      64 ≤ ((reduction 1 63).rofHeld.filter fun h => homeOf h.pair == homeOf 0x10000).length + 1 ∧
      sget 0 (reduction 0 0).gaps 0x10000 < 1000000 ∧ ((reduction 0 0).core 0).posted = [] ∧ (reduction 0 0).entangled = false := by
  refine ⟨rfl, by decide +kernel, by decide +kernel, by simp [reduction], by simp [reduction], by and_intros <;> decide +kernel⟩

/-- A gap that has run out, its held reduction's issuer gone from its core. -/
theorem test_gap_states :
    let s : State := { State.reset with gaps := [(0x10000, 1000000)], rofHeld := (reduction 0 1).rofHeld }
    1000000 ≤ sget 0 s.gaps 0x10000 ∧ ∀ h ∈ s.rofHeld, h.pair = 0x10000 → ∃ d, h.core = some d ∧ (s.core d).ctx = none := by
  refine ⟨by decide +kernel, ?_⟩
  intro h hm _
  have : h = ⟨0x10000, 5, 0, some 0, .S, 0, 0, 0x10000, 0, false⟩ := List.eq_of_mem_replicate hm
  subst this
  exact ⟨0, rfl, by decide +kernel⟩

/-- The same of a reduction held alone: its issuer still on its core, outside its handler or in it; or a peer. -/
def gapOf (s : State) (core : Option CoreId) : State :=
  { s with gaps := [(0x10000, 1000000)], rofHeld := [⟨0x10000, 5, 0, core, .S, 0, 0, 0x10000, 0, false⟩] }

theorem test_gap_resident :
    let r : RofMsg := ⟨0x10000, 5, 0, some 0, .S, 0, 0, 0x10000, 0, false⟩
    let s := gapOf (trapping .S) (some 0)
    1000000 ≤ sget 0 s.gaps 0x10000 ∧ s.rofHeld.filter (fun h => h.pair = 0x10000) = [r] ∧ r.core = some 0 ∧
      (s.core 0).ctx.isSome = true ∧ ((s.core 0).getSr 0x020).toNat = r.ctx ∧ s.quiet 0 = true ∧
      (∀ x, (s.cl 0 x).due = false) ∧
      ((gapOf handling (some 0)).core 0).phase = .running ∧ ((gapOf handling (some 0)).core 0).inHandler = true ∧
      (gapOf (trapping .S) none).rofHeld.filter (fun h => h.pair = 0x10000) = [{ r with core := none }] := by
  refine ⟨by decide +kernel, by decide +kernel, rfl, by decide +kernel, by decide +kernel, by decide +kernel, fun x => by cases x <;> decide +kernel, by and_intros <;> decide +kernel⟩

theorem test_gap_enterable : Enterable (gapOf (trapping .S) (some 0)) 0 0 :=
  { running := by decide +kernel
    outside := by decide +kernel
    record := by constructor <;> decide +kernel
    vector := by decide +kernel
    srs := by decide +kernel
    bytes := by decide +kernel }

/-! ### Errors, events, transfers, tasks and the polders' registers -/

/-- A row that is fenced, and one of every kind of site, the last of each. -/
theorem test_site_states :
    siteExists (.hbm (2 ^ 32 * 6 - 1)) = true ∧ siteExists (.scratchpad 255 65535) = true ∧ siteExists (.cache 255 0) = true ∧
      siteExists (.contextState 0) = true ∧ ((base .S).core 0).ctx.isSome = true ∧ swf false (base .S).poison = true ∧
      swf false (base .S).padPoison = true ∧ swf false (base .S).l1Poison = true ∧ swf false (base .S).l2Poison = true ∧
      ((base .S).core 0).loc.l1.length + ((base .S).poisonedAlone 0).length < Config.l1Granules ∧ siteExists (.slice (3 * 2 ^ 20 * 4 - 1)) = true ∧
      ErrorSite.hbm 2048 ∈ ({ base .S with fenced := [.hbm 2048] } : State).fenced ∧
      (0 : CoreId) ∈ (base .S).siteUsers (.hbm 2048) := by
  and_intros <;> decide +kernel

/-- No load of the machine waits to be read, and the L2 has room. -/
theorem test_sites_are_quiet : AllRead (base .S) ∧ L2RoomFor (base .S) 1 :=
  ⟨allRead_of (by decide +kernel), by unfold L2RoomFor; decide +kernel⟩

/-- Polder 0 has an event ring of sixteen records at 0x10000, and one event is on its way. -/
def sending (kind : Byte) (en : Bool) (wr : Half) : State :=
  let s := base .S
  let p := s.polder 0
  { s.setPolder 0 { p with events := { p.events with base := 0x10000, en := en, wr := wr } } with
    dev := { Device.reset with events := [⟨0, 0, .permission, kind, 0⟩] } }

/-- An event for management, and one for a ring that is disabled, full, or at its last slot. -/
theorem test_event_states :
    (sending 5 true 0).dev.events[0]? = some ⟨0, 0, .permission, 5, 0⟩ ∧ EventRec.toMgmt ⟨0, 0, .permission, 5, 0⟩ = true ∧
      EventRec.toMgmt ⟨0, 0, .permission, 6, 0⟩ = false ∧ ((sending 6 false 0).polder 0).events.en = false ∧
      ((sending 6 true 16).polder 0).events.wr.toNat = 2 ^ ((sending 6 true 16).polder 0).events.log2n.toNat ∧
      ((sending 6 true 15).polder 0).events.wr.toNat ≠ 2 ^ ((sending 6 true 15).polder 0).events.log2n.toNat ∧
      (sending 6 true 15).ringMay 0 (0x10000 + 15 * 32) = true ∧ (sending 6 true 15).ringMay 0 (0x10000 + 15 * 32 + 31) = true ∧
      (sending 6 true 15).entangled = false ∧ Memory.wf (sending 6 true 15).mem = true := by
  refine ⟨rfl, by and_intros <;> decide +kernel⟩

theorem canonical_cached : Canonical (cached .A) := by
  refine ⟨by decide +kernel, by decide +kernel, ?_⟩
  have : ∀ c : CoreId, Memory.wf ((cached .A).core c).loc.scratch = true := by decide +kernel
  exact this

theorem test_eviction_states : swf none ((cached .A).core 0).loc.l1 = true ∧ L2RoomFor (cached .A) 2 ∧
    (cached .A).line 0 (lineKey (base .A).agentHere.ctx false (0x20000 / 32)) = some ⟨5, 1⟩ := by
  refine ⟨by decide +kernel, by unfold L2RoomFor; decide +kernel, by decide +kernel⟩

/-- A granule of host memory whose dirty copy an L2 holds. -/
def cachedL2 : State := (base .A).setL2Line (2 ^ 48) (some ⟨5, 1⟩)

theorem test_slice_eviction_states : Canonical cachedL2 ∧ swf none cachedL2.l2 = true ∧ cachedL2.l2Line (2 ^ 48) = some ⟨5, 1⟩ := by
  refine ⟨⟨by decide +kernel, by decide +kernel, ?_⟩, by decide +kernel, by decide +kernel⟩
  have : ∀ c : CoreId, Memory.wf (cachedL2.core c).loc.scratch = true := by decide +kernel
  exact this

/-- Core 0 is in a transfer that cluster A of core 1 has asked for as its seventh. -/
def transferring (ph : Phase) (x : Xfer) (cmd : Bool) : State :=
  let s := if cmd then begun .cin (word0 1 (2 ^ 19)) [] else base .S
  let t := atCore s fun k => { k with phase := ph, xfer := some x }
  t.setCl 1 .A { t.cl 1 .A with asked := [⟨7, 0x10000, 0, [], false, none⟩] }

/-- The blocks of an image without an open accumulator. -/
def imageBlock (i : Nat) : Nat × Nat := (0, 0x1000000 + 4096 * i)

def imageBlocks : List (Nat × Nat) := (List.range 832).map imageBlock

/-- A save or load for that cluster. -/
def forA (fence : Bool) (timeout : Nat) (gen : BitVec 4) : Xfer :=
  ⟨0x10000, 0, .cluster 1 .A 7, fence, gen, none, timeout, imageBlocks, false⟩

theorem test_boundary_states :
    ((transferring .running (forA true 5 0) true).core 0).fencing = some (forA true 5 0) ∧
      ((transferring .running (forA true 5 0) true).core 0).boundaryReached 0 = false ∧
      ((transferring .running (forA true 5 0) false).core 0).boundaryReached 0 = true ∧
      ((transferring .running (forA true 0 0) false).core 0).fencing = some (forA true 0 0) ∧ (forA true 5 0).timeout ≠ 0 ∧
      (forA true 0 0).timeout = 0 := by
  decide +kernel

/-- What a core is when its save's accesses are performed and its loads have written. -/
def settledSave (cmd : Bool) : State := ((transferring .saving (forA false 0 0) cmd).settleCore 0).completeAllLoads 0

theorem test_saving_states :
    let s := transferring .saving (forA false 0 0) false
    (s.core 0).phase = .saving ∧ (s.core 0).xfer = some (forA false 0 0) ∧ (1 : CoreId) ≠ 0 ∧
      (forA false 0 0).by_ = .cluster 1 .A 7 ∧ ((settledSave false).core 0).drainReady = false ∧ (settledSave true).quiet 0 = false := by
  and_intros <;> decide +kernel

theorem blocks_apart : imageBlocks.Nodup :=
  List.nodup_range.map fun a b h => by
    have e : 0x1000000 + 4096 * a = 0x1000000 + 4096 * b := congrArg Prod.snd h
    omega

theorem blocks_placed (b : Nat × Nat) (h : b ∈ imageBlocks) : b.1 = 0 ∧ b.2 % 4096 = 0 := by
  obtain ⟨i, -, rfl⟩ := List.mem_map.mp h
  exact ⟨rfl, by show (0x1000000 + 4096 * i) % 4096 = 0; omega⟩

theorem idle_accs (i : Nat) : (tget Acc.reset ((settledSave false).core 0).eng.accs i).words = [] := by
  have e : ((settledSave false).core 0).eng.accs = Vector.replicate 6 Acc.reset := by decide +kernel
  rw [e, tget, Vector.getElem?_replicate]
  split <;> rfl

theorem test_imaged : Imaged (settledSave false) 0 (forA false 0 0) :=
  { quiet := by decide +kernel
    stash := by decide +kernel
    held := by decide +kernel
    copies := by decide +kernel
    srs := by decide +kernel
    bytes := ⟨by decide +kernel, by decide +kernel, by
      have : ∀ c : CoreId, Memory.wf ((settledSave false).core c).loc.scratch = true := by decide +kernel
      exact this⟩
    words := fun i w h => by
      rw [idle_accs] at h
      cases h
    sorted := fun i => by
      rw [idle_accs]
      rfl
    whole := by decide +kernel
    blocks := by
      simp only [forA]
      exact blocks_placed
    apart := by
      simp only [forA]
      exact blocks_apart
    alone := by decide +kernel }

/-- The second core of a polder's save is still in it. -/
theorem test_saves_of_registers :
    let x : Xfer := { forA false 0 0 with by_ := .registers 0 }
    let t := transferring .saving x false
    let s := t.setCore 1 { t.core 1 with xfer := some x }
    x.by_ = .registers 0 ∧ (1 : CoreId) ≠ 0 ∧ (s.core 1).xfer.map (·.by_) = some (.registers 0) ∧
      (((s.settleCore 0).completeAllLoads 0).core 0).drainReady = false := by
  and_intros <;> decide +kernel

theorem test_loading_states :
    let s := transferring .loading (forA false 0 0) false
    (s.core 0).phase = .loading ∧ (s.core 0).xfer = some (forA false 0 0) ∧ (s.core 0).trap.held = [] ∧
      (forA false 0 0).by_ = .cluster 1 .A 7 ∧ (1 : CoreId) ≠ 0 := by
  and_intros <;> decide +kernel

/-! ### Tasks: their records, their operations and their iterations -/

/-- A launch record: its flags, task identifier 7, rank 5, memory-model revision 1, and its completion word's address. -/
def record (flags : Nat) : Record :=
  BitVec.ofNat 1024 (flags * 2 ^ 96 + 7 * 2 ^ 448 + 5 * 2 ^ 480 + 2 ^ 488 + 0x180000 * 2 ^ 832)

/-- The record lies at 0x100000, and one of the two queues holds a pointer to it; the device has booted. -/
def offering (host : Bool) : State :=
  let s := mapped 0x1000
  let p := s.polder 0
  { s.setPolder 0 { p with
      part := { p.part with vf := 1 }
      launch := { p.launch with en := true, base := 0x100100, wr := if host then 1 else 0, devq := if host then [] else [(0x100000, 3)] } }
    with
    mem := wrBytes (wrBytes s.mem 0x100000 (leBytes 128 (record 0).toNat)) 0x100100 (leBytes 8 0x100000)
    dev := { Device.reset with ready := true } }

/-- The record that an address names is good, evaluated. -/
def goodNow (s : State) (n : Nat) (va : Word) : Bool :=
  match s.unitRead n (s.launcherAgent n) (vaBytes va 128) with
  | .bytes u l =>
    let r : Record := BitVec.ofNat 1024 (leNat l)
    decide (va.toNat % 128 = 0) && !u.recordBad n r && !Record.depsBad r && !Record.isPure r
  | _ => false

theorem good_now {s : State} {n : Nat} {va : Word} (h : goodNow s n va = true) :
    ∃ u r, GoodRecord s u n (s.launcherAgent n) va r := by
  unfold goodNow at h
  split at h
  · next u l hl =>
    simp only [Bool.and_eq_true, decide_eq_true_eq, Bool.not_eq_true'] at h
    exact ⟨u, _, h.1.1.1, ⟨l, hl, rfl⟩, h.1.1.2, h.1.2, h.2⟩
  · cases h

/-- A pointer of the host queue, evaluated. -/
def pointerNow (s : State) : Bool :=
  match s.unitRead 0 (s.launcherAgent 0) (vaBytes 0x100100 8) with
  | .bytes s1 ptr => BitVec.ofNat 64 (leNat ptr) == (0x100000 : Word) && goodNow s1 0 0x100000
  | _ => false

/-- The launcher takes a pointer of the device queue, and one of the host's. -/
theorem test_offering_states :
    ((offering false).polder 0).launches = true ∧ ((offering false).polder 0).launch.next = some false ∧
      ((offering true).polder 0).launch.next = some true ∧ pointerNow (offering true) = true ∧
      ∃ u r, GoodRecord (offering false) u 0 ((offering false).launcherAgent 0) 0x100000 r :=
  ⟨by decide +kernel, by decide +kernel, by decide +kernel, by decide +kernel, good_now (by decide +kernel)⟩

/-- The task of the record, none of its iterations started. -/
def task0 (flags : Nat) : Task := taskOf 0 (record flags) 0x100000 3 1 [] none 0

/-- The task is registered and core 0 is free. -/
def placing (flags : Nat) : State := { (offering false).setCore 0 Core.reset with tasks := [task0 flags] }

theorem test_start_iteration_states :
    MayStart (placing 0) 0 ∧ (placing 0).bestFor 0 = some (task0 0) ∧ Record.persistent (task0 0).record = false ∧
      (placing 4).bestFor 0 = some (task0 4) ∧ Record.persistent (task0 4).record = true ∧ (placing 4).persistentCores (task0 4) = [0] ∧
      ((placing 4).core 0).isFree = true := by
  refine ⟨⟨by decide +kernel, ⟨0, by decide +kernel, by decide +kernel⟩, by decide +kernel⟩, by and_intros <;> decide +kernel⟩

/-- The task's iteration runs on core 0; its clusters run or have halted. -/
def iterating (ph : Phase) (st : Status) : State :=
  let s := (offering false).setPolder 0 { (offering false).polder 0 with
    preempt := { ((offering false).polder 0).preempt with task := 7, base := 0 } }
  let t := atCore s fun k => { k with
    phase := ph
    ctx := k.ctx.map fun c => { c with task := some 0 }
    cls := ⟨{ k.cls.cS with status := st }, { k.cls.cA with status := st }, { k.cls.cX0 with status := st }, { k.cls.cX1 with status := st }⟩ }
  { t with tasks := [{ task0 0 with iters := [⟨0, 0, 0, .running, false⟩] }] }

theorem test_end_iteration_states : (iterating .running .halted).iterationOver 0 = true ∧
    (iterating .running .running).iterationOver 0 = false ∧ ((iterating .running .halted).core 0).loc.l1 = [] := by
  decide +kernel

/-- A request's conditions hold, and the task's contexts can be saved: its ranges pass their checks. -/
theorem test_operation_states :
    let s := iterating .running .running
    Asks s 0 .management ∧ Asks s 0 .physicalFunction ∧ (s.namedTask 0 (s.polder 0).preempt.task).isSome = true ∧ s.savable 0 = [0] ∧
      s.taskCoresNow 0 = [0] ∧ (s.core 0).xfer = none ∧ (s.polder 0).preempt.base.toNat % 65536 = 0 ∧
      ({ s with tasks := [] } : State).namedTask 0 (s.polder 0).preempt.task = none := by
  refine ⟨by constructor <;> decide +kernel, by constructor <;> decide +kernel,
    by and_intros <;> decide +kernel⟩

theorem test_save_ranges :
    (match ((iterating .running .running).openOp 0 1).imageSlots 0 0 [0] with | .ok _ => true | _ => false) = true := by
  decide +kernel

/-- Each kind of removal is due; and a request finds an operation in progress. -/
theorem test_removal_states :
    let s := iterating .running .running
    let t := s.setPolder 0 { s.polder 0 with preempt := { (s.polder 0).preempt with go := true, op := 3, uid := some 0 } }
    (iterating .doubleFault .running).removalDue 0 .doubleFault = true ∧ (iterating .machineStop .running).removalDue 0 .machineCheck = true ∧
      t.removalDue 0 .kill = true ∧ s.removalDue 0 .kill = false ∧ t.mayWrite 0 .physicalFunction = true ∧
      (t.polder 0).part.flrGo = false ∧ (t.polder 0).preempt.go = true := by
  and_intros <;> decide +kernel

/-! ### Registers of the polders -/

/-- A doorbell moves WR, is out of range, and is rung at a disabled queue. -/
theorem test_register_states :
    let s := offering true
    let l := (s.polder 0).launch
    s.served 1 = some 0 ∧ l.en = true ∧ ((16 : Half) - l.wr).toNat < 2 ^ 31 ∧ ((16 : Half) - l.rd).toNat ≤ 2 ^ l.log2n.toNat ∧
      (17 : Half) ≠ l.wr ∧ 2 ^ l.log2n.toNat < ((17 : Half) - l.rd).toNat ∧ (placing 0).served 1 = some 0 ∧
      ((State.reset.setPolder 2 { State.reset.polder 2 with part := { (State.reset.polder 2).part with vf := 1 } }).served 1) = some 2 ∧
      (State.reset.polder 2).launch.en = false := by
  and_intros <;> decide +kernel

/-- Those who may write and those who may not; a core of another polder's. -/
theorem test_block_states :
    let s := offering true
    s.mayWrite 0 .management = true ∧ s.mayWrite 0 .physicalFunction = true ∧ s.mayWrite 0 (.virtualFunction 1) = false ∧
      (s.polder 0).part.en = true ∧ (s.polder 1).part.en = false ∧ s.takenElsewhere 1 0 1 = true ∧ s.takenElsewhere 1 0 2 = false ∧
      s.mayWrite 1 .management = true ∧ s.dev.actlGo = false ∧ s.served 1 = some 0 := by
  and_intros <;> decide +kernel

/-! ### The basin, resets of polders, the host, peers and the device -/

/-- A pure descriptor: a code section of 32 bytes at 0, no argument, no constants, and a result of four bytes at 0x180000,
whose format is I8 and whose shape is one row of one element. Its digest is SHA-256 of the code's bytes, 0x01, 0x10 and
thirty zeros, as another implementation of FIPS 180-4 gives it. -/
def descriptor : PureDesc :=
  let digest := 0xf925ee229ddfd43674824df59463dc483e7dcd2c53a3ed85ea76c4470c0c5879
  BitVec.ofNat 2048 (32 * 2 ^ 64 + 2 ^ 104 + digest * 2 ^ 256 + 0x180000 * 2 ^ 1536 + 4 * 2 ^ 1600 + 2 ^ 1648)

/-- A pure task of polder 0 whose lookup stands as given, its basin on or off and holding an entry. -/
def looking (l : Lookup) (on : Bool) (entries : List BasinEntry) : State :=
  let s := placing 1
  let p := s.polder 0
  { s.setPolder 0 { p with basin := { p.basin with en := on, bentq := 4, rsquota := 4 } } with
    tasks := [{ task0 1 with
      pure := some descriptor
      lookup := l
      key := if l = .missed then some 9 else none
      iters := if l = .missed then [⟨0, 0, 0, .ended, false⟩] else [] }]
    basin := entries }

/-- An entry of that launch. -/
def entry0 : BasinEntry := ⟨9, 0, addressKey (record 1) descriptor, resultFormats descriptor, [1, 2, 3, 4], true, [], 0, false⟩

/-- A lookup is due, with the basin off, and on with an address hit and without. -/
theorem test_lookup_states :
    let d := descriptor
    (∀ on l, ((looking .due on l).task 0).map (·.pure) = some (some d)) ∧
      (match (looking .due false []).task 0 with
        | some x => !x.ended && x.lookup == .due && !x.stopped && (looking .due false []).depsMet x
        | none => false) = true ∧
      ((looking .due false []).polder 0).launches = true ∧ ((looking .due false []).polder 0).basin.en = false ∧
      ((looking .due true []).polder 0).basin.en = true ∧
      (match (looking .due true [entry0]).task 0 with
        | some x => (looking .due true [entry0]).addressHit x d == some entry0 && (looking .due true []).addressHit x d == none
        | none => false) = true := by
  refine ⟨fun _ _ => rfl, by and_intros <;> decide +kernel⟩

/-- The reads of a content lookup give the code, whose digest agrees, and the bytes of the message, of which there are none. -/
theorem test_content_states :
    (match (looking .due true []).task 0 with
      | none => false
      | some x =>
        let u := (looking .due true []).armSlots x descriptor
        match u.unitRead 0 (u.basinAgent 0) (tileVas (PureDesc.code descriptor, PureDesc.codeBytes descriptor)) with
        | .bytes s1 code => sha256 code == leBytes 32 (PureDesc.field descriptor 0x20 32) &&
            match s1.unitRead 0 (u.basinAgent 0) (hashedVas x.record descriptor) with
            | .bytes _ bytes => bytes.isEmpty
            | _ => false
        | _ => false) = true := by
  decide +kernel

/-- The bytes of a completion word pass their checks, evaluated. -/
def wordNow (s : State) (n : Nat) (va : Word) : Bool :=
  match s.checkAccess (s.launcherAgent n) .write .any (vaBytes va 8) with
  | .ok _ => true
  | _ => false

theorem word_now {s : State} {n : Nat} {va : Word} (h : wordNow s n va = true) : WordInMemory s n va := by
  intro word pa h'
  unfold wordNow at h
  split at h
  · next ls hls =>
    have hl : (leBytes 8 word).length = 8 := by simp [leBytes]
    unfold State.unitWrite State.unitPut at h'
    simp only [hl, hls] at h'
    cases h'
  · cases h

/-- A hit copy whose tiles can be written, and a missed task that ends: its insertion can be made, or cannot. -/
theorem test_copy_states :
    let s := looking (.copying 9 [1, 2, 3, 4] true false) true [entry0]
    (match s.task 0 with
      | some x => x.lookup == .copying 9 [1, 2, 3, 4] true false && !x.ended
      | none => false) = true ∧
      (∀ e ∈ s.basin, e.polder = 0 → e.hash = 9 → e.poisoned = false) ∧
      (match s.writeTiles 0 (PureDesc.results descriptor) [1, 2, 3, 4] with
        | .ok s1 => !s1.unitWritesOut 0 && wordNow s1 0 (Record.done (record 1))
        | _ => false) = true ∧
      (match (looking .missed true []).task 0 with
        | some x => x.insertable && (looking .missed true []).allEnded x && (looking .missed true []).insertionOk x descriptor &&
            !(looking .missed false []).insertionOk x descriptor
        | none => false) = true ∧
      (match (looking .missed true []).unitRead 0 ((looking .missed true []).basinAgent 0)
          ((PureDesc.results descriptor).flatMap tileVas) with
        | .bytes s1 l => l == [0, 0, 0, 0] && wordNow s1 0 (Record.done (record 1))
        | _ => false) = true ∧
      wordNow (looking .missed false []) 0 (Record.done (record 1)) = true ∧ (s.polder 0).part.flrGo = false := by
  refine ⟨by decide +kernel, ?_, by and_intros <;> decide +kernel⟩
  intro e h _ _
  have : e = entry0 := by simpa [looking] using h
  rw [this]
  rfl

/-- The addresses that a content lookup reads, in no scratchpad window; and code in one. -/
theorem test_code_places :
    (∀ va ∈ tileVas (PureDesc.code descriptor, PureDesc.codeBytes descriptor) ++ hashedVas (record 1) descriptor, Windowless va) ∧
      (let d : PureDesc := descriptor + 0x7F0000000000
       ¬ Windowless (BitVec.ofNat 64 (PureDesc.code d)) ∧
         BitVec.ofNat 64 (PureDesc.code d) ∈ tileVas (PureDesc.code d, PureDesc.codeBytes d) ∧
         (match (looking .due true []).task 0 with
           | some x => (looking .due true []).addressHit x d == none &&
               wordNow (((looking .due true []).armSlots x d).clearFetched 0) 0 (Record.done x.record)
           | none => false) = true) := by
  refine ⟨fun va h => ?_, ?_, by decide +kernel, by decide +kernel⟩
  · rw [show tileVas (PureDesc.code descriptor, PureDesc.codeBytes descriptor) ++ hashedVas (record 1) descriptor =
      (List.range 32).map (BitVec.ofNat 64 ·) from by decide +kernel] at h
    obtain ⟨i, hi, rfl⟩ := List.mem_map.mp h
    have := List.mem_range.mp hi
    exact .inl (by rw [BitVec.toNat_ofNat]; omega)
  · unfold Windowless
    decide +kernel

/-- A polder being reset, for a time. -/
def resetting (late : Bool) (ns : Nat) (busy : Bool) : State :=
  let s := if busy then begun .cin (word0 1 (2 ^ 19)) [] else base .S
  let t := if busy then s else atCore s fun k => { k with phase := .saving }
  t.setPolder 0 { t.polder 0 with part := { (t.polder 0).part with flrGo := true, flrLate := late, flrTime := ns } }

theorem test_reset_states :
    ((base .S).polder 0).part.flrGo = false ∧ ((resetting false 49999 true).polder 0).part.flrTime < 50000 ∧
      50000 ≤ ((resetting false 50000 true).polder 0).part.flrTime ∧ (resetting false 50000 true).drained 0 = false ∧
      (resetting false 0 false).drained 0 = true ∧ ((resetting true 50000 true).polder 0).part.flrLate = true ∧
      (resetting false 0 false).tasks = [] ∧ (0 : CoreId) ∈ (resetting false 0 false).contextCores 0 := by
  and_intros <;> decide +kernel

/-- The last task of a polder that is being reset, its context drained. -/
def ending : State :=
  let s := iterating .saving .running
  s.setPolder 0 { s.polder 0 with part := { (s.polder 0).part with flrGo := true } }

theorem test_reset_ends_a_task :
    (ending.polder 0).part.flrGo = true ∧ ending.drained 0 = true ∧
      (∃ x, LastTask ending 0 x ∧ Record.done x.record = 0x180000) ∧ WordInMemory (withoutContexts ending 0) 0 0x180000 ∧
      (match (withoutContexts ending 0).unitWrite 0 ((withoutContexts ending 0).launcherAgent 0) 0x180000 (leBytes 8 5) with
        | .ok u1 => u1.l2.isEmpty
        | _ => false) = true := by
  refine ⟨by decide +kernel, by decide +kernel, ⟨{ task0 0 with iters := [⟨0, 0, 0, .running, false⟩] }, ?_, by decide +kernel⟩,
    word_now (by decide +kernel), by decide +kernel⟩
  have only (y : Task) (h : y ∈ ending.tasks) : y = { task0 0 with iters := [⟨0, 0, 0, .running, false⟩] } :=
    List.mem_singleton.mp h
  exact
    { mine := ⟨List.mem_singleton.mpr rfl, rfl, rfl⟩
      alone := fun y h _ n => absurd (congrArg Task.uid (only y h)) n
      unique := fun y h _ => only y h
      removal := rfl }

/-- A host's read, write and atomic at 0x100, which pass their checks, and a read at 4 MiB that does not. -/
theorem test_host_states :
    let s := offering true
    s.apertureOf 1 = some 0 ∧ s.apertureOf 2 = none ∧ (s.polder 0).fetched = [] ∧
      s.checkAccess (hostAgent 0) .read .any (span 0x1000 8) = .ok (hbmAt 0x1000 8 .hc) ∧
      s.checkAccess (hostAgent 0) .write .any (span 0x1100 4) = .ok (hbmAt 0x1100 4 .hc) ∧
      s.checkAccess (hostAgent 0) .atomic .ordered (span 0x1100 8) = .ok (hbmAt 0x1100 8 .hc) ∧
      s.checkAccess (hostAgent 0) .read .any (span 0x400000 4) = .error (.fault .permission 0x400000) ∧
      hostAtom (.hostCas 1 0x1100 true 0 5) = some (1, 0x1100, true, fun old => if old = opnd true 0 then opnd true 5 else old) ∧
      (∀ i, i < 8 → s.poisonAt (hostAgent 0) ⟨.hbm (0x1100 + i), .hc, none⟩ = none) ∧ s.entangled = false ∧
      s.checkAccess (hostAgent 0) .write .any (span 0x400000 4) = .error (.fault .permission 0x400000) ∧
      s.checkAccess (hostAgent 0) .atomic .ordered (span 0x400000 4) = .error (.fault .permission 0x400000) ∧
      (0x1102 : Word).toNat % 4 ≠ 0 ∧ (¬ ∃ p ∈ s.peers, p.use = .hostWrite 0) ∧
      ∃ p ∈ ({ s with peers := [⟨0, .hostWrite 0, 0, 0, 0, [1], 0⟩] } : State).peers, p.use = .hostWrite 0 := by
  refine ⟨by decide +kernel, by decide +kernel, by decide +kernel, by decide +kernel, by decide +kernel, by decide +kernel, by decide +kernel,
    rfl, by decide +kernel, by decide +kernel, by decide +kernel, by decide +kernel, by decide, fun ⟨p, h, _⟩ => (by cases h),
    ⟨_, List.mem_singleton.mpr rfl, rfl⟩⟩

theorem ours_hbmAt (pa n : Nat) : Ours (hbmAt pa n .hc) := by
  intro l h
  obtain ⟨i, -, rfl⟩ := List.mem_map.mp h
  exact fun a => by simp

/-- Polder 0 exports its memory to polder 3 of device 5, some of it secure. -/
def exporting (sec : Bool) : State :=
  let s := base .S
  let p := s.polder 0
  { s.setPolder 0 { p with part := { p.part with
      exps := tset p.part.exps 0 ⟨BitVec.ofNat 64 (2 ^ 63 + 2 ^ 62 + 2 ^ 61 + 5 * 2 ^ 48 + 3 * 2 ^ 40), 0x10000, 1⟩ } } with
    dev := { Device.reset with secure := if sec then [⟨0x10000, 0x1000⟩] else [] } }

/-- The conditions of `Says.Exported` that polder 0's first entry meets, evaluated. -/
theorem exported_here {sec : Bool} {r : PeerRequest} (h : (decide (∀ i, i < peerBytes r.op → ((exporting sec).polder 0).inRange (r.address + i) = true) &&
    decide (r.device = 5 ∧ r.polder = 3 ∧ 0x10000 ≤ r.address ∧ r.address + peerBytes r.op ≤ 0x20000)) = true) : Exported (exporting sec) r := by
  simp only [Bool.and_eq_true, decide_eq_true_eq] at h
  refine ⟨0, by decide, by cases sec <;> rfl, h.1, ⟨BitVec.ofNat 64 (2 ^ 63 + 2 ^ 62 + 2 ^ 61 + 5 * 2 ^ 48 + 3 * 2 ^ 40), 0x10000, 1⟩,
    by cases sec <;> decide +kernel, by decide, fun _ => by decide, fun _ => by decide, ?_, ?_, h.2.2.2.1, h.2.2.2.2.trans (by decide)⟩
  · rw [h.2.1]; decide
  · rw [h.2.2.1]; decide

theorem test_request_states :
    Exported (exporting false) ⟨5, 3, false, 0x1FFF8, .read 8⟩ ∧ Exported (exporting false) ⟨5, 3, false, 0x10000, .write [1, 2]⟩ ∧
      Exported (exporting false) ⟨5, 3, false, 0x10000, .rmw .add true 1⟩ ∧ Exported (exporting false) ⟨5, 3, false, 0x10000, .ordered 1 0⟩ ∧
      Exported (exporting true) ⟨5, 3, false, 0x10FFF, .read 2⟩ ∧ (exporting true).isSecure 0x10FFF = true ∧
      Memory.wf (exporting false).mem = true ∧ (exporting false).homePoison (0x10000 / 32) = none ∧ (exporting false).entangled = false :=
  ⟨exported_here (by decide +kernel), exported_here (by decide +kernel), exported_here (by decide +kernel),
    exported_here (by decide +kernel), exported_here (by decide +kernel), by and_intros <;> decide +kernel⟩

/-- No polder's memory holds the bytes of a request. -/
theorem test_refused_request : ¬ Exported State.reset ⟨5, 3, false, 0x1FFF9, .read 8⟩ := by
  rintro ⟨n, hn, -, h, -⟩
  have none_ : ∀ m : Nat, m < 64 → (State.reset.polder m).inRange 0x1FFF9 = false := by decide +kernel
  have := h 0 (by decide)
  rw [none_ n hn] at this
  cases this

/-- One access waits for a peer. -/
def awaiting (use : PeerUse) (age : Nat) : State := { base .S with peers := [⟨0, use, 0, 0x10000, 8, [], age⟩] }

theorem test_response_states :
    (awaiting (.store 0 (.cluster .S)) 999999).peers[0]? = some ⟨0, .store 0 (.cluster .S), 0, 0x10000, 8, [], 999999⟩ ∧
      (awaiting (.fetch 0 .S) 1000000).peers[0]? = some ⟨0, .fetch 0 .S, 0, 0x10000, 8, [], 1000000⟩ ∧
      (awaiting (.atomic 0 .A 3 0) 0).peers[0]? = some ⟨0, .atomic 0 .A 3 0, 0, 0x10000, 8, [], 0⟩ ∧
      ((awaiting (.atomic 0 .A 3 0) 0).core 0).getSr 0x078 = 0 ∧ sget 0 ((awaiting (.atomic 0 .A 3 0) 0).core 0).trap.watchHit 1 = 0 ∧
      swf none ((awaiting (.fetch 0 .S) 0).cl 0 .S).fetched = true := by
  refine ⟨rfl, rfl, rfl, by and_intros <;> decide +kernel⟩

/-- A device that has booted, or not, with a request for a report at an address. -/
def reporting (ready : Bool) (a : Word) : State := { State.reset with dev := { Device.reset with ready := ready, actlGo := true, aaddr := a } }

theorem test_lifecycle_states :
    (∀ x ∈ State.reset.tasks, x.ended = true) ∧ State.reset.dev.ready = false ∧ (reporting true 0).dev.ready = true ∧
      (reporting true 0x200).dev.actlGo = true ∧ (reporting true 0x200).reportPlace = true ∧ (reporting true 0x201).reportPlace = false ∧
      Memory.wf (reporting true 0x200).mem = true ∧ (reporting true 0x200).entangled = false := by
  refine ⟨by simp [State.reset], rfl, rfl, rfl, by decide +kernel, by decide +kernel, rfl, by decide +kernel⟩

theorem test_link_states :
    tget ⟨false, 0⟩ ({ State.reset with ports := tset State.reset.ports 15 ⟨true, 15⟩ } : State).ports 15 = ⟨true, 15⟩ ∧
      tget ⟨false, 0⟩ ({ State.reset with ports := tset State.reset.ports 0 ⟨false, 0⟩ } : State).ports 0 = ⟨false, 0⟩ := by
  decide +kernel

/-- %time is locked and two seconds have passed without a sync message; one cluster waits for a time, or none does. -/
def unlocking (wait : Bool) : State :=
  { (if wait then waiting (.time 0 0) else base .S) with dev := { Device.reset with tlock := true, sinceSync := 2000000000 } }

/-- No running cluster waits for a time, evaluated. -/
def noTimedWait (t : State) : Bool :=
  t.cores.toList.all fun k => k.phase != .running || clusterOrder.all fun x => (k.cl x).waitsTime.isNone

theorem test_lock_states :
    noTimedWait (unlocking false) = true ∧ 2000000000 ≤ (unlocking true).dev.sinceSync ∧ (unlocking true).dev.tlock = true ∧
      ((unlocking true).core 0).phase = .running ∧ ((unlocking true).cl 0 .A).waitsTime = some 0 ∧
      ((unlocking true).cores.toList.map fun k => (clusterOrder.filter fun x => (k.cl x).waitsTime.isSome).length).sum = 1 ∧
      next (State.raise { unlocking true with dev := { (unlocking true).dev with tlock := false } } 0
        ⟨.timeUnlocked, 0, .A, none, 0, 0, ((unlocking true).cl 0 .A).useq.isSome⟩) noTimedWait = true ∧
      State.reset.dev.tlock = false := by
  and_intros <;> decide +kernel

/-- The sensor's junction temperature is free; one of the two cases holds. -/
theorem test_junction_states (s : State) :
    (Config.sensor s.free).toNat / 2 ^ 16 < 115 ∨ 115 ≤ (Config.sensor s.free).toNat / 2 ^ 16 := Nat.lt_or_ge _ _

/-! ### A step, the encodings and the memories -/

/-- What `Says.Decodes` asks, evaluated: the header and the instruction of the syllable that the state names. -/
def decodesNow (v : State) (h : Header) (i : Instr) : Bool :=
  decide (decode v.actor.cl v.here.isUser v.actor.syl = .ok (h, i)) && v.me.loops.isEmpty && !v.me.interlocked i

theorem decodes_now {v : State} {h : Header} {i : Instr} (e : decodesNow v h i = true) : Decodes v h i := by
  simp only [decodesNow, Bool.and_eq_true, decide_eq_true_eq, Bool.not_eq_true', List.isEmpty_iff] at e
  exact ⟨e.1.1, by simp [e.1.2], e.2⟩

/-- What `Says.Issues` asks, evaluated, with a condition on the fetch's answer and its bundle. -/
def issuesNow (s : State) (c : CoreId) (x : Cluster) (late : Bool) (f : State → BitVec 256 → Bool) : Bool :=
  match State.fetch { s with actor := ⟨c, x, 0, false, late⟩ } c x (s.cl c x).pc with
  | .bundle u b => s.canIssue c x && ((s.cl c x).useq.bind (·.syl)).isNone && !(u.core c).breaks x && syncAgrees b && !isSynced b && f u b
  | _ => false

theorem issues_now {s : State} {c : CoreId} {x : Cluster} {late : Bool} {f : State → BitVec 256 → Bool}
    (h : issuesNow s c x late f = true) : ∃ u b, Issues s u c x late b ∧ f u b = true := by
  unfold issuesNow at h
  split at h
  · next u b hf =>
    simp only [Bool.and_eq_true, Bool.not_eq_true', Option.isNone_iff_eq_none] at h
    obtain ⟨⟨⟨⟨⟨h1, h2⟩, h3⟩, h4⟩, h5⟩, h6⟩ := h
    exact ⟨u, b, ⟨h1, h2, hf, h3, h4, .inl h5⟩, h6⟩
  · cases h

/-- The machine that is about to run `add s3, s1, s2`. -/
def oneAdd : State := State.reset.withFetchWord 64 0x0040182100000000

/-- The instruction issues, after time has passed, its accesses put off or not; its bundle's address is that of the bytes that
its page names. -/
theorem test_step_states :
    oneAdd.agenda = [.issue 0 .S] ∧
      (∀ late, ∃ u b, Issues { oneAdd.elapse with agenda := [] } u 0 .S late b ∧
        decodesNow { u with actor := ⟨0, .S, slotOf b .S, false, late⟩ } .always (.add 3 1 2) = true) ∧
      FetchesAt oneAdd 0 ((oneAdd.core 0).agent 0 (.cluster .S)) 0x10000 0x10000 0x10037 3 := by
  refine ⟨rfl, fun late => issues_now (by cases late <;> decide +kernel), ?_⟩
  exact
    { early := by decide +kernel
      plain := by decide +kernel
      leafOk := by decide +kernel
      place := ⟨.hc, by decide +kernel⟩
      whole := by decide
      clean := by decide +kernel }

/-- X0 is in the sequence that a syllable began. -/
def inSequence : State :=
  let s := oneAdd.setCl 0 .X0 { oneAdd.cl 0 .X0 with useq := some ⟨3, 1, some 0x7CC000C008020080⟩ }
  { s with agenda := [.issue 0 .X0] }

theorem test_micro_step_states : inSequence.elapse.canIssue 0 .X0 = true ∧
    ((inSequence.elapse.cl 0 .X0).useq.bind (·.syl)) = some 0x7CC000C008020080 ∧
    Decodes { inSequence.elapse with agenda := [], actor := ⟨0, .X0, 0x7CC000C008020080, false, false⟩ } .always (.mop 3 3 1 2 0 2 0) :=
  ⟨by decide +kernel, by decide +kernel, decodes_now (by decide +kernel)⟩

/-- The four clusters stand in a met synced bundle of NOPs. -/
def synced : State := { oneAdd with mem := wrBytes oneAdd.mem 0x10000 (leBytes 32 (2 ^ 63 + 2 ^ 127 + 2 ^ 191 + 2 ^ 255)) }

/-- What `Says.RunsEach` asks of mates that execute NOP, evaluated. -/
def nopsNow (b : BitVec 256) (c : CoreId) : List Cluster → State → Bool
  | [], _ => true
  | y :: ys, s =>
    let v : State := { s with actor := ⟨c, y, slotOf b y, false, false⟩, free := s.free + 1 }
    let own : Res := if (v.me.getP 0 != false) = true then (if v.marked .nop then .next (v.block .reductions) else exec .nop v)
      else .next v.complete
    decodesNow v ⟨true, 0, false⟩ .nop && match own with
      | .next t => t.actor.done && match t.afterBundle v.here with
        | .next u => nopsNow b c ys u
        | _ => false
      | _ => false

theorem nops_now (b : BitVec 256) (c : CoreId) (l : List Cluster) (s : State) (h : nopsNow b c l s = true) : ∃ z, RunsEach b c l s z := by
  induction l generalizing s with
  | nil => exact ⟨s, .done s⟩
  | cons y ys ih =>
    simp only [nopsNow, Bool.and_eq_true] at h
    obtain ⟨h1, h2⟩ := h
    split at h2
    · next t ht =>
      simp only [Bool.and_eq_true] at h2
      obtain ⟨h3, h4⟩ := h2
      split at h4
      · next u hu =>
        obtain ⟨z, hz⟩ := ih u h4
        refine ⟨z, .next y ys s _ t u z _ _ rfl (decodes_now h1) ?_ ht h3 hz⟩
        unfold Runs
        rw [ht]
        exact hu
      · cases h4
    · cases h2

/-- The conditions of a step in a met synced bundle, evaluated. -/
def meetsNow (s : State) : Bool :=
  match State.fetch { s with actor := ⟨0, .S, 0, false, false⟩ } 0 .S (s.cl 0 .S).pc with
  | .bundle u b => s.canIssue 0 .S && ((s.cl 0 .S).useq.bind (·.syl)).isNone && !(u.core 0).breaks .S && syncAgrees b && isSynced b &&
      (u.cl 0 .S).owes && !(u.core 0).inHandler && (clusterOrder.all fun y => (u.cl 0 y).owes && (u.cl 0 y).status == .running) &&
      nopsNow b 0 (u.core 0).owing { u with actor := ⟨0, .S, slotOf b .S, false, false⟩ }
  | _ => false

theorem test_synced_step_states : synced.agenda = [.issue 0 .S] ∧ meetsNow { synced.elapse with agenda := [] } = true :=
  ⟨rfl, by decide +kernel⟩

/-- That step answers a next state, in which the sum has been written and the cluster stands at the next bundle. -/
theorem test_step_next : next (step oneAdd) (fun t => (t.cl 0 .S).pc == 0x10020 && (t.cl 0 .S).getS 3 == 0) = true := by
  decide +kernel

/-- An event stands first on the agenda. -/
theorem test_event_step : ({ State.reset with agenda := [.event .clockThrottle] } : State).agenda = .event .clockThrottle :: [] := rfl

/-- An instruction of every slot set that has an encoding, its operands at the ends of their ranges. -/
theorem test_encoding_states :
    ((([.add 63 0 63, .loopi 0xFFFF 0x7FFFFFF, .vadd 1535 0 1535 15 .bf16 .rdn, .ldd 63 63 ⟨.sc, .system, .retain⟩ 0xFFFFFF,
      .mma 63 ⟨0xFF, 0xFF⟩ 31 31 5 true true true, .ctxsave 63 63 63 63 .fence, .mop 15 1535 1535 1535 15 63 63] : List Instr).all
      fun i => i.wellFormed && i.layout.isSome) = true) := by
  decide +kernel

theorem test_canonical_reset : Canonical State.reset where
  mem := rfl
  host := rfl
  pads := fun c => by
    rw [core_reset]
    rfl

/-! ### Images in memory -/

/-- An image without an entry in its 0x280000 bytes but its header's, its queues' and its clusters' joins, none of which any
command has entered. -/
def smallImage (core cores : Nat) : Memory :=
  imgPuts [] ([(0, 4, 0x58434659), (4, 2, 1), (8, 4, 0x280000), (0x11, 1, core), (0x12, 1, 1), (0x14, 1, cores)].append
    ((engineOrder.map fun e => (0x263E10 + 24 * e.code, 12, 2 ^ 96 - 1)) ++ clusterOrder.map fun x =>
      (0x26E920 + 8 * x.code, 8, 2 ^ 64 - 1)))

/-- Memory reads as zero above its last cell. -/
theorem rd_above {top : Nat} : ∀ {m : Memory}, m.all (fun e => decide (e.1 < top)) = true → ∀ j, top ≤ j → rdByte m j = 0
  | [], _, _, _ => rfl
  | (k, v) :: m, h, j, hj => by
    simp only [List.all_cons, Bool.and_eq_true, decide_eq_true_eq] at h
    have n1 : j ≠ k := by omega
    have n2 : ¬ j < k := by omega
    simpa [rdByte, sget, n1, n2] using rd_above h.2 j hj

theorem img_get_above {m : Memory} {top : Nat} (h : m.all (fun e => decide (e.1 < top)) = true) :
    ∀ (n off : Nat), top ≤ off → imgGet m off n = 0 := by
  intro n
  induction n with
  | zero => intros; rfl
  | succ n ih =>
    intro off ho
    have := ih (off + 1) (by omega)
    simp only [imgGet] at this ⊢
    simp [rdBytes, leNat, rd_above h off ho, this]

theorem small_image_ok (core cores : Nat) (h1 : (smallImage core cores).all (fun e => decide (e.1 < 0x26E940)) = true)
    (h2 : headerOk (smallImage core cores) = true) (h3 : imageCsmap (smallImage core cores) = 0)
    (h4 : (useqOk (smallImage core cores) .X0 && useqOk (smallImage core cores) .X1 && engineOrder.all (queueOk (smallImage core cores)) &&
      (List.range 32).all (streamOk (smallImage core cores)) && engineOrder.all (entriesOk (smallImage core cores)) &&
      clusterOrder.all (joinOk (smallImage core cores)) && accsOk (smallImage core cores) &&
      decide (imgGet (smallImage core cores) 0x26A4A8 2 ≤ 1024)) = true)
    (h5 : engineOrder.all (claimsOk (smallImage core cores)) = true)
    (h6 : ∀ e : Engine, imgGet (smallImage core cores) (0x263E10 + 24 * e.code) 4 = 0xFFFFFFFF)
    (h7 : (List.range 20).all (fun i => imgGet (smallImage core cores) (0x26E881 + 8 * i) 1 == 0) = true)
    (h8 : engineOrder.all (claimsAgree (smallImage core cores)) = true) : imageOk (smallImage core cores) = true := by
  have z := img_get_above h1
  have s1 : (List.range 16).all (slotOk (smallImage core cores)) = true := by
    rw [List.all_eq_true]
    intro i _
    have : (regionWords (smallImage core cores) i).all (· == 0) = true := by
      rw [List.all_eq_true]
      intro w hw
      obtain ⟨j, -, rfl⟩ := List.mem_map.mp hw
      simp [z 8 (0x270000 + 8 * (256 * i + j)) (by omega)]
    simpa [slotOk, h3] using this
  have s2 : ∀ e b, 0x26E940 ≤ b → historyOk (smallImage core cores) e b = true := by
    intro e b hb
    have v : ∀ i, recordValid (smallImage core cores) b i = false := fun i => by
      simp [recordValid, z 1 (b + 32 * i + 8) (by omega)]
    have r : ∀ i, recordOk (smallImage core cores) b i = true := fun i => by simp [recordOk, v, z 32 (b + 32 * i) (by omega)]
    simp [historyOk, ordinalsRise, r, v, h6]
  have s3 : (List.range 400).all (entryOk (smallImage core cores)) = true := by
    rw [List.all_eq_true]
    intro i _
    simp [entryOk, z 1 (0x27C000 + 24 * i + 8) (by omega), z 3 (0x27C000 + 24 * i + 9) (by omega), z 4 (0x27C000 + 24 * i + 20) (by omega)]
  have s4 : blocksZero (smallImage core cores) = true := by
    have e : (List.range 14).all (fun i => imgGet (smallImage core cores) (0x26E95C + 16 * i) 4 == 0) = true := by
      rw [List.all_eq_true]
      intro i _
      simp [z 4 (0x26E95C + 16 * i) (by omega)]
    simp only [blocksZero, z _ 0x26E944 (by omega), z _ 0x26EA30 (by omega), z _ 0x27E580 (by omega), h7, e, BEq.rfl, Bool.and_self]
  simp only [Bool.and_eq_true] at h4
  simp only [imageOk, h2, s4, h8, s1, s2 .mtx 0x278000 (by omega), s2 .cin 0x27A000 (by omega), s3, h4, h5, Bool.and_true]

/-- A memory's cells moved up. -/
def shifted (k : Nat) (m : Memory) : Memory := m.map fun e => (k + e.1, e.2)

/-- Cells moved above others read as they did. -/
theorem rd_shifted (k : Nat) (b : Memory) : ∀ (a : Memory) (j : Nat), a.all (fun e => decide (e.1 < k)) = true →
    rdByte (a ++ shifted k b) (k + j) = rdByte b j
  | [], j, _ => by
    induction b with
    | nil => rfl
    | cons e b ih =>
      obtain ⟨i, v⟩ := e
      simp only [shifted, List.map_cons, List.nil_append, rdByte, sget] at ih ⊢
      simp only [Nat.add_left_cancel_iff, Nat.add_lt_add_iff_left, ih]
  | (i, v) :: a, j, h => by
    simp only [List.all_cons, Bool.and_eq_true, decide_eq_true_eq] at h
    have n1 : k + j ≠ i := by omega
    have n2 : ¬ k + j < i := by omega
    simpa [rdByte, sget, n1, n2] using rd_shifted k b a j h.2

/-- Cells below those moved read as they do without them. -/
theorem rd_below (k : Nat) (b : Memory) : ∀ (a : Memory) (j : Nat), j < k → rdByte (a ++ shifted k b) j = rdByte a j
  | [], j, h => by
    cases b with
    | nil => rfl
    | cons e b =>
      obtain ⟨i, v⟩ := e
      have n1 : j ≠ k + i := by omega
      have n2 : j < k + i := by omega
      simp [shifted, rdByte, sget, n1, n2]
  | (i, v) :: a, j, h => by
    have := rd_below k b a j h
    simp only [rdByte, List.cons_append, sget] at this ⊢
    rw [this]

/-- The header of a task image: a record of two iterations, one to a core, and the mark and the count of slot 1. -/
def taskHeader : Memory :=
  imgPuts [] [(0, 128, (record 0).toNat + 2 ^ 128 + 2 * 2 ^ 160), (0x1010, 8, 1), (0x1018, 1, 1)]

/-- A task image: its header, and slot 1. -/
def taskImage : Memory := taskHeader ++ shifted 0x342000 (smallImage 1 2)

/-- The translation of the slot's page, of 1 GiB. -/
def slotPages : List TlbEntry := [⟨0, false, 0, leafRw 0 0, 1⟩]

/-- Polder 0 has cores 0 and 1 and 7 MiB; a task image lies at 0x100000, one saved slot at 0x442000. Core 0 runs, its TLB
and its die's holding the slot's page, and core 1 is free. -/
def imaging : State :=
  let s := mapped 0x1000
  let p := s.polder 0
  let t := s.setPolder 0 { p with
    part := { p.part with pcore := tset p.part.pcore 0 3, pmemS := tset p.part.pmemS 0 112 }
    preempt := { p.preempt with base := 0x100000 } }
  let u := withScalars t [(6, 0x442000), (7, 0x443000)]
  { atCore u fun k => { k with loc := { k.loc with tlb := slotPages } } with
    dies := tset u.dies 0 { Die.reset with tlb := slotPages }
    dev := { Device.reset with ready := true }
    mem := tables 0x1000 (leafRw 0 0) ++ shifted 0x100000 taskImage }

/-- A page of these tables places a byte of the polder. -/
theorem use_plain {s : State} {ag : Agent} {va : Word} (hu : ag.user = false) (hs : s.dev.secure = [])
    (hr : (s.polder ag.polder).inRange va.toNat = true) (hv : va.toNat < 0x700000) :
    s.useLeaf ag .read va (leafRw 0 0) 1 = .ok (.hbm va.toNat, .hc) := by
  have e : leafRw 0 0 = 0x2F#64 := rfl
  have m : va.toNat % 1073741824 = va.toNat := Nat.mod_eq_of_lt (by omega)
  have hs' : s.isSecure va.toNat = false := by simp [State.isSecure, hs]
  have hb : ¬ Config.hbmBytes ≤ va.toNat := by simp only [Config.hbmBytes]; omega
  simp [State.useLeaf, e, leafBits, leafMode, m, hu, hr, hs', hb, AccKind.reads, AccKind.writes]

theorem in_range {p : Polder} {a : Nat} (h0 : (tget 0 p.part.pmemB 0).toNat = 0) (h1 : (tget 0 p.part.pmemS 0).toNat = 112)
    (ha : a < 0x700000) : p.inRange a = true := by
  rw [Polder.inRange, List.any_eq_true]
  refine ⟨0, by simp, ?_⟩
  simp only [h0, h1, decide_eq_true_eq]
  omega

/-- The addresses of the table entries that a walk reads. -/
def entryPath : List Nat :=
  match walkFrom (imaging.openOp 0 2) ((imaging.openOp 0 2).polder 0) ((imaging.openOp 0 2).launcherAgent 0).secure .read 0
    [(0, 39, 9), (1, 30, 9)] 0 with
  | .ok x => x.2.2
  | .error _ => []

/-- The registers' unit reads every byte of the 7 MiB where it lies. -/
theorem unit_reads {va : Word} (h : va.toNat < 0x700000) :
    Reads (imaging.openOp 0 2) ((imaging.openOp 0 2).launcherAgent 0) .any va va.toNat := by
  have hw : (imaging.openOp 0 2).walk ((imaging.openOp 0 2).polder 0) ((imaging.openOp 0 2).launcherAgent 0).secure .read va =
      .ok (leafRw 0 0, 1, entryPath) := by
    have ht : (if va.getLsbD 47 then ((imaging.openOp 0 2).polder 0).part.ptroot1 else ((imaging.openOp 0 2).polder 0).part.ptroot0) = 0 := by
      split <;> rfl
    have e : walkFrom (imaging.openOp 0 2) ((imaging.openOp 0 2).polder 0) ((imaging.openOp 0 2).launcherAgent 0).secure .read 0
      [(0, 39, 9), (1, 30, 9)] 0 = .ok (leafRw 0 0, 1, entryPath) := by decide +kernel
    rw [State.walk, ht]
    refine walkFrom_same (ls := [(0, 39, 9), (1, 30, 9)]) (more := [(2, 21, 9), (3, 16, 5)]) ?_ e
    have e1 : va.toNat / 549755813888 = 0 := Nat.div_eq_of_lt (by omega)
    have e2 : va.toNat / 1073741824 = 0 := Nat.div_eq_of_lt (by omega)
    simp [e1, e2]
  have hl : (imaging.openOp 0 2).leaf ((imaging.openOp 0 2).launcherAgent 0) .read va = .ok (leafRw 0 0, 1) := by
    have ht : (imaging.openOp 0 2).tlbHit ((imaging.openOp 0 2).launcherAgent 0) va = none := rfl
    have hk : (imaging.openOp 0 2).walkHit ((imaging.openOp 0 2).launcherAgent 0) va = none := rfl
    simp only [State.leaf, ht, State.walkOf, hk]
    exact congrArg (Except.map fun x => (x.1, x.2.1)) hw
  refine ⟨by simp [regionOf, show va.toNat < 0x7E0000000000 by omega], ?_⟩
  have hu := use_plain (s := imaging.openOp 0 2) (ag := (imaging.openOp 0 2).launcherAgent 0) (va := va) rfl rfl
    (in_range (by decide +kernel) (by decide +kernel) h) h
  rw [State.locTranslated, hl]
  simp only [bind, Except.bind, hu]
  rfl

/-- So does the cluster, by its TLB, at the slot. -/
theorem page_zero {va : Word} (h : va.toNat < 0x700000) : blockOf (leafBits 1) va = 0 := by
  simp only [blockOf, leafBits]; omega

theorem core_tlb : (imaging.core 0).loc.tlb = slotPages := by decide +kernel

theorem die_tlb : (imaging.die 0).tlb = slotPages := by decide +kernel

theorem cluster_hit {va : Word} (h : 0x440000 ≤ va.toNat ∧ va.toNat < 0x700000) :
    imaging.tlbHit imaging.agentHere va = some ⟨0, false, 0, leafRw 0 0, 1⟩ := by
  have hc : imaging.agentHere.core = some 0 := by decide +kernel
  have hs : TlbEntry.serves ⟨0, false, 0, leafRw 0 0, 1⟩ imaging.agentHere va = true := by
    simp [TlbEntry.serves, page_zero h.2, show imaging.agentHere.ctx = 0 from by decide +kernel,
      show imaging.agentHere.secure = false from by decide +kernel]
  simp only [State.tlbHit, hc, Option.bind_some, core_tlb, slotPages]
  rw [List.find?_cons_of_pos (p := fun x : TlbEntry => x.serves imaging.agentHere va) hs]
  rfl

theorem cluster_reads {va : Word} (h : 0x440000 ≤ va.toNat ∧ va.toNat < 0x700000) :
    Reads imaging imaging.agentHere .any va va.toNat := by
  have hl : imaging.leaf imaging.agentHere .read va = .ok (leafRw 0 0, 1) := by simp only [State.leaf, cluster_hit h]
  refine ⟨by simp [regionOf, show va.toNat < 0x7E0000000000 by omega], ?_⟩
  have hu := use_plain (s := imaging) (ag := imaging.agentHere) (va := va) (by decide +kernel) rfl
    (in_range (by decide +kernel) (by decide +kernel) h.2) h.2
  rw [State.locTranslated, hl]
  simp only [bind, Except.bind, hu]
  rfl

/-- A translation that the TLBs hold is kept as it is. -/
theorem fill_kept {s : State} {ag : Agent} {c : CoreId} {kind : AccKind} {va : Word} {e : TlbEntry} (hc : ag.core = some c)
    (hr : regionOf va = .translated) (hl : s.tlbHit ag va = some e) (he : e = ⟨ag.ctx, ag.secure, blockOf (leafBits e.level) va, e.leaf, e.level⟩)
    (h1 : e ∈ (s.core c).loc.tlb) (h2 : e ∈ (s.die c).tlb) : s.fillTlb ag kind va = s := by
  have k (n : Nat) (l : List TlbEntry) (h : e ∈ l) : keepEntry n e l = l := by simp [keepEntry, h]
  have hleaf : s.leaf ag kind va = .ok (e.leaf, e.level) := by simp only [State.leaf, hl]
  simp only [State.fillTlb, hc, hr, hleaf, hl, ← he, k _ _ h1, k _ _ h2]
  have d : c.val / 64 < 4 := by omega
  show ({ s with cores := s.cores.set c.val (s.cores.get c) c.isLt, dies := tset s.dies (c.val / 64) (tget Die.reset s.dies (c.val / 64)) } : State) = s
  have e1 : s.cores.set c.val (s.cores.get c) c.isLt = s.cores := Vector.set_getElem_self ..
  have e2 : tset s.dies (c.val / 64) (tget Die.reset s.dies (c.val / 64)) = s.dies := by
    refine Vector.ext fun i hi => ?_
    by_cases hx : c.val / 64 = i
    · simp [tset, tget, hx, Vector.getElem?_eq_getElem hi]
    · simp [tset, tget, d, hx]
  rw [e1, e2]

/-- The machine with other counts at the controllers. -/
def counted (T : Sparse Nat) (s : State) : State := { s with touched := T }

theorem cluster_tlb (T : Sparse Nat) (l : List Word) (h : ∀ va ∈ l, 0x440000 ≤ va.toNat ∧ va.toNat < 0x700000) :
    (counted T imaging).fillTlbs imaging.agentHere .read l = counted T imaging := by
  induction l with
  | nil => rfl
  | cons va l ih =>
    have hv := h va (List.mem_cons_self ..)
    have hf : (counted T imaging).fillTlb imaging.agentHere .read ((((counted T imaging).stashOf imaging.agentHere va).map (·.1)).getD va) =
        counted T imaging := by
      have hr : Reads (counted T imaging) imaging.agentHere .any va va.toNat := (cluster_reads hv).touched T
      rw [hr.stashOf]
      have hh : (counted T imaging).tlbHit imaging.agentHere va = some ⟨0, false, 0, leafRw 0 0, 1⟩ := cluster_hit hv
      refine fill_kept (c := 0) (by decide +kernel) hr.region hh ?_ ?_ ?_
      · simp only [Option.map_none, Option.getD_none, page_zero hv.2, show imaging.agentHere.ctx = 0 from by decide +kernel, show imaging.agentHere.secure = false from by decide +kernel]
      · exact (congrArg (_ ∈ ·) core_tlb).mpr (List.mem_singleton.mpr rfl)
      · exact (congrArg (_ ∈ ·) die_tlb).mpr (List.mem_singleton.mpr rfl)
    rw [State.fillTlbs, hf]
    exact ih fun a ha => h a (List.mem_cons_of_mem _ ha)

/-! What the two readers read -/

theorem slot_byte (j : Nat) : rdByte imaging.mem (0x442000 + j) = rdByte (smallImage 1 2) j := by
  have e : 0x442000 + j = 0x100000 + (0x342000 + j) := by omega
  rw [e]
  exact (rd_shifted 0x100000 taskImage _ _ (by decide +kernel)).trans (rd_shifted 0x342000 (smallImage 1 2) _ _ (by decide +kernel))

theorem header_byte (j : Nat) (h : j < 0x342000) : rdByte imaging.mem (0x100000 + j) = rdByte taskHeader j :=
  (rd_shifted 0x100000 taskImage _ _ (by decide +kernel)).trans (rd_below 0x342000 (smallImage 1 2) _ _ h)

/-- The bytes of the 7 MiB from an address. -/
def bytesAt (b : Word) (n : Nat) : List Byte := (vaBytes b n).map fun va => rdByte imaging.mem va.toNat

/-- The image of the bytes from an address is what the memory from there holds. -/
theorem image_at {b : Word} {n : Nat} {m : Memory} (hb : b.toNat + n < 2 ^ 64) (hm : Memory.wf m = true)
    (hk : m.all (fun e => decide (e.1 < n)) = true) (h : ∀ j, j < n → rdByte imaging.mem (b.toNat + j) = rdByte m j) :
    imageOf (bytesAt b n) = m := by
  unfold bytesAt
  have hl : ((vaBytes b n).map fun va => rdByte imaging.mem va.toNat).length = n := by rw [List.length_map, vaBytes_length]
  refine imageOf_eq hm (fun j hj => ?_) (fun j hj => ?_)
  · rw [hl] at hj
    rw [List.getD_eq_getElem _ _ (by rw [hl]; exact hj), List.getElem_map, vaBytes_getElem, BitVec.toNat_add, BitVec.toNat_ofNat,
      Nat.mod_eq_of_lt (by omega : j < 2 ^ 64), Nat.mod_eq_of_lt (by omega)]
    exact h j hj
  · rw [hl] at hj
    exact rd_above hk j hj

theorem span_eq (b : Word) (n : Nat) : span b n = vaBytes b n := by
  refine List.ext_getElem (by simp [span, vaBytes_length]) fun i _ _ => ?_
  rw [vaBytes_getElem]
  simp [span]

theorem small_image_good : imageOk (smallImage 1 2) = true :=
  small_image_ok 1 2 (by decide +kernel) (by decide +kernel) (by decide +kernel) (h5 := by decide +kernel) (h7 := by decide +kernel) (h8 := by decide +kernel) (h6 := fun e => by cases e <;> decide +kernel) (by
    simp only [Bool.and_eq_true]
    exact ⟨⟨⟨⟨⟨⟨⟨by decide +kernel, by decide +kernel⟩, by decide +kernel⟩, by decide +kernel⟩, by decide +kernel⟩, by decide +kernel⟩,
      by decide +kernel⟩, by decide +kernel⟩)

theorem unit_quiet : Quiet (imaging.openOp 0 2) ((imaging.openOp 0 2).launcherAgent 0) :=
  ⟨rfl, rfl, rfl, fun c h => (by cases h), by decide +kernel, by decide +kernel, .inl rfl⟩

theorem unit_read (T : Sparse Nat) {b : Word} {n : Nat} (h : b.toNat + n ≤ 0x700000) : ∃ T',
    (counted T (imaging.openOp 0 2)).unitRead 0 ((imaging.openOp 0 2).launcherAgent 0) (vaBytes b n) =
      .bytes (counted T' (imaging.openOp 0 2)) (bytesAt b n) := by
  have hp : ((imaging.openOp 0 2).launcherAgent 0).pure = none := rfl
  have hc : ((imaging.openOp 0 2).launcherAgent 0).core = none := rfl
  have hf : ((counted T (imaging.openOp 0 2)).polder 0).fetched = [] := by
    show ((imaging.openOp 0 2).polder 0).fetched = []
    decide +kernel
  exact ⟨_, unitRead_reads hp hc (unit_quiet.touched T) hf fun va hv =>
    (unit_reads (by have := mem_vaBytes (by omega) hv; omega)).touched T⟩

theorem cluster_quiet : Quiet imaging imaging.agentHere :=
  ⟨rfl, rfl, rfl, fun c hc => by
    obtain rfl : c = 0 := Option.some.inj (hc.symm.trans (by decide +kernel))
    decide +kernel, by decide +kernel, by decide +kernel, .inl rfl⟩

theorem cluster_read (T : Sparse Nat) {b : Word} {n : Nat} (h : 0x440000 ≤ b.toNat ∧ b.toNat + n ≤ 0x700000) : ∃ T',
    (counted T imaging).load imaging.agentHere .any .normal (span b n) = .ok (counted T' imaging) (bytesAt b n) [] := by
  have hv : ∀ va ∈ vaBytes b n, 0x440000 ≤ va.toNat ∧ va.toNat < 0x700000 := fun va hv => by
    have := mem_vaBytes (by omega) hv
    omega
  have hp : imaging.agentHere.pure = none := by decide +kernel
  have e := load_reads (s := counted T imaging) (acc := .any) (ev := .normal) hp (cluster_quiet.touched T)
    fun va h => (cluster_reads (hv va h)).touched T
  rw [cluster_tlb T _ hv] at e
  rw [span_eq]
  exact ⟨_, e⟩

theorem header_image : imageOf (bytesAt 0x100000 0x2000) = taskHeader :=
  image_at (by decide) (by decide +kernel) (by decide +kernel) fun j hj => header_byte j (by omega)

/-- The cells of the slot's header, and those above. -/
def headCells : Memory := (smallImage 1 2).filter fun e => decide (e.1 < 0x2000)
def restCells : Memory := (smallImage 1 2).filterMap fun e => if e.1 < 0x2000 then none else some (e.1 - 0x2000, e.2)

theorem small_image_split : smallImage 1 2 = headCells ++ shifted 0x2000 restCells := by decide +kernel

theorem slot_head_image : imageOf (bytesAt 0x442000 4096) = headCells :=
  image_at (by decide) (by decide +kernel) (by decide +kernel) fun j hj => by
    refine (slot_byte j).trans ?_
    rw [small_image_split]
    exact rd_below 0x2000 restCells _ _ (by omega)

theorem zero_image : imageOf (bytesAt 0x443000 4096) = [] :=
  image_at (by decide) rfl rfl fun j hj => by
    refine (congrArg (rdByte imaging.mem) (show 0x443000 + j = 0x442000 + (0x1000 + j) by omega)).trans ?_
    rw [slot_byte, small_image_split, rd_below 0x2000 restCells _ _ (by omega)]
    exact rd_above (top := 0x1000) (by decide +kernel) _ (by omega)

theorem slot_image : imageOf (bytesAt 0x442000 0x280000) = smallImage 1 2 :=
  image_at (by decide) (by decide +kernel) (by decide +kernel) fun j _ => slot_byte j

/-- One slot read. -/
theorem read_one {s s1 s2 : State} {n k : Nat} {base : Word} {head bytes : List Byte}
    (h1 : s.unitRead n (s.launcherAgent n) (vaBytes (slotBase base k) 4096) = .bytes s1 head)
    (h2 : s1.unitRead n (s.launcherAgent n) (vaBytes (slotBase base k) (if headerOk (imageOf head) then imageSize (imageOf head) else 4096)) =
      .bytes s2 bytes) : s.readSlots n base [k] = .ok (s2.uncharged s) [(k, imageOf bytes)] := by
  have e : s.readSlot n base k = .ok (s2.uncharged s) [(k, imageOf bytes)] := by
    simp only [State.readSlot, h1, h2]
  simp only [State.readSlots, readEach, e, List.append_nil]

/-- A task image that a resumption takes: its header's record, one slot, and a free core for it. -/
theorem test_resumption_state :
    let s := imaging
    Asks s 0 .management ∧
    let u := s.openOp 0 2
    let base := (s.polder 0).preempt.base
    ∃ s1 s2 s3 bytes d l,
      let h := imageOf bytes
      let r : Record := BitVec.ofNat 1024 (imgGet h 0 128)
      let p := s2.polder 0
      let slots := headerSlots h p.coreList.length
      base.toNat % 65536 = 0 ∧ u.unitRead 0 (u.launcherAgent 0) (vaBytes base 0x2000) = .bytes s1 bytes ∧
      s1.judgePure 0 r = .ok s2 d ∧ s2.namedTask 0 (Record.id r) = none ∧ s2.readSlots 0 base slots = .ok s3 l ∧
      (∀ x ∈ l, imageOk x.2 = true ∧ p.fitsSlot x = true) ∧ s3.recordBad 0 r = false ∧ countsOk p r h slots = true ∧
      (∀ k ∈ slots, ∃ c, p.coreAt k = some c ∧ (s3.core c).loadable = true) ∧ slots = [1] := by
  have hbase : (imaging.polder 0).preempt.base = 0x100000 := by decide +kernel
  dsimp only
  rw [hbase]
  let u := imaging.openOp 0 2
  have hb : slotBase 0x100000 1 = 0x442000 := by decide +kernel
  have hh : (if headerOk (imageOf (bytesAt 0x442000 4096)) then imageSize (imageOf (bytesAt 0x442000 4096)) else 4096) = 0x280000 := by
    rw [slot_head_image]
    decide +kernel
  obtain ⟨T1, e1⟩ := unit_read u.touched (b := 0x100000) (n := 0x2000) (by decide)
  obtain ⟨T2, e2⟩ := unit_read T1 (b := 0x442000) (n := 4096) (by decide)
  obtain ⟨T3, e3⟩ := unit_read T2 (b := 0x442000) (n := 0x280000) (by decide)
  refine ⟨by constructor <;> decide +kernel, counted T1 u, counted T1 u, (counted T3 u).uncharged (counted T1 u),
    bytesAt 0x100000 0x2000, none, [(1, smallImage 1 2)], by decide, e1, ?_⟩
  rw [header_image]
  have hs : headerSlots taskHeader ((counted T1 u).polder 0).coreList.length = [1] := by
    show headerSlots taskHeader ((imaging.openOp 0 2).polder 0).coreList.length = [1]
    decide +kernel
  rw [hs]
  refine ⟨?_, ?_, ?_, ?_, ?_, ?_, ?_, rfl⟩
  · have : Record.isPure (BitVec.ofNat 1024 (imgGet taskHeader 0 128)) = false := by decide +kernel
    simp [State.judgePure, this]
  · show (imaging.openOp 0 2).namedTask 0 _ = none
    decide +kernel
  · have e := read_one (s := counted T1 u) (n := 0) (k := 1) (base := 0x100000) (by rw [hb]; exact e2) (by rw [hb, hh]; exact e3)
    rw [slot_image] at e
    exact e
  · intro x hx
    rw [List.mem_singleton.mp hx]
    dsimp only
    refine ⟨small_image_good, ?_⟩
    show ((imaging.openOp 0 2).polder 0).fitsSlot (1, smallImage 1 2) = true
    decide +kernel
  · show (imaging.openOp 0 2).recordBad 0 _ = false
    decide +kernel
  · show countsOk ((imaging.openOp 0 2).polder 0) _ taskHeader [1] = true
    decide +kernel
  · intro k hk
    rw [List.mem_singleton.mp hk]
    refine ⟨1, ?_, ?_⟩
    · show ((imaging.openOp 0 2).polder 0).coreAt 1 = some 1
      decide +kernel
    · show ((imaging.openOp 0 2).core 1).loadable = true
      decide +kernel

/-- CTXLOAD of the slot's image, and of zeros. -/
theorem test_ctxload_states :
    let s := imaging
    Settled s ∧ mine s [s.getS 6] = none ∧ (s.getS 6).toNat % 4096 = 0 ∧ (s.getS 7).toNat % 4096 = 0 ∧ s.reductionsOut = false ∧
      s.me.fetched = [] ∧
    (∃ s1 head, s.load s.agentHere .any .normal (span (s.getS 7) 4096) = .ok s1 head [] ∧ headerOk (imageOf head) = false) ∧
    ∃ s1 s2 head bytes c, s.load s.agentHere .any .normal (span (s.getS 6) 4096) = .ok s1 head [] ∧ headerOk (imageOf head) = true ∧
      (s1.uncharged s).load (s1.uncharged s).agentHere .any .normal (span (s.getS 6) (imageSize (imageOf head))) = .ok s2 bytes [] ∧
      let v := s2.uncharged s
      imageOk (imageOf bytes) = true ∧ (v.polder v.here.polderNo).fits (imageOf bytes) = true ∧
      (v.polder v.here.polderNo).place (imgGet (imageOf bytes) 0x10 1) (imgGet (imageOf bytes) 0x11 1) = some c ∧
      c ≠ s.actor.core ∧ (v.core c).loadable = true := by
  have h6 : imaging.getS 6 = 0x442000 := by decide +kernel
  have h7 : imaging.getS 7 = 0x443000 := by decide +kernel
  have hh : imageSize (imageOf (bytesAt 0x442000 4096)) = 0x280000 := by rw [slot_head_image]; decide +kernel
  dsimp only
  rw [h6, h7]
  obtain ⟨T1, e1⟩ := cluster_read imaging.touched (b := 0x442000) (n := 4096) (by decide)
  obtain ⟨T2, e2⟩ := cluster_read imaging.touched (b := 0x442000) (n := 0x280000) (by decide)
  obtain ⟨T3, e3⟩ := cluster_read imaging.touched (b := 0x443000) (n := 4096) (by decide)
  refine ⟨⟨by decide +kernel, by decide +kernel, by decide +kernel⟩, by decide +kernel, by decide +kernel, by decide +kernel, by decide +kernel,
    by decide +kernel, ⟨_, _, e3, by rw [zero_image]; decide +kernel⟩, _, counted T2 imaging, bytesAt 0x442000 4096, bytesAt 0x442000 0x280000, 1, e1, ?_, ?_, ?_⟩
  · rw [slot_head_image]; decide +kernel
  · rw [hh]; exact e2
  · rw [slot_image]
    refine ⟨small_image_good, ?_, ?_, by decide, ?_⟩
    · show (imaging.polder imaging.here.polderNo).fits (smallImage 1 2) = true
      decide +kernel
    · show (imaging.polder imaging.here.polderNo).place (imgGet (smallImage 1 2) 0x10 1) (imgGet (smallImage 1 2) 0x11 1) = some 1
      decide +kernel
    · show (imaging.core 1).loadable = true
      decide +kernel

end Sys2Proof.Tests
end

section
/-!
PROOFS. Words by their bits: what a word given bit by bit holds at each bit, the bytes of a number, and the model's
value functions of R86 and R88 in the form the statements give them.
-/

namespace Sys2Proof.Machine

open Says

/-! ### A word given bit by bit -/

theorem sum_bits_lt (f : Nat → Bool) (n : Nat) : ((List.range n).map fun j => if f j then 2 ^ j else 0).sum < 2 ^ n := by
  induction n with
  | zero => simp
  | succ n ih =>
    rw [List.range_succ, List.map_append, List.sum_append, Nat.pow_succ]
    cases hf : f n <;> simp [hf] <;> omega

/-- The last summand is a multiple of `2 ^ n`, and the sum before it lies below `2 ^ n`. -/
theorem testBit_sum_bits (f : Nat → Bool) (i n : Nat) :
    ((List.range n).map fun j => if f j then 2 ^ j else 0).sum.testBit i = (decide (i < n) && f i) := by
  induction n with
  | zero => simp
  | succ n ih =>
    have top : (if f n then 2 ^ n else 0) = 2 ^ n * (f n).toNat := by cases f n <;> simp
    rw [List.range_succ, List.map_append, List.sum_append, List.map_singleton, List.sum_singleton, top, Nat.add_comm,
      Nat.testBit_two_pow_mul_add _ (sum_bits_lt f n)]
    split
    · next h => rw [ih, decide_eq_true h, decide_eq_true (Nat.lt_succ_of_lt h)]
    · next h =>
      rw [Nat.testBit_bool_toNat]
      by_cases hi : i = n
      · simp [hi]
      · simp [show ¬ i - n = 0 by omega, show ¬ i < n + 1 by omega]

theorem getLsbD_ofBits (f : Nat → Bool) (i : Nat) : (ofBits f).getLsbD i = (decide (i < 64) && f i) := by
  simp [ofBits, BitVec.getLsbD_ofNat, testBit_sum_bits f i]

theorem eq_ofBits {x : Word} {f : Nat → Bool} (h : ∀ i < 64, x.getLsbD i = f i) : x = ofBits f := by
  apply BitVec.eq_of_getLsbD_eq
  intro i hi
  rw [getLsbD_ofBits, h i hi, decide_eq_true hi, Bool.true_and]

/-! ### The bytes of a number -/

theorem testBit_leNat (l : List Byte) (i : Nat) : (leNat l).testBit i = (l.getD (i / 8) 0).getLsbD (i % 8) := by
  induction l generalizing i with
  | nil => simp [leNat]
  | cons b bs ih =>
    rw [leNat, Nat.add_comm, show 256 = 2 ^ 8 from rfl, Nat.testBit_two_pow_mul_add _ b.isLt]
    split
    · next h => rw [Nat.div_eq_of_lt h, Nat.mod_eq_of_lt h]; rfl
    · next h =>
      obtain ⟨j, rfl⟩ := Nat.exists_eq_add_of_le (Nat.le_of_not_lt h)
      rw [Nat.add_sub_cancel_left, ih, Nat.add_div_left _ (by decide), Nat.add_mod_left, List.getD_cons_succ]

theorem getD_leBytes (n v j : Nat) (hj : j < n) : (leBytes n v).getD j 0 = BitVec.ofNat 8 (v / 2 ^ (8 * j)) := by
  induction n generalizing v j with
  | zero => omega
  | succ n ih =>
    cases j with
    | zero => simp [leBytes]
    | succ j =>
      rw [leBytes, List.getD_cons_succ, ih _ j (by omega), show 256 = 2 ^ 8 from rfl, Nat.div_div_eq_div_mul, ← Nat.pow_add,
        Nat.mul_succ, Nat.add_comm]

theorem length_leBytes (n v : Nat) : (leBytes n v).length = n := by
  induction n generalizing v with
  | zero => rfl
  | succ n ih => rw [leBytes, List.length_cons, ih]

/-! ### Values given bit by bit -/

theorem reverse_eq_ofBits (a : Word) : a.reverse = ofBits fun i => a.getLsbD (63 - i) := by
  refine eq_ofBits fun i hi => ?_
  rw [BitVec.getLsbD_reverse, BitVec.getMsbD, decide_eq_true hi, Bool.true_and]

theorem byteSwap_eq_ofBits (a : Word) : byteSwap a = ofBits fun i => a.getLsbD (8 * (7 - i / 8) + i % 8) := by
  refine eq_ofBits fun i hi => ?_
  have hj : i / 8 < 8 := by omega
  have hm : i % 8 < 8 := Nat.mod_lt _ (by decide)
  have hrev : (leBytes 8 a.toNat).reverse.getD (i / 8) 0 = (leBytes 8 a.toNat).getD (7 - i / 8) 0 := by
    rw [List.getD_eq_getElem?_getD, List.getElem?_reverse (by rw [length_leBytes]; exact hj), length_leBytes,
      ← List.getD_eq_getElem?_getD]
  rw [byteSwap, BitVec.getLsbD_ofNat, testBit_leNat, hrev, getD_leBytes _ _ _ (by omega), BitVec.getLsbD_ofNat,
    Nat.testBit_div_two_pow, decide_eq_true hi, decide_eq_true hm, Bool.true_and, Bool.true_and, Nat.add_comm]
  rfl

/-- The field of `len` ones from bit `pos` up. -/
theorem getLsbD_ones (pos len i : Nat) :
    (BitVec.ofNat 64 ((2 ^ len - 1) * 2 ^ pos)).getLsbD i = (decide (i < 64) && decide (pos ≤ i ∧ i < pos + len)) := by
  rw [BitVec.getLsbD_ofNat, Nat.testBit_mul_two_pow, Nat.testBit_two_pow_sub_one, ← Bool.decide_and]
  congr 2
  apply propext
  omega

theorem insertBits_eq_ofBits (a b : Word) (pos len : Nat) : insertBits a b pos len = ofBits fun i =>
    if pos ≤ i ∧ i < pos + len then a.getLsbD (i - pos) else b.getLsbD i := by
  refine eq_ofBits fun i hi => ?_
  simp only [insertBits, BitVec.getLsbD_or, BitVec.getLsbD_and, BitVec.getLsbD_not, getLsbD_ones, BitVec.getLsbD_shiftLeft,
    hi, decide_true, Bool.true_and]
  by_cases h : pos ≤ i ∧ i < pos + len
  · simp [h, Nat.not_lt.mpr h.1]
  · simp [h]

theorem popCount_eq_countP (a : Word) : popCount a = BitVec.ofNat 64 ((List.range 64).countP a.getLsbD) := by
  rw [popCount, List.countP_eq_length_filter]

/-! ### Shifts as products and quotients -/

theorem shiftLeft_eq_ofNat (a : Word) (n : Nat) : a <<< n = BitVec.ofNat 64 (a.toNat * 2 ^ n) := by
  apply BitVec.eq_of_toNat_eq
  rw [BitVec.toNat_shiftLeft, Nat.shiftLeft_eq, BitVec.toNat_ofNat]

theorem shiftLeft_eq_mul (a : Word) (n : Nat) : a <<< n = a * BitVec.ofNat 64 (2 ^ n) := by
  rw [shiftLeft_eq_ofNat, BitVec.ofNat_mul, BitVec.ofNat_toNat, BitVec.setWidth_eq]

theorem ushiftRight_eq_ofNat (a : Word) (n : Nat) : a >>> n = BitVec.ofNat 64 (a.toNat / 2 ^ n) := by
  rw [← Nat.shiftRight_eq_div_pow, ← BitVec.toNat_ushiftRight, BitVec.ofNat_toNat, BitVec.setWidth_eq]

theorem sshiftRight_eq_ofInt (a : Word) (n : Nat) : a.sshiftRight n = BitVec.ofInt 64 (a.toInt / 2 ^ n) := by
  rw [BitVec.sshiftRight, Int.shiftRight_eq_div_pow]
  norm_cast

theorem toNat_zext64_mod (n : BitVec 6) : (zext64 n).toNat % 64 = n.toNat := by
  rw [zext64, BitVec.toNat_setWidth]
  omega

theorem fShl_zext64 (a : Word) (n : BitVec 6) : fShl a (zext64 n) = BitVec.ofNat 64 (a.toNat * 2 ^ n.toNat) := by
  rw [fShl, toNat_zext64_mod, shiftLeft_eq_ofNat]

theorem fShr_zext64 (a : Word) (n : BitVec 6) : fShr a (zext64 n) = BitVec.ofNat 64 (a.toNat / 2 ^ n.toNat) := by
  rw [fShr, toNat_zext64_mod, ushiftRight_eq_ofNat]

theorem fSar_zext64 (a : Word) (n : BitVec 6) : fSar a (zext64 n) = BitVec.ofInt 64 (a.toInt / 2 ^ n.toNat) := by
  rw [fSar, toNat_zext64_mod, sshiftRight_eq_ofInt]

/-! ### Fields of a word, and minima and maxima -/

/-- The top bit of a field of `len` bits; an empty field has none set. -/
theorem signBit_eq_one_iff {n len : Nat} (h : n < 2 ^ len) : n / 2 ^ (len - 1) % 2 = 1 ↔ 2 ^ (len - 1) ≤ n := by
  cases len with
  | zero =>
    obtain rfl : n = 0 := by simpa using h
    simp
  | succ k =>
    rw [Nat.pow_succ] at h
    have hq : n / 2 ^ k < 2 := Nat.div_lt_of_lt_mul h
    have hone : 1 ≤ n / 2 ^ k ↔ 2 ^ k ≤ n := by rw [Nat.le_div_iff_mul_le (Nat.two_pow_pos k), Nat.one_mul]
    rw [Nat.add_sub_cancel, Nat.mod_eq_of_lt hq, ← hone]
    omega

/-- A field is sign-extended whatever its length: one longer than a word has its top bit clear. -/
theorem extractS_eq_ofInt (a : Word) (pos len : Nat) :
    extractS a pos len = BitVec.ofInt 64 (signedLow len (a.toNat / 2 ^ pos)) := by
  have hlen : a.toNat / 2 ^ pos % 2 ^ len < 2 ^ len := Nat.mod_lt _ (Nat.two_pow_pos len)
  have h64 : a.toNat / 2 ^ pos % 2 ^ len < 2 ^ 64 :=
    Nat.lt_of_le_of_lt ((Nat.mod_le _ _).trans (Nat.div_le_self _ _)) a.isLt
  unfold extractS signedLow
  generalize a.toNat / 2 ^ pos % 2 ^ len = n at hlen h64 ⊢
  simp only [signBit_eq_one_iff hlen]
  by_cases hn : 2 ^ (len - 1) ≤ n
  · have hlt : len - 1 < 64 := (Nat.pow_lt_pow_iff_right (by decide)).mp (Nat.lt_of_le_of_lt hn h64)
    have hp : 2 ^ len ≤ 2 ^ 64 := Nat.pow_le_pow_right (by decide) (by omega)
    have hc : ((2 : Int) ^ len) = ((2 ^ len : Nat) : Int) := by norm_cast
    rw [if_pos hn, if_neg (Nat.not_lt.mpr hn), hc]
    generalize 2 ^ len = m at hlen hp ⊢
    apply BitVec.eq_of_toNat_eq
    rw [BitVec.toNat_ofNat, BitVec.toNat_ofInt]
    omega
  · rw [if_neg hn, if_pos (Nat.lt_of_not_le hn), BitVec.ofInt_natCast]

theorem extractS_low (a : Word) (len : Nat) : extractS a 0 len = BitVec.ofInt 64 (signedLow len a.toNat) := by
  rw [extractS_eq_ofInt, Nat.pow_zero, Nat.div_one]

theorem extractU_low (a : Word) (len : Nat) : extractU a 0 len = BitVec.ofNat 64 (a.toNat % 2 ^ len) := by
  rw [extractU, Nat.pow_zero, Nat.div_one]

theorem append_eq_ofNat (imm : BitVec 32) (a : Word) :
    imm ++ a.setWidth 32 = BitVec.ofNat 64 (a.toNat % 2 ^ 32 + imm.toNat * 2 ^ 32) := by
  apply BitVec.eq_of_toNat_eq
  rw [BitVec.toNat_append, ← Nat.shiftLeft_add_eq_or_of_lt (BitVec.isLt _), BitVec.toNat_setWidth, Nat.shiftLeft_eq,
    BitVec.toNat_ofNat]
  omega

theorem ite_le_eq_ite_lt {α β : Type} [LinearOrder α] (x y : α) (a b : β) :
    (if x ≤ y then a else b) = if y < x then b else a := by
  simp only [← not_lt, ite_not]

end Sys2Proof.Machine
end

section
/-!
PROOFS. O1: the scalar instructions of one and two register operands (R86 to R88).
-/

namespace Sys2Proof.Machine

open Says

theorem exec_of_binary {i : Instr} {rd ra rb : SReg} {f : Word → Word → Word} (s : State)
    (h : binary i = some (rd, ra, rb, f)) : exec i s = writeS rd (f (s.getS ra) (s.getS rb)) s := by
  cases i with
  | add | sub | mul | mulh | mulhu | div | divu | rem | remu | and | or | xor | andn | rotr => cases h; rfl
  | shl => cases h; exact congrArg (writeS _ · s) (shiftLeft_eq_ofNat _ _)
  | shr => cases h; exact congrArg (writeS _ · s) (ushiftRight_eq_ofNat _ _)
  | sar => cases h; exact congrArg (writeS _ · s) (sshiftRight_eq_ofInt _ _)
  | min | max | minu | maxu => cases h; exact congrArg (writeS _ · s) (ite_le_eq_ite_lt _ _ _ _)
  | lea => cases h; exact congrArg (fun v => writeS _ (s.getS _ + v) s) (shiftLeft_eq_mul _ _)
  | insr => cases h; exact congrArg (writeS _ · s) (insertBits_eq_ofBits _ _ _ _)
  | _ => cases h

theorem exec_of_unary {i : Instr} {rd ra : SReg} {f : Word → Word} (s : State)
    (h : unary i = some (rd, ra, f)) : exec i s = writeS rd (f (s.getS ra)) s := by
  cases i with
  | clz | ctz | mov | extru | addi | andi | ori | xori | muli => cases h; rfl
  | popc => cases h; exact congrArg (writeS _ · s) (popCount_eq_countP _)
  | brev => cases h; exact congrArg (writeS _ · s) (reverse_eq_ofBits _)
  | bswap => cases h; exact congrArg (writeS _ · s) (byteSwap_eq_ofBits _)
  | extr => cases h; exact congrArg (writeS _ · s) (extractS_eq_ofInt _ _ _)
  | sext _ _ w =>
    cases w with
    | w8 | w16 | w32 => cases h; exact congrArg (writeS _ · s) (extractS_low _ _)
  | zext _ _ w =>
    cases w with
    | w8 | w16 | w32 => cases h; exact congrArg (writeS _ · s) (extractU_low _ _)
  | shli => cases h; exact congrArg (writeS _ · s) (fShl_zext64 _ _)
  | shri => cases h; exact congrArg (writeS _ · s) (fShr_zext64 _ _)
  | sari => cases h; exact congrArg (writeS _ · s) (fSar_zext64 _ _)
  | lih => cases h; exact congrArg (writeS _ · s) (append_eq_ofNat _ _)
  | _ => cases h

theorem exists_wroteScalar (s : State) (rd : SReg) (v : Word) {r : Res} (h : r = writeS rd v s) :
    ∃ t, r = .next t ∧ WroteScalar s t rd v := ⟨_, h, wroteScalar s rd v⟩

/-- Settles O1: each instruction is a write of the value that the tables give it, and a write leaves the rest. -/
theorem scalarResults : Obligations.ScalarResults :=
  ⟨fun _ _ _ _ _ s h => exists_wroteScalar s _ _ (exec_of_binary s h),
   fun _ _ _ _ s h => exists_wroteScalar s _ _ (exec_of_unary s h)⟩

end Sys2Proof.Machine
end

section
/-!
PROOFS. O2: the instructions that write predicates (R90, R91).
-/

namespace Sys2Proof.Machine

open Says

theorem compareS_eq_holds (cc : Cond) (a b : Word) : compareS cc a b = holds cc a b := by
  cases cc with
  | ne => exact (decide_not ..).symm
  | _ => rfl

theorem exec_of_predicate {i : Instr} {pd : PReg} {b : Bool} (s : State) (h : predicate s i = some (pd, b)) :
    exec i s = writeP pd b s := by
  cases i with
  | cmp | cmpi => cases h; exact congrArg (writeP _ · s) (compareS_eq_holds _ _ _)
  | pand | por | pxor | pnot | tstb => cases h; rfl
  | _ => cases h

/-! ### SETP -/

/-- The predicate bits after SETP: those that the mask names, but bit 0, come from the word. -/
def setpBits (p mask : BitVec 16) (a : Word) : BitVec 16 :=
  (p &&& ~~~(mask &&& ~~~1)) ||| (a.setWidth 16 &&& (mask &&& ~~~1))

/-- The executing cluster after SETP has written its predicates, before the bundle completes. -/
def State.setpMe (s : State) (ra : SReg) (mask : BitVec 16) : ClusterState :=
  { s.me with p := setpBits s.me.p mask (s.getS ra) }

theorem exec_setp (ra : SReg) (mask : BitVec 16) (s : State) :
    exec (.setp ra mask) s = .next (s.setMe (s.setpMe ra mask)).complete := rfl

theorem getLsbD_setpBits (p mask : BitVec 16) (a : Word) {n : Nat} (h0 : n ≠ 0) (hn : n < 16) :
    (setpBits p mask a).getLsbD n = if mask.getLsbD n then a.getLsbD n else p.getLsbD n := by
  have h1 : (1 : BitVec 16).getLsbD n = false := by simp [BitVec.getLsbD_one, h0]
  simp only [setpBits, BitVec.getLsbD_or, BitVec.getLsbD_and, BitVec.getLsbD_not, BitVec.getLsbD_setWidth, h1, hn,
    decide_true, Bool.not_false, Bool.and_true, Bool.true_and]
  cases mask.getLsbD n <;> simp

theorem getP_setpMe (s : State) (ra : SReg) (mask : BitVec 16) (n : PReg) : (s.setpMe ra mask).getP n =
    if n ≠ 0 ∧ mask.getLsbD n.toNat then (s.getS ra).getLsbD n.toNat else s.getP n := by
  by_cases h0 : n = 0
  · subst h0
    rfl
  · have hn : n.toNat ≠ 0 := fun e => h0 (BitVec.eq_of_toNat_eq e)
    simp only [State.getP, ClusterState.getP, State.setpMe, h0, if_false, getLsbD_setpBits _ _ _ hn n.isLt, ne_eq,
      not_false_eq_true, true_and]

theorem setMe_complete (s : State) (q : ClusterState) : (s.setMe q).complete = (s.setMe q.complete).markDone := by
  show ((s.setMe q).setMe (s.setMe q).me.complete).markDone = _
  rw [setMe_setMe, me_setMe]

theorem getS_setMe_complete (s : State) (q : ClusterState) (r : SReg) : (s.setMe q).complete.getS r = q.getS r := by
  rw [setMe_complete, State.getS, me_markDone, me_setMe]
  rfl

theorem getP_setMe_complete (s : State) (q : ClusterState) (n : PReg) : (s.setMe q).complete.getP n = q.getP n := by
  rw [setMe_complete, State.getP, me_markDone, me_setMe]
  rfl

theorem setp_writes (ra : SReg) (mask : BitVec 16) (s : State) :
    let t := (s.setMe (s.setpMe ra mask)).complete
    (∀ n : PReg, t.getP n = if n ≠ 0 ∧ mask.getLsbD n.toNat then (s.getS ra).getLsbD n.toNat else s.getP n) ∧
    (∀ r, t.getS r = s.getS r) ∧ GoesOn s t (loopEnd s.me.pc s.me.loops).1 (loopEnd s.me.pc s.me.loops).2 ∧
    OnlyCluster s t := by
  refine ⟨fun n => ?_, fun r => ?_, ?_, ?_⟩
  · rw [getP_setMe_complete, getP_setpMe]
  · rw [getS_setMe_complete]
    rfl
  · rw [setMe_complete]
    exact goesOn_complete s _ rfl rfl rfl rfl rfl rfl rfl
  · rw [setMe_complete]
    exact onlyCluster_setMe s _

/-- Settles O2: each instruction is a write of the predicate that the rules give it, and SETP writes the bits it names. -/
theorem predicateResults : Obligations.PredicateResults :=
  ⟨fun _ pd b s h => ⟨_, exec_of_predicate s h, wrotePred s pd b⟩,
   fun ra mask s => ⟨_, exec_setp ra mask s, setp_writes ra mask s⟩⟩

end Sys2Proof.Machine
end

section
/-!
PROOFS. O3 and O5: what branches, calls, returns and LBREAK do to the loop stack (R92, R93, R99, R100).
-/

namespace Sys2Proof.Machine

open Says

/-! ### Branches, calls and returns where they complete -/

theorem popOutside_eq_kept (t : Word) (ls : List LoopEntry) : popOutside t ls = kept t ls := by
  induction ls with
  | nil => rfl
  | cons l ls ih =>
    by_cases h : l.start.toNat ≤ t.toNat ∧ t.toNat ≤ l.last.toNat
    · rw [popOutside, if_pos h]
      exact (List.dropWhile_cons_of_neg (by simp [inBody, h])).symm
    · rw [popOutside, if_neg h, ih]
      exact (List.dropWhile_cons_of_pos (by rw [inBody, decide_eq_false h]; rfl)).symm

theorem alignedTarget_of_aligned {a : Word} (s : State) (m : State → Res) (h : a.toNat % 32 = 0) :
    alignedTarget a s m = m s := if_neg (not_not.mpr h)

theorem exec_bri_of_aligned {s : State} {ra : SReg} (h : (s.getS ra).toNat % 32 = 0) :
    exec (.bri ra) s = branchTo (s.getS ra) s := alignedTarget_of_aligned s _ h

theorem exec_calli_of_aligned {s : State} {ra : SReg} (h : (s.getS ra).toNat % 32 = 0) :
    exec (.calli ra) s = .next ((s.setS 63 (s.me.pc + 32)).completeTo (s.getS ra) s.me.loops) := by
  show execCalli ra s = _
  rw [execCalli, alignedTarget_of_aligned s _ h]

theorem exec_ret_of_aligned {s : State} {ra : SReg} (h : (s.getS ra).toNat % 32 = 0) :
    exec (.ret ra) s = .next (s.completeTo (s.getS ra) s.me.loops) := by
  show execRet ra s = _
  rw [execRet, alignedTarget_of_aligned s _ h]

/-- A scalar queue with an entry gives it to its reader. -/
theorem popS_of_mayRead {q : QReg} {s : State} {v : Word} {rest : List Word} (m : Word → List Word → State → Res)
    (hq : mayRead s q) (hl : s.here.squeue q = v :: rest) : popS q s m = m v rest s := by
  obtain ⟨hin, hrd⟩ := hq
  simp [popS, State.guarded, hin, hrd, hl]

theorem exec_brq_taken {q : QReg} {off : BitVec 32} {s : State} {v : Word} {rest : List Word} (hq : mayRead s q)
    (hl : s.here.squeue q = v :: rest) (hv : v.getLsbD 0 = true) :
    exec (.brq q off) s = branchTo (target s off) (withS s q rest) := by
  show execBrq q off s = _
  rw [execBrq, popS_of_mayRead _ hq hl, if_pos hv]
  rfl

theorem me_withS (s : State) (q : QReg) (l : List Word) : (withS s q l).me = s.me := by
  rw [withS, me_setHere]
  rfl

/-! ### The loop stack -/

theorem loops_completeTo (s : State) (pc : Word) (ls : List LoopEntry) : (s.completeTo pc ls).me.loops = ls :=
  (wentTo s pc ls).next.loops

theorem loops_of_branchTo {a : Word} {s t : State} (h : branchTo a s = .next t) :
    t.me.loops = kept t.me.pc s.me.loops := by
  cases h
  rw [loops_completeTo, (wentTo s a (popOutside a s.me.loops)).next.pc, popOutside_eq_kept]

theorem loops_of_completeTo {s t : State} {pc : Word} {ls : List LoopEntry}
    (h : (.next (s.completeTo pc ls) : Res) = .next t) : t.me.loops = ls := by
  cases h
  exact loops_completeTo s pc ls

/-- Settles O3: a taken branch goes through `branchTo`, whose stack is the kept one, and calls and returns hand the stack
on. -/
theorem takenBranchesPopLoops : Obligations.TakenBranchesPopLoops := by
  intro s t
  refine ⟨fun off h => loops_of_branchTo h, fun ra ha h => ?_, fun q off v rest hq hl hv h => ?_,
    fun off h => loops_of_completeTo h, fun ra ha h => ?_⟩
  · exact loops_of_branchTo ((exec_bri_of_aligned ha).symm.trans h)
  · rw [loops_of_branchTo ((exec_brq_taken hq hl hv).symm.trans h), me_withS]
  · rcases h with h | h
    · exact loops_of_completeTo ((exec_calli_of_aligned ha).symm.trans h)
    · exact loops_of_completeTo ((exec_ret_of_aligned ha).symm.trans h)

/-! ### LBREAK -/

theorem exec_lbreak_cons {s : State} {l : LoopEntry} {ls : List LoopEntry} (h : s.me.loops = l :: ls) :
    exec .lbreak s = .next (s.completeTo (loopEnd l.last ls).1 (loopEnd l.last ls).2) := by
  show execLbreak s = _
  rw [execLbreak, h]

theorem exec_lbreak_nil {s : State} (h : s.me.loops = []) : exec .lbreak s = s.faultHere .loopStructure s.me.pc := by
  show execLbreak s = _
  rw [execLbreak, h]

/-- Settles O5, by the two cases of the loop stack. -/
theorem lbreakLeavesTheInnermostLoop : Obligations.LbreakLeavesTheInnermostLoop :=
  fun s => ⟨fun _ _ h => ⟨_, exec_lbreak_cons h, wentTo s _ _⟩, exec_lbreak_nil⟩

end Sys2Proof.Machine
end
